-- ==== Sys2Proof/Word.lean ====
section
/-! DEFINITION. The word types of the 9768 and their plainest arithmetic. -/

namespace Sys2Proof

/-- A 64-bit register value, address or instruction word. -/
abbrev W64 := BitVec 64

/-- A byte of memory. -/
abbrev Byte := BitVec 8

/-- A poison token (R196). -/
abbrev Tok := BitVec 32

/-- A thread's place in the package: core × 2048 + lane × 128 + slot (R10). -/
abbrev Tid := Nat

/-- Bits [hi:lo] of a word, as a number. -/
def bitsOf (v : Nat) (hi lo : Nat) : Nat := (v >>> lo) % 2 ^ (hi + 1 - lo)

/-- A w-bit number read as a two's-complement integer. -/
def toSigned (w v : Nat) : Int := if v % 2 ^ w < 2 ^ (w - 1) then (v % 2 ^ w : Nat) else ((v % 2 ^ w : Nat) : Int) - 2 ^ w

/-- An integer reduced modulo 2^w. -/
def wrapTo (w : Nat) (z : Int) : Nat := (z % (2 ^ w : Int)).toNat

/-- ceil(a ÷ b) (b > 0). -/
def ceilDiv (a b : Nat) : Nat := (a + b - 1) / b

end Sys2Proof
end

