-- ==== Sys2Proof/Syntax.lean ====
section
/-! DEFINITION. The instructions and events of the 9768: one constructor of `Instr` per row of the opcode table. -/

namespace Sys2Proof

/-- An operand field: start slice and width code (R37). -/
structure Opd where
  start : BitVec 9
  wc    : BitVec 3
  deriving DecidableEq, Repr

/-- The exchange codes (R38, R119). -/
inductive Exch where
  | self | dn1 | up1 | bc0 | x1 | xk | mir | chn
  deriving DecidableEq, Repr

/-- The common prefix after opcode and sub-operation: U, P, PN (R36). -/
structure Pfx where
  u  : Bool
  p  : BitVec 3
  pn : Bool
  deriving DecidableEq, Repr

/-- R-form and stream-form operand fields (R40, R44). `r4` is bit [4]: RU, or FUT in the stream form.
`e` is the xk exponent, MOD[2:0] of a word with an exchange field of 101 (R38). -/
structure RForm where
  x  : Pfx
  d  : Opd
  a  : Opd
  ax : Exch
  b  : Opd
  bx : Exch
  r4 : Bool
  e  : BitVec 3
  deriving DecidableEq, Repr

/-- I-form operand fields (R41). -/
structure IForm where
  x   : Pfx
  d   : Opd
  a   : Opd
  ax  : Exch
  imm : BitVec 20
  deriving DecidableEq, Repr

/-- Branch-form fields (R42): `fld` is [46:32]. -/
structure BForm where
  x    : Pfx
  fld  : BitVec 15
  disp : BitVec 32
  deriving DecidableEq, Repr

/-- Memory-form fields (R43). -/
structure MForm where
  x   : Pfx
  d   : Opd
  a   : Opd
  ax  : Exch
  ofs : BitVec 16
  e   : BitVec 3
  deriving DecidableEq, Repr

/-- Fabric-form fields (R46). -/
structure FForm where
  x   : Pfx
  d   : Opd
  a   : Opd
  ax  : Exch
  imm : BitVec 12
  fut : Bool
  deriving DecidableEq, Repr

/-- Matrix-form fields (R45). -/
structure XForm where
  x    : Pfx
  h    : BitVec 9
  sc   : BitVec 9
  kcnt : BitVec 8
  bsel : BitVec 3
  ainc : Bool
  fe   : Bool
  fd   : BitVec 9
  fmt  : BitVec 6
  deriving DecidableEq, Repr

/-- Rounding modifiers of the float entries: rnd, .sat, .px (R48). -/
structure FMod where
  rnd : BitVec 2
  sat : Bool
  px  : Bool
  deriving DecidableEq, Repr

/-- A fabric flit: header fields and 64-byte payload (R340). -/
structure Flit where
  type    : BitVec 4
  dst     : BitVec 12
  src     : BitVec 12
  state   : BitVec 2
  relayed : Bool
  last    : Bool
  tag     : BitVec 16
  check   : BitVec 16
  payload : BitVec 512
  deriving DecidableEq, Repr

/-- Which register space a REGISTER_WRITE addresses (R6, R381). -/
inductive RegSpace where
  | system | host
  deriving DecidableEq, Repr

/-- One attempt of a bring-up step (R397): the step, the unit concerned, and the method, 0 the primary one. -/
structure Attempt where
  step   : Nat
  unit   : Nat
  method : Nat
  deriving DecidableEq, Repr

/-- What the world brings to a bring-up (R397): the attempts that fail, and the device number Troham gives. -/
structure BringUp where
  fails  : List Attempt
  device : BitVec 12
  deriving DecidableEq, Repr

/-- The wake events of R391. -/
inductive Wake where
  | hostAccess | flit | timer | wakeWrite (core : Nat) | watchedLine (core : Nat) | pageAnswer | troham
  deriving DecidableEq, Repr

/-- The commands of the board controller over I3C (R392). -/
inductive I3c where
  | readTemperature | readPower | readRails | readEcs | readJournal | readAttestation | setPowerLimit (watts : Nat) | other
  deriving DecidableEq, Repr

/-- One step of the machine: an instruction word's decoded form, or an event (opcode_table.json, one constructor a row). -/
inductive Instr where
  -- group 000, integer and packed narrow (R49)
  | iadd (sg : Bool) (wc : BitVec 3) (sat : Bool) (f : RForm)
  | iaddImm (sg : Bool) (wc : BitVec 3) (f : IForm)
  | isub (sg : Bool) (wc : BitVec 3) (sat : Bool) (f : RForm)
  | imul (sg : Bool) (wc : BitVec 3) (f : RForm)
  | imulh (sg : Bool) (wc : BitVec 3) (f : RForm)
  | imad (sg : Bool) (wc : BitVec 3) (sat : Bool) (f : RForm)
  | idiv (sg : Bool) (wc : BitVec 3) (f : RForm)
  | irem (sg : Bool) (wc : BitVec 3) (f : RForm)
  | imin (sg : Bool) (wc : BitVec 3) (f : RForm)
  | imax (sg : Bool) (wc : BitVec 3) (f : RForm)
  | iabs (wc : BitVec 3) (sat : Bool) (f : RForm)
  | ineg (wc : BitVec 3) (sat : Bool) (f : RForm)
  | and_ (f : RForm)
  | or_ (f : RForm)
  | xor_ (f : RForm)
  | andn (f : RForm)
  | not_ (f : RForm)
  | andImm (f : IForm)
  | orImm (f : IForm)
  | xorImm (f : IForm)
  | andnImm (f : IForm)
  | lut3 (table : BitVec 8) (f : RForm)
  | shl (f : RForm)
  | shr (f : RForm)
  | sar (f : RForm)
  | rot (f : RForm)
  | shlImm (f : IForm)
  | shrImm (f : IForm)
  | sarImm (f : IForm)
  | rotImm (f : IForm)
  | bfx (sg : Bool) (f : RForm)
  | bfi (f : RForm)
  | popc (f : RForm)
  | clz (f : RForm)
  | ctz (f : RForm)
  | brev (f : RForm)
  | icmp (sg : Bool) (cond : BitVec 3) (f : RForm)
  | icmpImm (sg : Bool) (cond : BitVec 3) (f : IForm)
  | isel (neg : Bool) (sel : BitVec 3) (f : RForm)
  | movZ (f : RForm)
  | movS (f : RForm)
  | movx (f : RForm)
  | movxw (f : RForm)
  | movi (z : Bool) (f : IForm)
  | movh (pos : BitVec 2) (f : IForm)
  | pack (ew : BitVec 2) (f : RForm)
  | unpk (ew : BitVec 2) (f : RForm)
  | padd (sg : Bool) (ew : BitVec 2) (sat : Bool) (f : RForm)
  | psub (sg : Bool) (ew : BitVec 2) (sat : Bool) (f : RForm)
  | pmin (sg : Bool) (ew : BitVec 2) (f : RForm)
  | pmax (sg : Bool) (ew : BitVec 2) (f : RForm)
  | pabs (ew : BitVec 2) (f : RForm)
  | pcmp (sg : Bool) (ew : BitVec 2) (cond : BitVec 3) (f : RForm)
  | pdot (sg : Bool) (ew : BitVec 2) (f : RForm)
  -- group 001, float, conversion and binary8 (R50)
  | fadd (fmt : BitVec 2) (m : FMod) (f : RForm)
  | fsub (fmt : BitVec 2) (m : FMod) (f : RForm)
  | fmul (fmt : BitVec 2) (m : FMod) (f : RForm)
  | ffma (fmt : BitVec 2) (m : FMod) (f : RForm)
  | fmin (fmt : BitVec 2) (px : Bool) (f : RForm)
  | fmax (fmt : BitVec 2) (px : Bool) (f : RForm)
  | fabs (fmt : BitVec 2) (f : RForm)
  | fneg (fmt : BitVec 2) (f : RForm)
  | fcmp (fmt : BitVec 2) (sig : Bool) (cond : BitVec 3) (f : RForm)
  | fdiv (fmt : BitVec 2) (m : FMod) (f : RForm)
  | fsqrt (fmt : BitVec 2) (m : FMod) (f : RForm)
  | frcp (fmt : BitVec 2) (m : FMod) (f : RForm)
  | frsq (fmt : BitVec 2) (m : FMod) (f : RForm)
  | fexp2 (fmt : BitVec 2) (m : FMod) (f : RForm)
  | flog2 (fmt : BitVec 2) (m : FMod) (f : RForm)
  | fscale (fmt : BitVec 2) (m : FMod) (f : RForm)
  | fclass (fmt : BitVec 2) (f : RForm)
  | fcvt (src dst : BitVec 2) (m : FMod) (f : RForm)
  | icvtf (sg : Bool) (fmt : BitVec 2) (sat : Bool) (rnd : BitVec 2) (f : RForm)
  | fcvti (sg : Bool) (fmt : BitVec 2) (rnd : BitVec 2) (f : RForm)
  | cvtb8 (bp : BitVec 4) (ef sat : Bool) (rnd : BitVec 2) (f : RForm)
  | cvtb8Unsigned (bp : BitVec 4) (ef sat : Bool) (rnd : BitVec 2) (f : RForm)
  | cvtf8 (bp : BitVec 4) (fmt : BitVec 2) (f : RForm)
  | cvtf8Unsigned (bp : BitVec 4) (fmt : BitVec 2) (f : RForm)
  | b8dot (bp : BitVec 4) (px : Bool) (rnd : BitVec 2) (f : RForm)
  | b8dotUnsigned (bp : BitVec 4) (px : Bool) (rnd : BitVec 2) (f : RForm)
  | hadd2 (m : FMod) (f : RForm)
  | hmul2 (m : FMod) (f : RForm)
  | hfma2 (m : FMod) (f : RForm)
  -- group 010, control, scheduling, registers, counters and futures (R51)
  | bra (f : BForm)
  | jmpi (f : RForm)
  | call (f : BForm)
  | calli (f : RForm)
  | ret (f : RForm)
  | loopd (f : BForm)
  | yield (f : RForm)
  | nop (f : RForm)
  | stop (f : RForm)
  | sleep (f : IForm)
  | waitw (f : RForm)
  | spawn (f : RForm)
  | spawnn (f : RForm)
  | join (f : RForm)
  | leave (f : RForm)
  | arrive (f : RForm)
  | waitph (f : RForm)
  | item (f : BForm)
  | itempush (f : RForm)
  | grow (f : IForm)
  | growNb (f : IForm)
  | shrink (f : IForm)
  | spl (f : RForm)
  | fil (f : RForm)
  | sread (sel : BitVec 3) (f : RForm)
  | wait (cls : BitVec 2) (f : IForm)
  | fwait (f : RForm)
  | ftest (f : RForm)
  | fpass (f : RForm)
  | fcancel (f : RForm)
  -- group 011, memory and poison (R52)
  | ld (sx : Bool) (size : BitVec 2) (hint : BitVec 2) (f : MForm)
  | st (size : BitVec 2) (hint : BitVec 2) (f : MForm)
  | ldV (n size : BitVec 2) (hint : BitVec 2) (f : MForm)
  | stV (n size : BitVec 2) (hint : BitVec 2) (f : MForm)
  | ldp (sx : Bool) (size : BitVec 2) (pred : BitVec 3) (f : MForm)
  | pgreq (f : MForm)
  | atom (op : BitVec 4) (scope : BitVec 3) (sz : Bool) (f : MForm)
  | sld (sx : Bool) (size : BitVec 2) (f : MForm)
  | sst (size : BitVec 2) (f : MForm)
  | fenceAcq (scope : BitVec 3) (f : RForm)
  | fenceRel (scope : BitVec 3) (f : RForm)
  | fenceAr (scope : BitVec 3) (f : RForm)
  | icinv (scope : BitVec 3) (f : RForm)
  | icinvLine (scope : BitVec 3) (f : RForm)
  | dcwb (f : RForm)
  | dcwbAll (f : RForm)
  | ldm (n : BitVec 4) (f : MForm)
  | leg (n : BitVec 4) (none : Bool) (f : RForm)
  | commit (f : BForm)
  | commitR (f : BForm)
  | pchk (f : RForm)
  | pclr (f : RForm)
  | pset (f : RForm)
  | porg (k : BitVec 2) (f : RForm)
  -- group 100, stream (R53)
  | talloc (level : BitVec 2) (f : RForm)
  | tfree (f : RForm)
  | tquery (k : BitVec 2) (f : RForm)
  | sload (f : RForm)
  | sloadRing (f : RForm)
  | sstore (f : RForm)
  | scopy (f : RForm)
  | strns (sub : BitVec 4) (int uns sat : Bool) (f : RForm)
  | sring (f : RForm)
  | sringFree (f : RForm)
  | rpop (f : RForm)
  | rrel (f : RForm)
  | asl (f : RForm)
  | qpop (q : BitVec 3) (f : RForm)
  | qstat (q : BitVec 3) (f : RForm)
  | lastld (f : RForm)
  -- group 101, matrix (R54)
  | mloop (f : XForm)
  | mzero (f : RForm)
  | mloadacc (f : RForm)
  | tmov (f : RForm)
  | tcvtB8 (bp : BitVec 4) (ef sat : Bool) (rnd : BitVec 2) (f : RForm)
  | tcvtB8Unsigned (bp : BitVec 4) (ef sat : Bool) (rnd : BitVec 2) (f : RForm)
  | tcvtOther (tgt : BitVec 2) (sat : Bool) (rnd : BitVec 2) (f : RForm)
  | mstat (k : BitVec 2) (f : RForm)
  -- group 110, combine and fabric (R55)
  | cmb (op : BitVec 4) (sz : Bool) (f : RForm)
  | cmbu (n : BitVec 6) (f : RForm)
  | cmbdef (n : BitVec 6) (f : RForm)
  | flushr (f : FForm)
  | flushrA (f : FForm)
  | fput (f : RForm)
  | fget (f : RForm)
  | fsig (add sz : Bool) (f : RForm)
  | fbar (f : FForm)
  | fbarStep (f : FForm)
  | drain (f : FForm)
  | rload (f : RForm)
  | rstat (k : BitVec 3) (f : RForm)
  -- group 111, system (R56, R57)
  | trap (f : IForm)
  | rte (f : RForm)
  | sysr (f : IForm)
  | sysw (f : IForm)
  | brk (f : IForm)
  | sysc (f : IForm)
  | snap (f : RForm)
  | rbk (f : RForm)
  | ctxsv (q : Bool) (f : RForm)
  | ctxld (f : RForm)
  | halt (f : RForm)
  | med3 (low : BitVec 60)
  -- register operations
  | tlbinv (core : Nat) (v : W64)
  | orgctlFree (core : Nat) (index : BitVec 12)
  | orgctlFreeall (core : Nat)
  | wake (core : Nat) (v : W64)
  | registerWrite (space : RegSpace) (who : Tid) (reg : BitVec 12) (v : W64)
  -- thread-engine events
  | issueVote (lane : Nat) (portB : Bool)
  | binTimerExpiry (core bin : Nat)
  | packPlace (core : Nat)
  | throttleEpoch (core : Nat)
  | sleepExpiry (t : Tid)
  | waitwReread (t : Tid)
  | waitwTimer (t : Tid)
  | loadReply (core id : Nat)
  | writebackTimer (core key : Nat)
  | clusterInvalidation (core key : Nat)
  | revoke (core key : Nat)
  -- stream, matrix and combiner events
  | streamCommandStart (core id : Nat)
  | streamCommandComplete (core id : Nat)
  | aslDeliver (core id : Nat) (t : Tid)
  | matrixCommandStart (core : Nat)
  | mloopStep (core : Nat) (mismatch : Bool)
  | matrixCommandComplete (core : Nat)
  | combineRequestArrival (ids : List Nat)
  | waveWindowExpiry (object : Nat)
  | waveApply (object : Nat)
  | methodInstall (die : Nat)
  | combineReply (id : Nat)
  -- save, restore and snapshots
  | memberSave (t : Tid)
  | snapshotValid (team : Nat)
  | rollback (team : Nat)
  -- host
  | pageRequestAnswer (die entry : Nat) (refused : Bool)
  | hostWrite (pa : Nat) (size : BitVec 2) (v : W64)
  | hostRead (pa : Nat) (size : BitVec 2)
  | backInvalidateAck (line : Nat)
  | launchRecord (die : Nat)
  | launchStart (die : Nat)
  | launchCopy (die : Nat)
  | deviceLevelFault (cause : BitVec 4)
  | bringUp (r : BringUp)
  -- power, reliability, checkpoints and management
  | coreClockGate (core : Nat)
  | wakeEvent (w : Wake)
  | ecsPoll (rows corr : List Nat)
  | checkpointRequest (coordinator : BitVec 12) (seq : W64)
  | i3cCommand (c : I3c)
  | attestationRequest (nonce : Nat)
  | firmwareUpdate (version : Nat) (image : List Byte) (signature : Nat)
  -- fabric
  | fabricTimeout (tag : BitVec 16)
  -- late results and acknowledgements
  | multiCycleResult (core id : Nat)
  | storeFillReturn (core id : Nat)
  | hostStoreCompletion (id : Nat)
  | portRelock (port : Nat)
  | checkpointAnswer (device : BitVec 12)
  | ideKeyExchange (channel : BitVec 2) (key : Nat)
  -- events that name nothing: register operations, Troham, slots and markers, and the flit at the head of the inbox
  | devctlReset
  | devctlJrnclr
  | ckptctlNow
  | powerAlarm
  | sramRetentionEntry
  | hbmSelfRefreshEntry
  | checkpointDue
  | frameMarker
  | slotBoundary
  | roseTakeEffect
  | temperatureEvent
  | writeFlit
  | readRequestFlit
  | readReplyFlit
  | atomicRequestFlit
  | atomicReplyFlit
  | signalFlit
  | acknowledgeFlit
  | refusalFlit
  | allowanceGrantFlit
  | drainMarkerFlit
  | drainAcknowledgeFlit
  | barrierArrivalFlit
  | barrierReleaseFlit
  | reservedTypeFlit
  deriving DecidableEq, Repr

end Sys2Proof
end

