-- ==== Sys2Proof/WellFormed.lean ====
section
/-! DEFINITION. Which decoded instructions are legal words: every check of R58's detail UNDEF. -/

namespace Sys2Proof

/-- Slices named by a width code (R37). -/
def wcSlices (wc : BitVec 3) : Nat := [1, 2, 3, 4, 6, 8, 12, 16].getD wc.toNat 16

/-- Bits named by a width code (R37). -/
def wcBits (wc : BitVec 3) : Nat := 4 * wcSlices wc

/-- Bits of an element-width code ew (R48); code 3 is unallocated. -/
def ewBits (ew : BitVec 2) : Nat := [4, 8, 16, 0].getD ew.toNat 0

/-- The operand width code of an IEEE format code fmt (R170): f64 7, f32 5, f16 3. -/
def fmtWc (fmt : BitVec 2) : Nat := [7, 5, 3, 8].getD fmt.toNat 8

def Opd.slices (o : Opd) : Nat := wcSlices o.wc
def Opd.bits (o : Opd) : Nat := wcBits o.wc
def Opd.zero : Opd := ⟨0, 0⟩

/-- How an entry of the map uses an operand field (R47 to R56): unused, any width, one of some width codes,
a predicate destination (R48), or a future under FUT (R44). -/
inductive Use where
  | unused | any | wcs (ks : List Nat) | pd | fut
  deriving DecidableEq, Repr

def Use.ok (u : Use) (o : Opd) (fut : Bool) : Bool :=
  match u with
  | .unused => o == Opd.zero
  | .any => true
  | .wcs ks => ks.contains o.wc.toNat
  | .pd => o.wc == 0 && decide (o.start.toNat ≤ 6)
  | .fut => if fut then o.wc == 3 else o == Opd.zero

/-- The map's mark on the U bit (R39). -/
inductive URule where
  | a | r | n
  deriving DecidableEq, Repr

def URule.ok (q : URule) (u : Bool) : Bool :=
  match q with
  | .a => true
  | .r => u
  | .n => !u

/-- Whether an exchange field of the word holds 101 (R38). -/
def RForm.xk (f : RForm) : Bool := f.ax == .xk || f.bx == .xk
def MForm.xk (f : MForm) : Bool := f.ax == .xk

/-- The common checks of an R-form or stream-form word: U, operand uses, unused exchange fields, and the xk rules.
`low` says that the modifiers held in MOD[2:0] are zero, which a word with xk reads (R38). -/
def RForm.ok (f : RForm) (ur : URule) (d a b : Use) (xkOk : Bool) (low : Bool := true) : Bool :=
  ur.ok f.x.u && d.ok f.d f.r4 && a.ok f.a f.r4 && b.ok f.b f.r4
    && (a != .unused || f.ax == .self) && (b != .unused || f.bx == .self)
    && (if f.xk then xkOk && low else f.e == 0)

/-- A stream-form word: as RForm.ok, with FUT refused on entries marked "no future" (R44). -/
def RForm.strOk (f : RForm) (ur : URule) (d a b : Use) (futOk : Bool) : Bool :=
  f.ok ur d a b false && (futOk || !f.r4)

/-- An I-form word; AX of 101 is refused (R41). -/
def IForm.ok (f : IForm) (ur : URule) (d a : Use) (immBits : Nat := 20) : Bool :=
  ur.ok f.x.u && d.ok f.d false && a.ok f.a false && (a != .unused || f.ax == .self)
    && f.ax != .xk && decide (f.imm.toNat < 2 ^ immBits)

def MForm.ok (f : MForm) (ur : URule) (d a : Use) (low : Bool) : Bool :=
  ur.ok f.x.u && d.ok f.d false && a.ok f.a false && (if f.xk then low else f.e == 0)

def FForm.ok (f : FForm) (ur : URule) (a : Use) : Bool :=
  ur.ok f.x.u && Use.fut.ok f.d f.fut && a.ok f.a false && (a != .unused || f.ax == .self) && f.ax != .xk

/-- The three-operand float shape fmt, fmt, fmt (R170). -/
def Use.fmt (fmt : BitVec 2) : Use := .wcs [fmtWc fmt]

def FMod.lowZero (m : FMod) : Bool := m.rnd == 0 && !m.sat

/-- System register numbers the manual assigns (R253). -/
def sysRegs : List Nat :=
  [0x000, 0x001, 0x040, 0x060, 0x061, 0x062, 0x080, 0x084, 0x085, 0x090, 0x091, 0x092, 0x093, 0x0A0, 0x0C0, 0x0C1,
   0x0E0, 0x0E8, 0x100, 0x101, 0x102]

/-- ICMP and PCMP conditions 0 to 5 (R140, R144). -/
def condOk (c : BitVec 3) : Bool := decide (c.toNat ≤ 5)

/-- P of a bp field; 0 is unallocated (R50). -/
def bpOk (bp : BitVec 4) : Bool := bp.extractLsb' 0 3 != 0

def fmtOk (fmt : BitVec 2) : Bool := fmt != 3

/-- Whether MLOOP's element format is allocated (R45, R320). -/
def XForm.ok (f : XForm) : Bool :=
  f.x.u
    && (if f.fmt.getLsbD 5 then !f.fmt.getLsbD 0 && f.sc == 0 && f.bsel == 0 else f.fmt.extractLsb' 2 3 != 0)
    && (f.fe || f.fd == 0)

/-- The width-multiple check of the packed entries (R143, R144). -/
def ewDiv (o : Opd) (n : Nat) : Bool := n != 0 && o.bits % n == 0

/-- The legal instructions (R47 and each entry's own rule). Events are not words and are always legal. -/
def Instr.wf : Instr → Bool
  | .iadd _ _ sat f | .isub _ _ sat f | .imad _ _ sat f => f.ok .a .any .any .any true (!sat)
  | .iaddImm _ _ f => f.ok .a .any .any
  | .imul _ _ f | .imulh _ _ f | .idiv _ _ f | .irem _ _ f | .imin _ _ f | .imax _ _ f => f.ok .a .any .any .any true
  | .iabs _ sat f | .ineg _ sat f => f.ok .a .any .any .unused true (!sat)
  | .and_ f | .or_ f | .xor_ f | .andn f | .shl f | .shr f | .sar f | .rot f | .bfx _ f | .bfi f =>
      f.ok .a .any .any .any true
  | .not_ f | .popc f | .clz f | .ctz f | .brev f | .movZ f | .movS f | .movx f => f.ok .a .any .any .unused true
  | .movxw f => f.ok .a .unused .any .any true && f.bx != .chn
  | .andImm f | .orImm f | .xorImm f | .andnImm f => f.ok .a .any .any
  | .lut3 _ f | .isel _ _ f => f.ok .a .any .any .any false
  | .shlImm f | .shrImm f | .sarImm f | .rotImm f => f.ok .a .any .any 6
  | .icmp _ c f => f.ok .a .pd .any .any true && condOk c
  | .icmpImm _ c f => f.ok .a .pd .any && condOk c
  | .movi _ f => f.ok .a .any .unused
  | .movh pos f => f.ok .a (.wcs [7]) .unused (if pos = 2 then 4 else 20) && pos != 3
  | .pack ew f => f.ok .a .any .any .any false && ewDiv f.d (2 * ewBits ew)
  | .unpk ew f => f.ok .a .any .any .unused false && ewDiv f.d (2 * ewBits ew)
  | .padd _ ew sat f | .psub _ ew sat f => f.ok .a .any .any .any true (!sat) && ewDiv f.d (ewBits ew)
  | .pmin _ ew f | .pmax _ ew f => f.ok .a .any .any .any true && ewDiv f.d (ewBits ew)
  | .pabs ew f => f.ok .a .any .any .unused true && ewDiv f.d (ewBits ew)
  | .pcmp _ ew c f => f.ok .a .any .any .any false && ewDiv f.d (ewBits ew) && condOk c
  | .pdot _ ew f => f.ok .a .any .any .any true && ewDiv f.a (ewBits ew)
  | .fadd t m f | .fsub t m f | .fmul t m f | .ffma t m f | .fdiv t m f =>
      f.ok .a (.fmt t) (.fmt t) (.fmt t) true m.lowZero && fmtOk t
  | .fmin t _ f | .fmax t _ f => f.ok .a (.fmt t) (.fmt t) (.fmt t) true && fmtOk t
  | .fabs t f | .fneg t f => f.ok .a (.fmt t) (.fmt t) .unused true && fmtOk t
  | .fcmp t _ _ f => f.ok .a .pd (.fmt t) (.fmt t) false && fmtOk t
  | .fsqrt t m f | .frcp t m f | .frsq t m f | .fexp2 t m f | .flog2 t m f =>
      f.ok .a (.fmt t) (.fmt t) .unused true m.lowZero && fmtOk t
  | .fscale t m f => f.ok .a (.fmt t) (.fmt t) .any true m.lowZero && fmtOk t
  | .fclass t f => f.ok .a .any (.fmt t) .unused true && fmtOk t
  | .fcvt s d m f => f.ok .a (.fmt d) (.fmt s) .unused true m.lowZero && fmtOk s && fmtOk d && s != d
  | .icvtf _ t sat rnd f => f.ok .a (.fmt t) .any .unused true (rnd == 0 && !sat) && fmtOk t
  | .fcvti _ t rnd f => f.ok .a .any (.fmt t) .unused true (rnd == 0) && fmtOk t
  | .cvtb8 bp ef sat rnd f | .cvtb8Unsigned bp ef sat rnd f =>
      f.ok .a (.wcs [1]) (if ef then .wcs [5] else .wcs [3, 5, 7]) (if ef then .wcs [5] else .unused) true
        (rnd == 0 && !sat) && bpOk bp && (!ef || f.bx == .self)
  | .cvtf8 bp t f | .cvtf8Unsigned bp t f => f.ok .a (.fmt t) (.wcs [1]) .unused false && bpOk bp && fmtOk t
  | .b8dot bp _ rnd f | .b8dotUnsigned bp _ rnd f =>
      f.ok .a (.wcs [5]) (.wcs [3, 5, 7]) (.wcs [f.a.wc.toNat]) true (rnd == 0) && bpOk bp
  | .hadd2 m f | .hmul2 m f | .hfma2 m f => f.ok .a (.wcs [5]) (.wcs [5]) (.wcs [5]) true m.lowZero
  | .bra f => f.fld == 0
  | .call f => f.fld.extractLsb' 0 6 == 56
  | .loopd f => f.fld.extractLsb' 0 3 == 0
  | .item f => f.fld.extractLsb' 0 6 == 40 && !f.x.u
  | .commit f => !f.x.u && f.fld.extractLsb' 0 3 == 0 && decide ((f.fld.extractLsb' 9 6).toNat ≤ (f.fld.extractLsb' 3 6).toNat)
  | .commitR f => !f.x.u && f.fld.extractLsb' 0 3 == 1 && decide ((f.fld.extractLsb' 9 6).toNat ≤ (f.fld.extractLsb' 3 6).toNat)
  | .jmpi f | .ret f => f.ok .a .unused (.wcs [7]) .unused true
  | .calli f => f.ok .a (.wcs [7]) (.wcs [7]) .unused true
  | .yield f => f.ok .a .unused .unused .unused true
  | .nop f => f.ok .a .unused .unused .unused true && !f.r4
  | .stop f | .rte f => f.ok .n .unused .unused .unused true
  | .halt f => f.ok .r .unused .unused .unused true
  | .sleep f => f.ok .a .unused .unused && f.imm != 0
  | .waitw f => f.ok .a .unused (.wcs [7]) (.wcs [1, 3, 5, 7]) true
  | .spawn f | .spawnn f => f.ok .a .unused (.wcs [7]) .any true
  | .join f | .leave f => f.ok .a .unused .any .unused true
  | .arrive f | .waitph f => f.ok .a .unused .any .any true
  | .itempush f => f.ok .a .unused (.wcs [5]) .unused true
  | .grow f | .shrink f => f.ok .n .unused .unused 4 && f.imm != 0 && decide (f.imm.toNat ≤ 12)
  | .growNb f => f.ok .n .pd .unused 4 && f.imm != 0 && decide (f.imm.toNat ≤ 12)
  | .spl f | .fil f =>
      f.ok .a (.wcs [0]) (.wcs [5]) (.wcs [0]) true && f.bx == .self && decide (f.d.start.toNat ≤ f.b.start.toNat)
  | .sread _ f | .rstat _ f => f.ok .a .any .unused .unused true
  | .wait _ f => f.ok .a .unused .unused 6
  | .fwait f | .fcancel f => f.ok .a .unused (.wcs [3]) .unused true
  | .ftest f => f.ok .a .pd (.wcs [3]) .unused true
  | .fpass f => f.ok .a (.wcs [3]) (.wcs [3]) .unused true
  | .ld _ _ h f | .st _ h f => f.ok .a .any (.wcs [7]) (h == 0) && h != 3
  | .ldV _ _ h f | .stV _ _ h f => f.ok .a (.wcs [0]) (.wcs [7]) (h == 0) && h != 3
  | .ldp _ _ p f => f.ok .a .any (.wcs [7]) (p == 0) && p != 7
  | .pgreq f => f.ok .a .unused (.wcs [7]) true
  | .atom op sc sz f =>
      f.ok .a (.wcs [if sz then 7 else 5]) (.wcs [7]) (!sz && sc.extractLsb' 0 2 == 0) && decide (op.toNat ≤ 9) && decide (sc.toNat ≤ 5)
  | .sld _ _ f | .sst _ f => f.ok .a .any (.wcs [5]) true
  | .fenceAcq sc f | .fenceRel sc f | .fenceAr sc f => f.ok .a .unused .unused .unused true && decide (sc.toNat ≤ 5)
  | .icinv sc f => f.ok .a .unused .unused .unused true && sc != 0 && decide (sc.toNat ≤ 4)
  | .icinvLine sc f => f.ok .a .unused (.wcs [7]) .unused true && sc != 0 && decide (sc.toNat ≤ 4) && (!f.xk || f.e == sc)
  | .dcwb f => f.ok .a .unused (.wcs [7]) .unused true
  | .dcwbAll f => f.ok .a .unused .unused .unused true
  | .ldm _ f => f.ok .n (.wcs [5]) (.wcs [7]) true
  | .leg n nothing f =>
      f.ok .n (.wcs [0]) .unused .unused true && f.d.start.extractLsb' 0 3 == 0 && (!nothing || (f.d == Opd.zero && n == 0))
  | .pchk f => f.ok .a .pd .any .unused true
  | .pclr f | .pset f => f.ok .a .any .unused .unused true
  | .porg _ f => f.ok .a .any (.wcs [5]) .unused true
  | .talloc lv f => f.strOk .a (.wcs [3]) (.wcs [7]) .unused false && lv != 3
  | .tfree f => f.strOk .a .unused (.wcs [3]) .unused false
  | .tquery _ f => f.strOk .a .any (.wcs [3]) .unused false
  | .sload f | .sstore f => f.strOk .a .fut (.wcs [5]) (.wcs [7]) true
  | .sloadRing f => f.strOk .a .fut (.wcs [3]) (.wcs [7]) true
  | .scopy f => f.strOk .a .fut (.wcs [7]) .any true
  | .strns sub int uns sat f =>
      f.strOk .a .fut (.wcs [5]) (.wcs [7]) true && (if int then !uns && !sat else bpOk sub)
  | .sring f => f.strOk .a (.wcs [3]) (.wcs [3]) (.wcs [5]) false
  | .sringFree f | .rrel f => f.strOk .a .unused (.wcs [3]) .unused false
  | .rpop f => f.strOk .a (.wcs [5]) (.wcs [3]) .unused false
  | .asl f => f.strOk .r .fut (.wcs [7]) .unused true
  | .qpop _ f | .qstat _ f => f.strOk .a .any .unused .unused false
  | .lastld f => f.strOk .a .fut (.wcs [7]) .unused true
  | .mloop f => f.ok
  | .mzero f => f.strOk .a .fut (.wcs [3]) .unused true
  | .mloadacc f => f.strOk .a .fut (.wcs [3]) (.wcs [5]) true
  | .tmov f => f.strOk .a .fut (.wcs [5]) (.wcs [3]) true
  | .tcvtB8 bp ef _ _ f | .tcvtB8Unsigned bp ef _ _ f =>
      f.strOk .a .fut (.wcs [5]) (.wcs [if ef then 5 else 3]) true && bpOk bp
  | .tcvtOther tgt _ rnd f => f.strOk .a .fut (.wcs [5]) (.wcs [3]) true && (!tgt.getLsbD 1 || rnd == 0)
  | .mstat k f => f.ok .a .any (if k = 1 then .wcs [3] else .unused) .unused true
  | .cmb op sz f =>
      f.strOk .a (.wcs [if sz then 7 else 5]) (.wcs [7]) (.wcs [if sz then 7 else 5]) false && decide (op.toNat ≤ 12)
        && !(op == 1 && sz) && !(op == 12 && !sz)
  | .cmbu _ f => f.strOk .a .any (.wcs [7]) .any false
  | .cmbdef _ f => f.strOk .r (.wcs [3]) (.wcs [7]) .unused false
  | .flushr f => f.ok .a .unused
  | .flushrA f => f.ok .a .any && f.imm == 0
  | .fput f | .fget f => f.strOk .a .fut (.wcs [7]) (.wcs [7]) true
  | .fsig _ sz f => f.strOk .a .fut (.wcs [7]) (.wcs [if sz then 7 else 5]) true
  | .fbar f | .fbarStep f => f.ok .a (.wcs [5])
  | .drain f => f.ok .r .unused && f.imm.extractLsb' 8 4 == 0
  | .rload f => f.strOk .r .fut (.wcs [7]) (.wcs [7]) true
  | .trap f => f.ok .n .unused .unused 19 && f.imm.extractLsb' 0 3 != 0 && decide ((f.imm.extractLsb' 0 3).toNat ≤ 5)
  | .brk f | .sysc f => f.ok .n .unused .unused 16
  | .sysr f => f.ok .a .any .unused && sysRegs.contains f.imm.toNat
  | .sysw f => f.ok .a .unused .any && sysRegs.contains f.imm.toNat
  | .snap f | .rbk f => f.ok .r .unused (.wcs [3]) .unused true && !f.r4
  | .ctxsv q f => f.ok .r .fut (.wcs [3]) (.wcs [7]) true (!q) && f.bx == .self
  | .ctxld f => f.ok .r (.wcs [3]) (.wcs [7]) .unused true && !f.r4
  | .med3 _
  | .tlbinv .. | .orgctlFree .. | .orgctlFreeall .. | .wake .. | .registerWrite .. | .devctlReset | .devctlJrnclr
  | .ckptctlNow | .issueVote .. | .binTimerExpiry .. | .packPlace .. | .throttleEpoch .. | .sleepExpiry .. | .waitwReread ..
  | .waitwTimer .. | .loadReply .. | .writebackTimer .. | .clusterInvalidation .. | .revoke .. | .streamCommandStart ..
  | .streamCommandComplete .. | .aslDeliver .. | .matrixCommandStart .. | .mloopStep .. | .matrixCommandComplete ..
  | .combineRequestArrival .. | .waveWindowExpiry .. | .waveApply .. | .methodInstall .. | .combineReply .. | .memberSave ..
  | .snapshotValid .. | .rollback .. | .pageRequestAnswer .. | .hostWrite .. | .hostRead .. | .backInvalidateAck ..
  | .launchRecord .. | .launchStart .. | .launchCopy .. | .deviceLevelFault .. | .bringUp .. | .powerAlarm
  | .coreClockGate .. | .sramRetentionEntry | .hbmSelfRefreshEntry | .wakeEvent .. | .ecsPoll .. | .checkpointDue
  | .checkpointRequest .. | .i3cCommand .. | .attestationRequest .. | .firmwareUpdate .. | .frameMarker | .slotBoundary
  | .roseTakeEffect | .fabricTimeout .. | .writeFlit | .readRequestFlit | .readReplyFlit | .atomicRequestFlit
  | .atomicReplyFlit | .signalFlit | .acknowledgeFlit | .refusalFlit | .allowanceGrantFlit
  | .drainMarkerFlit | .drainAcknowledgeFlit | .barrierArrivalFlit | .barrierReleaseFlit | .multiCycleResult ..
  | .storeFillReturn .. | .hostStoreCompletion .. | .portRelock .. | .reservedTypeFlit | .checkpointAnswer ..
  | .temperatureEvent | .ideKeyExchange .. => true

/-- The decoded form is well formed. -/
abbrev Instr.WellFormed (i : Instr) : Prop := i.wf = true

end Sys2Proof
end

