-- ==== Sys2Proof/Decode.lean ====
section
/-! DEFINITION. Decoding instruction words and clause headers (R28 to R57), and the encoder of every instruction. -/

namespace Sys2Proof

/-- Exchange codes by field value (R38). -/
def Exch.ofBits (b : BitVec 3) : Exch :=
  if b = 0#3 then .self else if b = 1#3 then .dn1 else if b = 2#3 then .up1 else if b = 3#3 then .bc0
  else if b = 4#3 then .x1 else if b = 5#3 then .xk else if b = 6#3 then .mir else .chn

def Exch.toBits : Exch → BitVec 3
  | .self => 0 | .dn1 => 1 | .up1 => 2 | .bc0 => 3 | .x1 => 4 | .xk => 5 | .mir => 6 | .chn => 7

/-- Field [lo+n-1:lo] of an instruction word. -/
abbrev fld (w : W64) (lo n : Nat) : BitVec n := w.extractLsb' lo n

/-- The common prefix [51:47] (R36). -/
def pfxOf (w : W64) : Pfx := ⟨w.getLsbD 51, fld w 48 3, w.getLsbD 47⟩

def opdOf (w : W64) (lo : Nat) : Opd := ⟨fld w (lo + 3) 9, fld w lo 3⟩

/-- R-form and stream-form fields (R40, R44). -/
def rFormOf (w : W64) : RForm :=
  let ax := Exch.ofBits (fld w 20 3)
  let bx := Exch.ofBits (fld w 5 3)
  { x := pfxOf w, d := opdOf w 35, a := opdOf w 23, ax := ax, b := opdOf w 8, bx := bx, r4 := w.getLsbD 4,
    e := if ax == .xk || bx == .xk then fld w 0 3 else 0 }

/-- MOD as the instruction reads it: under xk, MOD[2:0] reads as zero (R38). -/
def rModOf (w : W64) : BitVec 4 :=
  if Exch.ofBits (fld w 20 3) == .xk || Exch.ofBits (fld w 5 3) == .xk then fld w 0 4 &&& 8#4 else fld w 0 4

def iFormOf (w : W64) : IForm :=
  { x := pfxOf w, d := opdOf w 35, a := opdOf w 23, ax := Exch.ofBits (fld w 20 3), imm := fld w 0 20 }

def bFormOf (w : W64) : BForm := { x := pfxOf w, fld := fld w 32 15, disp := fld w 0 32 }

def mFormOf (w : W64) : MForm :=
  let ax := Exch.ofBits (fld w 20 3)
  { x := pfxOf w, d := opdOf w 35, a := opdOf w 23, ax := ax, ofs := fld w 4 16, e := if ax == .xk then fld w 0 3 else 0 }

def mModOf (w : W64) : BitVec 4 := if Exch.ofBits (fld w 20 3) == .xk then fld w 0 4 &&& 8#4 else fld w 0 4

def fFormOf (w : W64) : FForm :=
  { x := pfxOf w, d := opdOf w 35, a := opdOf w 23, ax := Exch.ofBits (fld w 20 3), imm := fld w 8 12, fut := w.getLsbD 4 }

def xFormOf (w : W64) : XForm :=
  { x := pfxOf w, h := fld w 38 9, sc := fld w 29 9, kcnt := fld w 21 8, bsel := fld w 18 3, ainc := w.getLsbD 17,
    fe := w.getLsbD 16, fd := fld w 7 9, fmt := fld w 5 2 ++ fld w 52 4 }

def fmodOf (m : BitVec 4) : FMod := ⟨m.extractLsb' 0 2, m.getLsbD 2, m.getLsbD 3⟩

/-- One of the constructors of a SUB-selected entry. -/
def pick (l : List Instr) (i : Nat) : Option Instr := l[i]?

/-- Group 000 (R49). `o` is OPC[4:0]. -/
def parseInt (w : W64) (o : BitVec 5) : Option Instr :=
  let sub := fld w 52 4
  let sg := sub.getLsbD 3
  let wc := sub.extractLsb' 0 3
  let ew := sub.extractLsb' 0 2
  let s2 := sub.getLsbD 2
  let f := rFormOf w
  let g := iFormOf w
  let m := rModOf w
  let sat := m.getLsbD 0
  match o with
  | 0x00#5 => if m.extractLsb' 1 3 = 0#3 then some (.iadd sg wc sat f) else none
  | 0x01#5 => some (.iaddImm sg wc g)
  | 0x02#5 => if m.extractLsb' 1 3 = 0#3 then some (.isub sg wc sat f) else none
  | 0x03#5 => if m = 0#4 then some (.imul sg wc f) else none
  | 0x04#5 => if m = 0#4 then some (.imulh sg wc f) else none
  | 0x05#5 => if m.extractLsb' 1 3 = 0#3 then some (.imad sg wc sat f) else none
  | 0x06#5 => if m = 0#4 then some (.idiv sg wc f) else none
  | 0x07#5 => if m = 0#4 then some (.irem sg wc f) else none
  | 0x08#5 => if m = 0#4 then some (.imin sg wc f) else none
  | 0x09#5 => if m = 0#4 then some (.imax sg wc f) else none
  | 0x0A#5 => if m.extractLsb' 1 3 = 0#3 ∧ sg = false then some (.iabs wc sat f) else none
  | 0x0B#5 => if m.extractLsb' 1 3 = 0#3 ∧ sg = false then some (.ineg wc sat f) else none
  | 0x0C#5 => if m = 0#4 then pick [.and_ f, .or_ f, .xor_ f, .andn f, .not_ f] sub.toNat else none
  | 0x0D#5 => pick [.andImm g, .orImm g, .xorImm g, .andnImm g] sub.toNat
  | 0x0E#5 => some (.lut3 (sub ++ m) f)
  | 0x10#5 => if m = 0#4 then pick [.shl f, .shr f, .sar f, .rot f] sub.toNat else none
  | 0x11#5 => pick [.shlImm g, .shrImm g, .sarImm g, .rotImm g] sub.toNat
  | 0x12#5 => if m = 0#4 ∧ wc = 0#3 then some (.bfx sg f) else none
  | 0x13#5 => if m = 0#4 ∧ sub = 0#4 then some (.bfi f) else none
  | 0x14#5 => if m = 0#4 then pick [.popc f, .clz f, .ctz f, .brev f] sub.toNat else none
  | 0x15#5 => if m = 0#4 then some (.icmp sg wc f) else none
  | 0x16#5 => some (.icmpImm sg wc g)
  | 0x17#5 => if sub = 0#4 then some (.isel (m.getLsbD 3) (m.extractLsb' 0 3) f) else none
  | 0x18#5 => if m = 0#4 then pick [.movZ f, .movS f, .movx f, .movxw f] sub.toNat else none
  | 0x19#5 => if wc = 0#3 then some (.movi sg g) else none
  | 0x1A#5 => if sub.extractLsb' 2 2 = 0#2 then some (.movh ew g) else none
  | 0x1B#5 => if m.extractLsb' 2 2 = 0#2 then pick [.pack (m.extractLsb' 0 2) f, .unpk (m.extractLsb' 0 2) f] sub.toNat else none
  | 0x1C#5 => if m.extractLsb' 1 3 = 0#3 then some (if s2 then .psub sg ew sat f else .padd sg ew sat f) else none
  | 0x1D#5 => if m = 0#4 then some (if s2 then .pmax sg ew f else .pmin sg ew f) else none
  | 0x1E#5 =>
    if s2 then (if m.getLsbD 3 = false then some (.pcmp sg ew (m.extractLsb' 0 3) f) else none)
    else if m = 0#4 ∧ sg = false then some (.pabs ew f) else none
  | 0x1F#5 => if m = 0#4 ∧ s2 = false then some (.pdot sg ew f) else none
  | _ => none

/-- Group 001 (R50). -/
def parseFloat (w : W64) (o : BitVec 5) : Option Instr :=
  let sub := fld w 52 4
  let t := sub.extractLsb' 0 2
  let plain := sub.extractLsb' 2 2 = 0#2
  let sg := sub.getLsbD 3
  let f := rFormOf w
  let m := rModOf w
  let fm := fmodOf m
  let rnd := m.extractLsb' 0 2
  match o with
  | 0x00#5 => if plain then some (.fadd t fm f) else none
  | 0x01#5 => if plain then some (.fsub t fm f) else none
  | 0x02#5 => if plain then some (.fmul t fm f) else none
  | 0x03#5 => if plain then some (.ffma t fm f) else none
  | 0x04#5 => if plain ∧ m.extractLsb' 0 3 = 0#3 then some (.fmin t (m.getLsbD 3) f) else none
  | 0x05#5 => if plain ∧ m.extractLsb' 0 3 = 0#3 then some (.fmax t (m.getLsbD 3) f) else none
  | 0x06#5 => if plain ∧ m = 0#4 then some (.fabs t f) else none
  | 0x07#5 => if plain ∧ m = 0#4 then some (.fneg t f) else none
  | 0x08#5 => if plain then some (.fcmp t (m.getLsbD 3) (m.extractLsb' 0 3) f) else none
  | 0x09#5 => if plain then some (.fdiv t fm f) else none
  | 0x0A#5 => if plain then some (.fsqrt t fm f) else none
  | 0x0B#5 => if plain then some (.frcp t fm f) else none
  | 0x0C#5 => if plain then some (.frsq t fm f) else none
  | 0x0D#5 => if plain then some (.fexp2 t fm f) else none
  | 0x0E#5 => if plain then some (.flog2 t fm f) else none
  | 0x0F#5 => if plain then some (.fscale t fm f) else none
  | 0x10#5 => if plain ∧ m = 0#4 then some (.fclass t f) else none
  | 0x11#5 => some (.fcvt t (sub.extractLsb' 2 2) fm f)
  | 0x12#5 => if sub.getLsbD 2 = false ∧ m.getLsbD 3 = false then some (.icvtf sg t (m.getLsbD 2) rnd f) else none
  | 0x13#5 => if sub.getLsbD 2 = false ∧ m.extractLsb' 2 2 = 0#2 then some (.fcvti sg t rnd f) else none
  | 0x14#5 => some (.cvtb8 sub (m.getLsbD 3) (m.getLsbD 2) rnd f)
  | 0x15#5 => some (.cvtb8Unsigned sub (m.getLsbD 3) (m.getLsbD 2) rnd f)
  | 0x16#5 => if m.extractLsb' 2 2 = 0#2 then some (.cvtf8 sub rnd f) else none
  | 0x17#5 => if m.extractLsb' 2 2 = 0#2 then some (.cvtf8Unsigned sub rnd f) else none
  | 0x18#5 => if m.getLsbD 2 = false then some (.b8dot sub (m.getLsbD 3) rnd f) else none
  | 0x19#5 => if m.getLsbD 2 = false then some (.b8dotUnsigned sub (m.getLsbD 3) rnd f) else none
  | 0x1A#5 => if sub = 0#4 then some (.hadd2 fm f) else none
  | 0x1B#5 => if sub = 0#4 then some (.hmul2 fm f) else none
  | 0x1C#5 => if sub = 0#4 then some (.hfma2 fm f) else none
  | _ => none

/-- Group 010 (R51). -/
def parseControl (w : W64) (o : BitVec 5) : Option Instr :=
  let sub := fld w 52 4
  let z := sub = 0#4
  let f := rFormOf w
  let g := iFormOf w
  let h := bFormOf w
  let mz := rModOf w = 0#4
  match o with
  | 0x00#5 => if z then some (.bra h) else none
  | 0x01#5 => if z ∧ mz then some (.jmpi f) else none
  | 0x02#5 => if z then some (.call h) else none
  | 0x03#5 => if z ∧ mz then some (.calli f) else none
  | 0x04#5 => if z ∧ mz then some (.ret f) else none
  | 0x05#5 => if z then some (.loopd h) else none
  | 0x06#5 => if z ∧ mz then some (.yield f) else none
  | 0x07#5 => if z ∧ mz then some (.nop f) else none
  | 0x08#5 => if z ∧ mz then some (.stop f) else none
  | 0x09#5 => if z then some (.sleep g) else none
  | 0x0A#5 => if z ∧ mz then some (.waitw f) else none
  | 0x0B#5 => if z ∧ mz then some (.spawn f) else none
  | 0x0C#5 => if z ∧ mz then some (.spawnn f) else none
  | 0x0D#5 => if z ∧ mz then some (.join f) else none
  | 0x0E#5 => if z ∧ mz then some (.leave f) else none
  | 0x0F#5 => if z ∧ mz then some (.arrive f) else none
  | 0x10#5 => if z ∧ mz then some (.waitph f) else none
  | 0x11#5 => if z then some (.item h) else none
  | 0x12#5 => if z ∧ mz then some (.itempush f) else none
  | 0x13#5 => pick [.grow g, .growNb g] sub.toNat
  | 0x14#5 => if z then some (.shrink g) else none
  | 0x15#5 => if z ∧ mz then some (.spl f) else none
  | 0x16#5 => if z ∧ mz then some (.fil f) else none
  | 0x17#5 => if sub.getLsbD 3 = false ∧ mz then some (.sread (sub.extractLsb' 0 3) f) else none
  | 0x18#5 => if sub.extractLsb' 2 2 = 0#2 then some (.wait (sub.extractLsb' 0 2) g) else none
  | 0x19#5 => if z ∧ mz then some (.fwait f) else none
  | 0x1A#5 => if z ∧ mz then some (.ftest f) else none
  | 0x1B#5 => if z ∧ mz then some (.fpass f) else none
  | 0x1C#5 => if z ∧ mz then some (.fcancel f) else none
  | _ => none

/-- Group 011 (R52). -/
def parseMem (w : W64) (o : BitVec 5) : Option Instr :=
  let sub := fld w 52 4
  let z := sub = 0#4
  let size := sub.extractLsb' 0 2
  let sx := sub.getLsbD 2
  let f := rFormOf w
  let g := mFormOf w
  let m := mModOf w
  let r := rModOf w
  let hz := m.extractLsb' 2 2 = 0#2
  let hint := m.extractLsb' 0 2
  match o with
  | 0x00#5 => if sub.getLsbD 3 = false ∧ hz then some (.ld sx size hint g) else none
  | 0x01#5 => if sub.extractLsb' 2 2 = 0#2 ∧ hz then some (.st size hint g) else none
  | 0x02#5 => if hz then some (.ldV (sub.extractLsb' 2 2) size hint g) else none
  | 0x03#5 => if hz then some (.stV (sub.extractLsb' 2 2) size hint g) else none
  | 0x04#5 => if sub.getLsbD 3 = false ∧ m.getLsbD 3 = false then some (.ldp sx size (m.extractLsb' 0 3) g) else none
  | 0x05#5 => if z ∧ m = 0#4 then some (.pgreq g) else none
  | 0x06#5 => some (.atom sub (m.extractLsb' 1 3) (m.getLsbD 0) g)
  | 0x07#5 => if sub.getLsbD 3 = false ∧ m = 0#4 then some (.sld sx size g) else none
  | 0x08#5 => if sub.extractLsb' 2 2 = 0#2 ∧ m = 0#4 then some (.sst size g) else none
  | 0x09#5 =>
    if r.getLsbD 3 = false then
      pick [.fenceAcq (r.extractLsb' 0 3) f, .fenceRel (r.extractLsb' 0 3) f, .fenceAr (r.extractLsb' 0 3) f] sub.toNat
    else none
  | 0x0A#5 =>
    if w.getLsbD 3 = false then pick [.icinv (fld w 0 3) f, .icinvLine (fld w 0 3) f] sub.toNat else none
  | 0x0B#5 => if r = 0#4 then pick [.dcwb f, .dcwbAll f] sub.toNat else none
  | 0x0C#5 => if m = 0#4 then some (.ldm sub g) else none
  | 0x10#5 => if r.extractLsb' 1 3 = 0#3 then some (.leg sub (r.getLsbD 0) f) else none
  | 0x11#5 => if z then some (if w.getLsbD 32 then .commitR (bFormOf w) else .commit (bFormOf w)) else none
  | 0x12#5 => if z ∧ r = 0#4 then some (.pchk f) else none
  | 0x13#5 => if z ∧ r = 0#4 then some (.pclr f) else none
  | 0x14#5 => if z ∧ r = 0#4 then some (.pset f) else none
  | 0x15#5 => if sub.extractLsb' 2 2 = 0#2 ∧ r = 0#4 then some (.porg size f) else none
  | _ => none

/-- Group 100 (R53). -/
def parseStream (w : W64) (o : BitVec 5) : Option Instr :=
  let sub := fld w 52 4
  let z := sub = 0#4
  let f := rFormOf w
  let r := rModOf w
  match o with
  | 0x00#5 => if r = 0#4 ∧ sub.extractLsb' 2 2 = 0#2 then some (.talloc (sub.extractLsb' 0 2) f) else none
  | 0x01#5 => if z ∧ r = 0#4 then some (.tfree f) else none
  | 0x02#5 => if r = 0#4 ∧ sub.extractLsb' 2 2 = 0#2 then some (.tquery (sub.extractLsb' 0 2) f) else none
  | 0x03#5 => if z ∧ r.extractLsb' 1 3 = 0#3 then some (if r.getLsbD 0 then .sloadRing f else .sload f) else none
  | 0x04#5 => if z ∧ r = 0#4 then some (.sstore f) else none
  | 0x05#5 => if z ∧ r = 0#4 then some (.scopy f) else none
  | 0x06#5 => if r.getLsbD 3 = false then some (.strns sub (r.getLsbD 2) (r.getLsbD 1) (r.getLsbD 0) f) else none
  | 0x07#5 => if z ∧ r.extractLsb' 1 3 = 0#3 then some (if r.getLsbD 0 then .sringFree f else .sring f) else none
  | 0x08#5 => if z ∧ r = 0#4 then some (.rpop f) else none
  | 0x09#5 => if z ∧ r = 0#4 then some (.rrel f) else none
  | 0x0A#5 => if z ∧ r = 0#4 then some (.asl f) else none
  | 0x0B#5 => if sub.getLsbD 3 = false ∧ r = 0#4 then some (.qpop (sub.extractLsb' 0 3) f) else none
  | 0x0C#5 => if sub.getLsbD 3 = false ∧ r = 0#4 then some (.qstat (sub.extractLsb' 0 3) f) else none
  | 0x0D#5 => if z ∧ r = 0#4 then some (.lastld f) else none
  | _ => none

/-- Group 101 (R54). -/
def parseMatrix (w : W64) (o : BitVec 5) : Option Instr :=
  let sub := fld w 52 4
  let z := sub = 0#4
  let f := rFormOf w
  let r := rModOf w
  match o with
  | 0x00#5 => if fld w 0 5 = 0#5 then some (.mloop (xFormOf w)) else none
  | 0x01#5 => if z ∧ r = 0#4 then some (.mzero f) else none
  | 0x02#5 => if z ∧ r = 0#4 then some (.mloadacc f) else none
  | 0x03#5 => some (.tcvtB8 sub (r.getLsbD 3) (r.getLsbD 2) (r.extractLsb' 0 2) f)
  | 0x04#5 => if z ∧ r = 0#4 then some (.tmov f) else none
  | 0x05#5 => if sub.extractLsb' 2 2 = 0#2 ∧ r = 0#4 then some (.mstat (sub.extractLsb' 0 2) f) else none
  | 0x06#5 => some (.tcvtB8Unsigned sub (r.getLsbD 3) (r.getLsbD 2) (r.extractLsb' 0 2) f)
  | 0x07#5 =>
    if sub.extractLsb' 2 2 = 0#2 ∧ r.getLsbD 3 = false then
      some (.tcvtOther (sub.extractLsb' 0 2) (r.getLsbD 2) (r.extractLsb' 0 2) f) else none
  | _ => none

/-- Group 110 (R55). -/
def parseFabric (w : W64) (o : BitVec 5) : Option Instr :=
  let sub := fld w 52 4
  let z := sub = 0#4
  let f := rFormOf w
  let g := fFormOf w
  let r := rModOf w
  let gz := fld w 0 4 = 0#4 ∧ fld w 5 3 = 0#3
  match o with
  | 0x00#5 => if r.extractLsb' 1 3 = 0#3 then some (.cmb sub (r.getLsbD 0) f) else none
  | 0x01#5 => if r.extractLsb' 2 2 = 0#2 then some (.cmbu (r.extractLsb' 0 2 ++ sub) f) else none
  | 0x02#5 => if r.extractLsb' 2 2 = 0#2 then some (.cmbdef (r.extractLsb' 0 2 ++ sub) f) else none
  | 0x03#5 => if gz then pick [.flushr g, .flushrA g] sub.toNat else none
  | 0x04#5 => if z ∧ r = 0#4 then some (.fput f) else none
  | 0x05#5 => if z ∧ r = 0#4 then some (.fget f) else none
  | 0x06#5 => if z ∧ r.extractLsb' 2 2 = 0#2 then some (.fsig (r.getLsbD 1) (r.getLsbD 0) f) else none
  | 0x07#5 => if gz then pick [.fbar g, .fbarStep g] sub.toNat else none
  | 0x08#5 => if z ∧ gz then some (.drain g) else none
  | 0x09#5 => if z ∧ r = 0#4 then some (.rload f) else none
  | 0x0A#5 => if sub.getLsbD 3 = false ∧ r = 0#4 then some (.rstat (sub.extractLsb' 0 3) f) else none
  | _ => none

/-- Group 111 below the emulation range (R56). -/
def parseSystem (w : W64) (o : BitVec 5) : Option Instr :=
  let f := rFormOf w
  let g := iFormOf w
  let r := rModOf w
  let z := fld w 52 4 = 0#4
  if z then
    match o with
    | 0x00#5 => some (.trap g)
    | 0x01#5 => if r = 0#4 then some (.rte f) else none
    | 0x02#5 => some (.sysr g)
    | 0x03#5 => some (.sysw g)
    | 0x04#5 => some (.brk g)
    | 0x05#5 => some (.sysc g)
    | 0x06#5 => if r = 0#4 then some (.snap f) else none
    | 0x07#5 => if r = 0#4 then some (.rbk f) else none
    | 0x08#5 => if r.extractLsb' 1 3 = 0#3 then some (.ctxsv (r.getLsbD 0) f) else none
    | 0x09#5 => if r = 0#4 then some (.ctxld f) else none
    | 0x0A#5 => if r = 0#4 then some (.halt f) else none
    | _ => none
  else none

/-- The fields of an instruction word, before the checks of WellFormed. -/
def parse (w : W64) : Option Instr :=
  let o := fld w 56 5
  match fld w 61 3 with
  | 0#3 => parseInt w o
  | 1#3 => parseFloat w o
  | 2#3 => parseControl w o
  | 3#3 => parseMem w o
  | 4#3 => parseStream w o
  | 5#3 => parseMatrix w o
  | 6#3 => parseFabric w o
  | _ => if fld w 60 4 = 15#4 then some (.med3 (fld w 0 60)) else parseSystem w o

/-- The instruction of a word; none is the fate ILL UNDEF (R58). -/
def decode (w : W64) : Option Instr :=
  match parse w with
  | some i => if i.wf then some i else none
  | none => none

/-- A 64-bit word from its eight bytes, lowest address first (words are little-endian, R28). -/
def wordOfBytes (b : List Byte) : W64 := BitVec.ofNat 64 (b.foldr (fun x n => x.toNat + 256 * n) 0)

/-- Decode an instruction laid out in memory; the rest of the bytes is returned. None where fewer than eight bytes
stand there or the word is undefined. -/
def decodeBytes (b : List Byte) : Option (Instr × List Byte) :=
  if b.length < 8 then none else (decode (wordOfBytes (b.take 8))).map fun i => (i, b.drop 8)

/-- The bytes of a word as the hardware stores them. -/
def bytesOfWord (w : W64) : List Byte := (List.range 8).map fun i => w.extractLsb' (8 * i) 8

/-- The decoder's answer for a word of the opcode table. -/
def decodeTableWord (_nbits w : Nat) : Option Instr := (decodeBytes (bytesOfWord (BitVec.ofNat 64 w))).map (·.1)

/-! ## The clause header (R29, R30) -/

structure Header where
  cls : BitVec 3
  cnt : BitVec 4
  wen : BitVec 4
  wth : BitVec 16
  yld : Bool
  pwd : BitVec 3
  deriving DecidableEq, Repr

def Header.ofWord (w : W64) : Header :=
  { cls := fld w 61 3, cnt := fld w 57 4, wen := fld w 53 4, wth := fld w 37 16, yld := w.getLsbD 36, pwd := fld w 33 3 }

def Header.toWord (h : Header) : W64 := h.cls ++ h.cnt ++ h.wen ++ h.wth ++ BitVec.ofBool h.yld ++ h.pwd ++ 0#33

/-- A header that R30 refuses. -/
def headerBad (w : W64) : Bool := decide (6 ≤ (fld w 61 3).toNat) || decide (5 ≤ (fld w 33 3).toNat) || fld w 0 33 != 0

/-- The opcode of an instruction word. -/
def opcodeOf (w : W64) : Nat := (fld w 56 8).toNat

/-- Whether a clause class admits an opcode (R31). -/
def classAdmits (cls : BitVec 3) (opc : Nat) : Bool :=
  decide (opc < 0x80) || decide (0xF0 ≤ opc) ||
    match cls.toNat with
    | 1 => decide (0x80 ≤ opc ∧ opc ≤ 0x9F)
    | 2 => decide (0xA0 ≤ opc ∧ opc ≤ 0xBF)
    | 3 => decide (0xC0 ≤ opc ∧ opc ≤ 0xC2)
    | 4 => decide (0xC3 ≤ opc ∧ opc ≤ 0xDF)
    | 5 => decide (0xE0 ≤ opc ∧ opc ≤ 0xEF)
    | _ => false

/-! ## The encoder -/

def b1 (b : Bool) : BitVec 1 := BitVec.ofBool b

def Pfx.bits (x : Pfx) : BitVec 5 := b1 x.u ++ x.p ++ b1 x.pn
def Opd.enc (o : Opd) : BitVec 12 := o.start ++ o.wc

def encR (opc : BitVec 8) (sub : BitVec 4) (f : RForm) (mod : BitVec 4 := 0) : W64 :=
  opc ++ sub ++ f.x.bits ++ f.d.enc ++ f.a.enc ++ f.ax.toBits ++ f.b.enc ++ f.bx.toBits ++ b1 f.r4
    ++ (mod ||| (0#1 ++ f.e))

def encI (opc : BitVec 8) (sub : BitVec 4) (f : IForm) : W64 :=
  opc ++ sub ++ f.x.bits ++ f.d.enc ++ f.a.enc ++ f.ax.toBits ++ f.imm

def encB (opc : BitVec 8) (f : BForm) : W64 := opc ++ 0#4 ++ f.x.bits ++ f.fld ++ f.disp

def encM (opc : BitVec 8) (sub : BitVec 4) (f : MForm) (mod : BitVec 4 := 0) : W64 :=
  opc ++ sub ++ f.x.bits ++ f.d.enc ++ f.a.enc ++ f.ax.toBits ++ f.ofs ++ (mod ||| (0#1 ++ f.e))

def encF (opc : BitVec 8) (sub : BitVec 4) (f : FForm) : W64 :=
  opc ++ sub ++ f.x.bits ++ f.d.enc ++ f.a.enc ++ f.ax.toBits ++ f.imm ++ 0#3 ++ b1 f.fut ++ 0#4

def encX (f : XForm) : W64 :=
  0xA0#8 ++ f.fmt.extractLsb' 0 4 ++ f.x.bits ++ f.h ++ f.sc ++ f.kcnt ++ f.bsel ++ b1 f.ainc ++ b1 f.fe ++ f.fd
    ++ f.fmt.extractLsb' 4 2 ++ 0#5

def satMod (s : Bool) : BitVec 4 := 0#3 ++ b1 s
def FMod.bits (m : FMod) : BitVec 4 := b1 m.px ++ b1 m.sat ++ m.rnd
def sgwc (sg : Bool) (wc : BitVec 3) : BitVec 4 := b1 sg ++ wc
def sgew (sg s2 : Bool) (ew : BitVec 2) : BitVec 4 := b1 sg ++ b1 s2 ++ ew
def lo2 (t : BitVec 2) : BitVec 4 := 0#2 ++ t
def lo3 (t : BitVec 3) : BitVec 4 := 0#1 ++ t
def ers (e s : Bool) (r : BitVec 2) : BitVec 4 := b1 e ++ b1 s ++ r

/-- The word of an instruction; events have none. -/
def encode : Instr → Option W64
  | .iadd sg wc s f => some (encR 0x00 (sgwc sg wc) f (satMod s))
  | .iaddImm sg wc f => some (encI 0x01 (sgwc sg wc) f)
  | .isub sg wc s f => some (encR 0x02 (sgwc sg wc) f (satMod s))
  | .imul sg wc f => some (encR 0x03 (sgwc sg wc) f)
  | .imulh sg wc f => some (encR 0x04 (sgwc sg wc) f)
  | .imad sg wc s f => some (encR 0x05 (sgwc sg wc) f (satMod s))
  | .idiv sg wc f => some (encR 0x06 (sgwc sg wc) f)
  | .irem sg wc f => some (encR 0x07 (sgwc sg wc) f)
  | .imin sg wc f => some (encR 0x08 (sgwc sg wc) f)
  | .imax sg wc f => some (encR 0x09 (sgwc sg wc) f)
  | .iabs wc s f => some (encR 0x0A (lo3 wc) f (satMod s))
  | .ineg wc s f => some (encR 0x0B (lo3 wc) f (satMod s))
  | .and_ f => some (encR 0x0C 0 f)
  | .or_ f => some (encR 0x0C 1 f)
  | .xor_ f => some (encR 0x0C 2 f)
  | .andn f => some (encR 0x0C 3 f)
  | .not_ f => some (encR 0x0C 4 f)
  | .andImm f => some (encI 0x0D 0 f)
  | .orImm f => some (encI 0x0D 1 f)
  | .xorImm f => some (encI 0x0D 2 f)
  | .andnImm f => some (encI 0x0D 3 f)
  | .lut3 t f => some (encR 0x0E (t.extractLsb' 4 4) f (t.extractLsb' 0 4))
  | .shl f => some (encR 0x10 0 f)
  | .shr f => some (encR 0x10 1 f)
  | .sar f => some (encR 0x10 2 f)
  | .rot f => some (encR 0x10 3 f)
  | .shlImm f => some (encI 0x11 0 f)
  | .shrImm f => some (encI 0x11 1 f)
  | .sarImm f => some (encI 0x11 2 f)
  | .rotImm f => some (encI 0x11 3 f)
  | .bfx sg f => some (encR 0x12 (sgwc sg 0) f)
  | .bfi f => some (encR 0x13 0 f)
  | .popc f => some (encR 0x14 0 f)
  | .clz f => some (encR 0x14 1 f)
  | .ctz f => some (encR 0x14 2 f)
  | .brev f => some (encR 0x14 3 f)
  | .icmp sg c f => some (encR 0x15 (sgwc sg c) f)
  | .icmpImm sg c f => some (encI 0x16 (sgwc sg c) f)
  | .isel n s f => some (encR 0x17 0 f (b1 n ++ s))
  | .movZ f => some (encR 0x18 0 f)
  | .movS f => some (encR 0x18 1 f)
  | .movx f => some (encR 0x18 2 f)
  | .movxw f => some (encR 0x18 3 f)
  | .movi z f => some (encI 0x19 (sgwc z 0) f)
  | .movh p f => some (encI 0x1A (lo2 p) f)
  | .pack ew f => some (encR 0x1B 0 f (lo2 ew))
  | .unpk ew f => some (encR 0x1B 1 f (lo2 ew))
  | .padd sg ew s f => some (encR 0x1C (sgew sg false ew) f (satMod s))
  | .psub sg ew s f => some (encR 0x1C (sgew sg true ew) f (satMod s))
  | .pmin sg ew f => some (encR 0x1D (sgew sg false ew) f)
  | .pmax sg ew f => some (encR 0x1D (sgew sg true ew) f)
  | .pabs ew f => some (encR 0x1E (lo2 ew) f)
  | .pcmp sg ew c f => some (encR 0x1E (sgew sg true ew) f (lo3 c))
  | .pdot sg ew f => some (encR 0x1F (sgew sg false ew) f)
  | .fadd t m f => some (encR 0x20 (lo2 t) f m.bits)
  | .fsub t m f => some (encR 0x21 (lo2 t) f m.bits)
  | .fmul t m f => some (encR 0x22 (lo2 t) f m.bits)
  | .ffma t m f => some (encR 0x23 (lo2 t) f m.bits)
  | .fmin t p f => some (encR 0x24 (lo2 t) f (b1 p ++ 0#3))
  | .fmax t p f => some (encR 0x25 (lo2 t) f (b1 p ++ 0#3))
  | .fabs t f => some (encR 0x26 (lo2 t) f)
  | .fneg t f => some (encR 0x27 (lo2 t) f)
  | .fcmp t s c f => some (encR 0x28 (lo2 t) f (b1 s ++ c))
  | .fdiv t m f => some (encR 0x29 (lo2 t) f m.bits)
  | .fsqrt t m f => some (encR 0x2A (lo2 t) f m.bits)
  | .frcp t m f => some (encR 0x2B (lo2 t) f m.bits)
  | .frsq t m f => some (encR 0x2C (lo2 t) f m.bits)
  | .fexp2 t m f => some (encR 0x2D (lo2 t) f m.bits)
  | .flog2 t m f => some (encR 0x2E (lo2 t) f m.bits)
  | .fscale t m f => some (encR 0x2F (lo2 t) f m.bits)
  | .fclass t f => some (encR 0x30 (lo2 t) f)
  | .fcvt s d m f => some (encR 0x31 (d ++ s) f m.bits)
  | .icvtf sg t s r f => some (encR 0x32 (sgew sg false t) f (ers false s r))
  | .fcvti sg t r f => some (encR 0x33 (sgew sg false t) f (lo2 r))
  | .cvtb8 bp e s r f => some (encR 0x34 bp f (ers e s r))
  | .cvtb8Unsigned bp e s r f => some (encR 0x35 bp f (ers e s r))
  | .cvtf8 bp t f => some (encR 0x36 bp f (lo2 t))
  | .cvtf8Unsigned bp t f => some (encR 0x37 bp f (lo2 t))
  | .b8dot bp p r f => some (encR 0x38 bp f (ers p false r))
  | .b8dotUnsigned bp p r f => some (encR 0x39 bp f (ers p false r))
  | .hadd2 m f => some (encR 0x3A 0 f m.bits)
  | .hmul2 m f => some (encR 0x3B 0 f m.bits)
  | .hfma2 m f => some (encR 0x3C 0 f m.bits)
  | .bra f => some (encB 0x40 f)
  | .jmpi f => some (encR 0x41 0 f)
  | .call f => some (encB 0x42 f)
  | .calli f => some (encR 0x43 0 f)
  | .ret f => some (encR 0x44 0 f)
  | .loopd f => some (encB 0x45 f)
  | .yield f => some (encR 0x46 0 f)
  | .nop f => some (encR 0x47 0 f)
  | .stop f => some (encR 0x48 0 f)
  | .sleep f => some (encI 0x49 0 f)
  | .waitw f => some (encR 0x4A 0 f)
  | .spawn f => some (encR 0x4B 0 f)
  | .spawnn f => some (encR 0x4C 0 f)
  | .join f => some (encR 0x4D 0 f)
  | .leave f => some (encR 0x4E 0 f)
  | .arrive f => some (encR 0x4F 0 f)
  | .waitph f => some (encR 0x50 0 f)
  | .item f => some (encB 0x51 f)
  | .itempush f => some (encR 0x52 0 f)
  | .grow f => some (encI 0x53 0 f)
  | .growNb f => some (encI 0x53 1 f)
  | .shrink f => some (encI 0x54 0 f)
  | .spl f => some (encR 0x55 0 f)
  | .fil f => some (encR 0x56 0 f)
  | .sread s f => some (encR 0x57 (lo3 s) f)
  | .wait c f => some (encI 0x58 (lo2 c) f)
  | .fwait f => some (encR 0x59 0 f)
  | .ftest f => some (encR 0x5A 0 f)
  | .fpass f => some (encR 0x5B 0 f)
  | .fcancel f => some (encR 0x5C 0 f)
  | .ld sx sz h f => some (encM 0x60 (sgew false sx sz) f (lo2 h))
  | .st sz h f => some (encM 0x61 (lo2 sz) f (lo2 h))
  | .ldV n sz h f => some (encM 0x62 (n ++ sz) f (lo2 h))
  | .stV n sz h f => some (encM 0x63 (n ++ sz) f (lo2 h))
  | .ldp sx sz p f => some (encM 0x64 (sgew false sx sz) f (lo3 p))
  | .pgreq f => some (encM 0x65 0 f)
  | .atom o sc sz f => some (encM 0x66 o f (sc ++ b1 sz))
  | .sld sx sz f => some (encM 0x67 (sgew false sx sz) f)
  | .sst sz f => some (encM 0x68 (lo2 sz) f)
  | .fenceAcq sc f => some (encR 0x69 0 f (lo3 sc))
  | .fenceRel sc f => some (encR 0x69 1 f (lo3 sc))
  | .fenceAr sc f => some (encR 0x69 2 f (lo3 sc))
  | .icinv sc f => some (encR 0x6A 0 f (lo3 sc))
  | .icinvLine sc f => some (encR 0x6A 1 f (lo3 sc))
  | .dcwb f => some (encR 0x6B 0 f)
  | .dcwbAll f => some (encR 0x6B 1 f)
  | .ldm n f => some (encM 0x6C n f)
  | .leg n z f => some (encR 0x70 n f (satMod z))
  | .commit f => some (encB 0x71 f)
  | .commitR f => some (encB 0x71 f)
  | .pchk f => some (encR 0x72 0 f)
  | .pclr f => some (encR 0x73 0 f)
  | .pset f => some (encR 0x74 0 f)
  | .porg k f => some (encR 0x75 (lo2 k) f)
  | .talloc l f => some (encR 0x80 (lo2 l) f)
  | .tfree f => some (encR 0x81 0 f)
  | .tquery k f => some (encR 0x82 (lo2 k) f)
  | .sload f => some (encR 0x83 0 f)
  | .sloadRing f => some (encR 0x83 0 f 1)
  | .sstore f => some (encR 0x84 0 f)
  | .scopy f => some (encR 0x85 0 f)
  | .strns s i u t f => some (encR 0x86 s f (0#1 ++ b1 i ++ b1 u ++ b1 t))
  | .sring f => some (encR 0x87 0 f)
  | .sringFree f => some (encR 0x87 0 f 1)
  | .rpop f => some (encR 0x88 0 f)
  | .rrel f => some (encR 0x89 0 f)
  | .asl f => some (encR 0x8A 0 f)
  | .qpop q f => some (encR 0x8B (lo3 q) f)
  | .qstat q f => some (encR 0x8C (lo3 q) f)
  | .lastld f => some (encR 0x8D 0 f)
  | .mloop f => some (encX f)
  | .mzero f => some (encR 0xA1 0 f)
  | .mloadacc f => some (encR 0xA2 0 f)
  | .tmov f => some (encR 0xA4 0 f)
  | .tcvtB8 bp e s r f => some (encR 0xA3 bp f (ers e s r))
  | .tcvtB8Unsigned bp e s r f => some (encR 0xA6 bp f (ers e s r))
  | .tcvtOther t s r f => some (encR 0xA7 (lo2 t) f (ers false s r))
  | .mstat k f => some (encR 0xA5 (lo2 k) f)
  | .cmb o sz f => some (encR 0xC0 o f (satMod sz))
  | .cmbu n f => some (encR 0xC1 (n.extractLsb' 0 4) f (lo2 (n.extractLsb' 4 2)))
  | .cmbdef n f => some (encR 0xC2 (n.extractLsb' 0 4) f (lo2 (n.extractLsb' 4 2)))
  | .flushr f => some (encF 0xC3 0 f)
  | .flushrA f => some (encF 0xC3 1 f)
  | .fput f => some (encR 0xC4 0 f)
  | .fget f => some (encR 0xC5 0 f)
  | .fsig a sz f => some (encR 0xC6 0 f (0#2 ++ b1 a ++ b1 sz))
  | .fbar f => some (encF 0xC7 0 f)
  | .fbarStep f => some (encF 0xC7 1 f)
  | .drain f => some (encF 0xC8 0 f)
  | .rload f => some (encR 0xC9 0 f)
  | .rstat k f => some (encR 0xCA (lo3 k) f)
  | .trap f => some (encI 0xE0 0 f)
  | .rte f => some (encR 0xE1 0 f)
  | .sysr f => some (encI 0xE2 0 f)
  | .sysw f => some (encI 0xE3 0 f)
  | .brk f => some (encI 0xE4 0 f)
  | .sysc f => some (encI 0xE5 0 f)
  | .snap f => some (encR 0xE6 0 f)
  | .rbk f => some (encR 0xE7 0 f)
  | .ctxsv q f => some (encR 0xE8 0 f (satMod q))
  | .ctxld f => some (encR 0xE9 0 f)
  | .halt f => some (encR 0xEA 0 f)
  | .med3 low => some (0xF#4 ++ low)
  | .tlbinv .. | .orgctlFree .. | .orgctlFreeall .. | .wake .. | .registerWrite .. | .devctlReset | .devctlJrnclr
  | .ckptctlNow | .issueVote .. | .binTimerExpiry .. | .packPlace .. | .throttleEpoch .. | .sleepExpiry .. | .waitwReread ..
  | .waitwTimer .. | .loadReply .. | .writebackTimer .. | .clusterInvalidation .. | .revoke .. | .streamCommandStart ..
  | .streamCommandComplete .. | .aslDeliver .. | .matrixCommandStart .. | .mloopStep .. | .matrixCommandComplete ..
  | .combineRequestArrival .. | .waveWindowExpiry .. | .waveApply .. | .methodInstall .. | .combineReply .. | .memberSave ..
  | .snapshotValid .. | .rollback .. | .pageRequestAnswer .. | .hostWrite .. | .hostRead .. | .backInvalidateAck ..
  | .launchRecord .. | .launchStart .. | .launchCopy .. | .deviceLevelFault .. | .bringUp .. | .powerAlarm
  | .coreClockGate .. | .sramRetentionEntry | .hbmSelfRefreshEntry | .wakeEvent .. | .ecsPoll .. | .checkpointDue
  | .checkpointRequest .. | .i3cCommand .. | .attestationRequest .. | .firmwareUpdate .. | .frameMarker | .slotBoundary
  | .roseTakeEffect | .fabricTimeout .. | .writeFlit | .readRequestFlit | .readReplyFlit | .atomicRequestFlit
  | .atomicReplyFlit | .signalFlit | .acknowledgeFlit | .refusalFlit | .allowanceGrantFlit
  | .drainMarkerFlit | .drainAcknowledgeFlit | .barrierArrivalFlit | .barrierReleaseFlit | .multiCycleResult ..
  | .storeFillReturn .. | .hostStoreCompletion .. | .portRelock .. | .reservedTypeFlit | .checkpointAnswer ..
  | .temperatureEvent | .ideKeyExchange .. => none

end Sys2Proof
end

