-- ==== Sys2Proof/Config.lean ====
section
/-! DEFINITION. What an implementation of the 9768 fixes, and the values the manual leaves open. -/

namespace Sys2Proof

/-- Constants one machine fixes. They stand in State so that a statement holds for every machine; no step changes them. -/
structure Config where
  /-- DEVID.FORM (R3). -/
  form : Nat := 0
  /-- First physical address of the window through which the device reaches host memory (R228; assumption 12). -/
  hostLo : Nat := 2 ^ 51
  /-- One past the last physical address of that window. -/
  hostHi : Nat := 2 ^ 52
  /-- Launch area, page-request rings and fault log, as bring-up reserves them (R381, R397; assumption 13). -/
  launchBase : Nat := 0x7600000000
  prqBase : Nat := 0x7610000000
  flogBase : Nat := 0x7620000000
  /-- First bytes of what bring-up reserves of the HBM (R397): snapshot regions, 512 MiB a cluster (R394); tile backing, 32 MiB a core (R290);
  quarantine spill, 16 MiB a core (R212); relay overflow, 512 MiB (R347). -/
  snapBase : Nat := 0x6000000000
  tileBase : Nat := 0x6C00000000
  spillBase : Nat := 0x7200000000
  relayBase : Nat := 0x7500000000
  /-- The resident dispatcher's clause, at which bring-up starts the dispatcher threads (R385; assumption 14). -/
  dispatchEntry : Nat := 0
  /-- Outstanding-request latencies, in cycles, that no rule states: a load, a stream command, a combine (assumption 15). -/
  loadLatency : Nat := 20
  streamLatency : Nat := 40
  hopLatency : Nat := 10
  /-- Flits of allowance that this device keeps granted to each peer it meets (R346; assumption 15). -/
  grant : Nat := 1024
  deriving DecidableEq, Repr, Inhabited

namespace Config

/-- FREE VALUE. Which result within the stated error bound FRCP, FRSQ, FEXP2 and FLOG2 give (R177): applied to the
operation and the operand. -/
opaque approxPick : Nat → Nat → Nat

/-- FREE VALUE. Which L1 line an allocation evicts (R194 names no policy). -/
opaque victim : Nat → Nat → Nat

/-- FREE VALUE. Whether a home has room to record an owner (R226), fresh for each value of State.freeCtr. -/
opaque ownerRoom : Nat → Bool

/-- FREE VALUE. A word the manual leaves open, fresh for each value of State.freeCtr. -/
opaque freeWord : Nat → W64

/-- FREE VALUE. The SHA3-256 digest of a byte string (R396, R399). The manual names the function; its standard is not part of it. -/
opaque sha3 : List Byte → BitVec 256

/-- FREE VALUE. CKPTSEQ of another device, as it tells it to the coordinator of a barrier outside the flits (R395): applied to its number
and State.freeCtr. -/
opaque peerSeq : Nat → Nat → Nat

/-- FREE VALUE. The images that Troham boots: 0 its own firmware, 1 the dispatcher's, 2 the sequencers' microcode, and from 3 on their
backups (R397). -/
opaque bootImage : Nat → List Byte

/-- FREE VALUE. Troham's ML-DSA-65 signature of a digest, as a number (R399). -/
opaque sign : BitVec 256 → Nat

/-- FREE VALUE. Whether a signature on an image's digest verifies (R397, R399). -/
opaque verify : BitVec 256 → Nat → Bool

end Config

end Sys2Proof
end

