-- ==== Sys2Proof/Machine/State.lean ====
section
/-! DEFINITION. The state of one 9768 device: everything the manual gives it, as plain data, and the state at reset. -/

namespace Sys2Proof.Machine

/-- A table keyed by number, keys rising; an absent key holds the table's default. -/
abbrev Tbl (α : Type) := List (Nat × α)

/-- A value as an operand or a memory word carries it: clean bits, or poison with its token (R196). -/
inductive Val where
  | ok (v : Nat)
  | bad (k : Tok)
  deriving DecidableEq, Repr, Inhabited

/-- The counter classes (R11). -/
inductive Cls where
  | s | m | c | f
  deriving DecidableEq, Repr, Inhabited

/-- A command that a thread has issued and that has not retired (R15). -/
structure Outst where
  id : Nat := 0
  cls : Cls := .s
  done : Bool := false
  deriving DecidableEq, Repr, Inhabited

/-- Slices pending on the core's work item `id`; `fut` marks a future handle, whose bits completion keeps (R21). -/
structure Pend where
  lo : Nat := 0
  n : Nat := 0
  id : Nat := 0
  fut : Bool := false
  deriving DecidableEq, Repr, Inhabited

/-- An open leg (R211): shadowed granules, the absent ones, replays, and the resume point of a replay. -/
structure Leg where
  lo : Nat := 0
  n : Nat := 0
  absent : List Nat := []
  replays : Nat := 0
  replayable : Bool := true
  pc : W64 := 0
  hdr : Option W64 := none
  /-- The first live token that a parked COMMIT.R found, for the recovery path after a refusal (R217). -/
  first : Option Tok := none
  deriving DecidableEq, Repr, Inhabited

/-- A watched word (R155): its line when it lies at this device, the word of the WAITW and its lowest thread. -/
structure Watch where
  va : W64 := 0
  line : Nat := 0
  bits : Nat := 0
  want : Nat := 0
  due : Nat := 0
  tabled : Bool := true
  peer : Nat := 0
  asked : Bool := false
  pc : W64 := 0
  lead : Tid := 0
  deriving DecidableEq, Repr, Inhabited

/-- One page a thread waits for (R189, R207, R217), and whether a store needs it (R387). -/
structure PageWait where
  asid : Nat := 0
  page : Nat := 0
  store : Bool := false
  deriving DecidableEq, Repr, Inhabited

/-- What keeps a thread from being ready (R92). -/
structure Hold where
  sleep : Option Nat := none
  watch : Option Watch := none
  phase : Option (BitVec 16 × BitVec 16) := none
  parked : List PageWait := []
  refused : Bool := false
  fetch : Option PageWait := none
  /-- The page is an RTE's (R252); the host has refused it (R189). -/
  rte : Bool := false
  noPage : Bool := false
  stopping : Bool := false
  /-- It ends in a thread fault, once its stop word's release is done (R247, R386). -/
  faulted : Bool := false
  frozen : Bool := false
  snap : Option Nat := none
  rbk : Option Nat := none
  /-- A thread of the resident dispatcher, whose program the LAUNCH events stand for (R385). -/
  resident : Bool := false
  deriving DecidableEq, Repr, Inhabited

/-- A thread record in a spawn bin (R87, R91). -/
structure SpawnRec where
  entry : W64 := 0
  width : BitVec 3 := 0
  prio : Nat := 0
  xgran : Nat := 0
  s0 : Nat := 0
  s8 : Nat := 0
  s16 : Nat := 0
  s16tags : Tbl Tok := []
  stopw : W64 := 0
  redun : Bool := false
  at_ : Nat := 0
  deriving DecidableEq, Repr, Inhabited

/-- A SPAWN or SPAWNN under way: the record, the next batch index, the count and whether indices are numbered (R91). -/
structure SpawnJob where
  rec_ : SpawnRec := {}
  next : Nat := 0
  count : Nat := 0
  batch : Bool := false
  deriving DecidableEq, Repr, Inhabited

/-- A thread's operand queue (R311, R312): `left` elements are not yet delivered; cancelling its slice unbinds it. `asl` is the command
that bound it. -/
structure OpQueue where
  depth : Nat := 0
  elems : List Val := []
  left : Nat := 0
  bound : Bool := true
  asl : Nat := 0
  deriving DecidableEq, Repr, Inhabited

/-- What a future instruction reads, and what a chain carry holds: an operand field's bits with the token of each slice's granule
(R126, R157, R158), or the poison of a field that cannot be read (R110, R120). -/
inductive Raw where
  | got (bits : Nat) (toks : List (Option Tok))
  | out (k : Tok)
  deriving DecidableEq, Repr, Inhabited

/-- A thread (R85, R109, R116, R248). -/
structure Thread where
  pc : W64 := 0
  /-- The clause header when `pc` names a word inside a clause (R125). -/
  hdr : Option W64 := none
  slices : BitVec 2048 := 0
  tags : Tbl Tok := []
  xgran : Nat := 0
  preds : BitVec 7 := 0
  pend : List Pend := []
  outst : List Outst := []
  uviol : Bool := false
  redun : Bool := false
  seq : Bool := false
  seqstep : Nat := 0
  hdepth : Nat := 0
  priv : Bool := false
  drop : Option Tok := none
  leg : Option Leg := none
  tfp : BitVec 32 := 0
  stopw : W64 := 0
  width : BitVec 3 := 0
  prio : Nat := 0
  bin : Nat := 0
  team : Option (BitVec 16) := none
  age : Nat := 0
  demote : Nat := 0
  /-- The thread has executed YIELD in the clause it is in (R97). -/
  yields : Bool := false
  forced : Option Nat := none
  hold : Hold := {}
  carryA : Option Raw := none
  carryB : Option Raw := none
  carryAt : W64 := 0
  ldm : Option Val := none
  spawn : Option SpawnJob := none
  queues : Tbl OpQueue := []
  deriving DecidableEq, Repr, Inhabited

/-- What a trap reports (R246). -/
structure TrapRec where
  pc : W64 := 0
  hdr : W64 := 0
  cause : Nat := 0
  detail : Nat := 0
  code : Nat := 0
  byTrap : Bool := false
  inst : W64 := 0
  acted : List Tid := []
  addrs : Tbl W64 := []
  deriving DecidableEq, Repr, Inhabited

/-- An issue port holding a pack (R93), the cycle it was filled, and whether the two copies of its next redundant
thread-operation will differ (R259). `old` holds the slices and tags that an end-commit word under way reads (R124). -/
structure Port where
  hdrAddr : W64 := 0
  hdr : W64 := 0
  words : List W64 := []
  widx : Nat := 0
  pack : List Tid := []
  done : List Tid := []
  acts : Option (List Tid) := none
  old : Tbl (BitVec 2048 × Tbl Tok) := []
  busy : Nat := 0
  stall : Bool := false
  trap : Option TrapRec := none
  filled : Nat := 0
  upset : Bool := false
  deriving DecidableEq, Repr, Inhabited

/-- A future-table entry (R20). -/
structure Fut where
  gen : Nat := 0
  used : Bool := false
  live : Bool := false
  cls : Cls := .s
  id : Nat := 0
  deriving DecidableEq, Repr, Inhabited

/-- What a late write carries: a clean value, a token made at issue, poison that arrived with a token and takes its carried
entry when it is written, or a cause that takes its entry then (R24, R200). -/
inductive Got where
  | clean (v : Nat)
  | tok (k : Tok)
  | carried (k : Tok) (addr : W64)
  | cause (c : Nat) (addr : W64)
  deriving DecidableEq, Repr, Inhabited

/-- One destination range of a late write. -/
structure Piece where
  lo : Nat := 0
  n : Nat := 0
  got : Got := .clean 0
  deriving DecidableEq, Repr, Inhabited

/-- What an outstanding work item is. -/
inductive ReqKind where
  | load | atom | multi | remote | hostStore
  | fill (key : Nat) (mask : BitVec 4) (v : Nat) (evf : Bool)
  deriving DecidableEq, Repr, Inhabited

/-- An outstanding work item of a core (R195, R202, R132), the thread that issued it and the cycle it issued. -/
structure Req where
  id : Nat := 0
  tids : List Tid := []
  lead : Tid := 0
  issued : Nat := 0
  pc : W64 := 0
  pieces : List Piece := []
  kind : ReqKind := .load
  due : Nat := 0
  deriving DecidableEq, Repr, Inhabited

/-- A spawn bin (R87, R88, R108). `left` counts the epochs it was left out of the allowed set. -/
structure Bin where
  key : Option W64 := none
  recs : List SpawnRec := []
  opened : Nat := 0
  score : Nat := 0
  left : Nat := 0
  allowed : Bool := true
  expired : Bool := false
  deriving DecidableEq, Repr, Inhabited

/-- A team-table entry (R101). -/
structure Team where
  live : Bool := false
  members : Nat := 0
  arrived : Nat := 0
  phase : Nat := 0
  deriving DecidableEq, Repr, Inhabited

/-- A cached translation (R190). -/
structure TlbEnt where
  asid : Nat := 0
  page : Nat := 0
  level : Nat := 0
  leaf : W64 := 0
  at_ : Nat := 0
  deriving DecidableEq, Repr, Inhabited

/-- An origin-table entry (R220); `store` tells a page request that a store caused it (R387). -/
structure Origin where
  pc : W64 := 0
  addr : W64 := 0
  cyc : Nat := 0
  info : W64 := 0
  store : Bool := false
  deriving DecidableEq, Repr, Inhabited

/-- An L1 word (R194, R225, R226). `dirty` holds the cycle of the store that made it dirty; `sk` the ASID, page and level of the SK
translation that it was cached through (R191). -/
structure L1Word where
  val : Val := .ok 0
  dirty : Option Nat := none
  owned : Bool := false
  sk : Option (Nat × Nat × Nat) := none
  evf : Bool := false
  deriving DecidableEq, Repr, Inhabited

/-- Where a held store goes (R212): a physical word, a tile word, or, where it has failed before it had one, the word of its effective
or scratch address. -/
inductive HKey where
  | glob (peer : Nat) (word : Nat)
  | tile (core level index word : Nat)
  | lost (scratch : Bool) (word : Nat)
  deriving DecidableEq, Repr, Inhabited

/-- One 32-bit word of a thread's held stores: byte mask and value, or its token (R212); the word that issued the store, the page
and hint it will perform with (R194, R350), and whether it and its pair are held for one 64-bit store (R195). -/
structure Held where
  tid : Tid := 0
  key : HKey := .lost false 0
  va : W64 := 0
  pc : W64 := 0
  nl1 : Bool := false
  evf : Bool := false
  mtc : Nat := 0
  mode : Nat := 0
  at_ : Nat := 0
  level : Nat := 0
  wide : Bool := false
  mask : BitVec 4 := 0
  val : Val := .ok 0
  deriving DecidableEq, Repr, Inhabited

/-- Memory: canonical bytes (R187) and the poisoned 32-bit words, whose bytes are their tokens (R200). -/
structure Memory where
  bytes : List Host.Cell := []
  tags : List Nat := []
  deriving DecidableEq, Repr, Inhabited

/-- A tile-table entry (R288, R290). -/
structure Tile where
  live : Bool := false
  gen : Nat := 0
  shape : W64 := 0
  asid : Option Nat := some 0
  bank : Bool := false
  ovf : Bool := false
  ctx : Nat := 0
  deriving DecidableEq, Repr, Inhabited

/-- A ring (R307). -/
structure Ring where
  live : Bool := false
  gen : Nat := 0
  tile : BitVec 16 := 0
  slotB : Nat := 0
  nslot : Nat := 0
  free : Nat := 0
  filled : Nat := 0
  held : Nat := 0
  fillAt : Nat := 0
  popAt : Nat := 0
  relAt : Nat := 0
  deriving DecidableEq, Repr, Inhabited

/-- Stream commands with the operands read at issue (R298, R301, R306, R311). -/
inductive StrOp where
  | sload (dst : BitVec 32) (last : W64)
  | fill (ring : BitVec 16) (last : W64)
  | sstore (src : BitVec 32) (last : W64)
  | scopy (dst src : BitVec 32) (cnt : Nat)
  | strns (sub : BitVec 4) (int uns sat : Bool) (dst : BitVec 32) (last : W64)
  | asl (desc : W64)
  | lastld (last : W64)
  deriving DecidableEq, Repr, Inhabited

/-- A line of a peer's memory that a command has asked for and that has come back, or failed with a cause (R349, R351); the token that the
failure took. -/
structure RLine where
  peer : Nat := 0
  line : Nat := 0
  words : List Val := []
  fail : Option Nat := none
  tok : Option Tok := none
  deriving DecidableEq, Repr, Inhabited

/-- A last (R294): width, pad kind and value, and each dimension's extent, bound and stride. -/
structure Last where
  base : Nat := 0
  ebits : Nat := 8
  pad : Nat := 0
  padval : Nat := 0
  dims : List (Nat × Nat × Int) := []
  deriving DecidableEq, Repr, Inhabited

/-- An access-slice descriptor (R310). -/
structure Slice where
  base : Nat := 0
  tstride : Int := 0
  esize : Nat := 0
  queue : Nat := 0
  depth : Nat := 1
  levels : List (Nat × Int) := []
  deriving DecidableEq, Repr, Inhabited

/-- A stream command (R298): `stage` 0 queued, 1 reading its record from a peer, 2 under way, 3 waiting for its stores to complete,
4 an access slice waiting for its queues (R311); `stay` until the layout cache is emptied while it reads its last (R297); the peer lines it waits for and holds; the origin entries it has made (R299): by
faulting page, by arriving token, for padding and for an invalid element; of an SSTORE the token and number of the first element
that failed, and the first element of each line sent to a peer. -/
structure StrCmd where
  id : Nat := 0
  tids : List Tid := []
  lead : Tid := 0
  pc : W64 := 0
  asid : Nat := 0
  root : W64 := 0
  user : Bool := true
  frames : Bool := false
  op : StrOp := .lastld 0
  stage : Nat := 0
  stay : Bool := true
  last : Last := {}
  slice : Slice := {}
  start : Nat := 0
  slot : Option Nat := none
  due : Nat := 0
  pos : Tbl Nat := []
  tags : List Nat := []
  lines : List RLine := []
  pages : Tbl Tok := []
  toks : List (Tok × Tok) := []
  padTok : Option Tok := none
  invTok : Option Tok := none
  fault : Option Tok := none
  faultAt : Nat := 0
  sentAt : List (Nat × Nat × Nat) := []
  deriving DecidableEq, Repr, Inhabited

/-- Where an MLOOP takes its operand offset (R322). -/
inductive OffSrc where
  | word (v : Nat)
  | after (id : Nat) (old : Nat)
  deriving DecidableEq, Repr, Inhabited

/-- Matrix commands with the operands read at issue (R320, R328). -/
inductive MatOp where
  | loop (acc a b : BitVec 16) (off : OffSrc) (sa sb : List Val) (kcnt : Nat) (fmt : BitVec 6) (ainc : Bool) (h : Nat)
  | zero (acc : BitVec 16)
  | loadacc (acc : BitVec 16) (src : BitVec 32)
  | mov (dst : BitVec 32) (src : BitVec 16)
  | cvtB8 (bp : BitVec 4) (uns ef sat : Bool) (rnd : BitVec 2) (dst : BitVec 32) (src : BitVec 32)
  | cvtOther (tgt : BitVec 2) (sat : Bool) (rnd : BitVec 2) (dst : BitVec 32) (src : BitVec 16)
  deriving DecidableEq, Repr, Inhabited

/-- A matrix command (R318, R323). -/
structure MatCmd where
  id : Nat := 0
  tids : List Tid := []
  lead : Tid := 0
  pc : W64 := 0
  asid : Nat := 0
  frames : Bool := false
  op : MatOp := .zero 0
  started : Bool := false
  step : Nat := 0
  due : Nat := 0
  inv : Option Tok := none
  fault : Option Tok := none
  cancelled : Bool := false
  /-- The step at which it stops: the boundary that a cancellation or a save has set (R334, R335). -/
  stopAt : Option Nat := none
  /-- An integer sum of its steps has overflowed (R325): the tile's flag takes it when the command ends (R331). -/
  ovf : Bool := false
  deriving DecidableEq, Repr, Inhabited

/-- A combine request (R276, R278). `dev` is the requester's device, 0 this one; `sent` and `came` the cycles it was sent and joined its
wave; `port` and `filled` the pack's port and when that was filled, which tell the word that sent it; `body` the method that a user
lane runs, looked up when its wave closes. -/
structure CReq where
  id : Nat := 0
  core : Nat := 0
  cmd : Nat := 0
  tids : List Tid := []
  lead : Tid := 0
  lo : Nat := 0
  n : Nat := 0
  pc : W64 := 0
  ea : W64 := 0
  pa : Nat := 0
  peer : Nat := 0
  user : Bool := false
  method : Nat := 0
  sz : Bool := false
  b : Nat := 0
  new : Nat := 0
  ident : Nat := 0
  dev : Nat := 0
  tag : Nat := 0
  sent : Nat := 0
  came : Nat := 0
  port : Nat := 0
  filled : Nat := 0
  body : List W64 := []
  reply : Option Got := none
  deriving DecidableEq, Repr, Inhabited

/-- A combining wave of one object (R268). -/
structure Wave where
  obj : Nat := 0
  opened : Nat := 0
  window : Nat := 64
  closed : Bool := false
  closedAt : Nat := 0
  reqs : List CReq := []
  deriving DecidableEq, Repr, Inhabited

/-- Fabric commands, and CMBDEF's reading of its record, with the operands read at issue (R281, R353 to R357). -/
inductive FabKind where
  | flushr (peer : Nat)
  | fput (va : W64) (sa : BitVec 32) (n : Nat)
  | fget (va : W64) (sa : BitVec 32) (n : Nat)
  | fsig (add sz : Bool) (va : W64) (v : Nat)
  | fbar (b : Nat) (step : Bool) (a : Nat)
  | drain (mask : BitVec 8)
  | rload (addr : W64) (cycle : Nat)
  | cmbdef (slot : Nat) (addr : W64) (lo : Nat)
  deriving DecidableEq, Repr, Inhabited

/-- A fabric command (R352): `sent` once its requests have left, `freed` once its barrier's release has come, the tags it waits for, the peer lines it holds, the poison it
will complete with, and the origin entries it has made by page and by token (R299). -/
structure FabCmd where
  id : Nat := 0
  tids : List Tid := []
  lead : Tid := 0
  pc : W64 := 0
  asid : Nat := 0
  root : W64 := 0
  user : Bool := true
  frames : Bool := false
  kind : FabKind := .flushr 0
  sent : Bool := false
  freed : Bool := false
  tags : List Nat := []
  lines : List RLine := []
  pages : Tbl Tok := []
  toks : List (Tok × Tok) := []
  fault : Option Tok := none
  faultAt : Nat := 0
  sentAt : List (Nat × Nat × Nat) := []
  deriving DecidableEq, Repr, Inhabited

/-- A core (R10). -/
structure Core where
  nextId : Nat := 0
  fut : Tbl Fut := []
  reqs : List Req := []
  bins : Tbl Bin := []
  growQ : List (Nat × Nat) := []
  teams : Tbl Team := []
  items : List Val := []
  victims : List (Nat × Nat) := []
  schcfg : W64 := 0x04000100
  ptbr : W64 := 0
  tvec : W64 := 0
  wps : Tbl W64 := []
  tlb : List TlbEnt := []
  org : Tbl Origin := []
  orgCur : Nat := 0
  l1 : Tbl L1Word := []
  icache : Tbl (BitVec 512) := []
  quar : List Held := []
  posted : List Nat := []
  postOvf : Bool := false
  halted : Bool := false
  gatedAt : Option Nat := none
  gatedFor : Nat := 0
  idleAt : Nat := 0
  epochAt : Nat := 0
  tiles : Tbl Tile := []
  tmem : Memory := {}
  lasts : List (Nat × Nat × BitVec 512) := []
  rings : Tbl Ring := []
  strQ : List StrCmd := []
  matQ : List MatCmd := []
  stepCnt : Nat := 0
  sdcCnt : Nat := 0
  narrow : Bool := false
  fabQ : List FabCmd := []
  pgq : List (Tid × Nat) := []
  deriving DecidableEq, Repr, Inhabited

/-- A page request in die memory (R387) and what asked for it. -/
structure PageReq where
  asid : Nat := 0
  page : Nat := 0
  deriving DecidableEq, Repr, Inhabited

/-- A launch record in the dispatcher's hand (R385). -/
structure Disp where
  next : Nat := 0
  hand : Option Nat := none
  started : Bool := false
  copy : Nat := 0
  lastCore : Option Nat := none
  cores : List Nat := []
  /-- The copy whose SPAWNN is under way: its core and what it still has to put into bins. -/
  job : Option (Nat × SpawnJob) := none
  deriving DecidableEq, Repr, Inhabited

/-- A checked method that a die has yet to install, for command `id` of a core (R281). -/
structure Install where
  slot : Nat := 0
  body : List W64 := []
  core : Nat := 0
  id : Nat := 0
  deriving DecidableEq, Repr, Inhabited

/-- A compute die (R190, R207, R273, R281, R385). -/
structure Die where
  cache : List TlbEnt := []
  window : Nat := 64
  methods : Tbl (List W64) := []
  install : List Install := []
  pages : Tbl PageReq := []
  disp : Disp := {}
  deriving DecidableEq, Repr, Inhabited

/-- Messages that a write at a home sends to cores (R225), and on whose behalf. -/
inductive MsgKind where
  | inval | revoke
  deriving DecidableEq, Repr, Inhabited

structure Msg where
  kind : MsgKind := .inval
  core : Nat := 0
  key : Nat := 0
  from_ : Nat := 0
  deriving DecidableEq, Repr, Inhabited

/-- A rose: for each slot the peer of each port, none where dark (R343). -/
structure Rose where
  slots : List (List (Option Nat)) := []
  deriving DecidableEq, Repr, Inhabited

/-- What a transaction tag stands for (R340): a load or ATOM of a core, a command, a combine, a posted store. -/
inductive TagUse where
  | req (id : Nat)
  | cmd (id : Nat)
  | comb (id : Nat)
  | store
  | watch (t : Tid)
  deriving DecidableEq, Repr, Inhabited

/-- A transaction under way (R340, R351): who issued it, the peer's bytes it names, whether it writes there, and when it times out. A load
adds what its reply needs: bits, extension, page mode, SK translation and hint, the words that its core has stored to, whether another
reply of its line has come since it was sent, and the held words that stand over the reply (R212, R224, R349). -/
structure TagRec where
  tag : Nat := 0
  core : Nat := 0
  tid : Tid := 0
  dst : Nat := 0
  pc : W64 := 0
  ea : W64 := 0
  use : TagUse := .store
  lo : Nat := 0
  hi : Nat := 0
  due : Nat := 0
  bits : Nat := 0
  sx : Bool := false
  piece : Nat := 0
  more : Nat := 0
  sk : Option (Nat × Nat × Nat) := none
  evf : Bool := false
  write : Bool := false
  stale : List Nat := []
  raced : Bool := false
  fwd : List Held := []
  deriving DecidableEq, Repr, Inhabited

/-- An open fabric barrier at its coordinator (R355): arrivals as (device, tag, 0), or (0, command, core) at this device; a
release withheld for a checkpoint, its sequence number, and the devices that were asked for it and that have answered (R395). -/
structure Barrier where
  n : Nat := 0
  step : Bool := false
  arrivals : List (Nat × Nat × Nat) := []
  withheld : Bool := false
  seq : Nat := 0
  asked : List Nat := []
  answers : List Nat := []
  deriving DecidableEq, Repr, Inhabited

/-- An arrival that waits for a barrier entry: barrier, n, step, and who arrived (R355). -/
structure Arrival where
  b : Nat := 0
  n : Nat := 0
  step : Bool := false
  who : Nat × Nat × Nat := (0, 0, 0)
  deriving DecidableEq, Repr, Inhabited

/-- Ports being drained (R356, R358): for a DRAIN of a core or for a pending rose; the flits queued for them at its start, then
the markers by port, and the tags of those not yet acknowledged with their devices. -/
structure DrainRec where
  cmd : Option (Nat × Nat) := none
  mask : BitVec 8 := 0
  queued : List Flit := []
  marked : Bool := false
  marks : List (Nat × Flit) := []
  tags : List (Nat × Nat) := []
  deriving DecidableEq, Repr, Inhabited

/-- A migration counter (R350). -/
structure Mig where
  asid : Nat := 0
  page : Nat := 0
  peer : Nat := 0
  mtc : Nat := 0
  count : Nat := 0
  deriving DecidableEq, Repr, Inhabited

/-- The fabric engine (R339 to R360). `inbox` holds the flits received and not yet acted on, oldest first, each with its port and its data;
`owed` the answers to writes of a line that wait for its invalidations and revokes (R225); `sent` what has left, which is the replay
store, and `resends` how often each of it has been sent again (R341). Allowances are kept by destination and slot (R346). -/
structure Fab where
  dev : BitVec 12 := 0
  timeout : Nat := 1000
  waitSlots : Nat := 1
  migbase : W64 := 0
  epoch : Option Nat := none
  rose : Option Rose := none
  roseCyc : Nat := 0
  roseAt : Nat := 0
  next : Option (Rose × Nat × Nat × Nat) := none
  down : BitVec 8 := 0
  drained : BitVec 8 := 0
  degraded : BitVec 8 := 0
  relock : BitVec 8 := 0
  changed : BitVec 8 := 0
  allow : Tbl Nat := []
  relay : Tbl Nat := []
  waiting : List Flit := []
  sent : List Flit := []
  staged : List Flit := []
  inbox : List (Nat × Flit × List Flit) := []
  owed : List (Nat × Flit) := []
  resends : Tbl Nat := []
  tags : List TagRec := []
  nextTag : Nat := 0
  barriers : Tbl Barrier := []
  barrierQ : List Arrival := []
  drains : List DrainRec := []
  markers : List (Nat × Flit) := []
  promised : Tbl Nat := []
  granted : Tbl Nat := []
  migs : List Mig := []
  migRec : Nat := 0
  migDrop : Nat := 0
  resend : Nat := 0
  fabPois : Nat := 0
  deriving DecidableEq, Repr, Inhabited

/-- One line of the bring-up journal (R397): an attempt and its result. -/
structure JLine where
  step : Nat := 0
  unit_ : Nat := 0
  method : Nat := 0
  ok : Bool := true
  deriving DecidableEq, Repr, Inhabited

/-- The host port: register block (R381), raised vectors (R382), and Troham's own state (R391 to R399). -/
structure HostBlk where
  ready : Bool := false
  fault : Bool := false
  fcause : Nat := 0
  failSteps : Nat := 0
  stopped : Bool := false
  cores : Nat := 0
  jrnclr : Bool := false
  launchBase : W64 := 0
  prqBase : W64 := 0
  flogBase : W64 := 0
  lattol : Nat := 0
  pstate : Nat := 0
  period : Nat := 0
  overflow : Bool := false
  stepMode : Bool := false
  ckptEn : Bool := false
  ckptBase : W64 := 0
  ckptRoot : W64 := 0
  ckptSeq : W64 := 0
  ecs : Tbl (Nat × Nat) := []
  ecsHour : List (Nat × List Nat) := [(0, [])]
  vectors : List Nat := []
  read : Option Val := none
  lastAccess : Nat := 0
  hostLines : List Nat := []
  backInval : List (Nat × Nat) := []
  ckptDue : Bool := false
  ckptSteps : Nat := 0
  ckptLast : Nat := 0
  slot0 : List Nat := []
  slot1 : List Nat := []
  ckptAnswered : List (Nat × Nat) := []
  /-- A checkpoint request whose threads are being held: coordinator and sequence number (R395). -/
  ckptReq : Option (BitVec 12 × W64) := none
  journal : List JLine := []
  fenced : List Nat := []
  fencedDies : List Nat := []
  linkRate : Nat := 0
  alarm : Bool := false
  powerLimit : Nat := 2500
  temperature : Bool := false
  fwVersion : Nat := 0
  rollback : Nat := 0
  update : Option (List Byte) := none
  images : List (BitVec 256) := []
  i3cReply : Option (List Nat) := none
  report : Option (List (BitVec 256) × Nat) := none
  keys : Tbl Nat := []
  deriving DecidableEq, Repr, Inhabited

/-- A tile as an image or snapshot holds it (R257, R260): its words, and the scales of a recorded loop (R335). -/
structure TileImg where
  level : Nat := 0
  index : Nat := 0
  tile : Tile := {}
  words : List Val := []
  scales : List Val := []
  deriving DecidableEq, Repr, Inhabited

/-- What the records of a context image hold (R257): saved, or read back from memory. -/
structure Image where
  team : BitVec 16 := 0
  entry : Team := {}
  threads : List (Tid × Thread) := []
  frames : List (Tid × List Val) := []
  held : List Held := []
  tiles : List (Nat × TileImg) := []
  futs : List (Nat × Nat × Fut) := []
  items : Option (Nat × List Val) := none
  strs : List (Nat × StrCmd) := []
  mats : List (Nat × MatCmd) := []
  ptbrs : List (Nat × W64) := []
  deriving DecidableEq, Repr, Inhabited

/-- What an image's record of a thread with its held stores, a future or a command stands for beyond the fields that its stated size
holds (assumption 74). -/
inductive Rec where
  | thread (x : Thread) (held : List Held)
  | fut (f : Fut)
  | str (k : StrCmd)
  | mat (k : MatCmd)
  deriving DecidableEq, Repr

/-- Where an image with resident accumulator tiles stands (R256): its address and root, and of each resident tile the core, the index, the
offset of its record and the scales that follow its words. -/
structure ImgHome where
  addr : W64 := 0
  ptbr : W64 := 0
  core : Nat := 0
  tiles : List (Nat × Nat × Nat × List Val) := []
  deriving DecidableEq, Repr, Inhabited

/-- A save in progress (R255 to R258): of the team with key core × 64 + index; `cmd` is its future's work item, none where the issuing
thread waits. -/
structure Save where
  key : Nat := 0
  team : BitVec 16 := 0
  addr : W64 := 0
  ptbr : W64 := 0
  core : Nat := 0
  cmd : Option Nat := none
  lead : Tid := 0
  q : Bool := false
  img : Image := {}
  done : Bool := false
  deriving DecidableEq, Repr, Inhabited

/-- A team's snapshot (R260), its tiles with their cores. -/
structure Snap where
  valid : Bool := false
  threads : List (Tid × Thread) := []
  tiles : List (Nat × TileImg) := []
  deriving DecidableEq, Repr, Inhabited

/-- The combiners: requests under way and waves by object (R268 to R272). -/
structure Comb where
  nextId : Nat := 0
  flight : List CReq := []
  waves : List Wave := []
  replies : List CReq := []
  deriving DecidableEq, Repr, Inhabited

/-- The faults of the silicon that the manual gives an effect on data: the two copies of a port's next redundant thread-operation
differ (R259); an uncorrectable error in an HBM line (R23), in a word of the L2, of a core's L1, or of its tiles (R200); a sent flit
that fails its CHECK where it is received (R341); a combine's reply that the fabric has lost (R283). -/
inductive Upset where
  | alu (port : Nat)
  | hbm (line : Nat)
  | l2 (word : Nat)
  | l1 (core key : Nat)
  | tile (core word : Nat)
  | flit (n : Nat)
  | reply (tag : Nat)
  deriving DecidableEq, Repr

/-- What the next step does: an event of the outside world or of an engine, a flit with its data flits coming in at a port, the issue of a
port's next thread-operation, one cycle of the clock, or an upset. -/
inductive Choice where
  | ev (i : Instr)
  | flit (port : Nat) (f : Flit) (data : List Flit)
  | issue (port : Nat)
  | tick
  | upset (u : Upset)
  deriving DecidableEq, Repr

/-- The device. `agenda` holds the choices the manual leaves to the world and to timing; the step takes its head, or its
own default where it is empty (assumption 1). `iss` is the port whose word is being issued. -/
structure State where
  cfg : Config := {}
  now : Nat := 0
  freeCtr : Nat := 0
  voteCtr : Nat := 0
  agenda : List Choice := []
  iss : Option Nat := none
  threads : Tbl Thread := []
  cores : Tbl Core := []
  clusters : Tbl W64 := []
  dies : Tbl Die := []
  ports : Tbl Port := []
  turns : Tbl Nat := []
  /-- Cycles that a lane's ALU owes to second copies of its neighbour's redundant thread-operations (R259). -/
  lent : Tbl Nat := []
  mem : Memory := {}
  hostMem : Memory := {}
  msgs : List Msg := []
  comb : Comb := {}
  fab : Fab := {}
  host : HostBlk := {}
  recs : Tbl Rec := []
  homes : Tbl ImgHome := []
  saves : List Save := []
  snaps : Tbl Snap := []
  deriving DecidableEq, Repr

/-- Why the machine stops. -/
inductive Fault where
  /-- Raised by `step` when a device-level fault or a failed bring-up has stopped the device and nothing is left on the
  agenda (R221, R388, R397): every core stays stopped until the host writes DEVCTL.RESET. Safe: the manual gives no step. -/
  | deviceStopped
  deriving DecidableEq, Repr

/-- Why an instruction has no meaning. -/
inductive Refusal where
  /-- Raised by an arm of `exec` whose instruction is not modelled. Safe: no claim covers it. -/
  | notModelled (mnemonic : String)
  deriving DecidableEq, Repr

/-- Right after reset: nothing placed, every register at its reset value, memory with nothing listed, bring-up not yet
run (R397). -/
def State.reset : State := {}

end Sys2Proof.Machine
end

