-- ==== Sys2Proof/Machine/Table.lean ====
section
/-! DEFINITION. Tables keyed by number, and the accessors that every meaning reads and writes the state through. -/

namespace Sys2Proof.Machine

/-- What an instruction or a step ends in. -/
abbrev Out := Host.Outcome State Fault Refusal

/-- The entry of key k. -/
def tget {α : Type} (k : Nat) : Tbl α → Option α
  | [] => none
  | (j, a) :: l => if j = k then some a else tget k l

/-- The table with key k holding a; keys stay rising. -/
def tset {α : Type} (k : Nat) (a : α) : Tbl α → Tbl α
  | [] => [(k, a)]
  | (j, b) :: l => if k < j then (k, a) :: (j, b) :: l else if j = k then (k, a) :: l else (j, b) :: tset k a l

/-- The table without key k. -/
def tdel {α : Type} (k : Nat) : Tbl α → Tbl α
  | [] => []
  | (j, b) :: l => if j = k then l else (j, b) :: tdel k l

def tgetD {α : Type} (k : Nat) (d : α) (l : Tbl α) : α := (tget k l).getD d

/-- Where a thread stands (R10). -/
def coreOf (t : Tid) : Nat := t / 2048
def laneOf (t : Tid) : Nat := t / 128 % 16
def slotOf (t : Tid) : Nat := t % 128
/-- The die and the cluster of a core (R117): clusters are numbered through the package. -/
def dieOf (c : Nat) : Nat := c / 96
def clusterOf (c : Nat) : Nat := c / 8

/-- Lane of the package: core × 16 + lane. -/
def laneKey (t : Tid) : Nat := t / 128

/-- Cycles that a core has counted at a time (R117). -/
def coreCyc (now : Nat) (x : Core) : Nat := (x.gatedAt.getD now) - x.gatedFor

namespace State

def thr (s : State) (t : Tid) : Thread := tgetD t {} s.threads
def live (s : State) (t : Tid) : Bool := (tget t s.threads).isSome
def setThr (s : State) (t : Tid) (x : Thread) : State := { s with threads := tset t x s.threads }
/-- A change of a thread that is there; a slot that holds no thread stays empty. -/
def modThr (s : State) (t : Tid) (f : Thread → Thread) : State :=
  match tget t s.threads with
  | some x => s.setThr t (f x)
  | none => s
def dropThr (s : State) (t : Tid) : State := { s with threads := tdel t s.threads }

def core (s : State) (c : Nat) : Core := tgetD c {} s.cores
def setCore (s : State) (c : Nat) (x : Core) : State := { s with cores := tset c x s.cores }
def modCore (s : State) (c : Nat) (f : Core → Core) : State := s.setCore c (f (s.core c))

def die (s : State) (d : Nat) : Die := tgetD d {} s.dies
def setDie (s : State) (d : Nat) (x : Die) : State := { s with dies := tset d x s.dies }
def modDie (s : State) (d : Nat) (f : Die → Die) : State := s.setDie d (f (s.die d))

def port (s : State) (p : Nat) : Port := tgetD p {} s.ports
def setPort (s : State) (p : Nat) (x : Port) : State := { s with ports := tset p x s.ports }
def modPort (s : State) (p : Nat) (f : Port → Port) : State := s.setPort p (f (s.port p))
def freePort (s : State) (p : Nat) : State := { s with ports := tdel p s.ports }

/-- The port whose word is being issued. -/
def cur (s : State) : Port := match s.iss with
  | some p => s.port p
  | none => {}
def modCur (s : State) (f : Port → Port) : State := match s.iss with
  | some p => s.modPort p f
  | none => s

/-- Whether thread t stands on a port (R92). -/
def onPort (s : State) (t : Tid) : Bool := s.ports.any fun p => p.2.pack.contains t

/-- A fresh work-item number of core c. -/
def fresh (s : State) (c : Nat) : State × Nat :=
  (s.modCore c fun x => { x with nextId := x.nextId + 1 }, (s.core c).nextId)

/-- The core's count of arithmetic cycles: it does not advance while the clock is gated (R117). -/
def cyc (s : State) (c : Nat) : Nat := coreCyc s.now (s.core c)

/-- Whether core c is enabled: its cluster was not fenced at bring-up (R397). -/
def enabled (s : State) (c : Nat) : Bool := decide (c < 768) && !s.host.fenced.contains (clusterOf c)

end State

/-- Slices in a thread's allocation (R110). -/
def Thread.alloc (x : Thread) : Nat := 128 + 32 * x.xgran

/-- Predicate p: p7 reads true (R116). -/
def Thread.pred (x : Thread) (p : Nat) : Bool := p == 7 || x.preds.getLsbD p
def Thread.setPred (x : Thread) (p : Nat) (v : Bool) : Thread :=
  if p < 7 then { x with preds := (x.preds &&& ~~~((1 : BitVec 7) <<< p)) ||| ((if v then (1 : BitVec 7) else 0) <<< p) } else x

/-- Outstanding commands of a class: the counter S, M, C or F (R15). -/
def Thread.count (x : Thread) (k : Cls) : Nat := (x.outst.filter fun o => o.cls == k).length

/-- The width group of a thread (R86): W. -/
def Thread.group (x : Thread) : Nat := [32, 8, 16, 32, 64].getD x.width.toNat 32

/-- Index of thread t in its width group (R86). -/
def tix (x : Thread) (t : Tid) : Nat :=
  if x.group = 64 then (laneOf t % 2) * 32 + slotOf t % 32 else slotOf t % x.group

/-- The thread of index j in t's width group. -/
def mate (x : Thread) (t : Tid) (j : Nat) : Tid :=
  if x.group = 64 then
    coreOf t * 2048 + (laneOf t / 2 * 2 + j / 32) * 128 + slotOf t / 32 * 32 + j % 32
  else t - slotOf t % x.group + j

/-- Ascending thread order within a pack: by slot, and in a lane pair by 32-slot block, even lane first (assumption 2). -/
def orderKey (t : Tid) : Nat := (slotOf t / 32) * 64 + (laneOf t % 2) * 32 + slotOf t % 32

/-- Insertion of a thread into a pack in ascending order. -/
def insThread (t : Tid) : List Tid → List Tid
  | [] => [t]
  | u :: l => if t = u then u :: l else if orderKey t < orderKey u then t :: u :: l else u :: insThread t l

end Sys2Proof.Machine
end

