-- ==== Sys2Proof/Machine/Mem.lean ====
section
/-! DEFINITION. Bytes and poison tags of one memory, and its canonical form. -/

namespace Sys2Proof.Machine

/-- The byte at address a; an unlisted address reads zero (assumption 3). -/
def cellGet (a : Nat) : List Host.Cell → Byte
  | [] => 0
  | (c, d) :: l => if c = a then d else cellGet a l

/-- The cells with b at address a, in canonical form. -/
def cellSet (a : Nat) (b : Byte) : List Host.Cell → List Host.Cell
  | [] => if b = 0 then [] else [(a, b)]
  | (c, d) :: l =>
    if a < c then (if b = 0 then (c, d) :: l else (a, b) :: (c, d) :: l)
    else if c = a then (if b = 0 then l else (a, b) :: l)
    else (c, d) :: cellSet a b l

/-- Insertion into and removal from a rising list. -/
def natIns (a : Nat) : List Nat → List Nat
  | [] => [a]
  | c :: l => if a < c then a :: c :: l else if c = a then c :: l else c :: natIns a l

def natDel (a : Nat) : List Nat → List Nat
  | [] => []
  | c :: l => if c = a then l else c :: natDel a l

/-- Strictly rising from a bound on. -/
def risingFrom : Nat → List Nat → Bool
  | _, [] => true
  | b, a :: l => decide (b ≤ a) && risingFrom (a + 1) l

/-- The canonical form of a memory: addresses rising, no cell equal to what an unlisted address reads as, tags rising. -/
def Memory.wf (m : Memory) : Bool :=
  risingFrom 0 (m.bytes.map Prod.fst) && m.bytes.all (fun c => c.2 != 0) && risingFrom 0 m.tags

namespace Memory

def byte (m : Memory) (a : Nat) : Byte := cellGet a m.bytes
def setByte (m : Memory) (a : Nat) (b : Byte) : Memory := { m with bytes := cellSet a b m.bytes }

/-- Little-endian number of n bytes from address a, tags ignored. -/
def num (m : Memory) (a : Nat) : Nat → Nat
  | 0 => 0
  | n + 1 => (m.byte a).toNat + 256 * m.num (a + 1) n

/-- n bytes of v stored from address a. -/
def setNum (m : Memory) (a v : Nat) : Nat → Memory
  | 0 => m
  | n + 1 => (m.setByte a (BitVec.ofNat 8 v)).setNum (a + 1) (v / 256) n

def tagged (m : Memory) (w : Nat) : Bool := m.tags.contains w

/-- 32-bit word w (byte address ÷ 4) with its tag: a poisoned word's bits are its token (R200). -/
def word (m : Memory) (w : Nat) : Val :=
  if m.tagged w then .bad (BitVec.ofNat 32 (m.num (4 * w) 4)) else .ok (m.num (4 * w) 4)

def setWord (m : Memory) (w : Nat) (v : Val) : Memory :=
  match v with
  | .ok x => { (m.setNum (4 * w) x 4) with tags := natDel w m.tags }
  | .bad k => { (m.setNum (4 * w) k.toNat 4) with tags := natIns w m.tags }

end Memory

/-- The word left by storing nb bits of v at bit `sh` of an old word (R200): data poisoned poisons the whole word; clean
data covering part of a poisoned word is dropped. -/
def mergeWord (old : Val) (sh nb : Nat) (v : Val) : Val :=
  match v with
  | .bad k => .bad k
  | .ok x =>
    if nb ≥ 32 then .ok (x % 2 ^ 32)
    else match old with
      | .bad k => .bad k
      | .ok o => .ok (o - o / 2 ^ sh % 2 ^ nb * 2 ^ sh + x % 2 ^ nb * 2 ^ sh)

/-- n bytes from address a, of cells of which none lies below a. -/
def cellsFrom (a : Nat) : Nat → List Host.Cell → List Byte
  | 0, _ => []
  | n + 1, [] => 0 :: cellsFrom (a + 1) n []
  | n + 1, (c, d) :: l => if c = a then d :: cellsFrom (a + 1) n l else 0 :: cellsFrom (a + 1) n ((c, d) :: l)

/-- Words of rising bytes and of tags of which none lies below w. -/
def wordsFrom (w : Nat) : List Byte → List Nat → List Val
  | b0 :: b1 :: b2 :: b3 :: l, tags =>
    let v := b0.toNat + 2 ^ 8 * b1.toNat + 2 ^ 16 * b2.toNat + 2 ^ 24 * b3.toNat
    match tags with
    | t :: ts => if t = w then .bad (BitVec.ofNat 32 v) :: wordsFrom (w + 1) l ts else .ok v :: wordsFrom (w + 1) l (t :: ts)
    | [] => .ok v :: wordsFrom (w + 1) l []
  | _, _ => []

/-- Words first to first + n − 1, in one pass over the cells. -/
def Memory.words (m : Memory) (w n : Nat) : List Val :=
  wordsFrom w (cellsFrom (4 * w) (4 * n) (m.bytes.filter fun c => decide (4 * w ≤ c.1) && decide (c.1 < 4 * (w + n))))
    (m.tags.filter fun t => decide (w ≤ t))

/-- The bits a word of memory holds. -/
def Val.bits : Val → Nat
  | .ok x => x
  | .bad k => k.toNat

/-- The cells of words that stand at word w and on. -/
def wordCells (w : Nat) : List Val → List Host.Cell
  | [] => []
  | v :: l =>
    ([(4 * w, BitVec.ofNat 8 v.bits), (4 * w + 1, BitVec.ofNat 8 (v.bits / 2 ^ 8)), (4 * w + 2, BitVec.ofNat 8 (v.bits / 2 ^ 16)),
      (4 * w + 3, BitVec.ofNat 8 (v.bits / 2 ^ 24))].filter fun c => c.2 != 0) ++ wordCells (w + 1) l

/-- The tags of words that stand at word w and on. -/
def wordTags (w : Nat) : List Val → List Nat
  | [] => []
  | .ok _ :: l => wordTags (w + 1) l
  | .bad _ :: l => w :: wordTags (w + 1) l

/-- Words written from word w on: the cells below, the new ones, the cells above. -/
def Memory.setWords (m : Memory) (w : Nat) (l : List Val) : Memory :=
  { bytes := m.bytes.filter (fun c => decide (c.1 < 4 * w)) ++ (wordCells w l ++ m.bytes.filter fun c => decide (4 * (w + l.length) ≤ c.1))
    tags := m.tags.filter (fun t => decide (t < w)) ++ (wordTags w l ++ m.tags.filter fun t => decide (w + l.length ≤ t)) }

/-- The first poisoned word's token of a list, lowest first. -/
def firstBad : List Val → Option Tok
  | [] => none
  | .bad k :: _ => some k
  | .ok _ :: l => firstBad l

/-- The number that clean 32-bit words spell, lowest word first. -/
def wordsNum : List Val → Nat
  | [] => 0
  | .ok v :: l => v + 2 ^ 32 * wordsNum l
  | .bad k :: l => k.toNat + 2 ^ 32 * wordsNum l

/-- A number cut into n 32-bit words. -/
def numWords (v : Nat) : Nat → List Val
  | 0 => []
  | n + 1 => .ok (v % 2 ^ 32) :: numWords (v / 2 ^ 32) n

end Sys2Proof.Machine
end

