-- ==== Sys2Proof/Machine/Slice.lean ====
section
/-! DEFINITION. Slice registers, poison tokens and origins, pending marks, and operand reads through exchange codes
(R109 to R126, R196 to R201). -/

namespace Sys2Proof.Machine

/-- The word a port stands at, and its address. -/
def Port.word (p : Port) : W64 := p.words.getD p.widx 0
def Port.addr (p : Port) : W64 := p.hdrAddr + BitVec.ofNat 64 (8 * (p.widx + 1))

/-- Poison causes (R196). -/
def cNR : Nat := 1
def cPROT : Nat := 2
def cBND : Nat := 3
def cECC : Nat := 4
def cINV : Nat := 5
def cDIVZ : Nat := 6
def cPEER : Nat := 7
def cSDC : Nat := 8
def cCMB : Nat := 9
def cXCH : Nat := 10
def cFAB : Nat := 11
def cSTALE : Nat := 12
def cUSER : Nat := 14

/-- A token of an origin and a cause (R196). -/
def token (origin cause : Nat) : Tok := BitVec.ofNat 32 (origin * 2 ^ 20 + cause * 2 ^ 16 + 0xC5A9)
def tokCause (k : Tok) : Nat := bitsOf k.toNat 19 16
def tokOrigin (k : Tok) : Nat := bitsOf k.toNat 31 20

/-- The first free origin entry from index i on, wrapping past 0xFFE; entry 0xFFF is never allocated (R197). -/
def freeOrigin (l : Tbl Origin) : Nat → Nat → Option Nat
  | _, 0 => none
  | i, f + 1 =>
    let j := if i ≥ 0xFFF then 0 else i
    if (tget j l).isNone then some j else freeOrigin l (j + 1) f

/-- Record word 3 (R220). -/
def originInfo (t : Tid) (ix cause : Nat) (carried : Option Nat) : W64 :=
  BitVec.ofNat 64 (cause + 16 + (if carried.isSome then 32 else 0) + coreOf t * 2 ^ 8 + laneOf t * 2 ^ 18
    + slotOf t * 2 ^ 22 + ix * 2 ^ 29 + carried.getD 0xFFF * 2 ^ 35)

/-- RaisePoison for thread t and the word at pc (R197, R220), in the table of core c. -/
def raiseIn (s : State) (c : Nat) (t : Tid) (pc : W64) (cause : Nat) (addr : W64) (carried : Option Nat) : State × Tok :=
  let x := s.core c
  match freeOrigin x.org x.orgCur 4095 with
  | none => (s, token 0xFFF cause)
  | some i =>
    let o : Origin := { pc := pc, addr := addr, cyc := s.cyc c, info := originInfo t (tix (s.thr t) t) cause carried }
    let org := tset i o x.org
    (s.setCore c { x with org := org, orgCur := (freeOrigin org (i + 1) 4095).getD (if i + 1 ≥ 0xFFF then 0 else i + 1) },
      token i cause)

def raiseAt (s : State) (t : Tid) (pc : W64) (cause : Nat) (addr : W64) : State × Tok :=
  raiseIn s (coreOf t) t pc cause addr none

/-- RaisePoison for the word that thread t is at. -/
def raise (s : State) (t : Tid) (cause : Nat) (addr : W64 := 0) : State × Tok := raiseAt s t (s.thr t).pc cause addr

/-- The same for a store: its entry says so, for a page request that it may cause (R387). -/
def raiseStore (s : State) (t : Tid) (cause : Nat) (addr : W64) : State × Tok :=
  let r := raise s t cause addr
  (r.1.modCore (coreOf t) fun x => match tget (tokOrigin r.2) x.org with
    | some o => { x with org := tset (tokOrigin r.2) { o with store := true } x.org }
    | none => x, r.2)

/-- The carried entry of poison that arrives holding a token (R24, R200). -/
def raiseCarried (s : State) (t : Tid) (pc : W64) (k : Tok) (addr : W64) : State × Tok :=
  raiseIn s (coreOf t) t pc (tokCause k) addr (some (tokOrigin k))

/-- A write recorded against the thread as a dropped write: the first token stays (R201). -/
def recordDrop (s : State) (t : Tid) (k : Tok) : State :=
  s.modThr t fun x => { x with drop := some (x.drop.getD k) }

/-- A fresh token recorded as a dropped write. -/
def recordRaise (s : State) (t : Tid) (cause : Nat) (addr : W64 := 0) : State :=
  let r := raise s t cause addr
  recordDrop r.1 t r.2

/-- A recorded token for each thread of a pack that acts as one (R96, R197). -/
def recordAll (s : State) (ts : List Tid) (k : Tok) : State := ts.foldl (fun s t => recordDrop s t k) s

/-- The tag of the lowest poisoned granule of granules g to g + n − 1. -/
def lowTag (tags : Tbl Tok) (g : Nat) : Nat → Option Tok
  | 0 => none
  | n + 1 => match tget g tags with
    | some k => some k
    | none => lowTag tags (g + 1) n

/-- Granules that slices lo to lo + n − 1 touch. -/
def granSpan (lo n : Nat) : Nat := (lo + n - 1) / 8 - lo / 8 + 1

/-- What a read of slices gives before any origin entry is made (R110, R120, R199). -/
inductive Peek where
  | val (v : Val)
  | bnd (lo : Nat)
  | xch
  deriving DecidableEq, Repr

/-- The number in n slices from lo. -/
def Thread.bits (x : Thread) (lo n : Nat) : Nat := (x.slices.toNat >>> (4 * lo)) % 2 ^ (4 * n)

def Thread.peek (x : Thread) (lo n : Nat) : Peek :=
  if lo + n > x.alloc then .bnd lo
  else match lowTag x.tags (lo / 8) (granSpan lo n) with
    | some k => .val (.bad k)
    | none => .val (.ok (x.bits lo n))

/-- Slices lo to lo + n − 1 replaced by the low bits of v. -/
def setSlices (b : BitVec 2048) (lo n v : Nat) : BitVec 2048 :=
  (b &&& ~~~(BitVec.ofNat 2048 (2 ^ (4 * n) - 1) <<< (4 * lo))) ||| (BitVec.ofNat 2048 (v % 2 ^ (4 * n)) <<< (4 * lo))

/-- The granule rules of R199 for granule g of a write of v to slices lo to lo + n − 1. -/
def Thread.putGran (x : Thread) (g lo n : Nat) (v : Val) : Thread :=
  let a := max lo (8 * g)
  let z := min (lo + n) (8 * g + 8)
  match v with
  | .bad k => { x with slices := setSlices x.slices (8 * g) 8 k.toNat, tags := tset g k x.tags }
  | .ok w =>
    if (tget g x.tags).isSome && z - a != 8 then x
    else { x with slices := setSlices x.slices a (z - a) (w >>> (4 * (a - lo))), tags := tdel g x.tags }

def Thread.putGrans (x : Thread) (g : Nat) : Nat → Nat → Nat → Val → Thread
  | 0, _, _, _ => x
  | m + 1, lo, n, v => (x.putGran g lo n v).putGrans (g + 1) m lo n v

/-- WriteSlices inside the allocation (R199). -/
def Thread.put (x : Thread) (lo n : Nat) (v : Val) : Thread := x.putGrans (lo / 8) (granSpan lo n) lo n v

/-- Tags set on granules while their bits stay (R21, R158). -/
def Thread.tagGrans (x : Thread) (k : Tok) (g : Nat) : Nat → Thread
  | 0 => x
  | n + 1 => ({ x with tags := tset g k x.tags } : Thread).tagGrans k (g + 1) n

/-- WriteSlices of one value to each of the threads; a write outside a thread's allocation is dropped and recorded, with
one origin entry however many threads of a uniform word it meets (R110, R197). -/
def putAll (s : State) (pc : W64) (lo n : Nat) (v : Val) : Option Tok → List Tid → State
  | _, [] => s
  | k, t :: ts =>
    let x := s.thr t
    if lo + n > x.alloc then
      match k with
      | some k => putAll (recordDrop s t k) pc lo n v (some k) ts
      | none =>
        let r := raiseAt s t pc cBND (BitVec.ofNat 64 lo)
        putAll (recordDrop r.1 t r.2) pc lo n v (some r.2) ts
    else putAll (s.modThr t fun x => x.put lo n v) pc lo n v k ts

/-- A clean value written with the tags of the granules it touches cleared (R117, R206). -/
def Thread.untag (x : Thread) (lo n : Nat) : Thread :=
  { x with tags := x.tags.filter fun g => !(decide (lo / 8 ≤ g.1) && decide (g.1 < lo / 8 + granSpan lo n)) }
def putClean (s : State) (pc : W64) (d : Opd) (v : Nat) (ts : List Tid) : State :=
  putAll (ts.foldl (fun s t => s.modThr t fun x => if d.start.toNat + d.slices > x.alloc then x else x.untag d.start.toNat d.slices) s)
    pc d.start.toNat d.slices (.ok v) none ts

/-- The write of a word's result to a thread. -/
def writeSlices (s : State) (t : Tid) (lo n : Nat) (v : Val) : State := putAll s (s.thr t).pc lo n v none [t]

/-- Whether slices lo to lo + n − 1 wait for a pending result (R21, R115). -/
def Thread.pending (x : Thread) (lo n : Nat) : Bool := x.pend.any fun p => decide (p.lo < lo + n) && decide (lo < p.lo + p.n)

/-- Slices marked pending on work item id; nothing is marked outside the allocation. -/
def markPend (s : State) (t : Tid) (lo n id : Nat) (fut : Bool) : State :=
  s.modThr t fun x => if lo + n > x.alloc then x else { x with pend := ⟨lo, n, id, fut⟩ :: x.pend }

/-- The source index of an exchange code other than chn, in a group of G (R119). -/
def exchIdx (ax : Exch) (i G e : Nat) : Option Nat :=
  match ax with
  | .self | .chn => some i
  | .dn1 => some ((i + G - 1) % G)
  | .up1 => some ((i + 1) % G)
  | .bc0 => some 0
  | .x1 => some (i ^^^ 1)
  | .xk => if 2 ^ e ≥ G then none else some (i ^^^ 2 ^ e)
  | .mir => some (G - 1 - i)

/-- The nearest lower-numbered acting thread of t's width group (R121). -/
def chainSrc (s : State) (acts : List Tid) (t : Tid) : Option Tid :=
  ((acts.takeWhile fun u => u != t).filter fun u => mate (s.thr u) u 0 == mate (s.thr t) t 0).getLast?

/-- The thread that an operand field reads, none outside the group (R119 to R121). -/
def srcThread (s : State) (acts : List Tid) (t : Tid) (ax : Exch) (e : Nat) : Option Tid :=
  match ax with
  | .self => some t
  | .chn => some ((chainSrc s acts t).getD t)
  | _ =>
    let x := s.thr t
    match exchIdx ax (tix x t) x.group e with
    | none => none
    | some j => let u := mate x t j; if s.live u then some u else none

/-- A field's bits as they stand, with the token of each slice's granule. -/
def Thread.raw (x : Thread) (lo n : Nat) : Raw := .got (x.bits lo n) ((List.range n).map fun i => tget ((lo + i) / 8) x.tags)

/-- What an ordinary read makes of such a field: its lowest granule's token, else its bits (R199). -/
def Raw.val : Raw → Val
  | .got b ks => match ks.findSome? id with | some k => .bad k | none => .ok b
  | .out k => .bad k

/-- The chain carry that replaces a chn field's own read (R126). -/
def carryOf (s : State) (acts : List Tid) (t : Tid) (ax : Exch) (fieldB : Bool) : Option Raw :=
  if ax == .chn && (chainSrc s acts t).isNone && (s.thr t).carryAt == s.cur.addr then
    (if fieldB then (s.thr t).carryB else (s.thr t).carryA) else none

/-- What operand slices lo, n read through code ax give (R119 to R121). -/
def peekX (s : State) (acts : List Tid) (t : Tid) (lo n : Nat) (ax : Exch) (e : Nat) (fieldB : Bool) : Peek :=
  match carryOf s acts t ax fieldB with
  | some v => .val v.val
  | none => match srcThread s acts t ax e with
    | none => .xch
    | some u => (s.thr u).peek lo n

/-- The read itself: a read outside the allocation or the group makes its origin entry (R110, R120). -/
def settle (s : State) (t : Tid) : Peek → State × Val
  | .val v => (s, v)
  | .bnd lo => let r := raise s t cBND (BitVec.ofNat 64 lo); (r.1, .bad r.2)
  | .xch => let r := raise s t cXCH; (r.1, .bad r.2)

def readX (s : State) (acts : List Tid) (t : Tid) (lo n : Nat) (ax : Exch) (e : Nat) (fieldB : Bool) : State × Val :=
  settle s t (peekX s acts t lo n ax e fieldB)

/-- Whether the slices an operand field names are pending in the thread it reads (R115, R120). -/
def busyX (s : State) (acts : List Tid) (t : Tid) (lo n : Nat) (ax : Exch) (e : Nat) : Bool :=
  match srcThread s acts t ax e with
  | none => false
  | some u => (s.thr u).pending lo n

/-- The token of the lowest-numbered poisoned operand (R131, R171). -/
def lowTok : List Val → Option Tok
  | [] => none
  | .bad k :: _ => some k
  | .ok _ :: l => lowTok l

def Val.num : Val → Nat
  | .ok v => v
  | .bad k => k.toNat

/-- Rows an operand crosses (R114): one more read cycle. -/
def crosses (lo n : Nat) : Nat := if lo / 16 = (lo + n - 1) / 16 then 0 else 1

end Sys2Proof.Machine
end

