-- ==== Sys2Proof/Machine/Tile.lean ====
section
/-! DEFINITION. Tile handles, the tile table and tile words (R287 to R290, R250). -/

namespace Sys2Proof.Machine

/-- Fields of a shape word (R289, R75). -/
def shRows (w : W64) : Nat := bitsOf w.toNat 15 0
def shCols (w : W64) : Nat := bitsOf w.toNat 31 16
def shBits (w : W64) : Nat := bitsOf w.toNat 39 32
def shPlanes (w : W64) : Bool := w.getLsbD 40

/-- Pitch in bytes of a row, or of a plane (R289). -/
def shPitch (w : W64) : Nat :=
  if shPlanes w then 4 * ceilDiv (shCols w) 32 else 4 * ceilDiv (shCols w * shBits w) 32

/-- A tile's bytes (R289). -/
def shBytes (w : W64) : Nat :=
  if shPlanes w then shRows w * shBits w * shPitch w else shRows w * shPitch w

/-- A valid shape word (R289). -/
def shOk (w : W64) : Bool :=
  decide (1 ≤ shRows w) && decide (1 ≤ shCols w) && decide (1 ≤ shBits w) && decide (shBits w ≤ 64)
    && bitsOf w.toNat 63 41 == 0 && decide (shBytes w ≤ 65536)

/-- Handle fields (R287). -/
def hRank (h : Nat) : Nat := bitsOf h 15 13
def hLevel (h : Nat) : Nat := bitsOf h 12 11
def hIndex (h : Nat) : Nat := bitsOf h 10 3
def hGen (h : Nat) : Nat := bitsOf h 2 0

/-- Shape of a frame tile: 256 rows of 64 elements of 32 bits (R250). -/
def frameShape : W64 := 0x0000002000400100

/-- The tile-table entry of a core; frame tiles are live from bring-up with GEN 0 and no ASID (R250). -/
def tileEnt (s : State) (c level index : Nat) : Tile :=
  match tget (level * 256 + index) (s.core c).tiles with
  | some e => e
  | none => if level = 2 && decide (248 ≤ index) then { live := true, shape := frameShape, asid := none } else {}

def setTile (s : State) (c level index : Nat) (e : Tile) : State :=
  s.modCore c fun x => { x with tiles := tset (level * 256 + index) e x.tiles }

/-- The core that a handle's RANK names from core c (R287). -/
def rankCore (c h : Nat) : Nat := c / 8 * 8 + (c % 8 ^^^ hRank h)

/-- Who asks for a tile: its ASID, and whether frame tiles are open to it (R250). -/
structure Asker where
  asid : Nat
  frames : Bool
  deriving DecidableEq, Repr

/-- The first failing check of R288 for an access to bytes off to off + len − 1; `words` is set for an access to the
tile's words other than the matrix engine's (check 5). -/
def tileFail (s : State) (c h : Nat) (q : Asker) (words : Bool) (off len : Nat) : Option Nat :=
  let d := rankCore c h
  let e := tileEnt s d (hLevel h) (hIndex h)
  if hLevel h = 3 then some cSTALE
  else if !s.enabled d then some cPEER
  else if !e.live || e.gen != hGen h then some cSTALE
  else if (match e.asid with | some a => a != q.asid | none => !q.frames) then some cPEER
  else if words && hLevel h == 1 then some cPROT
  else if off + len > shBytes e.shape then some cBND
  else none

/-- Byte address of a tile's offset in its core's own store: bank blocks first, accumulators after them (R290). -/
def tileAddr (level index off : Nat) : Nat :=
  (match level with | 1 => 2 | 2 => 1 | l => l) * 2 ^ 24 + index * 2 ^ 16 + off

/-- Whether a tile's blocks are L2-backed: every L2P tile, and an SCR tile that has no bank blocks (R290). -/
def tileBacked (s : State) (d level index : Nat) : Bool := level == 2 || (level == 0 && !(tileEnt s d level index).bank)

/-- First word of a tile: L2-backed blocks in the core's 32 MiB of HBM, L2P tiles 16 MiB on; others in its own store (R290). -/
def tileAt (s : State) (d level index : Nat) : Nat :=
  if tileBacked s d level index then (s.cfg.tileBase + d * 2 ^ 25 + level / 2 * 2 ^ 24 + index * 2 ^ 16) / 4
  else tileAddr level index 0 / 4

/-- The memory that holds a tile's words, read and changed (R290). -/
def tileMem (s : State) (d level index : Nat) : Memory := if tileBacked s d level index then s.mem else (s.core d).tmem
def modTile (s : State) (d level index : Nat) (f : Memory → Memory) : State :=
  if tileBacked s d level index then { s with mem := f s.mem } else s.modCore d fun x => { x with tmem := f x.tmem }

/-- Tile words by word offset, at the core that holds the tile. -/
def tileWord (s : State) (c h w : Nat) : Val :=
  (tileMem s (rankCore c h) (hLevel h) (hIndex h)).word (tileAt s (rankCore c h) (hLevel h) (hIndex h) + w)
def setTileWord (s : State) (c h w : Nat) (v : Val) : State :=
  modTile s (rankCore c h) (hLevel h) (hIndex h) fun m => m.setWord (tileAt s (rankCore c h) (hLevel h) (hIndex h) + w) v

def tileWords (s : State) (c h w n : Nat) : List Val :=
  (tileMem s (rankCore c h) (hLevel h) (hIndex h)).words (tileAt s (rankCore c h) (hLevel h) (hIndex h) + w) n
def setTileWords (s : State) (c h w : Nat) (l : List Val) : State :=
  modTile s (rankCore c h) (hLevel h) (hIndex h) fun m => m.setWords (tileAt s (rankCore c h) (hLevel h) (hIndex h) + w) l

/-- The shape of the tile a handle names from core c. -/
def tileShape (s : State) (c h : Nat) : W64 := (tileEnt s (rankCore c h) (hLevel h) (hIndex h)).shape

/-- The asker that a thread is: its core's current ASID; supervisor privilege or handler state opens the frame tiles. -/
def askerOf (s : State) (t : Tid) : Asker :=
  ⟨(s.core (coreOf t)).ptbr.toNat % 4096, (s.thr t).priv || decide (0 < (s.thr t).hdepth)⟩

/-- Trap entry, RTE, LEG and COMMIT pass check 4 on a frame tile (R250). -/
def frameAsker (s : State) (t : Tid) : Asker := ⟨(s.core (coreOf t)).ptbr.toNat % 4096, true⟩

/-- The default frame area (R250): level L2P, tile 248 + lane ÷ 2, area 128 × (lane mod 2) + slot. -/
def defaultTfp (t : Tid) : BitVec 32 :=
  BitVec.ofNat 32 ((2 * 2 ^ 11 + (248 + laneOf t / 2) * 8) * 2 ^ 16 + 256 * (128 * (laneOf t % 2) + slotOf t))

/-- Where a thread's frame area stands: handle and byte offset (R246, R249). -/
def frameH (x : Thread) : Nat := x.tfp.toNat / 2 ^ 16
def frameOff (x : Thread) : Nat := x.tfp.toNat % 2 ^ 16 / 256 * 256

/-- Why a frame area cannot be reached at offset o for n bytes (R247). -/
def frameFail (s : State) (t : Tid) (o n : Nat) : Option Nat :=
  let x := s.thr t
  tileFail s (coreOf t) (frameH x) (frameAsker s t) true (frameOff x + o) n

/-- Free blocks of 1 KiB (R290). -/
def shBlocks (w : W64) : Nat := ceilDiv (shBytes w) 1024
def usedBanks (x : Core) : Nat :=
  (x.tiles.filterMap fun e => if e.2.live && e.2.bank && decide (e.1 < 256) then some (shBlocks e.2.shape) else none).sum
def usedAcc (x : Core) : Nat :=
  (x.tiles.filterMap fun e => if (e.2.live || e.2.ctx != 0) && decide (256 ≤ e.1) && decide (e.1 < 512)
    then some (shBlocks e.2.shape) else none).sum

end Sys2Proof.Machine
end

