-- ==== Sys2Proof/Machine/Walk.lean ====
section
/-! DEFINITION. Homes, translation and page requests (R187 to R193, R207, R225, R266, R387). -/

namespace Sys2Proof.Machine

/-- Whether a physical address reaches host memory. -/
def isHost (s : State) (pa : Nat) : Bool := decide (s.cfg.hostLo ≤ pa) && decide (pa < s.cfg.hostHi)

/-- The 32-bit word at its home, by word number (physical address ÷ 4). Physical addresses above the 512 GB of HBM and outside the host
window are read and written as ordinary memory (DESIGN CHOICE, assumption 76). -/
def homeWord (s : State) (w : Nat) : Val := if isHost s (4 * w) then s.hostMem.word w else s.mem.word w

/-- A L1 key: the peer device and the word. -/
def l1Key (peer w : Nat) : Nat := peer * 2 ^ 50 + w

/-- A core's clock runs again (R117, R254, R390, R391). -/
def Core.ungate (x : Core) (now : Nat) : Core :=
  match x.gatedAt with
  | some g => { x with halted := false, gatedAt := none, gatedFor := x.gatedFor + (now - g), idleAt := now }
  | none => { x with halted := false }

/-- The device leaves its idle state (R391). -/
def awake (s : State) : State := { s with host := { s.host with pstate := 0 } }

/-- Whether a thread watches a line of this device. -/
def watches (line : Nat) (x : Thread) : Bool :=
  match x.hold.watch with
  | some w => w.line == line && w.peer == 0 && w.tabled
  | none => false

/-- Whether a line holds the cursor on which a core's dispatcher threads sleep with WAITW (R385). -/
def cursorLine (s : State) (c line : Nat) : Bool := s.host.ready && line == s.host.launchBase.toNat / 64 + dieOf c

/-- Threads watching a line re-read their word (R155), and a core that was halted or gated resumes for it (R390). What a dispatcher thread
finds there is the LAUNCH events' (assumption 14). -/
def wakeWatch (s : State) (line : Nat) : State :=
  let cs := (s.threads.filter fun p => watches line p.2 || (p.2.hold.resident && cursorLine s (coreOf p.1) line)).map fun p => coreOf p.1
  { s with
    host := if cs.isEmpty then s.host else { s.host with pstate := 0 }
    threads := s.threads.map fun p =>
      if watches line p.2 then
        (p.1, { p.2 with hold := { p.2.hold with watch := p.2.hold.watch.map fun w => { w with due := s.now } } })
      else p
    cores := s.cores.map fun p => if cs.contains p.1 then (p.1, p.2.ungate s.now) else p }

/-- Messages of a write at a home for core `by_` (R225): invalidations to the other cores of its cluster that hold the
word clean, revokes to every other core that owns it. -/
def homeMsgs (s : State) (by_ : Option Nat) (w : Nat) : List Msg :=
  s.cores.flatMap fun p =>
    match tget w p.2.l1 with
    | none => []
    | some e =>
      if some p.1 = by_ then []
      else (match by_ with
        | some c => if clusterOf c = clusterOf p.1 && e.dirty.isNone then [⟨.inval, p.1, w, c⟩] else []
        | none => [])
        ++ (if e.owned then [⟨.revoke, p.1, w, by_.getD 0xFFFF⟩] else [])

/-- A write of one word at its home: memory, invalidations and revokes, watches, and the host's cached copy (R225, R155, R380).
The order of these writes is the word's coherence order (R224). -/
def homeWrite (s : State) (by_ : Option Nat) (w : Nat) (v : Val) : State :=
  let s := if isHost s (4 * w) then { s with hostMem := s.hostMem.setWord w v } else { s with mem := s.mem.setWord w v }
  let s := { s with msgs := s.msgs ++ homeMsgs s by_ w }
  let s := if s.host.hostLines.contains (w / 16) then
      { s with host := { s.host with backInval := s.host.backInval ++ [(w / 16, by_.getD 0xFFFF)] } } else s
  wakeWatch s (w / 16)

/-- Consecutive words written at their homes. -/
def homeWrites (s : State) (by_ : Option Nat) (w : Nat) : List Val → State
  | [] => s
  | v :: l => homeWrites (homeWrite s by_ w v) by_ (w + 1) l

/-- nb bits of v stored at physical byte address pa within one word (R200). -/
def homeStore (s : State) (by_ : Option Nat) (pa nb : Nat) (v : Val) : State :=
  homeWrite s by_ (pa / 4) (mergeWord (homeWord s (pa / 4)) (pa % 4 * 8) nb v)

/-- A clean number of n 32-bit words written at its home. -/
def homeNum (s : State) (by_ : Option Nat) (pa v n : Nat) : State := homeWrites s by_ (pa / 4) (numWords v n)

/-- n clean words read from their homes as a number, none when one is poisoned. -/
def homeRead (s : State) (w n : Nat) : Option Nat :=
  let l := (List.range n).map fun i => homeWord s (w + i)
  match firstBad l with
  | some _ => none
  | none => some (wordsNum l)

/-- A word written by a command of core c leaves the core's own L1 unless it is dirty there (R229, R225). -/
def dropL1 (s : State) (c w : Nat) : State :=
  s.modCore c fun x => match tget w x.l1 with
    | some e => if e.dirty.isSome then x else { x with l1 := tdel w x.l1 }
    | none => x

/-- A write at the home by a command of core c. -/
def cmdWrite (s : State) (c w : Nat) (v : Val) : State := dropL1 (homeWrite s (some c) w v) c w

/-- The home of a line (R266): bit i is the XOR of PA[6 + i + 8k]. -/
def homeOf (pa : Nat) : Nat :=
  ((List.range 8).map fun i =>
    (((List.range 6).map fun k => bitsOf (pa % 2 ^ 52) (6 + i + 8 * k) (6 + i + 8 * k)).sum % 2) * 2 ^ i).sum

/-- Fields of a leaf (R188). -/
def leafPeer (e : W64) : Nat := bitsOf e.toNat 63 52
def leafMtc (e : W64) : Nat := bitsOf e.toNat 12 10
def leafMode (e : W64) : Nat := bitsOf e.toNat 9 8

/-- Bytes that a leaf at a level maps (R187). -/
def leafSize (level : Nat) : Nat := [2 ^ 16, 2 ^ 21, 2 ^ 30, 2 ^ 39].getD level (2 ^ 16)

/-- Index bits of a level (R187). -/
def levelIndex (va level : Nat) : Nat :=
  match level with
  | 0 => bitsOf va 20 16
  | 1 => bitsOf va 29 21
  | 2 => bitsOf va 38 30
  | _ => bitsOf va 51 39

/-- Check 3 of R189 for an entry read at a level. -/
def entryBad (e : W64) (level : Nat) : Bool :=
  if e.getLsbD 1 then
    level == 0 || bitsOf e.toNat 63 52 != 0 || bitsOf e.toNat 7 2 != 0
      || (decide (2 ≤ level) && bitsOf e.toNat 11 8 != 0)
  else
    level == 3 || bitsOf e.toNat 15 13 != 0 || e.getLsbD 7 || leafMode e == 3
      || (level == 1 && bitsOf e.toNat 20 16 != 0) || (level == 2 && bitsOf e.toNat 29 16 != 0)

/-- What a walk gives: a leaf, its level and its place, a cause, or the token of a poisoned entry word. -/
inductive Walk where
  | leaf (e : W64) (level at_ : Nat)
  | fault (cause : Nat)
  | carried (k : Tok)
  deriving DecidableEq, Repr

/-- A cached leaf, or table entry, that covers va (R190): an entry cached from level l stands for leafSize l bytes. -/
def TlbEnt.covers (e : TlbEnt) (asid va : Nat) : Bool :=
  e.asid == asid && e.page * 2 ^ 16 / leafSize e.level == va / leafSize e.level
def tlbHit (asid va : Nat) (l : List TlbEnt) : Option TlbEnt := l.find? fun e => !e.leaf.getLsbD 1 && e.covers asid va
def tableHit (asid va level : Nat) (l : List TlbEnt) : Option TlbEnt :=
  l.find? fun e => e.leaf.getLsbD 1 && e.level == level && e.covers asid va

/-- The table that a table entry names. -/
def tableNext (e : W64) : Nat := bitsOf e.toNat 51 8 * 256

/-- The walk from the table at byte address base, `level + 1` levels deep, past the table entries that the die has cached; with it
the table entries it has read (R187 to R190). -/
def walk (s : State) (cache : List TlbEnt) (asid va base : Nat) : Nat → Walk × List TlbEnt
  | 0 => (.fault cPROT, [])
  | level + 1 =>
    match tableHit asid va level cache with
    | some e => walk s cache asid va (tableNext e.leaf) level
    | none =>
      let a := base + 8 * levelIndex va level
      match firstBad [homeWord s (a / 4), homeWord s (a / 4 + 1)] with
      | some k => (.carried k, [])
      | none =>
        let e : W64 := BitVec.ofNat 64 (wordsNum [homeWord s (a / 4), homeWord s (a / 4 + 1)])
        if !e.getLsbD 0 then (.fault cNR, [])
        else if entryBad e level then (.fault cPROT, [])
        else if e.getLsbD 1 then
          let r := walk s cache asid va (tableNext e) level
          (r.1, ⟨asid, va / 2 ^ 16, level, e, a⟩ :: r.2)
        else (.leaf e level a, [])

/-- The rose in force reaches device d on a port that is not down (R344). -/
def reachable (s : State) (d : Nat) : Bool :=
  match s.fab.rose with
  | none => false
  | some r => r.slots.any fun row =>
      (row.zipIdx).any fun p => p.1 == some d && !s.fab.down.getLsbD p.2

/-- The address space an access translates in: root table and ASID. -/
structure Space where
  root : Nat
  asid : Nat
  deriving DecidableEq, Repr

def spaceOf (w : W64) : Space := ⟨bitsOf w.toNat 51 16 * 2 ^ 16, w.toNat % 4096⟩

/-- A translation that reached a valid leaf: the leaf's fields, the physical address, and the ASID, page and level it holds for. -/
structure Page where
  peer : Nat
  pa : Nat
  mode : Nat
  mtc : Nat
  leaf : W64
  at_ : Nat
  via : Nat × Nat × Nat := (0, 0, 0)
  deriving DecidableEq, Repr

/-- The first 64 KiB unit of va's page: a leaf of a higher level maps one larger page (R187). -/
def Page.unit (p : Page) (va : W64) : Nat := va.toNat / leafSize p.via.2.2 * (leafSize p.via.2.2 / 2 ^ 16)

/-- How the L1 remembers a word of an SK page (R191). -/
def Page.sk (p : Page) : Option (Nat × Nat × Nat) := if p.leaf.getLsbD 5 then some p.via else none

inductive Tr where
  | ok (p : Page)
  | fault (cause : Nat)
  | carried (k : Tok)
  deriving DecidableEq, Repr

/-- Translation to a leaf through the TLB of core c, its die's translation cache, and the walk (R189, R190). -/
def lookup (s : State) (c : Nat) (sp : Space) (va : W64) : State × Tr :=
  let v := va.toNat
  if 2 ^ 52 ≤ v then (s, .fault cPROT)
  else
    let out := fun (e : TlbEnt) =>
      let pe := leafPeer e.leaf
      Tr.ok ⟨if pe = s.fab.dev.toNat then 0 else pe,
        bitsOf e.leaf.toNat 51 16 * 2 ^ 16 / leafSize e.level * leafSize e.level + v % leafSize e.level,
        leafMode e.leaf, leafMtc e.leaf, e.leaf, e.at_, (e.asid, e.page, e.level)⟩
    match tlbHit sp.asid v (s.core c).tlb with
    | some e => (s, out e)
    | none =>
      match tlbHit sp.asid v (s.die (dieOf c)).cache with
      | some e => (s.modCore c fun x => { x with tlb := (e :: x.tlb).take 2112 }, out e)
      | none =>
        match walk s (s.die (dieOf c)).cache sp.asid v sp.root 4 with
        | (.fault f, _) => (s, .fault f)
        | (.carried k, _) => (s, .carried k)
        | (.leaf e level a, ts) =>
          let n : TlbEnt := ⟨sp.asid, v / 2 ^ 16, level, e, a⟩
          let s := s.modCore c fun x => { x with tlb := (n :: x.tlb).take 2112 }
          (s.modDie (dieOf c) fun d => { d with cache := (n :: ts ++ d.cache).take 16384 }, out n)

/-- The kinds of access that the checks on a leaf tell apart. -/
inductive Acc where
  | load | store
  deriving DecidableEq, Repr

/-- Checks 4 to 6 of R189 on a leaf. -/
def leafFail (s : State) (user : Bool) (a : Acc) (p : Page) : Option Nat :=
  if user && !p.leaf.getLsbD 4 then some cPROT
  else if a == .store && (!p.leaf.getLsbD 2 || p.leaf.getLsbD 5) then some cPROT
  else if p.peer != 0 && !reachable s p.peer then some cPEER
  else none

/-- Translation of a data access (R189). -/
def translate (s : State) (c : Nat) (sp : Space) (user : Bool) (a : Acc) (va : W64) : State × Tr :=
  let r := lookup s c sp va
  match r.2 with
  | .ok p => (r.1, match leafFail r.1 user a p with | some f => .fault f | none => .ok p)
  | x => (r.1, x)

/-- The space and privilege a thread's accesses translate with (R192, R243): handler state runs at its PRIV. -/
def threadSpace (s : State) (t : Tid) : Space := spaceOf (s.core (coreOf t)).ptbr

def xlat (s : State) (t : Tid) (a : Acc) (va : W64) : State × Tr :=
  translate s (coreOf t) (threadSpace s t) (!(s.thr t).priv) a va

/-- DC set in the entry at a byte address, in memory and in every cached copy (R191). -/
def setDCAt (s : State) (a : Nat) : State :=
  match homeWord s (a / 4) with
  | .bad _ => s
  | .ok v =>
    if v / 64 % 2 = 1 then s
    else
      let f := fun (e : TlbEnt) => if e.at_ = a then { e with leaf := e.leaf ||| 0x40 } else e
      let s := homeWrite s none (a / 4) (.ok (v + 64))
      { s with cores := s.cores.map fun x => (x.1, { x.2 with tlb := x.2.tlb.map f }),
               dies := s.dies.map fun x => (x.1, { x.2 with cache := x.2.cache.map f }) }

/-- The first store that performs through a translation whose DC is clear (R191). -/
def setDC (s : State) (p : Page) : State := if p.leaf.getLsbD 6 then s else setDCAt s p.at_

/-- The layout cache empties; what commands are reading into it is not kept there either (R297). -/
def Core.dropLasts (x : Core) : Core :=
  { x with lasts := [], strQ := x.strQ.map fun k => if k.stage = 1 then { k with stay := false } else k }

/-- Translations dropped from one core, with the words cached from SK pages they cover and its layout cache (R193, R191, R297). -/
def dropTlb (gone : TlbEnt → Bool) (x : Core) : Core :=
  { x.dropLasts with
    tlb := x.tlb.filter fun e => !gone e
    l1 := x.l1.filter fun w => match w.2.sk with
      | some (asid, page, level) => !gone { asid := asid, page := page, level := level }
      | none => true }

/-- Watches that may stand on another line now are re-read (R155). -/
def rewatch (s : State) (g : Tid → Bool) : State :=
  { s with threads := s.threads.map fun p =>
      if p.2.hold.watch.isSome && g p.1 then
        (p.1, { p.2 with hold := { p.2.hold with watch := p.2.hold.watch.map fun w => { w with due := s.now } } })
      else p }

/-- TLBINV (R193): scope 0 the core, 1 its die, 2 and 3 the package. At every scope the translation cache of the core's die drops what is
named, scope 0 included (DESIGN CHOICE, assumption 69). -/
def tlbInv (s : State) (c : Nat) (v : W64) : State :=
  let asid := bitsOf v.toNat 15 4
  let va := bitsOf v.toNat 51 16 * 2 ^ 16
  let gone := fun (e : TlbEnt) => e.asid == asid && (v.getLsbD 3 || e.covers asid va)
  let sc := v.toNat % 4
  let inCore : Nat → Bool := fun d => match sc with | 0 => d == c | 1 => dieOf d == dieOf c | _ => true
  let inDie : Nat → Bool := fun d => match sc with | 0 => d == dieOf c | 1 => d == dieOf c | _ => true
  let tags := s.fab.tags.map fun r => match r.sk with
    | some (a, page, level) => if inCore r.core && gone { asid := a, page := page, level := level } then { r with more := 0 } else r
    | none => r
  { (rewatch s fun t => inCore (coreOf t) && (spaceOf (s.core (coreOf t)).ptbr).asid == asid) with
    fab := { s.fab with tags := tags }
    cores := s.cores.map fun p => if inCore p.1 then (p.1, dropTlb gone p.2) else p
    dies := s.dies.map fun p => if inDie p.1 then (p.1, { p.2 with cache := p.2.cache.filter fun e => !gone e }) else p }

/-- The page-request entry of die d for a page, if one is pending (R387). -/
def pageEntry (s : State) (d asid page : Nat) : Option Nat :=
  (((s.die d).pages.find? fun p => p.2.asid == asid && p.2.page == page)).map Prod.fst

/-- The lowest free entry of a die's ring of 256. -/
def freeEntry (l : Tbl PageReq) : Nat → Nat → Option Nat
  | _, 0 => none
  | i, n + 1 => if (tget i l).isNone then some i else freeEntry l (i + 1) n

/-- A vector of R382 is raised. -/
def raiseVector (s : State) (v : Nat) : State := { s with host := { s.host with vectors := s.host.vectors ++ [v] } }

/-- Whether a page request of core c can be taken: merged, or an entry free (R207). -/
def pageRoom (s : State) (c asid page : Nat) : Bool :=
  (pageEntry s (dieOf c) asid page).isSome || (freeEntry (s.die (dieOf c)).pages 0 256).isSome

/-- A page request of core c (R207, R387): merged with a pending one, or written to the die's ring with vector 2. -/
def pageRequest (s : State) (c asid page : Nat) (store fetch : Bool) : State :=
  let d := dieOf c
  if (pageEntry s d asid page).isSome then s
  else match freeEntry (s.die d).pages 0 256 with
    | none => s
    | some i =>
      let s := s.modDie d fun x => { x with pages := tset i ⟨asid, page⟩ x.pages }
      let a := s.host.prqBase.toNat + 8192 * d + 32 * i
      let s := homeNum s none a (page * 2 ^ 16) 2
      let s := homeNum s none (a + 8) (asid + (if store then 2 ^ 16 else 0) + (if fetch then 2 ^ 17 else 0)) 2
      raiseVector (homeNum s none (a + 16) 1 4) 2

end Sys2Proof.Machine
end

