-- ==== Sys2Proof/Machine/Net.lean ====
section
/-! DEFINITION. What cores hand to the fabric engine: flits, tags, posted stores and migration counts (R340, R349 to R351). -/

namespace Sys2Proof.Machine

/-- One bit of CRC-16 with polynomial 0x1021. -/
def crcBit (c : Nat) (b : Bool) : Nat :=
  let t := (c / 2 ^ 15 % 2 == 1) != b
  let d := c * 2 % 2 ^ 16
  if t then d ^^^ 0x1021 else d

/-- CRC over the top n bits of a number, most significant first. -/
def crcBits (c v : Nat) : Nat → Nat
  | 0 => c
  | n + 1 => crcBits (crcBit c (v / 2 ^ n % 2 == 1)) v n

/-- Header bits [63:16] of a flit (R340). -/
def flitHead (f : Flit) : Nat :=
  f.type.toNat * 2 ^ 44 + f.dst.toNat * 2 ^ 32 + f.src.toNat * 2 ^ 20 + f.state.toNat * 2 ^ 18
    + (if f.relayed then 2 ^ 17 else 0) + (if f.last then 2 ^ 16 else 0) + f.tag.toNat

/-- CHECK over header bits [63:16] and the payload, initial value 0xFFFF (R340; bit order: assumption 16). -/
def flitCrc (f : Flit) : BitVec 16 :=
  BitVec.ofNat 16 (crcBits (crcBits 0xFFFF (flitHead f) 48) f.payload.toNat 512)

def sealFlit (f : Flit) : Flit := { f with check := flitCrc f }

/-- A requester identifier: device, die, core of the die, lane, slot, so that their order is the order of numbers (R269). -/
def identOf (dev : Nat) (t : Tid) : Nat :=
  dev * 2 ^ 21 + dieOf (coreOf t) * 2 ^ 18 + coreOf t % 96 * 2 ^ 11 + laneOf t * 2 ^ 7 + slotOf t

/-- A request payload (R340). -/
def reqPayload (pa mask pois data op new ident : Nat) : BitVec 512 :=
  BitVec.ofNat 512 (pa + mask * 2 ^ 64 + pois * 2 ^ 128 + data * 2 ^ 144 + op * 2 ^ 160 + new * 2 ^ 192 + ident * 2 ^ 256)

/-- A flit from this device. -/
def mkFlit (s : State) (type dst tag : Nat) (state : Nat) (last : Bool) (payload : BitVec 512) : Flit :=
  sealFlit ⟨BitVec.ofNat 4 type, BitVec.ofNat 12 dst, s.fab.dev, BitVec.ofNat 2 state, false, last, BitVec.ofNat 16 tag, 0, payload⟩

/-- A transaction of this device enters the fabric engine with a fresh tag: its flits wait for a path, and its timeout runs (R351). -/
def fabSend (s : State) (type dst : Nat) (r : TagRec) (payload : BitVec 512) (data : List (BitVec 512 × Bool)) : State :=
  let tag := s.fab.nextTag % 2 ^ 16
  let head := mkFlit s type dst tag 2 data.isEmpty payload
  let rest := data.zipIdx.map fun d => mkFlit s type dst tag (if d.1.2 then 1 else 0) (d.2 + 1 == data.length) d.1.1
  { s with fab := { s.fab with
      nextTag := tag + 1
      tags := s.fab.tags ++ [{ r with tag := tag, dst := dst, due := s.now + s.fab.timeout * 1050 }]
      waiting := s.fab.waiting ++ head :: rest } }

/-- The tag that the next transaction takes. -/
def nextTag (s : State) : Nat := s.fab.nextTag % 2 ^ 16

/-- The count of MODE 2 accesses and the migration record (R350). -/
def migCount (s : State) (asid : Nat) (va : W64) (p : Page) : State :=
  if p.mode != 2 then s
  else
    let page := p.unit va
    let old := s.fab.migs.find? fun m => m.asid == asid && m.page == page
    let n := (match old with | some m => m.count | none => 0) + 1
    let rest := s.fab.migs.filter fun m => !(m.asid == asid && m.page == page)
    if n < 2 ^ (6 + 2 * p.mtc) then
      { s with fab := { s.fab with migs := (⟨asid, page, p.peer, p.mtc, n⟩ :: rest).take 1024 } }
    else
      let s := { s with fab := { s.fab with migs := rest } }
      let base := bitsOf s.fab.migbase.toNat 51 12 * 2 ^ 12
      if base = 0 then s
      else
        let cap := 2 ^ (s.fab.migbase.toNat % 16 + 6)
        match homeRead s (base / 4) 2, homeRead s (base / 4 + 2) 2 with
        | some w, some r =>
          if w - r = cap then { s with fab := { s.fab with migDrop := s.fab.migDrop + 1 } }
          else
            let a := base + 0x40 + 32 * (w % cap)
            let s := homeNum s none a (page * 2 ^ 16 + (asid + p.peer * 2 ^ 12 + p.mtc * 2 ^ 24) * 2 ^ 64 + n * 2 ^ 128) 8
            let s := homeNum s none base (w + 1) 2
            { s with fab := { s.fab with migRec := s.fab.migRec + 1 } }
        | _, _ => { s with fab := { s.fab with migDrop := s.fab.migDrop + 1 } }

/-- Replies under way to loads of core c no longer keep words of a peer that the core has stored to since (R224, R349). -/
def staleReads (s : State) (c peer : Nat) (ws : List Nat) : State :=
  { s with fab := { s.fab with tags := s.fab.tags.map fun r =>
      if r.core == c && r.dst == peer && r.more == 1 then { r with stale := r.stale ++ ws } else r } }

/-- Core c's copies of words of a peer that a command or an ATOM of it writes there leave its L1 (R225, R229), and a reply under way keeps
none. -/
def dropPeer (s : State) (c peer : Nat) (ws : List Nat) : State :=
  staleReads (s.modCore c fun x => { x with l1 := x.l1.filter fun e => !(ws.map (l1Key peer)).contains e.1 }) c peer ws

/-- Words of a peer's line that core c has writes under way to which a request for bytes lo to hi − 1 of it does not wait for (R348): its
reply may hold what stood there before. -/
def looseWords (s : State) (c peer lo hi : Nat) : List Nat :=
  ((List.range 16).map fun i => lo / 64 * 16 + i).filter fun w => s.fab.tags.any fun r =>
    r.write && r.core == c && r.dst == peer && decide (r.lo < 4 * w + 4) && decide (4 * w < r.hi)
      && !(decide (r.lo < hi) && decide (lo < r.hi))

/-- A peer joins the core's posted set (R233). -/
def addPosted (x : Core) (d : Nat) : Core :=
  if x.posted.contains d then x
  else if x.posted.length < 64 then { x with posted := natIns d x.posted } else { x with postOvf := true }

/-- A store to a peer is posted (R349): one write request and one line of data. -/
def postStore (s : State) (t : Tid) (pc ea : W64) (p : Page) (words : List (Nat × BitVec 4 × Val)) : State :=
  let line := p.pa / 64
  let mask := (words.map fun w => w.2.1.toNat * 2 ^ (w.1 % 16 * 4)).sum
  let pois := (words.filterMap fun w => match w.2.2 with | .bad _ => some (2 ^ (w.1 % 16)) | .ok _ => none).sum
  let data := (words.map fun w => w.2.2.num * 2 ^ (w.1 % 16 * 32)).sum
  let bytes := words.flatMap fun w => ((List.range 4).filter fun i => w.2.1.getLsbD i).map fun i => 4 * w.1 + i
  let s := migCount s ((s.core (coreOf t)).ptbr.toNat % 4096) ea p
  let s := staleReads s (coreOf t) p.peer (words.map Prod.fst)
  let s := s.modCore (coreOf t) fun x => addPosted x p.peer
  fabSend s 0 p.peer
    { core := coreOf t, tid := t, pc := pc, ea := ea, use := .store, write := true
      lo := bytes.foldl min (line * 64 + 63), hi := bytes.foldl max (line * 64) + 1 }
    (reqPayload (line * 64) mask pois 1 0 0 (identOf s.fab.dev.toNat t)) [(BitVec.ofNat 512 data, pois != 0)]

end Sys2Proof.Machine
end

