-- ==== Sys2Proof/Machine/Cache.lean ====
section
/-! DEFINITION. The L1, loads and stores of threads, held stores (R194, R200, R202 to R205, R212, R225, R226, R228). -/

namespace Sys2Proof.Machine

/-- The word left by storing the masked bytes of a positioned value (R200). -/
def maskWord (old : Val) (mask : BitVec 4) (v : Val) : Val :=
  match v with
  | .bad k => .bad k
  | .ok x =>
    if mask = 0xF then .ok (x % 2 ^ 32)
    else match old with
      | .bad k => .bad k
      | .ok o => .ok (((List.range 4).map fun i => (if mask.getLsbD i then x else o) / 256 ^ i % 256 * 256 ^ i).sum)

/-- Lines present in an L1, each once. -/
def l1Lines (l : Tbl L1Word) : List Nat := (l.map fun e => e.1 / 16).dedup

/-- A write-back of a dirty word: it becomes clean and stays valid; `own` registers ownership where the home has room for an owner
(R225, R226). -/
def writeBack (s : State) (c key : Nat) (own : Bool) : State :=
  match tget key (s.core c).l1 with
  | none => s
  | some e =>
    if e.dirty.isNone then s
    else
      let room := own && Config.ownerRoom s.freeCtr
      let s := if own then { s with freeCtr := s.freeCtr + 1 } else s
      (homeWrite s (some c) key e.val).modCore c fun x =>
        { x with l1 := tset key { e with dirty := none, owned := e.owned || room } x.l1 }

def writeBackKeys (s : State) (c : Nat) (own : Bool) (ks : List Nat) : State := ks.foldl (fun s k => writeBack s c k own) s

/-- Every dirty word of a core written back. -/
def writeBackAll (s : State) (c : Nat) (own : Bool) : State :=
  writeBackKeys s c own (((s.core c).l1.filter fun e => e.2.dirty.isSome).map Prod.fst)

/-- A line leaves the L1: its dirty words go home, and its tag and the bin of the thread that missed enter the victim array (R194, R108). -/
def evict (s : State) (c line bin : Nat) : State :=
  let ks := ((s.core c).l1.filter fun e => e.1 / 16 == line).map Prod.fst
  let s := writeBackKeys s c false ks
  s.modCore c fun x => { x with
    l1 := x.l1.filter fun e => e.1 / 16 != line
    victims := ((line, bin) :: x.victims).take 256 }

/-- Room for a new line in the 2048 lines of the L1 (R10); lines marked .evf go first (R194). -/
def makeRoom (s : State) (c line bin : Nat) : State :=
  let ls := l1Lines (s.core c).l1
  if ls.contains line || decide (ls.length < 2048) then s
  else
    let ev := ls.filter fun l => (s.core c).l1.any fun e => e.1 / 16 == l && e.2.evf
    let pool := if ev.isEmpty then ls else ev
    let v := pool.getD (Config.victim c s.freeCtr % pool.length) 0
    evict { s with freeCtr := s.freeCtr + 1 } c v bin

/-- A global load miss whose line matches a victim adds to its bin's score (R108); of several entries of one line the newest is taken
(DESIGN CHOICE, assumption 70). -/
def scoreMiss (s : State) (c line : Nat) : State :=
  s.modCore c fun x => match x.victims.find? fun v => v.1 == line with
    | none => x
    | some v =>
      let b := tgetD v.2 {} x.bins
      { x with victims := x.victims.erase v, bins := tset v.2 { b with score := min 0xFFFF (b.score + 1) } x.bins }

/-- The other 32-bit word of an aligned 64-bit pair. -/
def pairOf (key : Nat) : Nat := key ^^^ 1

/-- One word of a fill from its home, with the L1 as it stood (R194): a word that is not valid is written. A clean word whose pair is
being filled is read again with it, so that the pair is of one moment (R195; assumption 71). -/
def fillOne (old : Tbl L1Word) (sk : Option (Nat × Nat × Nat)) (evf : Bool) (l : Tbl L1Word) (w : Nat × Val) : Tbl L1Word :=
  match tget w.1 old with
  | none => tset w.1 { val := w.2, sk := sk, evf := evf } l
  | some e => if e.dirty.isNone && (tget (pairOf w.1) old).isNone then tset w.1 { e with val := w.2 } l else l

/-- A merging fill of a line (R194). -/
def fillLine (s : State) (c line bin : Nat) (sk : Option (Nat × Nat × Nat)) (evf : Bool) : State :=
  let s := makeRoom s c line bin
  let ws := (List.range 16).map fun i => (line * 16 + i, homeWord s (line * 16 + i))
  s.modCore c fun x => { x with l1 := ws.foldl (fillOne x.l1 sk evf) x.l1 }

/-- The fill of one word, with its pair where that is valid and clean (R194, R195). -/
def fillWord (s : State) (c key bin : Nat) (evf : Bool) : State :=
  let s := makeRoom s c (key / 16) bin
  s.modCore c fun x =>
    let ks := if (tget (pairOf key) x.l1).isSome then [key, pairOf key] else [key]
    { x with l1 := (ks.map fun k => (k, homeWord s k)).foldl (fillOne x.l1 none evf) x.l1 }

/-- One word read through the L1 of thread t's core (R194, R188 MODE 0, R228 host memory):
for its own core a store performs when it enters the L1 (R223, R227). -/
def l1Load (s : State) (t : Tid) (p : Page) (w : Nat) (nl1 evf : Bool) : State × Val :=
  let c := coreOf t
  match tget (l1Key p.peer w) (s.core c).l1 with
  | some e => (s, e.val)
  | none =>
    let s := scoreMiss s c (l1Key p.peer w / 16)
    let v := homeWord s w
    if nl1 || p.mode == 0 || isHost s (4 * w) then (s, v)
    else (fillLine s c (w / 16) (s.thr t).bin p.sk evf, v)

/-- A clean word whose pair is not valid leaves the L1 before both are read as one (R195; assumption 71). -/
def pairFit (x : Core) (key : Nat) : Core :=
  match tget key x.l1, tget (pairOf key) x.l1 with
  | some e, none => if e.dirty.isNone then { x with l1 := tdel key x.l1 } else x
  | none, some e => if e.dirty.isNone then { x with l1 := tdel (pairOf key) x.l1 } else x
  | _, _ => x

/-- The words of one access read through the L1. -/
def l1Words (s : State) (t : Tid) (p : Page) (ws : List Nat) (nl1 evf : Bool) : State × List Val :=
  let s := if ws.length = 2 then s.modCore (coreOf t) fun x => pairFit x (l1Key p.peer (ws.headD 0)) else s
  ws.foldl (fun (a : State × List Val) w => let b := l1Load a.1 t p w nl1 evf; (b.1, a.2 ++ [b.2])) (s, [])

/-- A fill that a sub-word store has started on a word (R194). -/
def fillOf (x : Core) (key : Nat) : Option Req :=
  x.reqs.find? fun r => match r.kind with | .fill k .. => k == key | _ => false

def hasFill (s : State) (c key : Nat) : Bool := (fillOf (s.core c) key).isSome

/-- A thread's store bytes merged into a pending fill, which it then waits for as well (R232). -/
def mergeFill (x : Core) (t : Tid) (key : Nat) (mask : BitVec 4) (v : Nat) : Core :=
  { x with reqs := x.reqs.map fun r => match r.kind with
      | .fill k m o evf => if k = key then
          { r with tids := if r.tids.contains t then r.tids else r.tids ++ [t], kind := .fill k (m ||| mask) (maskWord (.ok o) mask (.ok v)).num evf }
        else r
      | _ => r }

/-- Bytes of a pending fill whose place a newer store has taken. -/
def clearFill (x : Core) (key : Nat) (mask : BitVec 4) : Core :=
  { x with reqs := x.reqs.map fun r => match r.kind with
      | .fill k m o evf => if k = key then { r with kind := .fill k (m &&& ~~~mask) o evf } else r
      | _ => r }

/-- A valid word stored to (R194, R200): clean bytes for a poisoned word are dropped. -/
def L1Word.store (e : L1Word) (now : Nat) (mask : BitVec 4) (v : Val) (evf : Bool) : L1Word :=
  match v, e.val with
  | .ok _, .bad _ => if mask = 0xF then { e with val := maskWord e.val mask v, dirty := some (e.dirty.getD now), evf := e.evf || evf } else e
  | _, _ => { e with val := maskWord e.val mask v, dirty := some (e.dirty.getD now), evf := e.evf || evf }

/-- One word's store through the L1 of core c (R194, R225): `nl1` or MODE 0 writes through, a word that is dirty there with it. Its bytes go
into the home's word and into a clean copy each on its own, whose other bytes may differ (DESIGN CHOICE, assumption 71). -/
def l1Store (s : State) (t : Tid) (p : Page) (w : Nat) (mask : BitVec 4) (v : Val) (nl1 evf : Bool) : State :=
  let c := coreOf t
  let old := tget w (s.core c).l1
  if isHost s (4 * w) then
    let s := homeWrite s (some c) w (maskWord (homeWord s w) mask v)
    let f := s.fresh c
    f.1.modCore c fun x => { x with reqs := x.reqs ++ [{ id := f.2, tids := [t], lead := t, issued := s.now, pc := (s.thr t).pc, kind := .hostStore, due := s.now + s.cfg.loadLatency }] }
  else if nl1 || p.mode == 0 then
    let base := match old with | some e => if e.dirty.isSome then e.val else homeWord s w | none => homeWord s w
    let s := homeWrite s (some c) w (maskWord base mask v)
    s.modCore c fun x =>
      match old with
      | some e => { (clearFill x w mask) with l1 := tset w { e with val := maskWord e.val mask v, dirty := none } x.l1 }
      | none => clearFill x w mask
  else
    let whole := mask == 0xF || (match v with | .bad _ => true | .ok _ => false)
    match old with
    | some e => s.modCore c fun x => { x with l1 := tset w (e.store s.now mask v evf) x.l1 }
    | none =>
      let s := makeRoom s c (w / 16) (s.thr t).bin
      if whole then
        s.modCore c fun x => { (clearFill x w 0xF) with
          l1 := tset w { val := maskWord (.ok 0) mask v, dirty := some s.now, evf := evf } x.l1 }
      else if hasFill s c w then s.modCore c fun x => mergeFill x t w mask v.num
      else
        let f := s.fresh c
        f.1.modCore c fun x => { x with reqs := x.reqs ++
          [{ id := f.2, tids := [t], lead := t, issued := s.now, pc := (s.thr t).pc, kind := .fill w mask v.num evf, due := s.now + s.cfg.loadLatency }] }

/-- A store of `bits` bits at physical or tile byte address a as words: word, byte mask, positioned value (R200). -/
def storeWords (a bits : Nat) (vs : List Val) : List (Nat × BitVec 4 × Val) :=
  if bits = 64 then [(a / 4, 0xF, vs.headD (.ok 0)), (a / 4 + 1, 0xF, vs.getD 1 (.ok 0))]
  else if bits = 32 then [(a / 4, 0xF, vs.headD (.ok 0))]
  else
    let sh := a % 4
    [(a / 4, BitVec.ofNat 4 ((2 ^ (bits / 8) - 1) * 2 ^ sh),
      match vs.headD (.ok 0) with | .ok v => .ok (v % 2 ^ bits * 2 ^ (8 * sh)) | b => b)]

/-- A local copy of a peer word that a posted store updates (R349). -/
def copyPeer (s : State) (c : Nat) (p : Page) (ws : List (Nat × BitVec 4 × Val)) : State :=
  let upd := fun (l : Tbl L1Word) (w : Nat × BitVec 4 × Val) =>
    match tget (l1Key p.peer w.1) l with
    | some e => tset (l1Key p.peer w.1) { e with val := maskWord e.val w.2.1 w.2.2 } l
    | none => l
  s.modCore c fun x => { x with l1 := ws.foldl upd x.l1 }

/-- A store that performs (R203): DC is set first (R191); a peer page's store is posted (R349). -/
def performStore (s : State) (t : Tid) (ea : W64) (p : Page) (ws : List (Nat × BitVec 4 × Val)) (nl1 evf : Bool) : State :=
  let s := setDC s p
  if p.peer = 0 then ws.foldl (fun s w => l1Store s t p w.1 w.2.1 w.2.2 nl1 evf) s
  else postStore (copyPeer s (coreOf t) p ws) t (s.thr t).pc ea p ws

/-- The word number of a held word. -/
def HKey.word : HKey → Nat
  | .glob _ w | .tile _ _ _ w | .lost _ w => w

/-- The line of a held word: an entry of the quarantine (R212). -/
def HKey.line : HKey → HKey
  | .glob p w => .glob p (w / 16)
  | .tile c l i w => .tile c l i (w / 16)
  | .lost b w => .lost b (w / 16)

/-- Entries in use: 64-byte lines of one thread. The buffer holds 512 and the spill region 262,144 (R212; assumption 17). -/
def quarLines (q : List Held) : List (Tid × HKey) := (q.map fun h => (h.tid, h.key.line)).dedup
def quarRoom : Nat := 512 + 262144

/-- One word held: merged into the thread's entry for its line, of which it takes the bytes that it has (R212). Clean data that cover the
whole word replace its poison, and data that cover part of it do not (R200; assumption 10); a word held whole ends an earlier failed store
to its address. -/
def holdWord (q : List Held) (h : Held) : List Held :=
  let gone : HKey := match h.key with
    | .glob .. => .lost false (h.va.toNat / 4)
    | .tile .. => .lost true (h.va.toNat / 4)
    | .lost b w => .lost b w
  let q := if h.mask = 0xF then q.filter fun (x : Held) => x.key == h.key || !(x.tid == h.tid && x.key == gone) else q
  match q.find? fun (x : Held) => x.tid == h.tid && x.key == h.key with
  | some o =>
    let n : Held := { h with wide := o.wide || h.wide, mask := o.mask ||| h.mask, val := maskWord o.val h.mask h.val }
    q.map fun (y : Held) => if y.tid == h.tid && y.key == h.key then n else y
  | none => q ++ [h]

/-- The words of one store held together, or, where no entry is free for one of them, none of them: BND is recorded once (R212). -/
def holdAll (s : State) (t : Tid) (ea : W64) (hs : List Held) : State :=
  let c := coreOf t
  let ls := quarLines (s.core c).quar
  let more := (quarLines hs).filter fun l => !ls.contains l
  if ls.length + more.length > quarRoom then recordRaise s t cBND ea
  else s.modCore c fun x => { x with quar := hs.foldl holdWord x.quar }

/-- Whether thread t's stores are held (R212, R245). -/
def holding (s : State) (t : Tid) : Bool := (s.thr t).leg.isSome && (s.thr t).hdepth == 0

/-- A failed store: held with a fresh token inside a leg, at the words that it names, recorded outside (R203, R212). -/
def failStore (s : State) (t : Tid) (ea : W64) (ts : List Tid) (k : Tok) (keys : List HKey) : State :=
  if holding s t then
    holdAll s t ea (keys.map fun y => { tid := t, key := y, va := ea, pc := (s.thr t).pc, wide := keys.length == 2, mask := 0xF, val := .bad k })
  else recordAll s ts k

/-- The words that a failed store to global memory names: physical ones where its translation has reached a leaf. -/
def failKeys (s : State) (t : Tid) (ea : W64) (bits : Nat) : List HKey :=
  let lost := (List.range ((ea.toNat % 4 + bits / 8 + 3) / 4)).map fun i => HKey.lost false (ea.toNat / 4 + i)
  if ea.toNat % (bits / 8) ≠ 0 then lost
  else match (lookup s (coreOf t) (threadSpace s t) ea).2 with
    | .ok p => (List.range ((bits + 31) / 32)).map fun i => HKey.glob p.peer (p.pa / 4 + i)
    | _ => lost

/-- The held bytes of thread t over a word's value (R212 forwarding). -/
def forward (s : State) (t : Tid) (key : HKey) (v : Val) : Val :=
  match (s.core (coreOf t)).quar.find? fun h => h.tid == t && h.key == key with
  | some h => if holding s t then maskWord v h.mask h.val else v
  | none => v

/-- The same for the word at effective or scratch address va, where a store may have failed before it had a physical word. -/
def forwardAt (s : State) (t : Tid) (scratch : Bool) (va : Nat) (key : HKey) (v : Val) : Val :=
  forward s t (.lost scratch (va / 4)) (forward s t key v)

/-- A word of words read, as a late write carries it: the first poisoned word's token is carried with its address (R200). -/
def gotOf (ea : W64) (bits sh : Nat) (ws : List Val) (fit : Nat → Nat) : Got :=
  let bads := ws.zipIdx.filterMap fun p => match p.1 with
    | .bad k => some (k, BitVec.ofNat 64 (ea.toNat / 4 * 4 + 4 * p.2))
    | .ok _ => none
  match bads with
  | (k, a) :: _ => .carried k a
  | [] => .clean (fit (wordsNum ws / 2 ^ sh % 2 ^ bits))

/-- A loaded value of `bits` bits extended and fitted to W bits (R203, R113). -/
def fitLoad (bits : Nat) (sx : Bool) (W v : Nat) : Nat := if sx then wrapTo W (toSigned bits v) else v % 2 ^ W

/-- What a load of one value finds at issue (R203): a token, a value that will be written at the reply, or a peer to ask. -/
inductive LdRes where
  | tok (k : Tok)
  | got (g : Got)
  | peer (p : Page)
  | absent
  deriving DecidableEq, Repr

/-- A load of `bits` bits at ea by thread t (R200, R203): misalignment, translation, the thread's own held bytes, the L1. -/
def loadAt (s : State) (t : Tid) (ea : W64) (bits : Nat) (nl1 evf : Bool) (fit : Nat → Nat) : State × LdRes :=
  if ea.toNat % (bits / 8) ≠ 0 then let r := raise s t cBND ea; (r.1, .tok r.2)
  else
    let r := xlat s t .load ea
    match r.2 with
    | .fault f => if f = cNR then (r.1, .absent) else let q := raise r.1 t f ea; (q.1, .tok q.2)
    | .carried k => let q := raiseCarried r.1 t (s.thr t).pc k ea; (q.1, .tok q.2)
    | .ok p =>
      let ws := if bits = 64 then [p.pa / 4, p.pa / 4 + 1] else [p.pa / 4]
      let cached := ws.all fun w => (tget (l1Key p.peer w) (r.1.core (coreOf t)).l1).isSome
      if p.peer != 0 && !(p.mode == 1 && cached) then (scoreMiss r.1 (coreOf t) (l1Key p.peer (p.pa / 4) / 16), .peer p)
      else
        let q := l1Words r.1 t p ws nl1 evf
        let vs := q.2.zipIdx.map fun v => forwardAt q.1 t false (ea.toNat + 4 * v.2) (.glob p.peer (p.pa / 4 + v.2)) v.1
        (q.1, .got (gotOf ea bits (p.pa % 4 * 8) vs fit))

/-- A store of `bits` bits at ea (R203): held inside a leg, recorded when it fails, else performed. `ts` are the threads
that a failure is recorded against. -/
def storeAt (s : State) (t : Tid) (ts : List Tid) (ea : W64) (bits : Nat) (vs : List Val) (nl1 evf : Bool) : State :=
  if ea.toNat % (bits / 8) ≠ 0 then let r := raise s t cBND ea; failStore r.1 t ea ts r.2 (failKeys s t ea bits)
  else
    let r := xlat s t .store ea
    match r.2 with
    | .fault f => let q := raiseStore r.1 t f ea; failStore q.1 t ea ts q.2 (failKeys s t ea bits)
    | .carried k => let q := raiseCarried r.1 t (s.thr t).pc k ea; failStore q.1 t ea ts q.2 (failKeys s t ea bits)
    | .ok p =>
      let ws := storeWords p.pa bits vs
      if holding s t then
        holdAll r.1 t ea (ws.map fun w =>
          { tid := t, key := .glob p.peer w.1, va := BitVec.ofNat 64 (ea.toNat / 4 * 4 + 4 * (w.1 - p.pa / 4)), pc := (s.thr t).pc
            nl1 := nl1, evf := evf, mtc := p.mtc, mode := p.mode, at_ := p.at_, level := p.via.2.2, wide := bits == 64, mask := w.2.1, val := w.2.2 })
      else performStore r.1 t ea p ws nl1 evf

/-- A store's data, word by word, from slices lo to lo + n − 1 (R200, R203). -/
def storeData (x : Thread) (lo n bits : Nat) : List Val :=
  let nw := if bits = 64 then 2 else 1
  (List.range nw).map fun i =>
    let m := min (n - 8 * i) (if bits < 32 then bits / 4 else 8)
    if 8 * i < n then
      match lowTag x.tags ((lo + 8 * i) / 8) (granSpan (lo + 8 * i) m) with
      | some k => .bad k
      | none => .ok (x.bits (lo + 8 * i) m)
    else .ok 0

/-- Whether two held words stand for one 64-bit store of global memory (R195). -/
def Held.mate (h o : Held) : Bool :=
  h.wide && o.wide && match h.key, o.key with
    | .glob p w, .glob q v => p == q && v == pairOf w
    | _, _ => false

/-- Held words by the store they are released with: a 64-bit store enters memory as one (R195, R218). -/
def heldStores (l : List Held) : List (List Held) :=
  l.foldl (fun (r : List (List Held)) h =>
    if r.any fun g => g.any h.mate then r.map fun g => if g.any h.mate then g ++ [h] else g else r ++ [[h]]) []

/-- One held store enters memory (R218). -/
def releaseOne (s : State) (t : Tid) (g : List Held) : State :=
  match g with
  | [] => s
  | h :: _ => match h.key with
    | .glob peer w =>
      let p : Page := { peer := peer, pa := 4 * w, mode := h.mode, mtc := h.mtc, leaf := 0x40, at_ := h.at_, via := (0, 0, h.level) }
      let ws := g.map fun h => (h.key.word, h.mask, h.val)
      let s := setDCAt s h.at_
      if peer = 0 then ws.foldl (fun s w => l1Store s t p w.1 w.2.1 w.2.2 h.nl1 h.evf) s
      else postStore (copyPeer s (coreOf t) p ws) t h.pc h.va p ws
    | .tile d l i w => modTile s d l i fun m => m.setWord (tileAt s d l i + w) (maskWord (m.word (tileAt s d l i + w)) h.mask h.val)
    | .lost _ _ => s

/-- The held stores of thread t enter memory in order (R218). -/
def releaseHeld (s : State) (t : Tid) : State :=
  let c := coreOf t
  let mine := (s.core c).quar.filter fun h => h.tid == t
  (heldStores mine).foldl (fun s g => releaseOne s t g) (s.modCore c fun x => { x with quar := x.quar.filter fun h => h.tid != t })

/-- A leg's held stores discarded. -/
def discardHeld (s : State) (t : Tid) : State :=
  s.modCore (coreOf t) fun x => { x with quar := x.quar.filter fun h => h.tid != t }

/-- Outstanding-request entries in use (R195): one for each access, however many parts of it are under way. -/
def reqCount (x : Core) : Nat := ((x.reqs.filter fun r => r.kind != .multi).map fun r => (r.lead, r.pc, r.issued)).dedup.length

end Sys2Proof.Machine
end

