-- ==== Sys2Proof/Machine/Ops.lean ====
section
/-! DEFINITION. The shared operations: futures and counters, late writes, releases and acquires, teams, stopping, code
fetch, taking a trap and returning from one. -/

namespace Sys2Proof.Machine

/-! ### Futures and counters (R13 to R22) -/

/-- The lowest-numbered free entry of a future table of 1024. -/
def freeFut (l : Tbl Fut) : Nat → Nat → Option Nat
  | _, 0 => none
  | i, n + 1 => if (tgetD i {} l).live then freeFut l (i + 1) n else some i

def futFull (s : State) (c : Nat) : Bool := (freeFut (s.core c).fut 0 1024).isNone

/-- A future entry taken for work item id: its handle (R20). -/
def allocFut (s : State) (c : Nat) (cls : Cls) (id : Nat) : State × Nat :=
  match freeFut (s.core c).fut 0 1024 with
  | none => (s, 0)
  | some i =>
    let e := tgetD i {} (s.core c).fut
    let g := if e.used then (e.gen + 1) % 64 else e.gen
    (s.modCore c fun x => { x with fut := tset i ⟨g, true, true, cls, id⟩ x.fut }, i + 1024 * g)

/-- The entry that a handle names while its command is incomplete (R20, R157). -/
def futLive (s : State) (c h : Nat) : Option Fut :=
  let e := tgetD (h % 1024) {} (s.core c).fut
  if e.live && e.gen == h / 1024 % 64 then some e else none

/-- A counter at 63 stalls the next command of its class (R17). -/
def countFull (s : State) (cls : Cls) (ts : List Tid) : Bool := ts.any fun t => decide ((s.thr t).count cls ≥ 63)

/-- A command issued by threads ts: one more outstanding of its class in each (R13). -/
def issueCmd (s : State) (cls : Cls) (id : Nat) (ts : List Tid) : State :=
  ts.foldl (fun s t => s.modThr t fun x => { x with outst := x.outst ++ [⟨id, cls, false⟩] }) s

/-- In-order retirement by class (R15): a completed command leaves once every older one of its class has. -/
def retire : List Cls → List Outst → List Outst
  | _, [] => []
  | b, o :: l =>
    if o.done && !b.contains o.cls then retire b l
    else o :: retire (if b.contains o.cls then b else o.cls :: b) l

/-- The pending marks on work item id clear in a thread; a poisoned completion tags the granules that hold its handle (R21). -/
def Thread.clearPend (x : Thread) (id : Nat) (k : Option Tok) : Thread :=
  let mine := x.pend.filter fun p => p.id == id
  let x := { x with pend := x.pend.filter fun p => p.id != id }
  match k with
  | none => x
  | some k => mine.foldl (fun x p => if p.fut then x.tagGrans k (p.lo / 8) (granSpan p.lo p.n) else x) x

/-- Completion of command id of core c (R15, R18, R21): marks clear, the future is freed, the command retires. -/
def completeCmd (s : State) (c id : Nat) (k : Option Tok) : State :=
  let f := fun (p : Nat × Thread) =>
    if coreOf p.1 = c then
      let x := p.2.clearPend id k
      (p.1, { x with outst := retire [] (x.outst.map fun o => if o.id = id then { o with done := true } else o) })
    else p
  let s := { s with threads := s.threads.map f }
  s.modCore c fun x => { x with fut := x.fut.map fun e => if e.2.live && e.2.id == id then (e.1, { e.2 with live := false }) else e }

/-! ### Entries that words take (R14, R22, R107, R124, R195, R272, R318) -/

/-- What a core holds a bounded number of. -/
inductive Queue where
  | reqs | strs | mats | combs | items | futs
  deriving DecidableEq, Repr

def Queue.cap : Queue → Nat
  | .reqs => 1024 | .strs => 64 | .mats => 8 | .combs => 256 | .items => 4096 | .futs => 1024

/-- Combine requests of core c that have not been answered, its CMBDEFs among them (R272). -/
def combOut (s : State) (c : Nat) : Nat :=
  let n := fun (l : List CReq) => (l.filter fun r => r.core == c && r.dev == 0).length
  let defs := (s.core c).fabQ.filter fun k => match k.kind with | .cmbdef .. => true | _ => false
  n s.comb.flight + (s.comb.waves.map fun w => n w.reqs).sum + n s.comb.replies + defs.length

/-- Entries of core c in use. -/
def used (s : State) (c : Nat) (q : Queue) : Nat :=
  let x := s.core c
  match q with
  | .reqs => reqCount x
  | .strs => (x.strQ.filter fun k => k.stage == 0).length
  | .mats => x.matQ.length
  | .combs => combOut s c
  | .items => x.items.length
  | .futs => (x.fut.filter fun e => e.2.live).length

/-- The queues that each thread-operation of a word takes an entry of. -/
def takes (w : W64) : List Queue :=
  let o := bitsOf w.toNat 63 56
  let q := if 0x60 ≤ o ∧ o ≤ 0x6C ∧ o ≠ 0x65 then [.reqs] else if 0x80 ≤ o ∧ o ≤ 0x9F then [.strs] else if 0xA0 ≤ o ∧ o ≤ 0xBF ∧ o ≠ 0xA5 then [.mats]
    else if 0xC0 ≤ o ∧ o ≤ 0xC2 then [.combs] else if o = 0x52 then [.items] else []
  if (0x80 ≤ o ∧ o ≤ 0xDF) ∧ w.getLsbD (if o = 0xA0 then 16 else 4) then .futs :: q else q

/-- Entries that end-commit words under way on core c's ports but k have still to take: such a word is never held partway (R124). -/
def owed (s : State) (c k : Nat) (q : Queue) : Nat :=
  (s.ports.map fun p => if p.1 / 32 = c ∧ p.1 ≠ k ∧ !p.2.old.isEmpty ∧ (takes p.2.word).contains q
    then (p.2.acts.getD []).length - p.2.done.length else 0).sum

/-- Whether core c has n entries for the word on port k, or as many as there are. -/
def hasRoom (s : State) (c k : Nat) (q : Queue) (n : Nat) : Bool := decide (used s c q + min n q.cap + owed s c k q ≤ q.cap)

/-- The same for the word being issued, for a thread-operation of each of threads ts. -/
def roomFor (q : Queue) (s : State) (ts : List Tid) : Bool := hasRoom s (coreOf (ts.headD 0)) (s.iss.getD 0) q ts.length

/-! ### Late writes (R200, R202, R132) -/

/-- A work item of core c whose result is written later: its destinations are pending until then (R202, R132). -/
def addReq (s : State) (c : Nat) (ts : List Tid) (pc : W64) (ps : List Piece) (kind : ReqKind) (lat : Nat) : State × Nat :=
  let f := s.fresh c
  let s := f.1.modCore c fun x => { x with reqs := x.reqs ++ [⟨f.2, ts, ts.headD 0, s.now, pc, ps, kind, f.1.now + lat⟩] }
  (ts.foldl (fun s t => ps.foldl (fun s p => markPend s t p.lo p.n f.2 false) s) s, f.2)

/-- One piece written to threads ts: poison that arrived with a token takes its carried entry now, in the table of the core of the
issuing thread (R24, R200). -/
def writePiece (s : State) (lead : Tid) (ts : List Tid) (pc : W64) (p : Piece) : State :=
  match p.got with
  | .clean v => putAll s pc p.lo p.n (.ok v) none ts
  | .tok k => putAll s pc p.lo p.n (.bad k) none ts
  | .carried k a =>
    let r := raiseCarried s lead pc k a
    putAll r.1 pc p.lo p.n (.bad r.2) none ts
  | .cause c a =>
    let r := raiseAt s lead pc c a
    putAll r.1 pc p.lo p.n (.bad r.2) none ts

/-- The late write of work item id: every piece, then the marks clear. -/
def finishReq (s : State) (c id : Nat) : State :=
  match (s.core c).reqs.find? fun r => r.id == id with
  | none => s
  | some r =>
    let s := s.modCore c fun x => { x with reqs := x.reqs.filter fun q => q.id != id }
    let s := { s with threads := s.threads.map fun p => if coreOf p.1 = c then (p.1, p.2.clearPend id none) else p }
    r.pieces.foldl (fun s p => writePiece s r.lead r.tids r.pc p) s

/-- Whether a thread still waits for loads or ATOMs (R216, R232). -/
def loadsOut (s : State) (t : Tid) : Bool :=
  (s.core (coreOf t)).reqs.any fun r => (r.kind == .load || r.kind == .atom || r.kind == .remote) && r.tids.contains t

/-! ### Releases and acquires (R105, R155, R225, R226, R232, R233) -/

/-- The write-backs of a release at scope sc (R232). -/
def relStart (s : State) (c sc : Nat) : State := if sc ≥ 2 then writeBackAll s c (decide (sc ≥ 3)) else s

/-- Posted stores of a core that have not performed (R233, R353). -/
def postedOut (s : State) (c : Nat) : List TagRec := s.fab.tags.filter fun r => r.use == .store && r.core == c

/-- Whether core d lies in scope sc of core c (R222). -/
def inScope (c sc d : Nat) : Bool :=
  match sc with
  | 0 | 1 => d == c
  | 2 => clusterOf d == clusterOf c
  | 3 => dieOf d == dieOf c
  | _ => true

/-- Whether every write at a home on behalf of core c is complete: its invalidations and revokes (R225), and the host's back-invalidations
(R380), have been acknowledged. -/
def acked (s : State) (c : Nat) : Bool := (!s.msgs.any fun m => m.from_ == c) && !s.host.backInval.any fun b => b.2 == c

/-- Whether a core in scope sc of core c, or the host at SYS, may still hold what a write at a home has replaced (R223, R227, R380). -/
def unseen (s : State) (c sc : Nat) : Bool := (s.msgs.any fun m => inScope c sc m.core) || (sc == 5 && !s.host.backInval.isEmpty)

/-- Whether the writes at homes that have performed with respect to core c have performed with respect to every core in scope sc (R230). -/
def spread (s : State) (c sc : Nat) : Bool := acked s c && !unseen s c sc

/-- Whether an acquire of core c at scope sc still waits: what has performed with respect to the core performs in the scope first (R230). -/
def acqWait (s : State) (c sc : Nat) : Bool := decide (2 ≤ sc) && unseen s c sc

/-- The same for a thread, whose earlier loads and ATOMs have returned first (R232). -/
def acqBusy (s : State) (t : Tid) (sc : Nat) : Bool := loadsOut s t || acqWait s (coreOf t) sc

/-- Whether a release of thread t at scope sc has finished (R225, R230, R232, R240): its loads and ATOMs at peers are answered, fills of
its stores are in, what has performed with respect to it has performed in the scope, and at SYS its posted and host stores have. -/
def relDone (s : State) (t : Tid) (sc : Nat) : Bool :=
  let c := coreOf t
  !(s.core c).reqs.any (fun r => r.tids.contains t && match r.kind with
      | .fill .. | .remote => true
      | .hostStore => sc == 5
      | _ => false)
    && (sc < 2 || spread s c sc)
    && (sc != 5 || (postedOut s c).isEmpty)

/-- Whether a release of thread t at scope sc still has something to do (R232). -/
def relBusy (s : State) (t : Tid) (sc : Nat) : Bool :=
  (decide (2 ≤ sc) && (s.core (coreOf t)).l1.any fun e => e.2.dirty.isSome) || !relDone s t sc

/-- What a release leaves when it completes: at SYS the posted set is clear (R233). -/
def relEnd (s : State) (c sc : Nat) : State :=
  if sc = 5 then s.modCore c fun x => { x with posted := [], postOvf := false } else s

/-- Whether core c owns a word that it has valid: a later write at the home, whose revoke may be under way, ends it (R225, R226). -/
def owns (s : State) (c key : Nat) (e : L1Word) : Bool :=
  e.owned && !s.msgs.any fun m => m.kind == .revoke && m.core == c && m.key == key

/-- The invalidation of an acquire at scope sc: dirty words, owned words and words of SK pages stay (R226). Replies under way from peers
are no longer kept: they hold what stood there before (R349). -/
def acquire (s : State) (c sc : Nat) : State :=
  if sc ≥ 3 then
    let tags := s.fab.tags.map fun r => if r.core == c && r.sk.isNone then { r with more := 0 } else r
    let l1 := (s.core c).l1.filter fun e => e.2.dirty.isSome || owns s c e.1 e.2 || e.2.sk.isSome
    { s with fab := { s.fab with tags := tags } }.modCore c fun x => { x with l1 := l1 }
  else s

/-! ### Teams (R101 to R104) -/

/-- The core whose table a handle names, as thread t uses it, and the entry (R101). -/
def teamCore (t : Tid) (h : Nat) : Nat := coreOf t / 8 * 8 + bitsOf h 8 6
def teamOf (s : State) (t : Tid) (h : Nat) : Team := tgetD (h % 64) {} (s.core (teamCore t h)).teams
def setTeam (s : State) (t : Tid) (h : Nat) (e : Team) : State :=
  s.modCore (teamCore t h) fun x => { x with teams := tset (h % 64) e x.teams }

/-- JOIN's effect on an entry (R102). -/
def Team.join (e : Team) : Team := if e.live then { e with members := e.members + 1 } else ⟨true, 1, 0, 0⟩

/-- One phase completes (R102). -/
def Team.turn (e : Team) : Team := if e.arrived ≥ e.members then { e with phase := (e.phase + 1) % 2 ^ 16, arrived := 0 } else e

/-- LEAVE's effect on an entry (R102). -/
def Team.leave (e : Team) : Team :=
  let e := { e with members := e.members - 1 }
  if e.members = 0 then { e with live := false } else e.turn

/-- ARRIVE's effect on an entry (R102). A count wider than 16 bits is added whole, to the bound of 2048 (DESIGN CHOICE, assumption 77). -/
def Team.arrive (e : Team) (n : Nat) : Team := ({ e with arrived := min (e.arrived + n) 2048 } : Team).turn

def leaveTeam (s : State) (t : Tid) : State :=
  match (s.thr t).team with
  | none => s
  | some h => (setTeam s t h.toNat (teamOf s t h.toNat).leave).modThr t fun x => { x with team := none }

/-- Whether a thread waiting in WAITPH may go on (R102). -/
def phaseOver (s : State) (t : Tid) (h b : BitVec 16) : Bool :=
  let d := (2 ^ 16 + (teamOf s t h.toNat).phase - b.toNat) % 2 ^ 16
  decide (1 ≤ d) && decide (d ≤ 32767)

/-! ### The end of a thread (R153, R247, R386, R389) -/

/-- TSTAT (R248). -/
def tstat (x : Thread) : W64 :=
  let b := fun (v : Bool) (n : Nat) => if v then 2 ^ n else 0
  let l := x.leg.getD { replayable := false }
  BitVec.ofNat 64 ((x.drop.getD 0).toNat * 2 ^ 32 + b x.drop.isSome 31 + b x.leg.isSome 30 + b l.replayable 29
    + l.replays * 2 ^ 26 + b x.seq 25 + x.seqstep * 2 ^ 21 + b x.uviol 20 + b x.redun 19 + x.hdepth * 2 ^ 17
    + b x.priv 16 + b (x.carryA.isSome || x.carryB.isSome) 15)

/-- A thread leaves its slot: nothing that is still under way names it any more, and its granules return (R153, R247). -/
def removeThread (s : State) (t : Tid) : State :=
  let s := s.dropThr t
  let s := s.modCore (coreOf t) fun x => { x with
    reqs := x.reqs.map fun r => { r with tids := r.tids.filter fun u => u != t }
    growQ := x.growQ.filter fun g => g.1 != t
    quar := x.quar.filter fun h => h.tid != t
    strQ := x.strQ.map fun k => { k with tids := k.tids.filter fun u => u != t }
    matQ := x.matQ.map fun k => { k with tids := k.tids.filter fun u => u != t }
    fabQ := x.fabQ.map fun k => { k with tids := k.tids.filter fun u => u != t } }
  let cut := fun (l : List CReq) => l.map fun (r : CReq) => { r with tids := r.tids.filter fun u => u != t }
  let waves := s.comb.waves.map fun (w : Wave) => { w with reqs := cut w.reqs }
  let comb : Comb := { s.comb with flight := cut s.comb.flight, waves := waves, replies := cut s.comb.replies }
  let s := { s with comb := comb }
  { s with ports := s.ports.map fun p => (p.1, { p.2 with pack := p.2.pack.filter (fun u => u != t) }) }

/-- An atomic add to a 32-bit word at its home: the old value (R386). -/
def homeAdd (s : State) (c pa : Nat) (v : Int) : State × Nat :=
  match homeWord s (pa / 4) with
  | .bad _ => (s, 0)
  | .ok o => (homeWrite s (some c) (pa / 4) (.ok (wrapTo 32 ((o : Int) + v))), o)

/-- The stop word's steps at the end of a thread, after its release (R386): the fault count, the decrement, the last thread's STATUS and
vector. -/
def stopWord (s : State) (t : Tid) (faulted : Bool) : State :=
  let w := (s.thr t).stopw.toNat / 4 * 4
  if w = 0 then s
  else
    let c := coreOf t
    let s := relEnd s c 5
    let s := if faulted then (homeAdd s c (w + 4) 1).1 else s
    let r := homeAdd s c w (-1)
    if r.2 = 1 then
      let f := match homeWord r.1 (w / 4 + 1) with | .ok 0 => 2 | _ => 5
      let s := homeWrite r.1 (some c) (w / 4 - 1) (.ok f)
      match homeWord s ((w - 0x38) / 4 + 8) with
      | .ok v => if v / 2 ^ 13 % 2 = 1 then raiseVector s 3 else s
      | .bad _ => s
    else r.1

/-- What STOP waits for: counters at zero, nothing pending (R153); and what STOP and a thread fault wait for with a stop word: their
FENCE.rel.sys (R386). -/
def stopReady (s : State) (t : Tid) : Bool :=
  let x := s.thr t
  (x.hold.faulted || (x.outst.isEmpty && x.pend.isEmpty)) && (x.stopw == 0 || !relBusy s t 5)

/-- A thread ends: its stop word's steps, its team left, its slot and granules freed (R153, R247, R386). -/
def endThread (s : State) (t : Tid) (faulted : Bool) : State := removeThread (leaveTeam (stopWord s t faulted) t) t

/-- The end of a thread that acted on STOP, or that a thread fault ends (R153, R247). -/
def tryStop (s : State) (t : Tid) : State :=
  if !(s.thr t).hold.stopping then s
  else
    let s := if (s.thr t).stopw = 0 then s else relStart s (coreOf t) 5
    if stopReady s t then endThread s t (s.thr t).hold.faulted else s

/-- A fault-log entry, its cursor and vector 1 (R389). -/
def faultLog (s : State) (t : Tid) (pc : W64) (cause : Nat) : State :=
  let x := s.thr t
  let b := s.host.flogBase.toNat
  match homeRead s (b / 4) 2 with
  | none => raiseVector s 1
  | some n =>
    let a := b + 64 + 64 * (n % 4096)
    let who := coreOf t + laneOf t * 2 ^ 10 + slotOf t * 2 ^ 14 + tix x t * 2 ^ 21
    let s := homeNum s none a (1 + who * 2 ^ 32 + pc.toNat * 2 ^ 64 + cause * 2 ^ 128 + (tstat x).toNat * 2 ^ 192
      + x.stopw.toNat * 2 ^ 256 + s.cyc (coreOf t) % 2 ^ 64 * 2 ^ 320) 16
    raiseVector (homeNum s none b (n + 1) 2) 1

/-- A thread fault (R247): held stores and leg discarded, the entry logged; then the thread ends, with a stop word after the release that
this asks for (R386). -/
def threadFault (s : State) (t : Tid) (pc : W64) (cause : Nat) : State :=
  let s := faultLog ((discardHeld s t).modThr t fun x => { x with leg := none }) t pc cause
  if (s.thr t).stopw.toNat / 4 * 4 = 0 then endThread s t true
  else
    let s := s.modThr t fun x => { x with hold := { stopping := true, faulted := true, frozen := x.hold.frozen } }
    let s := { s with ports := s.ports.map fun p => (p.1, { p.2 with pack := p.2.pack.filter fun u => u != t }) }
    tryStop s t

/-! ### Taking a trap and returning (R244 to R252) -/

/-- A thread at the end of its clause, or off its port within it: one that has yielded in it is ineligible for 16 votes (R35, R97). -/
def endClause (yld : Bool) (x : Thread) : Thread := if yld || x.yields then { x with demote := 16, yields := false } else x
def endClauses (s : State) (yld : Bool) (ts : List Tid) : State := ts.foldl (fun s t => s.modThr t (endClause yld)) s

/-- Trap causes and ILL details (R58, R244). -/
def tILL : Nat := 1
def tPRIV : Nat := 2
def tBRK : Nat := 3
def tSYSC : Nat := 4
def tWATCH : Nat := 5
def dUNDEF : Nat := 1
def dUNIMPL : Nat := 2
def dPLACE : Nat := 3
def dSTATE : Nat := 4

/-- The CAUSE word of a thread (R246). -/
def causeWord (r : TrapRec) (t : Tid) : Nat :=
  r.cause + r.detail * 2 ^ 4 + r.code * 2 ^ 8 + (if r.byTrap then 2 ^ 24 else 0) + (if r.acted.contains t then 2 ^ 25 else 0)

/-- The 24 words of a frame level (R246); its workspace bytes are zero (R263). -/
def frameWords (x : Thread) (t : Tid) (r : TrapRec) : List Val :=
  numWords (r.pc.toNat + r.hdr.toNat * 2 ^ 64 + causeWord r t * 2 ^ 128 + r.inst.toNat * 2 ^ 192 + (tstat x).toNat * 2 ^ 256
      + (tgetD t 0 r.addrs).toNat * 2 ^ 320 + x.preds.toNat * 2 ^ 384) 16
    ++ (List.range 4).map (fun i => match tget (12 + i) x.tags with
        | some k => .bad k
        | none => .ok (x.bits (96 + 8 * i) 8))
    ++ [.ok 0, .ok 0, .ok 0, .ok 0]

/-- Trap entry of one thread (R245). -/
def trapThread (s : State) (r : TrapRec) (t : Tid) : State :=
  let x := s.thr t
  let o := 0x60 * x.hdepth
  if x.hdepth = 2 then threadFault s t r.pc (causeWord r t)
  else match frameFail s t o 0x60 with
    | some f => let q := raiseAt s t r.pc f (BitVec.ofNat 64 (x.tfp.toNat / 256 * 256 + o)); threadFault q.1 t r.pc q.2.toNat
    | none =>
      let s := setTileWords s (coreOf t) (frameH x) ((frameOff x + o) / 4) (frameWords x t r)
      let y := x.put 104 8 (.ok 0) |>.put 112 8 (.ok 0) |>.put 120 8 (.ok 0)
      let y := y.put 96 8 (.ok (x.tfp.toNat / 256 * 256 + o))
      s.setThr t { (endClause false y) with hdepth := x.hdepth + 1, priv := true, pc := (s.core (coreOf t)).tvec, hdr := none }

/-- Taking a trap: every active thread of the pack, in ascending order, enters the handler and leaves the port; entry
waits while a slice from 96 to 127 is pending in one of them (R244, R245). -/
def takeTrap (s : State) (r : TrapRec) : State :=
  let p := s.cur
  if p.pack.any fun t => (s.thr t).pending 96 32 then s.modCur fun p => { p with trap := some r, stall := true }
  else
    let s := match s.iss with | some k => s.freePort k | none => s
    p.pack.foldl (fun s t => trapThread s r t) s

/-- A frame level as RTE reads it: 16 clean-or-poisoned fields as words, then the slices. -/
def readFrame (s : State) (t : Tid) : Except Nat (List Val) :=
  let x := s.thr t
  let o := 0x60 * (x.hdepth - 1)
  match frameFail s t o 0x60 with
  | some f => .error f
  | none => .ok (tileWords s (coreOf t) (frameH x) ((frameOff x + o) / 4) 24)

/-- A 64-bit field of a frame: words 2i and 2i + 1. -/
def frameField (l : List Val) (i : Nat) : Val :=
  match l.getD (2 * i) (.ok 0), l.getD (2 * i + 1) (.ok 0) with
  | .ok a, .ok b => .ok (a + 2 ^ 32 * b)
  | .bad k, _ => .bad k
  | _, .bad k => .bad k

/-- The first poisoned field among PC, HDR, TSTAT and PRED (R247). -/
def framePoison (l : List Val) : Option Tok := lowTok [frameField l 0, frameField l 1, frameField l 4, frameField l 6]

/-- The state that a thread resumes with after RTE (R252): `cnt` is the CNT of the header that HDR names. -/
def resumeThread (x : Thread) (l : List Val) (cnt : Nat) : Thread :=
  let pc := (frameField l 0).num / 8 * 8
  let h := (frameField l 1).num / 8 * 8
  let st := (frameField l 4).num
  let y := (List.range 4).foldl (fun (y : Thread) i => y.put (96 + 8 * i) 8 (l.getD (16 + i) (.ok 0))) x
  let inside := h + 8 ≤ pc && pc ≤ h + 8 * (cnt + 1)
  { y with
    preds := BitVec.ofNat 7 (frameField l 6).num
    priv := st / 2 ^ 16 % 2 == 1
    uviol := st / 2 ^ 20 % 2 == 1
    seq := st / 2 ^ 25 % 2 == 1
    seqstep := st / 2 ^ 21 % 16
    carryA := if st / 2 ^ 15 % 2 == 1 then x.carryA else none
    carryB := if st / 2 ^ 15 % 2 == 1 then x.carryB else none
    hdepth := x.hdepth - 1
    pc := BitVec.ofNat 64 pc
    hdr := if inside then some (BitVec.ofNat 64 h) else none }

/-- Return of one thread from its handler (R252); an unreadable or poisoned level is a thread fault (R247). -/
def rteThread (s : State) (t : Tid) (cnt : Nat) : State :=
  let x := s.thr t
  match readFrame s t with
  | .error f => let q := raise s t f (BitVec.ofNat 64 (x.tfp.toNat / 256 * 256 + 0x60 * (x.hdepth - 1))); threadFault q.1 t x.pc q.2.toNat
  | .ok l => match framePoison l with
    | some k => threadFault s t x.pc k.toNat
    | none => s.setThr t (resumeThread x l cnt)

/-! ### Code fetch (R189, R237, R349) -/

/-- What the fetch of an 8-byte code word gives. -/
inductive Fetch where
  | word (w : W64)
  | priv
  | absent (asid page : Nat)
  deriving DecidableEq, Repr

/-- One code word at va for a pack of core c; `user` when any of its threads runs at user privilege (R189). -/
def fetchWord (s : State) (c : Nat) (user : Bool) (va : W64) : State × Fetch :=
  let sp := spaceOf (s.core c).ptbr
  let r := lookup s c sp va
  match r.2 with
  | .fault f => (r.1, if f = cNR then .absent sp.asid (va.toNat / 2 ^ 16) else .priv)
  | .carried _ => (r.1, .priv)
  | .ok p =>
    if p.peer != 0 || (user && !p.leaf.getLsbD 4) || !p.leaf.getLsbD 3 then (r.1, .priv)
    else
      let line := p.pa / 64
      let at_ := p.pa % 64 * 8
      match tget line (r.1.core c).icache with
      | some b => (r.1, .word (b.extractLsb' at_ 64))
      | none =>
        let b : BitVec 512 := BitVec.ofNat 512 (wordsNum ((List.range 16).map fun i => homeWord r.1 (line * 16 + i)))
        (r.1.modCore c fun x => { x with icache := (tset line b x.icache).take 1024 }, .word (b.extractLsb' at_ 64))

/-- n code words from va. -/
def fetchWords (s : State) (c : Nat) (user : Bool) (va : W64) : Nat → State × Except Fetch (List W64)
  | 0 => (s, .ok [])
  | n + 1 =>
    let r := fetchWord s c user va
    match r.2 with
    | .word w =>
      let q := fetchWords r.1 c user (va + 8) n
      (q.1, match q.2 with | .ok l => .ok (w :: l) | .error e => .error e)
    | e => (r.1, .error e)

/-- Privilege of a pack's threads (R243). -/
def anyUser (s : State) (ts : List Tid) : Bool := ts.any fun t => !(s.thr t).priv

end Sys2Proof.Machine
end

