-- ==== Sys2Proof/Machine/Issue.lean ====
section
/-! DEFINITION. How a word runs for a pack: the checks of R58 and R59, the commit kinds of R122 to R124, uniform words
(R96), holds (R34), and the end of a word and of a clause (R95, R146). -/

namespace Sys2Proof.Machine

/-- What a word asks of its place before it acts (R31, R32, R58, R59, R243, R244, R249). -/
structure Gate where
  /-- The clause class that admits the word; none for the groups every class admits (R31). -/
  cls : Option Nat := none
  /-- A control transfer, which must end its clause (R32). -/
  last : Bool := false
  /-- Needs supervisor privilege (R243). -/
  sup : Bool := false
  /-- Whether the operands that the STATE check reads are still pending. -/
  wait : State → List Tid → List Tid → Bool := fun _ _ _ => false
  /-- The STATE check over the acting threads and the active threads (R59). -/
  bad : State → List Tid → List Tid → Bool := fun _ _ _ => false
  /-- A BRK, SYSC or TRAP to take when a thread acts: cause, code, raised by TRAP (R251). -/
  brk : Option (Nat × Nat × Bool) := none
  /-- Addresses of acting threads' accesses that match a watchpoint (R249). -/
  watch : State → List Tid → Tbl W64 := fun _ _ => []

/-- Whether a thread acts: its predicate after PN (R36). -/
def actsOn (x : Pfx) (y : Thread) : Bool := y.pred x.p.toNat != x.pn

/-- The threads a word acts in: with U the lowest active thread alone decides (R36, R96). -/
def actors (s : State) (x : Pfx) (pack : List Tid) : List Tid :=
  if x.u then (match pack with | t :: _ => if actsOn x (s.thr t) then [t] else [] | [] => [])
  else pack.filter fun t => actsOn x (s.thr t)

/-- Whether opcode class `need` is admitted by a clause header (R31). -/
def admitted (hdr : W64) (need : Option Nat) : Bool :=
  match need with
  | none => true
  | some n => bitsOf hdr.toNat 63 61 == n

/-- Whether the port stands at the last word of its clause. -/
def atLast (p : Port) : Bool := p.widx + 1 == p.words.length

/-- A trap record of the word a port stands at (R246). -/
def trapAt (s : State) (x : Pfx) (cause detail : Nat) : TrapRec :=
  let p := s.cur
  { pc := p.addr, hdr := p.hdrAddr, cause := cause, detail := detail, inst := p.word
    acted := p.pack.filter fun t => actsOn x (s.thr t) }

/-- The trap that the checks of a word decide, in the order PLACE, PRIV, STATE, then BRK, SYSC, TRAP and WATCH (R58, R244). -/
def gateTrap (s : State) (g : Gate) (x : Pfx) (acts : List Tid) : Option TrapRec :=
  let p := s.cur
  if !admitted p.hdr g.cls || (g.last && !atLast p) then some (trapAt s x tILL dPLACE)
  else if g.sup && anyUser s p.pack then some (trapAt s x tPRIV 0)
  else if g.bad s acts p.pack then some (trapAt s x tILL dSTATE)
  else if acts.isEmpty then none
  else match g.brk with
    | some (c, code, tr) => some { trapAt s x c 0 with code := code, byTrap := tr }
    | none =>
      let w := g.watch s acts
      if w.isEmpty then none else some { trapAt s x tWATCH 0 with addrs := w }

/-- Where a thread goes on: a clause header, or a word inside a clause (R125, R146). -/
structure Tgt where
  pc : W64
  hdr : Option W64 := none
  deriving DecidableEq, Repr

/-- The position after the word a port stands at: the next word, or the header after the clause (R28, R146). -/
def Port.next (p : Port) : Tgt :=
  if p.widx + 1 < p.words.length then ⟨p.hdrAddr + BitVec.ofNat 64 (8 * (p.widx + 2)), some p.hdrAddr⟩
  else ⟨p.hdrAddr + BitVec.ofNat 64 (8 * (p.words.length + 1)), none⟩

/-- A thread behind the word of port p, or at g; a chain carry it held for this word has been read (R126). -/
def passOn (p : Port) (g : Option Tgt) (x : Thread) : Thread :=
  let n := g.getD p.next
  let keep := x.carryAt != p.addr
  { x with pc := n.pc, hdr := n.hdr, carryA := if keep then x.carryA else none, carryB := if keep then x.carryB else none }

/-- Thread t has finished the word. -/
def finish (s : State) (t : Tid) (g : Option Tgt) : State := s.modThr t (passOn s.cur g)

/-- Thread t has done the port's word. -/
def markDone (t : Tid) (p : Port) : Port := { p with done := p.done ++ [t] }

/-- The acting threads of the port's word are known. -/
def begin_ (acts : List Tid) (p : Port) : Port := { p with acts := some acts, old := [] }

/-- The port goes on to its next word after `cost` cycles. -/
def nextWord (cost : Nat) (p : Port) : Port := { p with widx := p.widx + 1, done := [], acts := none, old := [], busy := cost, stall := false }

/-- The pack holds at its word (R34). -/
def stall (s : State) : State := s.modCur fun p => { p with stall := true }

/-- The end of a word for the whole pack: threads that did not act go on, and a clause that ends with YLD yields (R35, R95). -/
def endWord (s : State) (cost : Nat) : State :=
  let p := s.cur
  let s := p.pack.foldl (fun s t => if p.done.contains t then s else finish s t none) s
  let s := if atLast p then endClauses s (p.hdr.getLsbD 36) p.pack else s
  s.modCur (nextWord cost)

/-- A word's effect on a pack. `rd` reads a thread's sources, `eff` does once what acts outside its slices and forms the
result for the threads that take it, `put` writes the result; `rdBusy` and `wrBusy` say what must wait (R34, R115), `room`
whether the engines have entries for all of several threads (R124), or for as many as they hold, `wait` what waiting itself does, `tgt` where the word sends
a thread, `extra` read cycles that a thread's operands add (R114), `sdc` what it leaves where the two copies of a redundant thread-operation differ (R259). -/
structure WordOp (α β : Type) where
  rdBusy : State → List Tid → Tid → Bool
  wrBusy : State → Tid → Bool
  room : State → List Tid → Bool := fun _ _ => true
  wait : State → Tid → State := fun s _ => s
  rd : State → List Tid → Tid → State × α
  eff : State → Tid → List Tid → α → State × β
  put : State → List Tid → β → State
  tgt : State → Tid → β → Option Tgt := fun _ _ _ => none
  extra : State → List Tid → Tid → Nat := fun _ _ _ => 0
  sdc : State → Tid → List Tid → State := fun s t ts => let r := raise s t cSDC; recordAll r.1 ts r.2

variable {α β : Type}

/-- The state after giving a waiting thread its wait, and whether it must still hold. -/
def WordOp.ready (o : WordOp α β) (s : State) (acts : List Tid) (t : Tid) (ws : List Tid) : State × Bool :=
  let busy := fun s => o.rdBusy s acts t || ws.any fun u => o.wrBusy s u
  if busy s then let s' := o.wait s t; (s', !busy s') else (s, true)

/-- The same for threads in order, up to the first that must hold. -/
def WordOp.readyAll (o : WordOp α β) (acts : List Tid) : List Tid → State → State × Bool
  | [], s => (s, true)
  | t :: ts, s =>
    let r := o.ready s acts t [t]
    if r.2 then o.readyAll acts ts r.1 else r

/-- Whether the two copies of thread t's thread-operation differ (R259). -/
def upset (s : State) (t : Tid) : Bool := s.cur.upset && (s.thr t).redun

/-- Threads ts have done the word, whose two copies differed for thread t (R259). -/
def WordOp.differ (o : WordOp α β) (s : State) (t : Tid) (ts : List Tid) : State :=
  ts.foldl (fun s u => (finish s u none).modCur fun p => { markDone u p with upset := false }) (o.sdc s t ts)

/-- Thread t's operation once its sources are read. -/
def WordOp.land (o : WordOp α β) (s : State) (t : Tid) (a : α) : State :=
  let b := o.eff s t [t] a
  let s := o.put b.1 [t] b.2
  let s := finish s t (o.tgt s t b.2)
  s.modCur (markDone t)

/-- The thread-operation of one acting thread (R123). -/
def WordOp.one (o : WordOp α β) (s : State) (acts : List Tid) (t : Tid) : State :=
  let a := o.rd s acts t
  o.land a.1 t a.2

/-- Slices and tags of the threads of thread t's lane pair, which are all that exchange codes reach (R119). -/
def laneSlices (s : State) (t : Tid) : Tbl (BitVec 2048 × Tbl Tok) :=
  (s.threads.filter fun p => laneKey p.1 / 2 == laneKey t / 2).map fun p => (p.1, p.2.slices, p.2.tags)

def withSlices (s : State) (l : Tbl (BitVec 2048 × Tbl Tok)) : State :=
  l.foldl (fun s p => s.modThr p.1 fun x => { x with slices := p.2.1, tags := p.2.2 }) s

/-- The thread-operation of one acting thread of an end-commit word: its sources are read as they stood when the word began (R124). -/
def WordOp.oneOfAll (o : WordOp α β) (s : State) (acts : List Tid) (t : Tid) : State :=
  if s.cur.old.isEmpty then o.one s acts t
  else
    let a := o.rd (withSlices s s.cur.old) acts t
    o.land (withSlices a.1 (laneSlices s t)) t a.2

/-- The reads and effects of a transfer marked U, thread by thread, before any slice is written (R147); a thread whose copies differ has
none. -/
def WordOp.reads (o : WordOp α β) (acts : List Tid) : List Tid → State → State × List (Tid × Option β)
  | [], s => (s, [])
  | t :: ts, s =>
    if upset s t then
      let r := o.reads acts ts (s.modCur fun p => { p with upset := false })
      (r.1, (t, none) :: r.2)
    else
      let a := o.rd s acts t
      let b := o.eff a.1 t [t] a.2
      let r := o.reads acts ts b.1
      (r.1, (t, some b.2) :: r.2)

/-- A uniform word: read once in the lowest active thread, its effect once, its result to every active thread (R96). -/
def WordOp.uniform (o : WordOp α β) (s : State) (acts : List Tid) (t : Tid) (pack : List Tid) : State :=
  let a := o.rd s acts t
  let b := o.eff a.1 t pack a.2
  let s := o.put b.1 pack b.2
  pack.foldl (fun s u => (finish s u (o.tgt s t b.2)).modCur (markDone u)) s

/-- ALU cycles of thread t's thread-operation: none where it runs beside one of the pair's other lane (R93, R94). RU asks for a
latch and changes no cost and no result (R127). -/
def opCost (acts : List Tid) (t : Tid) (c : Nat) : Nat :=
  let odd := fun (u : Tid) => laneOf u % 2 == 1
  if odd t && decide ((acts.filter fun u => odd u && decide (u < t)).length < (acts.filter fun u => !odd u).length) then 0
  else max 1 c

/-- A stream-commit word goes on by the thread-operation of its next acting thread, in ascending order, or holds there (R95,
R123): the port's lane gives its next cycle to the other port (R94). -/
def WordOp.stream (o : WordOp α β) (acts : List Tid) (c : Nat) (s : State) : State :=
  match acts.filter fun u => !s.cur.done.contains u with
  | [] => endWord s 0
  | t :: ts =>
    let r := if upset s t then (s, !o.wrBusy s t) else o.ready s acts t [t]
    if r.2 then
      let q := if upset s t then o.differ s t [t] else o.one r.1 acts t
      let cost := opCost acts t (c + o.extra s acts t)
      if ts.isEmpty then endWord q cost else q.modCur fun p => { p with busy := cost }
    else stall r.1

/-- An end-commit word begins once nothing holds any acting thread and its engines have room for all of them, and then goes on by a
thread-operation at a time, so that the lane's other port has every second cycle (R94); its sources are those of its beginning (R124). One
with more threads than the queue has entries begins on an empty queue, and then holds for each entry as R14 says (DESIGN CHOICE,
assumption 62). -/
def WordOp.whole (o : WordOp α β) (acts : List Tid) (c : Nat) (s : State) : State :=
  match acts.filter fun u => !s.cur.done.contains u with
  | [] => endWord s 0
  | t :: ts =>
    let r := if s.cur.old.isEmpty then o.readyAll acts acts s else (s, true)
    if r.2 && ((s.cur.old.isEmpty && ts.isEmpty) || o.room r.1 (if s.cur.old.isEmpty then acts else [t])) then
      let u := if s.cur.old.isEmpty && !ts.isEmpty then r.1.modCur fun p => { p with old := laneSlices r.1 t } else r.1
      let q := if upset u t then o.differ u t [t] else o.oneOfAll u acts t
      let cost := opCost acts t (c + o.extra s acts t)
      if ts.isEmpty then endWord q cost else q.modCur fun p => { p with busy := cost }
    else stall r.1

/-- The word acts: by its commit kind (R122). -/
def WordOp.act (o : WordOp α β) (x : Pfx) (endc : Bool) (c : Nat) (s : State) : State :=
  let p := s.cur
  let acts := (p.acts.getD []).filter fun t => p.pack.contains t
  match acts with
  | [] => endWord s 1
  | t :: _ =>
    if x.u then
      if upset s t then (if p.pack.any fun u => o.wrBusy s u then stall s else endWord (o.differ s t p.pack) 1)
      else
        let r := o.ready s acts t p.pack
        if r.2 then endWord (o.uniform r.1 acts t p.pack) (max 1 (c + o.extra s acts t)) else stall r.1
    else if endc then o.whole acts c s
    else o.stream acts c s

/-- The leg of each of the threads can no longer replay (R213). -/
def noReplay (s : State) (ts : List Tid) : State :=
  ts.foldl (fun s t => s.modThr t fun x => { x with leg := x.leg.map fun l => { l with replayable := false } }) s

/-- A word of the classes STR, MTX, CMB and FAB: opcodes 0x80 to 0xDF, which end a leg's replayability (R31, R213). -/
def engineClass (g : Gate) : Bool := match g.cls with
  | some n => decide (1 ≤ n) && decide (n ≤ 4)
  | none => false

/-- A word's effect that also ends the replayability of the threads it acts for. -/
def WordOp.noReplay (o : WordOp α β) : WordOp α β := { o with eff := fun s t ts a => o.eff (Machine.noReplay s ts) t ts a }

/-- A word of the pack on the issuing port: its checks when it is first issued, then its effect (R58, R59, R95). -/
def runWord (g : Gate) (x : Pfx) (endc : Bool) (c : Nat) (o : WordOp α β) (s : State) : State :=
  let p := s.cur
  let o := if engineClass g then o.noReplay else o
  match p.acts with
  | some _ => o.act x endc c s
  | none =>
    let acts := actors s x p.pack
    if g.wait s acts p.pack then stall s
    else match gateTrap s g x acts with
      | some r => takeTrap s r
      | none => o.act x endc c (s.modCur (begin_ acts))

end Sys2Proof.Machine
end

