-- ==== Sys2Proof/Machine/Operands.lean ====
section
/-! DEFINITION. Operand forms: sources through exchange codes, fitting to widths (R113), results into slices. -/

namespace Sys2Proof.Machine

/-- A source operand of a word: slices, exchange code, xk exponent, and which field it is (for the chain carry). -/
structure Src where
  lo : Nat
  n : Nat
  ax : Exch := .self
  e : Nat := 0
  fieldB : Bool := false
  deriving DecidableEq, Repr

/-- The A, B and D operands of an R-form word, and A of the other forms; D is read without an exchange code (R40). -/
def rA (f : RForm) : Src := ⟨f.a.start.toNat, f.a.slices, f.ax, f.e.toNat, false⟩
def rB (f : RForm) : Src := ⟨f.b.start.toNat, f.b.slices, f.bx, f.e.toNat, true⟩
def rD (f : RForm) : Src := ⟨f.d.start.toNat, f.d.slices, .self, 0, false⟩
def iA (f : IForm) : Src := ⟨f.a.start.toNat, f.a.slices, f.ax, 0, false⟩
def mA (f : MForm) : Src := ⟨f.a.start.toNat, f.a.slices, f.ax, f.e.toNat, false⟩
def fA (f : FForm) : Src := ⟨f.a.start.toNat, f.a.slices, f.ax, 0, false⟩

/-- Whether a source makes its word end-commit (R122). -/
def Src.endc (r : Src) : Bool := r.ax != .self && r.ax != .chn

/-- What reading a source gives, its pending check, and the read (R119 to R121). -/
def Src.peek (r : Src) (s : State) (acts : List Tid) (t : Tid) : Peek := peekX s acts t r.lo r.n r.ax r.e r.fieldB
def Src.busy (r : Src) (s : State) (acts : List Tid) (t : Tid) : Bool := busyX s acts t r.lo r.n r.ax r.e
def Src.read (r : Src) (s : State) (acts : List Tid) (t : Tid) : State × Val := readX s acts t r.lo r.n r.ax r.e r.fieldB

/-- Sources read in operand order. -/
def readSrcs (acts : List Tid) (t : Tid) : List Src → State → State × List Val
  | [], s => (s, [])
  | r :: rs, s =>
    let a := r.read s acts t
    let q := readSrcs acts t rs a.1
    (q.1, a.2 :: q.2)

def busySrcs (rs : List Src) (s : State) (acts : List Tid) (t : Tid) : Bool := rs.any fun r => r.busy s acts t

/-- Crossing costs of a list of sources (R114). -/
def crossCost (rs : List Src) : Nat := (rs.map fun r => crosses r.lo r.n).sum

/-- A source of wSrc bits fitted to an operation of w bits (R113): z zero-extends, else sign-extends; a wider source gives
its low bits. -/
def fitSrc (z : Bool) (wSrc w v : Nat) : Int := if z then ((v % 2 ^ min wSrc w : Nat) : Int) else toSigned (min wSrc w) v

/-- A result of w bits fitted to a destination of W bits (R113). -/
def fitRes (z : Bool) (w W : Nat) (r : Int) : Nat :=
  if z then wrapTo w r % 2 ^ W else wrapTo W (toSigned w (wrapTo w r))

/-- A result clamped to the range of a W-bit destination (R133). -/
def satRes (z : Bool) (W : Nat) (r : Int) : Nat :=
  if z then wrapTo W (max 0 (min r (2 ^ W - 1))) else wrapTo W (max (-2 ^ (W - 1)) (min r (2 ^ (W - 1) - 1)))

/-- What a computation gives: a value, or an invalid operation with its cause (R131). -/
inductive Res where
  | val (v : Nat)
  | inv (cause : Nat)
  deriving DecidableEq, Repr

/-- The value a word writes: the lowest-numbered poisoned operand's token, else the computed value, else fresh poison (R131, R171). -/
def settleRes (s : State) (t : Tid) (f : List Nat → Res) (vs : List Val) : State × Val :=
  match lowTok vs with
  | some k => (s, .bad k)
  | none => match f (vs.map Val.num) with
    | .val v => (s, .ok v)
    | .inv c => let r := raise s t c; (r.1, .bad r.2)

/-- A value as a late write carries it. -/
def Val.got : Val → Got
  | .ok v => .clean v
  | .bad k => .tok k

/-- A slice result whose two copies differ: D is written with a fresh SDC token (R259). -/
def sdcInto (d : Opd) (s : State) (t : Tid) (ts : List Tid) : State :=
  let r := raise s t cSDC
  putAll r.1 s.cur.addr d.start.toNat d.slices (.bad r.2) none ts

/-- An ALU word over sources `rs` into slices D: operands read, the result computed, written at once or after `lat` cycles
(R130, R132). -/
def aluOp (d : Opd) (rs : List Src) (lat : Option Nat) (f : List Nat → Res) : WordOp (List Val) Val where
  rdBusy := busySrcs rs
  wrBusy s t := (s.thr t).pending d.start.toNat d.slices
  rd s acts t := readSrcs acts t rs s
  eff s t _ vs := settleRes s t f vs
  put s ts v := match lat with
    | none => putAll s s.cur.addr d.start.toNat d.slices v none ts
    | some n => (addReq s (coreOf (ts.headD 0)) ts s.cur.addr [⟨d.start.toNat, d.slices, v.got⟩] .multi n).1
  sdc := sdcInto d

/-- An R-form ALU word with sources `rs`. -/
def aluWord (x : Pfx) (d : Opd) (rs : List Src) (cost : Nat) (lat : Option Nat) (f : List Nat → Res) (s : State) : State :=
  runWord {} x (rs.any Src.endc) (cost + crossCost rs) (aluOp d rs lat f) s

/-- The usual case: one cycle, no late result, always a value. -/
def alu (x : Pfx) (d : Opd) (rs : List Src) (f : List Nat → Nat) (s : State) : State :=
  aluWord x d rs 1 none (fun l => .val (f l)) s

/-- Operands of a computation by place. -/
def arg (l : List Nat) (i : Nat) : Nat := l.getD i 0

end Sys2Proof.Machine
end

