-- ==== Sys2Proof/Machine/Flags.lean ====
section
/-! DEFINITION. Predicate results: conditions (R140), and words that write a predicate (R96, R116, R131). -/

namespace Sys2Proof.Machine

/-- The conditions .eq .ne .lt .le .gt .ge (R140). -/
def condHolds (c : Nat) (a b : Int) : Bool :=
  match c with
  | 0 => a == b
  | 1 => a != b
  | 2 => decide (a < b)
  | 3 => decide (a ≤ b)
  | 4 => decide (a > b)
  | _ => decide (a ≥ b)

/-- Predicate p written in each thread (R116). -/
def putPred (s : State) (p : Nat) (v : Bool) (ts : List Tid) : State :=
  ts.foldl (fun s t => s.modThr t fun x => x.setPred p v) s

/-- A predicate result whose two copies differ: false, and SDC is recorded (R259). -/
def sdcPred (p : Nat) (s : State) (t : Tid) (ts : List Tid) : State :=
  let r := raise s t cSDC
  recordAll (putPred r.1 p false ts) ts r.2

/-- A word that writes predicate d: poisoned sources write false and record the token (R131). -/
def predOp (p : Nat) (rs : List Src) (f : List Nat → Bool) : WordOp (List Val) (Bool × Option Tok) where
  rdBusy := busySrcs rs
  wrBusy _ _ := false
  rd s acts t := readSrcs acts t rs s
  eff s _ _ vs := (s, match lowTok vs with | some k => (false, some k) | none => (f (vs.map Val.num), none))
  put s ts b :=
    let s := putPred s p b.1 ts
    match b.2 with | some k => recordAll s ts k | none => s
  sdc s t ts := sdcPred p s t ts

def predWord (x : Pfx) (d : Opd) (rs : List Src) (f : List Nat → Bool) (s : State) : State :=
  runWord {} x (rs.any Src.endc) (1 + crossCost rs) (predOp d.start.toNat rs f) s

end Sys2Proof.Machine
end

