-- ==== Sys2Proof/Machine/Arith.lean ====
section
/-! DEFINITION. Group 000: integer, logic, shift, bitfield, compare, select, move and packed instructions (R130 to R145). -/

namespace Sys2Proof.Machine

/-- A two-source entry with sg and wc (R133): the exact value `f a b`, wrapped or saturated, into D. -/
def arith2 (z : Bool) (wc : BitVec 3) (sat : Bool) (f : Int → Int → Int) (r : RForm) (cost : Nat) (s : State) : State :=
  let w := wcBits wc
  let W := r.d.bits
  aluWord r.x r.d [rA r, rB r] cost none (fun l =>
    let v := f (fitSrc z r.a.bits w (arg l 0)) (fitSrc z r.b.bits w (arg l 1))
    .val (if sat then satRes z W v else fitRes z w W v)) s

/-- A one-source entry with wc, signed (IABS, INEG). -/
def arith1 (wc : BitVec 3) (sat : Bool) (f : Int → Int) (r : RForm) (s : State) : State :=
  let w := wcBits wc
  let W := r.d.bits
  alu r.x r.d [rA r] (fun l =>
    let v := f (fitSrc false r.a.bits w (arg l 0))
    if sat then satRes false W v else fitRes false w W v) s

/-- Cycles of the multiplies (R132). -/
def mulCost (wc : BitVec 3) : Nat := if wcBits wc ≥ 48 then 2 else 1

/-- IADD (R133). -/
def execIadd (sg : Bool) (wc : BitVec 3) (sat : Bool) (f : RForm) (s : State) : Out := .next (arith2 sg wc sat (· + ·) f 1 s)
/-- ISUB (R133). -/
def execIsub (sg : Bool) (wc : BitVec 3) (sat : Bool) (f : RForm) (s : State) : Out := .next (arith2 sg wc sat (· - ·) f 1 s)
/-- IMUL (R133). -/
def execImul (sg : Bool) (wc : BitVec 3) (f : RForm) (s : State) : Out := .next (arith2 sg wc false (· * ·) f (mulCost wc) s)
/-- IMULH (R133): floor(a × b ÷ 2^w). -/
def execImulh (sg : Bool) (wc : BitVec 3) (f : RForm) (s : State) : Out :=
  .next (arith2 sg wc false (fun a b => a * b / 2 ^ wcBits wc) f (mulCost wc) s)
/-- IMIN (R133). -/
def execImin (sg : Bool) (wc : BitVec 3) (f : RForm) (s : State) : Out := .next (arith2 sg wc false min f 1 s)
/-- IMAX (R133). -/
def execImax (sg : Bool) (wc : BitVec 3) (f : RForm) (s : State) : Out := .next (arith2 sg wc false max f 1 s)
/-- IABS (R133). -/
def execIabs (wc : BitVec 3) (sat : Bool) (f : RForm) (s : State) : Out := .next (arith1 wc sat (fun a => |a|) f s)
/-- INEG (R133). -/
def execIneg (wc : BitVec 3) (sat : Bool) (f : RForm) (s : State) : Out := .next (arith1 wc sat (fun a => -a) f s)

/-- The immediate of an I-form word taken at w bits: sign-extended, or zero-extended for z (R41, R134). -/
def immAt (z : Bool) (w : Nat) (f : IForm) : Int :=
  let v : Int := if z then (f.imm.toNat : Int) else toSigned 20 f.imm.toNat
  if z then (wrapTo w v : Int) else toSigned w (wrapTo w v)

/-- IADD with an immediate (R134). -/
def execIaddImm (sg : Bool) (wc : BitVec 3) (f : IForm) (s : State) : Out :=
  let w := wcBits wc
  .next (alu f.x f.d [iA f] (fun l => fitRes sg w f.d.bits (fitSrc sg f.a.bits w (arg l 0) + immAt sg w f)) s)

/-- IMAD (R133, R40). -/
def execImad (sg : Bool) (wc : BitVec 3) (sat : Bool) (f : RForm) (s : State) : Out :=
  let w := wcBits wc
  let W := f.d.bits
  .next (aluWord f.x f.d [rA f, rB f, rD f] (mulCost wc) none (fun l =>
    let v := fitSrc sg f.a.bits w (arg l 0) * fitSrc sg f.b.bits w (arg l 1) + fitSrc sg W w (arg l 2)
    .val (if sat then satRes sg W v else fitRes sg w W v)) s)

/-- Division of R135: quotient and remainder truncated toward zero, DIVZ for a zero divisor, and for the quotient INV where
−2^(w−1) is divided by −1. -/
def divRes (z : Bool) (w W : Nat) (rem : Bool) (a b : Int) : Res :=
  if b = 0 then .inv cDIVZ
  else if !z && a == -2 ^ (w - 1) && b == -1 then (if rem then .val 0 else .inv cINV)
  else .val (fitRes z w W (if rem then Int.tmod a b else Int.tdiv a b))

def divWord (z : Bool) (wc : BitVec 3) (rem : Bool) (f : RForm) (s : State) : State :=
  let w := wcBits wc
  aluWord f.x f.d [rA f, rB f] 1 (some (4 + w / 2)) (fun l =>
    divRes z w f.d.bits rem (fitSrc z f.a.bits w (arg l 0)) (fitSrc z f.b.bits w (arg l 1))) s

/-- IDIV (R135): its result is pending for 4 + w ÷ 2 cycles (R132). -/
def execIdiv (sg : Bool) (wc : BitVec 3) (f : RForm) (s : State) : Out := .next (divWord sg wc false f s)
/-- IREM (R135). -/
def execIrem (sg : Bool) (wc : BitVec 3) (f : RForm) (s : State) : Out := .next (divWord sg wc true f s)

/-! ### Logic and shifts (R136, R137) -/

/-- AND NOT and NOT on w bits. -/
def andNot (w a b : Nat) : Nat := a &&& (2 ^ w - 1 - b % 2 ^ w)
def notBits (w a : Nat) : Nat := 2 ^ w - 1 - a % 2 ^ w

/-- A logic entry: sources zero-extended or truncated to D's width (R136). -/
def logic2 (g : Nat → Nat → Nat → Nat) (f : RForm) (s : State) : State :=
  let w := f.d.bits
  alu f.x f.d [rA f, rB f] (fun l => g w (arg l 0 % 2 ^ w) (arg l 1 % 2 ^ w)) s

def logicImm (g : Nat → Nat → Nat → Nat) (f : IForm) (s : State) : State :=
  let w := f.d.bits
  alu f.x f.d [iA f] (fun l => g w (arg l 0 % 2 ^ w) (f.imm.toNat % 2 ^ w)) s

/-- AND, OR, XOR, ANDN, NOT (R136). -/
def execAnd (f : RForm) (s : State) : Out := .next (logic2 (fun _ a b => a &&& b) f s)
def execOr (f : RForm) (s : State) : Out := .next (logic2 (fun _ a b => a ||| b) f s)
def execXor (f : RForm) (s : State) : Out := .next (logic2 (fun _ a b => a ^^^ b) f s)
def execAndn (f : RForm) (s : State) : Out := .next (logic2 andNot f s)
def execNot (f : RForm) (s : State) : Out := .next (alu f.x f.d [rA f] (fun l => notBits f.d.bits (arg l 0)) s)
/-- The immediate forms (R136). -/
def execAndImm (f : IForm) (s : State) : Out := .next (logicImm (fun _ a b => a &&& b) f s)
def execOrImm (f : IForm) (s : State) : Out := .next (logicImm (fun _ a b => a ||| b) f s)
def execXorImm (f : IForm) (s : State) : Out := .next (logicImm (fun _ a b => a ^^^ b) f s)
def execAndnImm (f : IForm) (s : State) : Out := .next (logicImm andNot f s)

/-- LUT3's bit by bit table: bit 4a + 2b + d (R136). -/
def lut3 (table w a b d : Nat) : Nat :=
  ((List.range w).map fun i =>
    (table >>> (4 * (a >>> i % 2) + 2 * (b >>> i % 2) + d >>> i % 2)) % 2 * 2 ^ i).sum

/-- LUT3 (R136). -/
def execLut3 (table : BitVec 8) (f : RForm) (s : State) : Out :=
  .next (alu f.x f.d [rA f, rB f, rD f] (fun l => lut3 table.toNat f.d.bits (arg l 0) (arg l 1) (arg l 2)) s)

/-- The shifts of R137 on w bits by k: 0 left, 1 right, 2 arithmetic right, 3 rotate left by k mod w. -/
def shiftBits (op w a k : Nat) : Nat :=
  match op with
  | 0 => if k ≥ w then 0 else a * 2 ^ k % 2 ^ w
  | 1 => if k ≥ w then 0 else a % 2 ^ w / 2 ^ k
  | 2 => wrapTo w (toSigned w a / 2 ^ min k (w - 1))
  | _ => let r := k % w; (a % 2 ^ w * 2 ^ r + a % 2 ^ w / 2 ^ (w - r)) % 2 ^ w

/-- A source of a shift extended to D's width: SAR sign-extends (R137). -/
def shiftSrc (op wa w a : Nat) : Nat := wrapTo w (fitSrc (op != 2) wa w a)

def shiftWord (op : Nat) (f : RForm) (s : State) : State :=
  let w := f.d.bits
  alu f.x f.d [rA f, rB f] (fun l => shiftBits op w (shiftSrc op f.a.bits w (arg l 0)) (arg l 1)) s
def shiftImm (op : Nat) (f : IForm) (s : State) : State :=
  let w := f.d.bits
  alu f.x f.d [iA f] (fun l => shiftBits op w (shiftSrc op f.a.bits w (arg l 0)) (f.imm.toNat % 64)) s

/-- SHL, SHR, SAR, ROT (R137). -/
def execShl (f : RForm) (s : State) : Out := .next (shiftWord 0 f s)
def execShr (f : RForm) (s : State) : Out := .next (shiftWord 1 f s)
def execSar (f : RForm) (s : State) : Out := .next (shiftWord 2 f s)
def execRot (f : RForm) (s : State) : Out := .next (shiftWord 3 f s)
def execShlImm (f : IForm) (s : State) : Out := .next (shiftImm 0 f s)
def execShrImm (f : IForm) (s : State) : Out := .next (shiftImm 1 f s)
def execSarImm (f : IForm) (s : State) : Out := .next (shiftImm 2 f s)
def execRotImm (f : IForm) (s : State) : Out := .next (shiftImm 3 f s)

/-! ### Bitfields and bit counts (R138, R139) -/

/-- Position and length of a field descriptor: a length above 64 is taken as 64 (R138). -/
def fieldPos (b : Nat) : Nat := b % 256
def fieldLen (b : Nat) : Nat := min 64 (b / 256 % 256)

/-- BFX: bits [p+n−1:p] of A extended to 64 bits, then from bit n − 1, fitted to D (R138). -/
def bfxBits (z : Bool) (wa W a b : Nat) : Nat :=
  let p := fieldPos b
  let n := fieldLen b
  if n = 0 then 0
  else
    let v : Int := fitSrc z wa 64 a / 2 ^ p % 2 ^ n
    wrapTo W (if z then v else toSigned n v.toNat)

/-- BFI: the low n bits of A at bits [p+n−1:p] of a zero word of W bits (R138). -/
def bfiBits (W a b : Nat) : Nat := a % 2 ^ fieldLen b * 2 ^ fieldPos b % 2 ^ W

/-- BFX (R138). -/
def execBfx (sg : Bool) (f : RForm) (s : State) : Out :=
  .next (alu f.x f.d [rA f, rB f] (fun l => bfxBits sg f.a.bits f.d.bits (arg l 0) (arg l 1)) s)
/-- BFI (R138). -/
def execBfi (f : RForm) (s : State) : Out :=
  .next (alu f.x f.d [rA f, rB f] (fun l => bfiBits f.d.bits (arg l 0) (arg l 1)) s)

/-- Ones, leading zeros, trailing zeros and reversal of a w-bit value (R139). -/
def popBits (w a : Nat) : Nat := ((List.range w).map fun i => a >>> i % 2).sum
def clzBits : Nat → Nat → Nat
  | 0, _ => 0
  | w + 1, a => if a >>> w % 2 = 1 then 0 else 1 + clzBits w a
def ctzBits : Nat → Nat → Nat
  | 0, _ => 0
  | w + 1, a => if a % 2 = 1 then 0 else 1 + ctzBits w (a / 2)
def revBits (w a : Nat) : Nat := ((List.range w).map fun i => a >>> i % 2 * 2 ^ (w - 1 - i)).sum

def count1 (g : Nat → Nat → Nat) (f : RForm) (s : State) : State :=
  alu f.x f.d [rA f] (fun l => g f.a.bits (arg l 0) % 2 ^ f.d.bits) s

/-- POPC, CLZ, CTZ, BREV (R139). -/
def execPopc (f : RForm) (s : State) : Out := .next (count1 popBits f s)
def execClz (f : RForm) (s : State) : Out := .next (count1 clzBits f s)
def execCtz (f : RForm) (s : State) : Out := .next (count1 ctzBits f s)
def execBrev (f : RForm) (s : State) : Out := .next (count1 revBits f s)

/-! ### Compare, select, move (R140 to R143, R118) -/

/-- ICMP (R140). -/
def execIcmp (sg : Bool) (cond : BitVec 3) (f : RForm) (s : State) : Out :=
  let w := max f.a.bits f.b.bits
  .next (predWord f.x f.d [rA f, rB f] (fun l =>
    condHolds cond.toNat (fitSrc sg f.a.bits w (arg l 0)) (fitSrc sg f.b.bits w (arg l 1))) s)

/-- ICMP with an immediate (R140). -/
def execIcmpImm (sg : Bool) (cond : BitVec 3) (f : IForm) (s : State) : Out :=
  let w := f.a.bits
  .next (predWord f.x f.d [iA f] (fun l => condHolds cond.toNat (fitSrc sg w w (arg l 0)) (immAt sg w f)) s)

/-- ISEL (R141): both sources are always read; the selector is the acting thread's predicate. -/
def iselOp (neg : Bool) (sel : BitVec 3) (f : RForm) : WordOp (Bool × List Val) Val :=
  let o := aluOp f.d [rA f, rB f] none (fun _ => .val 0)
  { rdBusy := o.rdBusy, wrBusy := o.wrBusy, put := o.put, sdc := o.sdc
    rd := fun s acts t => let r := readSrcs acts t [rA f, rB f] s; (r.1, ((s.thr t).pred sel.toNat != neg, r.2))
    eff := fun s t _ v => settleRes s t (fun l => .val ((if v.1 then arg l 0 else arg l 1) % 2 ^ f.d.bits)) v.2 }

def execIsel (neg : Bool) (sel : BitVec 3) (f : RForm) (s : State) : Out :=
  .next (runWord {} f.x ((rA f).endc || (rB f).endc) (1 + crossCost [rA f, rB f]) (iselOp neg sel f) s)

/-- MOV.z and MOV.s (R142). -/
def execMovZ (f : RForm) (s : State) : Out := .next (alu f.x f.d [rA f] (fun l => arg l 0 % 2 ^ f.d.bits) s)
def execMovS (f : RForm) (s : State) : Out :=
  .next (alu f.x f.d [rA f] (fun l => wrapTo f.d.bits (toSigned f.a.bits (arg l 0))) s)

/-- MOVX (R118): the slices from the index A on, D wide; the range waits, and costs, as an ordinary operand does. -/
def movxOp (f : RForm) : WordOp Val Val where
  rdBusy s acts t := busySrcs [rA f] s acts t ||
    match (rA f).peek s acts t with
    | .val (.ok k) => (s.thr t).pending k f.d.slices
    | _ => false
  wrBusy s t := (s.thr t).pending f.d.start.toNat f.d.slices
  rd s acts t :=
    let r := (rA f).read s acts t
    match r.2 with
    | .bad k => (r.1, .bad k)
    | .ok k => settle r.1 t ((r.1.thr t).peek k f.d.slices)
  eff s _ _ v := (s, v)
  put s ts v := putAll s s.cur.addr f.d.start.toNat f.d.slices v none ts
  extra s acts t := match (rA f).peek s acts t with
    | .val (.ok k) => crosses k f.d.slices
    | _ => 0
  sdc := sdcInto f.d

def execMovx (f : RForm) (s : State) : Out := .next (runWord {} f.x (rA f).endc (1 + crossCost [rA f]) (movxOp f) s)

/-- A value with the tags of the granules it is read from, moved as MOVXW moves it: its token poisons the range (R118, R199). The
range waits in every thread that it is written in (R96, R115). -/
def movxwOp (f : RForm) : WordOp (Val × Val) (Val × Val) where
  rdBusy s acts t := busySrcs [rA f, rB f] s acts t ||
    match (rA f).peek s acts t with
    | .val (.ok k) => (if f.x.u then s.cur.pack else [t]).any fun u => (s.thr u).pending k f.b.slices
    | _ => false
  wrBusy _ _ := false
  rd s acts t :=
    let a := (rA f).read s acts t
    match a.2 with
    | .bad k => (a.1, (.bad k, .ok 0))
    | .ok k => let b := (rB f).read a.1 acts t; (b.1, (.ok k, b.2))
  eff s _ _ v := (s, v)
  put s ts v := match v.1 with
    | .bad k => recordAll s ts k
    | .ok k => putAll s s.cur.addr k f.b.slices v.2 none ts

def execMovxw (f : RForm) (s : State) : Out :=
  .next (runWord {} f.x ((rA f).endc || (rB f).endc) (1 + crossCost [rA f, rB f]) (movxwOp f) s)

/-- MOVI (R142): z zero-extends. -/
def execMovi (z : Bool) (f : IForm) (s : State) : Out :=
  .next (alu f.x f.d [] (fun _ => if z then f.imm.toNat % 2 ^ f.d.bits else wrapTo f.d.bits (toSigned 20 f.imm.toNat)) s)

/-- MOVH (R142): five slices from slice 5 or 10 of D, or its last; the rest of D is untouched. -/
def movhSpan (pos : BitVec 2) : Nat × Nat := if pos = 0 then (5, 5) else if pos = 1 then (10, 5) else (15, 1)

/-- D lies wholly inside the allocation or the write is dropped (R110). -/
def movhOp (pos : BitVec 2) (f : IForm) : WordOp Unit Nat where
  rdBusy _ _ _ := false
  wrBusy s t := (s.thr t).pending f.d.start.toNat f.d.slices
  rd s _ _ := (s, ())
  eff s _ _ _ := (s, f.imm.toNat)
  put s ts v :=
    let lo := f.d.start.toNat
    let fits := fun (t : Tid) => decide (lo + 16 ≤ (s.thr t).alloc)
    putAll (putAll s s.cur.addr lo 16 (.ok v) none (ts.filter fun t => !fits t)) s.cur.addr (lo + (movhSpan pos).1) (movhSpan pos).2
      (.ok v) none (ts.filter fits)
  sdc := sdcInto f.d

def execMovh (pos : BitVec 2) (f : IForm) (s : State) : Out := .next (runWord {} f.x false 1 (movhOp pos f) s)

/-- Element k of e bits. -/
def elem (e k v : Nat) : Nat := v / 2 ^ (e * k) % 2 ^ e

/-- m elements of e bits, element k by `g k`. -/
def elems (e m : Nat) (g : Nat → Nat) : Nat := ((List.range m).map fun k => g k % 2 ^ e * 2 ^ (e * k)).sum

/-- PACK (R143): the low halves of A's then B's elements of 2 × ew bits. -/
def packBits (e W a b : Nat) : Nat :=
  let m := W / e
  elems e m fun k => if k < m / 2 then elem (2 * e) k a else elem (2 * e) (k - m / 2) b
def execPack (ew : BitVec 2) (f : RForm) (s : State) : Out :=
  .next (alu f.x f.d [rA f, rB f] (fun l => packBits (ewBits ew) f.d.bits (arg l 0 % 2 ^ f.d.bits) (arg l 1 % 2 ^ f.d.bits)) s)

/-- UNPK (R143): elements of ew bits zero-extended to 2 × ew. -/
def unpkBits (e W a : Nat) : Nat := elems (2 * e) (W / (2 * e)) fun k => elem e k a
def execUnpk (ew : BitVec 2) (f : RForm) (s : State) : Out :=
  .next (alu f.x f.d [rA f] (fun l => unpkBits (ewBits ew) f.d.bits (arg l 0)) s)

/-! ### Packed narrow arithmetic (R144, R145) -/

/-- An element read by sg. -/
def elemInt (z : Bool) (e k v : Nat) : Int := if z then (elem e k v : Int) else toSigned e (elem e k v)

/-- An element result: clamped with .sat, else its low ew bits (R144). -/
def elemRes (z sat : Bool) (e : Nat) (r : Int) : Nat := if sat then satRes z e r else wrapTo e r

def packed2 (z : Bool) (ew : BitVec 2) (sat : Bool) (g : Int → Int → Int) (f : RForm) (s : State) : State :=
  let e := ewBits ew
  let W := f.d.bits
  alu f.x f.d [rA f, rB f] (fun l => elems e (W / e) fun k =>
    elemRes z sat e (g (elemInt z e k (arg l 0 % 2 ^ W)) (elemInt z e k (arg l 1 % 2 ^ W)))) s

/-- PADD, PSUB, PMIN, PMAX, PABS (R144). -/
def execPadd (sg : Bool) (ew : BitVec 2) (sat : Bool) (f : RForm) (s : State) : Out := .next (packed2 sg ew sat (· + ·) f s)
def execPsub (sg : Bool) (ew : BitVec 2) (sat : Bool) (f : RForm) (s : State) : Out := .next (packed2 sg ew sat (· - ·) f s)
def execPmin (sg : Bool) (ew : BitVec 2) (f : RForm) (s : State) : Out := .next (packed2 sg ew false min f s)
def execPmax (sg : Bool) (ew : BitVec 2) (f : RForm) (s : State) : Out := .next (packed2 sg ew false max f s)
def execPabs (ew : BitVec 2) (f : RForm) (s : State) : Out :=
  let e := ewBits ew
  .next (alu f.x f.d [rA f] (fun l => elems e (f.d.bits / e) fun k => wrapTo e |elemInt false e k (arg l 0)|) s)

/-- PCMP (R144): all ones where the condition holds. -/
def execPcmp (sg : Bool) (ew : BitVec 2) (cond : BitVec 3) (f : RForm) (s : State) : Out :=
  let e := ewBits ew
  let W := f.d.bits
  .next (alu f.x f.d [rA f, rB f] (fun l => elems e (W / e) fun k =>
    if condHolds cond.toNat (elemInt sg e k (arg l 0 % 2 ^ W)) (elemInt sg e k (arg l 1 % 2 ^ W)) then 2 ^ e - 1 else 0) s)

/-- d + Σ a_k × b_k over m elements (R145). -/
def dotInt (z : Bool) (e m a b : Nat) (d : Int) : Int :=
  d + ((List.range m).map fun k => elemInt z e k a * elemInt z e k b).sum

/-- PDOT (R145). -/
def execPdot (sg : Bool) (ew : BitVec 2) (f : RForm) (s : State) : Out :=
  let e := ewBits ew
  let W := f.d.bits
  .next (aluWord f.x f.d [rA f, rB f, rD f] (if f.a.bits > 32 then 2 else 1) none (fun l =>
    .val (wrapTo W (dotInt sg e (f.a.bits / e) (arg l 0) (arg l 1 % 2 ^ f.a.bits) (fitSrc sg W W (arg l 2))))) s)

end Sys2Proof.Machine
end

