-- ==== Sys2Proof/Machine/Fp.lean ====
section
/-! DEFINITION. Number formats and rounding: IEEE binary64, binary32, binary16 and the binary8 family (R160 to R169, R177). -/

namespace Sys2Proof.Machine

/-- A decoded number: NaN (signalling or quiet), infinity, or ±m × 2^e. -/
inductive Fv where
  | nan (sig : Bool)
  | inf (neg : Bool)
  | fin (neg : Bool) (m : Nat) (e : Int)
  deriving DecidableEq, Repr

/-- An IEEE format: fraction bits and exponent bits (R160). -/
structure Fmt where
  fb : Nat
  eb : Nat
  deriving DecidableEq, Repr

def fmtOf (t : BitVec 2) : Fmt := if t = 0 then ⟨52, 11⟩ else if t = 1 then ⟨23, 8⟩ else ⟨10, 5⟩
def f64 : Fmt := ⟨52, 11⟩
def f32 : Fmt := ⟨23, 8⟩
def f16 : Fmt := ⟨10, 5⟩

namespace Fmt
def bits (f : Fmt) : Nat := f.fb + f.eb + 1
def bias (f : Fmt) : Int := 2 ^ (f.eb - 1) - 1
def emax (f : Fmt) : Nat := 2 ^ f.eb - 1
/-- Exponent of the smallest quantum. -/
def qmin (f : Fmt) : Int := 1 - f.bias - f.fb
def sgn (f : Fmt) (neg : Bool) : Nat := if neg then 2 ^ (f.fb + f.eb) else 0
def infBits (f : Fmt) (neg : Bool) : Nat := f.sgn neg + f.emax * 2 ^ f.fb
def maxBits (f : Fmt) (neg : Bool) : Nat := f.infBits neg - 1
/-- The default NaN (R160). -/
def nanBits (f : Fmt) : Nat := f.infBits false + 2 ^ (f.fb - 1)

/-- The number that a format's bits stand for. -/
def decode (f : Fmt) (v : Nat) : Fv :=
  let neg := v / 2 ^ (f.fb + f.eb) % 2 == 1
  let ex := v / 2 ^ f.fb % 2 ^ f.eb
  let fr := v % 2 ^ f.fb
  if ex = f.emax then (if fr = 0 then .inf neg else .nan (decide (fr < 2 ^ (f.fb - 1))))
  else if ex = 0 then .fin neg fr f.qmin
  else .fin neg (2 ^ f.fb + fr) (f.qmin + ex - 1)
end Fmt

/-- Bits of a number. -/
def bitLen (m : Nat) : Nat := if m = 0 then 0 else Nat.log2 m + 1

/-- Whether a magnitude rounds up (R161): rnd 0 RNE, 1 RTZ, 2 RUP, 3 RDN; `r` twice the remainder against `h` the quantum,
`st` a sticky remainder below it, `odd` whether the tie must leave the lower neighbour. -/
def roundsUp (rnd : BitVec 2) (neg odd st : Bool) (r h : Nat) : Bool :=
  if rnd = 0 then decide (r > h) || (r == h && (st || odd))
  else if rnd = 1 then false
  else if rnd = 2 then !neg && (r != 0 || st)
  else neg && (r != 0 || st)

/-- A magnitude m × 2^e (plus a sticky remainder below m's last bit) rounded to precision p with quanta no smaller than
2^qmin: the rounded integer and its quantum. `oddAt` gives the parity that a tie looks at (R161, R167). -/
def roundMag (p : Nat) (qmin : Int) (rnd : BitVec 2) (neg : Bool) (oddAt : Nat → Int → Bool) (m : Nat) (e : Int) (st : Bool) : Nat × Int :=
  let q := max (e + bitLen m - p) qmin
  if q ≤ e then (m * 2 ^ (e - q).toNat, q)
  else
    let sh := (q - e).toNat
    let b := m / 2 ^ sh
    let b := if roundsUp rnd neg (oddAt b q) st (2 * (m % 2 ^ sh)) (2 ^ sh) then b + 1 else b
    if bitLen b > p then (b / 2, q + 1) else (b, q)

/-- The result of an overflow (R161). -/
def overflowBits (f : Fmt) (rnd : BitVec 2) (sat neg : Bool) : Nat :=
  if sat || rnd = 1 || (rnd = 2 && neg) || (rnd = 3 && !neg) then f.maxBits neg else f.infBits neg

/-- An exact finite value (with sticky remainder) rounded once to a format (R161). -/
def roundFmt (f : Fmt) (rnd : BitVec 2) (sat neg : Bool) (m : Nat) (e : Int) (st : Bool := false) : Nat :=
  let r := roundMag (f.fb + 1) f.qmin rnd neg (fun b _ => b % 2 == 1) m e st
  if r.1 < 2 ^ f.fb then f.sgn neg + r.1
  else
    let ex := (r.2 - f.qmin + 1).toNat
    if ex ≥ f.emax then overflowBits f rnd sat neg
    else f.sgn neg + ex * 2 ^ f.fb + (r.1 - 2 ^ f.fb)

/-- A signed infinite result, the largest finite value under .sat (R161). -/
def infRes (f : Fmt) (sat neg : Bool) : Nat := if sat then f.maxBits neg else f.infBits neg

/-- An invalid operation: the default NaN, or poison INV under .px (R162). -/
def invalidRes (f : Fmt) (px : Bool) : Res := if px then .inv cINV else .val f.nanBits

/-- Whether an operand is a signalling or a quiet NaN. -/
def Fv.isSig : Fv → Bool
  | .nan s => s
  | _ => false
def Fv.isNan : Fv → Bool
  | .nan _ => true
  | _ => false

/-- NaN operands decide first (R162): a signalling one is invalid, a quiet one gives the default NaN. -/
def withNans (f : Fmt) (px : Bool) (vs : List Fv) (g : Unit → Res) : Res :=
  if vs.any Fv.isSig then invalidRes f px
  else if vs.any Fv.isNan then .val f.nanBits
  else g ()

/-- A signed magnitude as an integer at quantum 2^q. -/
def atQ (neg : Bool) (m : Nat) (e q : Int) : Int := let v : Int := m * 2 ^ (e - q).toNat; if neg then -v else v

/-- The exact sum of two finite numbers rounded once; an exact zero is +0 but under RDN, unless both are −0 (R173). -/
def addFin (f : Fmt) (rnd : BitVec 2) (sat : Bool) (na : Bool) (ma : Nat) (ea : Int) (nb : Bool) (mb : Nat) (eb : Int) : Nat :=
  let q := min ea eb
  let z := atQ na ma ea q + atQ nb mb eb q
  if z = 0 then
    f.sgn (if ma = 0 && mb = 0 && na == nb then na else rnd == 3)
  else roundFmt f rnd sat (decide (z < 0)) z.natAbs q

/-- a + b for numbers (R173). -/
def fpAdd (f : Fmt) (rnd : BitVec 2) (sat px : Bool) (a b : Fv) : Res :=
  withNans f px [a, b] fun _ => match a, b with
    | .inf x, .inf y => if x == y then .val (infRes f sat x) else invalidRes f px
    | .inf x, _ => .val (infRes f sat x)
    | _, .inf y => .val (infRes f sat y)
    | .fin na ma ea, .fin nb mb eb => .val (addFin f rnd sat na ma ea nb mb eb)
    | _, _ => .val f.nanBits

/-- The negation of a number, for a − b. -/
def Fv.negate : Fv → Fv
  | .nan s => .nan s
  | .inf n => .inf !n
  | .fin n m e => .fin (!n) m e

/-- a × b (R173). -/
def fpMul (f : Fmt) (rnd : BitVec 2) (sat px : Bool) (a b : Fv) : Res :=
  withNans f px [a, b] fun _ => match a, b with
    | .inf x, .inf y => .val (infRes f sat (x != y))
    | .inf x, .fin n m _ => if m = 0 then invalidRes f px else .val (infRes f sat (x != n))
    | .fin n m _, .inf x => if m = 0 then invalidRes f px else .val (infRes f sat (x != n))
    | .fin na ma ea, .fin nb mb eb => .val (roundFmt f rnd sat (na != nb) (ma * mb) (ea + eb))
    | _, _ => .val f.nanBits

/-- a × b + d, the product unrounded (R173). -/
def fpFma (f : Fmt) (rnd : BitVec 2) (sat px : Bool) (a b d : Fv) : Res :=
  withNans f px [a, b, d] fun _ =>
    let infTimes := fun (n : Bool) => match d with
      | .inf y => if n == y then Res.val (infRes f sat n) else invalidRes f px
      | _ => .val (infRes f sat n)
    match a, b with
    | .inf x, .inf y => infTimes (x != y)
    | .inf x, .fin n m _ => if m = 0 then invalidRes f px else infTimes (x != n)
    | .fin n m _, .inf x => if m = 0 then invalidRes f px else infTimes (x != n)
    | .fin na ma ea, .fin nb mb eb => match d with
      | .inf y => .val (infRes f sat y)
      | .fin nd md ed => .val (addFin f rnd sat (na != nb) (ma * mb) (ea + eb) nd md ed)
      | .nan _ => .val f.nanBits
    | _, _ => .val f.nanBits

/-- A quotient m ÷ n × 2^e with at least p + 3 bits, and its sticky remainder. -/
def quoBits (p m n : Nat) : Nat × Int × Bool :=
  let k := p + 3 + bitLen n
  (m * 2 ^ k / n, -(k : Int), m * 2 ^ k % n != 0)

/-- a ÷ b (R176). -/
def fpDiv (f : Fmt) (rnd : BitVec 2) (sat px : Bool) (a b : Fv) : Res :=
  withNans f px [a, b] fun _ => match a, b with
    | .inf _, .inf _ => invalidRes f px
    | .inf x, .fin n _ _ => .val (infRes f sat (x != n))
    | .fin n _ _, .inf x => .val (f.sgn (n != x))
    | .fin na ma ea, .fin nb mb eb =>
      if mb = 0 then (if ma = 0 then invalidRes f px else .val (infRes f sat (na != nb)))
      else
        let q := quoBits (f.fb + 1) ma mb
        .val (roundFmt f rnd sat (na != nb) q.1 (q.2.1 + ea - eb) q.2.2)
    | _, _ => .val f.nanBits

/-- floor(√n), bit by bit from bit k. -/
def isqrt (n : Nat) : Nat → Nat → Nat
  | 0, r => r
  | k + 1, r => if (r + 2 ^ k) * (r + 2 ^ k) ≤ n then isqrt n k (r + 2 ^ k) else isqrt n k r

/-- √(m × 2^e) as bits, exponent and sticky remainder, with about p + 8 bits. -/
def sqrtBits (p m : Nat) (e : Int) : Nat × Int × Bool :=
  let k := 2 * (p + 8)
  let odd := if (e - k) % 2 = 0 then k else k + 1
  let n := m * 2 ^ odd
  let r := isqrt n ((bitLen n + 1) / 2 + 1) 0
  (r, (e - odd) / 2, r * r != n)

/-- √a (R176). -/
def fpSqrt (f : Fmt) (rnd : BitVec 2) (sat px : Bool) (a : Fv) : Res :=
  withNans f px [a] fun _ => match a with
    | .inf n => if n then invalidRes f px else .val (infRes f sat false)
    | .fin n m e =>
      if m = 0 then .val (f.sgn n)
      else if n then invalidRes f px
      else let q := sqrtBits (f.fb + 1) m e; .val (roundFmt f rnd sat false q.1 q.2.1 q.2.2)
    | .nan _ => .val f.nanBits

/-- Order of finite magnitudes and of numbers; −0 equals +0 here (R179). -/
def fvLe (a b : Fv) : Bool :=
  match a, b with
  | .nan _, _ | _, .nan _ => false
  | .inf true, _ => true
  | _, .inf false => true
  | .inf false, _ => false
  | _, .inf true => false
  | .fin na ma ea, .fin nb mb eb => let q := min ea eb; decide (atQ na ma ea q ≤ atQ nb mb eb q)

def Fv.neg : Fv → Bool
  | .nan _ => false
  | .inf n => n
  | .fin n _ _ => n

/-- minimumNumber and maximumNumber on the operands' own bits (R174). -/
def fpMinMax (f : Fmt) (isMax px : Bool) (a b : Nat) : Res :=
  let x := f.decode a
  let y := f.decode b
  if x.isSig || y.isSig then invalidRes f px
  else if x.isNan && y.isNan then .val f.nanBits
  else if x.isNan then .val b
  else if y.isNan then .val a
  else
    let lt := (fvLe x y && !fvLe y x) || (fvLe x y && fvLe y x && x.neg && !y.neg)
    .val (if lt != isMax then a else b)

/-- A quantity known between m × 2^e and (m + w) × 2^e, for the functions of R177. -/
structure Near where
  m : Nat
  e : Int
  w : Nat
  neg : Bool := false
  deriving DecidableEq, Repr

/-- The positive finite value of a code of f (sign bit clear) as an integer at quantum 2^q (q ≤ f.qmin). -/
def codeAt (f : Fmt) (c : Nat) (q : Int) : Nat :=
  match f.decode c with
  | .fin _ m e => m * 2 ^ (e - q).toNat
  | _ => 2 ^ (f.emax + (f.qmin - q).toNat)

/-- The codes that R177 allows for a quantity: under RNE within `bound` ulp; else on the stated side and within twice that.
The ulp is that of the two values that bracket the quantity. A code counts only where it is within the bound wherever the quantity lies. -/
def allowedCodes (f : Fmt) (rnd : BitVec 2) (bound : Nat) (x : Near) : List Nat :=
  let q := min x.e f.qmin
  let lo := x.m * 2 ^ (x.e - q).toNat
  let hi := lo + x.w * 2 ^ (x.e - q).toNat
  let c := roundFmt f 1 true false x.m x.e true
  let u := codeAt f (c + 1) q - codeAt f c q
  let down := rnd = 1 || (rnd = 3 && !x.neg) || (rnd = 2 && x.neg)
  let ok := fun d =>
    let v := codeAt f d q
    let near := fun b => decide (v ≤ lo + b * u) && decide (hi ≤ v + b * u)
    if rnd = 0 then near bound
    else if down then near (2 * bound) && decide (v ≤ lo)
    else near (2 * bound) && decide (hi ≤ v)
  ((List.range (8 * bound + 8)).map fun i => c + i - (4 * bound + 3)).filter fun d => decide (d < f.emax * 2 ^ f.fb) && ok d

/-- One of the results that R177 allows: which one is the machine's, the same for the same operand everywhere. An overflow, and a quantity
below the least subnormal, give the result of R161. -/
def approxCode (op : Nat) (f : Fmt) (rnd : BitVec 2) (sat : Bool) (bound a : Nat) (x : Near) : Nat :=
  let cs := allowedCodes f rnd bound x
  if codeAt f (f.maxBits false) (min x.e f.qmin) < x.m * 2 ^ (x.e - min x.e f.qmin).toNat then
    roundFmt f rnd sat x.neg x.m x.e true
  else if (x.m + x.w) * 2 ^ (x.e - min x.e f.qmin).toNat ≤ codeAt f 1 (min x.e f.qmin) then
    roundFmt f rnd sat x.neg x.m x.e true
  else f.sgn x.neg + cs.getD (Config.approxPick (op * 16 + rnd.toNat * 4 + f.eb) a % cs.length) (roundFmt f rnd sat false x.m x.e true)

/-- FRCP (R177). -/
def fpRcp (f : Fmt) (rnd : BitVec 2) (sat px : Bool) (v : Nat) : Res :=
  withNans f px [f.decode v] fun _ => match f.decode v with
    | .inf n => .val (f.sgn n)
    | .fin n m e =>
      if m = 0 then .val (infRes f sat n)
      else
        let q := quoBits (f.fb + 24) 1 m
        if f.fb = 10 || !q.2.2 then .val (roundFmt f rnd sat n q.1 (q.2.1 - e) q.2.2)
        else .val (approxCode 0 f rnd sat 1 v ⟨q.1, q.2.1 - e, 1, n⟩)
    | .nan _ => .val f.nanBits

/-- FRSQ (R177): 1 ÷ √a as √(2^2k ÷ m). -/
def fpRsq (f : Fmt) (rnd : BitVec 2) (sat px : Bool) (v : Nat) : Res :=
  withNans f px [f.decode v] fun _ => match f.decode v with
    | .inf n => if n then invalidRes f px else .val 0
    | .fin n m e =>
      if m = 0 then .val (infRes f sat n)
      else if n then invalidRes f px
      else
        let me := if e % 2 = 0 then (m, e) else (2 * m, e - 1)
        let k := 2 * (f.fb + 40) + bitLen me.1
        let k := k + k % 2
        let d := 2 ^ k / me.1
        let r := isqrt d (k / 2 + 2) 0
        let exact := r * r * me.1 == 2 ^ k
        let ex := -((k : Int) / 2) - me.2 / 2
        if f.fb = 10 || exact then .val (roundFmt f rnd sat false r ex (!exact))
        else .val (approxCode 1 f rnd sat 2 v ⟨r, ex, 1, false⟩)
    | .nan _ => .val f.nanBits

/-- 2^(fraction) from the fraction's bits, highest first: `s` is 2^(2^−i) and `acc` the product, both at 2^−120. -/
def exp2Bits : Nat → Nat → Nat → Nat → Nat
  | 0, _, _, acc => acc
  | n + 1, fr, s, acc =>
    let s := isqrt (s * 2 ^ 120) 122 0
    exp2Bits n fr s (if fr / 2 ^ n % 2 = 1 then acc * s / 2 ^ 120 else acc)

/-- FEXP2 (R177). -/
def fpExp2 (f : Fmt) (rnd : BitVec 2) (sat px : Bool) (v : Nat) : Res :=
  withNans f px [f.decode v] fun _ => match f.decode v with
    | .inf n => .val (if n then 0 else infRes f sat false)
    | .fin n m e =>
      -- the operand as an integer count of 2^−120, floored, and whether anything lies below it
      let big := e + bitLen m > 16
      if m = 0 then .val (roundFmt f rnd sat false 1 0)
      else if big then .val (if n then roundFmt f rnd sat false 1 (f.qmin - 8) else roundFmt f rnd sat false 1 (2 ^ f.eb))
      else
        let sc : Int := if n then -(m : Int) else m
        let fx := if e ≥ -120 then sc * 2 ^ (e + 120).toNat else sc / 2 ^ (-120 - e).toNat
        let exact := e ≥ -120 && fx % 2 ^ 120 == 0
        let k := fx / 2 ^ 120
        let m := exp2Bits 120 (fx % 2 ^ 120).toNat (2 ^ 121) (2 ^ 120)
        if exact then .val (roundFmt f rnd sat false 1 k)
        else .val (approxCode 2 f rnd sat (if f.fb = 10 then 1 else 2) v
          ⟨m, k - 120, min 1024 (2 ^ 121 - m), false⟩)
    | .nan _ => .val f.nanBits

/-- log2 of y in [1, 2), y at 2^−340: n bits of the fraction, highest first. -/
def log2Bits : Nat → Nat → Nat → Nat
  | 0, _, acc => acc
  | n + 1, y, acc =>
    let y := y * y / 2 ^ 340
    if y ≥ 2 ^ 341 then log2Bits n (y / 2) (2 * acc + 1) else log2Bits n y (2 * acc)

/-- FLOG2 (R177). -/
def fpLog2 (f : Fmt) (rnd : BitVec 2) (sat px : Bool) (v : Nat) : Res :=
  withNans f px [f.decode v] fun _ => match f.decode v with
    | .inf n => if n then invalidRes f px else .val (infRes f sat false)
    | .fin n m e =>
      if m = 0 then .val (infRes f sat true)
      else if n then invalidRes f px
      else
        let k : Int := e + bitLen m - 1
        let y := m * 2 ^ 340 / 2 ^ (bitLen m - 1)
        if y = 2 ^ 340 then .val (roundFmt f rnd sat (decide (k < 0)) k.natAbs 0)
        else
          let z : Int := k * 2 ^ 160 + log2Bits 160 y 0
          let neg := decide (z < 0)
          .val (approxCode 3 f rnd sat (if f.fb = 10 then 1 else 2) v ⟨if neg then z.natAbs - 1 else z.natAbs, -160, 2, neg⟩)
    | .nan _ => .val f.nanBits

/-! ### binary8 (R163 to R168) -/

/-- A binary8 format: precision, unsigned, finite (R163). -/
structure B8 where
  p : Nat
  uns : Bool
  finite : Bool
  deriving DecidableEq, Repr

def b8Of (bp : BitVec 4) (uns : Bool) : B8 := ⟨bp.toNat % 8, uns, bp.getLsbD 3⟩

namespace B8
def ebits (f : B8) : Nat := if f.uns then 9 - f.p else 8 - f.p
def bias (f : B8) : Int := 2 ^ (f.ebits - 1)
def qmin (f : B8) : Int := 1 - f.bias - (f.p - 1 : Nat)
def nanCode (f : B8) : Nat := if f.uns then 0xFF else 0x80
/-- The magnitude code of M, the largest finite value (R164, R165). -/
def maxCode (f : B8) : Nat := if f.uns then (if f.finite then 0xFE else 0xFD) else (if f.finite then 0x7F else 0x7E)
def sgn (f : B8) (neg : Bool) : Nat := if neg && !f.uns then 0x80 else 0
/-- The infinity code of a sign, NaN in a finite domain. -/
def infCode (f : B8) (neg : Bool) : Nat := if f.finite then f.nanCode else f.sgn neg + f.maxCode + 1

/-- The value of a code (R164). -/
def decode (f : B8) (c : Nat) : Fv :=
  if c = f.nanCode then .nan false
  else
    let neg := !f.uns && decide (c ≥ 0x80)
    let mag := if f.uns then c else c % 0x80
    if !f.finite && mag == f.maxCode + 1 then .inf neg
    else
      let ex := mag / 2 ^ (f.p - 1)
      let t := mag % 2 ^ (f.p - 1)
      if ex = 0 then .fin neg t f.qmin else .fin neg (2 ^ (f.p - 1) + t) (f.qmin + ex - 1)

/-- RoundB8 of an exact finite value (R167). -/
def roundFin (f : B8) (rnd : BitVec 2) (sat neg : Bool) (m : Nat) (e : Int) : Nat :=
  if f.uns && neg && m != 0 then (if sat then 0 else f.nanCode)
  else
    let odd := fun (b : Nat) (q : Int) => if f.p = 1 && b = 1 then (q + f.bias) % 2 == 1 else b % 2 == 1
    let r := roundMag f.p f.qmin rnd neg odd m e false
    let c := if r.1 < 2 ^ (f.p - 1) then r.1 else (r.2 - f.qmin + 1).toNat * 2 ^ (f.p - 1) + (r.1 - 2 ^ (f.p - 1))
    if r.1 = 0 then 0
    else if c > f.maxCode then
      (if sat || rnd = 1 || (rnd = 2 && neg) || (rnd = 3 && !neg) then f.sgn neg + f.maxCode else f.infCode neg)
    else f.sgn neg + c

/-- RoundB8 (R167). -/
def round (f : B8) (rnd : BitVec 2) (sat : Bool) (x : Fv) : Nat :=
  match x with
  | .nan _ => f.nanCode
  | .inf neg =>
    if f.uns && neg then (if sat then 0 else f.nanCode)
    else if sat then f.sgn neg + f.maxCode else f.infCode neg
  | .fin neg m e => f.roundFin rnd sat neg m e
end B8

/-- RNE32 of a sum of two binary32 numbers (R168, R277, R324). -/
def rne32Add (a b : Fv) : Nat := match fpAdd f32 0 false false a b with | .val v => v | .inv _ => f32.nanBits

/-- Error-feedback conversion (R168): the code and the new residue. -/
def b8Feedback (f : B8) (rnd : BitVec 2) (sat : Bool) (x res : Nat) : Nat × Nat :=
  let sv := rne32Add (f32.decode x) (f32.decode res)
  let q := f.round rnd sat (f32.decode sv)
  match f32.decode sv, f.decode q with
  | .fin _ _ _, .fin n m e => (q, rne32Add (f32.decode sv) (.fin (!n) m e))
  | _, _ => (q, 0)

/-- A sum of exact products of decoded numbers: the finite part at a common quantum, or what the infinities make of it. -/
inductive Dot where
  | bad
  | inf (neg : Bool)
  | fin (z : Int) (q : Int)
  deriving DecidableEq, Repr

/-- The exact product of two numbers, scaled by 2^k; none for ∞ × 0 or a NaN. -/
def prodFv (a b : Fv) (k : Int) : Option Fv :=
  match a, b with
  | .nan _, _ | _, .nan _ => none
  | .inf x, .inf y => some (.inf (x != y))
  | .inf x, .fin n m _ => if m = 0 then none else some (.inf (x != n))
  | .fin n m _, .inf x => if m = 0 then none else some (.inf (x != n))
  | .fin na ma ea, .fin nb mb eb => some (.fin (na != nb) (ma * mb) (ea + eb + k))

/-- One more product into a sum (R185, R324). -/
def Dot.add (d : Dot) (p : Option Fv) : Dot :=
  match d, p with
  | .bad, _ | _, none | _, some (.nan _) => .bad
  | .inf x, some (.inf y) => if x == y then .inf x else .bad
  | .inf x, some (.fin ..) => .inf x
  | .fin .., some (.inf y) => .inf y
  | .fin z q, some (.fin n m e) =>
    let r := min q e
    .fin (z * 2 ^ (q - r).toNat + atQ n m e r) r

/-- The sum rounded once to binary32; an exact zero is +0 (R185, R324). -/
def Dot.round (d : Dot) (rnd : BitVec 2) : Option Nat :=
  match d with
  | .bad => none
  | .inf n => some (f32.infBits n)
  | .fin z q => if z = 0 then some 0 else some (roundFmt f32 rnd false (decide (z < 0)) z.natAbs q)

end Sys2Proof.Machine
end

