-- ==== Sys2Proof/Machine/Float.lean ====
section
/-! DEFINITION. Group 001: IEEE arithmetic, comparison, conversion, binary8 and packed binary16 (R170 to R186). -/

namespace Sys2Proof.Machine

/-- Cycles until a long result is written, f16, f32, f64 (R172). -/
def fpLat (t : BitVec 2) (h s d : Nat) : Nat := if t = 0 then d else if t = 1 then s else h

/-- ALU cycles of FMUL and FFMA (R172). -/
def fmulCost (t : BitVec 2) : Nat := if t = 0 then 2 else 1

/-- A float entry: sources as bits, one result of the destination's format (R170 to R172). -/
def fpWord (f : RForm) (rs : List Src) (cost : Nat) (lat : Option Nat) (g : List Nat → Res) (s : State) : State :=
  aluWord f.x f.d rs cost lat g s

def fp2 (t : BitVec 2) (f : RForm) (cost : Nat) (lat : Option Nat) (g : Fmt → Fv → Fv → Res) (s : State) : State :=
  let k := fmtOf t
  fpWord f [rA f, rB f] cost lat (fun l => g k (k.decode (arg l 0)) (k.decode (arg l 1))) s

def fp1 (t : BitVec 2) (f : RForm) (lat : Option Nat) (g : Fmt → Nat → Res) (s : State) : State :=
  fpWord f [rA f] 1 lat (fun l => g (fmtOf t) (arg l 0)) s

/-- FADD, FSUB, FMUL, FFMA (R173). -/
def execFadd (t : BitVec 2) (m : FMod) (f : RForm) (s : State) : Out :=
  .next (fp2 t f 1 none (fun k a b => fpAdd k m.rnd m.sat m.px a b) s)
def execFsub (t : BitVec 2) (m : FMod) (f : RForm) (s : State) : Out :=
  .next (fp2 t f 1 none (fun k a b => fpAdd k m.rnd m.sat m.px a b.negate) s)
def execFmul (t : BitVec 2) (m : FMod) (f : RForm) (s : State) : Out :=
  .next (fp2 t f (fmulCost t) none (fun k a b => fpMul k m.rnd m.sat m.px a b) s)
def execFfma (t : BitVec 2) (m : FMod) (f : RForm) (s : State) : Out :=
  let k := fmtOf t
  .next (fpWord f [rA f, rB f, rD f] (fmulCost t) none (fun l =>
    fpFma k m.rnd m.sat m.px (k.decode (arg l 0)) (k.decode (arg l 1)) (k.decode (arg l 2))) s)

/-- FMIN, FMAX (R174). -/
def execFmin (t : BitVec 2) (px : Bool) (f : RForm) (s : State) : Out :=
  .next (fpWord f [rA f, rB f] 1 none (fun l => fpMinMax (fmtOf t) false px (arg l 0) (arg l 1)) s)
def execFmax (t : BitVec 2) (px : Bool) (f : RForm) (s : State) : Out :=
  .next (fpWord f [rA f, rB f] 1 none (fun l => fpMinMax (fmtOf t) true px (arg l 0) (arg l 1)) s)

/-- FABS, FNEG: the sign bit alone (R175). -/
def execFabs (t : BitVec 2) (f : RForm) (s : State) : Out :=
  .next (fp1 t f none (fun k a => .val (a % k.sgn true)) s)
def execFneg (t : BitVec 2) (f : RForm) (s : State) : Out :=
  .next (fp1 t f none (fun k a => .val (a ^^^ k.sgn true)) s)

/-- FDIV, FSQRT (R176). -/
def execFdiv (t : BitVec 2) (m : FMod) (f : RForm) (s : State) : Out :=
  .next (fp2 t f 1 (some (fpLat t 8 12 24)) (fun k a b => fpDiv k m.rnd m.sat m.px a b) s)
def execFsqrt (t : BitVec 2) (m : FMod) (f : RForm) (s : State) : Out :=
  .next (fp1 t f (some (fpLat t 8 12 24)) (fun k a => fpSqrt k m.rnd m.sat m.px (k.decode a)) s)

/-- FRCP, FRSQ, FEXP2, FLOG2 (R177). -/
def execFrcp (t : BitVec 2) (m : FMod) (f : RForm) (s : State) : Out :=
  .next (fp1 t f (some (fpLat t 4 6 14)) (fun k a => fpRcp k m.rnd m.sat m.px a) s)
def execFrsq (t : BitVec 2) (m : FMod) (f : RForm) (s : State) : Out :=
  .next (fp1 t f (some (fpLat t 4 6 14)) (fun k a => fpRsq k m.rnd m.sat m.px a) s)
def execFexp2 (t : BitVec 2) (m : FMod) (f : RForm) (s : State) : Out :=
  .next (fp1 t f (some (fpLat t 4 6 14)) (fun k a => fpExp2 k m.rnd m.sat m.px a) s)
def execFlog2 (t : BitVec 2) (m : FMod) (f : RForm) (s : State) : Out :=
  .next (fp1 t f (some (fpLat t 4 6 14)) (fun k a => fpLog2 k m.rnd m.sat m.px a) s)

/-- a × 2^n (R178); beyond ±5000 every n gives one result in every format. -/
def fpScale (k : Fmt) (m : FMod) (a : Fv) (n : Int) : Res :=
  withNans k m.px [a] fun _ => match a with
    | .inf x => .val (infRes k m.sat x)
    | .fin x v e => .val (roundFmt k m.rnd m.sat x v (e + max (-5000) (min 5000 n)))
    | .nan _ => .val k.nanBits

/-- FSCALE (R178). -/
def execFscale (t : BitVec 2) (m : FMod) (f : RForm) (s : State) : Out :=
  let k := fmtOf t
  .next (fpWord f [rA f, rB f] 1 none (fun l =>
    fpScale k m (k.decode (arg l 0)) (toSigned f.b.bits (arg l 1))) s)

/-- The conditions of FCMP (R179). -/
def fpCond (c : BitVec 3) (a b : Fv) : Bool :=
  if a.isNan || b.isNan then c == 1 || c == 6
  else
    let le := fvLe a b
    let ge := fvLe b a
    match c.toNat with
    | 0 => le && ge
    | 1 => !(le && ge)
    | 2 => !ge
    | 3 => le
    | 4 => !le
    | 5 => ge
    | 6 => false
    | _ => true

/-- Whether a comparison records poison INV (R179). -/
def fpCmpInv (sig : Bool) (a b : Fv) : Bool := a.isSig || b.isSig || (sig && (a.isNan || b.isNan))

/-- FCMP (R179): poisoned sources write false and record their token; an invalid comparison records a new one. -/
def fcmpOp (t : BitVec 2) (sig : Bool) (c : BitVec 3) (f : RForm) : WordOp (List Val) (Bool × Option Tok) where
  rdBusy := busySrcs [rA f, rB f]
  wrBusy _ _ := false
  rd s acts u := readSrcs acts u [rA f, rB f] s
  eff s u _ vs := match lowTok vs with
    | some k => (s, false, some k)
    | none =>
      let a := (fmtOf t).decode (arg (vs.map Val.num) 0)
      let b := (fmtOf t).decode (arg (vs.map Val.num) 1)
      if fpCmpInv sig a b then let r := raise s u cINV; (r.1, fpCond c a b, some r.2) else (s, fpCond c a b, none)
  put s ts b :=
    let s := putPred s f.d.start.toNat b.1 ts
    match b.2 with | some k => recordAll s ts k | none => s
  sdc := sdcPred f.d.start.toNat

def execFcmp (t : BitVec 2) (sig : Bool) (c : BitVec 3) (f : RForm) (s : State) : Out :=
  .next (runWord {} f.x ([rA f, rB f].any Src.endc) (1 + crossCost [rA f, rB f]) (fcmpOp t sig c f) s)

/-- The class mask of R180. -/
def fpClass (k : Fmt) (v : Nat) : Nat :=
  match k.decode v with
  | .nan sig => if sig then 1 else 2
  | .inf n => if n then 4 else 512
  | .fin n m _ =>
    if m = 0 then (if n then 32 else 64)
    else if m < 2 ^ k.fb then (if n then 16 else 128)
    else (if n then 8 else 256)

/-- FCLASS (R180). -/
def execFclass (t : BitVec 2) (f : RForm) (s : State) : Out :=
  .next (fp1 t f none (fun k a => .val (fpClass k a % 2 ^ f.d.bits)) s)

/-! ### Conversions (R181 to R184) -/

/-- A number rounded to another IEEE format (R181, R184). -/
def fpConvert (k : Fmt) (rnd : BitVec 2) (sat px : Bool) (a : Fv) : Res :=
  withNans k px [a] fun _ => match a with
    | .inf n => .val (infRes k sat n)
    | .fin n m e => .val (roundFmt k rnd sat n m e)
    | .nan _ => .val k.nanBits

/-- FCVT (R181). -/
def execFcvt (src dst : BitVec 2) (m : FMod) (f : RForm) (s : State) : Out :=
  .next (fp1 src f none (fun k a => fpConvert (fmtOf dst) m.rnd m.sat m.px (k.decode a)) s)

/-- ICVTF (R182). -/
def execIcvtf (sg : Bool) (t : BitVec 2) (sat : Bool) (rnd : BitVec 2) (f : RForm) (s : State) : Out :=
  .next (fpWord f [rA f] 1 none (fun l =>
    let z : Int := if sg then (arg l 0 : Int) else toSigned f.a.bits (arg l 0)
    .val (roundFmt (fmtOf t) rnd sat (decide (z < 0)) z.natAbs 0)) s)

/-- A finite number rounded to an integer by rnd (R161, R182). -/
def fpToInt (rnd : BitVec 2) (n : Bool) (m : Nat) (e : Int) : Int :=
  let v : Nat :=
    if e ≥ 0 then m * 2 ^ e.toNat
    else
      let sh := (-e).toNat
      let b := m / 2 ^ sh
      if roundsUp rnd n (b % 2 == 1) false (2 * (m % 2 ^ sh)) (2 ^ sh) then b + 1 else b
  if n then -(v : Int) else v

/-- FCVTI (R182): outside D's range, NaN and ±∞ are poison INV. -/
def fpInt (z : Bool) (W : Nat) (rnd : BitVec 2) (a : Fv) : Res :=
  match a with
  | .fin n m e =>
    let v := fpToInt rnd n m e
    let lo : Int := if z then 0 else -2 ^ (W - 1)
    let hi : Int := if z then 2 ^ W - 1 else 2 ^ (W - 1) - 1
    if lo ≤ v && v ≤ hi then .val (wrapTo W v) else .inv cINV
  | _ => .inv cINV

def execFcvti (sg : Bool) (t : BitVec 2) (rnd : BitVec 2) (f : RForm) (s : State) : Out :=
  .next (fp1 t f none (fun k a => fpInt sg f.d.bits rnd (k.decode a)) s)

/-- The IEEE format that an operand's width names (R170 for CVTB8). -/
def fmtBits (w : Nat) : Fmt := if w = 64 then f64 else if w = 32 then f32 else f16

/-- CVTB8 with .ef (R168, R183): D and then the residue B are written in place. -/
def efOp (b : B8) (rnd : BitVec 2) (sat : Bool) (f : RForm) : WordOp (List Val) (Val × Val) where
  rdBusy := busySrcs [rA f, rB f]
  wrBusy s t := (s.thr t).pending f.d.start.toNat f.d.slices || (s.thr t).pending f.b.start.toNat f.b.slices
  rd s acts t := readSrcs acts t [rA f, rB f] s
  eff s _ _ vs := (s, match lowTok vs with
    | some k => (.bad k, .bad k)
    | none =>
      let q := b8Feedback b rnd sat (arg (vs.map Val.num) 0) (arg (vs.map Val.num) 1)
      (.ok q.1, .ok q.2))
  put s ts v :=
    let a := s.cur.addr
    putAll (putAll s a f.d.start.toNat f.d.slices v.1 none ts) a f.b.start.toNat f.b.slices v.2 none ts
  sdc s t ts :=
    let r := raise s t cSDC
    let a := s.cur.addr
    putAll (putAll r.1 a f.d.start.toNat f.d.slices (.bad r.2) none ts) a f.b.start.toNat f.b.slices (.bad r.2) none ts

def cvtb8Word (b : B8) (ef sat : Bool) (rnd : BitVec 2) (f : RForm) (s : State) : State :=
  if ef then runWord {} f.x ([rA f, rB f].any Src.endc) (1 + crossCost [rA f, rB f]) (efOp b rnd sat f) s
  else alu f.x f.d [rA f] (fun l => b.round rnd sat ((fmtBits f.a.bits).decode (arg l 0))) s

/-- CVTB8 (R183). -/
def execCvtb8 (bp : BitVec 4) (ef sat : Bool) (rnd : BitVec 2) (f : RForm) (s : State) : Out :=
  .next (cvtb8Word (b8Of bp false) ef sat rnd f s)
def execCvtb8Unsigned (bp : BitVec 4) (ef sat : Bool) (rnd : BitVec 2) (f : RForm) (s : State) : Out :=
  .next (cvtb8Word (b8Of bp true) ef sat rnd f s)

def cvtf8Word (b : B8) (t : BitVec 2) (f : RForm) (s : State) : State :=
  fpWord f [rA f] 1 none (fun l => fpConvert (fmtOf t) 0 false false (b.decode (arg l 0))) s

/-- CVTF8 (R184). -/
def execCvtf8 (bp : BitVec 4) (t : BitVec 2) (f : RForm) (s : State) : Out := .next (cvtf8Word (b8Of bp false) t f s)
def execCvtf8Unsigned (bp : BitVec 4) (t : BitVec 2) (f : RForm) (s : State) : Out := .next (cvtf8Word (b8Of bp true) t f s)

/-! ### Dot products and packed binary16 (R185, R186) -/

/-- Byte k of an operand. -/
def byteOf (v k : Nat) : Nat := v / 256 ^ k % 256

/-- d + Σ a_k × b_k (R185). -/
def b8dot (b : B8) (px : Bool) (rnd : BitVec 2) (n x y d : Nat) : Res :=
  let sum := (List.range n).foldl (fun s k => s.add (prodFv (b.decode (byteOf x k)) (b.decode (byteOf y k)) 0)) (Dot.fin 0 0)
  match sum.round rnd with
  | none => invalidRes f32 px
  | some p => fpAdd f32 rnd false px (f32.decode d) (f32.decode p)

def b8dotWord (b : B8) (px : Bool) (rnd : BitVec 2) (f : RForm) (s : State) : State :=
  fpWord f [rA f, rB f, rD f] (if f.a.bits = 64 then 2 else 1) none
    (fun l => b8dot b px rnd (f.a.bits / 8) (arg l 0) (arg l 1) (arg l 2)) s

/-- B8DOT (R185). -/
def execB8dot (bp : BitVec 4) (px : Bool) (rnd : BitVec 2) (f : RForm) (s : State) : Out :=
  .next (b8dotWord (b8Of bp false) px rnd f s)
def execB8dotUnsigned (bp : BitVec 4) (px : Bool) (rnd : BitVec 2) (f : RForm) (s : State) : Out :=
  .next (b8dotWord (b8Of bp true) px rnd f s)

/-- Half k of an operand. -/
def halfOf (v k : Nat) : Fv := f16.decode (v / 2 ^ (16 * k) % 2 ^ 16)

/-- Two binary16 results in one word; an invalid half poisons both under .px (R186). -/
def halves (g : Nat → Res) : Res :=
  match g 0, g 1 with
  | .val a, .val b => .val (a + 2 ^ 16 * b)
  | .inv c, _ => .inv c
  | _, .inv c => .inv c

/-- HADD2, HMUL2, HFMA2 (R186). -/
def execHadd2 (m : FMod) (f : RForm) (s : State) : Out :=
  .next (fpWord f [rA f, rB f] 1 none (fun l =>
    halves fun k => fpAdd f16 m.rnd m.sat m.px (halfOf (arg l 0) k) (halfOf (arg l 1) k)) s)
def execHmul2 (m : FMod) (f : RForm) (s : State) : Out :=
  .next (fpWord f [rA f, rB f] 1 none (fun l =>
    halves fun k => fpMul f16 m.rnd m.sat m.px (halfOf (arg l 0) k) (halfOf (arg l 1) k)) s)
def execHfma2 (m : FMod) (f : RForm) (s : State) : Out :=
  .next (fpWord f [rA f, rB f, rD f] 1 none (fun l =>
    halves fun k => fpFma f16 m.rnd m.sat m.px (halfOf (arg l 0) k) (halfOf (arg l 1) k) (halfOf (arg l 2) k)) s)

end Sys2Proof.Machine
end

