-- ==== Sys2Proof/Machine/Reads.lean ====
section
/-! DEFINITION. The slices that a word reads as ordinary operands, for a thread that has not started its clause (R21, R92). -/

namespace Sys2Proof.Machine

/-- D of a word as a source (R40, R43). -/
def dSrc (d : Opd) : Src := ⟨d.start.toNat, d.slices, .self, 0, false⟩

/-- n slices from lo, of the thread itself. -/
def ownSrc (lo n : Nat) : Src := ⟨lo, n, .self, 0, false⟩

/-- The operands that a word reads before it acts; the future instructions read A without waiting (R157). -/
def srcsOf (i : Instr) : List Src :=
  match i with
  | .iadd _ _ _ f | .isub _ _ _ f | .imul _ _ f | .imulh _ _ f | .idiv _ _ f | .irem _ _ f | .imin _ _ f | .imax _ _ f
  | .and_ f | .or_ f | .xor_ f | .andn f | .shl f | .shr f | .sar f | .rot f | .bfx _ f | .bfi f | .icmp _ _ f | .isel _ _ f
  | .pack _ f | .padd _ _ _ f | .psub _ _ _ f | .pmin _ _ f | .pmax _ _ f | .pcmp _ _ _ f | .fadd _ _ f | .fsub _ _ f
  | .fmul _ _ f | .fmin _ _ f | .fmax _ _ f | .fcmp _ _ _ f | .fdiv _ _ f | .fscale _ _ f | .hadd2 _ f | .hmul2 _ f
  | .movxw f | .waitw f | .spawn f | .spawnn f | .arrive f | .waitph f | .scopy f | .sload f | .sstore f | .sloadRing f
  | .strns _ _ _ _ f | .sring f | .mloadacc f | .tmov f | .tcvtB8 _ _ _ _ f | .tcvtB8Unsigned _ _ _ _ f
  | .tcvtOther _ _ _ f | .cmbu _ f | .fput f | .fget f | .fsig _ _ f | .rload f | .ctxsv _ f => [rA f, rB f]
  | .imad _ _ _ f | .lut3 _ f | .pdot _ _ f | .ffma _ _ f | .b8dot _ _ _ f | .b8dotUnsigned _ _ _ f | .hfma2 _ f =>
    [dSrc f.d, rA f, rB f]
  | .cmb op _ f => [rA f, rB f] ++ (if op == 10 then [⟨f.b.start.toNat + f.b.slices, f.b.slices, f.bx, f.e.toNat, true⟩] else [])
  | .spl f => [rA f, ownSrc f.d.start.toNat (f.b.start.toNat + 1 - f.d.start.toNat)]
  | .iabs _ _ f | .ineg _ _ f | .not_ f | .popc f | .clz f | .ctz f | .brev f | .movZ f | .movS f | .movx f | .unpk _ f
  | .pabs _ f | .fabs _ f | .fneg _ f | .fsqrt _ _ f | .frcp _ _ f | .frsq _ _ f | .fexp2 _ _ f | .flog2 _ _ f | .fclass _ f
  | .fcvt _ _ _ f | .icvtf _ _ _ _ f | .fcvti _ _ _ f | .cvtf8 _ _ f | .cvtf8Unsigned _ _ f | .jmpi f | .calli f | .ret f
  | .join f | .leave f | .itempush f | .fil f | .icinvLine _ f | .dcwb f | .pchk f | .porg _ f | .talloc _ f | .tfree f
  | .tquery _ f | .sringFree f | .rpop f | .rrel f | .asl f | .lastld f | .mzero f | .cmbdef _ f | .snap f | .rbk f | .ctxld f =>
    [rA f]
  | .cvtb8 _ ef _ _ f | .cvtb8Unsigned _ ef _ _ f => if ef then [rA f, rB f] else [rA f]
  | .mstat k f => if k = 1 then [rA f] else []
  | .iaddImm _ _ f | .andImm f | .orImm f | .xorImm f | .andnImm f | .shlImm f | .shrImm f | .sarImm f | .rotImm f
  | .icmpImm _ _ f | .sysw f => [iA f]
  | .movh _ f => [dSrc f.d]
  | .loopd f => [ownSrc (f.fld.extractLsb' 6 9).toNat (wcSlices (f.fld.extractLsb' 3 3))]
  | .ld _ _ _ f | .ldV _ _ _ f | .ldp _ _ _ f | .pgreq f | .sld _ _ f | .ldm _ f => [mA f]
  | .st _ _ f | .sst _ f => [mA f, dSrc f.d]
  | .stV n size _ f => [mA f, ownSrc f.d.start.toNat (2 ^ (n.toNat + 1) * (2 * 2 ^ size.toNat))]
  | .atom op _ _ f => [mA f, dSrc f.d] ++ (if op == 9 then [ownSrc (f.d.start.toNat + f.d.slices) f.d.slices] else [])
  | .flushrA f | .fbar f | .fbarStep f => [fA f]
  | .mloop f => [ownSrc f.h.toNat 12]
  | _ => []

/-! ### What MLOOP waits for (R321, R322) -/

/-- Whether a matrix format is an integer one (R45). -/
def fmtInt (f : BitVec 6) : Bool := f.getLsbD 5

/-- The scale words of A or B: from thread g + t of the lowest thread's width group (R321). -/
def scaleThread (x : Thread) (t : Tid) (j : Nat) : Option Tid :=
  let i := tix x t / 32 * 32 + j
  if i < x.group then some (mate x t i) else none

/-- Whether a scale word of the group waits for a result. -/
def scaleBusy (s : State) (t : Tid) (lo : Nat) : Bool :=
  (List.range 32).any fun j => match scaleThread (s.thr t) t j with
    | none => false
    | some u => (s.thr u).pending lo 8

/-- The youngest earlier loop of the core that will advance the offset slices at h + 12, when nothing else holds them (R322). -/
def offFrom (s : State) (t : Tid) (h : Nat) : Option Nat :=
  let mine := (s.thr t).pend.filter fun p => decide (p.lo < h + 20) && decide (h + 12 < p.lo + p.n)
  let adv := fun (id : Nat) => (s.core (coreOf t)).matQ.any fun k => k.id == id && match k.op with
    | .loop _ _ _ _ _ _ _ _ i h' => i && h' == h
    | _ => false
  if mine.all fun p => adv p.id then (mine.map Pend.id).max? else none

/-- Whether the offset slices of a thread are pending on anything but such loops. -/
def offBusy (s : State) (t : Tid) (h : Nat) : Bool := (s.thr t).pending (h + 12) 8 && (offFrom s t h).isNone

/-- Whether slices that an MLOOP reads beside its handles are pending for it. -/
def loopBusy (s : State) (t : Tid) (f : XForm) : Bool :=
  let b := f.sc.toNat + 8 * f.bsel.toNat
  offBusy s t f.h.toNat || (!fmtInt f.fmt && (scaleBusy s t b || scaleBusy s t (b + 64)))

/-- FWAIT, FTEST, FPASS and FCANCEL read their operand without waiting (R157). -/
def isRawWord (w : W64) : Bool := let o := bitsOf w.toNat 63 56; decide (0x59 ≤ o) && decide (o ≤ 0x5C)

/-- Whether word w, as thread t would begin it, reads slices that are pending, the computed range of a MOVX among them (R21, R118). -/
def readsPending (s : State) (t : Tid) (w : W64) : Bool :=
  actsOn (pfxOf w) (s.thr t) && match decode w with
    | none => false
    | some i => busySrcs (srcsOf i) s [t] t || match i with
      | .movx f => match (rA f).peek s [t] t with
        | .val (.ok k) => (s.thr t).pending k f.d.slices
        | _ => false
      | .mloop f => loopBusy s t f
      | _ => false

end Sys2Proof.Machine
end

