-- ==== Sys2Proof/Machine/Load.lean ====
section
/-! DEFINITION. Accesses of threads to global memory: LD, ST, LD.V, ST.V, LDP, PGREQ, ATOM and LDM (R202 to R204, R206 to R208,
R210). -/

namespace Sys2Proof.Machine

/-- The effective address of a memory-form word (R43). -/
def eaOf (f : MForm) (a : Nat) : W64 := BitVec.ofNat 64 a + f.ofs.signExtend 64

/-- A clean address that thread t reads, if it does. -/
def cleanEa (f : MForm) (s : State) (acts : List Tid) (t : Tid) : Option W64 :=
  match (mA f).peek s acts t with
  | .val (.ok a) => some (eaOf f a)
  | _ => none

/-! ### Watchpoints (R249) -/

/-- Whether any watchpoint of core c is armed. -/
def watching (s : State) (c : Nat) : Bool := (s.core c).wps.any fun w => w.2.toNat % 8 != 0

/-- Whether an access of len bytes at ea matches a watchpoint for kind bit k (0 load, 1 store). -/
def watchHit (s : State) (t : Tid) (k : Nat) (ea : W64) (len : Nat) : Bool :=
  !(s.thr t).priv && (s.thr t).hdepth == 0 && (s.core (coreOf t)).wps.any fun w =>
    w.2.getLsbD k && decide (bitsOf w.2.toNat 51 3 * 8 < ea.toNat + len) && decide (ea.toNat < bitsOf w.2.toNat 51 3 * 8 + 8)

/-- The checks of a global access: watchpoints on its kinds over its whole range. -/
def memGate (f : MForm) (ks : List Nat) (len : Nat) : Gate where
  wait s acts _ := acts.any fun t => watching s (coreOf t) && (mA f).busy s acts t
  watch s acts := acts.filterMap fun t =>
    match cleanEa f s acts t with
    | some ea => if ks.any fun k => watchHit s t k ea len then some (t, ea) else none
    | none => none

/-! ### Loads -/

/-- Whether the outstanding-request entries of core c are all in use (R195). -/
def reqFull (s : State) (c : Nat) : Bool := decide (reqCount (s.core c) ≥ 1024)

/-- Whether a word of an access at ea waits for a fill that an earlier sub-word store started (R194). -/
def fillBusy (s : State) (t : Tid) (ea : W64) (bits : Nat) : Bool :=
  match (xlat s t .load ea).2 with
  | .ok p => p.peer == 0 && (hasFill s (coreOf t) (p.pa / 4) || (bits == 64 && hasFill s (coreOf t) (p.pa / 4 + 1)))
  | _ => false

/-- One element of a load: byte offset, first slice, slices. -/
structure Elem where
  off : Nat
  lo : Nat
  n : Nat
  deriving DecidableEq, Repr

/-- What a load reads: element size, hint, sign extension, elements. -/
structure LdSpec where
  bits : Nat
  nl1 : Bool := false
  evf : Bool := false
  sx : Bool := false
  els : List Elem
  deriving DecidableEq, Repr

/-- What a load of one element found: its place and result. -/
structure Loaded where
  e : Elem
  ea : W64
  res : LdRes
  deriving DecidableEq, Repr

/-- An absent page is NR poison (R189). -/
def absentNR (s : State) (t : Tid) (ea : W64) (r : LdRes) : State × LdRes :=
  match r with
  | .absent => let q := raise s t cNR ea; (q.1, .tok q.2)
  | r => (s, r)

/-- Each element translated and read on its own (R203, R204). -/
def loadEls (d : LdSpec) (t : Tid) (ea : W64) : List Elem → State → State × List Loaded
  | [], s => (s, [])
  | e :: es, s =>
    let a := ea + BitVec.ofNat 64 e.off
    let r := loadAt s t a d.bits d.nl1 d.evf (fitLoad d.bits d.sx (4 * e.n))
    let r := absentNR r.1 t a r.2
    let q := loadEls d t ea es r.1
    (q.1, ⟨e, a, r.2⟩ :: q.2)

/-- Words of a thread's held stores that a remote load must see (R212). -/
def heldFor (s : State) (t : Tid) (p : Page) (ea : W64) (bits : Nat) : List Held :=
  if holding s t then
    (s.core (coreOf t)).quar.filter fun h => h.tid == t && (List.range ((bits + 31) / 32)).any fun i =>
      h.key == .glob p.peer (p.pa / 4 + i) || h.key == .lost false (ea.toNat / 4 + i)
  else []

/-- A read request to a peer for one element (R349); its destination is pending until the reply. -/
def remoteLoad (s : State) (ts : List Tid) (pc : W64) (d : LdSpec) (l : Loaded) (p : Page) : State :=
  let t := ts.headD 0
  let c := coreOf t
  let s := migCount s ((s.core c).ptbr.toNat % 4096) l.ea p
  let r := addReq s c ts pc [⟨l.e.lo, l.e.n, .clean 0⟩] .remote 0
  fabSend r.1 1 p.peer
    { core := c, tid := t, pc := pc, ea := l.ea, use := .req r.2, lo := p.pa, hi := p.pa + d.bits / 8, bits := d.bits, sx := d.sx,
      more := if d.nl1 then 0 else p.mode, sk := p.sk, evf := d.evf
      stale := looseWords s c p.peer p.pa (p.pa + d.bits / 8), fwd := heldFor s t p l.ea d.bits }
    (reqPayload (p.pa / 64 * 64) ((2 ^ (d.bits / 8) - 1) * 2 ^ (p.pa % 64)) 0 0 0 0 (identOf s.fab.dev.toNat t)) []

/-- A load's results: faults written at once, values written by the reply, peers asked (R202, R349). -/
def putLoaded (s : State) (ts : List Tid) (d : LdSpec) (ls : List Loaded) (kind : ReqKind := .load) : State :=
  let pc := s.cur.addr
  let s := ls.foldl (fun s l => match l.res with
    | .tok k => putAll s pc l.e.lo l.e.n (.bad k) none ts
    | _ => s) s
  let ps := ls.filterMap fun l => match l.res with
    | .got g => some (⟨l.e.lo, l.e.n, g⟩ : Piece)
    | _ => none
  let s := if ps.isEmpty then s else (addReq s (coreOf (ts.headD 0)) ts pc ps kind s.cfg.loadLatency).1
  ls.foldl (fun s l => match l.res with
    | .peer p => remoteLoad s ts pc d l p
    | _ => s) s

/-- A load word (R202): a poisoned address writes every element with its token. -/
def loadOp (f : MForm) (d : LdSpec) : WordOp Val (List Loaded) where
  room := roomFor .reqs
  rdBusy s acts t := (mA f).busy s acts t || reqFull s (coreOf t) || (match cleanEa f s acts t with
    | some ea => d.els.any fun e => fillBusy s t (ea + BitVec.ofNat 64 e.off) d.bits
    | none => false)
  wrBusy s t := d.els.any fun e => (s.thr t).pending e.lo e.n
  rd s acts t := (mA f).read s acts t
  eff s t _ v := match v with
    | .bad k => (s, d.els.map fun e => ⟨e, 0, .tok k⟩)
    | .ok a => loadEls d t (eaOf f a) d.els s
  put s ts ls := putLoaded s ts d ls

def sizeBits (sz : BitVec 2) : Nat := 8 * 2 ^ sz.toNat

/-- Cycles of a memory word: its address and its data operands, where they cross rows (R114, R202). -/
def memCost (f : MForm) : Nat := 1 + crossCost [mA f]
def dataCost (f : MForm) (rs : List Src) : Nat := 1 + crossCost (mA f :: rs)

/-- D of a memory word as its data: one value, or the n slices of a vector. -/
def mD (f : MForm) : Src := ⟨f.d.start.toNat, f.d.slices, .self, 0, false⟩
def vecD (f : MForm) (n size : BitVec 2) : Src := ⟨f.d.start.toNat, 2 ^ (n.toNat + 1) * (2 * 2 ^ size.toNat), .self, 0, false⟩

/-- LD (R203). -/
def execLd (sx : Bool) (size hint : BitVec 2) (f : MForm) (s : State) : Out :=
  let b := sizeBits size
  .next (runWord (memGate f [0] (b / 8)) f.x (mA f).endc (memCost f)
    (loadOp f ⟨b, hint == 2, hint == 1, sx, [⟨0, f.d.start.toNat, f.d.slices⟩]⟩) s)

/-- Elements of a vector (R204). -/
def vecEls (f : MForm) (n size : BitVec 2) : List Elem :=
  (List.range (2 ^ (n.toNat + 1))).map fun k => ⟨k * 2 ^ size.toNat, f.d.start.toNat + k * (2 * 2 ^ size.toNat), 2 * 2 ^ size.toNat⟩

def vecBytes (n size : BitVec 2) : Nat := 2 ^ (n.toNat + 1) * 2 ^ size.toNat

/-- LD.V (R204). -/
def execLdV (n size hint : BitVec 2) (f : MForm) (s : State) : Out :=
  .next (runWord (memGate f [0] (vecBytes n size)) f.x (mA f).endc (memCost f)
    (loadOp f ⟨sizeBits size, hint == 2, hint == 1, false, vecEls f n size⟩) s)

/-! ### LDP (R206) -/

/-- Whether translation reaches a valid leaf. -/
def resident (s : State) (t : Tid) (ea : W64) : Bool :=
  match (lookup s (coreOf t) (threadSpace s t) ea).2 with
  | .ok _ => true
  | _ => false

/-- Whether translation fails with NR; the probe looks at it whatever the alignment (R206). -/
def absent (s : State) (t : Tid) (ea : W64) : Bool :=
  match (xlat s t .load ea).2 with
  | .fault f => f == cNR
  | _ => false

/-- What a probe load found: the predicate, and the loaded value or the zero of an absent page. -/
inductive Probe where
  | hit (p : Bool) (l : Loaded)
  | miss
  deriving DecidableEq, Repr

def ldpOp (f : MForm) (pred : BitVec 3) (d : LdSpec) : WordOp Val Probe where
  room := roomFor .reqs
  rdBusy s acts t := (loadOp f d).rdBusy s acts t
  wrBusy s t := (s.thr t).pending f.d.start.toNat f.d.slices
  rd s acts t := (mA f).read s acts t
  eff s t _ v :=
    let e : Elem := ⟨0, f.d.start.toNat, f.d.slices⟩
    match v with
    | .bad k => (s, .hit false ⟨e, 0, .tok k⟩)
    | .ok a =>
      let ea := eaOf f a
      if absent s t ea then ((xlat s t .load ea).1, .miss)
      else
        let r := loadAt s t ea d.bits false false (fitLoad d.bits d.sx f.d.bits)
        match r.2 with
        | .absent => (r.1, .miss)
        | x => (r.1, .hit (resident s t ea) ⟨e, ea, x⟩)
  put s ts b := match b with
    | .hit p l => putLoaded (putPred s pred.toNat p ts) ts d [l]
    | .miss => putClean (putPred s pred.toNat false ts) s.cur.addr f.d 0 ts

/-- LDP (R206). -/
def execLdp (sx : Bool) (size : BitVec 2) (pred : BitVec 3) (f : MForm) (s : State) : Out :=
  let b := sizeBits size
  .next (runWord (memGate f [0] (b / 8)) f.x (mA f).endc (memCost f)
    (ldpOp f pred ⟨b, false, false, sx, [⟨0, f.d.start.toNat, f.d.slices⟩]⟩) s)

/-! ### Stores -/

/-- A store's data as its words: outside the allocation the whole operand is BND poison (R110, R200). -/
def readData (s : State) (t : Tid) (lo n bits : Nat) : State × List Val :=
  let x := s.thr t
  if lo + n > x.alloc then
    let r := raise s t cBND (BitVec.ofNat 64 lo)
    (r.1, if bits = 64 then [.bad r.2, .bad r.2] else [.bad r.2])
  else (s, storeData x lo n bits)

/-- What a store word has read: its address and each element's data. -/
def readStore (f : MForm) (bits : Nat) (acts : List Tid) (t : Tid) : List Elem → State → State × List (List Val)
  | [], s => (s, [])
  | e :: es, s =>
    let r := readData s t e.lo e.n bits
    let q := readStore f bits acts t es r.1
    (q.1, r.2 :: q.2)

/-- A store word (R202, R203): a poisoned address is recorded; each element is held, recorded or performed on its own. -/
def storeOp (f : MForm) (d : LdSpec) : WordOp (Val × List (List Val)) Unit where
  room := roomFor .reqs
  rdBusy s acts t := (mA f).busy s acts t || reqFull s (coreOf t) || d.els.any fun e => (s.thr t).pending e.lo e.n
  wrBusy _ _ := false
  rd s acts t :=
    let a := (mA f).read s acts t
    let q := readStore f d.bits acts t d.els a.1
    (q.1, a.2, q.2)
  eff s t ts v := match v.1 with
    | .bad k => (recordAll s ts k, ())
    | .ok a => ((d.els.zip v.2).foldl (fun s e =>
        storeAt s t ts (eaOf f a + BitVec.ofNat 64 e.1.off) d.bits e.2 d.nl1 d.evf) s, ())
  put s _ _ := s

/-- ST (R203). -/
def execSt (size hint : BitVec 2) (f : MForm) (s : State) : Out :=
  let b := sizeBits size
  .next (runWord (memGate f [1] (b / 8)) f.x (mA f).endc (dataCost f [mD f])
    (storeOp f ⟨b, hint == 2, hint == 1, false, [⟨0, f.d.start.toNat, f.d.slices⟩]⟩) s)

/-- ST.V (R204). -/
def execStV (n size hint : BitVec 2) (f : MForm) (s : State) : Out :=
  .next (runWord (memGate f [1] (vecBytes n size)) f.x (mA f).endc (dataCost f [vecD f n size])
    (storeOp f ⟨sizeBits size, hint == 2, hint == 1, false, vecEls f n size⟩) s)

/-! ### PGREQ (R207) -/

/-- Whether two waits are for the same page. -/
def PageWait.same (a b : PageWait) : Bool := a.asid == b.asid && a.page == b.page

/-- The page that a probe of ea finds absent. -/
def absentPage (s : State) (t : Tid) (ea : W64) : Option PageWait :=
  match (lookup s (coreOf t) (threadSpace s t) ea).2 with
  | .fault k => if k = cNR then some { asid := (threadSpace s t).asid, page := ea.toNat / 2 ^ 16 } else none
  | _ => none

/-- Whether the die's ring takes page requests for all of a list (R207). -/
def pagesRoom (s : State) (c : Nat) (ps : List PageWait) : Bool :=
  decide (min (ps.dedup.filter fun p => (pageEntry s (dieOf c) p.asid p.page).isNone).length 256 + (s.die (dieOf c)).pages.length ≤ 256)

def pgreqOp (f : MForm) : WordOp Val Unit where
  room s acts := pagesRoom s (coreOf (acts.headD 0)) (acts.filterMap fun t => (cleanEa f s acts t).bind (absentPage s t))
  rdBusy s acts t := (mA f).busy s acts t || (match cleanEa f s acts t with
    | some ea => (match absentPage s t ea with
      | some p => !pageRoom s (coreOf t) p.asid p.page
      | none => false)
    | none => false)
  wrBusy _ _ := false
  rd s acts t := (mA f).read s acts t
  eff s t ts v := match v with
    | .bad k => (recordAll s ts k, ())
    | .ok a => (match absentPage s t (eaOf f a) with
      | some p => pageRequest s (coreOf t) p.asid p.page false false
      | none => s, ())
  put s _ _ := s

/-- PGREQ (R207). -/
def execPgreq (f : MForm) (s : State) : Out := .next (runWord {} f.x (mA f).endc (memCost f) (pgreqOp f) s)

/-! ### ATOM (R208) -/

/-- The new value of a read-modify-write on w bits (R208). -/
def atomNew (op : BitVec 4) (w old d n : Nat) : Nat :=
  match op.toNat with
  | 0 => (old + d) % 2 ^ w
  | 1 => if toSigned w d < toSigned w old then d else old
  | 2 => min old d
  | 3 => if toSigned w old < toSigned w d then d else old
  | 4 => max old d
  | 5 => old &&& d
  | 6 => old ||| d
  | 7 => old ^^^ d
  | 8 => d
  | _ => if old = d then n else old

/-- An ATOM at this device, in the L1 for scopes THR and CORE, else at the home (R208): what it returns. -/
def atomHere (s : State) (t : Tid) (ea : W64) (p : Page) (scope : BitVec 3) (op : BitVec 4) (w d n : Nat) : State × Got :=
  let c := coreOf t
  let ks := (List.range (w / 32)).map fun i => p.pa / 4 + i
  let near := decide (scope.toNat ≤ 1)
  -- the issuing core's own copy goes home first (R225)
  let s := if near then s else
    (writeBackKeys s c false ks).modCore c fun x => { x with l1 := x.l1.filter fun e => !ks.contains e.1 }
  let r := if near then l1Words s t p ks false false else (s, ks.map fun k => homeWord s k)
  match gotOf ea w 0 r.2 id with
  | .clean old =>
    let s := setDC r.1 p
    let vs := numWords (atomNew op w old d n) (w / 32)
    let s := (ks.zip vs).foldl (fun s k =>
      if near then l1Store s t p k.1 0xF k.2 false false else homeWrite s (some c) k.1 k.2) s
    (s, .clean old)
  | g => (r.1, g)

/-- ATOM's data operands: D, and the CAS value above it (R208). -/
def atomData (op : BitVec 4) (f : MForm) : List Src :=
  mD f :: (if op == 9 then [⟨f.d.start.toNat + f.d.slices, f.d.slices, .self, 0, false⟩] else [])

/-- ATOM's word: D, the CAS value and the address are read; the old value is written by the reply. A poisoned address is recorded as well
(R202). -/
def atomOp (op : BitVec 4) (scope : BitVec 3) (sz : Bool) (f : MForm) : WordOp (List Val) Loaded where
  room := roomFor .reqs
  rdBusy s acts t := busySrcs (mA f :: atomData op f) s acts t
    || reqFull s (coreOf t) || (match cleanEa f s acts t with
      | some ea => fillBusy s t ea (if sz then 64 else 32)
      | none => false)
  wrBusy s t := (s.thr t).pending f.d.start.toNat f.d.slices
  rd s acts t := readSrcs acts t (mA f :: atomData op f) s
  eff s t ts vs :=
    let s := noReplay s ts
    let s := match vs.headD (.ok 0) with | .bad k => recordAll s ts k | .ok _ => s
    let e : Elem := ⟨0, f.d.start.toNat, f.d.slices⟩
    let w := if sz then 64 else 32
    match lowTok vs with
    | some k => (s, ⟨e, 0, .tok k⟩)
    | none =>
      let l := vs.map Val.num
      let ea := eaOf f (arg l 0)
      if ea.toNat % (w / 8) ≠ 0 then let q := raise s t cBND ea; (q.1, ⟨e, ea, .tok q.2⟩)
      else
        let r := xlat s t .store ea
        match r.2 with
        | .fault k => let q := raise r.1 t k ea; (q.1, ⟨e, ea, .tok q.2⟩)
        | .carried k => let q := raiseCarried r.1 t (s.thr t).pc k ea; (q.1, ⟨e, ea, .tok q.2⟩)
        | .ok p =>
          if p.peer = 0 then let q := atomHere r.1 t ea p scope op w (arg l 1) (arg l 2); (q.1, ⟨e, ea, .got q.2⟩)
          else
            let c := coreOf t
            let ks := (List.range (w / 32)).map fun i => p.pa / 4 + i
            let s := migCount (dropPeer r.1 c p.peer ks) ((s.core c).ptbr.toNat % 4096) ea p
            let q := addReq s c ts s.cur.addr [⟨e.lo, e.n, .clean 0⟩] .remote 0
            (fabSend q.1 3 p.peer
              { core := c, tid := t, pc := s.cur.addr, ea := ea, use := .req q.2, write := true, lo := p.pa, hi := p.pa + w / 8, bits := w }
              (reqPayload p.pa (arg l 1) 0 0 (op.toNat + if sz then 256 else 0) (arg l 2) (identOf s.fab.dev.toNat t)) [],
              ⟨e, ea, .peer p⟩)
  put s ts l := match l.res with
    | .peer _ => s
    | _ => putLoaded s ts { bits := if sz then 64 else 32, els := [] } [l] (if scope.toNat ≤ 1 then .load else .atom)

/-- ATOM (R208). -/
def execAtom (op : BitVec 4) (scope : BitVec 3) (sz : Bool) (f : MForm) (s : State) : Out :=
  .next (runWord (memGate f [1] (if sz then 8 else 4)) f.x (mA f).endc (dataCost f (atomData op f)) (atomOp op scope sz f) s)

/-! ### LDM (R210) -/

/-- The first step of an LDM: each acting thread's address captured, poison with it. -/
def ldmCapture (f : MForm) (acts : List Tid) : List Tid → State → State
  | [], s => s
  | t :: ts, s =>
    if (s.thr t).seq then ldmCapture f acts ts s
    else
      let r := (mA f).read s acts t
      let v := match r.2 with | .ok a => Val.ok (eaOf f a).toNat | b => b
      ldmCapture f acts ts (r.1.modThr t fun x => { x with seq := true, seqstep := 0, ldm := some v })

/-- Step k of thread t: `LD.z32` from the captured address. -/
def ldmStep (f : MForm) (k : Nat) (s : State) (t : Tid) : State :=
  let e : Elem := ⟨4 * k, f.d.start.toNat + 8 * k, 8⟩
  let d : LdSpec := { bits := 32, els := [e] }
  match (s.thr t).ldm.getD (.ok 0) with
  | .bad b => putLoaded s [t] d [⟨e, 0, .tok b⟩]
  | .ok a => let r := loadEls d t (BitVec.ofNat 64 a) d.els s; putLoaded r.1 [t] d r.2

/-- An access whose two copies differ: nothing is performed, and SDC is recorded (R259). -/
def differOnce (s : State) (t : Tid) : State :=
  (recordRaise s t cSDC).modCur fun p => { p with upset := false }

/-- Whether step k of thread t must wait. -/
def ldmBusy (f : MForm) (k : Nat) (s : State) (t : Tid) : Bool :=
  (s.thr t).pending (f.d.start.toNat + 8 * k) 8 || reqFull s (coreOf t) || (match (s.thr t).ldm with
    | some (.ok a) => fillBusy s t (BitVec.ofNat 64 (a + 4 * k)) 32
    | _ => false)

/-- Thread t has done step k of n (R210). -/
def ldmDone (n k : Nat) (s : State) (t : Tid) : State :=
  if k + 1 < n then s.modThr t fun x => { x with seqstep := k + 1 }
  else (finish (s.modThr t fun x => { x with seq := false, seqstep := 0, ldm := none }) t none).modCur (markDone t)

/-- The next thread-operation of the expansion: the lowest acting thread at the earliest step, or a hold there (R95, R210); step 0 reads
A (R114). -/
def ldmAdvance (f : MForm) (n : Nat) (acts : List Tid) (s : State) : State :=
  let left := acts.filter fun t => !s.cur.done.contains t
  let k := (left.map fun t => (s.thr t).seqstep).foldl min 15
  match left.find? fun t => (s.thr t).seqstep == k with
  | none => endWord s 0
  | some t =>
    if ldmBusy f k s t then stall s
    else
      let q := ldmDone n k (if upset s t then differOnce s t else ldmStep f k s t) t
      let cost := opCost acts t (1 + if k = 0 then crossCost [mA f] else 0)
      if acts.all fun t => q.cur.done.contains t then endWord q cost else q.modCur fun p => { p with busy := cost }

/-- The watch check of an LDM covers its whole range, before its first step (R249). -/
def ldmGate (f : MForm) (m : Nat) : Gate :=
  { watch := fun s acts => (memGate f [0] (4 * m)).watch s (acts.filter fun t => !(s.thr t).seq) }

/-- LDM (R210). -/
def execLdm (n : BitVec 4) (f : MForm) (s : State) : Out :=
  let m := n.toNat + 1
  .next (match s.cur.acts with
    | some acts => ldmAdvance f m (acts.filter fun t => s.cur.pack.contains t) s
    | none =>
      let acts := actors s f.x s.cur.pack
      if acts.any fun t => !(s.thr t).seq && (mA f).busy s acts t then stall s
      else match gateTrap s (ldmGate f m) f.x acts with
        | some r => takeTrap s r
        | none =>
          if acts.isEmpty then endWord s 1
          else ldmAdvance f m acts (ldmCapture f acts acts (s.modCur (begin_ acts))))

end Sys2Proof.Machine
end

