-- ==== Sys2Proof/Machine/Scratch.lean ====
section
/-! DEFINITION. Scratch accesses: SLD, SST, SPL and FIL (R128, R129, R205, R228). -/

namespace Sys2Proof.Machine

/-- The byte that a scratch access names: A[15:0] + OFS without wrapping (R205). -/
def scratchByte (f : MForm) (a : Nat) : Int := ((a % 2 ^ 16 : Nat) : Int) + f.ofs.toInt

/-- Why a scratch access fails: R288's checks first, then bounds and alignment (R205). -/
def scratchFail (s : State) (t : Tid) (h : Nat) (b : Int) (len : Nat) : Option Nat :=
  match tileFail s (coreOf t) h (askerOf s t) true 0 0 with
  | some k => some k
  | none =>
    if b < 0 then some cBND
    else if b.toNat % len ≠ 0 then some cBND
    else tileFail s (coreOf t) h (askerOf s t) true b.toNat len

/-- The key of a tile word in the quarantine. -/
def tileKey (t : Tid) (h w : Nat) : HKey := .tile (rankCore (coreOf t) h) (hLevel h) (hIndex h) w

/-- A tile word as thread t reads it: its own held bytes over the word (R212). -/
def seeTile (s : State) (t : Tid) (h w : Nat) : Val :=
  forwardAt s t true (h * 2 ^ 16 + 4 * w) (tileKey t h w) (tileWord s (coreOf t) h w)

/-- SLD's word (R205): its result is written as a load's is. -/
def sldOp (sx : Bool) (bits : Nat) (f : MForm) : WordOp Val Loaded where
  room := roomFor .reqs
  rdBusy s acts t := (mA f).busy s acts t || reqFull s (coreOf t)
  wrBusy s t := (s.thr t).pending f.d.start.toNat f.d.slices
  rd s acts t := (mA f).read s acts t
  eff s t _ v :=
    let e : Elem := ⟨0, f.d.start.toNat, f.d.slices⟩
    match v with
    | .bad k => (s, ⟨e, 0, .tok k⟩)
    | .ok a =>
      let h := a / 2 ^ 16 % 2 ^ 16
      let b := scratchByte f a
      match scratchFail s t h b (bits / 8) with
      | some k => let q := raise s t k (eaOf f a); (q.1, ⟨e, eaOf f a, .tok q.2⟩)
      | none =>
        let w := b.toNat / 4
        let ws := (List.range (if bits = 64 then 2 else 1)).map fun i => seeTile s t h (w + i)
        (s, ⟨e, eaOf f a, .got (gotOf (eaOf f a) bits (b.toNat % 4 * 8) ws (fitLoad bits sx f.d.bits))⟩)
  put s ts l := putLoaded s ts { bits := bits, els := [] } [l]

/-- SLD (R205). -/
def execSld (sx : Bool) (size : BitVec 2) (f : MForm) (s : State) : Out :=
  .next (runWord {} f.x (mA f).endc (memCost f) (sldOp sx (sizeBits size) f) s)

/-- Words stored into a tile, or held (R203, R205, R212). -/
def storeTile (s : State) (t : Tid) (h : Nat) (ea : W64) (ws : List (Nat × BitVec 4 × Val)) : State :=
  if holding s t then
    holdAll s t ea (ws.map fun w =>
      { tid := t, key := tileKey t h w.1, va := BitVec.ofNat 64 (h * 2 ^ 16 + 4 * w.1), pc := (s.thr t).pc, mask := w.2.1, val := w.2.2 })
  else ws.foldl (fun s w => setTileWord s (coreOf t) h w.1 (maskWord (tileWord s (coreOf t) h w.1) w.2.1 w.2.2)) s

/-- The words that a failed scratch store names. -/
def lostTile (h : Nat) (ws : List Nat) : List HKey := ws.map fun w => HKey.lost true (h * 2 ^ 14 + w)

/-- SST's word (R205). -/
def sstOp (bits : Nat) (f : MForm) : WordOp (Val × List Val) Unit where
  room := roomFor .reqs
  rdBusy s acts t := (mA f).busy s acts t || reqFull s (coreOf t) || (s.thr t).pending f.d.start.toNat f.d.slices
  wrBusy _ _ := false
  rd s acts t :=
    let a := (mA f).read s acts t
    let q := readData a.1 t f.d.start.toNat f.d.slices bits
    (q.1, a.2, q.2)
  eff s t ts v := match v.1 with
    | .bad k => (recordAll s ts k, ())
    | .ok a =>
      let h := a / 2 ^ 16 % 2 ^ 16
      let b := scratchByte f a
      match scratchFail s t h b (bits / 8) with
      | some k => let q := raise s t k (eaOf f a); (failStore q.1 t (eaOf f a) ts q.2
            (lostTile h ((List.range ((bits + 31) / 32)).map fun i => (b % 2 ^ 16).toNat / 4 + i)), ())
      | none => (storeTile s t h (eaOf f a) (storeWords b.toNat bits v.2), ())
  put s _ _ := s

/-- SST (R205). -/
def execSst (size : BitVec 2) (f : MForm) (s : State) : Out :=
  .next (runWord {} f.x (mA f).endc (dataCost f [mD f]) (sstOp (sizeBits size) f) s)

/-! ### SPL and FIL (R128, R129) -/

/-- The range of a spill word: first slice and count. -/
def splLo (f : RForm) : Nat := f.d.start.toNat
def splN (f : RForm) : Nat := f.b.start.toNat + 1 - f.d.start.toNat

/-- Why a spill access fails: slice offset o, n slices. -/
def spillFail (s : State) (t : Tid) (h o n : Nat) : Option Nat :=
  tileFail s (coreOf t) h (askerOf s t) true (o / 2) ((o + n + 1) / 2 - o / 2)

/-- Slices stored into tile word w of a spill at offset o: shift and bits in the word, and the value, whose token is that of
the lowest poisoned granule; slices outside the allocation carry `out` (R129). -/
def splWord (x : Thread) (out : Tok) (lo n o w : Nat) : Nat × Nat × Val :=
  let a := max o (8 * w)
  let m := min (o + n) (8 * w + 8) - a
  let l := lo + (a - o)
  let inside := min m (x.alloc - l)
  let tag := if inside = 0 then none else lowTag x.tags (l / 8) (granSpan l inside)
  (4 * (a - 8 * w), 4 * m, match tag with
    | some k => .bad k
    | none => if inside < m then .bad out else .ok (x.bits l m))

/-- The bytes of a word that bits sh to sh + nb − 1 touch. -/
def byteMask (sh nb : Nat) : BitVec 4 :=
  BitVec.ofNat 4 (((List.range 4).map fun i => if sh < 8 * i + 8 && 8 * i < sh + nb then 2 ^ i else 0).sum)

/-- One tile word of a spill as a store; a held nibble takes its neighbour from the byte as the thread sees it. Clean slices that cover part
of a byte of a word that the thread sees poisoned are dropped at once (R129); whole bytes are held, and dropped where they would enter one. -/
def splPart (s : State) (t : Tid) (h w : Nat) (p : Nat × Nat × Val) : Option (Nat × BitVec 4 × Val) :=
  if holding s t then
    match p.2.2, seeTile s t h w with
    | .bad k, _ => some (w, 0xF, .bad k)
    | v, .ok old => some (w, byteMask p.1 p.2.1, mergeWord (.ok old) p.1 p.2.1 v)
    | v, .bad _ => if p.1 % 8 = 0 ∧ p.2.1 % 8 = 0 then some (w, byteMask p.1 p.2.1, mergeWord (.ok 0) p.1 p.2.1 v) else none
  else some (w, 0xF, mergeWord (tileWord s (coreOf t) h w) p.1 p.2.1 p.2.2)

/-- Tile words that slices o to o + n − 1 of a tile touch. -/
def spillWords (o n : Nat) : List Nat := (List.range ((o + n - 1) / 8 - o / 8 + 1)).map fun i => o / 8 + i

def splOp (f : RForm) : WordOp (Val × Tok) Unit where
  rdBusy s acts t := (rA f).busy s acts t || (s.thr t).pending (splLo f) (splN f)
  wrBusy _ _ := false
  rd s acts t :=
    let a := (rA f).read s acts t
    if splLo f + splN f > (s.thr t).alloc then
      let q := raise a.1 t cBND (BitVec.ofNat 64 (splLo f)); (q.1, a.2, q.2)
    else (a.1, a.2, 0)
  eff s t ts v := match v.1 with
    | .bad k => (recordAll s ts k, ())
    | .ok a =>
      let h := a / 2 ^ 16 % 2 ^ 16
      let o := a % 2 ^ 16
      match spillFail s t h o (splN f) with
      | some k => let q := raise s t k (BitVec.ofNat 64 a); (failStore q.1 t (BitVec.ofNat 64 a) ts q.2 (lostTile h (spillWords o (splN f))), ())
      | none => (storeTile s t h (BitVec.ofNat 64 a) ((spillWords o (splN f)).filterMap fun w =>
          splPart s t h w (splWord (s.thr t) v.2 (splLo f) (splN f) o w)), ())
  put s _ _ := s

def spillCost (f : RForm) : Nat := max 1 (ceilDiv (splN f) 32) + crossCost [rA f]

/-- SPL (R129). -/
def execSpl (f : RForm) (s : State) : Out := .next (runWord {} f.x (rA f).endc (spillCost f) (splOp f) s)

/-- A write of a range that drops the part outside each thread's allocation, recording BND (R129, R110). -/
def putClip (s : State) (pc : W64) (lo n : Nat) (g : Thread → Nat → Thread) : Option Tok → List Tid → State
  | _, [] => s
  | k, t :: ts =>
    let x := s.thr t
    let m := min n (x.alloc - lo)
    let s := s.modThr t fun x => if m = 0 then x else g x m
    if m < n then
      match k with
      | some k => putClip (recordDrop s t k) pc lo n g (some k) ts
      | none =>
        let r := raiseAt s t pc cBND (BitVec.ofNat 64 lo)
        putClip (recordDrop r.1 t r.2) pc lo n g (some r.2) ts
    else putClip s pc lo n g k ts

/-- Slices 8g onwards of a fill: the range's slices of granule g, from tile words `ws` that start at slice offset 8 × (o ÷ 8). -/
def filGran (lo m o : Nat) (ws : List Val) (x : Thread) (g : Nat) : Thread :=
  let a := max lo (8 * g)
  let c := min (lo + m) (8 * g + 8) - a
  let off := o % 8 + (a - lo)
  let mine := (ws.drop (off / 8)).take ((off + c - 1) / 8 - off / 8 + 1)
  match firstBad mine with
  | some k => x.put a c (.bad k)
  | none => x.put a c (.ok (wordsNum mine / 2 ^ (4 * (off % 8))))

/-- The first m slices of a fill. -/
def filPut (lo o : Nat) (ws : List Val) (x : Thread) (m : Nat) : Thread :=
  ((List.range (granSpan lo m)).map fun i => lo / 8 + i).foldl (filGran lo m o ws) x

def filOp (f : RForm) : WordOp Val (Option Tok × Nat × List Val) where
  rdBusy s acts t := (rA f).busy s acts t
  wrBusy s t := (s.thr t).pending (splLo f) (splN f)
  rd s acts t := (rA f).read s acts t
  eff s t _ v := match v with
    | .bad k => (s, some k, 0, [])
    | .ok a =>
      let h := a / 2 ^ 16 % 2 ^ 16
      let o := a % 2 ^ 16
      match spillFail s t h o (splN f) with
      | some k => let q := raise s t k (BitVec.ofNat 64 a); (q.1, some q.2, 0, [])
      | none => (s, none, o, (spillWords o (splN f)).map fun w => seeTile s t h w)
  put s ts b := match b.1 with
    | some k => putClip s s.cur.addr (splLo f) (splN f) (fun x m => x.put (splLo f) m (.bad k)) none ts
    | none => putClip s s.cur.addr (splLo f) (splN f) (filPut (splLo f) b.2.1 b.2.2) none ts

/-- FIL (R129). -/
def execFil (f : RForm) (s : State) : Out := .next (runWord {} f.x (rA f).endc (spillCost f) (filOp f) s)

end Sys2Proof.Machine
end

