-- ==== Sys2Proof/Machine/Legs.lean ====
section
/-! DEFINITION. Legs and the poison instructions (R211 to R219). -/

namespace Sys2Proof.Machine

/-! ### LEG (R211) -/

/-- Word offset of a thread's LEG shadow in its frame tile (R246). -/
def shadowWord (x : Thread) : Nat := (frameOff x + 0xC0) / 4

/-- Granules lo to lo + n − 1 as shadow words, and the absent ones among them. -/
def shadowVals (x : Thread) (lo n : Nat) : List Val :=
  (List.range n).map fun i => match tget (lo + i) x.tags with
    | some k => .bad k
    | none => .ok (x.bits (8 * (lo + i)) 8)
def shadowAbsent (x : Thread) (lo n : Nat) : List Nat := (List.range n).filter fun i => decide (8 * (lo + i) ≥ x.alloc)

/-- A leg opens (R211); a shadow that cannot be written leaves every granule absent and records its cause (R247). -/
def openLeg (s : State) (t : Tid) (lo n : Nat) : State :=
  let x := s.thr t
  let nx := s.cur.next
  let fail := if n = 0 then none else frameFail s t 0xC0 0x40
  let l : Leg := { lo := lo, n := n, absent := if fail.isSome then List.range n else shadowAbsent x lo n, pc := nx.pc, hdr := nx.hdr }
  let s := s.setThr t { x with leg := some l, drop := none }
  match fail with
  | some k => recordRaise s t k (BitVec.ofNat 64 (x.tfp.toNat / 256 * 256 + 0xC0))
  | none => if n = 0 then s else
      let ws := (shadowVals x lo n).zipIdx
      ws.foldl (fun s w => if l.absent.contains w.2 then s else setTileWord s (coreOf t) (frameH x) (shadowWord x + w.2) w.1) s

def legOp (lo n : Nat) : WordOp Unit Unit where
  rdBusy s _ t := (s.thr t).pending (8 * lo) (8 * n)
  wrBusy _ _ := false
  rd s _ _ := (s, ())
  eff s t _ _ := (openLeg s t lo n, ())
  put s _ _ := s

/-- LEG (R211). -/
def execLeg (n : BitVec 4) (nothing : Bool) (f : RForm) (s : State) : Out :=
  .next (runWord { bad := fun s acts _ => acts.any fun t => (s.thr t).leg.isSome } f.x false 1
    (legOp (f.d.start.toNat / 8) (if nothing then 0 else n.toNat + 1)) s)

/-! ### COMMIT (R214 to R218) -/

/-- Poisoned live-out granules, lowest first (R215). -/
def liveGrans (x : Thread) (a b : Nat) : List Tok :=
  (List.range (b + 1 - a)).filterMap fun i => if 8 * (a + i) < x.alloc then tget (a + i) x.tags else none

/-- Poisoned held stores, oldest first. -/
def liveHeld (s : State) (t : Tid) : List Tok :=
  (s.core (coreOf t)).quar.filterMap fun h => if h.tid = t then (match h.val with | .bad k => some k | .ok _ => none) else none

/-- Live poison at a COMMIT (R215). -/
def livePoison (s : State) (t : Tid) (a b : Nat) : List Tok :=
  liveGrans (s.thr t) a b ++ liveHeld s t ++ (s.thr t).drop.toList

/-- A token's origin entry when that is valid, not carried and of cause NR (R217). -/
def nrEntry (s : State) (t : Tid) (k : Tok) : Option Origin :=
  (tget (tokOrigin k) (s.core (coreOf t)).org).filter fun o => decide (o.info.toNat % 16 = cNR) && !o.info.getLsbD 5

/-- Whether a COMMIT.R may replay (R217). -/
def mayReplay (s : State) (t : Tid) (l : Leg) (ks : List Tok) : Bool :=
  decide (l.replays < 4) && l.replayable && ks.all fun k => tokCause k == cNR && (nrEntry s t k).isSome

/-- The distinct pages that a replay waits for (R217): pages that are resident by now draw no request (R207). One that a store of the leg
has missed is a store's (R387). -/
def replayPages (s : State) (t : Tid) (ks : List Tok) : List PageWait :=
  let ps := ks.filterMap fun k => (nrEntry s t k).bind fun o => (absentPage s t o.addr).map fun (w : PageWait) => { w with store := o.store }
  (ps.map fun (w : PageWait) => { w with store := ps.any fun v => v.same w && v.store }).dedup

/-- The shadow restored, held stores and the record discarded, one more replay (R217). -/
def replayLeg (s : State) (t : Tid) : State :=
  let x := s.thr t
  match x.leg with
  | none => s
  | some l =>
    let ws := if (frameFail s t 0xC0 0x40).isSome then [] else (tileWords s (coreOf t) (frameH x) (shadowWord x) l.n).zipIdx
    let y := ws.foldl (fun (y : Thread) w => if l.absent.contains w.2 then y else y.put (8 * (l.lo + w.2)) 8 w.1) x
    (discardHeld s t).setThr t { y with drop := none, leg := some { l with replays := l.replays + 1, first := none }, pc := l.pc, hdr := l.hdr }

/-- The recovery path (R217): `k` is the first live token. -/
def recoverLeg (s : State) (t : Tid) (k : Option Tok) : State :=
  (discardHeld s t).modThr t fun x => { x with leg := none, drop := if x.drop.isSome then x.drop else k }

/-- One thread's COMMIT (R217): where it goes, `rec` the recovery target. -/
def commitThread (s : State) (t : Tid) (a b : Nat) (replay : Bool) (rec_ : Tgt) : State × Option Tgt :=
  match (s.thr t).leg with
  | none => (s, none)
  | some l =>
    let ks := livePoison s t a b
    let first := (liveGrans (s.thr t) a b ++ liveHeld s t).head?
    if ks.isEmpty then ((releaseHeld s t).modThr t fun x => { x with drop := none, leg := none }, none)
    else if replay && mayReplay s t l ks then
      let ps := replayPages s t ks
      if ps.isEmpty then (replayLeg s t, some ⟨l.pc, l.hdr⟩)
      else
        let s := ps.foldl (fun s p => pageRequest s (coreOf t) p.asid p.page p.store false) s
        (s.modThr t fun x => { x with leg := some { l with first := first }, hold := { x.hold with parked := ps, refused := false } }, some rec_)
    else (recoverLeg s t first, some rec_)

/-- Accesses that COMMIT waits for (R216), and whether slices wait for a result other than a command's, which it does not wait for. -/
def accessesOut (s : State) (t : Tid) : Bool :=
  (s.core (coreOf t)).reqs.any fun r => r.kind != .multi && r.tids.contains t
def reqPending (s : State) (t : Tid) (lo n : Nat) : Bool :=
  (s.thr t).pend.any fun p => decide (p.lo < lo + n) && decide (lo < p.lo + p.n) && (s.core (coreOf t)).reqs.any fun r => r.id == p.id

/-- The target of a branch-form word (R42). -/
def brTgt (p : Port) (f : BForm) : Tgt := ⟨p.hdrAddr + f.disp.signExtend 64 * 8, none⟩

def commitOp (f : BForm) (replay : Bool) : WordOp Unit (Option Tgt) where
  rdBusy s _ t :=
    let a := (f.fld.extractLsb' 9 6).toNat
    let b := (f.fld.extractLsb' 3 6).toNat
    accessesOut s t || reqPending s t (8 * a) (8 * (b + 1 - a))
  wrBusy _ _ := false
  rd s _ _ := (s, ())
  eff s t _ _ := commitThread s t (f.fld.extractLsb' 9 6).toNat (f.fld.extractLsb' 3 6).toNat replay (brTgt s.cur f)
  put s _ _ := s
  tgt _ _ b := b

def commitGate : Gate := { last := true, bad := fun s acts _ => acts.any fun t => (s.thr t).leg.isNone }

/-- COMMIT (R214, R217). -/
def execCommit (f : BForm) (s : State) : Out := .next (runWord commitGate f.x false 1 (commitOp f false) s)
/-- COMMIT.R (R214, R217). -/
def execCommitR (f : BForm) (s : State) : Out := .next (runWord commitGate f.x false 1 (commitOp f true) s)

/-! ### Poison instructions (R219) -/

/-- Whether a read gives poison for any reason. -/
def Peek.bad : Peek → Bool
  | .val (.ok _) => false
  | _ => true

def pchkOp (f : RForm) : WordOp Bool Bool where
  rdBusy s acts t := (rA f).busy s acts t
  wrBusy _ _ := false
  rd s acts t := (s, ((rA f).peek s acts t).bad)
  eff s _ _ b := (s, b)
  put s ts b := putPred s f.d.start.toNat b ts
  sdc := sdcPred f.d.start.toNat

/-- PCHK (R219). -/
def execPchk (f : RForm) (s : State) : Out := .next (runWord {} f.x (rA f).endc (1 + crossCost [rA f]) (pchkOp f) s)

/-- A poisoned granule becomes zero (PCLR). -/
def clearGran (x : Thread) (g : Nat) : Thread :=
  if (tget g x.tags).isSome then { x with slices := setSlices x.slices (8 * g) 8 0, tags := tdel g x.tags } else x

/-- A change of the granules that D touches, in every thread of the word; a range outside a thread's allocation is dropped
and not recorded (R110, R219). -/
def onGrans (s : State) (d : Opd) (g : Thread → Nat → Thread) (ts : List Tid) : State :=
  ts.foldl (fun s t => s.modThr t fun x =>
    if d.start.toNat + d.slices > x.alloc then x
    else ((List.range (granSpan d.start.toNat d.slices)).map fun i => d.start.toNat / 8 + i).foldl g x) s

def pclrOp (f : RForm) : WordOp Unit Unit where
  rdBusy _ _ _ := false
  wrBusy s t := (s.thr t).pending f.d.start.toNat f.d.slices
  rd s _ _ := (s, ())
  eff s _ _ _ := (s, ())
  put s ts _ := onGrans s f.d clearGran ts
  sdc := sdcInto f.d

/-- PCLR (R219). -/
def execPclr (f : RForm) (s : State) : Out := .next (runWord {} f.x false 1 (pclrOp f) s)

def psetOp (f : RForm) : WordOp Unit Tok where
  rdBusy _ _ _ := false
  wrBusy s t := (s.thr t).pending f.d.start.toNat f.d.slices
  rd s _ _ := (s, ())
  eff s t _ _ := raise s t cUSER
  put s ts k := onGrans s f.d (fun x g => x.put (8 * g) 8 (.bad k)) ts
  sdc := sdcInto f.d

/-- PSET (R219). -/
def execPset (f : RForm) (s : State) : Out := .next (runWord {} f.x false 1 (psetOp f) s)

/-- Record word k of an origin entry (R220). -/
def Origin.word (o : Origin) (k : BitVec 2) : Nat :=
  if k = 0 then o.pc.toNat else if k = 1 then o.addr.toNat else if k = 2 then o.cyc % 2 ^ 64 else o.info.toNat

/-- A clean value written to D where it lies inside the allocation (R219). -/
def putQuiet (s : State) (d : Opd) (v : Nat) (ts : List Tid) : State :=
  ts.foldl (fun s t => s.modThr t fun x =>
    if d.start.toNat + d.slices > x.alloc then x else x.put d.start.toNat d.slices (.ok v)) s

def porgOp (k : BitVec 2) (f : RForm) : WordOp Val Nat where
  rdBusy s acts t := (rA f).busy s acts t
  wrBusy s t := (s.thr t).pending f.d.start.toNat f.d.slices
  rd s acts t := (rA f).read s acts t
  eff s t _ v := (s, match v with
    | .ok _ => 0
    | .bad b => match tget (tokOrigin b) (s.core (coreOf t)).org with
      | some o => o.word k
      | none => 0)
  put s ts v := putQuiet s f.d v ts
  sdc := sdcInto f.d

/-- PORG (R219). -/
def execPorg (k : BitVec 2) (f : RForm) (s : State) : Out :=
  .next (runWord {} f.x (rA f).endc (1 + crossCost [rA f]) (porgOp k f) s)

end Sys2Proof.Machine
end

