-- ==== Sys2Proof/Machine/Fence.lean ====
section
/-! DEFINITION. FENCE, ICINV and DCWB (R209, R231 to R237). -/

namespace Sys2Proof.Machine

/-- What a fence of thread t waits for (R232). -/
def fenceBusy (acq rel : Bool) (sc : Nat) (s : State) (t : Tid) : Bool :=
  (acq && acqBusy s t sc) || (rel && relBusy s t sc)

/-- The layout cache empties on every FENCE of the core (R297). -/
def dropLasts (s : State) (c : Nat) : State := s.modCore c Core.dropLasts

/-- FENCE (R230, R232, R234, R235): with U it waits for every active thread. -/
def fenceOp (acq rel : Bool) (sc : Nat) : WordOp Unit Unit where
  rdBusy _ _ _ := false
  wrBusy := fenceBusy acq rel sc
  wait s t := if rel then relStart s (coreOf t) sc else s
  rd s _ _ := (s, ())
  eff s t _ _ :=
    let c := coreOf t
    let s := if rel then relEnd s c sc else s
    let s := if acq then acquire s c sc else s
    (dropLasts s c, ())
  put s _ _ := s

def fenceWord (acq rel : Bool) (scope : BitVec 3) (f : RForm) (s : State) : State :=
  runWord {} f.x false 1 (fenceOp acq rel scope.toNat) s

/-- FENCE.acq, FENCE.rel, FENCE.ar (R231). -/
def execFenceAcq (scope : BitVec 3) (f : RForm) (s : State) : Out := .next (fenceWord true false scope f s)
def execFenceRel (scope : BitVec 3) (f : RForm) (s : State) : Out := .next (fenceWord false true scope f s)
def execFenceAr (scope : BitVec 3) (f : RForm) (s : State) : Out := .next (fenceWord true true scope f s)

/-! ### ICINV (R237) -/

/-- Instruction-cache entries dropped: one line, or all. -/
def dropCode (s : State) (c sc : Nat) (line : Option Nat) : State :=
  { s with cores := s.cores.map fun p =>
      if inScope c sc p.1 then (p.1, { p.2 with icache := match line with | some l => tdel l p.2.icache | none => [] }) else p }

/-- The line of va as an instruction fetch translates it (R189), if it does. -/
def codeLine (s : State) (t : Tid) (va : W64) : Option Nat :=
  match (lookup s (coreOf t) (threadSpace s t) va).2 with
  | .ok p => if p.peer != 0 || (!(s.thr t).priv && !p.leaf.getLsbD 4) || !p.leaf.getLsbD 3 then none else some (p.pa / 64)
  | _ => none

def icinvOp (sc : Nat) (src : Option Src) : WordOp Val Unit where
  rdBusy s acts t := match src with | some r => r.busy s acts t | none => false
  wrBusy _ _ := false
  rd s acts t := match src with | some r => r.read s acts t | none => (s, .ok 0)
  eff s t ts v := match src, v with
    | none, _ => (dropCode s (coreOf t) sc none, ())
    | some _, .bad k => (recordAll (dropCode s (coreOf t) sc none) ts k, ())
    | some _, .ok a => (dropCode s (coreOf t) sc (codeLine s t (BitVec.ofNat 64 a)), ())
  put s _ _ := s

/-- ICINV of the whole cache, and of one line (R237). -/
def execIcinv (scope : BitVec 3) (f : RForm) (s : State) : Out :=
  .next (runWord {} f.x false 1 (icinvOp scope.toNat none) s)
def execIcinvLine (scope : BitVec 3) (f : RForm) (s : State) : Out :=
  .next (runWord {} f.x (rA f).endc (1 + crossCost [rA f]) (icinvOp scope.toNat (some (rA f))) s)

/-! ### DCWB (R209) -/

/-- The dirty words of one line of core c go home and stay valid; no ownership. -/
def writeBackLine (s : State) (c line : Nat) : State :=
  writeBackKeys s c false (((s.core c).l1.filter fun e => e.1 / 16 == line).map Prod.fst)

/-- Checks 1 to 4 of R189 on the line of va. -/
def dcwbAt (s : State) (t : Tid) (ts : List Tid) (va : W64) : State :=
  let c := coreOf t
  let r := lookup s c (threadSpace s t) va
  match r.2 with
  | .fault k => let q := raise r.1 t k va; recordAll q.1 ts q.2
  | .carried k => let q := raiseCarried r.1 t (s.thr t).pc k va; recordAll q.1 ts q.2
  | .ok p =>
    if !(s.thr t).priv && !p.leaf.getLsbD 4 then let q := raise r.1 t cPROT va; recordAll q.1 ts q.2
    else if p.peer = 0 then writeBackLine r.1 c (p.pa / 64) else r.1

def dcwbOp (f : RForm) : WordOp Val Unit where
  rdBusy s acts t := (rA f).busy s acts t
  wrBusy _ _ := false
  rd s acts t := (rA f).read s acts t
  eff s t ts v := match v with
    | .bad k => (recordAll s ts k, ())
    | .ok a => (dcwbAt s t ts (BitVec.ofNat 64 a), ())
  put s _ _ := s

/-- DCWB of a line (R209). -/
def execDcwb (f : RForm) (s : State) : Out := .next (runWord {} f.x (rA f).endc (1 + crossCost [rA f]) (dcwbOp f) s)

def dcwbAllOp : WordOp Unit Unit where
  rdBusy _ _ _ := false
  wrBusy _ _ := false
  rd s _ _ := (s, ())
  eff s t _ _ := (writeBackAll s (coreOf t) false, ())
  put s _ _ := s

/-- DCWB.all (R209). -/
def execDcwbAll (f : RForm) (s : State) : Out := .next (runWord {} f.x false 1 dcwbAllOp s)

end Sys2Proof.Machine
end

