-- ==== Sys2Proof/Machine/Control.lean ====
section
/-! DEFINITION. Group 010: control transfer, scheduling, teams, allocation, queries, waits and futures (R91, R97, R101 to R107,
R111, R112, R117, R146 to R158). FCANCEL stands in Future.lean. -/

namespace Sys2Proof.Machine

/-! ### Control transfer (R146 to R151) -/

/-- A transfer: an optional target operand, an optional link, an optional displaced target (R148 to R150). -/
structure Jump where
  src : Option Src := none
  link : Option Opd := none
  disp : Option (BitVec 32) := none

/-- Where a transfer with target value v goes. -/
def Jump.target (j : Jump) (p : Port) (v : Nat) : Tgt :=
  match j.disp with
  | some d => ⟨p.hdrAddr + d.signExtend 64 * 8, none⟩
  | none => ⟨BitVec.ofNat 64 (v / 8 * 8), none⟩

/-- A poisoned target does not transfer, writes no link and is recorded (R149). -/
def Jump.op (j : Jump) : WordOp Val (Except Tok Tgt) where
  rdBusy s acts t := match j.src with | some r => r.busy s acts t | none => false
  wrBusy s t := match j.link with | some d => (s.thr t).pending d.start.toNat d.slices | none => false
  rd s acts t := match j.src with | some r => r.read s acts t | none => (s, .ok 0)
  eff s _ _ v := (s, match v with | .bad k => .error k | .ok a => .ok (j.target s.cur a))
  put s ts b := match b with
    | .error k => recordAll s ts k
    | .ok _ => match j.link with
      | some d => putAll s s.cur.addr d.start.toNat d.slices (.ok s.cur.next.pc.toNat) none ts
      | none => s
  tgt _ _ b := match b with | .error _ => none | .ok g => some g

/-- A transfer marked U (R147): predicates and targets that agree act once; else as without U, with UVIOL set. One whose predicates and targets
agree, but a thread of which has copies that differ (R259), runs as one that does not agree (DESIGN CHOICE, assumption 18). -/
def Jump.uniform (j : Jump) (x : Pfx) (s : State) : State :=
  let p := s.cur
  let each := j.op.act { x with u := false } ((j.src.map Src.endc).getD false) (1 + crossCost j.src.toList)
  if p.acts.isSome then each s else
  let acts := p.pack.filter fun t => actsOn x (s.thr t)
  match gateTrap s { last := true } x acts with
  | some r => takeTrap s r
  | none =>
    if (acts.any fun t => j.op.rdBusy s acts t) || (acts.any fun t => j.op.wrBusy s t) then stall s
    else match acts with
      | [] => endWord s 1
      | t :: _ =>
        let r := j.op.reads acts acts s
        let vs := r.2.map Prod.snd
        if acts.length = p.pack.length ∧ vs.all (fun v => some v == vs.head?) ∧ acts.all (fun t => !upset s t) then
          endWord (j.op.uniform (s.modCur (begin_ acts)) acts t p.pack) (1 + crossCost j.src.toList)
        else
          each ((p.pack.foldl (fun s t => s.modThr t fun y => { y with uviol := true }) s).modCur (begin_ acts))

def Jump.run (j : Jump) (x : Pfx) (s : State) : State :=
  if x.u then j.uniform x s
  else runWord { last := true } x ((j.src.map Src.endc).getD false) (1 + crossCost j.src.toList) j.op s

/-- The operand in [46:35] of a branch-form word (R42). -/
def bOpd (f : BForm) : Opd := ⟨f.fld.extractLsb' 6 9, f.fld.extractLsb' 3 3⟩

/-- BRA, JMPI, CALL, CALLI, RET (R148 to R150). -/
def execBra (f : BForm) (s : State) : Out := .next (({ disp := some f.disp } : Jump).run f.x s)
def execJmpi (f : RForm) (s : State) : Out := .next (({ src := some (rA f) } : Jump).run f.x s)
def execCall (f : BForm) (s : State) : Out := .next (({ link := some (bOpd f), disp := some f.disp } : Jump).run f.x s)
def execCalli (f : RForm) (s : State) : Out := .next (({ src := some (rA f), link := some f.d } : Jump).run f.x s)
def execRet (f : RForm) (s : State) : Out := .next (({ src := some (rA f) } : Jump).run f.x s)

/-- LOOPD's counter as a source (R42). -/
def bSrc (f : BForm) : Src := ⟨(bOpd f).start.toNat, (bOpd f).slices, .self, 0, false⟩

/-- LOOPD (R151): the counter's new value, and whether to go on at the target. -/
def loopdOp (f : BForm) : WordOp Val (Except Tok Nat) where
  rdBusy s acts t := (bSrc f).busy s acts t
  wrBusy s t := (s.thr t).pending (bOpd f).start.toNat (bOpd f).slices
  rd s acts t := (bSrc f).read s acts t
  eff s _ _ v := (s, match v with | .bad k => .error k | .ok c => .ok c)
  put s ts b := match b with
    | .error k => recordAll s ts k
    | .ok c => if c = 0 then s else putAll s s.cur.addr (bOpd f).start.toNat (bOpd f).slices (.ok (c - 1)) none ts
  tgt s _ b := match b with
    | .error _ => none
    | .ok c => if c ≤ 1 then none else some (brTgt s.cur f)

def execLoopd (f : BForm) (s : State) : Out := .next (runWord { last := true } f.x false (1 + crossCost [bSrc f]) (loopdOp f) s)

/-! ### Scheduling (R97, R152 to R154) -/

/-- A word without operands whose effect is on each thread it acts for. -/
def plainOp (g : State → List Tid → State) : WordOp Unit Unit where
  rdBusy _ _ _ := false
  wrBusy _ _ := false
  rd s _ _ := (s, ())
  eff s _ _ _ := (s, ())
  put s ts _ := g s ts

/-- YIELD (R97): its demotion starts at the end of the clause. -/
def yieldAll (s : State) (ts : List Tid) : State := ts.foldl (fun s t => s.modThr t fun x => { x with yields := true }) s
def execYield (f : RForm) (s : State) : Out := .next (runWord {} f.x false 1 (plainOp yieldAll) s)

/-- NOP (R152). -/
def execNop (f : RForm) (s : State) : Out := .next (runWord {} f.x false 1 (plainOp fun s _ => s) s)

/-- A thread that acted on STOP waits for its commands and, with a stop word, its release (R153, R386). -/
def beginStop (s : State) (ts : List Tid) : State :=
  ts.foldl (fun s t =>
    s.modThr t fun x => { x with hold := { x.hold with stopping := true } }) s

/-- STOP (R153). -/
def execStop (f : RForm) (s : State) : Out :=
  .next (runWord { last := true, bad := fun s acts _ => acts.any fun t => (s.thr t).leg.isSome } f.x false 1 (plainOp beginStop) s)

/-- SLEEP (R154). -/
def execSleep (f : IForm) (s : State) : Out :=
  .next (runWord {} f.x false 1 (plainOp fun s ts => ts.foldl (fun s t => s.modThr t fun x =>
    { x with hold := { x.hold with sleep := some (max (x.hold.sleep.getD 0) (s.now + f.imm.toNat)) } }) s) s)

/-! ### WAITW (R155) -/

/-- Lines that core c watches in its table of 64. -/
def watchedLines (s : State) (c : Nat) : List Nat :=
  (s.threads.filterMap fun p => if coreOf p.1 = c then (p.2.hold.watch.bind fun w => if w.tabled then some w.line else none) else none).dedup

/-- A thread's watch set: it is blocked after its clause. Of two WAITWs of one clause that both block, the later is watched (DESIGN CHOICE,
assumption 78). -/
def blockOn (s : State) (ts : List Tid) (w : Watch) : State :=
  ts.foldl (fun s t => s.modThr t fun x => { x with hold := { x.hold with watch := some w } }) s

/-- The watch of a word that still holds the expected value. -/
def watchOf (s : State) (t : Tid) (ea : W64) (bits want : Nat) (p : Page) : Watch :=
  let ls := watchedLines s (coreOf t)
  let line := p.pa / 64
  let tabled := ls.contains line || decide (ls.length < 64)
  { va := ea, line := line, bits := bits, want := want, tabled := tabled, due := s.now + (if tabled then 65536 else 1024)
    pc := s.cur.addr, lead := t }

/-- WAITW once its operands are clean (R155). -/
def waitwAt (s : State) (t : Tid) (ts : List Tid) (ea : W64) (bits want : Nat) : State :=
  if ea.toNat % (bits / 8) ≠ 0 then let q := raise s t cBND ea; recordAll q.1 ts q.2
  else
    let r := loadAt s t ea bits false false id
    match r.2 with
    | .tok k => recordAll r.1 ts k
    | .absent => let q := raise r.1 t cNR ea; recordAll q.1 ts q.2
    | .got (.carried k a) => let q := raiseCarried r.1 t (s.thr t).pc k a; recordAll q.1 ts q.2
    | .got (.tok k) => recordAll r.1 ts k
    | .got (.cause k a) => let q := raise r.1 t k a; recordAll q.1 ts q.2
    | .got (.clean v) =>
      if v ≠ want then r.1
      else match (xlat s t .load ea).2 with
        | .ok p => blockOn r.1 ts (watchOf r.1 t ea bits want p)
        | _ => r.1
    | .peer p => blockOn r.1 ts { va := ea, bits := bits, want := want, due := s.now, tabled := false, peer := p.peer, pc := s.cur.addr, lead := t }

def waitwOp (f : RForm) : WordOp (List Val) Unit where
  rdBusy s acts t := busySrcs [rA f, rB f] s acts t || (match (rA f).peek s acts t with
    | .val (.ok a) => fillBusy s t (BitVec.ofNat 64 a) f.b.bits
    | _ => false)
  wrBusy _ _ := false
  rd s acts t := readSrcs acts t [rA f, rB f] s
  eff s t ts vs := match lowTok vs with
    | some k => (recordAll s ts k, ())
    | none => (waitwAt s t ts (BitVec.ofNat 64 (arg (vs.map Val.num) 0)) f.b.bits (arg (vs.map Val.num) 1), ())
  put s _ _ := s

/-- WAITW (R155). -/
def execWaitw (f : RForm) (s : State) : Out :=
  .next (runWord {} f.x ([rA f, rB f].any Src.endc) (1 + crossCost [rA f, rB f]) (waitwOp f) s)

/-! ### Spawns (R73, R87, R91, R386) -/

/-- Whether an entry word fails the checks of R73. -/
def entryWordBad (w : Nat) : Bool :=
  bitsOf w 63 48 != 0xE17A || bitsOf w 47 16 != 0 || bitsOf w 7 7 != 0 || bitsOf w 3 3 != 0 || decide (bitsOf w 2 0 ≥ 5)
    || decide (bitsOf w 11 8 > 12)

/-- Width, priority and extension granules of an entry word; a failing word gives none of them (R73). -/
def entryFields (w : Nat) : BitVec 3 × Nat × Nat :=
  if entryWordBad w then (0, 0, 0) else (BitVec.ofNat 3 w, bitsOf w 6 4, bitsOf w 11 8)

/-- The entry word before e, read as LD reads it, never from a peer (R91). -/
def readEntry (s : State) (t : Tid) (e : W64) : State × Except Tok Nat :=
  let ea := e - 8
  let r := xlat s t .load ea
  match r.2 with
  | .fault k => let q := raise r.1 t k ea; (q.1, .error q.2)
  | .carried k => let q := raiseCarried r.1 t (s.thr t).pc k ea; (q.1, .error q.2)
  | .ok p =>
    if p.peer ≠ 0 then let q := raise r.1 t cPROT ea; (q.1, .error q.2)
    else
      let l := loadAt r.1 t ea 64 false false id
      match l.2 with
      | .got (.clean v) => (l.1, .ok v)
      | .got (.carried k a) => let q := raiseCarried l.1 t (s.thr t).pc k a; (q.1, .error q.2)
      | .got (.tok k) | .tok k => (l.1, .error k)
      | _ => (l.1, .ok 0)

/-- The bin that takes a record for an entry (R87). -/
def binFor (s : State) (c : Nat) (entry : W64) : Option Nat :=
  let bs := (s.core c).bins
  match (List.range 16).find? fun i => (tgetD i {} bs).key == some entry with
  | some i => if (tgetD i {} bs).recs.length < 64 then some i else none
  | none => (List.range 16).find? fun i => (tgetD i {} bs).recs.isEmpty

/-- A record put into a bin (R87). -/
def putRecord (s : State) (c : Nat) (r : SpawnRec) : Option State :=
  (binFor s c r.entry).map fun i => s.modCore c fun x =>
    let b := tgetD i {} x.bins
    let b := if b.recs.isEmpty then { b with opened := s.now, expired := false } else b
    { x with bins := tset i { b with key := some r.entry, recs := b.recs ++ [{ r with at_ := s.now }] } x.bins }

/-- Records of a job put into bins until one finds no room. -/
def pushJob (s : State) (t : Tid) : Nat → State
  | 0 => s
  | n + 1 =>
    match (s.thr t).spawn with
    | none => s
    | some j =>
      if j.next ≥ j.count then s
      else match putRecord s (coreOf t) (if j.batch then { j.rec_ with s0 := j.next } else j.rec_) with
        | none => s
        | some s' => pushJob (s'.modThr t fun x => { x with spawn := some { j with next := j.next + 1 } }) t n

/-- The checks of R91 and the count of R386: the job that remains, `batch` for SPAWNN. -/
def beginSpawn (s : State) (t : Tid) (batch : Bool) (vs : List Val) : State :=
  let start := fun (s : State) (j : SpawnJob) => s.modThr t fun x => { x with spawn := some j }
  match lowTok vs with
  | some k => start (recordDrop s t k) {}
  | none =>
    let l := vs.map Val.num
    let e : W64 := BitVec.ofNat 64 (arg l 0 / 8 * 8)
    let r := readEntry s t e
    match r.2 with
    | .error k => start (recordDrop r.1 t k) {}
    | .ok w =>
      let n := if batch then arg l 1 else 1
      if n > 4096 then start (recordRaise r.1 t cINV) {}
      else if n = 0 then start r.1 {}
      else
        let x := s.thr t
        let f := entryFields w
        let s := r.1
        let s := if !x.priv && x.stopw != 0 then (homeAdd s (coreOf t) (x.stopw.toNat / 4 * 4) n).1 else s
        start s
          { rec_ := { entry := e, width := f.1, prio := f.2.1, xgran := f.2.2, s8 := n,
                      s16 := if batch then x.bits 16 16 else arg l 1,
                      s16tags := if batch then x.tags.filter fun g => g.1 == 2 || g.1 == 3 else [],
                      stopw := x.stopw, redun := x.redun },
            count := n, batch := batch }

/-- SPAWN and SPAWNN stay at their word until every record has entered a bin (R91). -/
def spawnOp (batch : Bool) (f : RForm) : WordOp Unit Unit where
  rdBusy s acts t := busySrcs [rA f, rB f] s acts t || (batch && (s.thr t).pending 16 16)
    || (match (s.thr t).spawn with | none => true | some j => decide (j.next < j.count))
  wrBusy _ _ := false
  wait s t :=
    let acts := s.cur.acts.getD []
    if busySrcs [rA f, rB f] s acts t || (batch && (s.thr t).pending 16 16) then s
    else
      let s := match (s.thr t).spawn with
        | some _ => s
        | none => let r := readSrcs acts t [rA f, rB f] s; beginSpawn r.1 t batch r.2
      pushJob s t 4096
  rd s _ _ := (s, ())
  eff s t ts _ := ((noReplay s ts).modThr t fun x => { x with spawn := none }, ())
  put s _ _ := s

/-- SPAWN, SPAWNN (R91). -/
def execSpawn (f : RForm) (s : State) : Out :=
  .next (runWord {} f.x ([rA f, rB f].any Src.endc) (1 + crossCost [rA f, rB f]) (spawnOp false f) s)
def execSpawnn (f : RForm) (s : State) : Out :=
  .next (runWord {} f.x ([rA f, rB f].any Src.endc) (1 + crossCost [rA f, rB f]) (spawnOp true f) s)

/-! ### Teams (R102 to R105) -/

/-- The threads a team word is for, each with its handle; a poisoned operand leaves a thread out (R102, R103). -/
def teamUnits (x : Pfx) (rs : List Src) (all : Bool) (s : State) (acts pack : List Tid) : List (Tid × Nat) :=
  let got := acts.filterMap fun t =>
    let ps := rs.map fun r => r.peek s acts t
    if ps.any Peek.bad then none else match ps.head? with
      | some (.val (.ok h)) => some (t, h)
      | _ => none
  if x.u && all then (match got with | (_, h) :: _ => pack.map fun u => (u, h) | [] => []) else got

/-- An invalid team handle (R102). -/
def badHandle (h : Nat) : Bool := decide (h > 0xFFFF) || bitsOf h 15 9 != 0

/-- JOINs that would raise MEMBERS above 2048 (R103): `l` counts the joins so far by entry. -/
def joinsOver (s : State) : List (Nat × Nat) → List (Tid × Nat) → Bool
  | _, [] => false
  | l, (t, h) :: us =>
    let k := teamCore t h * 64 + h % 64
    let e := teamOf s t h
    let n := (l.find? fun p => p.1 == k).elim (if e.live then e.members else 0) Prod.snd
    decide (n + 1 > 2048) || joinsOver s ((k, n + 1) :: l) us

/-- The threads that JOINs under way on other ports have still to act for. -/
def joinsUnder (s : State) : List (Tid × Nat) :=
  s.ports.flatMap fun p =>
    if s.iss = some p.1 then []
    else match p.2.acts, decode p.2.word with
      | some acts, some (.join f) => (teamUnits f.x [rA f] true { s with iss := some p.1 } acts p.2.pack).filter fun u => !p.2.done.contains u.1
      | _, _ => []

/-- The STATE checks of R103 for JOIN, which counts the JOINs under way with its own, and for the words of a member. -/
def joinBad (s : State) (us : List (Tid × Nat)) : Bool :=
  us.any (fun u => badHandle u.2 || (s.thr u.1).team.isSome) || joinsOver s [] (joinsUnder s ++ us)
def memberBad (s : State) (us : List (Tid × Nat)) : Bool :=
  us.any fun u => badHandle u.2 || (s.thr u.1).team != some (BitVec.ofNat 16 u.2)

def teamGate (x : Pfx) (rs : List Src) (all : Bool) (bad : State → List (Tid × Nat) → Bool) : Gate where
  wait s acts _ := acts.any fun t => busySrcs rs s acts t
  bad s acts pack := !acts.isEmpty && bad s (teamUnits x rs all s acts pack)

/-- A team word: `g` is its effect for one thread, with `all` U makes it act for every active thread, `out` says that its effect leaves
the thread (R213), and `acq` that it orders what follows as FENCE.acq.clu does (R105). -/
def teamOp (rs : List Src) (all rel out acq : Bool) (g : State → Tid → Nat → Nat → State) : WordOp (List Val) Unit where
  rdBusy s acts t := busySrcs rs s acts t || (rel && relBusy s t 2)
  wrBusy s t := acq && acqBusy s t 2
  wait s t := if rel then relStart s (coreOf t) 2 else s
  rd s acts t := readSrcs acts t rs s
  eff s t ts vs :=
    let us := if all then ts else [t]
    let s := if out then noReplay s us else s
    match lowTok vs with
    | some k => (recordAll s us k, ())
    | none => (us.foldl (fun s u => g s u (arg (vs.map Val.num) 0) (arg (vs.map Val.num) 1)) s, ())
  put s _ _ := s

def teamWord (f : RForm) (rs : List Src) (all rel out acq : Bool) (bad : State → List (Tid × Nat) → Bool)
    (g : State → Tid → Nat → Nat → State) (s : State) : State :=
  runWord (teamGate f.x rs all bad) f.x (rs.any Src.endc) (1 + crossCost rs) (teamOp rs all rel out acq g) s

/-- JOIN (R102). -/
def execJoin (f : RForm) (s : State) : Out :=
  .next (teamWord f [rA f] true false true false joinBad (fun s t h _ =>
    (setTeam s t h (teamOf s t h).join).modThr t fun x => { x with team := some (BitVec.ofNat 16 h) }) s)
/-- LEAVE (R102). -/
def execLeave (f : RForm) (s : State) : Out :=
  .next (teamWord f [rA f] true false true false memberBad (fun s t _ _ => leaveTeam s t) s)
/-- ARRIVE (R102, R105). -/
def execArrive (f : RForm) (s : State) : Out :=
  .next (teamWord f [rA f, rB f] false true true false memberBad (fun s t h n => setTeam s t h ((teamOf s t h).arrive n)) s)
/-- WAITPH (R102, R105). -/
def execWaitph (f : RForm) (s : State) : Out :=
  .next (teamWord f [rA f, rB f] true false false true memberBad (fun s t h b =>
    if phaseOver s t (BitVec.ofNat 16 h) (BitVec.ofNat 16 b) then acquire s (coreOf t) 2
    else s.modThr t fun x => { x with hold := { x.hold with phase := some (BitVec.ofNat 16 h, BitVec.ofNat 16 b) } }) s)

/-! ### The item queue (R106, R107) -/

def itemOp (f : BForm) : WordOp Unit (Option Val) where
  rdBusy _ _ _ := false
  wrBusy s t := (s.thr t).pending (bOpd f).start.toNat (bOpd f).slices
  rd s _ _ := (s, ())
  eff s t _ _ :=
    match (s.core (coreOf t)).items with
    | [] => (s, none)
    | v :: l => (s.modCore (coreOf t) fun x => { x with items := l }, some v)
  put s ts b := match b with
    | some v => putAll s s.cur.addr (bOpd f).start.toNat (bOpd f).slices v none ts
    | none => s
  tgt s _ b := if b.isNone then some (brTgt s.cur f) else none

/-- ITEM (R106). -/
def execItem (f : BForm) (s : State) : Out := .next (runWord { last := true } f.x false 1 (itemOp f) s)

def itempushOp (f : RForm) : WordOp Val Unit where
  room := roomFor .items
  rdBusy s acts t := (rA f).busy s acts t || decide ((s.core (coreOf t)).items.length ≥ 4096)
  wrBusy _ _ := false
  rd s acts t := (rA f).read s acts t
  eff s t ts v := (noReplay (s.modCore (coreOf t) fun x => { x with items := x.items ++ [v] }) ts, ())
  put s _ _ := s

/-- ITEMPUSH (R107). -/
def execItempush (f : RForm) (s : State) : Out :=
  .next (runWord {} f.x (rA f).endc (1 + crossCost [rA f]) (itempushOp f) s)

/-! ### GROW and SHRINK (R111, R112) -/

/-- Free extension granules of a lane's pool (R89, R109). -/
def laneFree (s : State) (lane : Nat) : Nat :=
  1024 - ((s.threads.filter fun p => laneKey p.1 == lane).map fun p => p.2.xgran).sum

/-- Waiting GROWs of thread t's lane, oldest first. -/
def growWaits (s : State) (t : Tid) : List (Nat × Nat) :=
  (s.core (coreOf t)).growQ.filter fun g => laneKey g.1 == laneKey t

/-- Slices lo to lo + n − 1 read zero with their tags clear. -/
def Thread.blank (x : Thread) (lo n : Nat) : Thread :=
  { x with slices := setSlices x.slices lo n 0, tags := x.tags.filter fun g => !(decide (lo ≤ 8 * g.1) && decide (8 * g.1 < lo + n)) }

def growThread (s : State) (t : Tid) (n : Nat) : State :=
  s.modThr t fun x => { (x.blank x.alloc (32 * n)) with xgran := x.xgran + n }

def growOver (n : Nat) (s : State) (acts _pack : List Tid) : Bool := acts.any fun t => decide ((s.thr t).xgran + n > 12)

def growOp (n : Nat) : WordOp Unit Unit where
  rdBusy s _ t := decide (laneFree s (laneKey t) < n) || (match growWaits s t with | [] => false | g :: _ => g.1 != t)
  wrBusy _ _ := false
  wait s t := if (growWaits s t).any fun g => g.1 == t then s
    else s.modCore (coreOf t) fun x => { x with growQ := x.growQ ++ [(t, n)] }
  rd s _ _ := (s, ())
  eff s t _ _ :=
    (growThread (s.modCore (coreOf t) fun x => { x with growQ := x.growQ.filter fun g => g.1 != t }) t n, ())
  put s _ _ := s

/-- GROW (R112). -/
def execGrow (f : IForm) (s : State) : Out :=
  .next (runWord { bad := growOver f.imm.toNat } f.x false 1 (growOp f.imm.toNat) s)

def growNbOp (n : Nat) (d : Opd) : WordOp Unit Bool where
  rdBusy _ _ _ := false
  wrBusy _ _ := false
  rd s _ _ := (s, ())
  eff s t _ _ :=
    if laneFree s (laneKey t) ≥ n ∧ growWaits s t = [] then (growThread s t n, true) else (s, false)
  put s ts b := putPred s d.start.toNat b ts
  sdc := sdcPred d.start.toNat

/-- GROW.NB (R112). -/
def execGrowNb (f : IForm) (s : State) : Out :=
  .next (runWord { bad := growOver f.imm.toNat } f.x false 1 (growNbOp f.imm.toNat f.d) s)

/-- The STATE checks of SHRINK: more than it holds, or a granule of the open shadow released (R112). -/
def shrinkBad (n : Nat) (s : State) (acts _pack : List Tid) : Bool :=
  acts.any fun t =>
    let x := s.thr t
    decide (n > x.xgran) || (match x.leg with
      | some l => decide (0 < l.n) && decide (8 * (l.lo + l.n) > 128 + 32 * (x.xgran - n)) && decide (8 * l.lo < x.alloc)
      | none => false)

def shrinkOp (n : Nat) : WordOp Unit Unit where
  rdBusy s _ t := (s.thr t).pending (128 + 32 * ((s.thr t).xgran - n)) (32 * n)
  wrBusy _ _ := false
  rd s _ _ := (s, ())
  eff s t _ _ := (s.modThr t fun x => { (x.blank (128 + 32 * (x.xgran - n)) (32 * n)) with xgran := x.xgran - n }, ())
  put s _ _ := s

/-- SHRINK (R112). -/
def execShrink (f : IForm) (s : State) : Out :=
  .next (runWord { bad := shrinkBad f.imm.toNat } f.x false 1 (shrinkOp f.imm.toNat) s)

/-! ### SREAD (R117) -/

def sreadVal (s : State) (t : Tid) (sel : BitVec 3) : Nat :=
  let x := s.thr t
  let c := coreOf t
  match sel.toNat with
  | 0 => (tstat x).toNat
  | 1 => tix x t
  | 2 => laneOf t
  | 3 => c
  | 4 => c % 8 + (c / 8 % 12) * 2 ^ 3 + dieOf c * 2 ^ 7
  | 5 => x.count .s + x.count .m * 2 ^ 8 + x.count .c * 2 ^ 16 + x.count .f * 2 ^ 24
  | 6 => x.alloc
  | _ => s.cyc c % 2 ^ 64

/-- A word whose result is a clean value of the thread or core. -/
def queryOp (d : Opd) (g : State → Tid → Nat) : WordOp Unit Nat where
  rdBusy _ _ _ := false
  wrBusy s t := (s.thr t).pending d.start.toNat d.slices
  rd s _ _ := (s, ())
  eff s t _ _ := (s, g s t)
  put s ts v := putAll s s.cur.addr d.start.toNat d.slices (.ok (v % 2 ^ d.bits)) none ts
  sdc := sdcInto d

/-- SREAD (R117): D's poison tags are cleared, also where D covers part of a granule. -/
def sreadOp (d : Opd) (sel : BitVec 3) : WordOp Unit Nat :=
  { queryOp d fun s t => sreadVal s t sel with put := fun s ts v => putClean s s.cur.addr d (v % 2 ^ d.bits) ts }

def execSread (sel : BitVec 3) (f : RForm) (s : State) : Out := .next (runWord {} f.x false 1 (sreadOp f.d sel) s)

/-! ### WAIT and futures (R156 to R158) -/

def clsOf (k : BitVec 2) : Cls := if k = 0 then .s else if k = 1 then .m else if k = 2 then .c else .f

def waitOp (k : Cls) (n : Nat) : WordOp Unit Unit where
  rdBusy _ _ _ := false
  wrBusy s t := decide ((s.thr t).count k > n)
  rd s _ _ := (s, ())
  eff s _ _ _ := (s, ())
  put s _ _ := s

/-- WAIT (R156). -/
def execWait (cls : BitVec 2) (f : IForm) (s : State) : Out :=
  .next (runWord {} f.x false 1 (waitOp (clsOf cls) f.imm.toNat) s)

/-- A handle as the future instructions read it: pending marks and tags ignored (R157). -/
def peekRaw (r : Src) (s : State) (acts : List Tid) (t : Tid) : Except Peek Raw :=
  match carryOf s acts t r.ax r.fieldB with
  | some v => .ok v
  | none => match srcThread s acts t r.ax r.e with
    | none => .error .xch
    | some u => if r.lo + r.n > (s.thr u).alloc then .error (.bnd r.lo) else .ok ((s.thr u).raw r.lo r.n)

/-- Reading a handle: one that cannot be read gives its poison (R157). -/
def readRaw (r : Src) (s : State) (acts : List Tid) (t : Tid) : State × Raw :=
  match peekRaw r s acts t with
  | .ok v => (s, v)
  | .error p => let q := settle s t p; (q.1, .out (match q.2 with | .bad k => k | .ok _ => 0))

def fwaitOp (f : RForm) : WordOp Raw Unit where
  rdBusy s acts t := match peekRaw (rA f) s acts t with
    | .ok (.got h _) => (futLive s (coreOf t) h).isSome
    | _ => false
  wrBusy _ _ := false
  rd s acts t := readRaw (rA f) s acts t
  eff s _ ts v := (match v with | .out k => recordAll s ts k | .got _ _ => s, ())
  put s _ _ := s

/-- FWAIT (R158). -/
def execFwait (f : RForm) (s : State) : Out :=
  .next (runWord {} f.x (rA f).endc (1 + crossCost [rA f]) (fwaitOp f) s)

def ftestOp (f : RForm) : WordOp Raw Bool where
  rdBusy _ _ _ := false
  wrBusy _ _ := false
  rd s acts t := readRaw (rA f) s acts t
  eff s t ts v := match v with
    | .out k => (recordAll s ts k, true)
    | .got h _ => (s, (futLive s (coreOf t) h).isNone)
  put s ts b := putPred s f.d.start.toNat b ts
  sdc := sdcPred f.d.start.toNat

/-- FTEST (R158). -/
def execFtest (f : RForm) (s : State) : Out :=
  .next (runWord {} f.x (rA f).endc (1 + crossCost [rA f]) (ftestOp f) s)

/-- Granule g of a copy of a field to slices lo to lo + n − 1: a granule that takes slices of a tagged one keeps the copied bits
beside the first of their tokens (R158); another is written as usual. -/
def Thread.passGran (lo n bits : Nat) (toks : List (Option Tok)) (x : Thread) (g : Nat) : Thread :=
  let a := max lo (8 * g)
  let z := min (lo + n) (8 * g + 8)
  match ((toks.drop (a - lo)).take (z - a)).findSome? id with
  | none => x.putGran g lo n (.ok bits)
  | some k => { x with slices := setSlices x.slices a (z - a) (bits >>> (4 * (a - lo))), tags := tset g k x.tags }

/-- A field copied with its tags and tokens as they stand (R158). -/
def Thread.passPut (x : Thread) (lo n bits : Nat) (toks : List (Option Tok)) : Thread :=
  ((List.range (granSpan lo n)).map fun i => lo / 8 + i).foldl (Thread.passGran lo n bits toks) x

/-- FPASS's word: what it copies and the work item that the copy waits for. -/
def fpassOp (f : RForm) : WordOp Raw (Raw × Option Nat) where
  rdBusy _ _ _ := false
  wrBusy s t := (s.thr t).pending f.d.start.toNat f.d.slices
  rd s acts t := readRaw (rA f) s acts t
  eff s t ts v := match v with
    | .out k => (recordAll s ts k, v, none)
    | .got h _ => (s, v, (futLive s (coreOf t) h).map Fut.id)
  put s ts b :=
    let lo := f.d.start.toNat
    let n := f.d.slices
    match b.1 with
    | .out k => putAll s s.cur.addr lo n (.bad k) none ts
    | .got h ks =>
      let fit := ts.filter fun t => decide (lo + n ≤ (s.thr t).alloc)
      let s := putAll s s.cur.addr lo n (.ok h) none (ts.filter fun t => !decide (lo + n ≤ (s.thr t).alloc))
      fit.foldl (fun s t =>
        let s := s.modThr t fun x => x.passPut lo n h ks
        match b.2 with
        | some i => markPend s t lo n i true
        | none => s) s
  sdc := sdcInto f.d

/-- FPASS (R158). -/
def execFpass (f : RForm) (s : State) : Out :=
  .next (runWord {} f.x (rA f).endc (1 + crossCost [rA f]) (fpassOp f) s)

end Sys2Proof.Machine
end

