-- ==== Sys2Proof/Machine/Cmd.lean ====
section
/-! DEFINITION. Asynchronous commands: their issue, and how an engine reads and writes memory for them (R13 to R22, R229, R298,
R299). -/

namespace Sys2Proof.Machine

/-- How a word issues a command: its class, its future's destination, its operands, its queue and whether that is full, and what enqueues
it, or completes it at once with or without a token. -/
structure CmdIssue where
  cls : Cls
  fut : Option Opd
  rs : List Src
  full : State → Nat → Bool
  queue : Queue
  add : State → Tid → List Tid → Nat → List Nat → State × Option (Option Tok)

/-- A command as issued: its number, its handle, and its completion when that is immediate. -/
structure Issued where
  id : Nat
  h : Nat
  now_ : Option (Option Tok)
  deriving DecidableEq, Repr

/-- The future's handle written and its slices pending (R20, R21). -/
def putHandle (s : State) (ts : List Tid) (d : Option Opd) (i : Issued) : State :=
  match d with
  | none => s
  | some d =>
    let s := putAll s s.cur.addr d.start.toNat d.slices (.ok i.h) none ts
    ts.foldl (fun s t => markPend s t d.start.toNat d.slices i.id true) s

/-- Issuing a command (R13): a poisoned operand completes it at once with the lowest token (R298, R352). -/
def cmdOp (q : CmdIssue) : WordOp (List Val) Issued where
  room s acts := roomFor q.queue s acts && (q.fut.isNone || roomFor .futs s acts)
  rdBusy s acts t := busySrcs q.rs s acts t || q.full s (coreOf t) || (q.fut.isSome && futFull s (coreOf t))
  wrBusy s t := countFull s q.cls [t] || (match q.fut with
    | some d => (s.thr t).pending d.start.toNat d.slices
    | none => false)
  rd s acts t := readSrcs acts t q.rs s
  eff s t ts vs :=
    let c := coreOf t
    let f := s.fresh c
    let s := issueCmd f.1 q.cls f.2 ts
    let h := if q.fut.isSome then allocFut s c q.cls f.2 else (s, 0)
    match lowTok vs with
    | some k => (h.1, ⟨f.2, h.2, some (some k)⟩)
    | none => let r := q.add h.1 t ts f.2 (vs.map Val.num); (r.1, ⟨f.2, h.2, r.2⟩)
  put s ts i :=
    let s := putHandle s ts q.fut i
    match i.now_ with
    | some k => completeCmd s (coreOf (ts.headD 0)) i.id k
    | none => s

/-- A command word in a clause of class `cls` (R31). -/
def cmdWord (cls : Nat) (sup : Bool) (x : Pfx) (q : CmdIssue) (s : State) : State :=
  runWord { cls := some cls, sup := sup } x (q.rs.any Src.endc) (1 + crossCost q.rs) (cmdOp q) s

/-- D under FUT (R44). -/
def futOf (f : RForm) : Option Opd := if f.r4 then some f.d else none

/-! ### Memory as an engine of core c reads and writes it -/

/-- A fault's token, one for each faulting page of a command (R299). -/
def pageFault (s : State) (lead : Tid) (pc : W64) (ps : Tbl Tok) (cause : Nat) (va : W64) : State × Tbl Tok × Tok :=
  match tget (va.toNat / 2 ^ 16) ps with
  | some k => (s, ps, k)
  | none => let r := raiseAt s lead pc cause va; (r.1, tset (va.toNat / 2 ^ 16) r.2 ps, r.2)

/-- An arriving token's carried entry, one for each distinct token of a command (R299). -/
def carryTok (s : State) (lead : Tid) (pc : W64) (ts : List (Tok × Tok)) (k : Tok) (va : W64) : State × List (Tok × Tok) × Tok :=
  match ts.find? fun p => p.1 == k with
  | some p => (s, ts, p.2)
  | none => let r := raiseCarried s lead pc k va; (r.1, (k, r.2) :: ts, r.2)

/-- A word as core c's engine reads it: from its own L1 where it is dirty there, else from its home (R229). -/
def strWord (s : State) (c w : Nat) : Val :=
  match tget w (s.core c).l1 with
  | some e => if e.dirty.isSome then e.val else homeWord s w
  | none => homeWord s w

/-- A word of a peer's line that has come back. -/
def peerWord (ls : List RLine) (p : Page) : Except Nat Val :=
  match ls.find? fun l => l.peer == p.peer && l.line == p.pa / 64 with
  | none => .error cPEER
  | some l => match l.fail with
    | some k => .error k
    | none => .ok (l.words.getD (p.pa / 4 % 16) (.ok 0))

/-- Whether a page's line has been asked for and come back. -/
def haveLine (ls : List RLine) (p : Page) : Bool := ls.any fun l => l.peer == p.peer && l.line == p.pa / 64

/-- A read request of a command for one line of a peer; its tag (R349). With `keep` the reply is kept as a load's is. -/
def askLine (s : State) (c id : Nat) (lead : Tid) (pc : W64) (asid : Nat) (va : W64) (p : Page) (keep : Bool := false) : State × Nat :=
  let tag := nextTag s
  (fabSend (migCount s asid va p) 1 p.peer
    { core := c, tid := lead, pc := pc, ea := va, use := .cmd id, lo := p.pa / 64 * 64, hi := p.pa / 64 * 64 + 64, bits := 512
      more := if keep then p.mode else 0, sk := p.sk }
    (reqPayload (p.pa / 64 * 64) (2 ^ 64 - 1) 0 0 0 0 (identOf s.fab.dev.toNat lead)) [], tag)

/-- Write data of a command for one line of a peer: words with byte masks; its tag (R349, R354). The core's own copies leave its L1 (R229). -/
def sendLine (s : State) (c id : Nat) (lead : Tid) (pc : W64) (asid : Nat) (va : W64) (p : Page)
    (ws : List (Nat × BitVec 4 × Val)) : State × Nat :=
  let tag := nextTag s
  let mask := (ws.map fun w => w.2.1.toNat * 2 ^ (w.1 % 16 * 4)).sum
  let pois := (ws.filterMap fun w => match w.2.2 with | .bad _ => some (2 ^ (w.1 % 16)) | .ok _ => none).sum
  let data := (ws.map fun w => w.2.2.num * 2 ^ (w.1 % 16 * 32)).sum
  let s := dropPeer s c p.peer (ws.map Prod.fst)
  (fabSend (migCount s asid va p) 0 p.peer
    { core := c, tid := lead, pc := pc, ea := va, use := .cmd id, write := true, lo := p.pa / 64 * 64, hi := p.pa / 64 * 64 + 64 }
    (reqPayload (p.pa / 64 * 64) mask pois 1 0 0 (identOf s.fab.dev.toNat lead)) [(BitVec.ofNat 512 data, pois != 0)], tag)

end Sys2Proof.Machine
end

