-- ==== Sys2Proof/Machine/Stream.lean ====
section
/-! DEFINITION. Lasts, access-slice descriptors, and what stream commands do when they start and complete (R294 to R306, R308,
R310, R311). -/

namespace Sys2Proof.Machine

/-! ### Records (R294, R295, R310) -/

/-- Dimension k of a last record (R294). -/
def lastDim (b : Nat) (k : Nat) : Nat × Nat × Int :=
  let d := b / 2 ^ (8 * 0x18 + 64 * k) % 2 ^ 64
  (d % 2 ^ 16, d / 2 ^ 16 % 2 ^ 16, toSigned 32 (d / 2 ^ 32))

/-- A last's fields, none when it is invalid (R295). -/
def parseLast (b : Nat) : Option Last :=
  let base := b % 2 ^ 64
  let eb := b / 2 ^ 64 % 256
  let nd := b / 2 ^ 72 % 256
  let pad := b / 2 ^ 80 % 256
  let dims := (List.range nd).map (lastDim b)
  let spare := ((List.range 5).drop nd).map fun k => b / 2 ^ (8 * 0x18 + 64 * k) % 2 ^ 64
  if b / 2 ^ 88 % 2 ^ 40 ≠ 0 ∨ eb ∉ [1, 2, 4, 8, 16, 32, 64] ∨ nd = 0 ∨ nd > 5 ∨ pad > 2
      ∨ (dims.any fun d => d.1 == 0 || decide (d.2.1 > d.1)) ∨ (spare.any fun d => d != 0)
      ∨ (8 ≤ eb ∧ base % (eb / 8) ≠ 0) then none
  else some { base := base, ebits := eb, pad := pad, padval := b / 2 ^ 128 % 2 ^ 64, dims := dims }

/-- Elements of a last (R296). -/
def Last.count (l : Last) : Nat := (l.dims.map fun d => d.1).foldl (· * ·) 1

/-- Index of element n, innermost first. -/
def Last.index : List (Nat × Nat × Int) → Nat → List Nat
  | [], _ => []
  | d :: ds, n => n % d.1 :: Last.index ds (n / d.1)

/-- Whether element n is in bounds, and its bit address (R296). -/
def Last.inside (l : Last) (n : Nat) : Bool := (l.dims.zip (Last.index l.dims n)).all fun p => decide (p.2 < p.1.2.1)
def Last.bitAddr (l : Last) (n : Nat) : Nat :=
  (((8 * l.base : Nat) : Int) + (l.ebits : Int) * ((l.dims.zip (Last.index l.dims n)).map fun (p : (Nat × Nat × Int) × Nat) => (p.2 : Int) * p.1.2.2).sum)
    % 2 ^ 67 |>.toNat

/-- Addresses of the memory words that element n occupies. -/
def Last.words (l : Last) (n : Nat) : List W64 :=
  let b := l.bitAddr n
  if l.ebits = 64 then [BitVec.ofNat 64 (b / 8), BitVec.ofNat 64 (b / 8) + 4] else [BitVec.ofNat 64 (b / 8)]

/-- In-bounds elements. -/
def Last.insides (l : Last) : List Nat := (List.range l.count).filter l.inside

/-- A descriptor's fields, none when it is invalid (R310, R311). -/
def parseSlice (b : Nat) : Option Slice :=
  let f := fun (o n : Nat) => b / 2 ^ (8 * o) % 2 ^ (8 * n)
  let lv := f 0x10 1
  let level := fun (k : Nat) => (f (0x20 + 12 * k) 4, toSigned 64 (f (0x24 + 12 * k) 8))
  if lv = 0 ∨ lv > 8 ∨ f 0x11 1 > 3 ∨ f 0x12 1 > 7 ∨ f 0x13 1 = 0 ∨ f 0x13 1 > 16 ∨ f 0x14 12 ≠ 0
      ∨ ((List.range lv).any fun k => (level k).1 == 0)
      ∨ (((List.range 8).drop lv).any fun k => f (0x20 + 12 * k) 12 != 0) then none
  else some { base := f 0 8, tstride := toSigned 64 (f 8 8), esize := f 0x11 1, queue := f 0x12 1, depth := f 0x13 1,
              levels := (List.range lv).map level }

/-- Elements of an access slice for each thread, and the address of element n for thread index x (R310). -/
def Slice.count (a : Slice) : Nat := (a.levels.map Prod.fst).foldl (· * ·) 1
def Slice.index : List (Nat × Int) → Nat → List Nat
  | [], _ => []
  | d :: ds, n => n % d.1 :: Slice.index ds (n / d.1)
def Slice.addr (a : Slice) (x n : Nat) : W64 :=
  BitVec.ofInt 64 ((a.base : Int) + (x : Int) * a.tstride + ((a.levels.zip (Slice.index a.levels n)).map fun p => (p.2 : Int) * p.1.2).sum)

/-! ### A command's memory -/

/-- The command with id in core c's queue, and its replacement. -/
def strGet (s : State) (c id : Nat) : Option StrCmd := (s.core c).strQ.find? fun k => k.id == id
def strSet (s : State) (c : Nat) (k : StrCmd) : State :=
  s.modCore c fun x => { x with strQ := x.strQ.map fun q => if q.id = k.id then k else q }

/-- Completion of a stream command (R15): it leaves the queue. -/
def strDone (s : State) (c id : Nat) (k : Option Tok) : State :=
  completeCmd (s.modCore c fun x => { x with strQ := x.strQ.filter fun q => q.id != id }) c id k

/-- A command that completes with fresh poison (R295, R298). -/
def strFail (s : State) (c : Nat) (k : StrCmd) (cause : Nat) (addr : W64 := 0) : State :=
  let r := raiseAt s k.lead k.pc cause addr
  strDone r.1 c k.id (some r.2)

/-- Translation for a command: its issuing thread's ASID and privilege (R298). -/
def strXlat (s : State) (c : Nat) (k : StrCmd) (a : Acc) (va : W64) : State × Tr :=
  translate s c ⟨(spaceOf k.root).root, k.asid⟩ k.user a va

/-- Who asks for tiles on a command's behalf. -/
def StrCmd.asker (k : StrCmd) : Asker := ⟨k.asid, k.frames⟩

/-- One 32-bit word of memory for a command: the clean bits, or poison with the command's own entry for it (R299). -/
def memWord (s : State) (c : Nat) (k : StrCmd) (va : W64) : State × StrCmd × Val :=
  let r := strXlat s c k .load va
  match r.2 with
  | .fault f => let q := pageFault r.1 k.lead k.pc k.pages f va; (q.1, { k with pages := q.2.1 }, .bad q.2.2)
  | .carried t => let q := carryTok r.1 k.lead k.pc k.toks t va; (q.1, { k with toks := q.2.1 }, .bad q.2.2)
  | .ok p =>
    let got : Except Nat Val := if p.peer = 0 then .ok (strWord r.1 c (p.pa / 4)) else peerWord k.lines p
    match got with
    | .error f => let q := pageFault r.1 k.lead k.pc k.pages f va; (q.1, { k with pages := q.2.1 }, .bad q.2.2)
    | .ok (.ok v) => (r.1, k, .ok v)
    | .ok (.bad t) =>
      let q := carryTok r.1 k.lead k.pc k.toks t (BitVec.ofNat 64 (va.toNat / 4 * 4))
      (q.1, { k with toks := q.2.1 }, .bad q.2.2)

/-- Lines of peers that addresses need and that have not come back, each with the first of its addresses (R299). -/
def peerLines (s : State) (c : Nat) (k : StrCmd) (a : Acc) (vas : List W64) : List (W64 × Page) :=
  vas.foldl (fun (l : List (W64 × Page)) va => match (strXlat s c k a va).2 with
    | .ok p => if p.peer = 0 || haveLine k.lines p || l.any (fun q => q.2.peer == p.peer && q.2.pa / 64 == p.pa / 64) then l
      else l ++ [(va, p)]
    | _ => l) []

/-- Whether a command that asked for a line at `ea` reads the word at va of it (R299). -/
def StrCmd.reads (k : StrCmd) (ea va : W64) : Bool :=
  k.stage == 1 || (match k.op with
    | .sload .. | .fill .. | .strns .. => k.last.insides.any fun n => (k.last.words n).any fun a => a.toNat / 4 == va.toNat / 4
    | .asl _ => va.toNat / 4 == ea.toNat / 4 || (k.slice.esize == 3 && va.toNat / 4 == ea.toNat / 4 + 1)
    | _ => false)

/-- A peer's line, or its failure, reaches the command that asked for it at `ea`: what its poison records is entered now (R24, R299). -/
def StrCmd.got (s : State) (k : StrCmd) (ea : W64) (l : RLine) (reads : W64 → Bool) : State × StrCmd :=
  match l.fail with
  | some f =>
    let q := pageFault s k.lead k.pc k.pages f ea
    (q.1, { k with pages := q.2.1, lines := k.lines ++ [{ l with tok := some q.2.2 }] })
  | none =>
    l.words.zipIdx.foldl (fun (a : State × StrCmd) w =>
      let va : W64 := BitVec.ofNat 64 (ea.toNat / 64 * 64 + 4 * w.2)
      match w.1 with
      | .bad t => if reads va then let q := carryTok a.1 k.lead k.pc a.2.toks t va; (q.1, { a.2 with toks := q.2.1 }) else a
      | .ok _ => a) (s, { k with lines := k.lines ++ [l] })

/-- Those lines asked for (R349): the command waits for their tags. -/
def askLines (s : State) (c : Nat) (k : StrCmd) (ls : List (W64 × Page)) : State × StrCmd :=
  ls.foldl (fun (a : State × StrCmd) l =>
    let r := askLine a.1 c k.id k.lead k.pc k.asid l.1 l.2
    (r.1, { a.2 with tags := a.2.tags ++ [r.2] })) (s, k)

/-! ### Reading a record (R295, R297) -/

/-- What reading a record of n lines gives: its bits, a peer to wait for, or a token. -/
inductive RecRead where
  | bits (v : Nat)
  | ask (ls : List (W64 × Page))
  | fail (k : Tok)
  deriving DecidableEq, Repr

/-- The words of a record at va. -/
def recWords (s : State) (c : Nat) (k : StrCmd) (va : W64) : Nat → State × StrCmd × List Val
  | 0 => (s, k, [])
  | n + 1 =>
    let a := memWord s c k va
    let r := recWords a.1 c a.2.1 (va + 4) n
    (r.1, r.2.1, a.2.2 :: r.2.2)

/-- A record of n 64-byte lines at va. -/
def readRecord (s : State) (c : Nat) (k : StrCmd) (va : W64) (n : Nat) : State × RecRead :=
  if va.toNat % 64 ≠ 0 then let r := raiseAt s k.lead k.pc cBND va; (r.1, .fail r.2)
  else
    let ls := peerLines s c k .load ((List.range n).map fun i => va + BitVec.ofNat 64 (64 * i))
    if !ls.isEmpty then (s, .ask ls)
    else
      let r := recWords s c k va (16 * n)
      match firstBad r.2.2 with
      | some t => (r.1, .fail t)
      | none => (r.1, .bits (wordsNum r.2.2))

/-- A last through the layout cache (R297). -/
def readLast (s : State) (c : Nat) (k : StrCmd) (va : W64) : State × RecRead :=
  let l := (s.core c).lasts
  match l.find? fun e => e.1 == va.toNat && e.2.1 == k.asid with
  | some e => (s.modCore c fun x => { x with lasts := e :: l.erase e }, .bits e.2.2.toNat)
  | none =>
    let r := readRecord s c k va 1
    match r.2 with
    | .bits b =>
      match parseLast b with
      | none => let q := raiseAt r.1 k.lead k.pc cBND va; (q.1, .fail q.2)
      | some _ => (if k.stay then
            r.1.modCore c fun x => { x with lasts := ((va.toNat, k.asid, BitVec.ofNat 512 b) :: x.lasts).take 64 } else r.1, r.2)
    | x => (r.1, x)

/-- The record address of a command. -/
def StrOp.record : StrOp → Option W64
  | .sload _ l | .fill _ l | .sstore _ l | .lastld l => some l
  | .strns _ _ _ _ _ l => some l
  | .asl d => some d
  | .scopy .. => none

/-! ### Elements of a last -/

/-- Element n as one value per 32-bit word, or its pad (R296, R299). -/
def elemRead (s : State) (c : Nat) (k : StrCmd) (n : Nat) : State × StrCmd × List Val :=
  let l := k.last
  if l.inside n then
    if l.ebits = 64 then
      match l.words n with
      | [a, b] =>
        let x := memWord s c k a
        let y := memWord x.1 c x.2.1 b
        (y.1, y.2.1, [x.2.2, y.2.2])
      | _ => (s, k, [])
    else
      let a := BitVec.ofNat 64 (l.bitAddr n / 8)
      let x := memWord s c k a
      (x.1, x.2.1, [match x.2.2 with | .ok v => .ok (v / 2 ^ (l.bitAddr n % 32) % 2 ^ l.ebits) | b => b])
  else
    let m := if l.ebits = 64 then 2 else 1
    if l.pad = 2 then
      match k.padTok with
      | some t => (s, k, List.replicate m (.bad t))
      | none =>
        let r := raiseAt s k.lead k.pc cBND (BitVec.ofNat 64 (l.bitAddr n / 8))
        (r.1, { k with padTok := some r.2 }, List.replicate m (.bad r.2))
    else (s, k, numWords (if l.pad = 0 then 0 else l.padval % 2 ^ l.ebits) m)

/-! ### Tile positions (R289, R302) -/

/-- Word and shift of linear position p in a rows-layout tile. -/
def rowsPlace (sh : W64) (p : Nat) : Nat × Nat :=
  let b := p % shCols sh * shBits sh
  (p / shCols sh * shPitch sh / 4 + b / 32, b % 32)

/-- The linear position whose element's first bit lies at byte o (R302). -/
def posAt (sh : W64) (o : Nat) : Option Nat :=
  let row := o / shPitch sh
  let b := o % shPitch sh * 8
  if b % shBits sh = 0 ∧ b / shBits sh < shCols sh ∧ row < shRows sh then some (row * shCols sh + b / shBits sh) else none

/-- A tile as a command names it: handle and byte offset of a scratch address. -/
def saH (a : Nat) : Nat := a / 2 ^ 16 % 2 ^ 16
def saO (a : Nat) : Nat := a % 2 ^ 16

/-- Bits of a value put into a tile word (R200, R299). -/
def putTile (s : State) (c h w sh nb : Nat) (v : Val) : State :=
  setTileWord s c h w (mergeWord (tileWord s c h w) sh nb v)

/-- Element parts written at linear position p; the words written (R302). -/
def elemPut (s : State) (c h p : Nat) (vs : List Val) : State × List Nat :=
  let sh := tileShape s c h
  let w := rowsPlace sh p
  match vs with
  | [v] => (putTile s c h w.1 w.2 (shBits sh) v, [w.1])
  | [a, b] => (setTileWord (setTileWord s c h w.1 a) c h (w.1 + 1) b, [w.1, w.1 + 1])
  | _ => (s, [])

/-- The token of the lowest poisoned word among those a command wrote (R299). -/
def lowestBad (s : State) (c h : Nat) (ws : List Nat) : Option Tok :=
  let w := ws.filter fun w => match tileWord s c h w with | .bad _ => true | .ok _ => false
  match w with
  | [] => none
  | a :: l => match tileWord s c h (l.foldl min a) with | .bad k => some k | .ok _ => none

/-- The scratch tile a command works on, its start byte and the byte its elements must end by (R302, R308). -/
def strTile (s : State) (c : Nat) (k : StrCmd) : Option (Nat × Nat × Option Nat) :=
  match k.op with
  | .sload d _ => some (saH d.toNat, saO d.toNat, none)
  | .sstore d _ => some (saH d.toNat, saO d.toNat, none)
  | .strns _ _ _ _ d _ => some (saH d.toNat, saO d.toNat, none)
  | .fill r _ =>
    let g := tgetD (r.toNat % 16) {} (s.core c).rings
    let a := k.slot.getD 0 * g.slotB
    some (g.tile.toNat, a, some (a + g.slotB))
  | _ => none

/-- The checks of R302 for a loading or storing command with last l on a tile: the starting position. -/
def startPos (sh : W64) (l : Last) (o : Nat) (lim : Option Nat) : Option Nat :=
  if shPlanes sh then none
  else match posAt sh o with
    | none => none
    | some p =>
      let e := p + l.count - 1
      let w := rowsPlace sh e
      if l.ebits ≠ shBits sh ∨ p + l.count > shRows sh * shCols sh
        ∨ lim.elim false (fun z => decide (w.1 * 32 + w.2 + shBits sh > z * 8)) = true then none
      else some p

/-- The checks of STRNS (R306): the starting row. -/
def startRow (sh : W64) (l : Last) (o : Nat) (int : Bool) (w : Nat) : Option Nat :=
  let rb := shBits sh * shPitch sh
  if !shPlanes sh || shBits sh != (if int then w else 8) || !([8, 16, 32].contains l.ebits)
    || (int && decide (l.ebits < w)) || o % rb != 0 then none
  else
    let row := o / rb
    if row ≥ shRows sh ∨ row * shCols sh + l.count > shRows sh * shCols sh then none else some row

/-! ### The order of one thread's commands on one destination (R313) -/

/-- The tile bytes that a command writes, as far as they are known: the tile, first byte, and byte after the last. -/
def strDest (s : State) (c : Nat) (k : StrCmd) : Option ((Nat × Nat × Nat) × Nat × Nat) :=
  let id := fun (h : Nat) => (rankCore c h, hLevel h, hIndex h)
  match k.op with
  | .sload d _ =>
    let sh := tileShape s c (saH d.toNat)
    some (id (saH d.toNat), saO d.toNat, if k.stage = 2 then 4 * (rowsPlace sh (k.start + k.last.count - 1)).1 + 8 else 2 ^ 16)
  | .strns _ _ _ _ d _ => some (id (saH d.toNat), saO d.toNat, 2 ^ 16)
  | .scopy d _ n => some (id (saH d.toNat), saO d.toNat, saO d.toNat + n)
  | .fill r _ =>
    let g := tgetD (r.toNat % 16) {} (s.core c).rings
    let i := k.slot.getD g.fillAt
    some (id g.tile.toNat, i * g.slotB, i * g.slotB + g.slotB)
  | _ => none

/-- The memory words that an SSTORE under way writes, by device and physical word; none while its last is not read. -/
def strWords (s : State) (c : Nat) (k : StrCmd) : Option (List (Nat × Nat)) :=
  match k.op with
  | .sstore .. => if k.stage < 2 then none else some ((k.last.insides.flatMap k.last.words).filterMap fun va =>
      match (strXlat s c k .store va).2 with | .ok p => some (p.peer, p.pa / 4) | _ => none)
  | _ => some []

/-- Whether two commands may write the same word. -/
def sameDest (s : State) (c : Nat) (a b : StrCmd) : Bool :=
  match strDest s c a, strDest s c b with
  | some p, some q => p.1 == q.1 && decide (p.2.1 < q.2.2) && decide (q.2.1 < p.2.2)
  | some _, none | none, some _ => false
  | none, none => match a.op, b.op with
    | .sstore .., .sstore .. => match strWords s c a, strWords s c b with
      | some p, some q => p.any q.contains
      | _, _ => true
    | _, _ => false

/-- Whether a command's move waits for an earlier one of its thread to the same words, whose values it replaces. -/
def strAfter (s : State) (c : Nat) (k : StrCmd) : Bool :=
  ((s.core c).strQ.takeWhile fun q => q.id != k.id).any fun q => q.tids.any k.tids.contains && sameDest s c q k

/-! ### Failures -/

/-- A fill writes its failure into every word of its slot and still completes it (R308). -/
def fillSlot (s : State) (c : Nat) (k : StrCmd) (r : BitVec 16) (t : Option Tok) : State :=
  let i := r.toNat % 16
  let g := tgetD i {} (s.core c).rings
  let h := g.tile.toNat
  let s := match t with
    | none => s
    | some t =>
      if (tileFail s c h k.asker true (k.slot.getD 0 * g.slotB) g.slotB).isSome then s
      else ((List.range (g.slotB / 4)).map fun i => k.slot.getD 0 * g.slotB / 4 + i).foldl (fun s w => setTileWord s c h w (.bad t)) s
  s.modCore c fun x => { x with rings := tset i { g with filled := g.filled + 1 } x.rings }

/-- A command ends with a token that its checks gave it; a fill poisons its slot after its thread's earlier commands to those words
(R313). -/
def strStop (s : State) (c : Nat) (k : StrCmd) (t : Tok) : State :=
  match k.op with
  | .fill r _ =>
    if strAfter s c k then strSet s c { k with stage := 2, fault := some t }
    else strDone (fillSlot s c k r (some t)) c k.id (some t)
  | _ => strDone s c k.id (some t)

/-- A fresh failure of a started command. -/
def strReject (s : State) (c : Nat) (k : StrCmd) (cause : Nat) (addr : W64 := 0) : State :=
  let r := raiseAt s k.lead k.pc cause addr
  strStop r.1 c k r.2

/-! ### Access-slice queues (R311) -/

/-- Queue-store entries of core c in use. -/
def queueUse (s : State) (c : Nat) : Nat :=
  ((s.threads.filter fun p => coreOf p.1 == c).map fun p =>
    (p.2.queues.map fun q => if q.2.bound then max q.2.depth q.2.elems.length else q.2.elems.length).sum).sum

/-- Whether an access slice whose descriptor is read waits: a thread that it serves still holds a live slice on its queue, an earlier
slice of such a thread is still to bind, or the queue store has no room. -/
def aslWaits (s : State) (c : Nat) (k : StrCmd) : Bool :=
  (k.tids.any fun t => (tgetD k.slice.queue { bound := false } (s.thr t).queues).bound)
    || ((s.core c).strQ.takeWhile fun q => q.id != k.id).any (fun q => q.tids.any k.tids.contains && match q.op with
        | .asl _ => q.stage ≤ 1 || (q.stage == 4 && q.slice.queue == k.slice.queue)
        | _ => false)
    || decide (queueUse s c + k.slice.depth * k.tids.length > 8192)

/-- The slice's queues are bound, unless it waits. -/
def aslBind (s : State) (c : Nat) (k : StrCmd) : State :=
  if aslWaits s c k then strSet s c { k with stage := 4 }
  else
    let s := k.tids.foldl (fun s t => s.modThr t fun x =>
      let q := tgetD k.slice.queue {} x.queues
      { x with queues := tset k.slice.queue { depth := k.slice.depth, elems := q.elems, left := k.slice.count, asl := k.id } x.queues }) s
    strSet s c { k with stage := 2, due := s.now + s.cfg.streamLatency }

/-- R288's checks and R302's or R306's of a command on its tile: where it starts, or the failing cause. -/
def strPlace (s : State) (c : Nat) (k : StrCmd) : Except Nat Nat :=
  match strTile s c k with
  | none => .ok 0
  | some (h, o, lim) => match tileFail s c h k.asker true 0 0 with
    | some f => .error f
    | none =>
      let p := match k.op with
        | .strns sub int _ _ _ _ => startRow (tileShape s c h) k.last o int (sub.toNat % 8 + 1)
        | _ => startPos (tileShape s c h) k.last o lim
      match p with | some p => .ok p | none => .error cBND

/-- A command with its last read: its checks, and its peer lines asked for; it is under way from here. -/
def beginLast (s : State) (c : Nat) (k : StrCmd) (l : Last) : State :=
  let k := { k with last := l }
  match strPlace s c k with
  | .error f => strReject s c k f
  | .ok p =>
    let acc := match k.op with | .sstore .. => Acc.store | _ => .load
    let want := match k.op with | .sstore .. => decide (l.ebits < 8) | _ => true
    let ls := if want then peerLines s c k acc (l.insides.flatMap l.words) else []
    let a := askLines s c { k with start := p, stage := 2, due := s.now + s.cfg.streamLatency } ls
    strSet a.1 c a.2

/-- The record of a command has been read: what it does next (R305, R311). -/
def beginRecord (s : State) (c : Nat) (k : StrCmd) (b : Nat) : State :=
  match k.op with
  | .lastld _ => strDone s c k.id none
  | .asl d => match parseSlice b with
    | none => strReject s c k cBND d
    | some a => aslBind s c { k with slice := a }
  | _ => match parseLast b with
    | none => strReject s c k cBND
    | some l => beginLast s c k l

/-- Reading the record of a command that starts, or that its peer has answered. -/
def beginRead (s : State) (c : Nat) (k : StrCmd) (va : W64) : State :=
  let r := match k.op with
    | .asl _ => readRecord s c k va 2
    | _ => readLast s c k va
  match r.2 with
  | .ask ls => let a := askLines r.1 c { k with stage := 1 } ls; strSet a.1 c a.2
  | .fail t => strStop r.1 c k t
  | .bits b => beginRecord r.1 c k b

/-! ### SCOPY (R304) -/

/-- A range's check at its start: offsets and extents. -/
def copyRangeBad (s : State) (c a n : Nat) : Bool :=
  decide (saO a % 4 ≠ 0) || decide (saO a + n > shBytes (tileShape s c (saH a)))

/-- SCOPY at its start: a failing destination is left unwritten, a failing source poisons the whole range. -/
def beginCopy (s : State) (c : Nat) (k : StrCmd) (d a n : Nat) : State :=
  let sf := tileFail s c (saH a) k.asker true 0 0
  match tileFail s c (saH d) k.asker true 0 0 with
  | some f => strReject s c k f
  | none =>
    if n < 4 ∨ n > 65536 ∨ n % 4 ≠ 0 ∨ copyRangeBad s c d n ∨ shPlanes (tileShape s c (saH d)) ∨ saO a % 4 ≠ 0
        ∨ (sf.isNone ∧ copyRangeBad s c a n) then strReject s c k cBND
    else match sf with
      | some f => let r := raiseAt s k.lead k.pc f 0; strSet r.1 c { k with stage := 2, fault := some r.2, due := s.now + s.cfg.streamLatency }
      | none => strSet s c { k with stage := 2, due := s.now + s.cfg.streamLatency }

/-- SCOPY's move, on tiles as they are checked again when its accesses reach them (R292). -/
def finishCopy (s : State) (c : Nat) (k : StrCmd) (d a n : Nat) : State :=
  let sf := (tileFail s c (saH a) k.asker true 0 0).or (if copyRangeBad s c a n then some cBND else none)
  match (tileFail s c (saH d) k.asker true 0 0).or (if copyRangeBad s c d n then some cBND else none) with
  | some f => strReject s c k f
  | none =>
  let r := match k.fault, sf with
    | none, some f => let q := raiseAt s k.lead k.pc f 0; (q.1, ({ k with fault := some q.2 } : StrCmd))
    | _, _ => (s, k)
  let s := r.1
  let k := r.2
  let m := n / 4
  let ws := match k.fault with
    | some t => List.replicate m (.bad t)
    | none => tileWords s c (saH a) (saO a / 4) m
  let s := setTileWords s c (saH d) (saO d / 4) ws
  strDone s c k.id (match k.fault with | some t => some t | none => firstBad ws)

/-! ### SLOAD, fills and STRNS: the move -/

/-- Elements written from n on. -/
def loadFrom (c h : Nat) : Nat → Nat → State → StrCmd → List Nat → State × StrCmd × List Nat
  | 0, _, s, k, ws => (s, k, ws)
  | m + 1, n, s, k, ws =>
    let r := elemRead s c k n
    let q := elemPut r.1 c h (k.start + n) r.2.2
    loadFrom c h m (n + 1) q.1 r.2.1 (ws ++ q.2.filter fun w => !ws.contains w)

/-- The code that STRNS makes of an element (R306); none outside the integer range. -/
def strnsCode (sub : BitVec 4) (int uns sat : Bool) (eb v : Nat) : Option Nat :=
  if int then
    let w := sub.toNat % 8 + 1
    let z : Int := if sub.getLsbD 3 then (v : Int) else toSigned eb v
    let lo : Int := if sub.getLsbD 3 then 0 else -2 ^ (w - 1)
    let hi : Int := if sub.getLsbD 3 then 2 ^ w - 1 else 2 ^ (w - 1) - 1
    if lo ≤ z ∧ z ≤ hi then some (wrapTo w z) else none
  else if eb = 8 then some v
  else some ((b8Of sub uns).round 0 sat ((if eb = 16 then f16 else f32).decode v))

/-- Planes of one element: bit j of its code into plane j. -/
def planePut (s : State) (c h p : Nat) (v : Val) : State × List Nat :=
  let sh := tileShape s c h
  let js := List.range (shBits sh)
  let w := fun j => ((p / shCols sh * shBits sh + j) * shPitch sh) / 4 + p % shCols sh / 32
  (js.foldl (fun s j => putTile s c h (w j) (p % shCols sh % 32) 1
    (match v with | .ok x => .ok (x / 2 ^ j % 2) | b => b)) s, js.map w)

def strnsFrom (c h : Nat) (sub : BitVec 4) (int uns sat : Bool) : Nat → Nat → State → StrCmd → List Nat → State × StrCmd × List Nat
  | 0, _, s, k, ws => (s, k, ws)
  | m + 1, n, s, k, ws =>
    let r := elemRead s c k n
    let p := k.start * shCols (tileShape s c h) + n
    let e : State × StrCmd × Val := match r.2.2.headD (.ok 0) with
      | .bad t => (r.1, r.2.1, .bad t)
      | .ok v => match strnsCode sub int uns sat k.last.ebits v with
        | some x => (r.1, r.2.1, .ok x)
        | none => match r.2.1.invTok with
          | some t => (r.1, r.2.1, .bad t)
          | none => let q := raiseAt r.1 k.lead k.pc cINV 0; (q.1, { r.2.1 with invTok := some q.2 }, .bad q.2)
    let q := planePut e.1 c h p e.2.2
    strnsFrom c h sub int uns sat m (n + 1) q.1 e.2.1 (ws ++ q.2.filter fun w => !ws.contains w)

/-! ### SSTORE (R303) -/

/-- A peer word that an SSTORE writes: its page and address, the word, its byte mask and value, and the first element in it. -/
structure PeerStore where
  page : Page
  va : W64
  mask : BitVec 4
  val : Val
  elem : Nat
  deriving DecidableEq, Repr

/-- A peer word's store merged with an earlier one of the same word. -/
def addPeer (l : List PeerStore) (n : PeerStore) : List PeerStore :=
  if l.any fun o => o.page.peer == n.page.peer && o.page.pa / 4 == n.page.pa / 4 then
    l.map fun o => if o.page.peer == n.page.peer && o.page.pa / 4 == n.page.pa / 4 then
      { o with mask := o.mask ||| n.mask, val := maskWord o.val n.mask n.val } else o
  else l ++ [n]

/-- One word of element n stored: bits sh to sh + nb − 1 of the word at va. A failing element's token comes back. Part of a byte of a peer's
word needs that word: where its line could not be read the element is dropped as failing, and where it is poisoned it is dropped (R200,
R303). -/
def storeBits (s : State) (c : Nat) (k : StrCmd) (ps : List PeerStore) (n : Nat) (va : W64) (sh nb : Nat) (v : Val) :
    State × StrCmd × List PeerStore × Option Tok :=
  let bad := match v with | .bad t => some t | .ok _ => none
  let r := strXlat s c k .store va
  match r.2 with
  | .fault f => let q := pageFault r.1 k.lead k.pc k.pages f va; (q.1, { k with pages := q.2.1 }, ps, some q.2.2)
  | .carried t => let q := carryTok r.1 k.lead k.pc k.toks t va; (q.1, { k with toks := q.2.1 }, ps, some q.2.2)
  | .ok p =>
    let s := setDC r.1 p
    if p.peer = 0 then
      (cmdWrite s c (p.pa / 4) (mergeWord (homeWord s (p.pa / 4)) sh nb v), k, ps, bad)
    else
      let m : BitVec 4 := match v with | .bad _ => 0xF | .ok _ => byteMask sh nb
      let put := fun (old : Val) => (s, k, addPeer ps ⟨p, va, m, mergeWord old sh nb v, n⟩, bad)
      match ps.find? fun o => o.page.peer == p.peer && o.page.pa / 4 == p.pa / 4 with
      | some o => put o.val
      | none =>
        if nb % 8 = 0 ∨ bad.isSome then put (.ok 0)
        else match peerWord k.lines p with
          | .ok (.ok o) => put (.ok o)
          | .ok (.bad _) => (s, k, ps, none)
          | .error f => let q := pageFault s k.lead k.pc k.pages f va; (q.1, { k with pages := q.2.1 }, ps, some q.2.2)

/-- The first failing element of a command: its token and number (R299). -/
def StrCmd.failing (k : StrCmd) (n : Nat) (t : Option Tok) : StrCmd :=
  if k.fault.isNone then { k with fault := t, faultAt := n } else k

/-- Elements stored from n on; the first failing element's token (R299). -/
def storeFrom (c h : Nat) : Nat → Nat → State → StrCmd → List PeerStore → State × StrCmd × List PeerStore
  | 0, _, s, k, ps => (s, k, ps)
  | m + 1, n, s, k, ps =>
    let l := k.last
    if !l.inside n then storeFrom c h m (n + 1) s k ps
    else
      let sh := tileShape s c h
      let w := rowsPlace sh (k.start + n)
      if l.ebits = 64 then
        let va := BitVec.ofNat 64 (l.bitAddr n / 8)
        let a := storeBits s c k ps n va 0 32 (tileWord s c h w.1)
        let b := storeBits a.1 c a.2.1 a.2.2.1 n (va + 4) 0 32 (tileWord s c h (w.1 + 1))
        storeFrom c h m (n + 1) b.1 (b.2.1.failing n (a.2.2.2.or b.2.2.2)) b.2.2.1
      else
        let v := match tileWord s c h w.1 with | .ok x => .ok (x / 2 ^ w.2 % 2 ^ l.ebits) | b => b
        let a := storeBits s c k ps n (BitVec.ofNat 64 (l.bitAddr n / 8)) (l.bitAddr n % 32) l.ebits v
        storeFrom c h m (n + 1) a.1 (a.2.1.failing n a.2.2.2) a.2.2.1

/-- Peer stores sent line by line (R349). -/
def sendPeers (s : State) (c : Nat) (k : StrCmd) (ps : List PeerStore) : State × StrCmd :=
  let lines := (ps.map fun p => (p.page.peer, p.page.pa / 64)).dedup
  lines.foldl (fun (a : State × StrCmd) l =>
    let mine := ps.filter fun p => p.page.peer == l.1 && p.page.pa / 64 == l.2
    match mine with
    | [] => a
    | p :: _ =>
      let r := sendLine a.1 c k.id k.lead k.pc k.asid p.va p.page (mine.map fun p => (p.page.pa / 4, p.mask, p.val))
      (r.1, { a.2 with tags := a.2.tags ++ [r.2], sentAt := a.2.sentAt ++ [(l.1, l.2, (mine.map fun p => p.elem).foldl min p.elem)] })) (s, k)

/-- The first failing element of a command whose peers have answered: one that failed here, or one of a line that failed there. -/
def StrCmd.firstFail (k : StrCmd) : Option Tok :=
  let there := k.lines.filterMap fun l => match l.tok, k.sentAt.find? fun p => p.1 == l.peer && p.2.1 == l.line with
    | some t, some p => some (p.2.2, t)
    | _, _ => none
  let all := (match k.fault with | some t => [(k.faultAt, t)] | none => []) ++ there
  (all.foldl (fun (b : Option (Nat × Tok)) p => match b with | some q => if p.1 < q.1 then some p else b | none => some p) none).map Prod.snd

/-! ### The two steps of a command -/

/-- Running commands of core c (R298): one that waits for its queues is none. -/
def strRunning (s : State) (c : Nat) : Nat := ((s.core c).strQ.filter fun k => decide (0 < k.stage) && k.stage != 4).length

/-- Whether a ring handle names a live ring of core c (R307). -/
def ringOk (s : State) (c h : Nat) : Bool :=
  let g := tgetD (h % 16) {} (s.core c).rings
  decide (h / 2 ^ 7 = 0) && g.live && g.gen == h / 16 % 8

/-- Why a queued command must wait at its start: a ring without a free slot or with an earlier fill (R308). -/
def strWaits (s : State) (c : Nat) (k : StrCmd) : Bool :=
  match k.op with
  | .fill r _ =>
    ringOk s c r.toNat && (decide ((tgetD (r.toNat % 16) {} (s.core c).rings).free = 0)
      || ((s.core c).strQ.takeWhile fun q => q.id != k.id).any fun q => match q.op with
        | .fill r' _ => r' == r
        | _ => false)
  | _ => false

/-- Whether the engine may start command k: one of the queue's 64 (R11), a free place of its 8, and every queued command before it waiting (R298). -/
def strMayStart (s : State) (c : Nat) (k : StrCmd) : Bool :=
  k.stage == 0 && decide (strRunning s c < 8) && !strWaits s c k
    && (let before := (s.core c).strQ.takeWhile fun q => q.id != k.id
      decide ((before.filter fun q => q.stage == 0).length < 64) && before.all fun q => decide (0 < q.stage) || strWaits s c q)

/-- A command starts (R298, R308). -/
def strStart (s : State) (c : Nat) (k : StrCmd) : State :=
  match k.op with
  | .scopy d a n => beginCopy s c k d.toNat a.toNat n
  | .fill r l =>
    if ringOk s c r.toNat then
      let g := tgetD (r.toNat % 16) {} (s.core c).rings
      let g' : Ring := { g with free := g.free - 1, fillAt := (g.fillAt + 1) % g.nslot }
      let s := s.modCore c fun x => { x with rings := tset (r.toNat % 16) g' x.rings }
      beginRead s c { k with slot := some g.fillAt } l
    else strFail s c k cSTALE
  | op => match op.record with
    | some l => beginRead s c k l
    | none => s

/-- A command that is under way, with its peers' lines in, moves its data and completes (R302 to R306, R308); its tile is checked again, since
a peer core may have freed it (R292). -/
def strFinish (s : State) (c : Nat) (k : StrCmd) : State :=
  if k.stage = 1 then (match k.op.record with | some l => beginRead s c k l | none => s)
  else if k.stage = 3 then (if acked s c then strDone s c k.id k.firstFail else s)
  else if k.stage = 4 then (if strRunning s c < 8 then aslBind s c k else s)
  else if strAfter s c k then s
  else
    let n := k.last.count
    match k.op, (if k.fault.isSome then Except.ok k.start else strPlace s c k) with
    | .asl _, _ => if k.tids.all fun t => !s.live t || decide (tgetD t 0 k.pos ≥ k.slice.count) then strDone s c k.id k.fault else s
    | _, .error f => strReject s c k f
    | op, .ok p =>
    let k := { k with start := p }
    match op with
    | .scopy d a m => finishCopy s c k d.toNat a.toNat m
    | .sload d _ =>
      let r := loadFrom c (saH d.toNat) n 0 s k []
      strDone r.1 c k.id (lowestBad r.1 c (saH d.toNat) r.2.2)
    | .fill g _ =>
      if k.fault.isSome then strDone (fillSlot s c k g k.fault) c k.id k.fault else
      let h := (tgetD (g.toNat % 16) {} (s.core c).rings).tile.toNat
      let r := loadFrom c h n 0 s k []
      strDone (fillSlot r.1 c k g none) c k.id (lowestBad r.1 c h r.2.2)
    | .strns sub int uns sat d _ =>
      let r := strnsFrom c (saH d.toNat) sub int uns sat n 0 s k []
      strDone r.1 c k.id (lowestBad r.1 c (saH d.toNat) r.2.2)
    | .sstore d _ =>
      let r := storeFrom c (saH d.toNat) n 0 s k []
      let q := sendPeers r.1 c r.2.1 r.2.2
      if q.2.tags.isEmpty && acked q.1 c then strDone q.1 c k.id q.2.fault
      else strSet q.1 c { q.2 with stage := 3, lines := [] }
    | .asl _ | .lastld _ => s

/-! ### Delivering an access slice (R311) -/

/-- Whether an element can be delivered to thread t: elements left and room in its queue. -/
def aslReady (s : State) (k : StrCmd) (t : Tid) : Bool :=
  k.stage == 2 && k.tids.contains t && decide (tgetD t 0 k.pos < k.slice.count) &&
    match tget k.slice.queue (s.thr t).queues with
    | some q => decide (q.elems.length < q.depth)
    | none => false

/-- Whether every live served thread has had every element. -/
def aslAll (s : State) (k : StrCmd) : Bool := k.tids.all fun t => !s.live t || decide (tgetD t 0 k.pos ≥ k.slice.count)

/-- The element of thread t's next delivery, as a value of its size. -/
def aslElem (s : State) (c : Nat) (k : StrCmd) (ea : W64) : State × StrCmd × Val :=
  let bits := 8 * 2 ^ k.slice.esize
  if ea.toNat % (bits / 8) ≠ 0 then
    let q := pageFault s k.lead k.pc k.pages cBND ea
    (q.1, { k with pages := q.2.1 }, .bad q.2.2)
  else
    let a := memWord s c k ea
    let b := if bits = 64 then memWord a.1 c a.2.1 (ea + 4) else (a.1, a.2.1, .ok 0)
    let ws := if bits = 64 then [a.2.2, b.2.2] else [a.2.2]
    (b.1, b.2.1, match firstBad ws with
      | some t => .bad t
      | none => .ok (wordsNum ws / 2 ^ (ea.toNat % 4 * 8) % 2 ^ bits))

/-- One element delivered to thread t; a peer's line is asked for first. -/
def aslDeliverTo (s : State) (c : Nat) (k : StrCmd) (t : Tid) : State :=
  let n := tgetD t 0 k.pos
  let ea := k.slice.addr (tix (s.thr t) t) n
  match peerLines s c k .load [ea] with
  | l :: _ => if k.tags.isEmpty then let a := askLines s c k [l]; strSet a.1 c a.2 else s
  | [] =>
    let r := aslElem s c k ea
    let fault := match r.2.2 with | .bad b => some (k.fault.getD b) | .ok _ => k.fault
    let k := { r.2.1 with pos := tset t (n + 1) k.pos, lines := [], fault := fault }
    let s := r.1.modThr t fun x =>
      let q := tgetD k.slice.queue {} x.queues
      { x with queues := tset k.slice.queue { q with elems := q.elems ++ [r.2.2], left := q.left - 1 } x.queues }
    if aslAll s k then strDone s c k.id k.fault else strSet s c k

end Sys2Proof.Machine
end

