-- ==== Sys2Proof/Machine/Record.lean ====
section
/-! DEFINITION. The records of a context image in memory (R257, R335): their words, what the words read back as, and the accumulator tiles
that stay resident (R256). The manual gives the records' order, contents and sizes; the places of fields inside a record, and the record
numbers under which `State.recs` keeps what the stated sizes cannot hold, are the model's (DESIGN CHOICE, assumption 74). -/

namespace Sys2Proof.Machine

/-- A device-level fault (R221, R388): every core stops, all work in flight is discarded, and memory alone is kept. -/
def deviceFault (s : State) (cause : Nat) : State :=
  let h := { s.host with fault := true, fcause := cause, vectors := s.host.vectors ++ [0], backInval := [] }
  let f := { s.fab with waiting := [], staged := [], inbox := [], owed := [], tags := [], barriers := [], barrierQ := [], drains := [], markers := [], next := none }
  { s with host := h, fab := f, iss := none, threads := [], ports := [], cores := [], dies := [], msgs := [], comb := {}, homes := [],
           saves := [], snaps := [] }

/-! ### Fields of records -/

/-- A number of fields, each of a width, lowest first. -/
def packNum : List (Nat × Nat) → Nat
  | [] => 0
  | (w, v) :: l => v % 2 ^ w + 2 ^ w * packNum l

/-- Bits hi to lo of word i of a record; words i and i + 1 as one number. -/
def recBits (ws : List Val) (i hi lo : Nat) : Nat := bitsOf (ws.getD i (.ok 0)).num hi lo
def recNum (ws : List Val) (i n : Nat) : Nat := wordsNum ((ws.drop i).take n)
def recBit (ws : List Val) (i b : Nat) : Bool := recBits ws i b b == 1

def ofBool (b : Bool) : Nat := if b then 1 else 0

/-- A mask with a bit for each poisoned word. -/
def badMask (ws : List Val) : Nat := (ws.zipIdx.map fun w => match w.1 with | .bad _ => 2 ^ w.2 | .ok _ => 0).sum

/-- An optional value as two words. -/
def valWords (v : Option Val) : List Val :=
  match v with
  | none => numWords 0 2
  | some (.ok n) => numWords n 2
  | some (.bad k) => [.bad k, .ok 0]

def valOf (ws : List Val) (i : Nat) : Val :=
  match ws.getD i (.ok 0) with
  | .bad k => .bad k
  | .ok _ => .ok (recNum ws i 2)

/-! ### Thread records -/

/-- What a thread record repeats of its team, its core and its queue: the team's entry, its place, PTBR (R192), the position of the core
whose item queue the image holds, the record's number and the device that keeps it. -/
structure RecCtx where
  entry : Team := {}
  tid : Tid := 0
  ptbr : W64 := 0
  qpos : Nat := 0
  no : Nat := 0
  dev : Nat := 0
  deriving DecidableEq, Repr

/-- The 64 words of a thread record's fixed part; `lines` counts the held stores that follow, and `frame` says that its frame area could be
read. -/
def fixedWords (x : Thread) (r : RecCtx) (frame : Bool) (lines : Nat) : List Val :=
  let h := x.hold
  let l := x.leg.getD {}
  let w := h.watch.getD {}
  let p := h.phase.getD (0, 0)
  numWords (packNum [(64, x.pc.toNat), (64, (x.hdr.getD 0).toNat), (64, (tstat x).toNat), (7, x.preds.toNat), (25, 0), (32, (x.drop.getD 0).toNat)]) 8
    ++ numWords (packNum [(16, x.count .s), (16, x.count .m), (16, x.count .c), (16, x.count .f), (32, x.tfp.toNat), (16, l.lo), (16, l.n),
        (64, x.stopw.toNat), (16, (x.team.getD 0).toNat), (16, ofBool x.team.isSome)]) 7
    ++ numWords (packNum [(8, coreOf r.tid % 8), (8, laneOf r.tid), (8, slotOf r.tid), (8, tix x r.tid),
        (4, x.width.toNat), (4, x.prio), (4, x.bin), (5, x.demote), (15, x.age), (16, x.xgran), (16, lines),
        (1, ofBool x.hdr.isSome), (1, ofBool frame), (1, ofBool h.sleep.isSome), (1, ofBool h.watch.isSome), (1, ofBool h.phase.isSome),
        (1, ofBool h.stopping), (1, ofBool h.resident), (1, ofBool x.ldm.isSome), (1, ofBool x.carryA.isSome), (1, ofBool x.carryB.isSome),
        (1, ofBool x.yields), (1, ofBool h.faulted), (20, 0)]) 4
    ++ numWords (packNum [(64, h.sleep.getD 0), (64, w.va.toNat), (64, w.want), (32, w.bits), (64, w.pc.toNat), (16, p.1.toNat), (16, p.2.toNat),
        (32, h.parked.length)]) 11
    ++ valWords x.ldm ++ valWords (x.carryA.map Raw.val) ++ valWords (x.carryB.map Raw.val)
    ++ numWords (packNum [(64, x.carryAt.toNat), (64, r.ptbr.toNat), (32, r.entry.members), (32, r.entry.arrived), (32, r.entry.phase),
        (32, r.qpos), (32, r.no), (32, r.dev)]) 10
    ++ numWords 0 18

/-- A thread's slices packed, a granule a word, with the granules' tokens in place of poisoned bits. -/
def sliceWords (x : Thread) : List Val :=
  (List.range (x.alloc / 8)).map fun g => match tget g x.tags with
    | some k => .bad k
    | none => .ok (x.bits (8 * g) 8)

/-- The address word of a line of held stores (R212): physical with its peer as a leaf has it, else the place of a tile's or of a failed
store's line. -/
def HKey.addr : HKey → Nat
  | .glob p w => p * 2 ^ 52 + w / 16 * 64
  | .tile c l i w => 0xFFF * 2 ^ 52 + c % 8 * 2 ^ 32 + tileAddr l i 0 + w / 16 * 64
  | .lost b w => 0xFFE * 2 ^ 52 + ofBool b * 2 ^ 51 + w / 16 * 64 % 2 ^ 51

/-- A line of held stores: the address, 64 data bytes with their tokens, and a mask bit for each byte (R257). -/
def heldWords (l : List Held) : List Val :=
  let at_ := fun (i : Nat) => l.find? fun h => h.key.word % 16 == i
  numWords ((l.map fun h => h.key.addr).headD 0) 2
    ++ (List.range 16).map (fun i => match at_ i with | some h => h.val | none => .ok 0)
    ++ numWords (packNum ((List.range 16).map fun i => (4, match at_ i with | some h => h.mask.toNat | none => 0))) 2

/-- Held stores by line. -/
def heldLines (l : List Held) : List (List Held) := (quarLines l).map fun k => l.filter fun h => (h.tid, h.key.line) == k

/-- A thread record (R257): fixed part, frame area with its word tags, slices with their granule tags, held stores. -/
def threadWords (x : Thread) (r : RecCtx) (frame : Option (List Val)) (held : List Held) : List Val :=
  let f := frame.getD (numWords 0 64)
  fixedWords x r frame.isSome (heldLines held).length ++ f ++ numWords (badMask f) 2 ++ sliceWords x ++ numWords (badMask (sliceWords x)) 2
    ++ (heldLines held).flatMap heldWords

/-- TSTAT's fields put back (R248). -/
def putTstat (x : Thread) (v : Nat) (lo n : Nat) : Thread :=
  { x with
    drop := if v / 2 ^ 31 % 2 = 1 then some (BitVec.ofNat 32 (v / 2 ^ 32)) else none
    leg := if v / 2 ^ 30 % 2 = 1 then
        some { (x.leg.getD {}) with lo := lo, n := n, replayable := v / 2 ^ 29 % 2 == 1, replays := bitsOf v 28 26 } else none
    seq := v / 2 ^ 25 % 2 == 1, seqstep := bitsOf v 24 21, uviol := v / 2 ^ 20 % 2 == 1, redun := v / 2 ^ 19 % 2 == 1
    hdepth := bitsOf v 18 17, priv := v / 2 ^ 16 % 2 == 1 }

/-- What a thread record says beside its words, and where the thread stood. -/
def recCtxOf (ws : List Val) : RecCtx :=
  { entry := { live := true, members := recNum ws 40 1, arrived := recNum ws 41 1, phase := recNum ws 42 1 }
    tid := recBits ws 15 7 0 * 2048 + recBits ws 15 15 8 * 128 + recBits ws 15 23 16
    ptbr := BitVec.ofNat 64 (recNum ws 38 2), qpos := recNum ws 43 1, no := recNum ws 44 1, dev := recNum ws 45 1 }

/-- The slices and tags that packed granules hold. -/
def slicesOf (x : Thread) (ws : List Val) : Thread :=
  { x with
    slices := BitVec.ofNat 2048 (wordsNum ws)
    tags := ws.zipIdx.filterMap fun w => match w.1 with | .bad k => some (w.2, k) | .ok _ => none }

/-- The fields of a fixed part over what its number stands for. -/
def fixedOf (x : Thread) (ws : List Val) : Thread :=
  let x := putTstat x (recNum ws 4 2) (recBits ws 11 15 0) (recBits ws 11 31 16)
  { x with
    pc := BitVec.ofNat 64 (recNum ws 0 2), hdr := if recBit ws 18 0 then some (BitVec.ofNat 64 (recNum ws 2 2)) else none
    preds := BitVec.ofNat 7 (recNum ws 6 1), tfp := BitVec.ofNat 32 (recNum ws 10 1), stopw := BitVec.ofNat 64 (recNum ws 12 2)
    team := if recBit ws 14 16 then some (BitVec.ofNat 16 (recBits ws 14 15 0)) else none
    width := BitVec.ofNat 3 (recBits ws 16 3 0), prio := recBits ws 16 7 4, bin := recBits ws 16 11 8, demote := recBits ws 16 16 12
    age := recBits ws 16 31 17, xgran := min (recBits ws 17 15 0) 12, yields := recBit ws 18 10
    ldm := if recBit ws 18 7 then some (valOf ws 30) else none
    carryA := if recBit ws 18 8 then some (match valOf ws 32 with | .bad k => .out k | .ok v => .got v (List.replicate 16 none)) else none
    carryB := if recBit ws 18 9 then some (match valOf ws 34 with | .bad k => .out k | .ok v => .got v (List.replicate 16 none)) else none
    carryAt := BitVec.ofNat 64 (recNum ws 36 2)
    hold := { x.hold with
      sleep := if recBit ws 18 2 then some (recNum ws 19 2) else none
      watch := if recBit ws 18 3 then
          some { (x.hold.watch.getD {}) with va := BitVec.ofNat 64 (recNum ws 21 2), want := recNum ws 23 2, bits := recNum ws 25 1
                                             pc := BitVec.ofNat 64 (recNum ws 26 2) } else none
      phase := if recBit ws 18 4 then some (BitVec.ofNat 16 (recBits ws 28 15 0), BitVec.ofNat 16 (recBits ws 28 31 16)) else none
      stopping := recBit ws 18 5, faulted := recBit ws 18 11, resident := recBit ws 18 6 } }

/-- A line of held stores read back over those of its number. -/
def heldOf (x : Thread) (t : Tid) (old : List Held) (ws : List Val) : List Held :=
  if heldWords old = ws then old
  else
    let a := recNum ws 0 2
    (List.range 16).filterMap fun i =>
      let m := bitsOf (recNum ws 18 2) (4 * i + 3) (4 * i)
      let key : HKey := match old.head? with
        | some h => (match h.key with
          | .glob p w => .glob p (w / 16 * 16 + i)
          | .tile c l j w => .tile c l j (w / 16 * 16 + i)
          | .lost b w => .lost b (w / 16 * 16 + i))
        | none => .glob (a / 2 ^ 52) (a % 2 ^ 52 / 64 * 16 + i)
      if m = 0 then none
      else some { (old.headD { tid := t, pc := x.pc, va := BitVec.ofNat 64 a }) with
                  key := key, va := ((old.map fun h => h.va).headD (BitVec.ofNat 64 a)) / 64 * 64 + BitVec.ofNat 64 (4 * i)
                  mask := BitVec.ofNat 4 m, val := ws.getD (2 + i) (.ok 0) }

/-- A thread record read back over what its number stands for: the same thread where nothing in memory has changed. -/
def threadOf (old : Thread × List Held) (ws : List Val) : Thread × List Held × Option (List Val) :=
  let r := recCtxOf ws
  let f := if recBit ws 18 1 then some ((ws.drop 64).take 64) else none
  if threadWords old.1 r f old.2 = ws then (old.1, old.2, f)
  else
    let x := fixedOf old.1 ws
    let n := x.alloc / 8
    let x := slicesOf x ((ws.drop 130).take n)
    let ls := heldLines old.2
    (x, (List.range (recBits ws 17 31 16)).flatMap (fun j => heldOf x r.tid (ls.getD j []) ((ws.drop (132 + n + 20 * j)).take 20)), f)

/-- Words of the thread record that begins with a fixed part (R257). -/
def threadSize (ws : List Val) : Nat := 132 + 4 * (4 + min (recBits ws 17 15 0) 12) + 20 * recBits ws 17 31 16

/-! ### Tile records -/

/-- A tile record (R257): shape, level, index, generation, core position and blocks, the words' tags, the words, and a loop's scales (R335);
of a resident accumulator tile only its head is written yet. -/
def tileWordsOf (resident : Bool) (p : Nat × TileImg) : List (Option Val) :=
  let i := p.2
  let n := shBytes i.tile.shape / 4
  let body := numWords (badMask i.words) (ceilDiv n 32) ++ i.words ++ i.scales
  (numWords (packNum [(64, i.tile.shape.toNat), (8, i.level), (8, i.index), (8, i.tile.gen), (1, ofBool resident), (1, ofBool (!i.scales.isEmpty)),
      (1, ofBool i.tile.ovf), (1, ofBool i.tile.bank), (4, 0), (8, p.1 % 8), (8, shBlocks i.tile.shape), (16, 0)]) 4).map some
    ++ if resident then body.map fun _ => none else body.map some

/-- Words of the tile record that begins with four words. -/
def tileSize (ws : List Val) : Nat :=
  let n := shBytes (BitVec.ofNat 64 (recNum ws 0 2)) / 4
  4 + ceilDiv n 32 + n + if recBit ws 2 25 then 64 else 0

/-- A tile record read back, and whether its tile is still resident. -/
def tileOf (ws : List Val) : Nat × TileImg × Bool :=
  let sh : W64 := BitVec.ofNat 64 (recNum ws 0 2)
  let n := shBytes sh / 4
  (recBits ws 3 7 0,
   { level := recBits ws 2 7 0, index := recBits ws 2 15 8
     tile := { live := true, gen := recBits ws 2 23 16, shape := sh, bank := recBit ws 2 27, ovf := recBit ws 2 26 }
     words := (ws.drop (4 + ceilDiv n 32)).take n, scales := ws.drop (4 + ceilDiv n 32 + n) },
   recBit ws 2 24)

/-! ### Future and command records -/

def Cls.num : Cls → Nat
  | .s => 0 | .m => 1 | .c => 2 | .f => 3
def Cls.ofNum (n : Nat) : Cls := [Cls.s, .m, .c, .f].getD n .s

/-- A future's record: its handle, class and core position; the record's number and its device (R257). -/
def futWords (c i : Nat) (f : Fut) (no dev : Nat) : List Val :=
  numWords (packNum [(10, i), (6, f.gen), (16, 0), (8, f.cls.num), (8, c % 8), (16, 0), (32, no), (32, dev)]) 4

def futOfRec (old : Fut) (ws : List Val) : Nat × Nat × Fut :=
  (recBits ws 1 15 8, recBits ws 0 9 0, { old with gen := recBits ws 0 15 10, cls := Cls.ofNum (recBits ws 1 7 0), live := true, used := true })

/-- A stream command's operands: a kind, and fields of 64, 32 and 32 bits. -/
def StrOp.nums : StrOp → Nat × Nat × Nat × Nat
  | .sload d l => (0, l.toNat, d.toNat, 0)
  | .fill r l => (1, l.toNat, r.toNat, 0)
  | .sstore d l => (2, l.toNat, d.toNat, 0)
  | .scopy d a n => (3, n, d.toNat, a.toNat)
  | .strns u i n t d l => (4 + u.toNat * 2 ^ 4 + ofBool i * 2 ^ 8 + ofBool n * 2 ^ 9 + ofBool t * 2 ^ 10, l.toNat, d.toNat, 0)
  | .asl l => (5, l.toNat, 0, 0)
  | .lastld l => (6, l.toNat, 0, 0)

def StrOp.ofNums (k a b c : Nat) : StrOp :=
  match k % 16 with
  | 0 => .sload (BitVec.ofNat 32 b) (BitVec.ofNat 64 a)
  | 1 => .fill (BitVec.ofNat 16 b) (BitVec.ofNat 64 a)
  | 2 => .sstore (BitVec.ofNat 32 b) (BitVec.ofNat 64 a)
  | 3 => .scopy (BitVec.ofNat 32 b) (BitVec.ofNat 32 c) a
  | 4 => .strns (BitVec.ofNat 4 (k / 2 ^ 4)) (k / 2 ^ 8 % 2 == 1) (k / 2 ^ 9 % 2 == 1) (k / 2 ^ 10 % 2 == 1) (BitVec.ofNat 32 b) (BitVec.ofNat 64 a)
  | 5 => .asl (BitVec.ofNat 64 a)
  | _ => .lastld (BitVec.ofNat 64 a)

/-- A matrix command's operands, scales apart (R335): a kind, and fields of 64, 32 and 32 bits. -/
def MatOp.nums : MatOp → Nat × Nat × Nat × Nat
  | .loop acc a b off _ _ n f i h =>
    (0 + ofBool i * 2 ^ 4 + f.toNat * 2 ^ 5 + h * 2 ^ 12 + (match off with | .word _ => 0 | .after .. => 2 ^ 11),
     packNum [(32, match off with | .word v => v | .after _ old => old), (32, n)], acc.toNat + a.toNat * 2 ^ 16, b.toNat)
  | .zero acc => (1, 0, acc.toNat, 0)
  | .loadacc acc src => (2, 0, acc.toNat, src.toNat)
  | .mov d a => (3, 0, d.toNat, a.toNat)
  | .cvtB8 p u e t r d a => (4 + p.toNat * 2 ^ 4 + ofBool u * 2 ^ 8 + ofBool e * 2 ^ 9 + ofBool t * 2 ^ 10 + r.toNat * 2 ^ 11, 0, d.toNat, a.toNat)
  | .cvtOther g t r d a => (5 + g.toNat * 2 ^ 4 + ofBool t * 2 ^ 10 + r.toNat * 2 ^ 11, 0, d.toNat, a.toNat)

def MatOp.ofNums (old : MatOp) (k a b c : Nat) : MatOp :=
  match k % 16 with
  | 0 =>
    let p : OffSrc × List Val × List Val := match old with | .loop _ _ _ off sa sb .. => (off, sa, sb) | _ => (.word 0, [], [])
    let off : OffSrc := match p.1 with
      | .after id _ => if k / 2 ^ 11 % 2 = 1 then .after id (a % 2 ^ 32) else .word (a % 2 ^ 32)
      | .word _ => .word (a % 2 ^ 32)
    .loop (BitVec.ofNat 16 b) (BitVec.ofNat 16 (b / 2 ^ 16)) (BitVec.ofNat 16 c) off p.2.1 p.2.2 (a / 2 ^ 32) (BitVec.ofNat 6 (k / 2 ^ 5))
      (k / 2 ^ 4 % 2 == 1) (k / 2 ^ 12)
  | 1 => .zero (BitVec.ofNat 16 b)
  | 2 => .loadacc (BitVec.ofNat 16 b) (BitVec.ofNat 32 c)
  | 3 => .mov (BitVec.ofNat 32 b) (BitVec.ofNat 16 c)
  | 4 => .cvtB8 (BitVec.ofNat 4 (k / 2 ^ 4)) (k / 2 ^ 8 % 2 == 1) (k / 2 ^ 9 % 2 == 1) (k / 2 ^ 10 % 2 == 1) (BitVec.ofNat 2 (k / 2 ^ 11))
      (BitVec.ofNat 32 b) (BitVec.ofNat 32 c)
  | _ => .cvtOther (BitVec.ofNat 2 (k / 2 ^ 4)) (k / 2 ^ 10 % 2 == 1) (BitVec.ofNat 2 (k / 2 ^ 11)) (BitVec.ofNat 32 b) (BitVec.ofNat 16 c)

/-- The threads of a command in its record, as far as the stated size holds them: its lead, and those of the lead's aligned 64 slots. -/
def tidMask (lead : Tid) (ts : List Tid) : Nat := ((ts.filter fun t => t / 64 == lead / 64).dedup.map fun t => 2 ^ (t % 64)).sum
def cmdLead (ws : List Val) : Tid := recNum ws 14 1
def cmdTids (ws : List Val) : List Tid :=
  (List.range 64).filterMap fun i => if recNum ws 12 2 / 2 ^ i % 2 = 1 then some (cmdLead ws / 64 * 64 + i) else none

/-- A command's record: class, core position and stage, operands, the step at which a loop stands, its word, address space and threads, and
the record's number with its device (R257, R335). -/
def cmdWords (cls c stage : Nat) (op : Nat × Nat × Nat × Nat) (step : Nat) (pc : W64) (asid no dev : Nat) (lead : Tid) (ts : List Tid) :
    List Val :=
  numWords (packNum [(8, cls), (8, c % 8), (16, stage), (32, no), (32, dev), (32, op.1), (64, op.2.1), (32, op.2.2.1), (32, op.2.2.2),
    (32, step), (64, pc.toNat), (32, asid), (64, tidMask lead ts), (32, lead % 16384), (32, 0)]) 16

def strWords_ (c : Nat) (k : StrCmd) (no dev : Nat) : List Val := cmdWords 0 c k.stage k.op.nums 0 k.pc k.asid no dev k.lead k.tids
def matWords (c : Nat) (k : MatCmd) (no dev : Nat) : List Val :=
  cmdWords 1 c (ofBool k.started) k.op.nums k.step k.pc k.asid no dev k.lead k.tids

def strOfRec (old : StrCmd) (ws : List Val) : StrCmd :=
  if strWords_ (recBits ws 0 15 8) old (recNum ws 1 1) (recNum ws 2 1) = ws then old
  else { old with op := StrOp.ofNums (recNum ws 3 1) (recNum ws 4 2) (recNum ws 6 1) (recNum ws 7 1), stage := recBits ws 0 31 16
                  pc := BitVec.ofNat 64 (recNum ws 9 2), asid := recNum ws 11 1 % 4096 }

def matOfRec (old : MatCmd) (ws : List Val) : MatCmd :=
  if matWords (recBits ws 0 15 8) old (recNum ws 1 1) (recNum ws 2 1) = ws then old
  else { old with op := old.op.ofNums (recNum ws 3 1) (recNum ws 4 2) (recNum ws 6 1) (recNum ws 7 1), step := recNum ws 8 1
                  pc := BitVec.ofNat 64 (recNum ws 9 2), asid := recNum ws 11 1 % 4096 }

/-! ### Image words in memory -/

/-- The physical address of an image's byte as its saver's address space gives it for a store (R258). -/
def imgPa (s : State) (c : Nat) (ptbr va : W64) : State × Option Nat :=
  let r := translate s c (spaceOf ptbr) false .store va
  match r.2 with
  | .ok p => if p.peer = 0 then (setDC r.1 p, some p.pa) else (r.1, none)
  | _ => (r.1, none)

/-- Image words written at their homes from an address on; none when one cannot be written. -/
def imgPut (c : Nat) (ptbr va : W64) : List (Option Val) → State → Option State
  | [], s => some s
  | none :: l, s => imgPut c ptbr (va + 4) l s
  | some v :: l, s =>
    let r := imgPa s c ptbr va
    match r.2 with
    | none => none
    | some pa => imgPut c ptbr (va + 4) l (homeWrite r.1 (some c) (pa / 4) v)

/-- n image words from an address as core c's supervisor reads them, none where one cannot be read. -/
def imgGet (s : State) (c : Nat) (va : W64) : Nat → Option (List Val)
  | 0 => some []
  | n + 1 =>
    match (translate s c (spaceOf (s.core c).ptbr) false .load va).2 with
    | .ok p => if p.peer ≠ 0 then none else match imgGet s c (va + 4) n with
      | some l => some (strWord s c (p.pa / 4) :: l)
      | none => none
    | _ => none

/-! ### Resident accumulator tiles of saved contexts (R256) -/

/-- A tile as an image takes it, the words of its shape. -/
def tileImg (s : State) (c level index : Nat) : TileImg :=
  let e := tileEnt s c level index
  { level := level, index := index, tile := e
    words := (tileMem s c level index).words (tileAt s c level index) (shBytes e.shape / 4) }

/-- Accumulator entries of core c that hold a saved context's tile. -/
def ctxTiles (s : State) (c : Nat) : List (Nat × Tile) :=
  (s.core c).tiles.filter fun e => decide (256 ≤ e.1) && decide (e.1 < 512) && !e.2.live && e.2.ctx != 0

/-- One resident tile written into its image; its entry and blocks become free, and the last one clears ACCTAG. -/
def flushTile (s : State) (c : Nat) (e : Nat × Tile) : State :=
  let i := e.1 - 256
  let h := tgetD e.2.ctx {} s.homes
  let t := { tileImg s c 1 i with tile := { e.2 with live := true, ctx := 0 } }
  let rest := h.tiles.filter fun a => !(a.1 == c && a.2.1 == i)
  let s := setTile s c 1 i { e.2 with ctx := 0 }
  let s := { s with homes := if rest.isEmpty then tdel e.2.ctx s.homes else tset e.2.ctx { h with tiles := rest } s.homes }
  match h.tiles.find? fun a => a.1 == c && a.2.1 == i with
  | none => s
  | some a =>
    match imgPut h.core h.ptbr (h.addr + BitVec.ofNat 64 a.2.2.1) (tileWordsOf false (c, { t with scales := a.2.2.2 })) s with
    | none => deviceFault s 4
    | some s => if !rest.isEmpty then s else (imgPut h.core h.ptbr (h.addr + 0x28) ((numWords 0 2).map some) s).getD (deviceFault s 4)

def flushCtx (s : State) (c : Nat) : State := (ctxTiles s c).foldl (fun s e => flushTile s c e) s

end Sys2Proof.Machine
end

