-- ==== Sys2Proof/Machine/StreamOps.lean ====
section
/-! DEFINITION. Group 100 and the stream engine's events: tiles, stream commands, rings, queues (R287 to R313). -/

namespace Sys2Proof.Machine

/-- len bytes from address a cleared. -/
def Memory.clear (m : Memory) (a len : Nat) : Memory :=
  { bytes := m.bytes.filter fun b => !(decide (a ≤ b.1) && decide (b.1 < a + len))
    tags := m.tags.filter fun w => !(decide (a / 4 ≤ w) && decide (w < (a + len) / 4)) }

/-! ### TALLOC, TFREE, TQUERY (R291 to R293) -/

/-- The lowest free index of a level; frame tiles are never taken (R250). -/
def freeTile (s : State) (c level : Nat) : Option Nat :=
  (List.range (if level = 2 then 248 else 256)).find? fun i => let e := tileEnt s c level i; !e.live && e.ctx == 0

/-- A shape that the accumulator takes (R289). -/
def accShape (w : W64) : Bool := !shPlanes w && shBits w == 32

/-- TALLOC of a shape at a level (R291): the handle, or the failure value. -/
def talloc (s : State) (t : Tid) (level : Nat) (w : W64) : State × Nat :=
  let c := coreOf t
  if !shOk w || (level == 1 && !accShape w) then (s, 0x1802)
  else
    let s := if level = 1 ∧ ((freeTile s c 1).isNone ∨ usedAcc (s.core c) + shBlocks w > 8192) then flushCtx s c else s
    match freeTile s c level with
    | none => (s, 0x1801)
    | some i =>
      if level = 1 ∧ usedAcc (s.core c) + shBlocks w > 8192 then (s, 0x1803)
      else
        let e := tileEnt s c level i
        let bank := level == 1 || (level == 0 && decide (usedBanks (s.core c) + shBlocks w ≤ 384))
        let s := setTile s c level i
          { e with live := true, shape := w, asid := some ((s.core c).ptbr.toNat % 4096), bank := bank, ovf := false, ctx := 0 }
        (modTile s c level i fun m => m.clear (4 * tileAt s c level i) 65536, level * 2 ^ 11 + i * 8 + e.gen % 8)

/-- A stream-form word whose result is one value of its operands, lowest poison first. -/
def strValOp (d : Opd) (rs : List Src) (g : State → Tid → List Nat → State × Nat) : WordOp (List Val) Val where
  rdBusy := busySrcs rs
  wrBusy s t := (s.thr t).pending d.start.toNat d.slices
  rd s acts t := readSrcs acts t rs s
  eff s t _ vs := match lowTok vs with
    | some k => (s, .bad k)
    | none => let r := g s t (vs.map Val.num); (r.1, .ok (r.2 % 2 ^ d.bits))
  put s ts v := putAll s s.cur.addr d.start.toNat d.slices v none ts
  sdc := sdcInto d

/-- A word of group 100 in a STR clause (R31). -/
def strWord_ {α β : Type} (x : Pfx) (rs : List Src) (o : WordOp α β) (s : State) : State :=
  runWord { cls := some 1 } x (rs.any Src.endc) (1 + crossCost rs) o s

/-- TALLOC (R291). -/
def execTalloc (level : BitVec 2) (f : RForm) (s : State) : Out :=
  .next (strWord_ f.x [rA f] (strValOp f.d [rA f] fun s t l => talloc s t level.toNat (BitVec.ofNat 64 (arg l 0))) s)

/-- Tile handles that a stream command names. -/
def StrCmd.names (k : StrCmd) (x : Core) : List Nat :=
  match k.op with
  | .sload d _ => [saH d.toNat]
  | .fill r _ => [(tgetD (r.toNat % 16) {} x.rings).tile.toNat]
  | .sstore d _ => [saH d.toNat]
  | .scopy d a _ => [saH d.toNat, saH a.toNat]
  | .strns _ _ _ _ d _ => [saH d.toNat]
  | .asl _ | .lastld _ => []

/-- Tile handles that a matrix command names. -/
def MatCmd.names (k : MatCmd) : List Nat :=
  match k.op with
  | .loop acc a b .. => [acc.toNat, a.toNat, b.toNat]
  | .zero acc => [acc.toNat]
  | .loadacc acc src => [acc.toNat, saH src.toNat]
  | .mov dst src => [saH dst.toNat, src.toNat]
  | .cvtB8 _ _ ef _ _ dst src => [saH dst.toNat, src.toNat % 2 ^ 16] ++ if ef then [src.toNat / 2 ^ 16] else []
  | .cvtOther _ _ _ dst src => [saH dst.toNat, src.toNat]

/-- Whether a command of core c that has not completed names the tile. -/
def tileBusy (s : State) (c h : Nat) : Bool :=
  (s.core c).strQ.any (fun k => (k.names (s.core c)).contains h) || (s.core c).matQ.any (fun k => k.names.contains h)

/-- What TFREE of a handle records, if anything (R292, R250). -/
def tfreeFail (s : State) (t : Tid) (h : Nat) : Option Nat :=
  if hRank h ≠ 0 ∨ (hLevel h = 2 ∧ 248 ≤ hIndex h) then some cPROT
  else tileFail s (coreOf t) h (askerOf s t) false 0 0

def tfree (s : State) (t : Tid) (h : Nat) : State :=
  let c := coreOf t
  let e := tileEnt s c (hLevel h) (hIndex h)
  setTile s c (hLevel h) (hIndex h) { e with live := false, gen := (e.gen + 1) % 8 }

def tfreeOp (f : RForm) : WordOp Val Unit where
  rdBusy s acts t := (rA f).busy s acts t || (match (rA f).peek s acts t with
    | .val (.ok h) => (tfreeFail s t h).isNone && tileBusy s (coreOf t) h
    | _ => false)
  wrBusy _ _ := false
  rd s acts t := (rA f).read s acts t
  eff s t ts v := match v with
    | .bad k => (recordAll s ts k, ())
    | .ok h => match tfreeFail s t h with
      | some k => let q := raise s t k; (recordAll q.1 ts q.2, ())
      | none => (tfree s t h, ())
  put s _ _ := s

/-- TFREE (R292). -/
def execTfree (f : RForm) (s : State) : Out := .next (strWord_ f.x [rA f] (tfreeOp f) s)

/-- TQUERY's value (R293). -/
def tquery (s : State) (t : Tid) (k : Nat) (h : Nat) : Nat :=
  let c := coreOf t
  let fail := tileFail s c h (askerOf s t) false 0 0
  let e := tileEnt s (rankCore c h) (hLevel h) (hIndex h)
  match k with
  | 3 => (if hLevel h = 3 then 0 else e.gen % 8 * 32) + (match fail with | none => 1 | some q => 2 * q)
  | _ =>
    if fail.isSome then 0
    else match k with
      | 0 => e.shape.toNat
      | 1 => shBytes e.shape
      | _ => if e.bank then shBlocks e.shape else shBlocks e.shape * 2 ^ 16

/-- TQUERY (R293). -/
def execTquery (k : BitVec 2) (f : RForm) (s : State) : Out :=
  .next (strWord_ f.x [rA f] (strValOp f.d [rA f] fun s t l => (s, tquery s t k.toNat (arg l 0))) s)

/-! ### Stream commands (R298, R301, R306, R311) -/

/-- Whether the command queue of core c is full (R11, R14). -/
def strFull (s : State) (c : Nat) : Bool := decide (((s.core c).strQ.filter fun k => k.stage == 0).length ≥ 64)

/-- A command enters its core's queue. -/
def strAdd (g : List Nat → StrOp) (s : State) (t : Tid) (ts : List Tid) (id : Nat) (l : List Nat) : State × Option (Option Tok) :=
  let c := coreOf t
  let p := (s.core c).ptbr
  let k : StrCmd := { id := id, tids := ts, lead := t, pc := s.cur.addr, asid := p.toNat % 4096, root := p, user := !(s.thr t).priv
                      frames := (askerOf s t).frames, op := g l }
  (s.modCore c fun x => { x with strQ := x.strQ ++ [k] }, none)

def strIssue (f : RForm) (rs : List Src) (g : List Nat → StrOp) : CmdIssue :=
  { cls := .s, fut := futOf f, rs := rs, full := strFull, queue := .strs, add := strAdd g }

/-- SLOAD, SLOAD.ring, SSTORE, SCOPY (R301 to R304, R308). -/
def execSload (f : RForm) (s : State) : Out :=
  .next (cmdWord 1 false f.x (strIssue f [rA f, rB f] fun l => .sload (BitVec.ofNat 32 (arg l 0)) (BitVec.ofNat 64 (arg l 1))) s)
def execSloadRing (f : RForm) (s : State) : Out :=
  .next (cmdWord 1 false f.x (strIssue f [rA f, rB f] fun l => .fill (BitVec.ofNat 16 (arg l 0)) (BitVec.ofNat 64 (arg l 1))) s)
def execSstore (f : RForm) (s : State) : Out :=
  .next (cmdWord 1 false f.x (strIssue f [rA f, rB f] fun l => .sstore (BitVec.ofNat 32 (arg l 0)) (BitVec.ofNat 64 (arg l 1))) s)
def execScopy (f : RForm) (s : State) : Out :=
  .next (cmdWord 1 false f.x (strIssue f [rA f, rB f] fun l =>
    .scopy (BitVec.ofNat 32 (arg l 0 / 2 ^ 32)) (BitVec.ofNat 32 (arg l 0)) (arg l 1)) s)

/-- STRNS (R306). -/
def execStrns (sub : BitVec 4) (int uns sat : Bool) (f : RForm) (s : State) : Out :=
  .next (cmdWord 1 false f.x (strIssue f [rA f, rB f] fun l =>
    .strns sub int uns sat (BitVec.ofNat 32 (arg l 0)) (BitVec.ofNat 64 (arg l 1))) s)

/-- ASL (R311). -/
def execAsl (f : RForm) (s : State) : Out :=
  .next (cmdWord 1 false f.x (strIssue f [rA f] fun l => .asl (BitVec.ofNat 64 (arg l 0))) s)

/-- LASTLD (R305). -/
def execLastld (f : RForm) (s : State) : Out :=
  .next (cmdWord 1 false f.x (strIssue f [rA f] fun l => .lastld (BitVec.ofNat 64 (arg l 0))) s)

/-! ### Rings (R307 to R309) -/

/-- SRING of a tile and a geometry word (R307). -/
def sring (s : State) (t : Tid) (h b : Nat) : State × Nat :=
  let c := coreOf t
  let words := bitsOf b 15 0
  let n := bitsOf b 23 16
  if words = 0 ∨ words > 16383 ∨ n = 0 ∨ bitsOf b 31 24 ≠ 0 then (s, 0xFFFF)
  else if (tileFail s c h (askerOf s t) true 0 (n * words * 4)).isSome then (s, 0xFFFF)
  else match (List.range 16).find? fun i => !(tgetD i {} (s.core c).rings).live with
    | none => (s, 0xFFFF)
    | some i =>
      let g := tgetD i {} (s.core c).rings
      let n' : Ring := { live := true, gen := g.gen, tile := BitVec.ofNat 16 h, slotB := 4 * words, nslot := n, free := n }
      (s.modCore c fun x => { x with rings := tset i n' x.rings }, i + 16 * (g.gen % 8))

/-- SRING (R307). -/
def execSring (f : RForm) (s : State) : Out :=
  .next (strWord_ f.x [rA f, rB f] (strValOp f.d [rA f, rB f] fun s t l => sring s t (arg l 0) (arg l 1)) s)

/-- Whether a fill of ring handle h is queued or under way at core c. -/
def fillsOut (s : State) (c h : Nat) : Bool := (s.core c).strQ.any fun k => match k.op with | .fill r _ => r.toNat == h | _ => false

def sringFreeOp (f : RForm) : WordOp Val Unit where
  rdBusy s acts t := (rA f).busy s acts t || (match (rA f).peek s acts t with
    | .val (.ok h) => ringOk s (coreOf t) h && fillsOut s (coreOf t) h
    | _ => false)
  wrBusy _ _ := false
  rd s acts t := (rA f).read s acts t
  eff s t ts v := match v with
    | .bad k => (recordAll s ts k, ())
    | .ok h =>
      let c := coreOf t
      if ringOk s c h then
        let g := tgetD (h % 16) {} (s.core c).rings
        let n : Ring := { gen := (g.gen + 1) % 8 }
        (s.modCore c fun x => { x with rings := tset (h % 16) n x.rings }, ())
      else let q := raise s t cSTALE; (recordAll q.1 ts q.2, ())
  put s _ _ := s

/-- SRING.free (R307). -/
def execSringFree (f : RForm) (s : State) : Out := .next (strWord_ f.x [rA f] (sringFreeOp f) s)

/-- The ring that the handle of RPOP's thread t names, as an end-commit word's threads read it (R124). -/
def popRing (f : RForm) (s : State) (t : Tid) : Option Nat :=
  match (rA f).peek (withSlices s s.cur.old) (s.cur.acts.getD [t]) t with
  | .val (.ok h) => if ringOk s (coreOf t) h then some (h % 16) else none
  | _ => none

/-- Whether rings have filled slots for the RPOPs of threads ts, or as many as they have slots (R124, R309; assumption 62). -/
def popRoom (f : RForm) (s : State) (ts : List Tid) : Bool :=
  ts.all fun t => match popRing f s t with
    | none => true
    | some i =>
      let g := tgetD i {} (s.core (coreOf t)).rings
      decide (min (ts.filter fun u => popRing f s u == some i).length g.nslot ≤ g.filled)

/-- RPOP (R309): it waits while the ring has no filled slot. -/
def rpopOp (f : RForm) : WordOp Val Val where
  room := popRoom f
  rdBusy s acts t := (rA f).busy s acts t || (match (rA f).peek s acts t with
    | .val (.ok h) => ringOk s (coreOf t) h && (tgetD (h % 16) {} (s.core (coreOf t)).rings).filled == 0
    | _ => false)
  wrBusy s t := (s.thr t).pending f.d.start.toNat f.d.slices
  rd s acts t := (rA f).read s acts t
  eff s t _ v := match v with
    | .bad k => (s, .bad k)
    | .ok h =>
      let c := coreOf t
      if ringOk s c h then
        let g := tgetD (h % 16) {} (s.core c).rings
        let n : Ring := { g with filled := g.filled - 1, held := g.held + 1, popAt := (g.popAt + 1) % g.nslot }
        (s.modCore c fun x => { x with rings := tset (h % 16) n x.rings }, .ok (g.tile.toNat * 2 ^ 16 + g.popAt * g.slotB))
      else let q := raise s t cSTALE; (q.1, .bad q.2)
  put s ts v := putAll s s.cur.addr f.d.start.toNat f.d.slices v none ts
  sdc := sdcInto f.d

def execRpop (f : RForm) (s : State) : Out := .next (strWord_ f.x [rA f] (rpopOp f) s)

/-- Whether commands of thread t that read scratch are still under way (R309). -/
def scratchReads (s : State) (t : Tid) : Bool :=
  (s.core (coreOf t)).strQ.any (fun k => k.tids.contains t && match k.op with | .sstore .. | .scopy .. => true | _ => false)
    || (s.core (coreOf t)).matQ.any (fun k => k.tids.contains t && match k.op with | .loop .. | .loadacc .. | .cvtB8 _ _ true .. => true | _ => false)
    || (s.core (coreOf t)).fabQ.any (fun k => k.tids.contains t && match k.kind with | .fput .. => true | _ => false)

/-- RREL (R309). -/
def rrelOp (f : RForm) : WordOp Val Unit where
  rdBusy s acts t := (rA f).busy s acts t || loadsOut s t || scratchReads s t
  wrBusy _ _ := false
  rd s acts t := (rA f).read s acts t
  eff s t ts v := match v with
    | .bad k => (recordAll s ts k, ())
    | .ok h =>
      let c := coreOf t
      let fail := fun k => let q := raise s t k; (recordAll q.1 ts q.2, ())
      if ringOk s c h then
        let g := tgetD (h % 16) {} (s.core c).rings
        if g.held = 0 then fail cBND
        else
          let n : Ring := { g with held := g.held - 1, free := g.free + 1, relAt := (g.relAt + 1) % g.nslot }
          (s.modCore c fun x => { x with rings := tset (h % 16) n x.rings }, ())
      else fail cSTALE
  put s _ _ := s

def execRrel (f : RForm) (s : State) : Out := .next (strWord_ f.x [rA f] (rrelOp f) s)

/-! ### Operand queues (R312) -/

def queueOf (x : Thread) (q : BitVec 3) : OpQueue := tgetD q.toNat { bound := false } x.queues

/-- QPOP (R312): it waits on a bound empty queue; the last element's pop unbinds it. -/
def qpopOp (q : BitVec 3) (d : Opd) : WordOp Unit Val where
  rdBusy s _ t := let u := queueOf (s.thr t) q; u.elems.isEmpty && u.bound
  wrBusy s t := (s.thr t).pending d.start.toNat d.slices
  rd s _ _ := (s, ())
  eff s t _ _ :=
    let u := queueOf (s.thr t) q
    match u.elems with
    | [] => let r := raise s t cBND; (r.1, .bad r.2)
    | v :: l =>
      let n : OpQueue := { u with elems := l, bound := u.bound && !(l.isEmpty && u.left == 0) }
      (s.modThr t fun x => { x with queues := tset q.toNat n x.queues },
        match v with | .ok a => .ok (a % 2 ^ d.bits) | .bad k => .bad k)
  put s ts v := putAll s s.cur.addr d.start.toNat d.slices v none ts
  sdc := sdcInto d

def execQpop (q : BitVec 3) (f : RForm) (s : State) : Out := .next (strWord_ f.x [] (qpopOp q f.d) s)

/-- QSTAT's value. -/
def qstat (x : Thread) (q : BitVec 3) : Nat :=
  let u := queueOf x q
  u.elems.length % 32 + (if u.bound then 32 else 0) + min u.left (2 ^ 32 - 1) * 2 ^ 32

def execQstat (q : BitVec 3) (f : RForm) (s : State) : Out :=
  .next (strWord_ f.x [] (queryOp f.d fun s t => qstat (s.thr t) q) s)

/-! ### Events -/

/-- STREAM_COMMAND_START (R298). -/
def execStreamCommandStart (core id : Nat) (s : State) : Out :=
  .next (match strGet s core id with
    | some k => if strMayStart s core k then strStart s core k else s
    | none => s)

/-- STREAM_COMMAND_COMPLETE (R298, R302 to R306, R308): a command under way whose peers have answered; an ASL completes by its deliveries. -/
def execStreamCommandComplete (core id : Nat) (s : State) : Out :=
  .next (match strGet s core id with
    | some k => if decide (1 ≤ k.stage) && k.tags.isEmpty then strFinish s core k else s
    | none => s)

/-- ASL_DELIVER (R311): one element to one thread that has room. -/
def execAslDeliver (core id : Nat) (t : Tid) (s : State) : Out :=
  .next (match strGet s core id with
    | some k => match k.op with
      | .asl _ => if aslReady s k t && k.tags.isEmpty then aslDeliverTo s core k t else s
      | _ => s
    | none => s)

end Sys2Proof.Machine
end

