-- ==== Sys2Proof/Machine/Matrix.lean ====
section
/-! DEFINITION. Group 101 and the matrix engine's events (R317 to R334). -/

namespace Sys2Proof.Machine

/-- Whether the queue's 8 entries are in use (R318). Commands behind the eighth are a restored context's, which wait for an entry (R14,
R258). -/
def matFull (s : State) (c : Nat) : Bool := decide ((s.core c).matQ.length ≥ 8)

def matSet (s : State) (c : Nat) (k : MatCmd) : State :=
  s.modCore c fun x => { x with matQ := x.matQ.map fun q => if q.id = k.id then k else q }

/-- Narrowed mode (R332): the mode of the loop under way, else what the next step will take. -/
def narrowNow (s : State) (c : Nat) : Bool :=
  match (s.core c).matQ with
  | k :: _ => if k.started then (s.core c).narrow else s.host.alarm
  | [] => s.host.alarm

/-! ### The format field (R45, R317) -/

def fmtW (f : BitVec 6) : Nat := if fmtInt f then (f.extractLsb' 2 3).toNat + 1 else 8
def fmtB8 (f : BitVec 6) : B8 := b8Of ((f.extractLsb' 2 3).setWidth 4 ||| ((f.extractLsb' 0 1).setWidth 4 <<< 3)) (f.getLsbD 1)
/-- Cycles of a step (R317, R332). -/
def stepCycles (f : BitVec 6) (narrow : Bool) : Nat :=
  ((f.extractLsb' 2 3).toNat + if fmtInt f then 1 else 0) * if narrow then 2 else 1

/-! ### The end of a command (R327, R334) -/

/-- A command leaves its queue: `ran` is the offset its steps have reached; loops that were to take its offset take that, or
its own unchanged one. -/
def matEnd (s : State) (c : Nat) (k : MatCmd) (ran : Option Nat) (t : Option Tok) : State :=
  let own : OffSrc := match k.op with | .loop _ _ _ off .. => off | _ => .word 0
  let next : OffSrc := match ran with | some v => .word v | none => own
  let fix := fun (q : MatCmd) => match q.op with
    | .loop a x y (.after id old) sa sb n f i h => if id = k.id then { q with op := .loop a x y next sa sb n f i h } else { q with op := .loop a x y (.after id old) sa sb n f i h }
    | _ => q
  let s := s.modCore c fun x => { x with matQ := (x.matQ.filter fun q => q.id != k.id).map fix }
  let s := match k.op, ran with
    | .loop _ _ _ _ _ _ _ _ true h, some v => putAll s k.pc (h + 12) 8 (.ok (v % 2 ^ 32)) none (k.tids.filter s.live)
    | _, _ => s
  completeCmd s c k.id t

/-- A command that fails a check (R323, R328). -/
def matFail (s : State) (_c : Nat) (k : MatCmd) (cause : Nat) : State × Tok := raiseAt s k.lead k.pc cause 0

def MatCmd.asker (k : MatCmd) : Asker := ⟨k.asid, k.frames⟩

/-! ### Checks (R288, R319, R323) -/

def isAccShape (w : W64) : Bool := !shPlanes w && shBits w == 32 && shRows w == 128 && shCols w == 128

/-- What an accumulator handle fails: R288 first, then R319. -/
def accFail (s : State) (c h : Nat) (q : Asker) : Option Nat :=
  match tileFail s c h q false 0 0 with
  | some k => some k
  | none => if hLevel h ≠ 1 ∨ hRank h ≠ 0 then some cPROT else if isAccShape (tileShape s c h) then none else some cBND

/-- What an accumulator handle of MZERO, MLOADACC, TMOV or TCVT fails: its RANK first (R328). -/
def accFail0 (s : State) (c h : Nat) (q : Asker) : Option Nat := if hRank h ≠ 0 then some cPROT else accFail s c h q

/-- What an operand handle fails of R319, with element widths in `ok`. -/
def operFail (s : State) (c h : Nat) (ok : Nat → Bool) : Option Nat :=
  let w := tileShape s c h
  if hLevel h = 1 then some cPROT
  else if shPlanes w && shRows w == 128 && ok (shBits w) then none else some cBND

/-- The first failure of a loop's operands: R288 on A and B, then R319 on A and B, then the offset. -/
def loopFail (s : State) (c a b off kcnt : Nat) (f : BitVec 6) (q : Asker) : Option Nat :=
  match tileFail s c a q false 0 0, tileFail s c b q false 0 0, operFail s c a (· == fmtW f), operFail s c b (· == fmtW f) with
  | some k, _, _, _ | none, some k, _, _ | none, none, some k, _ | none, none, none, some k => some k
  | none, none, none, none =>
    let z := off + 8 * (kcnt + 1)
    if off / 2 ^ 16 ≠ 0 ∨ off % 8 ≠ 0 ∨ z > shCols (tileShape s c a) ∨ z > shCols (tileShape s c b) then some cBND else none

/-- The token of the first poisoned word of n words of a tile (R327, R328). -/
def firstBadOf (s : State) (c h w n : Nat) : Option Tok := firstBad (tileWords s c h w n)

/-- Words of a tile all written with one token. -/
def poisonWords (s : State) (c h w n : Nat) (k : Tok) : State := setTileWords s c h w (List.replicate n (.bad k))

/-- The words of an accumulator tile. -/
def accN : Nat := 16384

def setOvf (s : State) (c h : Nat) (v : Bool) : State :=
  setTile s (rankCore c h) (hLevel h) (hIndex h) { tileEnt s (rankCore c h) (hLevel h) (hIndex h) with ovf := v }

/-! ### One step (R324 to R326) -/

/-- The eight codes of a row that a step reads, of the tile's words, or the first poisoned plane word's token. -/
def rowCodes (w : W64) (l : List Val) (k0 row : Nat) : Except Tok (List Nat) :=
  let ws := (List.range (shBits w)).map fun j => l.getD (((row * shBits w + j) * shPitch w) / 4 + k0 / 32) (.ok 0)
  match firstBad ws with
  | some k => .error k
  | none => .ok ((List.range 8).map fun i =>
      (ws.zipIdx.map fun p => p.1.num / 2 ^ ((k0 + i) % 32) % 2 * 2 ^ p.2).sum)

/-- The codes of every row of an operand tile. -/
def tileCodes (s : State) (c h k0 : Nat) : List (Except Tok (List Nat)) :=
  let w := tileShape s c h
  let l := tileWords s c h 0 (shBytes w / 4)
  (List.range 128).map fun r => rowCodes w l k0 r

/-- The scale byte of a row (R321): its word's token, or the byte. -/
def scaleOf (l : List Val) (row : Nat) : Val :=
  match l.getD (row / 4) (.ok 0) with
  | .ok v => .ok (v / 256 ^ (row % 4) % 256)
  | b => b

/-- A binary8 step's new accumulator word from clean operands (R324). -/
def b8Step (f : B8) (as_ bs : List Nat) (sa sb acc : Nat) : Nat :=
  let d := (as_.zip bs).foldl (fun d p =>
    Dot.add d (prodFv (f.decode p.1) (f.decode p.2) ((sa : Int) - 127 + ((sb : Int) - 127)))) (.fin 0 0)
  rne32Add (f32.decode acc) (f32.decode ((d.round 0).getD f32.nanBits))

/-- An integer step's exact sum, before it wraps (R325). -/
def intStep (w : Nat) (uns : Bool) (as_ bs : List Nat) (acc : Nat) : Int :=
  let rd := fun (v : Nat) => if uns then (v : Int) else toSigned w v
  (as_.zip bs).foldl (fun (z : Int) p => z + rd p.1 * rd p.2) (if uns then (acc : Int) else toSigned 32 acc)

/-- What a step makes of one element. -/
inductive StepRes where
  | word (v : Val) (ovf : Bool)
  | inv
  deriving DecidableEq, Repr

/-- One element in one step (R324 to R326). -/
def elemStep (f : BitVec 6) (a b : Except Tok (List Nat)) (sa sb : Val) (acc : Val) : StepRes :=
  match a, b with
  | .error k, _ => .word (.bad k) false
  | _, .error k => .word (.bad k) false
  | .ok as_, .ok bs =>
    if fmtInt f then
      match acc with
      | .bad k => .word (.bad k) false
      | .ok o =>
        let z := intStep (fmtW f) (f.getLsbD 1) as_ bs o
        let out := if f.getLsbD 1 then decide (z < 0) || decide (z ≥ 2 ^ 32) else decide (z < -2 ^ 31) || decide (z ≥ 2 ^ 31)
        .word (.ok (wrapTo 32 z)) out
    else
      match lowTok [sa, sb, acc] with
      | some k => .word (.bad k) false
      | none => if sa.num = 0xFF ∨ sb.num = 0xFF then .inv
        else .word (.ok (b8Step (fmtB8 f) as_ bs sa.num sb.num acc.num)) false

/-- What a step makes of every element: rows of A by rows of B, over the accumulator's words. -/
def stepAll (f : BitVec 6) (as_ bs : List (Except Tok (List Nat) × Val)) : List Val → List StepRes
  | acc => ((as_.flatMap fun a => bs.map fun b => (a, b)).zip acc).map fun p => elemStep f p.1.1.1 p.1.2.1 p.1.1.2 p.1.2.2 p.2

/-- A step over the elements of the accumulator; INV poison takes one origin entry for each command. -/
def runStep (s : State) (c : Nat) (k : MatCmd) (acc a b k0 : Nat) (sa sb : List Val) (f : BitVec 6) : State × MatCmd :=
  let as_ := (tileCodes s c a k0).zip ((List.range 128).map (scaleOf sa))
  let bs := (tileCodes s c b k0).zip ((List.range 128).map (scaleOf sb))
  let rs := stepAll f as_ bs (tileWords s c acc 0 accN)
  let q : State × Tok := match k.inv with
    | some t => (s, t)
    | none => if rs.any (fun r => r == .inv) then raiseAt s k.lead k.pc cINV 0 else (s, 0)
  let k := if rs.any (fun r => r == .inv) then { k with inv := some q.2 } else k
  let s := setTileWords q.1 c acc 0 (rs.map fun r => match r with | .word v _ => v | .inv => .bad q.2)
  (s, { k with ovf := k.ovf || rs.any fun r => match r with | .word _ o => o | .inv => false })

/-! ### Issue: MLOOP (R320 to R322) -/

def scalePeek (s : State) (t : Tid) (lo j : Nat) : Peek :=
  match scaleThread (s.thr t) t j with
  | none => .xch
  | some u => if s.live u then (s.thr u).peek lo 8 else .xch

/-- The scale words read in turn; reads that fail alike share one origin entry, the word being uniform (R197). -/
def scaleReads (t : Tid) (lo : Nat) : List Nat → List (Peek × Val) → State → State × List Val × List (Peek × Val)
  | [], seen, s => (s, [], seen)
  | j :: js, seen, s =>
    let k := scalePeek s t lo j
    match (seen.find? fun p => p.1 == k).map Prod.snd with
    | some v => let q := scaleReads t lo js seen s; (q.1, v :: q.2.1, q.2.2)
    | none =>
      let r := settle s t k
      let q := scaleReads t lo js (match k with | .val _ => seen | _ => (k, r.2) :: seen) r.1
      (q.1, r.2 :: q.2.1, q.2.2)

/-- What MLOOP reads: accumulator, A, B, offset, then the scale words. -/
structure LoopArgs where
  hs : List Val
  off : OffSrc
  sa : List Val
  sb : List Val
  deriving DecidableEq, Repr

/-- A source of MLOOP's handle block. -/
def hSrc (h o n : Nat) : Src := ⟨h + o, n, .self, 0, false⟩

def mloopOp (f : XForm) : WordOp LoopArgs Issued where
  rdBusy s acts t :=
    let h := f.h.toNat
    busySrcs [hSrc h 0 4, hSrc h 4 4, hSrc h 8 4] s acts t || loopBusy s t f
      || matFull s (coreOf t) || (f.fe && futFull s (coreOf t))
  wrBusy s t := countFull s .m [t] || (f.fe && (s.thr t).pending f.fd.toNat 4) || (f.ainc && offBusy s t f.h.toNat)
  rd s acts t :=
    let h := f.h.toNat
    let b := 8 * f.bsel.toNat
    let r := readSrcs acts t [hSrc h 0 4, hSrc h 4 4, hSrc h 8 4] s
    let from_ := offFrom s t h
    let o := Src.read (hSrc h 12 8) r.1 acts t
    let off : OffSrc := match from_ with | some id => .after id o.2.num | none => .word o.2.num
    let hs := r.2 ++ (if from_.isSome then [] else [o.2])
    if fmtInt f.fmt then (o.1, ⟨hs, off, [], []⟩)
    else
      let x := scaleReads t (f.sc.toNat + b) (List.range 32) [] o.1
      let y := scaleReads t (f.sc.toNat + 64 + b) (List.range 32) x.2.2 x.1
      (y.1, ⟨hs, off, x.2.1, y.2.1⟩)
  eff s t ts a :=
    let c := coreOf t
    let n := s.fresh c
    let s := issueCmd n.1 .m n.2 ts
    let w := if f.fe then allocFut s c .m n.2 else (s, 0)
    let hv := fun (i : Nat) => BitVec.ofNat 16 (arg (a.hs.map Val.num) i)
    match lowTok a.hs with
    | some k => (w.1, ⟨n.2, w.2, some (some k)⟩)
    | none =>
      let u := w.1
      let k : MatCmd := { id := n.2, tids := ts, lead := t, pc := u.cur.addr, asid := (askerOf u t).asid, frames := (askerOf u t).frames
                          op := .loop (hv 0) (hv 1) (hv 2) a.off a.sa a.sb f.kcnt.toNat f.fmt f.ainc f.h.toNat }
      (u.modCore c fun x => { x with matQ := x.matQ ++ [k] }, ⟨n.2, w.2, none⟩)
  put s ts i :=
    let s := if f.fe then putHandle s ts (some ⟨f.fd, 3⟩) i else s
    let s := if f.ainc then ts.foldl (fun s t => markPend s t (f.h.toNat + 12) 8 i.id false) s else s
    match i.now_ with
    | some k => completeCmd s (coreOf (ts.headD 0)) i.id k
    | none => s

/-- The sources of MLOOP in the register file: handles and offset word, and the scale words of a binary8 loop (R320, R321). -/
def mloopSrcs (f : XForm) : List Src :=
  let h := f.h.toNat
  let b := f.sc.toNat + 8 * f.bsel.toNat
  [hSrc h 0 4, hSrc h 4 4, hSrc h 8 4, hSrc h 12 8] ++ if fmtInt f.fmt then [] else [hSrc b 0 8, hSrc b 64 8]

/-- MLOOP (R320); each source that crosses a row adds its cycle (R114). -/
def execMloop (f : XForm) (s : State) : Out :=
  .next (runWord { cls := some 2 } f.x true (1 + crossCost (mloopSrcs f)) (mloopOp f) s)

/-! ### Issue: the accumulator commands (R328) -/

def matAdd (g : List Nat → MatOp) (s : State) (t : Tid) (ts : List Tid) (id : Nat) (l : List Nat) : State × Option (Option Tok) :=
  let k : MatCmd := { id := id, tids := ts, lead := t, pc := s.cur.addr, asid := (askerOf s t).asid, frames := (askerOf s t).frames, op := g l }
  (s.modCore (coreOf t) fun x => { x with matQ := x.matQ ++ [k] }, none)

def matIssue (f : RForm) (rs : List Src) (g : List Nat → MatOp) : CmdIssue :=
  { cls := .m, fut := futOf f, rs := rs, full := matFull, queue := .mats, add := matAdd g }

/-- MZERO, MLOADACC, TMOV (R328). -/
def execMzero (f : RForm) (s : State) : Out :=
  .next (cmdWord 2 false f.x (matIssue f [rA f] fun l => .zero (BitVec.ofNat 16 (arg l 0))) s)
def execMloadacc (f : RForm) (s : State) : Out :=
  .next (cmdWord 2 false f.x (matIssue f [rA f, rB f] fun l => .loadacc (BitVec.ofNat 16 (arg l 0)) (BitVec.ofNat 32 (arg l 1))) s)
def execTmov (f : RForm) (s : State) : Out :=
  .next (cmdWord 2 false f.x (matIssue f [rA f, rB f] fun l => .mov (BitVec.ofNat 32 (arg l 0)) (BitVec.ofNat 16 (arg l 1))) s)

/-- TCVT (R328, R330). -/
def execTcvtB8 (bp : BitVec 4) (ef sat : Bool) (rnd : BitVec 2) (f : RForm) (s : State) : Out :=
  .next (cmdWord 2 false f.x (matIssue f [rA f, rB f] fun l =>
    .cvtB8 bp false ef sat rnd (BitVec.ofNat 32 (arg l 0)) (BitVec.ofNat 32 (arg l 1))) s)
def execTcvtB8Unsigned (bp : BitVec 4) (ef sat : Bool) (rnd : BitVec 2) (f : RForm) (s : State) : Out :=
  .next (cmdWord 2 false f.x (matIssue f [rA f, rB f] fun l =>
    .cvtB8 bp true ef sat rnd (BitVec.ofNat 32 (arg l 0)) (BitVec.ofNat 32 (arg l 1))) s)
def execTcvtOther (tgt : BitVec 2) (sat : Bool) (rnd : BitVec 2) (f : RForm) (s : State) : Out :=
  .next (cmdWord 2 false f.x (matIssue f [rA f, rB f] fun l =>
    .cvtOther tgt sat rnd (BitVec.ofNat 32 (arg l 0)) (BitVec.ofNat 16 (arg l 1))) s)

/-! ### MSTAT (R331) -/

/-- The checks of a tile that word 1 reports. -/
def mstatFail (s : State) (c h : Nat) (q : Asker) : Option Nat :=
  match tileFail s c h q false 0 0 with
  | some k => some k
  | none => if hLevel h = 1 then accFail s c h q else operFail s c h fun b => decide (1 ≤ b) && decide (b ≤ 8)

def mstat (s : State) (t : Tid) (k h : Nat) : Nat :=
  let c := coreOf t
  let x := s.core c
  match k with
  | 0 =>
    let busy := match x.matQ with | q :: _ => q.started | [] => false
    let rem := match x.matQ with
      | q :: _ => if q.started then (match q.op with | .loop _ _ _ _ _ _ n _ _ _ => n + 1 - q.step | _ => 0) else 0
      | [] => 0
    (if narrowNow s c then 1 else 0) + (if busy then 2 else 0) + min 8 x.matQ.length * 4 + rem * 64
  | 1 =>
    let q := askerOf s t
    let ovf := (tileFail s c h q false 0 0).isNone && (tileEnt s (rankCore c h) (hLevel h) (hIndex h)).ovf
    (if ovf then 1 else 0) + (match mstatFail s c h q with | none => 2 | some k => 4 * k)
  | 2 => x.sdcCnt
  | _ => x.stepCnt % 2 ^ 64

def execMstat (k : BitVec 2) (f : RForm) (s : State) : Out :=
  let rs := if k = 1 then [rA f] else []
  .next (runWord { cls := some 2 } f.x (rs.any Src.endc) (1 + crossCost rs)
    (strValOp f.d rs fun s t l => (s, mstat s t k.toNat (arg l 0))) s)

/-! ### A command's start (R318, R323, R328) -/

/-- A loop's resolved offset. -/
def OffSrc.num : OffSrc → Nat
  | .word v => v
  | .after _ old => old

/-- What a copy or conversion does with its destination. -/
structure Dest where
  h : Nat
  first : Nat
  n : Nat
  deriving DecidableEq, Repr

/-- A range of 65,536 bytes at a scratch address: the words, none when it leaves its tile or is not word-aligned (R329). -/
def wholeRange (s : State) (c a : Nat) : Option Dest :=
  let o := a % 2 ^ 16
  if o % 4 ≠ 0 ∨ o + 65536 > shBytes (tileShape s c (saH a)) then none
  else some ⟨saH a, o / 4, accN⟩

/-- Element bits that TCVT needs of its destination (R330). -/
def cvtBits (op : MatOp) : Nat := match op with
  | .cvtOther tgt _ _ _ _ => if tgt = 0 ∨ tgt = 3 then 16 else if tgt = 1 then 32 else 8
  | _ => 8

/-- TCVT's starting position, none when a condition of R330 fails. -/
def cvtStart (s : State) (c a bits : Nat) : Option Nat :=
  let w := tileShape s c (saH a)
  if hLevel (saH a) = 1 ∨ shPlanes w ∨ shBits w ≠ bits then none
  else match posAt w (a % 2 ^ 16) with
    | none => none
    | some p => if p + 16384 > shRows w * shCols w then none else some p

/-- Words of a rows-layout tile that 16,384 positions from p occupy: every word between the first and the last. -/
def cvtDest (w : W64) (h p : Nat) : Dest :=
  let first := (rowsPlace w p).1
  ⟨h, first, (rowsPlace w (p + 16383)).1 + 1 - first⟩

/-- A destination poisoned with a cause: what a failing source does (R328). -/
def poisonDest (s : State) (c : Nat) (k : MatCmd) (d : Dest) (cause : Nat) : State :=
  let r := matFail s c k cause
  matEnd (poisonWords r.1 c d.h d.first d.n r.2) c k none (some r.2)

/-- A command that ends with a cause and writes nothing. -/
def matReject (s : State) (c : Nat) (k : MatCmd) (cause : Nat) : State :=
  let r := matFail s c k cause
  matEnd r.1 c k none (some r.2)

/-- A command goes under way. -/
def matGo (s : State) (c : Nat) (k : MatCmd) (cost : Nat) : State :=
  matSet (s.modCore c fun x => { x with narrow := s.host.alarm }) c { k with started := true, due := s.now + cost }

/-- Whether a loop has a step under way: it stands past the boundary before it (R334, R335). -/
def MatCmd.inStep (s : State) (c : Nat) (k : MatCmd) : Bool :=
  match k.op with
  | .loop _ _ _ _ _ _ n f _ _ => k.started && decide (k.step ≤ n) && decide (k.due < s.now + stepCycles f (s.core c).narrow)
  | _ => false

/-- A loop under way stops at its next step boundary, with the step that is under way (R334, R335). -/
def MatCmd.stop (s : State) (c : Nat) (k : MatCmd) : MatCmd :=
  match k.op with
  | .loop _ _ _ _ _ _ n f _ _ =>
    if !k.started || decide (k.step > n) then { k with stopAt := some k.step }
    else if k.inStep s c then { k with stopAt := some (k.step + 1) }
    else { k with stopAt := some k.step, due := k.due - stepCycles f (s.core c).narrow }
  | _ => { k with stopAt := some k.step }

/-- The checks of TCVT with a destination, a source and perhaps a residue. -/
def cvtBegin (s : State) (c : Nat) (k : MatCmd) (dst src : Nat) (res : Option Nat) : State :=
  match tileFail s c (saH dst) k.asker false 0 0 with
  | some f => matReject s c k f
  | none => match res.bind fun r => match tileFail s c r k.asker false 0 0 with
      | some f => some f
      | none => if (accFail s c r k.asker).isSome ∨ (rankCore c r = rankCore c src ∧ hLevel r = hLevel src ∧ hIndex r = hIndex src)
          then some cBND else none with
    | some f => matReject s c k f
    | none => match cvtStart s c dst (cvtBits k.op) with
      | none => matReject s c k cBND
      | some p => match accFail0 s c src k.asker with
        | some f => poisonDest s c k (cvtDest (tileShape s c (saH dst)) (saH dst) p) f
        | none => matGo s c k 128

/-- A command's start: its tiles are checked; one that fails completes at once. -/
def matBegin (s : State) (c : Nat) (k : MatCmd) : State :=
  match k.op with
  | .loop acc a b off _ _ n f _ _ =>
    match accFail s c acc.toNat k.asker with
    | some q => matReject s c k q
    | none => match loopFail s c a.toNat b.toNat off.num n f k.asker with
      | some q => poisonDest s c k ⟨acc.toNat, 0, accN⟩ q
      | none => matGo s c k (12 + stepCycles f s.host.alarm)
  | .zero acc => match accFail0 s c acc.toNat k.asker with
    | some q => matReject s c k q
    | none => matGo s c k 64
  | .loadacc acc src => match accFail0 s c acc.toNat k.asker with
    | some q => matReject s c k q
    | none => match tileFail s c (saH src.toNat) k.asker false 0 0 with
      | some q => poisonDest (setOvf s c acc.toNat false) c k ⟨acc.toNat, 0, accN⟩ q
      | none => if hLevel (saH src.toNat) = 1 ∧ hRank (saH src.toNat) ≠ 0 then
          poisonDest (setOvf s c acc.toNat false) c k ⟨acc.toNat, 0, accN⟩ cPROT
        else match wholeRange s c src.toNat with
        | none => poisonDest (setOvf s c acc.toNat false) c k ⟨acc.toNat, 0, accN⟩ cBND
        | some _ => matGo s c k 128
  | .mov dst src => match tileFail s c (saH dst.toNat) k.asker false 0 0 with
    | some q => matReject s c k q
    | none => if hLevel (saH dst.toNat) = 1 ∧ hRank (saH dst.toNat) ≠ 0 then matReject s c k cPROT
      else match wholeRange s c dst.toNat with
      | none => matReject s c k cBND
      | some d => if hLevel (saH dst.toNat) = 1 ∧ !isAccShape (tileShape s c (saH dst.toNat)) then matReject s c k cBND
        else match accFail0 s c src.toNat k.asker with
        | some q => poisonDest s c k d q
        | none => matGo s c k 128
  | .cvtB8 _ _ ef _ _ dst src =>
    cvtBegin s c k dst.toNat (src.toNat % 2 ^ 16) (if ef then some (src.toNat / 2 ^ 16) else none)
  | .cvtOther _ _ _ dst src => cvtBegin s c k dst.toNat src.toNat none

/-! ### The accumulator commands' effects (R329, R330) -/

/-- The code of a clean accumulator word (R330), and the new residue under .ef. -/
def cvtCode (op : MatOp) (x res : Nat) : Nat × Nat :=
  match op with
  | .cvtB8 bp u ef sat rnd _ _ =>
    if ef then b8Feedback (b8Of bp u) rnd sat x res else ((b8Of bp u).round rnd sat (f32.decode x), 0)
  | .cvtOther tgt sat rnd _ _ =>
    (match tgt.toNat with
      | 0 => (match fpConvert f16 rnd sat false (f32.decode x) with | .val v => v | .inv _ => f16.nanBits)
      | 1 => (match f32.decode x with
          | .nan _ => f32.nanBits
          | .inf n => infRes f32 sat n
          | .fin .. => x)
      | 2 => if sat then satRes false 8 (toSigned 32 x) else x % 2 ^ 8
      | _ => if sat then satRes false 16 (toSigned 32 x) else x % 2 ^ 16, 0)
  | _ => (0, 0)

/-- One element converted: what its code's place takes and what its residue's word takes. -/
def cvtElem (op : MatOp) (x r : Val) : Val × Val :=
  match lowTok [x, r] with
  | some t => (.bad t, .bad t)
  | none => let q := cvtCode op x.num r.num; (.ok q.1, .ok q.2)

/-- Element parts merged into words from word w on, each part's word and bit given, in rising order (R200). -/
def mergeParts (bits : Nat) (w : Nat) : List Val → List ((Nat × Nat) × Val) → List Val
  | [], _ => []
  | o :: os, es =>
    let here := es.takeWhile fun e => e.1.1 == w
    here.foldl (fun o e => mergeWord o e.1.2 bits e.2) o :: mergeParts bits (w + 1) os (es.drop here.length)

def cvtFinish (s : State) (c : Nat) (k : MatCmd) (dst src : Nat) (res : Option Nat) : State :=
  match cvtStart s c dst (cvtBits k.op) with
  | none => matReject s c k cBND
  | some p =>
    let w := tileShape s c (saH dst)
    let d := cvtDest w (saH dst) p
    let rs : List Val := match res with | some h => tileWords s c h 0 accN | none => List.replicate accN (.ok 0)
    let es := ((tileWords s c src 0 accN).zip rs).map fun e => cvtElem k.op e.1 e.2
    let parts := es.zipIdx.map fun e => (rowsPlace w (p + e.2), e.1.1)
    let s := setTileWords s c d.h d.first (mergeParts (shBits w) d.first (tileWords s c d.h d.first d.n) parts)
    let s := match res with | some h => setTileWords s c h 0 (es.map Prod.snd) | none => s
    matEnd s c k none ((firstBadOf s c d.h d.first d.n).or (res.bind fun h => firstBadOf s c h 0 accN))

/-- Words copied, every one read before any is written. -/
def copyTile (s : State) (c h w h' w' n : Nat) : State := setTileWords s c h' w' (tileWords s c h w n)

/-- A loop that has been cancelled ends at the boundary it has reached: its steps stay, its overflow with them (R331, R334). -/
def loopCancelled (s : State) (c : Nat) (k : MatCmd) (acc off : Nat) : State :=
  let s := if k.ovf then setOvf s c acc true else s
  let r := matFail s c k cUSER
  matEnd r.1 c k (some (off + 8 * k.step)) (some r.2)

/-- A command that is under way finishes (R327, R329, R330); a loop when its steps are done or it has been cancelled (R334). -/
def matFinish (s : State) (c : Nat) (k : MatCmd) : State :=
  match k.op with
  | .loop acc _ _ off _ _ n _ _ _ =>
    if k.cancelled && k.stopAt == some k.step then loopCancelled s c k acc.toNat off.num
    else if k.step > n then
      let s := if k.ovf then setOvf s c acc.toNat true else s
      matEnd s c k (some (off.num + 8 * k.step)) (firstBadOf s c acc.toNat 0 accN)
    else s
  | .zero acc =>
    let s := setTileWords s c acc.toNat 0 (List.replicate accN (.ok 0))
    matEnd (setOvf s c acc.toNat false) c k none none
  | .loadacc acc src =>
    let s := setOvf (copyTile s c (saH src.toNat) (src.toNat % 2 ^ 16 / 4) acc.toNat 0 accN) c acc.toNat false
    matEnd s c k none (firstBadOf s c acc.toNat 0 accN)
  | .mov dst src =>
    let s := copyTile s c src.toNat 0 (saH dst.toNat) (dst.toNat % 2 ^ 16 / 4) accN
    let s := if hLevel (saH dst.toNat) = 1 then
        setOvf s c (saH dst.toNat) (tileEnt s (rankCore c src.toNat) (hLevel src.toNat) (hIndex src.toNat)).ovf else s
    matEnd s c k none (firstBadOf s c (saH dst.toNat) (dst.toNat % 2 ^ 16 / 4) accN)
  | .cvtB8 _ _ ef _ _ dst src =>
    cvtFinish s c k dst.toNat (src.toNat % 2 ^ 16) (if ef then some (src.toNat / 2 ^ 16) else none)
  | .cvtOther _ _ _ dst src => cvtFinish s c k dst.toNat src.toNat none

/-! ### Events -/

/-- MATRIX_COMMAND_START (R318): the front command starts when none is under way and no save is recording it (R256). -/
def execMatrixCommandStart (core : Nat) (s : State) : Out :=
  .next (match (s.core core).matQ with
    | k :: _ => if k.started || k.stopAt.isSome then s else matBegin s core k
    | [] => s)

/-- One K-step of the loop under way (R324, R325); a checksum mismatch poisons the accumulator (R333). -/
def loopStep (s : State) (c : Nat) (k : MatCmd) (mismatch : Bool) : State :=
  match k.op with
  | .loop acc a b off sa sb n f _ _ =>
    if k.step > n || k.stopAt == some k.step then s
    else
      let r := runStep s c k acc.toNat a.toNat b.toNat (off.num + 8 * k.step) sa sb f
      let s := r.1.modCore c fun x => { x with stepCnt := x.stepCnt + 1, narrow := r.1.host.alarm }
      let s := if mismatch then
          let q := matFail s c k cSDC
          (poisonWords q.1 c acc.toNat 0 accN q.2).modCore c fun x => { x with sdcCnt := min (2 ^ 32 - 1) (x.sdcCnt + 1) }
        else s
      let more := decide (k.step + 1 ≤ n) && k.stopAt != some (k.step + 1)
      matSet s c { r.2 with step := k.step + 1, due := s.now + if more then stepCycles f s.host.alarm else 0 }
  | _ => s

/-- MLOOP_STEP. -/
def execMloopStep (core : Nat) (mismatch : Bool) (s : State) : Out :=
  .next (match (s.core core).matQ with
    | k :: _ => if k.started then loopStep s core k mismatch else s
    | [] => s)

/-- MATRIX_COMMAND_COMPLETE. -/
def execMatrixCommandComplete (core : Nat) (s : State) : Out :=
  .next (match (s.core core).matQ with
    | k :: _ => if k.started then matFinish s core k else s
    | [] => s)

end Sys2Proof.Machine
end

