-- ==== Sys2Proof/Machine/Combine.lean ====
section
/-! DEFINITION. CMB, CMBU, CMBDEF and the combiners' events (R266 to R283). -/

namespace Sys2Proof.Machine

/-! ### Issue (R275 to R278) -/

/-- How a combine word reads its operands: A, B, and the new value of a CAS through BX (R275). -/
def combSrcs (cas : Bool) (f : RForm) : List Src :=
  [rA f, rB f] ++ (if cas then [⟨f.b.start.toNat + f.b.slices, f.b.slices, f.bx, f.e.toNat, true⟩] else [])

/-- Why a combine's address is refused before translation (R276, R278). -/
def combBad (method : Nat) (user sz : Bool) (ea : W64) : Bool :=
  !user && (ea.toNat % (if method = 12 then 16 else if sz then 8 else 4) != 0
    || (method == 11 && decide (ea.toNat % 64 ≥ 64 - (if sz then 8 else 4))))

/-- What a combine's issue leaves: its command and destination, and the poison it completes with at once. -/
structure CombIss where
  id : Nat
  now_ : Option Tok
  deriving DecidableEq, Repr

/-- A request sent: to this device's homes, or over the fabric to a peer (R276, R283). -/
def combSend (s : State) (r : CReq) (p : Page) : State :=
  let t := r.lead
  let s := setDC s p
  let n := s.comb.nextId
  let r := { r with id := n, pa := p.pa, peer := p.peer, ident := identOf s.fab.dev.toNat t, sent := s.now
                    port := s.iss.getD 0, filled := s.cur.filled }
  let s := { s with comb := { s.comb with nextId := n + 1, flight := s.comb.flight ++ [r] } }
  if p.peer = 0 then s
  else
    let s := migCount s ((s.core r.core).ptbr.toNat % 4096) r.ea p
    let lo := if r.user then p.pa / 64 * 64 else p.pa
    let hi := if r.user then lo + 64 else lo + 16
    let s := dropPeer s r.core p.peer ((List.range 16).filterMap fun i =>
      let w := p.pa / 64 * 16 + i
      if lo < 4 * w + 4 ∧ 4 * w < hi then some w else none)
    fabSend s 3 p.peer { core := r.core, tid := t, pc := r.pc, ea := r.ea, use := .comb n, write := true, lo := lo, hi := hi }
      (reqPayload p.pa r.b (if r.user then 2 else 1) 0 (r.method + if r.sz then 256 else 0) r.new r.ident) []

def combOp (method : Nat) (user sz : Bool) (f : RForm) : WordOp (List Val) CombIss where
  room := roomFor .combs
  rdBusy s acts t := busySrcs (combSrcs (!user && method == 10) f) s acts t || decide (combOut s (coreOf t) ≥ 256)
  wrBusy s t := countFull s .c [t] || (s.thr t).pending f.d.start.toNat f.d.slices
  rd s acts t := readSrcs acts t (combSrcs (!user && method == 10) f) s
  eff s t ts vs :=
    let c := coreOf t
    let n := s.fresh c
    let s := issueCmd n.1 .c n.2 ts
    match lowTok vs with
    | some k => (s, ⟨n.2, some k⟩)
    | none =>
      let l := vs.map Val.num
      let ea : W64 := BitVec.ofNat 64 (arg l 0)
      if combBad method user sz ea then let q := raise s t cBND ea; (q.1, ⟨n.2, some q.2⟩)
      else
        let r := xlat s t .store ea
        match r.2 with
        | .fault k => let q := raise r.1 t k ea; (q.1, ⟨n.2, some q.2⟩)
        | .carried k => let q := raiseCarried r.1 t (s.thr t).pc k ea; (q.1, ⟨n.2, some q.2⟩)
        | .ok p =>
          (combSend r.1 { core := c, cmd := n.2, tids := ts, lead := t, lo := f.d.start.toNat, n := f.d.slices, pc := s.cur.addr, ea := ea
                          user := user, method := method, sz := sz, b := arg l 1, new := arg l 2 } p, ⟨n.2, none⟩)
  put s ts i :=
    match i.now_ with
    | some k => completeCmd (putAll s s.cur.addr f.d.start.toNat f.d.slices (.bad k) none ts) (coreOf (ts.headD 0)) i.id none
    | none => ts.foldl (fun s t => markPend s t f.d.start.toNat f.d.slices i.id false) s

def combWord (method : Nat) (user sz : Bool) (f : RForm) (s : State) : State :=
  let rs := combSrcs (!user && method == 10) f
  runWord { cls := some 3 } f.x (rs.any Src.endc) (1 + crossCost rs) (combOp method user sz f) s

/-- CMB (R275). -/
def execCmb (op : BitVec 4) (sz : Bool) (f : RForm) (s : State) : Out := .next (combWord op.toNat false sz f s)
/-- CMBU (R278). -/
def execCmbu (n : BitVec 6) (f : RForm) (s : State) : Out := .next (combWord n.toNat true true f s)

/-! ### Method bodies (R279, R280) -/

/-- Operands of a body word (R280). -/
def bodyOpd (d : Opd) : Bool := decide (d.start.toNat + d.slices ≤ 232)
def bodyR (f : RForm) : Bool :=
  !f.x.u && f.ax == .self && f.bx == .self && !f.r4 && bodyOpd f.d && bodyOpd f.a && bodyOpd f.b
def bodyI (f : IForm) : Bool := !f.x.u && f.ax == .self && bodyOpd f.d && bodyOpd f.a

/-- The words that a body may hold: whether their fields are allowed, and their meaning (R280). -/
def bodyInstr : Instr → Option (Bool × (State → Out))
  | .iadd g w t f => some (bodyR f, execIadd g w t f)
  | .iaddImm g w f => some (bodyI f, execIaddImm g w f)
  | .isub g w t f => some (bodyR f, execIsub g w t f)
  | .imul g w f => some (bodyR f, execImul g w f)
  | .imulh g w f => some (bodyR f, execImulh g w f)
  | .imad g w t f => some (bodyR f, execImad g w t f)
  | .imin g w f => some (bodyR f, execImin g w f)
  | .imax g w f => some (bodyR f, execImax g w f)
  | .iabs w t f => some (bodyR f, execIabs w t f)
  | .ineg w t f => some (bodyR f, execIneg w t f)
  | .and_ f => some (bodyR f, execAnd f)
  | .or_ f => some (bodyR f, execOr f)
  | .xor_ f => some (bodyR f, execXor f)
  | .andn f => some (bodyR f, execAndn f)
  | .not_ f => some (bodyR f, execNot f)
  | .andImm f => some (bodyI f, execAndImm f)
  | .orImm f => some (bodyI f, execOrImm f)
  | .xorImm f => some (bodyI f, execXorImm f)
  | .andnImm f => some (bodyI f, execAndnImm f)
  | .lut3 t f => some (bodyR f, execLut3 t f)
  | .shl f => some (bodyR f, execShl f)
  | .shr f => some (bodyR f, execShr f)
  | .sar f => some (bodyR f, execSar f)
  | .rot f => some (bodyR f, execRot f)
  | .shlImm f => some (bodyI f, execShlImm f)
  | .shrImm f => some (bodyI f, execShrImm f)
  | .sarImm f => some (bodyI f, execSarImm f)
  | .rotImm f => some (bodyI f, execRotImm f)
  | .bfx g f => some (bodyR f, execBfx g f)
  | .bfi f => some (bodyR f, execBfi f)
  | .popc f => some (bodyR f, execPopc f)
  | .clz f => some (bodyR f, execClz f)
  | .ctz f => some (bodyR f, execCtz f)
  | .brev f => some (bodyR f, execBrev f)
  | .icmp g c f => some (bodyR f, execIcmp g c f)
  | .icmpImm g c f => some (bodyI f, execIcmpImm g c f)
  | .isel n p f => some (bodyR f, execIsel n p f)
  | .movZ f => some (bodyR f, execMovZ f)
  | .movS f => some (bodyR f, execMovS f)
  | .movi z f => some (bodyI f, execMovi z f)
  | .movh p f => some (bodyI f, execMovh p f)
  | _ => none

/-- A body word that R280 allows. -/
def bodyWordOk (w : W64) : Bool :=
  match decode w with
  | some i => match bodyInstr i with | some p => p.1 | none => false
  | none => false

/-- The poison that stands in a frame's poisoned granules: a read copies it as bits, which a clean granule tag does not hold. -/
def frameMark : Tok := 0xFFF9C5A9

/-- A method frame at a lane's start (R279): poisoned object granules are tagged over zero bits. -/
def frameThread (copy : List Val) (b lane n : Nat) : Thread :=
  let x : Thread := { xgran := 4 }
  let x := copy.zipIdx.foldl (fun (x : Thread) p => match p.1 with
    | .ok v => x.put (8 * p.2) 8 (.ok v)
    | .bad _ => x.tagGrans frameMark p.2 1) x
  ((x.put 128 16 (.ok b)).put 224 2 (.ok lane)).put 226 2 (.ok n)

/-- Whether a word has read a poisoned granule: its token now stands in a granule's bits or as a dropped write. -/
def readPoison (x : Thread) : Bool := x.drop.isSome || x.tags.any fun g => x.bits (8 * g.1) 8 != 0

/-- One body word in its frame: it runs alone on a machine that holds nothing else, and its late result is in at once. -/
def bodyWord (w : W64) (x : Thread) : Option Thread :=
  match (decode w).bind bodyInstr with
  | none => none
  | some (_, g) =>
    let s : State := { threads := [(0, x)], ports := [(0, { words := [w, 0], pack := [0] })], iss := some 0 }
    match g s with
    | .next s =>
      let y := ((s.core 0).reqs.foldl (fun s r => finishReq s 0 r.id) s).thr 0
      if readPoison y then none else some y
    | _ => none

def runBody : List W64 → Thread → Option Thread
  | [], x => some x
  | w :: ws, x => match bodyWord w x with | some y => runBody ws y | none => none

/-- A user method's lane: the new copy and the reply, none when it aborts the wave (R279, R282). -/
def userLane (body : List W64) (copy : List Val) (b lane n : Nat) : Option (List Val × Nat) :=
  match runBody body (frameThread copy b lane n) with
  | none => none
  | some x =>
    if x.pred 6 then none
    else some (copy.zipIdx.map fun p => if (tget p.2 x.tags).isSome then p.1 else .ok (x.bits (8 * p.2) 8), x.bits 144 16)

/-! ### Built-in methods (R277) -/

/-- The number in w bits at word i of a copy, none when poisoned. -/
def copyNum (copy : List Val) (i : Nat) (sz : Bool) : Option Nat :=
  let l := (copy.drop i).take (if sz then 2 else 1)
  match firstBad l with | some _ => none | none => some (wordsNum l)

def copyPut (copy : List Val) (i : Nat) (sz : Bool) (v : Nat) : List Val :=
  (numWords v (if sz then 2 else 1)).zipIdx.foldl (fun l p => l.set (i + p.2) p.1) copy

/-- The new value of w under a built-in (R277), APPEND and QPUSH apart. -/
def builtinNew (m w old b new : Nat) : Nat :=
  match m with
  | 0 => (old + b) % 2 ^ w
  | 1 => rne32Add (f32.decode old) (f32.decode b)
  | 2 => if toSigned w b < toSigned w old then b else old
  | 3 => min old b
  | 4 => if toSigned w old < toSigned w b then b else old
  | 5 => max old b
  | 6 => old &&& b
  | 7 => old ||| b
  | 8 => old ^^^ b
  | 9 => b
  | _ => if old = b then new else old

/-- A built-in's lane on a copy: the new copy and the reply, none when it reads poison (R277, R282). -/
def builtinLane (m : Nat) (sz : Bool) (copy : List Val) (i b new : Nat) : Option (List Val × Nat) :=
  let w := if sz then 64 else 32
  match copyNum copy i sz with
  | none => none
  | some old =>
    if m = 11 then
      match copyNum copy (i + w / 32) sz with
      | none => none
      | some v => if old + b < 2 ^ w ∧ old + b ≤ v then some (copyPut copy i sz (old + b), old) else some (copy, 2 ^ w - 1)
    else if m = 12 then
      let copy' := copyPut copy i sz b
      some (if old = 0 then copyPut copy' (i + 2) sz b else copy', old)
    else some (copyPut copy i sz (builtinNew m w old b new), old)

/-! ### Waves (R268 to R271) -/

/-- The object of a request, and the die of its home (R266, R267). -/
def CReq.obj (r : CReq) : Nat := r.pa / 64
def homeDie (obj : Nat) : Nat := homeOf (64 * obj) / 32

/-- A wave closes: user lanes look up their bodies, and those of empty slots leave it with poison CMB (R278). -/
def closeWave (s : State) (w : Wave) : State × Wave :=
  let ms := (s.die (homeDie w.obj)).methods
  let gone := w.reqs.filter fun r => r.user && (tget r.method ms).isNone
  let kept := (w.reqs.filter fun r => !(r.user && (tget r.method ms).isNone)).map fun (r : CReq) =>
    if r.user then { r with body := tgetD r.method [] ms } else r
  let out := gone.map fun (r : CReq) => { r with reply := some (.cause cCMB r.ea) }
  ({ s with comb := { s.comb with replies := s.comb.replies ++ out } },
    { w with closed := true, closedAt := s.now, reqs := kept })

/-- Open waves of an object whose window is over close (R268). -/
def shutWave (s : State) (obj : Nat) : State :=
  match s.comb.waves.find? fun w => w.obj == obj && !w.closed with
  | some w =>
    if s.now < w.opened + w.window then s
    else
      let q := closeWave s w
      { q.1 with comb := { q.1.comb with waves := q.1.comb.waves.map fun v => if v = w then q.2 else v } }
  | none => s

/-- A request joins its object's open wave, or opens one when its combiner has room (R268, R272). -/
def joinWave (s : State) (r : CReq) : Option State :=
  let s := shutWave s r.obj
  let r := { r with came := s.now }
  let ws := s.comb.waves
  let put := fun (w : Wave) (ws : List Wave) =>
    let n : Wave := { w with reqs := w.reqs ++ [r] }
    let q := if n.reqs.length ≥ 32 then closeWave s n else (s, n)
    some { q.1 with comb := { q.1.comb with waves := ws ++ [q.2] } }
  match ws.find? fun w => w.obj == r.obj && !w.closed with
  | some w => put w (ws.erase w)
  | none =>
    let objs := ((ws.filter fun w => homeOf (64 * w.obj) == homeOf (64 * r.obj)).map fun w => w.obj).dedup
    if objs.contains r.obj || decide (objs.length < 16) then
      put { obj := r.obj, opened := s.now, window := (s.die (homeDie r.obj)).window } ws
    else none

/-- Requests of one bundle: of one combine word of a pack to one object (R268). A peer's bundle shows as one lane's like requests to an object
whose tags stand close together (R283; DEDUCED, assumption 28). -/
def sameBundle (a b : CReq) : Bool :=
  a.dev == b.dev && a.obj == b.obj &&
    if a.dev = 0 then a.port == b.port && a.filled == b.filled && a.pc == b.pc
    else a.ident / 2 ^ 7 == b.ident / 2 ^ 7 && a.user == b.user && a.method == b.method && a.sz == b.sz
      && (decide ((a.tag + 2 ^ 16 - b.tag) % 2 ^ 16 < 32) || decide ((b.tag + 2 ^ 16 - a.tag) % 2 ^ 16 < 32))

/-- The sources of the combine word that a port stands at. -/
def combSrcsOf (w : W64) : List Src :=
  match decode w with
  | some (.cmb op _ f) => combSrcs (op == 10) f
  | some (.cmbu _ f) => combSrcs false f
  | _ => []

/-- Whether port k's combine word can send no more before it has an answer: its next thread reads what an earlier thread-operation of it will
get, or finds none of the core's 256 entries free (R121, R272). -/
def combStuck (s : State) (k : Nat) (p : Port) : Bool :=
  let acts := p.acts.getD []
  let s := { s with iss := some k }
  match acts.find? fun t => !p.done.contains t with
  | none => false
  | some t =>
    let mine := (s.comb.flight.filter fun r => r.dev == 0 && r.port == k && r.filled == p.filled && r.pc == p.addr).map fun r => r.cmd
    let free := acts.foldl (fun s u => s.modThr u fun x => { x with pend := x.pend.filter fun p => !mine.contains p.id }) s
    decide (combOut s (coreOf t) ≥ 256) || (busySrcs (combSrcsOf p.word) s acts t && !busySrcs (combSrcsOf p.word) free acts t)

/-- Whether the word that sent a request is still under way and can send more, so that its bundle is not whole. -/
def bundleOpen (s : State) (r : CReq) : Bool :=
  match tget r.port s.ports with
  | some p => r.dev == 0 && p.filled == r.filled && p.addr == r.pc && p.acts.isSome && !combStuck s r.port p
  | none => false

/-- Whether a request comes too late for this cycle: one that stands after it in wave order has arrived in it (R269). -/
def cameAfter (s : State) (r : CReq) : Bool :=
  s.comb.waves.any fun w => w.obj == r.obj && w.reqs.any fun q => q.came == s.now && decide (r.ident < q.ident)

/-- Whether a thread issued request q to its object before request r: a peer's by their tags (R268, R283). -/
def issuedFirst (q r : CReq) : Bool :=
  q.dev == r.dev && q.ident == r.ident && q.obj == r.obj &&
    if r.dev = 0 then decide (q.id < r.id)
    else decide (1 ≤ (r.tag + 2 ^ 16 - q.tag) % 2 ^ 16) && decide ((r.tag + 2 ^ 16 - q.tag) % 2 ^ 16 < 2 ^ 15)

/-- The requests of a list that arrive with their whole bundles and with every earlier request of their threads to their objects. -/
def wholeBundles (here : List CReq) : Nat → List CReq → List CReq
  | 0, l => l
  | n + 1, l =>
    let k := l.filter fun r => here.all fun q => !(sameBundle q r || issuedFirst q r) || l.contains q
    if k.length = l.length then l else wholeBundles here n k

/-- The requests that arrive in a cycle, in wave order (R269): whole bundles, and none before an earlier request of its thread to
its object. -/
def arrivals (s : State) (ids : List Nat) : List CReq :=
  let here := s.comb.flight.filter fun r => r.peer == 0
  let named := here.filter fun r => !bundleOpen s r && !cameAfter s r
    && (ids.contains r.id || here.any fun q => ids.contains q.id && sameBundle q r)
  (wholeBundles here named.length named).mergeSort fun a b => decide (a.ident < b.ident) || (a.ident == b.ident && decide (a.id ≤ b.id))

/-- Arrival in order; a request that finds no room waits at its home. -/
def arriveAll (s : State) (rs : List CReq) : State :=
  rs.foldl (fun s r => match joinWave s r with
    | some s' => { s' with comb := { s'.comb with flight := s'.comb.flight.filter fun q => q.id != r.id } }
    | none => s) s

/-- COMBINE_REQUEST_ARRIVAL (R268). -/
def execCombineRequestArrival (ids : List Nat) (s : State) : Out := .next (arriveAll s (arrivals s ids))

/-- WAVE_WINDOW_EXPIRY (R268). -/
def execWaveWindowExpiry (object : Nat) (s : State) : Out :=
  .next (shutWave s object)

/-- The lanes of a wave applied to a copy in order: none when one aborts (R270, R282). -/
def runLanes (n : Nat) : Nat → List CReq → List Val → Option (List Val × List Nat)
  | _, [], copy => some (copy, [])
  | i, r :: rs, copy =>
    let q := if r.user then userLane r.body copy r.b i n else builtinLane r.method r.sz copy (r.pa % 64 / 4) r.b r.new
    match q with
    | none => none
    | some (copy', v) => match runLanes n (i + 1) rs copy' with
      | some (z, vs) => some (z, v :: vs)
      | none => none

/-- One word of a commit, on behalf of every requesting core (R271): invalidations in each one's cluster, revokes once, and the
requesters' own clean copies dropped. -/
def commitWord (s : State) (cs : List Nat) (w : Nat) (v : Val) : State :=
  let more := (cs.drop 1).flatMap fun c => (homeMsgs s (some c) w).filter fun m => m.kind == .inval
  let s := homeWrite { s with msgs := s.msgs ++ more } cs.head? w v
  cs.foldl (fun s c => dropL1 s c w) s

/-- A closed wave applied (R270). -/
def applyWave (s : State) (w : Wave) : State :=
  let base := 16 * w.obj
  let copy := (List.range 16).map fun i => homeWord s (base + i)
  let s := { s with comb := { s.comb with waves := s.comb.waves.filter fun v => v != w } }
  match runLanes w.reqs.length 0 w.reqs copy with
  | none =>
    let out := w.reqs.map fun (r : CReq) => { r with reply := some (.cause cCMB r.ea) }
    { s with comb := { s.comb with replies := s.comb.replies ++ out } }
  | some (copy', vs) =>
    let cs := ((w.reqs.filter fun r => r.dev == 0).map fun r => r.core).dedup
    let s := if w.reqs.isEmpty then s else copy'.zipIdx.foldl (fun s p => commitWord s cs (base + p.2) p.1) s
    let out := (w.reqs.zip vs).map fun (p : CReq × Nat) => { p.1 with reply := some (.clean p.2) }
    { s with comb := { s.comb with replies := s.comb.replies ++ out } }

/-- WAVE_APPLY (R270): the object's first wave, in a cycle after the one it closed in (R272). -/
def execWaveApply (object : Nat) (s : State) : Out :=
  .next (match s.comb.waves.find? fun w => w.obj == object && w.closed with
    | some w => if w.closedAt < s.now then applyWave s w else s
    | none => s)

/-- Whether every write of a line at its home is complete: its invalidations and revokes (R225), and the host's back-invalidation (R380), are
acknowledged. -/
def lineAcked (s : State) (line : Nat) : Bool := (!s.msgs.any fun m => m.key / 16 == line) && !s.host.backInval.any fun b => b.1 == line

/-- An answer to a peer's write of a line leaves once the write is complete (R225). -/
def answerWrite (s : State) (line : Nat) (f : Flit) : State :=
  if lineAcked s line then { s with fab := { s.fab with waiting := s.fab.waiting ++ [f] } }
  else { s with fab := { s.fab with owed := s.fab.owed ++ [(line, f)] } }

/-- Answers whose writes are complete leave. -/
def payOwed (s : State) : State :=
  let out := s.fab.owed.filter fun p => lineAcked s p.1
  if out.isEmpty then s
  else { s with fab := { s.fab with waiting := s.fab.waiting ++ out.map Prod.snd, owed := s.fab.owed.filter fun p => !lineAcked s p.1 } }

/-- A reply written to its requester, or sent to its device (R276, R283). -/
def combAnswer (s : State) (r : CReq) : State :=
  match r.reply with
  | none => s
  | some g =>
    if r.dev = 0 then
      let g := match g with | .clean v => .clean (v % 2 ^ (4 * r.n)) | x => x
      completeCmd (writePiece s r.lead (r.tids.filter s.live) r.pc ⟨r.lo, r.n, g⟩) r.core r.cmd none
    else
      let v := match g with | .clean v => v | .tok k | .carried k _ => k.toNat | .cause c _ => (token 0xFFF c).toNat
      answerWrite s r.obj (mkFlit s 4 r.dev r.tag (match g with | .clean _ => 0 | _ => 1) true (BitVec.ofNat 512 v))

/-- Whether a reply may go out: to a thread of this device once the commit is complete (R225, R229). -/
def replyReady (s : State) (r : CReq) : Bool := r.dev != 0 || lineAcked s r.obj

/-- COMBINE_REPLY (R15). -/
def execCombineReply (id : Nat) (s : State) : Out :=
  .next (match s.comb.replies.find? fun r => r.id == id && replyReady s r with
    | some r => combAnswer { s with comb := { s.comb with replies := s.comb.replies.filter fun q => q.id != id } } r
    | none => s)

/-! ### Records read as LD reads them (R281, R357) -/

/-- One 64-bit word of a record. -/
inductive RecWord where
  | ok (v : Nat)
  | fault (cause : Nat)
  | carried (k : Tok)
  | ask (p : Page)
  deriving DecidableEq, Repr

/-- A word of a record at va as thread t's LD reads it (R281, R357): through the L1, its own held stores over it, or a peer's line. -/
def recWord (s : State) (t : Tid) (ls : List RLine) (va : W64) : State × RecWord :=
  if va.toNat % 8 ≠ 0 then (s, .fault cBND)
  else
    let seen := fun (ws : List Val) (p : Page) =>
      let vs := ws.zipIdx.map fun v => forwardAt s t false (va.toNat + 4 * v.2) (.glob p.peer (p.pa / 4 + v.2)) v.1
      match firstBad vs with | some k => RecWord.carried k | none => RecWord.ok (wordsNum vs)
    let r := xlat s t .load va
    match r.2 with
    | .fault f => (r.1, .fault f)
    | .carried k => (r.1, .carried k)
    | .ok p =>
      if p.peer = 0 then
        let a := l1Words r.1 t p [p.pa / 4, p.pa / 4 + 1] false false
        (a.1, seen a.2 p)
      else if p.mode == 1 && [p.pa / 4, p.pa / 4 + 1].all (fun w => (tget (l1Key p.peer w) (r.1.core (coreOf t)).l1).isSome) then
        let a := l1Words r.1 t p [p.pa / 4, p.pa / 4 + 1] false false
        (a.1, seen a.2 p)
      else if !haveLine ls p then (scoreMiss r.1 (coreOf t) (l1Key p.peer (p.pa / 4) / 16), .ask p)
      else
        let q : Page := { p with pa := p.pa + 4 }
        (r.1, match peerWord ls p, peerWord ls q with
          | .error f, _ => .fault f
          | _, .error f => .fault f
          | .ok a, .ok b => seen [a, b] p)

/-- What reading n words gives: all of them, or the first that failed with its address. -/
def recRead (s : State) (t : Tid) (ls : List RLine) (va : W64) : Nat → State × Except (RecWord × W64) (List Nat)
  | 0 => (s, .ok [])
  | n + 1 =>
    let r := recWord s t ls va
    match r.2 with
    | .ok v =>
      let q := recRead r.1 t ls (va + 8) n
      (q.1, match q.2 with | .ok l => .ok (v :: l) | .error e => .error e)
    | e => (r.1, .error (e, va))

/-! ### CMBDEF (R281) -/

def fabGet (s : State) (c id : Nat) : Option FabCmd := (s.core c).fabQ.find? fun k => k.id == id
def fabSet (s : State) (c : Nat) (k : FabCmd) : State :=
  s.modCore c fun x => { x with fabQ := x.fabQ.map fun q => if q.id = k.id then k else q }
def fabDrop (s : State) (c id : Nat) : State := s.modCore c fun x => { x with fabQ := x.fabQ.filter fun q => q.id != id }

/-- CMBDEF's status in D, and its end. -/
def cmbdefEnd (s : State) (c : Nat) (k : FabCmd) (status index : Nat) : State :=
  let lo := match k.kind with | .cmbdef _ _ lo => lo | _ => 0
  let s := putAll s k.pc lo 4 (.ok (status + 256 * index)) none (k.tids.filter s.live)
  completeCmd (fabDrop s c k.id) c k.id none

/-- The checks of a method record's header (R76, R281). -/
def methodHeadBad (h slot : Nat) : Bool :=
  h % 64 != slot || bitsOf h 13 8 == 0 || decide (bitsOf h 13 8 > 48) || bitsOf h 7 6 != 0 || bitsOf h 63 14 != 0

/-- A line of a peer asked for by a command. -/
def fabAsk (s : State) (c : Nat) (k : FabCmd) (va : W64) (p : Page) : State :=
  let r := askLine s c k.id k.lead k.pc k.asid va p true
  fabSet r.1 c { k with tags := k.tags ++ [r.2] }

/-- CMBDEF reads its record, checks it, and hands the method to every die (R281). -/
def cmbdefGo (s : State) (c : Nat) (k : FabCmd) (slot : Nat) (addr : W64) : State :=
  let r := recRead s k.lead k.lines addr 1
  match r.2 with
  | .error (.ask p, va) => fabAsk r.1 c k va p
  | .error _ => cmbdefEnd r.1 c k 1 0
  | .ok hs =>
    let h := hs.headD 0
    if methodHeadBad h slot then cmbdefEnd r.1 c k 2 0
    else
      let q := recRead r.1 k.lead k.lines (addr + 8) (bitsOf h 13 8)
      match q.2 with
      | .error (.ask p, va) => fabAsk q.1 c k va p
      | .error _ => cmbdefEnd q.1 c k 1 0
      | .ok ws =>
        let ws := ws.map fun w => BitVec.ofNat 64 w
        match ws.findIdx? fun w => !bodyWordOk w with
        | some i => cmbdefEnd q.1 c k 3 i
        | none =>
          let s := fabSet q.1 c { k with sent := true }
          (List.range 8).foldl (fun s d => s.modDie d fun x => { x with install := x.install ++ [⟨slot, ws, c, k.id⟩] }) s

/-- CMBDEF issued: its destination is pending until its status is written. -/
def cmbdefOp (n : BitVec 6) (f : RForm) : WordOp Val (Nat × Option Tok) where
  rdBusy s acts t := (rA f).busy s acts t || decide (combOut s (coreOf t) ≥ 256)
  wrBusy s t := countFull s .c [t] || (s.thr t).pending f.d.start.toNat f.d.slices
  rd s acts t := (rA f).read s acts t
  eff s t ts v :=
    let c := coreOf t
    let q := s.fresh c
    let s := issueCmd q.1 .c q.2 ts
    match v with
    | .bad k => (s, (q.2, some k))
    | .ok a =>
      let k : FabCmd := { id := q.2, tids := ts, lead := t, pc := s.cur.addr, kind := .cmbdef n.toNat (BitVec.ofNat 64 a) f.d.start.toNat, asid := (s.core c).ptbr.toNat % 4096
                          root := (s.core c).ptbr, user := false }
      (s.modCore c fun x => { x with fabQ := x.fabQ ++ [k] }, (q.2, none))
  put s ts i :=
    let c := coreOf (ts.headD 0)
    match i.2 with
    | some k => completeCmd (putAll s s.cur.addr f.d.start.toNat f.d.slices (.bad k) none ts) c i.1 none
    | none =>
      let s := ts.foldl (fun s t => markPend s t f.d.start.toNat f.d.slices i.1 false) s
      match fabGet s c i.1 with
      | some k => (match k.kind with | .cmbdef slot a _ => cmbdefGo s c k slot a | _ => s)
      | none => s

/-- CMBDEF (R281). -/
def execCmbdef (n : BitVec 6) (f : RForm) (s : State) : Out :=
  .next (runWord { cls := some 3, sup := true } f.x (rA f).endc (1 + crossCost [rA f]) (cmbdefOp n f) s)

/-- METHOD_INSTALL (R281): a die's oldest pending method, after the die's waves whose windows are over have closed; the last die's
installation completes the command. -/
def execMethodInstall (die : Nat) (s : State) : Out :=
  .next (match (s.die die).install with
    | [] => s
    | m :: l =>
      let s := (s.comb.waves.filter fun w => !w.closed && homeDie w.obj == die).foldl (fun s w => shutWave s w.obj) s
      let s := s.modDie die fun x => { x with install := l, methods := tset m.slot m.body x.methods }
      if s.dies.any fun d => d.2.install.any fun q => q.core == m.core && q.id == m.id then s
      else match fabGet s m.core m.id with
        | some k => cmbdefEnd s m.core k 0 0
        | none => s)

end Sys2Proof.Machine
end

