-- ==== Sys2Proof/Machine/Device.lean ====
section
/-! DEFINITION. The words that blocked threads watch (R155). -/

namespace Sys2Proof.Machine

/-! ### Watched words -/

/-- The threads that one WAITW blocked together on one word: a uniform pack decides and is released as one (R96, R155). -/
def watchMates (s : State) (w : Watch) : List Tid :=
  (s.threads.filter fun p => match p.2.hold.watch with
    | some v => v.lead == w.lead && v.pc == w.pc && v.va == w.va
    | none => false).map Prod.fst

/-- The threads of a watch become ready; their later accesses follow an acquire at SYS scope. -/
def watchFree (s : State) (w : Watch) : State :=
  let ts := watchMates s w
  let s := ts.foldl (fun s t => s.modThr t fun x => { x with hold := { x.hold with watch := none } }) s
  match ts with
  | t :: _ => acquire s (coreOf t) 5
  | [] => s

/-- A re-read that yields poison: its token is recorded against each thread (R155). -/
def watchPoison (s : State) (w : Watch) (r : State × Tok) : State := watchFree (recordAll r.1 (watchMates s w) r.2) w

/-- A change of a watch in each of its threads. -/
def watchSet (s : State) (w : Watch) (g : Watch → Watch) : State :=
  (watchMates s w).foldl (fun s t => s.modThr t fun x => { x with hold := { x.hold with watch := x.hold.watch.map g } }) s

/-- When a watch is next re-read in any case (R155). -/
def watchDue (s : State) (w : Watch) : Nat := s.now + if w.tabled then 65536 else 1024

/-- What a re-read found: the words from the watched address's word on. -/
def watchSeen (s : State) (w : Watch) (sh : Nat) (ws : List Val) : State :=
  match firstBad ws with
  | some k => watchPoison s w (raiseCarried s w.lead w.pc k w.va)
  | none =>
    if wordsNum ws / 2 ^ sh % 2 ^ w.bits ≠ w.want then watchFree s w
    else watchSet s w fun v => { v with due := watchDue s w, asked := false }

/-- The watch on the line that holds its word now, which has a place in its core's table of 64 where one is free (R155). -/
def watchLine (s : State) (c : Nat) (w : Watch) (line : Nat) : Watch :=
  let ls := watchedLines (watchSet s w fun v => { v with tabled := false }) c
  { w with line := line, peer := 0, tabled := ls.contains line || decide (ls.length < 64) }

/-- The re-read of a thread's watch (R155): at the word's home, or at its peer, as its address translates now. -/
def reread (s : State) (t : Tid) : State :=
  match (s.thr t).hold.watch with
  | none => s
  | some w =>
    let r := xlat s t .load w.va
    match r.2 with
    | .fault k => watchPoison s w (raiseAt r.1 w.lead w.pc k w.va)
    | .carried k => watchPoison s w (raiseCarried r.1 w.lead w.pc k w.va)
    | .ok p =>
      let c := coreOf t
      if p.peer = 0 then
        let v := watchLine r.1 c w (p.pa / 64)
        watchSeen (watchSet r.1 w fun _ => v) v (p.pa % 4 * 8) ((List.range (if w.bits = 64 then 2 else 1)).map fun i => strWord r.1 c (p.pa / 4 + i))
      else if w.asked then r.1
      else
        let s := watchSet r.1 w fun v => { v with asked := true, peer := p.peer, tabled := false }
        fabSend (migCount s ((s.core c).ptbr.toNat % 4096) w.va p) 1 p.peer
          { core := c, tid := t, pc := w.pc, ea := w.va, use := .watch t, lo := p.pa, hi := p.pa + w.bits / 8, bits := w.bits }
          (reqPayload (p.pa / 64 * 64) ((2 ^ (w.bits / 8) - 1) * 2 ^ (p.pa % 64)) 0 0 0 0 (identOf s.fab.dev.toNat t)) []

end Sys2Proof.Machine
end

