-- ==== Sys2Proof/Machine/Fabric.lean ====
section
/-! DEFINITION. The fabric engine: paths, fabric commands, the rose, and RSTAT (R339 to R360). -/

namespace Sys2Proof.Machine

/-! ### The rose in force (R343, R357) -/

/-- Cycles of a slot, and of its dark start. -/
def slotCycles : Nat := 2688
def darkCycles : Nat := 84

/-- Slots of the rose in force, 0 with none. -/
def roseSlots (s : State) : Nat := match s.fab.rose with | some r => r.slots.length | none => 0

/-- The current slot and cycle. -/
def curSlot (s : State) : Nat := if roseSlots s = 0 then 0 else (s.now - s.fab.roseAt) / slotCycles % roseSlots s
def curCycle (s : State) : Nat :=
  if roseSlots s = 0 then 0 else s.fab.roseCyc + (s.now - s.fab.roseAt) / (slotCycles * roseSlots s)

/-- A slot's peers by port. -/
def rowAt (s : State) (k : Nat) : List (Option Nat) := match s.fab.rose with
  | some r => r.slots.getD (k % max 1 r.slots.length) []
  | none => []

/-- A port carries traffic now: lit, up, locked, past the slot's dark start, and not drained unless `by_` (R343, R356, R358). -/
def portOpen (s : State) (p : Nat) (by_ : Bool) : Bool :=
  !s.fab.down.getLsbD p && !s.fab.relock.getLsbD p && (by_ || !s.fab.drained.getLsbD p)
    && !(s.fab.changed.getLsbD p && decide (s.now < s.fab.roseAt + slotCycles))
    && decide (darkCycles ≤ (s.now - s.fab.roseAt) % slotCycles)

/-- Ports of the current slot that match device d and carry traffic, but for a drain's mask. -/
def portsTo (s : State) (d : Nat) : List Nat :=
  (List.range 8).filter fun p => (rowAt s (curSlot s)).getD p none == some d && portOpen s p true

/-! ### Paths (R345) -/

/-- What a flit at the head of its queue does. -/
inductive Way where
  | direct
  | relay (i : Nat)
  | hold
  deriving DecidableEq, Repr

/-- Whether device d's next direct slot begins within WAITSLOTS slots of the current one. -/
def waitsFor (s : State) (d : Nat) : Bool :=
  (List.range s.fab.waitSlots).any fun i => (rowAt s (curSlot s + 1 + i)).zipIdx.any fun p =>
    p.1 == some d && !s.fab.down.getLsbD p.2

/-- Where an allowance is kept: by destination and slot (R346). -/
def allowKey (d slot : Nat) : Nat := 64 * d + slot

/-- What of an allowance for d may be spent in the current slot. -/
def allowed (s : State) (l : Tbl Nat) (d : Nat) : Nat := tgetD (allowKey d (curSlot s)) 0 l

/-- A slot begins: what earlier slots left unused for the devices that it matches is theirs in it (R346). -/
def keepAllow (slot : Nat) (ds : List Nat) (l : Tbl Nat) : Tbl Nat :=
  ds.foldl (fun l d =>
    let mine := l.filter fun e => e.1 / 64 == d
    if mine.isEmpty then l else tset (allowKey d slot) (mine.map Prod.snd).sum (l.filter fun e => e.1 / 64 != d)) l

/-- Whether a request of this device waits here for an earlier one of its core to the same bytes, which has not been answered (R348;
assumption 31). Combines wait only for those of their own thread to their object, so that others join one wave (R268, R283). -/
def waitsTurn (s : State) (f : Flit) : Bool :=
  f.src == s.fab.dev && (f.type == 0 || f.type == 1 || f.type == 3 || f.type == 5) && match s.fab.tags.find? fun r => r.tag == f.tag.toNat with
    | none => false
    | some r =>
      let comb := fun (u : TagUse) => match u with | .comb _ => true | _ => false
      (s.fab.tags.takeWhile fun q => q.tag != r.tag).any fun q => q.core == r.core && q.dst == r.dst &&
        if comb q.use && comb r.use then q.tid == r.tid && q.lo / 64 == r.lo / 64 else decide (q.lo < r.hi) && decide (r.lo < q.hi)

/-- The port by which a flit would be relayed and the device there: the lowest that qualifies (R345). -/
def relayPort (s : State) (d : Nat) : Option (Nat × Nat) :=
  (List.range 8).findSome? fun p => match (rowAt s (curSlot s)).getD p none with
    | some i => if i ≠ d ∧ portOpen s p true ∧ 0 < allowed s s.fab.relay i then some (p, i) else none
    | none => none

/-- The way of a flit. One that another device originated, or that has been relayed, is never relayed again. One that would leave by a
port that a drain masks waits for it (R356), unless it is the drain's own (`by_`). -/
def wayFor (s : State) (f : Flit) (by_ : Bool) : Way :=
  let d := f.dst.toNat
  let free := fun (p : Nat) => by_ || !s.fab.drained.getLsbD p
  let ps := portsTo s d
  if waitsTurn s f then .hold
  else if !ps.isEmpty && (f.type == 8 || decide (0 < allowed s s.fab.allow d)) then (if ps.any free then .direct else .hold)
  else if f.relayed || f.src != s.fab.dev || waitsFor s d then .hold
  else match relayPort s d with
    | some (p, i) => if free p then .relay i else .hold
    | none => .hold

/-- A flit leaves: its allowance is spent (R346). -/
def spend (f : Flit) (w : Way) (slot : Nat) (b : Fab) : Fab :=
  let take := fun (d : Nat) (l : Tbl Nat) => tset (allowKey d slot) (tgetD (allowKey d slot) 0 l - 1) l
  match w with
  | .direct => { b with sent := b.sent ++ [f], allow := if f.type = 8 then b.allow else take f.dst.toNat b.allow }
  | .relay i => { b with sent := b.sent ++ [sealFlit { f with relayed := true }], relay := take i b.relay }
  | .hold => b

/-- Flits in order, each leaving or staying: what stays. -/
def pushAll (by_ : Bool) : List Flit → State → State × List Flit
  | [], s => (s, [])
  | f :: fs, s =>
    match wayFor s f by_ with
    | .hold => let r := pushAll by_ fs s; (r.1, f :: r.2)
    | w => pushAll by_ fs { s with fab := spend f w (curSlot s) s.fab }

/-- A flit of this device's own enters its queue. -/
def emit (s : State) (f : Flit) : State := { s with fab := { s.fab with waiting := s.fab.waiting ++ [f] } }

/-- A flit that answers f (R340): type, state, last, payload. -/
def answer (s : State) (f : Flit) (type state : Nat) (last : Bool) (payload : BitVec 512) : State :=
  emit s (mkFlit s type f.src.toNat f.tag.toNat state last payload)

/-- Ports not locked by the end of slot 0 of their first cycle are down (R357). -/
def lockCheck (s : State) : State :=
  if s.fab.relock ≠ 0 ∧ s.fab.roseAt + slotCycles ≤ s.now then
    { s with fab := { s.fab with down := s.fab.down ||| s.fab.relock, relock := 0 } }
  else s

/-- Masked ports that are not down, each with the devices that valid entries match on it. -/
def matchedPorts (s : State) (mask : BitVec 8) : List (Nat × Nat) :=
  match s.fab.rose with
  | none => []
  | some r => (r.slots.flatMap fun row => row.zipIdx.filterMap fun p =>
      if mask.getLsbD p.2 && !s.fab.down.getLsbD p.2 then p.1.map fun d => (p.2, d) else none).dedup

/-- Devices that valid entries match on the masked ports that are not down. -/
def matched (s : State) (mask : BitVec 8) : List Nat := ((matchedPorts s mask).map Prod.snd).dedup

/-- Flits in the staging buffer and its overflow (R347): those of other devices, also where a drain has queued them. -/
def stagedFlits (b : Fab) : Nat := b.staged.length + ((b.drains.flatMap fun r => r.queued).filter fun f => f.src != b.dev).length

/-- Drain markers for ports and devices, each with a tag of its own (R356). -/
def makeMarkers (s : State) : List (Nat × Nat) → State × List (Nat × Flit) × List (Nat × Nat)
  | [] => (s, [], [])
  | p :: ps =>
    let t := nextTag s
    let r := makeMarkers { s with fab := { s.fab with nextTag := t + 1 } } ps
    (r.1, (p.1, mkFlit s 9 p.2 t 2 true 0) :: r.2.1, (t, p.2) :: r.2.2)

/-- Markers leave on their own ports, in slots that match their devices. -/
def pushMarks : List (Nat × Flit) → State → State × List (Nat × Flit)
  | [], s => (s, [])
  | m :: ms, s =>
    if (rowAt s (curSlot s)).getD m.1 none = some m.2.dst.toNat ∧ portOpen s m.1 true = true ∧ 0 < allowed s s.fab.allow m.2.dst.toNat then
      pushMarks ms { s with fab := spend m.2 .direct (curSlot s) s.fab }
    else let r := pushMarks ms s; (r.1, m :: r.2)

/-- A drain's queued flits leave; then its markers. -/
def pushDrain (s : State) (d : DrainRec) : State × DrainRec :=
  let r := pushAll true d.queued s
  let d := { d with queued := r.2 }
  let m := if d.queued.isEmpty && !d.marked then
      let m := makeMarkers r.1 (matchedPorts r.1 d.mask)
      (m.1, ({ d with marked := true, marks := m.2.1, tags := m.2.2 } : DrainRec))
    else (r.1, d)
  let q := pushMarks m.2.marks m.1
  (q.1, { m.2 with marks := q.2 })

def pushDrains : List DrainRec → State → State × List DrainRec
  | [], s => (s, [])
  | d :: ds, s =>
    let a := pushDrain s d
    let b := pushDrains ds a.1
    (b.1, a.2 :: b.2)

/-- The end of command id of core c: what it still waits for is forgotten. -/
def fabOver (s : State) (c id : Nat) (t : Option Tok) : State :=
  let tags := s.fab.tags.filter fun r => !(r.core == c && r.use == .cmd id)
  completeCmd (fabDrop { s with fab := { s.fab with tags := tags } } c id) c id t

/-- Drains whose markers are all acknowledged are over; a DRAIN completes with them (R356). -/
def endDrains (s : State) : State :=
  let done := s.fab.drains.filter fun d => d.marked && d.tags.isEmpty
  let s := { s with fab := { s.fab with drains := s.fab.drains.filter fun d => !(d.marked && d.tags.isEmpty) } }
  done.foldl (fun s d => match d.cmd with
    | some (c, id) => fabOver s c id none
    | none => s) s

/-- Whether this device has flits of its own queued towards device d on port p. -/
def queuedTo (s : State) (p d : Nat) : Bool :=
  (matchedPorts s (BitVec.ofNat 8 (2 ^ p))).any (fun q => q.2 == d) && (s.fab.waiting ++ s.fab.drains.flatMap fun r => r.queued).any fun f =>
    f.dst.toNat == d && f.src == s.fab.dev && f.type != 10

/-- Markers of other devices acknowledged once nothing is queued towards their senders on their ports (R356). -/
def ackMarkers (s : State) : State :=
  let wait := fun (m : Nat × Flit) => queuedTo s m.1 m.2.src.toNat
  let ready := s.fab.markers.filter fun m => !wait m
  let s := { s with fab := { s.fab with markers := s.fab.markers.filter wait } }
  ready.foldl (fun s m => answer s m.2 10 2 true 0) s

/-- Everything that waits is considered: drains, this device's own flits, staged flits, markers (R345, R347, R356). -/
def fabPush (s : State) : State :=
  if s.host.fault then s
  else
    let s := lockCheck s
    let d := pushDrains s.fab.drains s
    let s := endDrains { d.1 with fab := { d.1.fab with drains := d.2 } }
    let w := pushAll false s.fab.waiting s
    let s := { w.1 with fab := { w.1.fab with waiting := w.2 } }
    let g := pushAll false s.fab.staged s
    ackMarkers { g.1 with fab := { g.1.fab with staged := g.2 } }

/-! ### Fabric commands as engines of their core -/

/-- A fabric command's memory side, as a stream command reads and writes (R354). -/
def FabCmd.str (k : FabCmd) : StrCmd :=
  { id := k.id, tids := k.tids, lead := k.lead, pc := k.pc, asid := k.asid, root := k.root, user := k.user, frames := k.frames
    tags := k.tags, lines := k.lines, pages := k.pages, toks := k.toks, fault := k.fault, faultAt := k.faultAt, sentAt := k.sentAt }
def FabCmd.back (k : FabCmd) (q : StrCmd) : FabCmd :=
  { k with tags := q.tags, lines := q.lines, pages := q.pages, toks := q.toks, fault := q.fault, faultAt := q.faultAt, sentAt := q.sentAt }

/-- A fabric command ends; a released FBAR is followed by an acquire at SYS, before any access that waits for it (R355). -/
def fabEnd (s : State) (c : Nat) (k : FabCmd) (t : Option Tok) : State :=
  let s := fabOver s c k.id t
  match k.kind with
  | .fbar .. => if t.isNone then acquire s c 5 else s
  | _ => s

/-- The release of its barrier has come to an FBAR (R355): it ends once its acquire has nothing more to wait for (R230), and its timeout is
over. -/
def fabFree (s : State) (c : Nat) (k : FabCmd) : State :=
  if acqWait s c 5 then
    let tags := s.fab.tags.filter fun r => !(r.core == c && r.use == .cmd k.id)
    fabSet { s with fab := { s.fab with tags := tags } } c { k with freed := true, tags := [] }
  else fabEnd s c k none

def fabFail (s : State) (c : Nat) (k : FabCmd) (cause : Nat) (addr : W64 := 0) : State :=
  let r := raiseAt s k.lead k.pc cause addr
  fabEnd r.1 c k (some r.2)

/-- The end of a command all of whose tags have been answered, and whose writes are complete: the token of its first failing word, if
any (R225, R351, R354). -/
def fabClose (s : State) (c : Nat) (k : FabCmd) : State :=
  if acked s c then fabEnd s c k (k.str.firstFail.or (k.lines.findSome? fun l => l.tok)) else fabSet s c k

/-- The checks of FPUT and FGET (R354): the tile's own first. -/
def moveFail (s : State) (c : Nat) (k : FabCmd) (va : W64) (sa n : Nat) : Option Nat :=
  match tileFail s c (saH sa) k.str.asker true 0 0 with
  | some f => some f
  | none => if va.toNat % 4 ≠ 0 ∨ saO sa % 4 ≠ 0 ∨ n < 4 ∨ n > 65536 ∨ n % 4 ≠ 0 ∨ saO sa + n > shBytes (tileShape s c (saH sa))
      then some cBND else none

/-- The words of a memory range. -/
def rangeVas (va : W64) (n : Nat) : List W64 := (List.range (n / 4)).map fun i => va + BitVec.ofNat 64 (4 * i)

/-- FPUT's words stored, or gathered by peer line (R354), from word n on. -/
def putFrom (c : Nat) : Nat → List (W64 × Val) → State → StrCmd → List PeerStore → State × StrCmd × List PeerStore
  | _, [], s, k, ps => (s, k, ps)
  | n, (va, v) :: l, s, k, ps =>
    let r := storeBits s c k ps n va 0 32 v
    putFrom c (n + 1) l r.1 (r.2.1.failing n r.2.2.2) r.2.2.1

def fputGo (s : State) (c : Nat) (k : FabCmd) (va : W64) (sa n : Nat) : State :=
  match moveFail s c k va sa n with
  | some f => fabFail s c k f
  | none =>
    let r := putFrom c 0 ((rangeVas va n).zip (tileWords s c (saH sa) (saO sa / 4) (n / 4))) s k.str []
    let q := sendPeers r.1 c r.2.1 r.2.2
    let k := { k.back q.2 with sent := true }
    if k.tags.isEmpty then fabClose q.1 c k else fabSet q.1 c k

/-- FGET's memory words, in order (R299). -/
def getWords (c : Nat) : List W64 → State → StrCmd → State × StrCmd × List Val
  | [], s, k => (s, k, [])
  | va :: l, s, k =>
    let r := memWord s c k va
    let q := getWords c l r.1 r.2.1
    (q.1, q.2.1, r.2.2 :: q.2.2)

def fgetGo (s : State) (c : Nat) (k : FabCmd) (va : W64) (sa n : Nat) : State :=
  match moveFail s c k va sa n with
  | some f => fabFail s c k f
  | none =>
    let ls := peerLines s c k.str .load (rangeVas va n)
    if !ls.isEmpty then
      let a := askLines s c k.str ls
      fabSet a.1 c { k.back a.2 with sent := true }
    else
      let r := getWords c (rangeVas va n) s k.str
      fabEnd (setTileWords r.1 c (saH sa) (saO sa / 4) r.2.2) c k (firstBad r.2.2)

/-- A page of device d is this device's own (R342). -/
def isSelf (s : State) (d : Nat) : Bool := d == 0 || d == s.fab.dev.toNat

/-- Whether an FPUT of a thread of command k to device d has not performed (R354). -/
def putsOut (s : State) (c : Nat) (k : FabCmd) (d : Nat) : Bool :=
  (s.core c).fabQ.any fun q => q.id != k.id && q.tids.any k.tids.contains
    && (match q.kind with | .fput .. => true | _ => false)
    && s.fab.tags.any fun r => r.use == .cmd q.id && r.core == c && r.dst == d

/-- A signal word at this device written, or added to (R354); a poisoned word keeps its token under .add (R200). -/
def signalHome (s : State) (by_ : Option Nat) (pa : Nat) (add sz : Bool) (v : Nat) : State :=
  let n := if sz then 2 else 1
  if add then
    match homeRead s (pa / 4) n with
    | some o => homeNum s by_ pa ((o + v) % 2 ^ (32 * n)) n
    | none => s
  else homeNum s by_ pa v n

def fsigGo (s : State) (c : Nat) (k : FabCmd) (add sz : Bool) (va : W64) (v : Nat) : State :=
  if va.toNat % (if sz then 8 else 4) ≠ 0 then fabFail s c k cBND va
  else
    let r := strXlat s c k.str .store va
    match r.2 with
    | .fault f => fabFail r.1 c k f va
    | .carried t => let q := raiseCarried r.1 k.lead k.pc t va; fabEnd q.1 c k (some q.2)
    | .ok p =>
      let s := setDC r.1 p
      if p.peer = 0 then
        let s := signalHome s (some c) p.pa add sz v
        fabClose (dropL1 (dropL1 s c (p.pa / 4)) c (p.pa / 4 + if sz then 1 else 0)) c { k with sent := true }
      else if putsOut s c k p.peer then s
      else
        let tag := nextTag s
        let s := migCount s k.asid va p
        let s := dropPeer s c p.peer ((List.range (if sz then 2 else 1)).map fun i => p.pa / 4 + i)
        let s := fabSend s 5 p.peer
          { core := c, tid := k.lead, pc := k.pc, ea := va, use := .cmd k.id, write := true, lo := p.pa, hi := p.pa + if sz then 8 else 4 }
          (reqPayload p.pa v 0 0 ((if sz then 256 else 0) + if add then 512 else 0) 0 (identOf s.fab.dev.toNat k.lead)) []
        fabSet s c { k with sent := true, tags := [tag] }

/-- FLUSHR (R353): the tags of its core's posted stores to the peer. -/
def flushrGo (s : State) (c : Nat) (k : FabCmd) (d : Nat) : State :=
  if isSelf s d then fabEnd s c k none
  else if !reachable s d then fabFail s c k cPEER
  else
    let ts := ((postedOut s c).filter fun r => r.dst == d).map fun r => r.tag
    if ts.isEmpty then fabEnd s c k none else fabSet s c { k with sent := true, tags := ts }

/-! ### Barriers (R355, R395) -/

/-- Whether a due checkpoint holds back the release of a step barrier (R355, R395). -/
def ckptHolds (s : State) (b : Barrier) : Bool :=
  b.step && s.host.ckptDue && s.host.ckptEn && s.host.ckptBase.toNat % 256 != 0

/-- One arrival's answer: the release, or INV poison for a different n. A release tells a device in its payload whether it is the one that
counts the step barrier there (R395; assumption 29). -/
def barrierAnswer (s : State) (w : Nat × Nat × Nat) (ok : Bool) (counts : Bool := false) : State :=
  if w.1 = 0 then
    match fabGet s w.2.2 w.2.1 with
    | some k => if ok then fabFree s w.2.2 k else fabFail s w.2.2 k cINV
    | none => s
  else emit s (mkFlit s 12 w.1 w.2.1 (if ok then 2 else 1) true
    (if ok then (if counts then 1 else 0) else BitVec.ofNat 512 (token 0xFFF cINV).toNat))

/-- A step barrier that completes counts once towards the checkpoint period (R395). -/
def countStep (s : State) (step : Bool) : State :=
  if !step then s
  else
    let h := { s.host with ckptSteps := s.host.ckptSteps + 1 }
    let due := h.ckptEn && h.stepMode && h.ckptBase.toNat % 256 != 0 && decide (max 1 h.period ≤ h.ckptSteps)
    { s with host := { h with ckptDue := h.ckptDue || due } }

/-- Every arrival of a barrier released; the first of each device counts a step barrier there. -/
def barrierFree (s : State) (r : Barrier) : State :=
  (r.arrivals.zipIdx.foldl (fun s p =>
    barrierAnswer s p.1 true (r.step && !((r.arrivals.take p.2).any fun w => w.1 == p.1.1))) s)

/-- The request for a checkpoint that a withheld barrier's coordinator makes of every device that arrived: the sequence number is one above
the highest CKPTSEQ among them (R395; what the others tell is a free value, assumption 45). -/
def askCkpt (s : State) (r : Barrier) : State × Barrier :=
  let ds := ((r.arrivals.map fun w => w.1).filter fun d => d != 0).dedup
  let own := if r.arrivals.any fun w => w.1 == 0 then s.host.ckptSeq.toNat else 0
  let seq := 1 + (ds.map fun d => Config.peerSeq d s.freeCtr).foldl max own
  ({ s with freeCtr := s.freeCtr + 1 }, { r with withheld := true, seq := seq, asked := ds })

/-- A full barrier: released and closed, or withheld (R355). -/
def barrierFull (s : State) (b : Nat) (r : Barrier) : State :=
  if ckptHolds s r then
    let q := askCkpt s r
    { q.1 with fab := { q.1.fab with barriers := tset b q.2 q.1.fab.barriers } }
  else barrierFree (countStep { s with fab := { s.fab with barriers := tdel b s.fab.barriers } } r.step) r

/-- One arrival at this coordinator; with 256 other barriers open, or its own withheld, it waits (R355). -/
def barrierArrive (s : State) (a : Arrival) : State :=
  let wait := { s with fab := { s.fab with barrierQ := s.fab.barrierQ ++ [a] } }
  match tget a.b s.fab.barriers with
  | some r =>
    if r.withheld then wait
    else if r.n ≠ a.n then barrierAnswer s a.who false
    else
      let r := { r with arrivals := r.arrivals ++ [a.who], step := r.step || a.step }
      if r.arrivals.length ≥ r.n then barrierFull s a.b r
      else { s with fab := { s.fab with barriers := tset a.b r s.fab.barriers } }
  | none =>
    if s.fab.barriers.length ≥ 256 then wait
    else
      let r : Barrier := { n := a.n, step := a.step, arrivals := [a.who] }
      if a.n ≤ 1 then barrierFull s a.b r else { s with fab := { s.fab with barriers := tset a.b r s.fab.barriers } }

/-- Arrivals that waited are tried again, oldest first. -/
def retryOnce (s : State) : State := s.fab.barrierQ.foldl barrierArrive { s with fab := { s.fab with barrierQ := [] } }

/-- The same until none of them finds a place: each round but the last takes one in. -/
def retryAll : Nat → State → State
  | 0, s => s
  | n + 1, s => let r := retryOnce s; if r.fab.barrierQ.length < s.fab.barrierQ.length then retryAll n r else r
def barrierRetry (s : State) : State := retryAll s.fab.barrierQ.length s

/-- An arrival, and those that waited for the entry of a barrier that it closes (R355). -/
def barrierIn (s : State) (a : Arrival) : State := barrierRetry (barrierArrive s a)

/-- A command of this device that waits for something other than a reply has a timeout from its acceptance all the same (R351). -/
def fabTimed (s : State) (c : Nat) (k : FabCmd) : State :=
  let t := nextTag s
  let r : TagRec := { tag := t, core := c, tid := k.lead, dst := s.fab.dev.toNat, pc := k.pc, use := .cmd k.id, due := s.now + s.fab.timeout * 1050 }
  fabSet { s with fab := { s.fab with nextTag := t + 1, tags := s.fab.tags ++ [r] } } c { k with sent := true, tags := [t] }

/-- FBAR (R355): the release of its thread's accesses first, then the arrival. -/
def fbarGo (s : State) (c : Nat) (k : FabCmd) (b : Nat) (step : Bool) (a : Nat) : State :=
  let n := bitsOf a 11 0
  let d := bitsOf a 27 16
  if n = 0 ∨ bitsOf a 15 12 ≠ 0 ∨ bitsOf a 31 28 ≠ 0 then fabFail s c k cBND
  else if !isSelf s d && !reachable s d then fabFail s c k cPEER
  else
    let s := relStart s c 5
    if k.tids.any fun t => !relDone s t 5 then s
    else
      let s := relEnd s c 5
      if isSelf s d then barrierIn (fabTimed s c k) { b := b, n := n, step := step, who := (0, k.id, c) }
      else
        let tag := nextTag s
        let s := fabSend s 11 d { core := c, tid := k.lead, pc := k.pc, use := .cmd k.id }
          (reqPayload 0 (b + if step then 2 ^ 16 else 0) 0 0 0 a (identOf s.fab.dev.toNat k.lead)) []
        fabSet s c { k with sent := true, tags := [tag] }

/-! ### DRAIN and RLOAD (R356 to R358) -/

/-- A drain of masked ports begins: traffic already queued for them is told apart from what comes later. -/
def startDrain (s : State) (cmd : Option (Nat × Nat)) (mask : BitVec 8) : State :=
  let ds := matched s mask
  let mine := fun (f : Flit) => ds.contains f.dst.toNat
  { s with fab := { s.fab with
      drained := s.fab.drained ||| mask
      drains := s.fab.drains ++ [{ cmd := cmd, mask := mask, queued := (s.fab.waiting ++ s.fab.staged).filter mine }]
      waiting := s.fab.waiting.filter fun f => !mine f
      staged := s.fab.staged.filter fun f => !mine f } }

def drainGo (s : State) (c : Nat) (k : FabCmd) (mask : BitVec 8) : State :=
  if mask = 0 then fabEnd s c k none else startDrain (fabTimed s c k) (some (c, k.id)) mask

/-- The slots of a rose record's words (R77, R357), none when it is invalid. -/
def roseRow (dev a b : Nat) : Option (List (Option Nat)) :=
  let e := (List.range 4).map (fun i => a / 2 ^ (16 * i) % 2 ^ 16) ++ (List.range 4).map fun i => b / 2 ^ (16 * i) % 2 ^ 16
  let peers := e.filterMap fun v => if v ≥ 2 ^ 15 then some (v % 2 ^ 12) else none
  if (e.any fun v => if v ≥ 2 ^ 15 then v / 2 ^ 12 % 8 != 0 else v != 0) || peers.contains dev || !peers.Nodup then none
  else some (e.map fun v => if v ≥ 2 ^ 15 then some (v % 2 ^ 12) else none)

def roseRows (dev : Nat) : List Nat → Option (List (List (Option Nat)))
  | [] => some []
  | [_] => none
  | a :: b :: l => match roseRow dev a b, roseRows dev l with
    | some r, some rs => some (r :: rs)
    | _, _ => none

/-- Ports whose entries differ between the rose in force and another (R358). -/
def changedPorts (s : State) (r : Rose) : BitVec 8 :=
  let old := match s.fab.rose with | some o => o.slots | none => []
  let col := fun (l : List (List (Option Nat))) (p : Nat) => l.map fun row => row.getD p none
  BitVec.ofNat 8 (((List.range 8).map fun p =>
    let same := col old p == col r.slots p || (old.isEmpty && (col r.slots p).all Option.isNone)
    if same then 0 else 2 ^ p).sum)

/-- The cycle in progress, counted from the epoch in the pending rose's slots where no rose is in force (R357). -/
def cycleNow (s : State) (n : Nat) : Nat :=
  if roseSlots s ≠ 0 then curCycle s
  else match s.fab.epoch with | some e => (s.now - e) / (slotCycles * n) | none => 0

/-- RLOAD (R357): its record read and checked; a valid one becomes the pending rose. -/
def rloadGo (s : State) (c : Nat) (k : FabCmd) (addr : W64) (cycle : Nat) : State :=
  let stop := fun (s : State) (e : RecWord × W64) => match e.1 with
    | .ask p => fabAsk s c k e.2 p
    | .fault f => fabFail s c k f e.2
    | .carried t => let q := raiseCarried s k.lead k.pc t e.2; fabEnd q.1 c k (some q.2)
    | .ok _ => s
  let r := recRead s k.lead k.lines addr 1
  match r.2 with
  | .error e => stop r.1 e
  | .ok hs =>
    let h := hs.headD 0
    if h = 0 ∨ h > 64 then fabFail r.1 c k cBND addr
    else
      let q := recRead r.1 k.lead k.lines (addr + 8) (2 * h)
      match q.2 with
      | .error e => stop q.1 e
      | .ok ws => match roseRows q.1.fab.dev.toNat ws with
        | none => fabFail q.1 c k cBND addr
        | some rows =>
          let s := q.1
          let t := max cycle (cycleNow s h + 1)
          let ports := changedPorts s ⟨rows⟩ &&& ~~~s.fab.drained
          let s := { s with fab := { s.fab with next := some (⟨rows⟩, t, c, k.id) } }
          let s := fabSet s c { k with sent := true }
          if ports = 0 || roseSlots s = 0 then s else startDrain s none ports

/-- When the pending rose takes effect, once that is known (R357). -/
def roseDue (s : State) : Option Nat :=
  match s.fab.next with
  | none => none
  | some (r, t, _, _) =>
    if roseSlots s ≠ 0 then some (s.fab.roseAt + (t - s.fab.roseCyc) * (slotCycles * roseSlots s))
    else s.fab.epoch.map fun e => e + t * (slotCycles * r.slots.length)

/-! ### A command's next step -/

/-- A fabric command that has not sent its requests tries to; one whose answers are in ends. -/
def fabGo (s : State) (c : Nat) (k : FabCmd) : State :=
  match k.kind with
  | .flushr d => if !k.sent then flushrGo s c k d else if k.tags.isEmpty then fabClose s c k else s
  | .fput va sa n => if !k.sent then fputGo s c k va sa.toNat n else if k.tags.isEmpty then fabClose s c k else s
  | .fget va sa n => if k.tags.isEmpty then fgetGo s c k va sa.toNat n else s
  | .fsig a z va v => if !k.sent then fsigGo s c k a z va v else if k.tags.isEmpty then fabClose s c k else s
  | .fbar b st a => if k.freed then fabFree s c k else if !k.sent then fbarGo s c k b st a else s
  | .drain m => if !k.sent then drainGo s c k m else s
  | .rload a t => if !k.sent && k.tags.isEmpty then rloadGo s c k a t else s
  | .cmbdef n a _ => if !k.sent && k.tags.isEmpty then cmbdefGo s c k n a else s

/-- Every command of every core that waits for no tag tried once, oldest first. -/
def fabPoll (s : State) : State :=
  s.cores.foldl (fun s p => p.2.fabQ.foldl (fun s k => match fabGet s p.1 k.id with
    | some k => if k.tags.isEmpty then fabGo s p.1 k else s
    | none => s) s) s

/-! ### Issue (R352) -/

/-- A fabric command issued; its engine takes it up at once. -/
def fabOp (fut : Option Opd) (rs : List Src) (g : List Nat → FabKind) : WordOp (List Val) Issued where
  room s acts := fut.isNone || roomFor .futs s acts
  rdBusy s acts t := busySrcs rs s acts t || (fut.isSome && futFull s (coreOf t))
  wrBusy s t := countFull s .f [t] || (match fut with
    | some d => (s.thr t).pending d.start.toNat d.slices
    | none => false)
  rd s acts t := readSrcs acts t rs s
  eff s t ts vs :=
    let c := coreOf t
    let n := s.fresh c
    let s := issueCmd n.1 .f n.2 ts
    let h := if fut.isSome then allocFut s c .f n.2 else (s, 0)
    match lowTok vs with
    | some k => (h.1, ⟨n.2, h.2, some (some k)⟩)
    | none =>
      let p := (s.core c).ptbr
      let k : FabCmd := { id := n.2, tids := ts, lead := t, pc := s.cur.addr, asid := p.toNat % 4096, root := p, user := !(s.thr t).priv
                          frames := (askerOf s t).frames, kind := g (vs.map Val.num) }
      (h.1.modCore c fun x => { x with fabQ := x.fabQ ++ [k] }, ⟨n.2, h.2, none⟩)
  put s ts i :=
    let c := coreOf (ts.headD 0)
    let s := putHandle s ts fut i
    match i.now_ with
    | some k => completeCmd s c i.id k
    | none => match fabGet s c i.id with
      | some k => fabGo s c k
      | none => s

def fabWord (sup : Bool) (bad : State → Bool) (x : Pfx) (fut : Option Opd) (rs : List Src) (g : List Nat → FabKind) (s : State) : State :=
  runWord { cls := some 4, sup := sup, bad := fun s acts _ => !acts.isEmpty && bad s } x (rs.any Src.endc) (1 + crossCost rs)
    (fabOp fut rs g) s

def futOfF (f : FForm) : Option Opd := if f.fut then some f.d else none

/-- FLUSHR, FLUSHR.a (R353). -/
def execFlushr (f : FForm) (s : State) : Out :=
  .next (fabWord false (fun _ => false) f.x (futOfF f) [] (fun _ => .flushr f.imm.toNat) s)
def execFlushrA (f : FForm) (s : State) : Out :=
  .next (fabWord false (fun _ => false) f.x (futOfF f) [fA f] (fun l => .flushr (arg l 0 % 2 ^ 12)) s)

/-- FPUT, FGET, FSIG (R354). -/
def execFput (f : RForm) (s : State) : Out :=
  .next (fabWord false (fun _ => false) f.x (futOf f) [rA f, rB f]
    (fun l => .fput (BitVec.ofNat 64 (arg l 0)) (BitVec.ofNat 32 (arg l 1)) (arg l 1 / 2 ^ 32)) s)
def execFget (f : RForm) (s : State) : Out :=
  .next (fabWord false (fun _ => false) f.x (futOf f) [rA f, rB f]
    (fun l => .fget (BitVec.ofNat 64 (arg l 0)) (BitVec.ofNat 32 (arg l 1)) (arg l 1 / 2 ^ 32)) s)
def execFsig (add sz : Bool) (f : RForm) (s : State) : Out :=
  .next (fabWord false (fun _ => false) f.x (futOf f) [rA f, rB f]
    (fun l => .fsig add sz (BitVec.ofNat 64 (arg l 0)) (arg l 1)) s)

/-- FBAR, FBAR.STEP (R355). -/
def execFbar (f : FForm) (s : State) : Out :=
  .next (fabWord false (fun _ => false) f.x (futOfF f) [fA f] (fun l => .fbar f.imm.toNat false (arg l 0)) s)
def execFbarStep (f : FForm) (s : State) : Out :=
  .next (fabWord false (fun _ => false) f.x (futOfF f) [fA f] (fun l => .fbar f.imm.toNat true (arg l 0)) s)

/-- DRAIN (R356). -/
def execDrain (f : FForm) (s : State) : Out :=
  .next (fabWord true (fun _ => false) f.x (futOfF f) [] (fun _ => .drain (f.imm.setWidth 8)) s)

/-- Whether a rose is pending, or an RLOAD is still reading one (R357). -/
def rosePending (s : State) : Bool :=
  s.fab.next.isSome || s.cores.any fun p => p.2.fabQ.any fun k => match k.kind with | .rload .. => true | _ => false

/-- RLOAD (R357). -/
def execRload (f : RForm) (s : State) : Out :=
  .next (fabWord true rosePending f.x (futOf f) [rA f, rB f] (fun l => .rload (BitVec.ofNat 64 (arg l 0)) (arg l 1)) s)

/-! ### RSTAT (R360) -/

def rstat (s : State) (c k : Nat) : Nat :=
  let b := s.fab
  let st := 72 * stagedFlits b / 1024
  match k with
  | 0 => b.dev.toNat + roseSlots s * 2 ^ 12 + curSlot s * 2 ^ 19 + (if b.next.isSome then 2 ^ 25 else 0) + b.down.toNat * 2 ^ 26
      + (b.drained ||| b.down).toNat * 2 ^ 34 + b.degraded.toNat * 2 ^ 42
  | 1 => curCycle s % 2 ^ 64
  | 2 => match b.next with | some (_, t, _, _) => t | none => 0
  | 3 => min st 32768 + (st - 32768) * 2 ^ 32
  | 4 => min 0xFFFF (postedOut s c).length + (s.core c).posted.length * 2 ^ 16 + if (s.core c).postOvf then 2 ^ 32 else 0
  | 5 => b.migRec % 2 ^ 32 + b.migDrop * 2 ^ 32
  | 6 => b.resend
  | _ => b.fabPois

/-- RSTAT (R360). -/
def execRstat (k : BitVec 3) (f : RForm) (s : State) : Out :=
  .next (runWord { cls := some 4 } f.x false 1 (queryOp f.d fun s t => rstat s (coreOf t) k.toNat) s)

end Sys2Proof.Machine
end

