-- ==== Sys2Proof/Machine/Flits.lean ====
section
/-! DEFINITION. The fabric's events: received flits, timeouts, slots and the change of roses (R340 to R359). -/

namespace Sys2Proof.Machine

/-! ### Tags answered (R351) -/

/-- Commands of a core that waited for a tag and wait for none any longer go on. -/
def tagClear (s : State) (tag : Nat) : State :=
  let s := { s with fab := { s.fab with tags := s.fab.tags.filter fun r => r.tag != tag } }
  let hit := s.cores.flatMap fun p => (p.2.fabQ.filter fun k => k.tags.contains tag).map fun k => (p.1, k.id)
  let cut := fun (l : List Nat) => l.filter fun t => t != tag
  let cores := s.cores.map fun p => (p.1, { p.2 with
    fabQ := p.2.fabQ.map fun k => { k with tags := cut k.tags }
    strQ := p.2.strQ.map fun k => { k with tags := cut k.tags } })
  hit.foldl (fun s h => match fabGet s h.1 h.2 with
    | some k => if k.tags.isEmpty then fabGo s h.1 k else s
    | none => s) { s with cores := cores }

/-- A line of a peer, or its failure, handed to the command that asked for it. What an FPUT, FGET or FSIG or a stream command then
records is entered as it arrives (R24); a record's reader enters what it finds when it reads it, in the same step. -/
def giveLine (s : State) (r : TagRec) (id : Nat) (l : RLine) : State :=
  match strGet s r.core id, fabGet s r.core id with
  | some k, _ => let q := StrCmd.got s k r.ea l (k.reads r.ea); strSet q.1 r.core q.2
  | none, some k => match k.kind with
    | .fput .. | .fsig .. => let q := StrCmd.got s k.str r.ea l fun _ => false; fabSet q.1 r.core (k.back q.2)
    | .fget a _ n =>
      let q := StrCmd.got s k.str r.ea l fun va => decide (a.toNat ≤ va.toNat) && decide (va.toNat < a.toNat + n)
      fabSet q.1 r.core (k.back q.2)
    | _ => fabSet s r.core { k with lines := k.lines ++ [l] }
  | none, none => s

/-- A remote load's or ATOM's result, written to its destination (R349). -/
def remoteGot (s : State) (c id : Nat) (g : Nat → Got) : State :=
  let s := s.modCore c fun x => { x with reqs := x.reqs.map fun r =>
    if r.id = id then { r with pieces := r.pieces.map fun (p : Piece) => { p with got := g p.n } } else r }
  finishReq s c id

/-- The answer to a combine that went to a peer (R283). -/
def combGot (s : State) (id : Nat) (g : Got) : State :=
  match s.comb.flight.find? fun r => r.id == id with
  | some r => combAnswer { s with comb := { s.comb with flight := s.comb.flight.filter fun q => q.id != id } } { r with reply := some g }
  | none => s

/-- A transaction that ends with a cause: a timeout, a refusal, or a removed peer (R351, R345, R359). -/
def tagFail (s : State) (r : TagRec) (cause : Nat) : State :=
  match r.use with
  | .store =>
    let q := raiseAt s r.tid r.pc cause r.ea
    tagClear (recordDrop q.1 r.tid q.2) r.tag
  | .req id => tagClear (remoteGot s r.core id fun _ => .cause cause r.ea) r.tag
  | .comb id => tagClear (combGot s id (.cause cause r.ea)) r.tag
  | .watch t => match (s.thr t).hold.watch with
    | some w => tagClear (watchPoison s w (raiseAt s w.lead w.pc cause w.va)) r.tag
    | none => tagClear s r.tag
  | .cmd id =>
    match fabGet s r.core id with
    | some k => match k.kind with
      | .fbar .. => tagClear (fabFail s r.core k cause) r.tag
      | .drain _ =>
        let free := s.fab.drains.map fun (d : DrainRec) => if d.cmd = some (r.core, id) then { d with cmd := none } else d
        tagClear (fabFail { s with fab := { s.fab with drains := free } } r.core k cause) r.tag
      | _ => tagClear (giveLine s r id { peer := r.dst, line := r.lo / 64, fail := some cause }) r.tag
    | none => tagClear (giveLine s r id { peer := r.dst, line := r.lo / 64, fail := some cause }) r.tag

def tagRec (s : State) (tag : Nat) : Option TagRec := s.fab.tags.find? fun r => r.tag == tag

/-- FABRIC_TIMEOUT (R351). -/
def execFabricTimeout (tag : BitVec 16) (s : State) : Out :=
  .next (match tagRec s tag.toNat with
    | some r => if r.due ≤ s.now then tagFail s r cPEER else s
    | none => s)

/-! ### Reception (R340, R341, R345) -/

/-- A field of a payload: byte offset and bits. -/
def plField (f : Flit) (byte bits : Nat) : Nat := f.payload.toNat / 2 ^ (8 * byte) % 2 ^ bits

/-- A flit counted as dropped (R340). -/
def dropFlit (s : State) : State := { s with fab := { s.fab with resend := min (2 ^ 64 - 1) (s.fab.resend + 1) } }

/-- Flits spend the allowance that this device granted the device that sent them on port p (R346): for its input buffer those that end
here, for its staging buffer those that it holds for another. -/
def useGrant (s : State) (p : Nat) (f : Flit) (n : Nat) : State :=
  let d := ((rowAt s (curSlot s)).getD p none).getD f.src.toNat
  if f.type = 8 then s
  else if f.dst = s.fab.dev then { s with fab := { s.fab with granted := tset d (tgetD d 0 s.fab.granted - n) s.fab.granted } }
  else if f.relayed then { s with fab := { s.fab with promised := tset d (tgetD d 0 s.fab.promised - n) s.fab.promised } }
  else s

/-- Flits that the staging store and its overflow hold (R347). -/
def stageRoom : Nat := (32 + 512) * 2 ^ 20 / 72

/-- Whether a data flit failed its last resend (R341). -/
def dataBad (f : Flit) : Bool := f.check != flitCrc f

/-- Data flits delivered as poison are counted, and their port marked degraded (R341). -/
def countBad (s : State) (p : Nat) (data : List Flit) : State :=
  let n := (data.filter dataBad).length
  if n = 0 then s
  else
    { s with fab := { s.fab with
        fabPois := min (2 ^ 64 - 1) (s.fab.fabPois + n), degraded := s.fab.degraded ||| BitVec.ofNat 8 (2 ^ p) } }

/-- A request as a device that holds it for another sends it on (R341): a data flit that failed goes with STATE 1 and a FAB token in each
word's place, which the header's poison mask tells of the first. -/
def passedOn (f : Flit) (data : List Flit) : List Flit :=
  let toks := BitVec.ofNat 512 ((List.range 16).map fun i => (token 0xFFF cFAB).toNat * 2 ^ (32 * i)).sum
  let first := match data with | d :: _ => dataBad d | [] => false
  (if first then sealFlit { f with payload := f.payload ||| BitVec.ofNat 512 (0xFFFF * 2 ^ 128) } else f)
    :: data.map fun d => if dataBad d then sealFlit { d with state := 1, payload := toks } else d

/-- A flit for another device: staged where the rose reaches it, else refused to its originator (R345). One that came here without
relay allowance, because two devices disagree about the rose, is refused too where there is no room (R347, R358). -/
def relayFlit (s : State) (f : Flit) (data : List Flit) : State :=
  if reachable s f.dst.toNat && decide (stagedFlits s.fab + 1 + data.length ≤ stageRoom) then
    { s with fab := { s.fab with staged := s.fab.staged ++ passedOn f data } }
  else answer s f 7 2 true 0

/-- What is found corrupt in a header whose CHECK passes (R341): the number of its data flits or their tag, a field of its request that
must be zero, or an operation that there is not (R340). -/
def headBad (f : Flit) (data : List Flit) : Bool :=
  let op := plField f 20 32
  let isReq := f.type == 0 || f.type == 1 || f.type == 3 || f.type == 5 || f.type == 11
  data.any (fun d => !dataBad d && d.tag != f.tag)
    || (if f.type = 0 then decide (plField f 18 16 ≠ data.length) || decide (1024 < data.length)
        else if f.type = 2 then decide (data.length ≠ 1) else !data.isEmpty)
    || (isReq && decide (2 ^ 10 ≤ op))
    || (f.type == 3 && match plField f 16 16 with
      | 0 => decide (9 < op % 256)
      | 1 => decide (12 < op % 256)
      | 2 => decide (63 < op % 256)
      | _ => true)

/-- Whether a data flit has a reserved STATE or TYPE (R340); one that failed its CHECK is delivered as poison whatever it holds (R341). -/
def reservedFlit (d : Flit) : Bool := !dataBad d && (d.state == 3 || decide (13 ≤ d.type.toNat))

/-- A received flit wakes the device (R391). A reserved STATE or TYPE is dropped, and counted, and nothing is sent back (R340); a header whose
CHECK fails, or that is found corrupt, is a fabric control fault (R341); a flit for another device goes on. -/
def receive (s : State) (p : Nat) (f : Flit) (data : List Flit) (g : State → State) : State :=
  if s.host.fault then s
  else
    let s := awake s
    if f.state = 3 then dropFlit s
    else if f.check ≠ flitCrc f then deviceFault s 3
    else if data.any reservedFlit then (data.filter reservedFlit).foldl (fun s _ => dropFlit s) s
    else
      let s := useGrant s p f (1 + data.length)
      if f.dst ≠ s.fab.dev then relayFlit (countBad s p data) f data
      else if headBad f data then deviceFault s 3
      else g s

/-- The lines that a request names at this device (R348). -/
def reqLines (f : Flit) : Option (Nat × Nat) :=
  if f.type == 0 || f.type == 1 || f.type == 3 || f.type == 5 then
    some (plField f 0 64 / 64, plField f 0 64 / 64 + max 1 (plField f 18 16)) else none

/-- Whether request g goes before f (R348): one core's requests to the same bytes perform in the order of their tags. -/
def tagBefore (g f : Flit) : Bool :=
  match reqLines g, reqLines f with
  | some a, some b =>
    let d := (2 ^ 16 + f.tag.toNat - g.tag.toNat) % 2 ^ 16
    g.src == f.src && plField g 32 64 / 2 ^ 11 == plField f 32 64 / 2 ^ 11 && decide (a.1 < b.2) && decide (b.1 < a.2)
      && decide (1 ≤ d) && decide (d < 2 ^ 15)
  | _, _ => false

/-- The flit that is acted on next: the oldest, or an earlier request to its bytes that has come after it (R348). -/
def inboxNext (l : List (Nat × Flit × List Flit)) : Option (Nat × Flit × List Flit) :=
  match l with
  | [] => none
  | e :: l => some (l.foldl (fun b e => if tagBefore e.2.1 b.2.1 then e else b) e)

/-- The next flit of the inbox, if it is of a type, received. -/
def received (s : State) (type : Nat) (g : Nat → Flit → List Flit → State → State) : State :=
  match inboxNext s.fab.inbox with
  | none => s
  | some e => if e.2.1.type.toNat ≠ type then s
    else receive { s with fab := { s.fab with inbox := s.fab.inbox.erase e } } e.1 e.2.1 e.2.2 (g e.1 e.2.1 e.2.2)

/-- An answer of the wrong kind for its tag: a corrupt header that a later check finds (R341). -/
def wrongAnswer (s : State) : State := deviceFault s 3

/-- The words of a data flit, poisoned where the mask says (R340); all of them FAB poison when it failed. -/
def flitWords (d : Flit) (pois : Nat) : List Val :=
  (List.range 16).map fun i =>
    if dataBad d then .bad (token 0xFFF cFAB)
    else
      let v := d.payload.toNat / 2 ^ (32 * i) % 2 ^ 32
      if d.state = 1 && pois / 2 ^ i % 2 == 1 then .bad (BitVec.ofNat 32 v) else .ok v

/-- One line written at this device's homes under a byte mask (R200). -/
def writeLine (s : State) (line mask : Nat) (ws : List Val) : State :=
  ws.zipIdx.foldl (fun s p =>
    let m : BitVec 4 := BitVec.ofNat 4 (mask / 2 ^ (4 * p.2))
    if m = 0 then s else homeWrite s none (16 * line + p.2) (maskWord (homeWord s (16 * line + p.2)) m p.1)) s

/-- WRITE_FLIT (R340, R349): the data perform at the home, and the write is acknowledged; a failed resend is told (R351). -/
def execWriteFlit (s : State) : Out :=
  .next (received s 0 fun p f data s =>
    let s := countBad s p data
    let line := plField f 0 64 / 64
    let s := data.zipIdx.foldl (fun s p =>
      writeLine s (line + p.2) (if p.2 = 0 then plField f 8 64 else 2 ^ 64 - 1)
        (flitWords p.1 (if p.2 = 0 then plField f 16 16 else 0xFFFF))) s
    answerWrite s line (mkFlit s 6 f.src.toNat f.tag.toNat (if data.any dataBad then 1 else 2) true 0))

/-- READ_REQUEST_FLIT (R349): the line at its home goes back, its poisoned words marked. -/
def execReadRequestFlit (s : State) : Out :=
  .next (received s 1 fun _ f _ s =>
    let pa := plField f 0 64
    let ws := (List.range 16).map fun i => homeWord s (pa / 64 * 16 + i)
    let pois := ((ws.zipIdx.filter fun p => match p.1 with | .bad _ => true | .ok _ => false).map fun p => 2 ^ p.2).sum
    let s := answer s f 2 2 false (reqPayload pa (plField f 8 64) pois 1 0 0 0)
    answer s f 2 (if pois = 0 then 0 else 1) true (BitVec.ofNat 512 ((ws.zipIdx.map fun p => p.1.num * 2 ^ (32 * p.2)).sum)))

/-- What a reply does to one word of its core's L1 (R195, R224, R349 MODE 1): it is kept as a clean word, but for a word that the core has
stored to; a reply that another of its line has overtaken, or that is not kept, drops a copy that differs from what it gives its load. -/
def keepWord (r : TagRec) (l : Tbl L1Word) (w : Nat) (v : Val) : Tbl L1Word :=
  let k := l1Key r.dst w
  let given := decide (4 * w < r.hi) && decide (r.lo < 4 * w + 4)
  if r.more = 1 && r.stale.contains w then tdel k l
  else if r.more ≠ 1 || r.raced then (match tget k l with
    | some e => if given && e.val != v then tdel k l else l
    | none => l)
  else tset k { val := v, sk := r.sk, evf := r.evf } l

/-- A peer's line reaches the L1; loads of it that are still under way are overtaken. -/
def keepLine (s : State) (r : TagRec) (ws : List Val) : State :=
  let w0 := r.lo / 64 * 16
  let s := if r.more = 1 then makeRoom s r.core (l1Key r.dst w0 / 16) (s.thr r.tid).bin else s
  let tags := s.fab.tags.map fun q =>
    if r.more == 1 && q.core == r.core && q.dst == r.dst && q.lo / 64 == r.lo / 64 && q.tag != r.tag then { q with raced := true } else q
  { s with fab := { s.fab with tags := tags } }.modCore r.core fun x =>
    { x with l1 := ws.zipIdx.foldl (fun (l : Tbl L1Word) (p : Val × Nat) => keepWord r l (w0 + p.2) p.1) x.l1 }

/-- What a remote load gets of the line's words: the thread's own held bytes over them (R212, R349). -/
def loadGot (r : TagRec) (ws : List Val) (failed : Bool) (n : Nat) : Got :=
  if failed then .cause cFAB r.ea
  else
    let w0 := r.lo / 4
    let mine := (List.range (if r.bits = 64 then 2 else 1)).map fun i =>
      r.fwd.foldl (fun v h =>
        if h.key == .glob r.dst (w0 + i) || h.key == .lost false (r.ea.toNat / 4 + i) then maskWord v h.mask h.val else v)
        (ws.getD ((w0 + i) % 16) (.ok 0))
    gotOf r.ea r.bits (r.lo % 4 * 8) mine (fitLoad r.bits r.sx (4 * n))

/-- READ_REPLY_FLIT (R349): the line reaches what asked for it; a late reply is discarded (R351). -/
def execReadReplyFlit (s : State) : Out :=
  .next (received s 2 fun p f data s =>
    let s := countBad s p data
    match tagRec s f.tag.toNat, data with
    | some r, d :: _ =>
      let ws := flitWords d (plField f 16 16)
      (match r.use with
      | .req id =>
        let s := if dataBad d then s else keepLine s r ws
        tagClear (remoteGot s r.core id (loadGot r ws (dataBad d))) r.tag
      | .watch t => match (s.thr t).hold.watch with
        | some w =>
          let mine := (List.range (if w.bits = 64 then 2 else 1)).map fun i => ws.getD ((r.lo / 4 + i) % 16) (.ok 0)
          tagClear (if dataBad d then watchPoison s w (raiseAt s w.lead w.pc cFAB w.va) else watchSeen s w (r.lo % 4 * 8) mine) r.tag
        | none => tagClear s r.tag
      | .cmd id =>
        let l : RLine := if dataBad d then { peer := r.dst, line := r.lo / 64, fail := some cFAB }
          else { peer := r.dst, line := r.lo / 64, words := ws }
        let s := if dataBad d then s else keepLine s r ws
        tagClear (giveLine s r id l) r.tag
      | _ => wrongAnswer s)
    | _, _ => s)

/-- An ATOM at this device for a peer (R208): its old value, or the token of a poisoned word. -/
def atomFor (s : State) (pa op : Nat) (sz : Bool) (d n : Nat) : State × Val :=
  let k := if sz then 2 else 1
  let ws := (List.range k).map fun i => homeWord s (pa / 4 + i)
  match firstBad ws with
  | some t => (s, .bad t)
  | none => (homeNum s none pa (atomNew (BitVec.ofNat 4 op) (32 * k) (wordsNum ws) d n) k, .ok (wordsNum ws))

/-- ATOMIC_REQUEST_FLIT (R283, R349): an ATOM performs at the home, and is answered once its write is complete (R225); a combine joins its
object's wave as a local request does, ordered among those of its cycle (R269). -/
def execAtomicRequestFlit (s : State) : Out :=
  .next (received s 3 fun _ f _ s =>
    let pa := plField f 0 64
    let b := plField f 8 64
    let op := plField f 20 32
    let new := plField f 24 64
    let sz := op / 256 % 2 == 1
    let kind := plField f 16 16
    if kind = 0 then
      let r := atomFor s pa (op % 256) sz b new
      match r.2 with
      | .ok v => answerWrite r.1 (pa / 64) (mkFlit r.1 4 f.src.toNat f.tag.toNat 0 true (BitVec.ofNat 512 v))
      | .bad k => answer r.1 f 4 1 true (BitVec.ofNat 512 k.toNat)
    else
      let n := s.comb.nextId
      let q : CReq := { id := n, pa := pa, user := kind == 2, method := op % 256, sz := sz, b := b, new := new
                        ident := plField f 32 64, dev := f.src.toNat, tag := f.tag.toNat, sent := s.now }
      { s with comb := { s.comb with nextId := n + 1, flight := s.comb.flight ++ [q] } })

/-- ATOMIC_REPLY_FLIT (R349). A combine's reply that holds a token makes an entry of its own with the token's cause: its poison arose at the
combiner and stands in no memory, where an ATOM's is carried (R24; DEDUCED, assumption 73). -/
def execAtomicReplyFlit (s : State) : Out :=
  .next (received s 4 fun _ f _ s =>
    match tagRec s f.tag.toNat with
    | none => s
    | some r =>
      let k : Tok := BitVec.ofNat 32 (plField f 0 32)
      let v := plField f 0 64
      match r.use with
      | .req id => tagClear (remoteGot s r.core id fun n => if f.state = 1 then .carried k r.ea else .clean (v % 2 ^ (4 * n))) r.tag
      | .comb id => tagClear (combGot s id (if f.state = 1 then .cause (tokCause k) r.ea else .clean v)) r.tag
      | _ => wrongAnswer s)

/-- SIGNAL_FLIT (R354). -/
def execSignalFlit (s : State) : Out :=
  .next (received s 5 fun _ f _ s =>
    let op := plField f 20 32
    let s := signalHome s none (plField f 0 64) (op / 512 % 2 == 1) (op / 256 % 2 == 1) (plField f 8 64)
    answerWrite s (plField f 0 64 / 64) (mkFlit s 6 f.src.toNat f.tag.toNat 2 true 0))

/-- ACKNOWLEDGE_FLIT (R351, R354): a failed resend told in it is FAB. -/
def execAcknowledgeFlit (s : State) : Out :=
  .next (received s 6 fun _ f _ s =>
    match tagRec s f.tag.toNat with
    | some r => match r.use with
      | .store | .cmd _ => if f.state = 1 then tagFail s r cFAB else tagClear s r.tag
      | _ => wrongAnswer s
    | none => s)

/-- REFUSAL_FLIT (R345). -/
def execRefusalFlit (s : State) : Out :=
  .next (received s 7 fun _ f _ s =>
    match tagRec s f.tag.toNat with
    | some r => tagFail s r cPEER
    | none => s)

/-- ALLOWANCE_GRANT_FLIT (R346): input and relay allowance from its sender. -/
def execAllowanceGrantFlit (s : State) : Out :=
  .next (received s 8 fun _ f _ s =>
    let d := f.src.toNat
    { s with fab := { s.fab with
        allow := tset (allowKey d (curSlot s)) (allowed s s.fab.allow d + plField f 0 32) s.fab.allow
        relay := tset (allowKey d (curSlot s)) (allowed s s.fab.relay d + plField f 4 32) s.fab.relay } })

/-- DRAIN_MARKER_FLIT (R356): acknowledged once nothing is queued towards its sender. -/
def execDrainMarkerFlit (s : State) : Out :=
  .next (received s 9 fun p f _ s => ackMarkers { s with fab := { s.fab with markers := s.fab.markers ++ [(p, f)] } })

/-- DRAIN_ACKNOWLEDGE_FLIT (R356). -/
def execDrainAcknowledgeFlit (s : State) : Out :=
  .next (received s 10 fun _ f _ s =>
    let cut := s.fab.drains.map fun (d : DrainRec) => { d with tags := d.tags.filter fun t => t.1 != f.tag.toNat }
    endDrains { s with fab := { s.fab with drains := cut } })

/-- BARRIER_ARRIVAL_FLIT (R355). -/
def execBarrierArrivalFlit (s : State) : Out :=
  .next (received s 11 fun _ f _ s =>
    let op := plField f 8 64
    barrierIn s { b := op % 2 ^ 12, n := plField f 24 12, step := op / 2 ^ 16 % 2 == 1, who := (f.src.toNat, f.tag.toNat, 0) })

/-- BARRIER_RELEASE_FLIT (R355): a release completes its FBAR; one that was not counted completes with INV. Of the releases of one step
barrier to this device one counts it (R395; assumption 29). -/
def execBarrierReleaseFlit (s : State) : Out :=
  .next (received s 12 fun _ f _ s =>
    match tagRec s f.tag.toNat with
    | none => s
    | some r => match r.use with
      | .cmd id => match fabGet s r.core id with
        | some k =>
          let s := if f.state = 1 then fabFail s r.core k cINV else fabFree s r.core k
          (match k.kind with
            | .fbar .. => tagClear (countStep s (f.payload.getLsbD 0 && f.state != 1)) r.tag
            | _ => wrongAnswer s)
        | none => tagClear s r.tag
      | _ => wrongAnswer s)

/-- RESERVED_TYPE_FLIT (R340). -/
def execReservedTypeFlit (s : State) : Out :=
  .next (match inboxNext s.fab.inbox with
    | none => s
    | some e => if e.2.1.type.toNat < 13 then s
      else
        let s := { s with fab := { s.fab with inbox := s.fab.inbox.erase e } }
        if s.host.fault then s else dropFlit (awake s))

/-! ### Slots and roses (R343, R345, R346, R357 to R359) -/

/-- FRAME_MARKER (R343). -/
def execFrameMarker (s : State) : Out := .next { s with fab := { s.fab with epoch := some s.now } }

/-- Allowance brought up to its measure for a peer that a port meets (R346): relay allowance against free staging only. -/
def grantTo (s : State) (d : Nat) : State :=
  let a := s.cfg.grant - tgetD d 0 s.fab.granted
  let free := stageRoom - stagedFlits s.fab - (s.fab.promised.map Prod.snd).sum
  let b := min (s.cfg.grant - tgetD d 0 s.fab.promised) free
  if a = 0 ∧ b = 0 then s
  else
    let g := tset d (tgetD d 0 s.fab.granted + a) s.fab.granted
    let p := tset d (tgetD d 0 s.fab.promised + b) s.fab.promised
    emit { s with fab := { s.fab with granted := g, promised := p } } (mkFlit s 8 d 0 2 true (BitVec.ofNat 512 (a + b * 2 ^ 32)))

/-- A slot begins: its peers are granted allowance, and everything that waits is reconsidered. -/
def newSlot (s : State) : State :=
  if s.host.fault then s
  else
    let ds := (rowAt s (curSlot s)).filterMap id
    let s := lockCheck s
    let s := { s with fab := { s.fab with allow := keepAllow (curSlot s) ds s.fab.allow, relay := keepAllow (curSlot s) ds s.fab.relay } }
    fabPush (ds.foldl grantTo s)

/-- SLOT_BOUNDARY (R345). -/
def execSlotBoundary (s : State) : Out := .next (newSlot s)

/-- Held stores whose page names a removed device: each takes one token (R359). -/
def poisonHeld (s : State) (c d : Nat) : State :=
  let q := (s.core c).quar
  let hit := fun (h : Held) => match h.key with | .glob p _ => p == d | _ => false
  let r := (q.map fun h => h.tid).dedup.foldl (fun r t =>
    (heldStores (q.filter fun h => h.tid == t && hit h)).foldl (fun (r : State × List (Held × Tok)) g => match g with
      | [] => r
      | h :: _ => let k := raiseAt r.1 t h.pc cPEER h.va; (k.1, r.2 ++ g.map fun x => (x, k.2))) r) (s, [])
  r.1.modCore c fun x => { x with quar := x.quar.map fun h => match r.2.find? fun p => p.1 == h with
    | some p => { h with val := .bad p.2, mask := 0xF }
    | none => h }

/-- Commands that a removed device ends (R359): FLUSHRs that name it, and DRAINs whose markers it will not acknowledge. -/
def endsWith (d : Nat) (s : State) (c : Nat) (k : FabCmd) : Bool :=
  match k.kind with
  | .flushr e => e == d
  | .drain _ => s.fab.drains.any fun r => r.cmd == some (c, k.id) && r.tags.any fun t => t.2 == d
  | _ => false

/-- A device removed by a new rose (R359). -/
def removeDevice (s : State) (d : Nat) : State :=
  let s := (s.cores.map Prod.fst).foldl (fun s c => poisonHeld s c d) s
  let s := s.cores.foldl (fun s p => (p.2.fabQ.filter (endsWith d s p.1)).foldl (fun s k => fabFail s p.1 k cPEER) s) s
  let unsent := fun (t : Nat) => s.fab.waiting.any (fun f => f.tag.toNat == t && f.dst.toNat == d)
    || s.fab.drains.any fun r => r.queued.any fun f => f.tag.toNat == t && f.dst.toNat == d
  let lost := s.fab.tags.filter fun r => r.dst == d && (r.use != .store || unsent r.tag)
  let dead := (s.fab.staged ++ s.fab.drains.flatMap fun r => r.queued).filter fun f => f.dst.toNat == d && f.src != s.fab.dev
  let refused := (dead.map fun f => (f.src, f.tag)).dedup
  let drains := s.fab.drains.map fun (r : DrainRec) =>
    { r with queued := r.queued.filter (fun f => f.dst.toNat != d), marks := r.marks.filter (fun m => m.2.dst.toNat != d)
             tags := r.tags.filter fun t => t.2 != d }
  let s := { s with fab := { s.fab with
    waiting := s.fab.waiting.filter fun f => f.dst.toNat != d
    staged := s.fab.staged.filter fun f => f.dst.toNat != d
    drains := drains
    allow := s.fab.allow.filter fun e => e.1 / 64 != d
    relay := s.fab.relay.filter fun e => e.1 / 64 != d } }
  let s := lost.foldl (fun s r => tagFail s r cPEER) s
  refused.foldl (fun s p => emit s (mkFlit s 7 p.1.toNat p.2.toNat 2 true 0)) s

/-- The devices that the rose in force reaches. -/
def reached (s : State) : List Nat := matched s 0xFF

/-- The change's own drains end with it: what they had not sent waits again, this device's flits and the staged ones (R358). -/
def undrain (b : Fab) : Fab :=
  let back := (b.drains.filter fun d => d.cmd.isNone).flatMap fun d => d.queued
  { b with
    waiting := back.filter (fun f => f.src == b.dev) ++ b.waiting
    staged := back.filter (fun f => f.src != b.dev) ++ b.staged
    drains := b.drains.filter fun d => d.cmd.isSome }

/-- A pending rose comes into force (R358, R359). A port that is down stays so until it has changed and locked (R357). -/
def takeRose (s : State) : State :=
  match s.fab.next, roseDue s with
  | some (r, t, c, id), some at_ =>
    let old := reached s
    let ch := changedPorts s r
    let s := { s with fab := { undrain s.fab with
      rose := some r, roseCyc := t, roseAt := at_, next := none, drained := 0, changed := ch, relock := ch } }
    let s := (old.filter fun d => !reachable s d).foldl removeDevice s
    fabOver s c id none
  | _, _ => s

/-- ROSE_TAKE_EFFECT (R358). -/
def execRoseTakeEffect (s : State) : Out :=
  .next (match roseDue s with
    | some t => if t ≤ s.now ∧ s.host.fault = false then takeRose s else s
    | none => s)

/-- PORT_RELOCK (R358): during slot 0 of the new rose's first cycle. -/
def execPortRelock (port : Nat) (s : State) : Out :=
  .next (if s.now < s.fab.roseAt + slotCycles then
      let b := ~~~(BitVec.ofNat 8 (2 ^ port))
    { s with fab := { s.fab with
        down := if s.fab.relock.getLsbD port then s.fab.down &&& b else s.fab.down
        relock := s.fab.relock &&& b } }
    else s)

end Sys2Proof.Machine
end

