-- ==== Sys2Proof/Machine/Future.lean ====
section
/-! DEFINITION. FCANCEL (R159, R300, R334). -/

namespace Sys2Proof.Machine

/-- The slot that a fill had taken is returned: its ring stands as before the fill (R300). -/
def unfill (s : State) (c : Nat) (k : StrCmd) : State :=
  match k.op, k.slot with
  | .fill r _, some _ =>
    let g := tgetD (r.toNat % 16) {} (s.core c).rings
    let n : Ring := { g with free := g.free + 1, fillAt := (g.fillAt + g.nslot - 1) % g.nslot }
    s.modCore c fun x => { x with rings := tset (r.toNat % 16) n x.rings }
  | _, _ => s

/-- A stream command that has written nothing is removed; an access slice's queues keep their elements and are unbound, where they
are still its own (R300). -/
def strCancel (s : State) (c : Nat) (k : StrCmd) : State :=
  if k.stage = 3 then s
  else
    let s := match k.op with
      | .asl _ => if k.stage = 2 then k.tids.foldl (fun s t => s.modThr t fun x =>
          match tget k.slice.queue x.queues with
          | some q => if q.asl = k.id then { x with queues := tset k.slice.queue { q with left := 0, bound := false } x.queues } else x
          | none => x) s else s
      | _ => unfill s c k
    let r := raiseAt s k.lead k.pc cUSER 0
    strDone r.1 c k.id (some r.2)

/-- A matrix command: queued ones are removed; a loop under way stops at its next step boundary; others complete (R334). A resumed loop
that waits in the queue stands at a boundary of its own: its steps count (assumption 24). -/
def matCancel (s : State) (c : Nat) (k : MatCmd) : State :=
  match k.op with
  | .loop acc _ _ off _ _ n _ _ _ =>
    if k.started then (if k.step > n then s else matSet s c { (k.stop s c) with cancelled := true })
    else if 0 < k.step then loopCancelled s c k acc.toNat off.num
    else let r := matFail s c k cUSER; matEnd r.1 c k none (some r.2)
  | _ => if k.started then s else let r := matFail s c k cUSER; matEnd r.1 c k none (some r.2)

/-- The command that a handle names, as its engine cancels it; combines and fabric commands never are (R159). -/
def cancel (s : State) (c h : Nat) : State :=
  match futLive s c h with
  | none => s
  | some e => match e.cls with
    | .s => match strGet s c e.id with
      | some k => strCancel s c k
      | none => s
    | .m => match (s.core c).matQ.find? fun k => k.id == e.id with
      | some k => matCancel s c k
      | none => s
    | .c | .f => s

def fcancelOp (f : RForm) : WordOp Raw Unit where
  rdBusy _ _ _ := false
  wrBusy _ _ := false
  rd s acts t := readRaw (rA f) s acts t
  eff s t ts v := (match v with | .out k => recordAll s ts k | .got h _ => cancel s (coreOf t) h, ())
  put s _ _ := s

/-- FCANCEL (R158, R159). -/
def execFcancel (f : RForm) (s : State) : Out :=
  .next (runWord {} f.x (rA f).endc (1 + crossCost [rA f]) (fcancelOp f) s)

end Sys2Proof.Machine
end

