-- ==== Sys2Proof/Machine/Place.lean ====
section
/-! DEFINITION. Blocks of slots, and the placement of packs on lanes (R86 to R89, R250). -/

namespace Sys2Proof.Machine

/-- Whether a block holds slot i of package lane l (R86): a block's slots return only when its last thread has stopped. -/
def slotHeld (s : State) (l i : Nat) : Bool :=
  s.threads.any fun p =>
    let w := p.2.group
    if w = 64 then laneKey p.1 / 2 == l / 2 && slotOf p.1 / 32 == i / 32
    else laneKey p.1 == l && slotOf p.1 / w == i / w

/-- Free slots of a lane. -/
def freeSlots (s : State) (l : Nat) : Nat := ((List.range 128).filter fun i => !slotHeld s l i).length

/-- Base slots of the free aligned blocks for a width group of w threads on lane l, or on the pair whose even lane is l. -/
def freeBlocks (s : State) (l w : Nat) : List Nat :=
  let b := min w 32
  ((List.range (128 / b)).map fun k => k * b).filter fun base =>
    (List.range b).all fun i => !slotHeld s l (base + i) && (w != 64 || !slotHeld s (l + 1) (base + i))

/-- The thread of index j of the block at base on lane l. -/
def blockTid (l base w j : Nat) : Tid := if w = 64 ∧ 32 ≤ j then (l + 1) * 128 + base + j - 32 else l * 128 + base + j

/-- Granules that threads of an index list take on the even, or only, lane, and on the odd one. -/
def gransOn (w : Nat) (odd : Bool) (need : List (Nat × Nat)) : Nat :=
  ((need.filter fun p => (w == 64 && decide (32 ≤ p.1 % 64)) == odd).map Prod.snd).sum

/-- Whether a lane, or pair, fits nb blocks of a width and the granules of its threads, given by pack index and XGRAN (R89). -/
def slotsFit (s : State) (l w nb : Nat) : Bool := decide (nb ≤ (freeBlocks s l w).length)
def gransFit (s : State) (l w : Nat) (need : List (Nat × Nat)) : Bool :=
  decide (gransOn w false need ≤ laneFree s l) && (w != 64 || decide (gransOn w true need ≤ laneFree s (l + 1)))

/-- Lanes of core c, or the even lanes of its pairs. -/
def coreLanes (c w : Nat) : List Nat :=
  (List.range (if w = 64 then 8 else 16)).map fun k => c * 16 + if w = 64 then 2 * k else k

/-- The lane with the most free slots, the lower on a tie (R89). -/
def roomiest (s : State) (w : Nat) : List Nat → Option Nat
  | [] => none
  | l :: ls =>
    let room := fun l => freeSlots s l + if w = 64 then freeSlots s (l + 1) else 0
    match roomiest s w ls with
    | none => some l
    | some m => if room l ≥ room m then some l else some m

/-- The lane that takes blocks of a width (R89): 2 when no lane has the slots, 3 when none of those has the granules. -/
def pickLane (s : State) (c w nb : Nat) (need : List (Nat × Nat)) : Except Nat Nat :=
  let ls := (coreLanes c w).filter fun l => slotsFit s l w nb
  match roomiest s w (ls.filter fun l => gransFit s l w need) with
  | some l => .ok l
  | none => .error (if ls.isEmpty then 2 else 3)

/-- A thread as a record creates it in a slot (R89, R91, R250, R386). -/
def newThread (t : Tid) (r : SpawnRec) (width : BitVec 3) (bin : Nat) : Thread :=
  let x : Thread := { pc := r.entry, xgran := r.xgran, width := width, prio := r.prio, bin := bin, tfp := defaultTfp t
                      stopw := r.stopw, redun := r.redun }
  let y := ((x.put 0 8 (.ok (r.s0 % 2 ^ 32))).put 8 8 (.ok (r.s8 % 2 ^ 32))).put 16 16 (.ok (r.s16 % 2 ^ 64))
  { y with tags := r.s16tags }

/-- Records placed from pack index j on, blocks in order. -/
def placeFrom (l w bin : Nat) (width : BitVec 3) (bases : List Nat) : Nat → List SpawnRec → State → State
  | _, [], s => s
  | j, r :: rs, s =>
    let t := blockTid l (bases.getD (j / w) 0) w (j % w)
    placeFrom l w bin width bases (j + 1) rs (s.setThr t (newThread t r width bin))

/-- Records put on a lane of core c as one pack, if one fits (R89). -/
def placeRecs (s : State) (c bin : Nat) (rs : List SpawnRec) : Option State :=
  match rs with
  | [] => none
  | r :: _ =>
    let w := ({ width := r.width } : Thread).group
    match pickLane s c w (ceilDiv rs.length w) ((rs.zipIdx).map fun p => (p.2, p.1.xgran)) with
    | .error _ => none
    | .ok l => some (placeFrom l w bin r.width (freeBlocks s l w) 0 rs s)

/-- A bin's threshold (R88). -/
def binThreshold (b : Bin) : Nat := match b.recs with
  | r :: _ => if r.width = 4 then 64 else 32
  | [] => 32

/-- Whether a bin forms a pack now (R88). -/
def binReady (b : Bin) : Bool := !b.recs.isEmpty && (b.expired || decide (binThreshold b ≤ b.recs.length))

/-- The order in which ready bins are served (R88): priority, oldest record, index. -/
def binBefore (a b : Nat × Bin) : Bool :=
  let p := fun (x : Nat × Bin) => (x.2.recs.head?.map SpawnRec.prio).getD 0
  let o := fun (x : Nat × Bin) => (x.2.recs.head?.map SpawnRec.at_).getD 0
  decide (p a > p b) || (p a == p b && (decide (o a < o b) || (o a == o b && decide (a.1 ≤ b.1))))

def insBin (a : Nat × Bin) : List (Nat × Bin) → List (Nat × Bin)
  | [] => [a]
  | b :: l => if binBefore a b then a :: b :: l else b :: insBin a l

def readyBins (x : Core) : List (Nat × Bin) := (x.bins.filter fun b => binReady b.2).foldr insBin []

/-- The first ready bin whose pack fits is placed (R88, R89). -/
def placeBins (s : State) (c : Nat) : List (Nat × Bin) → Option State
  | [] => none
  | (i, b) :: bs =>
    let n := min (binThreshold b) b.recs.length
    match placeRecs s c i (b.recs.take n) with
    | some s' =>
      let rest := b.recs.drop n
      let b' : Bin := { b with recs := rest, expired := false, opened := s.now, key := if rest.isEmpty then none else b.key }
      some (s'.modCore c fun x => { x with bins := tset i b' x.bins })
    | none => placeBins s c bs

/-- A pack of core c is formed and placed if one can be. -/
def packPlace (s : State) (c : Nat) : Option State := if s.enabled c then placeBins s c (readyBins (s.core c)) else none

end Sys2Proof.Machine
end

