-- ==== Sys2Proof/Machine/System.lean ====
section
/-! DEFINITION. Group 111 but for saves and snapshots: traps, RTE, system registers, HALT, the emulation range, and the register
operations (R3, R6, R57, R90, R192, R193, R198, R243 to R254, R273, R274, R342, R386, R390, R397). -/

namespace Sys2Proof.Machine

/-! ### TRAP, BRK, SYSC and the emulation range (R57, R251) -/

def trapWord (x : Pfx) (cause code : Nat) (byTrap : Bool) (s : State) : State :=
  runWord { cls := some 5, brk := some (cause, code, byTrap) } x false 1 (plainOp fun s _ => s) s

/-- TRAP, BRK, SYSC (R251). -/
def execTrap (f : IForm) (s : State) : Out := .next (trapWord f.x (f.imm.toNat % 8) (bitsOf f.imm.toNat 18 3) true s)
def execBrk (f : IForm) (s : State) : Out := .next (trapWord f.x tBRK (f.imm.toNat % 2 ^ 16) false s)
def execSysc (f : IForm) (s : State) : Out := .next (trapWord f.x tSYSC (f.imm.toNat % 2 ^ 16) false s)

/-- MED3 and the rest of the emulation range trap ILL UNIMPL before any other check (R57, R58): what MED3 computes is its
handler's work (R264, R265). -/
def execMed3 (low : BitVec 60) (s : State) : Out :=
  .next (takeTrap s (trapAt s (pfxOf (0xF000000000000000 ||| low.setWidth 64)) tILL dUNIMPL))

/-! ### RTE (R252) -/

/-- What fetching the headers of the acting threads' frames gives: their CNTs, a page to wait for, or a PRIV trap. -/
inductive Heads where
  | ok (l : List (Tid × Nat))
  | absent (asid page : Nat)
  | priv
  deriving DecidableEq, Repr

/-- HDR of a thread's frame level where RTE can use it. -/
def frameHdr (s : State) (t : Tid) : Option Nat :=
  match readFrame s t with
  | .ok l => if (framePoison l).isSome then none else some ((frameField l 1).num / 8 * 8)
  | .error _ => none

def heads (c : Nat) (user : Bool) : List Tid → State → State × Heads
  | [], s => (s, .ok [])
  | t :: ts, s => match frameHdr s t with
    | none => heads c user ts s
    | some h =>
      let r := fetchWord s c user (BitVec.ofNat 64 h)
      match r.2 with
      | .absent a g => (r.1, .absent a g)
      | .priv => (r.1, .priv)
      | .word w =>
        let q := heads c user ts r.1
        (q.1, match q.2 with | .ok l => .ok ((t, bitsOf w.toNat 60 57) :: l) | e => e)

def rteOp (cs : List (Tid × Nat)) : WordOp Unit Unit where
  rdBusy _ _ _ := false
  wrBusy s t := (s.thr t).pending 96 32
  rd s _ _ := (s, ())
  eff s t _ _ := (rteThread s t (((cs.find? fun p => p.1 == t).map Prod.snd).getD 0), ())
  put s _ _ := s
  tgt s t _ := some ⟨(s.thr t).pc, (s.thr t).hdr⟩

def rteGate : Gate := { cls := some 5, last := true, bad := fun s acts _ => acts.any fun t => (s.thr t).hdepth == 0 }

/-- The pack waits for a header's page away from its port, at the RTE word (assumption 68). -/
def rteBlock (s : State) (a g : Nat) : State :=
  let p := s.cur
  let c := coreOf (p.pack.headD 0)
  if pageRoom s c a g then
    let s := p.pack.foldl (fun s t => s.modThr t fun x => { x with hold := { x.hold with fetch := some { asid := a, page := g }, rte := true } }) s
    let s := pageRequest s c a g false true
    match s.iss with | some k => (endClauses s false p.pack).freePort k | none => s
  else stall s

/-- RTE: the header of every acting thread is fetched before any of them goes on, and the pack's thread-operations then run in one step
(R252, assumption 68). -/
def rteWord (x : Pfx) (s : State) : State :=
  let p := s.cur
  let acts := p.pack.filter fun t => actsOn x (s.thr t)
  match gateTrap s rteGate x acts with
  | some r => takeTrap s r
  | none =>
    if p.pack.any fun t => (s.thr t).hold.noPage && (s.thr t).hold.rte then
      takeTrap (p.pack.foldl (fun s t => s.modThr t fun y => { y with hold := { y.hold with noPage := false, rte := false } }) s)
        (trapAt s x tPRIV 0)
    else if acts.any fun t => (s.thr t).pending 96 32 then stall s
    else
      let h := heads (coreOf (p.pack.headD 0)) (anyUser s p.pack) acts s
      match h.2 with
      | .absent a g => rteBlock h.1 a g
      | .priv => takeTrap h.1 (trapAt h.1 x tPRIV 0)
      | .ok cs =>
        let go := runWord rteGate x true 1 (rteOp cs)
        if acts.length ≤ 1 then go h.1
        else (acts.foldl (fun s _ => go s) h.1).modCur fun p => { p with busy := max 1 (acts.map fun t => opCost acts t 1).sum }

/-- RTE (R252). -/
def execRte (f : RForm) (s : State) : Out := .next (rteWord f.x s)

/-! ### System registers (R253) -/

/-- Registers that SYSR, and SYSW, need supervisor privilege for. -/
def sysReadSup (r : Nat) : Bool := [0x060, 0x080, 0x085, 0x090, 0x091, 0x092, 0x093, 0x0A0, 0x0E0].contains r
def sysWriteSup (r : Nat) : Bool :=
  sysReadSup r || [0x040, 0x061, 0x062, 0x0C0, 0x0E8, 0x101, 0x102].contains r

/-- Fields [hi:lo] of v in place. -/
def keep (v hi lo : Nat) : Nat := bitsOf v hi lo * 2 ^ lo

/-- The value of system register r as thread t reads it. -/
def sysRead (s : State) (t : Tid) (r : Nat) : Nat :=
  let c := coreOf t
  let x := s.core c
  match r with
  | 0x000 => 0x9768 * 2 ^ 16 + s.cfg.form % 16 * 2 ^ 12 + 0x2 * 2 ^ 8
  | 0x001 => s.host.cores
  | 0x040 => x.schcfg.toNat
  | 0x060 => x.ptbr.toNat
  | 0x062 => (freeOrigin x.org x.orgCur 4095).getD x.orgCur + x.org.length * 2 ^ 12 + if x.org.length ≥ 4095 then 2 ^ 24 else 0
  | 0x080 => x.tvec.toNat
  | 0x084 => (tstat (s.thr t)).toNat
  | 0x085 => (s.thr t).tfp.toNat
  | 0x090 | 0x091 | 0x092 | 0x093 => (tgetD (r - 0x090) 0 x.wps).toNat
  | 0x0A0 => (tgetD (clusterOf c) 0 s.clusters).toNat
  | 0x0C0 => (s.die (dieOf c)).window
  | 0x0C1 => ((List.range 64).map fun i => if (tget i (s.die (dieOf c)).methods).isSome then 2 ^ i else 0).sum
  | 0x0E0 => (s.thr t).stopw.toNat
  | 0x100 => s.fab.dev.toNat
  | 0x101 => s.fab.timeout * 2 ^ 16 + s.fab.waitSlots * 2 ^ 8
  | 0x102 => s.fab.migbase.toNat
  | _ => 0

/-- Origin entry i freed (R198). -/
def orgFree (s : State) (c i : Nat) : State := s.modCore c fun x => { x with org := tdel i x.org }
/-- Every origin entry freed (R198). -/
def orgFreeAll (s : State) (c : Nat) : State := s.modCore c fun x => { x with org := [], orgCur := 0 }

/-- A WAKE of value v from core c (R390). -/
def wakeCore (s : State) (c v : Nat) : State :=
  let d := v % 2 ^ 10
  if dieOf d = dieOf c ∧ (s.core d).halted then s.modCore d fun x => x.ungate s.now else s

/-- A write of v to system register r by thread t: RW and W1C fields take it, WO fields act (R6, R253). -/
def sysWrite (s : State) (t : Tid) (r v : Nat) : State :=
  let c := coreOf t
  let bv := fun (n : Nat) => (BitVec.ofNat 64 n : W64)
  match r with
  | 0x040 => s.modCore c fun x => { x with schcfg := bv (keep v 31 12 + max 1 (v % 2 ^ 12)) }
  | 0x060 => rewatch (s.modCore c fun x => { x with ptbr := bv (keep v 51 16 + keep v 11 0) }) fun t => coreOf t == c
  | 0x061 => tlbInv s c (bv v)
  | 0x062 =>
    if v / 2 ^ 62 % 2 = 1 then orgFreeAll s c
    else if v / 2 ^ 63 % 2 = 1 then orgFree s c (bitsOf v 43 32) else s
  | 0x080 => s.modCore c fun x => { x with tvec := bv (keep v 63 3) }
  | 0x084 => if v / 2 ^ 20 % 2 = 1 then s.modThr t fun x => { x with uviol := false } else s
  | 0x085 => s.modThr t fun x => { x with tfp := BitVec.ofNat 32 (keep v 31 8) }
  | 0x090 | 0x091 | 0x092 | 0x093 => s.modCore c fun x => { x with wps := tset (r - 0x090) (bv (keep v 51 0)) x.wps }
  | 0x0A0 => { s with clusters := tset (clusterOf c) (bv (keep v 51 20 + v % 2 ^ 8)) s.clusters }
  | 0x0C0 => s.modDie (dieOf c) fun d => { d with window := max 1 (v % 2 ^ 8) }
  | 0x0E0 => s.modThr t fun x => { x with stopw := bv (keep v 51 2) }
  | 0x0E8 => wakeCore s c v
  | 0x101 => { s with fab := { s.fab with timeout := max 1 (bitsOf v 31 16), waitSlots := min 63 (bitsOf v 15 8) } }
  | 0x102 => { s with fab := { s.fab with migbase := bv (keep v 51 12 + v % 16) } }
  | _ => s

/-- SYSR (R253). -/
def execSysr (f : IForm) (s : State) : Out :=
  .next (runWord { cls := some 5, sup := sysReadSup f.imm.toNat } f.x false 1
    (queryOp f.d fun s t => sysRead s t f.imm.toNat) s)

def syswOp (r : Nat) (src : Src) : WordOp Val Unit where
  rdBusy s acts t := src.busy s acts t
  wrBusy _ _ := false
  rd s acts t := src.read s acts t
  eff s t ts v := match v with
    | .bad k => (recordAll (noReplay s ts) ts k, ())
    | .ok a => (sysWrite (noReplay s ts) t r a, ())
  put s _ _ := s

/-- SYSW (R253). -/
def execSysw (f : IForm) (s : State) : Out :=
  .next (runWord { cls := some 5, sup := sysWriteSup f.imm.toNat } f.x (iA f).endc (1 + crossCost [iA f])
    (syswOp f.imm.toNat (iA f)) s)

/-- TLBINV, ORGCTL and WAKE as register operations (R193, R198, R390). -/
def execTlbinv (core : Nat) (v : W64) (s : State) : Out := .next (tlbInv s core v)
def execOrgctlFree (core : Nat) (index : BitVec 12) (s : State) : Out := .next (orgFree s core index.toNat)
def execOrgctlFreeall (core : Nat) (s : State) : Out := .next (orgFreeAll s core)
def execWake (core : Nat) (v : W64) (s : State) : Out := .next (wakeCore s core v.toNat)

/-! ### HALT (R254) -/

/-- A core's clock stops with its L1 written back (R225, R254, R391). -/
def gateCore (s : State) (c : Nat) (halt : Bool) : State :=
  (writeBackAll s c false).modCore c fun x => { x with halted := x.halted || halt, gatedAt := some (x.gatedAt.getD s.now) }

/-- HALT waits for every counter of the core; the pack goes on at the header after its clause (R254). -/
def haltOp : WordOp Unit Unit where
  rdBusy s _ t := s.threads.any fun p => coreOf p.1 == coreOf t && !p.2.outst.isEmpty
  wrBusy _ _ := false
  rd s _ _ := (s, ())
  eff s t _ _ := ((gateCore s (coreOf t) true).modCur fun p => { p with widx := p.words.length - 1 }, ())
  put s _ _ := s

/-- HALT (R254). -/
def execHalt (f : RForm) (s : State) : Out := .next (runWord { cls := some 5, sup := true } f.x false 1 haltOp s)

end Sys2Proof.Machine
end

