-- ==== Sys2Proof/Machine/Save.lean ====
section
/-! DEFINITION. Pre-emption, context images and snapshots: SNAP, RBK, CTXSV, CTXLD and their events (R125, R126, R239, R255 to
R260). -/

namespace Sys2Proof.Machine

/-- The A and B operand fields of a word with their exchange codes (R37, R38). -/
def exchOf (i : Instr) : Option (Opd × Exch) × Option (Opd × Exch) :=
  match i with
  | .iadd _ _ _ f | .isub _ _ _ f | .imul _ _ f | .imulh _ _ f | .imad _ _ _ f | .idiv _ _ f | .irem _ _ f
  | .imin _ _ f | .imax _ _ f | .iabs _ _ f | .ineg _ _ f | .and_ f | .or_ f | .xor_ f | .andn f | .not_ f
  | .lut3 _ f | .shl f | .shr f | .sar f | .rot f | .bfx _ f | .bfi f | .popc f | .clz f | .ctz f | .brev f
  | .icmp _ _ f | .isel _ _ f | .movZ f | .movS f | .movx f | .movxw f | .pack _ f | .unpk _ f | .padd _ _ _ f
  | .psub _ _ _ f | .pmin _ _ f | .pmax _ _ f | .pabs _ f | .pcmp _ _ _ f | .pdot _ _ f | .fadd _ _ f | .fsub _ _ f
  | .fmul _ _ f | .ffma _ _ f | .fmin _ _ f | .fmax _ _ f | .fabs _ f | .fneg _ f | .fcmp _ _ _ f | .fdiv _ _ f
  | .fsqrt _ _ f | .frcp _ _ f | .frsq _ _ f | .fexp2 _ _ f | .flog2 _ _ f | .fscale _ _ f | .fclass _ f
  | .fcvt _ _ _ f | .icvtf _ _ _ _ f | .fcvti _ _ _ f | .cvtb8 _ _ _ _ f | .cvtb8Unsigned _ _ _ _ f | .cvtf8 _ _ f
  | .cvtf8Unsigned _ _ f | .b8dot _ _ _ f | .b8dotUnsigned _ _ _ f | .hadd2 _ f | .hmul2 _ f | .hfma2 _ f | .jmpi f
  | .calli f | .ret f | .yield f | .nop f | .stop f | .waitw f | .spawn f | .spawnn f | .join f | .leave f
  | .arrive f | .waitph f | .itempush f | .spl f | .fil f | .sread _ f | .fwait f | .ftest f | .fpass f | .fcancel f
  | .fenceAcq _ f | .fenceRel _ f | .fenceAr _ f | .icinv _ f | .icinvLine _ f | .dcwb f | .dcwbAll f | .leg _ _ f
  | .pchk f | .pclr f | .pset f | .porg _ f | .talloc _ f | .tfree f | .tquery _ f | .sload f | .sloadRing f
  | .sstore f | .scopy f | .strns _ _ _ _ f | .sring f | .sringFree f | .rpop f | .rrel f | .asl f | .qpop _ f
  | .qstat _ f | .lastld f | .mzero f | .mloadacc f | .tmov f | .tcvtB8 _ _ _ _ f | .tcvtB8Unsigned _ _ _ _ f
  | .tcvtOther _ _ _ f | .mstat _ f | .cmb _ _ f | .cmbu _ f | .cmbdef _ f | .fput f | .fget f | .fsig _ _ f
  | .rload f | .rstat _ f | .rte f | .snap f | .rbk f | .ctxsv _ f | .ctxld f | .halt f => (some (f.a, f.ax), some (f.b, f.bx))
  | .iaddImm _ _ f | .andImm f | .orImm f | .xorImm f | .andnImm f | .shlImm f | .shrImm f | .sarImm f | .rotImm f
  | .icmpImm _ _ f | .movi _ f | .movh _ f | .sleep f | .grow f | .growNb f | .shrink f | .wait _ f | .trap f
  | .sysr f | .sysw f | .brk f | .sysc f => (some (f.a, f.ax), none)
  | .ld _ _ _ f | .st _ _ f | .ldV _ _ _ f | .stV _ _ _ f | .ldp _ _ _ f | .pgreq f | .atom _ _ _ f | .sld _ _ f
  | .sst _ f | .ldm _ f => (some (f.a, f.ax), none)
  | .flushr f | .flushrA f | .fbar f | .fbarStep f | .drain f => (some (f.a, f.ax), none)
  | _ => (none, none)

/-! ### Teams by key (R101) -/

/-- The key of a team as thread t names it: its table's core and its index. -/
def teamKey (t : Tid) (h : Nat) : Nat := teamCore t h * 64 + h % 64
def teamEnt (s : State) (key : Nat) : Team := tgetD (key % 64) {} (s.core (key / 64)).teams
def inTeam (key : Nat) (p : Tid × Thread) : Bool := match p.2.team with | some h => teamKey p.1 h.toNat == key | none => false
def teamThreads (s : State) (key : Nat) : List (Tid × Thread) := s.threads.filter (inTeam key)

/-- Tiles at SCR and L2P of a team: those of its members' cores under the core's ASID, frame tiles apart. -/
def teamTiles (s : State) (key : Nat) (levels : List Nat) : List (Nat × Nat × Nat) :=
  ((teamThreads s key).map fun p => coreOf p.1).dedup.flatMap fun c =>
    (s.core c).tiles.filterMap fun e =>
      if e.2.live && levels.contains (e.1 / 256) && e.2.asid == some ((s.core c).ptbr.toNat % 4096)
        && !(e.1 / 256 == 2 && decide (248 ≤ e.1 % 256)) then some (c, e.1 / 256, e.1 % 256) else none

/-- A tile of an image or snapshot put back at core c. -/
def putTileImg (s : State) (c : Nat) (i : TileImg) : State :=
  let s := setTile s c i.level i.index i.tile
  modTile s c i.level i.index fun m => (m.clear (4 * tileAt s c i.level i.index) 65536).setWords (tileAt s c i.level i.index) i.words

/-- Free words in place of n 64-bit words whose layout the manual does not give. -/
def freeFill (s : State) (pa : Nat) : Nat → State
  | 0 => s
  | n + 1 => freeFill { (homeNum s none pa (Config.freeWord s.freeCtr).toNat 2) with freeCtr := s.freeCtr + 1 } (pa + 8) n

/-! ### SNAP and RBK (R260) -/

/-- The handle in A as the pack's lead reads it. -/
def leadHandle (f : RForm) (s : State) (acts : List Tid) : Option Nat :=
  match acts with
  | t :: _ => match (rA f).peek s acts t with
    | .val (.ok h) => some h
    | _ => none
  | [] => none

/-- The STATE check of a collective word over the whole pack: `pre` whatever its handle, then the team, then `bad` (R260). -/
def teamWordGate (f : RForm) (pre : State → List Tid → Bool) (bad : State → List Tid → Nat → Bool) : Gate where
  cls := some 5
  wait s acts _ := acts.any fun t => (rA f).busy s acts t
  bad s acts pack := (!acts.isEmpty && pre s pack) || match leadHandle f s acts with
    | some h => (pack.any fun t => (s.thr t).team != some (BitVec.ofNat 16 h) || decide (h ≥ 2 ^ 16)) || bad s pack h
    | none => false

/-- A thread's state after the word it is at, as a snapshot takes it. -/
def snapOf (s : State) (t : Tid) : Thread :=
  { (s.thr t) with pc := s.cur.next.pc, hdr := s.cur.next.hdr, carryA := none, carryB := none }

/-- SNAP of threads ts (R260). A first SNAP ends the team's valid snapshot: its slot holds the new one (DESIGN CHOICE, assumption 39). -/
def snapThreads (s : State) (t : Tid) (ts : List Tid) (h : Nat) : State :=
  if (tgetD (clusterOf (coreOf t)) 0 s.clusters).toNat % 2 ^ 8 = 0 then
    let q := raise s t cBND
    recordAll q.1 ts q.2
  else
    let key := teamKey t h
    let old := tgetD key {} s.snaps
    let have_ := if old.valid then [] else old.threads.filter fun p => !ts.contains p.1
    let n : Snap := { threads := have_ ++ ts.map fun u => (u, snapOf s u) }
    let s := { s with snaps := tset key n s.snaps }
    ts.foldl (fun s u => s.modThr u fun x => { x with hold := { x.hold with snap := some key } }) s

def snapOp (f : RForm) : WordOp Val Unit where
  rdBusy s acts t := (rA f).busy s acts t || s.cur.pack.any fun u => !(s.thr u).outst.isEmpty
  wrBusy _ _ := false
  rd s acts t := (rA f).read s acts t
  eff s t ts v := match v with
    | .bad k => (recordAll (noReplay s ts) ts k, ())
    | .ok h => (snapThreads (noReplay s ts) t ts h, ())
  put s _ _ := s

def rbkOp (f : RForm) : WordOp Val Unit where
  rdBusy s acts t := (rA f).busy s acts t
  wrBusy _ _ := false
  rd s acts t := (rA f).read s acts t
  eff s t ts v := match v with
    | .bad k => (recordAll (noReplay s ts) ts k, ())
    | .ok h => (ts.foldl (fun s u => (discardHeld s u).modThr u fun x =>
        { x with leg := none, hold := { x.hold with rbk := some (teamKey t h) } }) s, ())
  put s _ _ := s

/-- A pack whose threads wait for their team leaves its port at the next word. -/
def leavePort (s : State) : State :=
  if s.cur.pack.any fun t => (s.thr t).hold.snap.isSome || (s.thr t).hold.rbk.isSome then
    match s.iss with | some k => (endClauses s false s.cur.pack).freePort k | none => s
  else s

/-- SNAP, RBK (R260). -/
def execSnap (f : RForm) (s : State) : Out :=
  .next (leavePort (runWord (teamWordGate f (fun s pack => pack.any fun t => (s.thr t).leg.isSome) fun _ _ _ => false) f.x false
    (1 + crossCost [rA f]) (snapOp f) s))
def execRbk (f : RForm) (s : State) : Out :=
  .next (leavePort (runWord (teamWordGate f (fun _ _ => false) fun s pack h => !(tgetD (teamKey (pack.headD 0) h) {} s.snaps).valid) f.x false
    (1 + crossCost [rA f]) (rbkOp f) s))

/-- Bytes that a thread's and a tile's part of an image takes (R257), held stores apart. -/
def threadBytes (x : Thread) : Nat := 528 + x.alloc / 2
def tileBytes (p : Nat × TileImg) : Nat := 4 * (tileWordsOf false p).length

/-- The members of a team that wait for its snapshot go on. -/
def freeSnap (s : State) (key : Nat) : State :=
  { s with threads := s.threads.map fun p => if p.2.hold.snap = some key then (p.1, { p.2 with hold := { p.2.hold with snap := none } }) else p }

/-- SNAPSHOT_VALID (R260): SNAPs have covered every member. -/
def execSnapshotValid (team : Nat) (s : State) : Out :=
  .next (match tget team s.snaps with
    | none => s
    | some n =>
      if n.valid || n.threads.isEmpty || decide (n.threads.length < (teamEnt s team).members) then s
      else
        let tiles := (teamTiles s team [0, 2]).map fun p => (p.1, tileImg s p.1 p.2.1 p.2.2)
        let bytes := (n.threads.map fun p => threadBytes p.2).sum + (tiles.map tileBytes).sum
        let r := (tgetD (clusterOf (team / 64)) 0 s.clusters).toNat
        let slot := r % 2 ^ 8 * 2 ^ 20
        let s := freeSnap s team
        if bytes > slot then
          let s := { s with snaps := tdel team s.snaps }
          n.threads.foldl (fun s p => let q := raiseAt s p.1 p.2.pc cBND 0; recordDrop q.1 p.1 q.2) s
        else
          let s := freeFill s (bitsOf r 51 20 * 2 ^ 20 + (team / 64 % 8 * 64 + team % 64) * slot) (bytes / 8)
          { s with snaps := tset team { n with valid := true, tiles := tiles } s.snaps })

/-- A thread restored from its snapshot: slices, predicates, TSTAT and program counter; what lies beyond its present allocation is
not (R248, R260). -/
def restoreSnap (x n : Thread) : Thread :=
  let y : Thread := { x with
    pc := n.pc, hdr := n.hdr, slices := n.slices, tags := n.tags, preds := n.preds, drop := n.drop, uviol := n.uviol
    redun := n.redun, hdepth := n.hdepth, priv := n.priv
    seq := n.seq, seqstep := n.seqstep, ldm := none, carryA := none, carryB := none, leg := none }
  y.blank y.alloc (512 - y.alloc)

/-- ROLLBACK (R260): RBK has been issued for every member. -/
def execRollback (team : Nat) (s : State) : Out :=
  .next (match tget team s.snaps with
    | none => s
    | some n =>
      let ws := s.threads.filter fun p => p.2.hold.rbk == some team
      if !n.valid || ws.isEmpty || decide (ws.length < (teamEnt s team).members) then s
      else
        let s := ws.foldl (fun s w => s.modThr w.1 fun x =>
          let x := { x with hold := { x.hold with rbk := none } }
          match n.threads.find? fun p => p.1 == w.1 with
          | some p => restoreSnap x p.2
          | none => x) s
        n.tiles.foldl (fun s i => putTileImg s i.1 i.2) s)

/-! ### Taking a pack off its port (R125, R126) -/

/-- The finished thread whose slices thread t would have read next through a chn field (R126). -/
def carrySrc (s : State) (p : Port) (t : Tid) (fld : Option (Opd × Exch)) : Option (Tid × Opd) :=
  match fld with
  | some (o, .chn) => (chainSrc s (p.acts.getD []) t).bind fun u => if p.done.contains u then some (u, o) else none
  | _ => none

/-- The carry that thread t takes for an operand field of the word: what it would have read, with its tags and tokens (R126, R110). -/
def carryFor (s : State) (p : Port) (t : Tid) (fld : Option (Opd × Exch)) : State × Option Raw :=
  match carrySrc s p t fld with
  | none => (s, none)
  | some (u, o) =>
    if o.start.toNat + o.slices > (s.thr u).alloc then
      let q := raiseAt s t p.addr cBND (BitVec.ofNat 64 o.start.toNat)
      (q.1, some (.out q.2))
    else (s, some ((s.thr u).raw o.start.toNat o.slices))

/-- The operand fields of a port's word, and the lowest acting threads that remain of groups that a split divides. -/
def splitFields (p : Port) : Option (Opd × Exch) × Option (Opd × Exch) :=
  match decode p.word with | some i => exchOf i | none => (none, none)
def splitFirst (s : State) (p : Port) : List Tid :=
  (p.acts.getD []).filter fun t => !p.done.contains t && match chainSrc s (p.acts.getD []) t with
    | some u => p.done.contains u
    | none => false

/-- Whether the slices that a split's carries take still wait for a result, where the word's read would wait (R115, R126). -/
def carryBusy (s : State) (p : Port) : Bool :=
  let fs := splitFields p
  !isRawWord p.word && (splitFirst s p).any fun t => [fs.1, fs.2].any fun fld => match carrySrc s p t fld with
    | some (u, o) => (s.thr u).pending o.start.toNat o.slices
    | none => false

/-- A pack leaves its port at the word where it holds: threads that have finished a clause's last word have ended the clause (R35),
and the lowest remaining acting thread of a split group takes its carry (R126). -/
def splitPort (s : State) (k : Nat) : State :=
  let p := s.port k
  let fs := splitFields p
  let s := (splitFirst s p).foldl (fun s t =>
    let a := carryFor s p t fs.1
    let b := carryFor a.1 p t fs.2
    if a.2.isNone && b.2.isNone then s
    else b.1.modThr t fun x => { x with carryA := a.2, carryB := b.2, carryAt := p.addr }) s
  let s := if atLast p then endClauses s (p.hdr.getLsbD 36) p.done else s
  (endClauses s false p.pack).freePort k

/-! ### CTXSV (R255 to R258) -/

def teamSave (s : State) (key : Nat) : Option Save := s.saves.find? fun v => v.key == key && !v.done
def setSave (s : State) (v : Save) : State :=
  { s with saves := s.saves.map fun w => if w.key = v.key ∧ !w.done then v else w }

/-- Whether a thread stands at a save point (R255): off its port, or held at a word of it, between steps of an LDM (R210) and not partway
through an end-commit word (R124). -/
def atSavePoint (s : State) (t : Tid) : Bool :=
  match s.ports.find? fun p => p.2.pack.contains t with
  | none => true
  | some p =>
    p.2.trap.isNone && !carryBusy s p.2 && match p.2.acts, decode p.2.word with
      | some acts, some (.ldm _ _) =>
        p.2.busy == 0 && p.2.done.isEmpty && decide ((acts.map fun u => (s.thr u).seqstep).dedup.length ≤ 1)
      | _, _ => p.2.stall && p.2.old.isEmpty

/-- Whether a command belongs to live threads of other teams as well. -/
def sharedOut (s : State) (key : Nat) (ts : List Tid) : Bool := ts.any fun t => s.live t && !inTeam key (t, s.thr t)

/-- Work of thread t that a save waits for (R256). -/
def workOut (s : State) (key : Nat) (t : Tid) : Bool :=
  let c := coreOf t
  let x := s.core c
  x.reqs.any (fun r => r.tids.contains t) || s.fab.tags.any (fun r => r.tid == t && r.use == .store)
    || (s.thr t).outst.any (fun o => (o.cls == .c || o.cls == .f) && !o.done)
    || x.strQ.any (fun k => k.tids.contains t && (decide (k.stage = 3) || sharedOut s key k.tids))
    || x.matQ.any (fun k => k.tids.contains t && (sharedOut s key k.tids
        || (k.started && match k.op with | .loop .. => k.stopAt != some k.step | _ => true)))

/-- Whether every member of a team on core c that its save has not recorded stands at a save point. -/
def coreSettled (s : State) (v : Save) (c : Nat) : Bool :=
  (teamThreads s v.key).all fun p => coreOf p.1 != c || v.img.threads.any (fun q => q.1 == p.1) || atSavePoint s p.1

/-- The team's matrix commands stand still once the core's members are at save points: queued ones do not start any more, and a loop under
way stops at its next step boundary (R256, R335). While the queue holds a command of other teams as well, which must end first, it goes on. -/
def stopMats (s : State) (v : Save) (c : Nat) : State :=
  if (s.core c).matQ.any (fun k => k.stopAt.isNone && k.tids.any fun t => inTeam v.key (t, s.thr t)) && coreSettled s v c
      && !(s.core c).matQ.any (fun k => (k.tids.any fun t => inTeam v.key (t, s.thr t)) && sharedOut s v.key k.tids) then
    s.modCore c fun x => { x with matQ := x.matQ.map fun k =>
      if k.stopAt.isNone && k.tids.any fun t => inTeam v.key (t, s.thr t) then k.stop s c else k }
  else s

/-- A stream command as an image records it (R19, R311): it starts again, an access slice from its next element. -/
def saveStr (k : StrCmd) : StrCmd :=
  { k with stage := match k.op with | .asl _ => if k.stage = 2 then 2 else 0 | _ => 0
           slot := none, tags := [], lines := [], pages := [], toks := [], padTok := none, invTok := none
           sentAt := [] }

/-- A thread as an image records it (R255): the cycles a SLEEP has left in place of its end. -/
def saveThread (s : State) (x : Thread) : Thread :=
  { x with hold := { x.hold with frozen := false, fetch := none, rte := false, noPage := false
                                 sleep := x.hold.sleep.map fun e => e - s.now }
           forced := none }

/-- The frame area of a thread, where it can be reached. -/
def frameArea (s : State) (t : Tid) : List (Tid × List Val) :=
  let x := s.thr t
  match frameFail s t 0 0x100 with
  | some _ => []
  | none => [(t, tileWords s (coreOf t) (frameH x) (frameOff x / 4) 64)]

/-- A member's record written into the image, with the commands it shares (R256). A loop's command keeps its
next step, its operands and its scales (R335). -/
def recordMember (s : State) (v : Save) (t : Tid) : State :=
  let c := coreOf t
  let s := match s.ports.find? fun p => p.2.pack.contains t with | some p => splitPort s p.1 | none => s
  let x := s.core c
  let strs := x.strQ.filter fun k => k.tids.contains t
  let mats := x.matQ.filter fun k => k.tids.contains t
  let s := strs.foldl (fun s k => unfill s c k) s
  let ids := strs.map fun k => k.id
  let s := s.modCore c fun x => { x with
    strQ := x.strQ.filter fun k => !k.tids.contains t
    matQ := x.matQ.filter fun k => !k.tids.contains t
    growQ := x.growQ.filter fun g => g.1 != t }
  let live := s.fab.tags.filter fun r => !(r.core == c && match r.use with | .cmd id => ids.contains id | _ => false)
  let s := { s with fab := { s.fab with tags := live } }
  let img := { v.img with
    threads := v.img.threads ++ [(t, saveThread s (s.thr t))]
    frames := v.img.frames ++ frameArea s t
    held := v.img.held ++ ((s.core c).quar.filter fun h => h.tid == t)
    strs := v.img.strs ++ strs.map fun k => (c, saveStr k)
    mats := v.img.mats ++ mats.map fun k => (c, { k with started := false, stopAt := none }) }
  setSave (s.modThr t fun x => { x with hold := { x.hold with frozen := true } }) { v with img := img }

/-- The scales of a recorded loop that is under way on an accumulator tile (R335). -/
def loopScales (i : Image) (c h : Nat) : List Val :=
  (i.mats.filterMap fun k => match k.2.op with
    | .loop acc _ _ _ sa sb .. => if k.1 = c ∧ acc.toNat = h ∧ 0 < k.2.step then some (sa ++ sb) else none
    | _ => none).headD []

/-- The parts of an image in their order: threads, tiles, futures, item queue, commands; records are numbered from `no` on (R257). -/
def imgParts (i : Image) (acc : List (Nat × TileImg)) (qpos no dev : Nat) : List (List (Option Val)) :=
  let n := i.threads.length
  let f := i.futs.length
  let m := i.strs.length
  [ i.threads.zipIdx.flatMap fun p => (threadWords p.1.2
      ⟨i.entry, p.1.1, ((i.ptbrs.find? fun q => q.1 == coreOf p.1.1).map Prod.snd).getD 0, qpos, no + p.2, dev⟩
      ((i.frames.find? fun q => q.1 == p.1.1).map Prod.snd) (i.held.filter fun h => h.tid == p.1.1)).map some,
    i.tiles.flatMap (tileWordsOf false) ++ acc.flatMap (tileWordsOf true),
    i.futs.zipIdx.flatMap fun p => (futWords p.1.1 p.1.2.1 p.1.2.2 (no + n + p.2) dev).map some,
    (match i.items with | some q => q.2 | none => []).map some,
    (i.strs.zipIdx.flatMap fun p => (strWords_ p.1.1 p.1.2 (no + n + f + p.2) dev).map some)
      ++ i.mats.zipIdx.flatMap fun p => (matWords p.1.1 p.1.2 (no + n + f + m + p.2) dev).map some ]

/-- A command put where its number places it: commands are recorded in their queues' order (R335). -/
def insCmd {α : Type} (id : α → Nat) (k : Nat × α) : List (Nat × α) → List (Nat × α)
  | [] => [k]
  | q :: l => if id k.2 ≤ id q.2 then k :: q :: l else q :: insCmd id k l

/-- What those numbers stand for. -/
def imgRecs (i : Image) : List Rec :=
  i.threads.map (fun p => Rec.thread p.2 (i.held.filter fun h => h.tid == p.1)) ++ i.futs.map (fun f => Rec.fut f.2.2)
    ++ i.strs.map (fun k => Rec.str k.2) ++ i.mats.map fun k => Rec.mat k.2

/-- Bytes of the first n parts. -/
def partBytes (l : List (List (Option Val))) (n : Nat) : Nat := 4 * ((l.take n).map List.length).sum

/-- The 128 header bytes of an image as a number (R257). -/
def imgHeader (i : Image) (acc : List (Nat × TileImg)) (parts : List (List (Option Val))) (tag : Nat) : Nat :=
  let off := fun (n : Nat) => 128 + partBytes parts n
  let tiles := fun (l : Nat) => ((i.tiles ++ acc).filter fun t => t.2.level == l).length
  packNum [(32, 0x00585443), (16, 0x0100), (16, ofBool i.items.isSome + 2), (32, i.threads.length), (32, (i.threads.map fun t => t.2.xgran).sum),
    (16, i.team.toNat), (16, (i.threads.map fun t => mate t.2 t.1 0).dedup.length), (16, tiles 0), (16, tiles 1), (16, tiles 2),
    (16, i.futs.length), (32, match i.items with | some q => q.2.length | none => 0), (64, off 5), (64, tag),
    (64, off 0), (64, off 1), (64, off 2), (64, off 3), (64, off 4)]

/-- Where the records of resident tiles stand in an image. -/
def accHomes (acc : List (Nat × TileImg)) (off : Nat) : List (Nat × Nat × Nat × List Val) :=
  match acc with
  | [] => []
  | p :: l => (p.1, p.2.index, off, p.2.scales) :: accHomes l (off + tileBytes p)

/-- The future entries of recorded commands. -/
def savedFuts (s : State) (i : Image) : List (Nat × Nat × Fut) :=
  let ids := i.strs.map (fun k => (k.1, k.2.id)) ++ i.mats.map fun k => (k.1, k.2.id)
  (ids.map Prod.fst).dedup.flatMap fun c => (s.core c).fut.filterMap fun e =>
    if e.2.live && ids.contains (c, e.2.id) then some (c, e.1, e.2) else none

/-- The waiting CTXSV's end: its future completes, or its pack goes on. -/
def saveEnd (s : State) (v : Save) : State :=
  match v.cmd with
  | some id => completeCmd { s with saves := s.saves.filter fun w => w.key != v.key || w.done } v.core id none
  | none => setSave s { v with done := true, img := {} }

/-- Every member is recorded: the image is written, its header last, and the team leaves the cluster (R256 to R258). -/
def saveFinish (s : State) (v : Save) : State :=
  let r := imgPa s v.core v.ptbr v.addr
  match r.2 with
  | none => deviceFault r.1 4
  | some pa =>
    let s := r.1
    let key := v.key
    let res := teamTiles s key [1]
    let gone := teamTiles s key [0, 2]
    let img := { v.img with
      items := if v.q then some (v.core, (s.core v.core).items) else none
      tiles := gone.map fun p => (p.1, tileImg s p.1 p.2.1 p.2.2)
      strs := v.img.strs.foldr (insCmd fun k => k.id) [], mats := v.img.mats.foldr (insCmd fun k => k.id) []
      futs := savedFuts s v.img
      ptbrs := ((teamThreads s key).map fun p => coreOf p.1).dedup.map fun c => (c, (s.core c).ptbr) }
    let acc := res.map fun p =>
      let g := tileImg s p.1 p.2.1 p.2.2
      (p.1, { g with scales := loopScales img p.1 (2 ^ 11 + g.index * 8 + g.tile.gen) })
    let tag := pa / 64 + 1
    let parts := imgParts img acc (v.core % 8) s.recs.length s.fab.dev.toNat
    let home : ImgHome := { addr := v.addr, ptbr := v.ptbr, core := v.core
                            tiles := accHomes acc (128 + partBytes parts 1 + 4 * (img.tiles.flatMap (tileWordsOf false)).length) }
    let s := { s with recs := s.recs ++ (imgRecs img).zipIdx.map fun p => (s.recs.length + p.2, p.1) }
    match imgPut v.core v.ptbr (v.addr + 128) parts.flatten s with
    | none => deviceFault s 4
    | some s =>
      match imgPut v.core v.ptbr v.addr ((numWords (imgHeader img acc parts (if acc.isEmpty then 0 else tag)) 32).map some) s with
      | none => deviceFault s 4
      | some s =>
        let s := gone.foldl (fun s p => setTile s p.1 p.2.1 p.2.2 { (tileEnt s p.1 p.2.1 p.2.2) with live := false }) s
        let s := res.foldl (fun s p => setTile s p.1 p.2.1 p.2.2 { (tileEnt s p.1 p.2.1 p.2.2) with live := false, ctx := tag }) s
        let s := img.futs.foldl (fun s f => s.modCore f.1 fun x => { x with fut := tset f.2.1 { f.2.2 with live := false } x.fut }) s
        let s := if v.q then s.modCore v.core fun x => { x with items := [] } else s
        let s := img.threads.foldl (fun s p => removeThread s p.1) s
        let s := s.modCore (key / 64) fun x => { x with teams := tset (key % 64) {} x.teams }
        saveEnd { s with homes := if acc.isEmpty then tdel tag s.homes else tset tag home s.homes } v

/-- A save stops the matrix commands of cores whose members are settled; once its members are all recorded it is finished. -/
def saveStep (s : State) (key : Nat) : State :=
  match teamSave s key with
  | none => s
  | some v =>
    if (teamThreads s key).all fun p => v.img.threads.any fun q => q.1 == p.1 then saveFinish s v
    else ((teamThreads s key).map fun p => coreOf p.1).dedup.foldl (fun s c => stopMats s v c) s

/-- A save begins: every member stops at its save point. -/
def saveBegin (s : State) (t : Tid) (h : Nat) (addr : W64) (q : Bool) (cmd : Option Nat) : State :=
  let key := teamKey t h
  let v : Save := { key := key, team := BitVec.ofNat 16 h, addr := BitVec.ofNat 64 (addr.toNat / 64 * 64)
                    ptbr := (s.core (coreOf t)).ptbr, core := coreOf t, cmd := cmd, lead := t, q := q
                    img := { team := BitVec.ofNat 16 h, entry := teamEnt s key } }
  let s := { s with
    saves := s.saves ++ [v]
    threads := s.threads.map fun p => if inTeam key p then (p.1, { p.2 with hold := { p.2.hold with frozen := true } }) else p }
  saveStep s key

/-- Whether thread t can be recorded now, or its core's release has work to do (R239, R256): the members of its core are recorded together,
so that no command of one starts while another's earlier one is in the image already (R335). -/
def memberReady (s : State) (t : Tid) : Bool :=
  match (s.thr t).team with
  | none => false
  | some h =>
    let key := teamKey t h.toNat
    match teamSave s key with
    | none => false
    | some v =>
      let c := coreOf t
      !(v.img.threads.any fun p => p.1 == t) && coreSettled s v c
        && (teamThreads s key).all (fun p => coreOf p.1 != c || v.img.threads.any (fun q => q.1 == p.1) || !workOut s key p.1)
        && (((s.core (coreOf t)).l1.any fun e => e.2.dirty.isSome) || relDone s t 4)

/-- MEMBER_SAVE (R255, R256): a member at its save point, its outstanding work settled, is written into the image. -/
def execMemberSave (t : Tid) (s : State) : Out :=
  .next (if !memberReady s t then s
    else
      let s := relStart s (coreOf t) 4
      match (s.thr t).team with
      | none => s
      | some h =>
        let key := teamKey t h.toNat
        match teamSave s key with
        | some v => if relDone s t 4 then saveStep (recordMember s v t) key else s
        | none => s)

/-- CTXSV's STATE check: the team not LIVE, an invalid handle, or its own team (R258). -/
def ctxsvGate (f : RForm) : Gate where
  cls := some 5
  sup := true
  wait s acts _ := acts.any fun t => busySrcs [rA f, rB f] s acts t
  bad s acts pack := match leadHandle f s acts, acts with
    | some h, t :: _ => badHandle h || !(teamEnt s (teamKey t h)).live || pack.any fun u => (s.thr u).team == some (BitVec.ofNat 16 h)
    | _, _ => false

/-- The save that thread t waits for at its CTXSV. -/
def ownSave (s : State) (t : Tid) : Option Save := s.saves.find? fun v => v.cmd.isNone && v.lead == t

def ctxsvOp (q : Bool) (f : RForm) : WordOp (List Val) (Option Issued) where
  rdBusy s acts t := busySrcs [rA f, rB f] s acts t || (if f.r4 then futFull s (coreOf t) else
    !([rA f, rB f].any fun r => (r.peek s acts t).bad) && match ownSave s t with | some v => !v.done | none => true)
  wrBusy s t := f.r4 && (s.thr t).pending f.d.start.toNat f.d.slices
  wait s t :=
    let acts := s.cur.acts.getD []
    if f.r4 || busySrcs [rA f, rB f] s acts t || (ownSave s t).isSome then s
    else
      let r := readSrcs acts t [rA f, rB f] s
      match lowTok r.2 with
      | some _ => s
      | none => saveBegin r.1 t (arg (r.2.map Val.num) 0) (BitVec.ofNat 64 (arg (r.2.map Val.num) 1)) q none
  rd s acts t := readSrcs acts t [rA f, rB f] s
  eff s t ts vs := match lowTok vs with
    | some k => (recordAll s ts k, none)
    | none =>
      if f.r4 then
        let n := s.fresh (coreOf t)
        let h := allocFut n.1 (coreOf t) .f n.2
        (h.1, some ⟨n.2, h.2, none⟩)
      else ({ s with saves := s.saves.filter fun v => !(v.cmd.isNone && v.lead == t) }, none)
  put s ts i := match i with
    | none => s
    | some i =>
      let t := ts.headD 0
      let r := readSrcs (s.cur.acts.getD []) t [rA f, rB f] s
      let l := r.2.map Val.num
      saveBegin (putHandle r.1 ts (some f.d) i) t (arg l 0) (BitVec.ofNat 64 (arg l 1)) q (some i.id)

/-- CTXSV (R258). -/
def execCtxsv (q : Bool) (f : RForm) (s : State) : Out :=
  .next (runWord (ctxsvGate f) f.x ((rA f).endc) (1 + crossCost [rA f, rB f]) (ctxsvOp q f) s)

/-! ### CTXLD (R258) -/

/-- Header fields that the image check reads (R258): magic, version, completeness, reserved fields. -/
def headerOk (h : Nat) : Bool :=
  h % 2 ^ 32 == 0x00585443 && h / 2 ^ 32 % 2 ^ 16 == 0x0100 && h / 2 ^ 49 % 2 == 1 && h / 2 ^ 50 % 2 ^ 14 == 0
    && h / 2 ^ (8 * 0x58) % 2 ^ 320 == 0

/-- n records from an address on: the first `head` words of each say its size in words. -/
def imgRecords (s : State) (c head : Nat) (size : List Val → Nat) : Nat → W64 → Option (List (List Val))
  | 0, _ => some []
  | n + 1, va => do
    let h ← imgGet s c va head
    let w ← imgGet s c va (size h)
    let l ← imgRecords s c head size n (va + BitVec.ofNat 64 (4 * size h))
    pure (w :: l)

/-- What a record's number stands for at this device. -/
def recGet (s : State) (dev no : Nat) : Option Rec := if dev = s.fab.dev.toNat then tget no s.recs else none

/-- Whether the fixed words that a restore reads are clean. -/
def fixedClean (ws : List Val) : Bool := (firstBad (ws.take 30)).isNone && (firstBad ((ws.drop 36).take 28)).isNone

/-- The thread that a record holds, its place, held stores and frame area. -/
def readThread (s : State) (ws : List Val) : (Tid × Thread) × List Held × List (Tid × List Val) :=
  let r := recCtxOf ws
  let old : Thread × List Held := match recGet s r.dev r.no with | some (.thread x h) => (x, h) | _ => ({}, [])
  let g := threadOf old ws
  ((r.tid, g.1), g.2.1.map (fun h => { h with tid := r.tid }), match g.2.2 with | some f => [(r.tid, f)] | none => [])

/-- A loop that was under way takes back the scales that stand with its accumulator tile; queued ones have their own (R335). -/
def takeScales (tiles : List (Nat × TileImg)) (k : Nat × MatCmd) : Nat × MatCmd :=
  match k.2.op with
  | .loop acc a b off sa sb n f i h =>
    if k.2.step = 0 then k
    else match tiles.find? fun t => t.1 == k.1 && t.2.level == 1 && 2 ^ 11 + t.2.index * 8 + t.2.tile.gen == acc.toNat && !t.2.scales.isEmpty with
    | some t => if t.2.scales = sa ++ sb then k
      else (k.1, { k.2 with op := .loop acc a b off (t.2.scales.take 32) (t.2.scales.drop 32) n f i h })
    | none => k
  | _ => k

/-- The image that memory holds at an address (R257): its resident tiles' tag and what its records hold, none where the image check fails
(R258); what the check leaves open, an address that is not a multiple of 64, an image that core c cannot read or one whose records hold
poison outside data, fails it too (DESIGN CHOICE, assumption 74). Tiles are their core's address space's (R288). -/
def imageAt (s : State) (c : Nat) (va : W64) : Option (Nat × List (Nat × TileImg) × Image) := do
  let hw ← imgGet s c va 32
  let h := wordsNum hw
  if va.toNat % 64 ≠ 0 ∨ (firstBad hw).isSome ∨ !headerOk h then none
  else
    let at_ := fun (o : Nat) => va + BitVec.ofNat 64 (h / 2 ^ (8 * o) % 2 ^ 64)
    let n := fun (o b : Nat) => h / 2 ^ (8 * o) % 2 ^ (8 * b)
    let ths ← imgRecords s c 64 threadSize (n 8 4) (at_ 0x30)
    let tls ← imgRecords s c 4 tileSize (n 0x14 2 + n 0x16 2 + n 0x18 2) (at_ 0x38)
    let fts ← imgRecords s c 4 (fun _ => 4) (n 0x1A 2) (at_ 0x40)
    let its ← imgGet s c (at_ 0x48) (n 0x1C 4)
    let cmd ← imgRecords s c 16 (fun _ => 16) ((n 0x20 8 - n 0x50 8) / 64) (at_ 0x50)
    if !(ths.all fixedClean) ∨ ((tls.map fun w => w.take 4) ++ fts ++ cmd).any (fun w => (firstBad w).isSome) then none
    else
      let ts := ths.map (readThread s)
      let r := recCtxOf (ths.headD [])
      let ptbrs : List (Nat × W64) := (ths.map fun w => (coreOf (recCtxOf w).tid, (recCtxOf w).ptbr)).dedup
      let owned := fun (t : Nat × TileImg × Bool) => (t.1, { t.2.1 with tile := { t.2.1.tile with
        asid := some ((tgetD t.1 0 ptbrs).toNat % 4096) } }, t.2.2)
      let tiles := tls.map fun w => owned (tileOf w)
      let here := (tiles.filter fun t => !t.2.2).map fun t => (t.1, t.2.1)
      let found := fun (i : Nat) (w : List Val) => recGet s (recNum w (i + 1) 1) (recNum w i 1)
      pure (n 0x28 8, (tiles.filter fun t => t.2.2).map fun t => (t.1, t.2.1),
        { team := BitVec.ofNat 16 (n 0x10 2), entry := r.entry
          threads := ts.map fun t => t.1, held := ts.flatMap fun t => t.2.1, frames := ts.flatMap fun t => t.2.2
          tiles := here
          futs := fts.map fun w => match found 2 w with | some (.fut f) => futOfRec f w | _ => futOfRec { id := recNum w 2 1 } w
          items := if h / 2 ^ 48 % 2 = 1 then some (r.qpos, its) else none
          strs := (cmd.filter fun w => recBits w 0 7 0 == 0).map fun w =>
            (recBits w 0 15 8, match found 1 w with | some (.str k) => strOfRec k w | _ => strOfRec { id := recNum w 1 1, tids := cmdTids w, lead := cmdLead w } w)
          mats := (cmd.filter fun w => recBits w 0 7 0 == 1).map fun w => takeScales here
            (recBits w 0 15 8, match found 1 w with | some (.mat k) => matOfRec k w | _ => matOfRec { id := recNum w 1 1, tids := cmdTids w, lead := cmdLead w } w)
          ptbrs := ptbrs })

/-- Core c of an image's cluster seen from cluster k (R258). -/
def newCore (k c : Nat) : Nat := k * 8 + c % 8

/-- Blocks of saved threads: base thread, width group, indices and XGRAN. -/
def imgBlocks (i : Image) : List (List (Tid × Thread)) :=
  (i.threads.map fun p => mate p.2 p.1 0).dedup.map fun b => i.threads.filter fun p => mate p.2 p.1 0 == b

/-- A saved thread made ready in a new slot, its watch out of the table until its place is found there (R155, R255, R258). -/
def wakeThread (s : State) (off : Nat) (x : Thread) : Thread :=
  { x with
    pend := x.pend.map fun p => { p with id := p.id + off }
    outst := x.outst.map fun o => { o with id := o.id + off }
    hold := { x.hold with
      sleep := x.hold.sleep.map fun n => s.now + n
      watch := x.hold.watch.map fun w => { w with due := s.now, asked := false, tabled := false } }
    queues := x.queues.map fun q => (q.1, { q.2 with asl := q.2.asl + off })
    age := 0 }

/-- One block placed on its core (R89): the new places of its threads, or the failing check. -/
def placeBlock (k : Nat) (off : Nat → Nat) (r : Except Nat (State × List (Tid × Tid))) (b : List (Tid × Thread)) :
    Except Nat (State × List (Tid × Tid)) :=
  match r, b with
  | .error e, _ => .error e
  | .ok a, [] => .ok a
  | .ok (s, m), (t, x) :: _ =>
    let c := newCore k (coreOf t)
    let w := x.group
    match pickLane s c w 1 (b.map fun p => (tix p.2 p.1, p.2.xgran)) with
    | .error e => .error e
    | .ok l =>
      let base := (freeBlocks s l w).headD 0
      .ok (b.foldl (fun (a : State × List (Tid × Tid)) p =>
        let u := blockTid l base w (tix p.2 p.1)
        (a.1.setThr u (wakeThread s (off (coreOf p.1)) p.2), a.2 ++ [(p.1, u)])) (s, m))

/-- What an image's tiles find at core c of a cluster (R258, check 5): whether an entry that one needs is in use, by a tile of the core or of
another saved context, and the accumulator blocks they need beyond those in use; `acc` are its resident tiles. -/
def wantsEntry (k c : Nat) (i : Image) (acc : List (Nat × Nat × Tile)) (level index : Nat) : Bool :=
  (i.tiles.any fun t => newCore k t.1 == c && t.2.level == level && t.2.index == index)
    || (level == 1 && acc.any fun a => newCore k a.1 == c && a.1 != c && a.2.1 == index)

def lacksAcc (s : State) (k c : Nat) (i : Image) (acc : List (Nat × Nat × Tile)) : Bool :=
  let need := ((i.tiles.filter fun t => newCore k t.1 == c && t.2.level == 1).map fun t => shBlocks t.2.tile.shape).sum
    + ((acc.filter fun a => newCore k a.1 == c && a.1 != c).map fun a => shBlocks a.2.2.shape).sum
  decide (0 < need) && decide (usedAcc (s.core c) + need > 8192)

def tilesFail (s : State) (k : Nat) (i : Image) (acc : List (Nat × Nat × Tile)) : Bool :=
  (List.range 8).any fun p =>
    let c := k * 8 + p
    lacksAcc s k c i acc || (s.core c).tiles.any fun e =>
      (e.2.live || e.2.ctx != 0) && wantsEntry k c i acc (e.1 / 256) (e.1 % 256)

/-- Accumulator tiles of an image still resident at some core: core, index, entry. -/
def accTiles (s : State) (tag : Nat) : List (Nat × Nat × Tile) :=
  s.cores.flatMap fun p => (p.2.tiles.filter fun e => e.2.ctx == tag && decide (tag ≠ 0)).map fun e => (p.1, e.1 - 256, e.2)

/-- Other contexts' resident tiles leave the cores that receive tiles, one by one, as long as their entries or their space are needed
(R256). -/
def makeAcc (s : State) (k tag : Nat) (i : Image) : State :=
  (List.range 8).foldl (fun s p =>
    let c := k * 8 + p
    ((ctxTiles s c).filter fun e => e.2.ctx != tag).foldl (fun s e =>
      let acc := accTiles s tag
      if wantsEntry k c i acc 1 (e.1 % 256) || lacksAcc s k c i acc then flushTile s c e else s) s) s

/-- Whether the saved future entries are in use. -/
def futsFail (s : State) (k : Nat) (i : Image) : Bool := i.futs.any fun f => (tgetD f.2.1 {} (s.core (newCore k f.1)).fut).live

def itemsFail (s : State) (k : Nat) (i : Image) : Bool := match i.items with
  | some q => decide ((s.core (newCore k q.1)).items.length + q.2.length > 4096)
  | none => false

/-- A list of threads in their new places. -/
def moved (m : List (Tid × Tid)) (ts : List Tid) : List Tid := ts.filterMap fun t => (m.find? fun p => p.1 == t % 16384).map Prod.snd
def movedTo (m : List (Tid × Tid)) (t : Tid) : Tid := ((m.find? fun p => p.1 == t % 16384).map Prod.snd).getD t

/-- A restored watch: its lead in the new place, and a line of the core's table where one is free (R155). -/
def moveWatch (m : List (Tid × Tid)) (s : State) (t : Tid) : State :=
  let ls := watchedLines s (coreOf t)
  s.modThr t fun x => { x with hold := { x.hold with watch := x.hold.watch.map fun w =>
    { w with lead := movedTo m w.lead, tabled := w.peer == 0 && (ls.contains w.line || decide (ls.length < 64)) } } }

/-- A matrix operation with its loop numbers moved. -/
def moveOp (off : Nat) (op : MatOp) : MatOp := match op with
  | .loop a x y (.after id old) sa sb n f i h => .loop a x y (.after (id + off) old) sa sb n f i h
  | o => o

/-- A parked thread whose requests are all answered (R217). -/
def unpark (s : State) (t : Tid) : State :=
  let no := (s.thr t).hold.refused
  let first := (s.thr t).leg.bind Leg.first
  let s := s.modThr t fun x => { x with hold := { x.hold with parked := [], refused := false } }
  if no then recoverLeg s t first else replayLeg s t

/-- A restored parked thread sends its requests again; pages that have come since are answered (R255). -/
def repark (s : State) (t : Tid) : State :=
  let ps := (s.thr t).hold.parked.filter fun w => (absentPage s t (BitVec.ofNat 64 (w.page * 2 ^ 16))).isSome
  if ps.isEmpty then unpark s t
  else ps.foldl (fun s w => pageRequest s (coreOf t) w.asid w.page w.store false)
    (s.modThr t fun x => { x with hold := { x.hold with parked := ps } })

/-- What a successful check is followed by (R258): tiles, queues, futures, commands, held stores, acquires. Commands that find their queue
full wait behind it for an entry, before any new command (R14, R19). -/
def restoreRest (s : State) (k tag : Nat) (i : Image) (off : Nat → Nat) (m : List (Tid × Tid)) : State :=
  let s := (accTiles s tag).foldl (fun s a =>
    let g := { tileImg s a.1 1 a.2.1 with tile := { a.2.2 with live := true, ctx := 0 } }
    putTileImg (setTile s a.1 1 a.2.1 { a.2.2 with live := false, ctx := 0 }) (newCore k a.1) g) s
  let s := i.tiles.foldl (fun s t => putTileImg s (newCore k t.1) t.2) s
  let s := i.ptbrs.foldl (fun s p => (acquire s (newCore k p.1) 4).modCore (newCore k p.1) fun x => { x.dropLasts with ptbr := p.2, icache := [] }) s
  let s := i.futs.foldl (fun s f => s.modCore (newCore k f.1) fun x =>
    { x with fut := tset f.2.1 { f.2.2 with id := f.2.2.id + off f.1 } x.fut }) s
  let s := i.strs.foldl (fun s q => s.modCore (newCore k q.1) fun x => { x with
    strQ := x.strQ ++ [{ q.2 with id := q.2.id + off q.1, tids := moved m q.2.tids, lead := movedTo m q.2.lead
                                  pos := q.2.pos.map fun e => (movedTo m e.1, e.2) }] }) s
  let s := i.mats.foldl (fun s q => s.modCore (newCore k q.1) fun x => { x with
    matQ := x.matQ ++ [{ q.2 with id := q.2.id + off q.1, tids := moved m q.2.tids, lead := movedTo m q.2.lead
                                  op := moveOp (off q.1) q.2.op }] }) s
  let place := fun (h : Held) => match h.key with
    | .tile c l x w => { h with tid := movedTo m h.tid, key := HKey.tile (newCore k c) l x w }
    | _ => { h with tid := movedTo m h.tid }
  let s := i.held.foldl (fun s h => s.modCore (coreOf (movedTo m h.tid)) fun x => { x with quar := x.quar ++ [place h] }) s
  let s := match i.items with
    | some q => s.modCore (newCore k q.1) fun x => { x with items := x.items ++ q.2 }
    | none => s
  let s := i.frames.foldl (fun s fr =>
    let t := movedTo m fr.1
    let y := s.thr t
    match frameFail s t 0 0x100 with
    | some _ => s
    | none => setTileWords s (coreOf t) (frameH y) (frameOff y / 4) fr.2) s
  let s := m.foldl (fun s p => moveWatch m s p.2) s
  m.foldl (fun s p => if (s.thr p.2).hold.parked.isEmpty then s else repark s p.2) s

/-- CTXLD of an image at va by thread t: the status (R258). An image whose resident tiles have gone fails the image check (assumption
74). -/
def ctxld (s : State) (t : Tid) (va : W64) : State × Nat :=
  let k := clusterOf (coreOf t)
  match (imageAt s (coreOf t) va).filter fun a => a.2.1.all fun r =>
      (accTiles s a.1).any fun e => e.1 % 8 == r.1 && e.2.1 == r.2.index && e.2.2.gen == r.2.tile.gen with
  | none => (s, 1)
  | some (tag, _, i) =>
    let off := fun (c : Nat) => (s.core (newCore k c)).nextId
    let top := fun (c : Nat) => 1 + ((i.strs.filter fun q => q.1 == c).map (fun q => q.2.id) ++ (i.mats.filter fun q => q.1 == c).map (fun q => q.2.id)
      ++ (i.threads.filter fun q => coreOf q.1 == c).flatMap fun q => q.2.outst.map fun o => o.id).foldl max 0
    match (imgBlocks i).foldl (placeBlock k off) (.ok (s, [])) with
    | .error e => (s, e)
    | .ok (s1, m) =>
      let key := newCore k (bitsOf i.team.toNat 8 6) * 64 + i.team.toNat % 64
      let s2 := makeAcc s1 k tag i
      if (teamEnt s key).live then (s, 4)
      else if tilesFail s2 k i (accTiles s2 tag) then (s, 5)
      else if futsFail s k i then (s, 6)
      else if itemsFail s k i then (s, 7)
      else
        let s := restoreRest s2 k tag i off m
        let s := s.modCore (key / 64) fun x => { x with teams := tset (key % 64) i.entry x.teams }
        let s := { s with homes := tdel tag s.homes }
        ((List.range 8).foldl (fun s p => let c := k * 8 + p
          s.modCore c fun x => { x with nextId := x.nextId + ((i.threads.map fun q => coreOf q.1).dedup.filter fun d => newCore k d == c).foldl (fun n d => n + top d) 0 }) s, 0)

/-- CTXLD (R258). -/
def execCtxld (f : RForm) (s : State) : Out :=
  .next (runWord { cls := some 5, sup := true } f.x ((rA f).endc) (1 + crossCost [rA f])
    (strValOp f.d [rA f] fun s t l => ctxld s t (BitVec.ofNat 64 (arg l 0))) s)

end Sys2Proof.Machine
end

