-- ==== Sys2Proof/Machine/Vote.lean ====
section
/-! DEFINITION. The issue vote: readiness, the choice of a program counter, and the fetch of the chosen clause
(R16, R28 to R33, R92 to R99, R108, R249). -/

namespace Sys2Proof.Machine

/-- Whether a lane's pair holds a width-64 block, and so votes as one lane (R100). -/
def pairMode (s : State) (l : Nat) : Bool := s.threads.any fun p => laneKey p.1 / 2 == l / 2 && p.2.width == 4

/-- The lane that votes for lane l: the even lane of a pair in width-64 mode. -/
def voteLane (s : State) (l : Nat) : Nat := if pairMode s l then l / 2 * 2 else l

/-- The threads that vote with lane l, in ascending order (R93, R100). -/
def laneThreads (s : State) (l : Nat) : List Tid :=
  let mine := s.threads.filter fun p => voteLane s (laneKey p.1) == voteLane s l
  mine.foldl (fun a p => insThread p.1 a) []

/-- The header waits of R16. -/
def waitsMet (x : Thread) (h : W64) : Bool :=
  (!h.getLsbD 56 || decide (x.count .s ≤ bitsOf h.toNat 52 49))
    && (!h.getLsbD 55 || decide (x.count .m ≤ bitsOf h.toNat 48 45))
    && (!h.getLsbD 54 || decide (x.count .c ≤ bitsOf h.toNat 44 41))
    && (!h.getLsbD 53 || decide (x.count .f ≤ bitsOf h.toNat 40 37))

/-- Words whose clauses throttling blocks (R108). -/
def isMemWord (w : W64) : Bool :=
  let o := bitsOf w.toNat 63 56
  (decide (0x60 ≤ o) && decide (o ≤ 0x66)) || o == 0x6C

/-- What holds a thread (R92): WAITPH, SLEEP, WAITW, a page, a save, a stop. -/
def blocked (h : Hold) : Bool :=
  h.sleep.isSome || h.watch.isSome || h.phase.isSome || !h.parked.isEmpty || h.fetch.isSome || h.stopping || h.frozen
    || h.snap.isSome || h.rbk.isSome || h.resident

/-- Whether thread t issued a command that a restored context has beyond its engine's queue: it stands at that command, as a thread that the
full queue stalled does (R14, R258). -/
def behind (s : State) (t : Tid) : Bool :=
  let x := s.core (coreOf t)
  (x.matQ.drop 8).any (fun k => k.tids.contains t) || ((x.strQ.filter fun k => k.stage == 0).drop 64).any fun k => k.tids.contains t

/-- Whether thread t is ready (R92): the waits of the clause it would start are met, its first word reads nothing that is
pending, and throttling lets its words issue. -/
def ready (s : State) (t : Tid) : Bool :=
  let x := s.thr t
  let c := coreOf t
  !s.onPort t && !blocked x.hold && !behind s t
    && (x.hdr.isSome ||
      match fetchWord s c (!x.priv) x.pc with
      | (s', .word h) =>
        waitsMet x h
          && match fetchWords s' c (!x.priv) (x.pc + 8) (bitsOf h.toNat 60 57 + 1) with
            | (_, .ok ws) => !readsPending s t (ws.headD 0)
              && ((tgetD x.bin {} (s.core c).bins).allowed || !ws.any isMemWord)
            | _ => true
      | _ => true)

/-- The program counter that a vote chooses among eligible ready threads (R93): forced earliest, else the highest class,
else the lowest; with it the clause of threads that stand inside one. -/
def better (a b : Tid × Thread) : Bool :=
  match a.2.forced, b.2.forced with
  | some i, some j => decide (i < j) || (i == j && decide (a.2.pc.toNat ≤ b.2.pc.toNat))
  | some _, none => true
  | none, some _ => false
  | none, none =>
    decide (a.2.prio > b.2.prio) || (a.2.prio == b.2.prio && decide (a.2.pc.toNat ≤ b.2.pc.toNat))

def choose (s : State) : List Tid → Option (Tid × Thread)
  | [] => none
  | t :: l => match choose s l with
    | none => some (t, s.thr t)
    | some b => if better (t, s.thr t) b then some (t, s.thr t) else some b

/-- A thread that is chosen, or blocks: its age starts anew, and it leaves the forced set (R98). -/
def youthful (x : Thread) : Thread := { x with age := 0, forced := none }

/-- What a vote leaves in each thread of the lane, on a port or off (R97, R98): ages, demotions, the forced set. -/
def voteThread (n : Nat) (isReady eligible chosen : Bool) (x : Thread) : Thread :=
  let x := { x with demote := x.demote - 1 }
  if chosen || !isReady then youthful x
  else if eligible then
    let a := min 64 (x.age + 1)
    { x with age := a, forced := if a = 64 then some (x.forced.getD n) else none }
  else x

/-- The trap of a clause header, if any (R30, R33, R249). A clause resumed at a word inside it keeps its PWD, and its header is
not checked again (R125, R252). -/
def headerTrap (s : State) (pack : List Tid) (addr hdr : W64) (resumed : Bool) : Option TrapRec :=
  let r : TrapRec := { pc := addr, hdr := addr, inst := hdr }
  let pwd := bitsOf hdr.toNat 35 33
  let wps := ((s.core (coreOf (pack.headD 0))).wps).map Prod.snd
  let hit := pack.filter fun t => !(s.thr t).priv && (s.thr t).hdepth == 0
    && wps.any fun w => w.getLsbD 2 && bitsOf w.toNat 51 3 == addr.toNat / 8
  if !resumed && (decide (bitsOf hdr.toNat 63 61 ≥ 6) || decide (pwd ≥ 5) || bitsOf hdr.toNat 32 0 != 0) then some { r with cause := tILL, detail := dUNDEF }
  else if pwd != 0 && pack.any (fun t => (s.thr t).width.toNat != pwd) then some { r with cause := tILL, detail := dPLACE }
  else if !resumed && !hit.isEmpty then some { r with cause := tWATCH, addrs := hit.map fun t => (t, addr) }
  else none

/-- The chosen pack goes onto port k: its clause is fetched whole and its header checked (R28 to R33, R189). -/
def fillPort (s : State) (k : Nat) (pack : List Tid) (addr : W64) (widx : Nat) (resumed : Bool) : State :=
  let c := coreOf (pack.headD 0)
  let user := anyUser s pack
  let trapped := fun (s : State) (r : TrapRec) => s.setPort k { hdrAddr := addr, hdr := r.inst, pack := pack, trap := some r, filled := s.now }
  let block := fun (s : State) (a g : Nat) =>
    if pageRoom s c a g then
      pack.foldl (fun s t => s.modThr t fun x => { x with hold := { x.hold with fetch := some { asid := a, page := g } } })
        (pageRequest s c a g false true)
    else s
  if pack.any fun t => (s.thr t).hold.noPage && !(s.thr t).hold.rte then
    -- the host refused the page of a fetch (R189)
    trapped (pack.foldl (fun s t => s.modThr t fun x => { x with hold := { x.hold with noPage := false } }) s)
      { pc := addr, hdr := addr, cause := tPRIV }
  else
  let r := fetchWord s c user addr
  match r.2 with
  | .absent a g => block r.1 a g
  | .priv => trapped r.1 { pc := addr, hdr := addr, cause := tPRIV }
  | .word h =>
    match headerTrap r.1 pack addr h resumed with
    | some tr => trapped r.1 tr
    | none =>
      let q := fetchWords r.1 c user (addr + 8) (bitsOf h.toNat 60 57 + 1)
      match q.2 with
      | .error (.absent a g) => block q.1 a g
      | .error _ => trapped q.1 { pc := addr, hdr := addr, cause := tPRIV }
      | .ok ws =>
        let s := q.1.setPort k { hdrAddr := addr, hdr := h, words := ws, widx := widx, pack := pack, filled := q.1.now }
        pack.foldl (fun s t => s.modThr t fun x => { x with
          pc := addr + BitVec.ofNat 64 (8 * (widx + 1)), hdr := some addr }) s

/-- Whether core c's clock runs and the device is up (R221, R254, R388, R391). -/
def clocked (s : State) (c : Nat) : Bool :=
  s.host.ready && !s.host.fault && s.enabled c && !(s.core c).halted && (s.core c).gatedAt.isNone && s.host.pstate == 0

/-- Whether core c starts clauses: a checkpoint being taken holds its threads at their clause boundaries (R395). -/
def running (s : State) (c : Nat) : Bool := clocked s c && s.host.ckptReq.isNone

/-- Issue starts with port A where both ports of the lane were filled in the same cycle (R94). -/
def startA (s : State) (l : Nat) : State :=
  match tget (l * 2) s.ports, tget (l * 2 + 1) s.ports with
  | some a, some b => if a.filled = b.filled ∧ b.filled = s.now then { s with turns := tset l 0 s.turns } else s
  | _, _ => s

/-- A vote of lane l for its port A or B (R93 to R98); port A votes first where both are free. A pack issues one clause, so
threads at one program counter in different clauses form different packs (assumption 66). -/
def vote (s : State) (l : Nat) (portB : Bool) : State :=
  let l := voteLane s l
  let k := l * 2 + (if portB then 1 else 0)
  if (tget k s.ports).isSome || !running s (l / 16) || (portB && (tget (l * 2) s.ports).isNone) then s
  else
    let all := laneThreads s l
    let rd := all.filter fun t => ready s t
    if rd.isEmpty then s
    else
      let fresh := rd.filter fun t => (s.thr t).demote == 0
      let el := if fresh.isEmpty then rd else fresh
      match choose s el with
      | none => s
      | some (_, b) =>
        let pack := el.filter fun t => (s.thr t).pc == b.pc && (s.thr t).hdr == b.hdr
        let s := { s with voteCtr := s.voteCtr + 1 }
        let s := all.foldl (fun s t => s.modThr t
          (voteThread s.voteCtr (rd.contains t || (s.thr t).hold.frozen) (el.contains t) (pack.contains t))) s
        match b.hdr with
        | none => startA (fillPort s k pack b.pc 0 false) l
        | some h => startA (fillPort s k pack h ((b.pc.toNat - h.toNat) / 8 - 1) true) l

/-- The age of a thread that has blocked is 0 (R98). -/
def settleAge (s : State) (t : Tid) : State := if s.onPort t || ready s t then s else s.modThr t youthful

end Sys2Proof.Machine
end

