-- ==== Sys2Proof/Machine/Events.lean ====
section
/-! DEFINITION. Events of the thread engine, the L1 and late results (R88, R89, R93, R108, R132, R154, R155, R194, R200, R225,
R226, R232). An event that is not due leaves the state as it is. -/

namespace Sys2Proof.Machine

/-- ISSUE_VOTE (R93). -/
def execIssueVote (lane : Nat) (portB : Bool) (s : State) : Out := .next (vote s lane portB)

/-- BINTMR of a core (R90). -/
def binTimer (x : Core) : Nat := x.schcfg.toNat % 2 ^ 12

def timerOver (now : Nat) (x : Core) (b : Bin) : Bool := !b.recs.isEmpty && !b.expired && decide (b.opened + binTimer x ≤ now)
def binDue (s : State) (c i : Nat) : Bool := timerOver s.now (s.core c) (tgetD i {} (s.core c).bins)

/-- BIN_TIMER_EXPIRY (R88). -/
def execBinTimerExpiry (core bin : Nat) (s : State) : Out :=
  .next (if binDue s core bin then
      s.modCore core fun x => { x with bins := tset bin { (tgetD bin {} x.bins) with expired := true } x.bins }
    else s)

/-- PACK_PLACE (R89). -/
def execPackPlace (core : Nat) (s : State) : Out := .next ((packPlace s core).getD s)

/-! ### Throttling (R108) -/

/-- Bins with a higher score than bin i, or as high a score and a lower index. -/
def scoreRank (bs : List Bin) (i : Nat) : Nat :=
  let v := fun j => (bs.getD j {}).score
  ((List.range 16).filter fun j => decide (v j > v i) || (v j == v i && decide (j < i))).length

/-- The bins of a core at the end of an epoch. -/
def epochBins (x : Core) : List Bin :=
  let bs := (List.range 16).map fun i => tgetD i {} x.bins
  let lim := bitsOf x.schcfg.toNat 15 12
  let on := decide (lim ≠ 0) && decide ((bs.map fun b => b.score).sum ≥ bitsOf x.schcfg.toNat 31 16)
  bs.zipIdx.map fun p =>
    let ok := !on || decide (scoreRank bs p.2 < lim) || decide (p.1.left ≥ 4)
    { p.1 with allowed := ok, left := if ok then 0 else p.1.left + 1, score := p.1.score / 2 }

def epochDue (s : State) (c : Nat) : Bool := decide ((s.core c).epochAt + 4096 ≤ s.cyc c)

/-- THROTTLE_EPOCH (R108). -/
def execThrottleEpoch (core : Nat) (s : State) : Out :=
  .next (if epochDue s core then
      s.modCore core fun x => { x with bins := (epochBins x).zipIdx.map fun p => (p.2, p.1), epochAt := s.cyc core }
    else s)

/-! ### Timed waits (R154, R155), each of which wakes the device (R391) -/

/-- SLEEP_EXPIRY (R154). -/
def execSleepExpiry (t : Tid) (s : State) : Out :=
  .next (match (s.thr t).hold.sleep with
    | some e => if e ≤ s.now then (awake s).modThr t fun x => { x with hold := { x.hold with sleep := none } } else s
    | none => s)

/-- Whether a watch is re-read now: the acquire that follows a release of its threads has nothing more to wait for (R155, R232). -/
def watchNow (s : State) (t : Tid) : Bool := match (s.thr t).hold.watch with
  | some w => decide (w.due ≤ s.now) && !w.asked && !(watchMates s w).any fun u => acqBusy s u 5
  | none => false

/-- WAITW_REREAD and WAITW_TIMER (R155). -/
def execWaitwReread (t : Tid) (s : State) : Out := .next (if watchNow s t then reread (awake s) t else s)
def execWaitwTimer (t : Tid) (s : State) : Out := .next (if watchNow s t then reread (awake s) t else s)

/-! ### Late results (R132, R194, R200, R232) -/

def reqDue (s : State) (c id : Nat) (kind : ReqKind → Bool) : Option Req :=
  (s.core c).reqs.find? fun r => r.id == id && kind r.kind && decide (r.due ≤ s.now)

/-- LOAD_REPLY (R200): an ATOM's comes once its write at the home is complete (R225). -/
def execLoadReply (core id : Nat) (s : State) : Out :=
  .next (if (reqDue s core id fun k => k == .load || (k == .atom && acked s core)).isSome then finishReq s core id else s)

/-- MULTI_CYCLE_RESULT (R132). -/
def execMultiCycleResult (core id : Nat) (s : State) : Out :=
  .next (if (reqDue s core id fun k => k == .multi).isSome then finishReq s core id else s)

/-- A fill of the word returns and its store is applied to it (R194). -/
def fillReturn (s : State) (c : Nat) (r : Req) : State :=
  let s := s.modCore c fun x => { x with reqs := x.reqs.filter fun q => q.id != r.id }
  match r.kind with
  | .fill key mask v evf =>
    let s := fillWord s c key (s.thr r.lead).bin evf
    if mask = 0 then s
    else s.modCore c fun x => match tget key x.l1 with
      | some e => { x with l1 := tset key (e.store s.now mask (.ok v) evf) x.l1 }
      | none => x
  | _ => s

/-- STORE_FILL_RETURN (R194). -/
def execStoreFillReturn (core id : Nat) (s : State) : Out :=
  .next (match reqDue s core id fun k => match k with | .fill .. => true | _ => false with
    | some r => fillReturn s core r
    | none => s)

/-- The core that waits for a host store's completion. -/
def hostStoreCore (s : State) (id : Nat) : Option Nat :=
  (s.cores.find? fun p => p.2.reqs.any fun r => r.id == id && r.kind == .hostStore && decide (r.due ≤ s.now)).map Prod.fst

/-- HOST_STORE_COMPLETION (R232). -/
def execHostStoreCompletion (id : Nat) (s : State) : Out :=
  .next (match hostStoreCore s id with
    | some c => s.modCore c fun x => { x with reqs := x.reqs.filter fun r => !(r.id == id && r.kind == .hostStore) }
    | none => s)

/-! ### The L1 (R225, R226) -/

def wordOld (s : State) (e : L1Word) : Bool := match e.dirty with
  | some d => decide (d + 4096 ≤ s.now)
  | none => false

/-- WRITEBACK_TIMER (R225): with the other word of its pair, where that is dirty too (R195; assumption 71). -/
def execWritebackTimer (core key : Nat) (s : State) : Out :=
  .next (match tget key (s.core core).l1 with
    | some e => if wordOld s e then writeBackKeys s core false [key, pairOf key] else s
    | none => s)

/-- A message that a core has applied is acknowledged: peers' writes that waited for it are answered. -/
def dropMsg (s : State) (m : Msg) : State := payOwed { s with msgs := s.msgs.erase m }

def findMsg (s : State) (kind : MsgKind) (c key : Nat) : Option Msg :=
  s.msgs.find? fun m => m.kind == kind && m.core == c && m.key == key

/-- CLUSTER_INVALIDATION (R225): the word leaves where it is clean. -/
def execClusterInvalidation (core key : Nat) (s : State) : Out :=
  .next (match findMsg s .inval core key with
    | none => s
    | some m => dropMsg (s.modCore core fun x => match tget key x.l1 with
      | some e => if e.dirty.isSome then x else { x with l1 := tdel key x.l1 }
      | none => x) m)

/-- REVOKE (R225, R226): the core's ownership of the word ends. -/
def execRevoke (core key : Nat) (s : State) : Out :=
  .next (match findMsg s .revoke core key with
    | none => s
    | some m => dropMsg (s.modCore core fun x => match tget key x.l1 with
      | some e => { x with l1 := tset key { e with owned := false } x.l1 }
      | none => x) m)

end Sys2Proof.Machine
end

