-- ==== Sys2Proof/Machine/Host.lean ====
section
/-! DEFINITION. The host: its registers and memory accesses, page-request answers, launches, bring-up, reset and device-level
faults (R379 to R388, R397, R398). -/

namespace Sys2Proof.Machine

/-! ### Reset and bring-up (R381, R388, R397, R398) -/

/-- DEVCTL.RESET: everything returns to its reset value but memory and what Troham keeps in nonvolatile storage; bring-up
runs next. -/
def deviceReset (s : State) : State :=
  let h := s.host
  let keep : HostBlk :=
    { journal := h.journal, fenced := h.fenced, fencedDies := h.fencedDies, jrnclr := h.jrnclr, fwVersion := h.fwVersion
      rollback := h.rollback, update := h.update, images := h.images, powerLimit := h.powerLimit, alarm := h.alarm, vectors := h.vectors
      ecsHour := [(s.now, [])] }
  { cfg := s.cfg, now := s.now, freeCtr := s.freeCtr, agenda := s.agenda, mem := s.mem, hostMem := s.hostMem, host := keep }

/-- DEVCTL.RESET as a register operation. -/
def execDevctlReset (s : State) : Out := .next (deviceReset s)

/-- DEVCTL.JRNCLR (R398). -/
def journalClear (s : State) : State := { s with host := { s.host with jrnclr := true } }
def execDevctlJrnclr (s : State) : Out := .next (journalClear s)

/-- Units of a bring-up step, and its methods (R397, R379): images, stacks, dies, clusters and ports; the primary method and its alternates. -/
def stepUnits (step : Nat) : Nat := match step with
  | 1 => 3
  | 3 => 8
  | 4 => 8
  | 5 => 96
  | 7 => 8
  | _ => 1
def stepMethods (step : Nat) : Nat := match step with
  | 1 => 2
  | 3 => 2
  | 4 => 2
  | 9 => 3
  | _ => 1

/-- Whether the journal's last attempt of a step's primary method on a unit failed (R398). -/
def primaryFailed (l : List JLine) (step unit : Nat) : Bool :=
  match (l.filter fun j => j.step == step && j.unit_ == unit && j.method == 0).getLast? with
  | some j => !j.ok
  | none => false

/-- A unit's methods in the order in which this start tries them: alternates first where the primary one failed (R398). -/
def methodOrder (l : List JLine) (step unit : Nat) : List Nat :=
  let ms := List.range (stepMethods step)
  if primaryFailed l step unit then ms.drop 1 ++ ms.take 1 else ms

/-- The journal's lines of one unit: every attempt down to the first that succeeds (R397). -/
def attempts (fails : List Attempt) (step unit : Nat) : List Nat → List JLine
  | [] => []
  | m :: ms =>
    if fails.contains ⟨step, unit, m⟩ then ⟨step, unit, m, false⟩ :: attempts fails step unit ms else [⟨step, unit, m, true⟩]

/-- A start as far as it has come: Troham's block, the ports that are down, and the steps that failed. -/
structure Boot where
  h : HostBlk := {}
  down : List Nat := []
  failed : List Nat := []
  deriving DecidableEq, Repr

/-- The image that Troham boots for a unit of step 1: an update stands in place of its own firmware (R399). -/
def imageOf (h : HostBlk) (unit method : Nat) : List Byte :=
  if unit = 0 ∧ method = 0 then h.update.getD (Config.bootImage 0) else Config.bootImage (unit + 3 * method)

/-- What the failure of a unit's every method does (R397). -/
def bootFail (b : Boot) (step unit : Nat) : Boot :=
  let b := { b with failed := natIns step b.failed }
  let fence := fun (cs : List Nat) => cs.foldl (fun l c => natIns c l) b.h.fenced
  match step with
  | 3 | 4 => { b with h := { b.h with fencedDies := natIns unit b.h.fencedDies, fenced := fence ((List.range 12).map fun i => 12 * unit + i) } }
  | 5 => { b with h := { b.h with fenced := fence [unit] } }
  | 7 => { b with down := b.down ++ [unit] }
  | _ => { b with h := { b.h with stopped := true } }

/-- What the success of a method does: a verified image is measured (R399), and a trained link reports its rate (R379). -/
def bootDone (b : Boot) (step unit method : Nat) : Boot :=
  match step with
  | 1 => { b with h := { b.h with images := b.h.images ++ [Config.sha3 (imageOf b.h unit method)] } }
  | 9 => { b with h := { b.h with linkRate := [64, 32, 16].getD method 0 } }
  | _ => b

/-- Whether a unit is absent: it stays fenced without a retry (R398). -/
def fencedUnit (h : HostBlk) (step unit : Nat) : Bool := match step with
  | 3 => h.fencedDies.contains unit
  | 4 => h.fencedDies.contains unit
  | 5 => h.fenced.contains unit
  | _ => false

/-- One unit of a step, unless the start has stopped. -/
def bootUnit (fails : List Attempt) (old : List JLine) (step : Nat) (b : Boot) (unit : Nat) : Boot :=
  if b.h.stopped || fencedUnit b.h step unit then b
  else
    let ls := attempts fails step unit (methodOrder old step unit)
    let b := { b with h := { b.h with journal := b.h.journal ++ ls } }
    match ls.find? fun j => j.ok with
    | some j => bootDone b step unit j.method
    | none => bootFail b step unit

/-- Every step in order (R397); JRNCLR leaves the journal's failures and fences out of account (R398). -/
def boot (s : State) (r : BringUp) : Boot :=
  let h := s.host
  let old := if h.jrnclr then [] else h.journal
  let h := { h with fenced := if h.jrnclr then [] else h.fenced, fencedDies := if h.jrnclr then [] else h.fencedDies, images := [] }
  (List.range 9).foldl (fun b i => (List.range (stepUnits (i + 1))).foldl (bootUnit r.fails old (i + 1)) b) { h := h }

/-- The resident dispatcher's threads of one core: lane 15, slots 96 to 127, team entry 63 (R385). -/
def dispThreads (s : State) (c : Nat) : List (Tid × Thread) :=
  let h : BitVec 16 := BitVec.ofNat 16 (c % 8 * 64 + 63)
  (List.range 32).map fun i =>
    let t := c * 2048 + 15 * 128 + 96 + i
    (t, { pc := BitVec.ofNat 64 s.cfg.dispatchEntry, priv := true, tfp := defaultTfp t, team := some h, hold := { resident := true } })

/-- The dispatchers start on every enabled core, which leaves reset with that: its cycle count begins (R117). No other thread is there yet. -/
def startDispatchers (s : State) : State :=
  let cs := (List.range 768).filter fun c => s.enabled c
  { s with
    threads := cs.flatMap (dispThreads s)
    cores := cs.map fun c => (c, { (s.core c) with teams := tset 63 ⟨true, 32, 0, 0⟩ (s.core c).teams, idleAt := s.now, gatedFor := s.now }) }

/-- BRING_UP (R397): the steps with the outcome the world gives them. A cluster's snapshot regions lie together in SNAPBASE's region
(R394); the other reserved regions stand at their places in Config. -/
def bringUp (s : State) (r : BringUp) : State :=
  if s.host.ready || s.host.fault || s.host.stopped then s
  else
    let b := boot s r
    let h := { b.h with failSteps := b.failed.length, jrnclr := false }
    if h.stopped then { s with host := h }
    else
      let h := { h with
        ready := true, cores := 8 * (96 - h.fenced.length)
        launchBase := BitVec.ofNat 64 s.cfg.launchBase, prqBase := BitVec.ofNat 64 s.cfg.prqBase, flogBase := BitVec.ofNat 64 s.cfg.flogBase
        lastAccess := s.now, ckptLast := s.now }
      let down := BitVec.ofNat 8 ((b.down.map fun p => 2 ^ p).sum)
      let dev := if r.device = 0 then 1 else r.device
      let clusters := (List.range 96).map fun k => (k, (BitVec.ofNat 64 ((s.cfg.snapBase / 2 ^ 20 + 512 * k) * 2 ^ 20 + 1) : W64))
      let s := { s with host := h, fab := { s.fab with dev := dev, down := down }, clusters := clusters }
      startDispatchers s

def execBringUp (r : BringUp) (s : State) : Out := .next (bringUp s r)

/-- DEVICE_LEVEL_FAULT (R221, R388): causes 1 to 4. -/
def execDeviceLevelFault (cause : BitVec 4) (s : State) : Out :=
  .next (if s.host.ready && !s.host.fault && decide (1 ≤ cause.toNat) && decide (cause.toNat ≤ 4) then deviceFault s cause.toNat else s)

/-! ### The host register block (R381) -/

/-- What a host read of the register at an offset gives. -/
def hostReg (s : State) (off : Nat) : Nat :=
  let h := s.host
  match off with
  | 0x000 => (if h.ready then 1 else 0) + (if h.fault then 2 else 0) + h.fcause % 16 * 2 ^ 4 + h.failSteps % 256 * 2 ^ 24 + h.cores % 1024 * 2 ^ 32
  | 0x010 => h.launchBase.toNat
  | 0x018 => h.prqBase.toNat
  | 0x020 => h.flogBase.toNat
  | 0x028 => h.lattol
  | 0x030 => h.pstate
  | 0x038 => (if h.ckptEn then 1 else 0) + (if h.stepMode then 2 else 0) + (if h.overflow then 8 else 0) + h.period * 2 ^ 32
  | 0x040 => h.ckptBase.toNat
  | 0x048 => h.ckptRoot.toNat
  | 0x050 => h.ckptSeq.toNat
  | _ =>
    if 0x100 ≤ off ∧ off < 0x140 ∧ off % 8 = 0 then
      let e := tgetD ((off - 0x100) / 8) (0, 0) h.ecs
      e.2 % 2 ^ 32 + e.1 % 2 ^ 32 * 2 ^ 32
    else 0

/-- A checkpoint becomes due at once (R395). -/
def ckptNow (s : State) : State :=
  if s.host.ckptEn && s.host.ckptBase.toNat % 256 != 0 then { s with host := { s.host with ckptDue := true } } else s
def execCkptctlNow (s : State) : Out := .next (ckptNow s)

/-- A host write of v to the register at an offset. -/
def hostRegWrite (s : State) (off v : Nat) : State :=
  let h := s.host
  match off with
  | 0x008 =>
    let s := if v / 2 % 2 = 1 then journalClear s else s
    if v % 2 = 1 then deviceReset s else s
  | 0x028 => { s with host := { h with lattol := v % 2 ^ 32 } }
  | 0x038 =>
    let s := { s with host := { h with
      period := v / 2 ^ 32 % 2 ^ 32, stepMode := v / 2 % 2 == 1, ckptEn := v % 2 == 1, overflow := h.overflow && v / 8 % 2 == 0 } }
    if v / 4 % 2 = 1 then ckptNow s else s
  | 0x040 => { s with host := { h with ckptBase := BitVec.ofNat 64 (keep v 51 20 + v % 256) } }
  | 0x048 => { s with host := { h with ckptRoot := BitVec.ofNat 64 v } }
  | _ => s

/-- REGISTER_WRITE (R6, R381): a system register as thread `who` reaches it, or a register of the host block, which wakes the
device first. -/
def execRegisterWrite (space : RegSpace) (who : Tid) (reg : BitVec 12) (v : W64) (s : State) : Out :=
  .next (match space with
    | .system => sysWrite s who reg.toNat v.toNat
    | .host => hostRegWrite { (awake s) with host := { (awake s).host with lastAccess := s.now } } reg.toNat v.toNat)

/-! ### Page-request answers (R189, R217, R387) -/

/-- What an answer does to one thread that waits for the page. -/
def answerThread (w : PageWait) (refused : Bool) (h : Hold) : Hold :=
  let h := if h.fetch.any w.same then { h with fetch := none, noPage := h.noPage || refused, rte := h.rte && refused } else h
  if h.parked.any w.same then { h with parked := h.parked.filter fun p => !w.same p, refused := h.refused || refused } else h

/-- A pending entry is answered: every requester of the die, then STATUS 0. -/
def answerPage (s : State) (d e : Nat) (refused : Bool) : State :=
  match tget e (s.die d).pages with
  | none => s
  | some p =>
    let w : PageWait := { asid := p.asid, page := p.page }
    let hit := (s.threads.filter fun q => dieOf (coreOf q.1) == d && q.2.hold.parked.any w.same).map Prod.fst
    let s := { s with threads := s.threads.map fun q => if dieOf (coreOf q.1) = d then (q.1, { q.2 with hold := answerThread w refused q.2.hold }) else q }
    let s := hit.foldl (fun s t => if (s.thr t).hold.parked.isEmpty then unpark s t else s) s
    let s := homeNum s none (s.host.prqBase.toNat + 8192 * d + 32 * e + 16) 0 1
    awake (s.modDie d fun x => { x with pages := tdel e x.pages })

/-- PAGE_REQUEST_ANSWER (R387): the host writes STATUS 2 or 3 and the device answers. -/
def execPageRequestAnswer (die entry : Nat) (refused : Bool) (s : State) : Out :=
  .next (match tget entry (s.die die).pages with
    | none => s
    | some _ =>
      answerPage (homeNum s none (s.host.prqBase.toNat + 8192 * die + 32 * entry + 16) (if refused then 3 else 2) 1) die entry refused)

/-! ### Host accesses to device memory (R380) -/

/-- The ring entry whose STATUS word an address lies in. -/
def statusEntry (s : State) (pa : Nat) : Option (Nat × Nat) :=
  let b := s.host.prqBase.toNat
  let o := pa - b
  if pa < b ∨ 8 * 8192 ≤ o ∨ o % 32 / 4 ≠ 4 then none else some (o / 8192, o % 8192 / 32)

/-- The host writes at the home of a word; its own cached copy needs no back-invalidation. -/
def hostStore (s : State) (pa nb : Nat) (v : Nat) : State :=
  let lines := s.host.hostLines
  let s := { s with host := { s.host with hostLines := [] } }
  let s := if nb = 64 then homeNum s none pa v 2 else homeStore s none pa nb (.ok (v % 2 ^ nb))
  { s with host := { s.host with hostLines := lines } }

/-- The regions that the decoder leaves out (R379): what bring-up reserves for the device alone. The launch area, the page-request rings and
the fault log are reserved too, and are the host's to read and write (R383, R387, R389; DEDUCED, assumption 13). -/
def keptBack (s : State) (pa : Nat) : Bool :=
  let mib := 2 ^ 20
  [(s.cfg.snapBase, 96 * 512 * mib), (s.cfg.tileBase, 768 * 32 * mib), (s.cfg.spillBase, 768 * 16 * mib), (s.cfg.relayBase, 512 * mib)].any
    fun r => decide (r.1 ≤ pa) && decide (pa < r.1 + r.2)

/-- An address the host reaches: device memory, 512 GB in powers of ten, but for the reserved regions (R4, R379). -/
def hostReaches (s : State) (pa bytes : Nat) : Bool :=
  decide (pa % bytes = 0) && decide (pa + bytes ≤ 512 * 10 ^ 9) && !isHost s pa && !keptBack s pa

/-- HOST_WRITE (R380); a write of STATUS 2 or 3 answers a page request (R387). -/
def execHostWrite (pa : Nat) (size : BitVec 2) (v : W64) (s : State) : Out :=
  .next (
    let nb := 8 * 2 ^ size.toNat
    if !hostReaches s pa (nb / 8) then s
    else
      let s := awake s
      let s := hostStore { s with host := { s.host with lastAccess := s.now } } pa nb v.toNat
      match statusEntry s pa with
      | some (d, e) =>
        let v := (homeRead s (pa / 4) 1).getD 0
        if v = 2 then answerPage s d e false else if v = 3 then answerPage s d e true else s
      | none => s)

/-- HOST_READ (R380): the value goes to the host, which caches the line. -/
def execHostRead (pa : Nat) (size : BitVec 2) (s : State) : Out :=
  .next (
    let nb := 8 * 2 ^ size.toNat
    if !hostReaches s pa (nb / 8) then s
    else
      let ws := (List.range (if nb = 64 then 2 else 1)).map fun i => homeWord s (pa / 4 + i)
      let v : Val := match firstBad ws with
        | some k => .bad k
        | none => .ok (wordsNum ws / 2 ^ (8 * (pa % 4)) % 2 ^ nb)
      let s := awake s
      { s with host := { s.host with read := some v, lastAccess := s.now, hostLines := natIns (pa / 64) s.host.hostLines } })

/-- BACK_INVALIDATE_ACK (R380). -/
def execBackInvalidateAck (line : Nat) (s : State) : Out :=
  .next (payOwed { s with host := { s.host with
    backInval := s.host.backInval.filter fun b => b.1 != line, hostLines := natDel line s.host.hostLines } })

/-! ### Launches (R383 to R386) -/

/-- Byte address of die d's ring slot for index k. -/
def recAddr (s : State) (d k : Nat) : Nat := s.host.launchBase.toNat + 0x1000 + 0x10000 * d + 64 * (k % 1024)

/-- A record as a 512-bit number, none while a word of it is poisoned. -/
def launchRec (s : State) (d k : Nat) : Option Nat := homeRead s (recAddr s d k / 4) 16

/-- A field of n bytes at offset o. -/
def recField (r o n : Nat) : Nat := r / 2 ^ (8 * o) % 2 ^ (8 * n)

/-- Die d's producer cursor. -/
def prodCursor (s : State) (d : Nat) : Nat := (homeRead s ((s.host.launchBase.toNat + 64 * d) / 4) 2).getD 0

/-- Enabled cores of a die. -/
def dieCores (s : State) (d : Nat) : List Nat := ((List.range 96).map fun i => 96 * d + i).filter fun c => s.enabled c

/-- R385's check of fields, SEQ and TEAM. -/
def recBad (r k : Nat) : Bool :=
  let th := recField r 0x1C 2
  let tm := recField r 0x1E 2
  let cp := recField r 0x20 1
  recField r 0x24 4 != k % 2 ^ 32 || th == 0 || decide (th > 2048) || (tm != 0 && tm != th) || cp == 0 || decide (cp > 96)
    || recField r 0x21 1 / 128 == 1 || decide (recField r 0x22 1 > 3) || recField r 0x23 1 != 0

/-- The dispatcher thread that acts on core c. -/
def dispThread (c : Nat) : Tid := c * 2048 + 15 * 128 + 96

/-- The entry word of a record, read in the record's own address space; one that cannot be read declares nothing. -/
def recEntry (s : State) (c r : Nat) : Nat :=
  let ea : W64 := BitVec.ofNat 64 (recField r 0 8 / 8 * 8) - 8
  match (translate s c (spaceOf (BitVec.ofNat 64 (recField r 0x10 8))) false .load ea).2 with
  | .ok p => if p.peer ≠ 0 then 0 else (homeRead s (p.pa / 4) 2).getD 0
  | _ => 0

/-- The thread record of a copy's SPAWNN (R385, R91). -/
def copyRec (w r args stopw : Nat) : SpawnRec :=
  let f := entryFields w
  let fl := recField r 0x21 1
  { entry := BitVec.ofNat 64 (recField r 0 8 / 8 * 8), width := f.1, prio := if fl / 8 % 2 = 1 then fl % 8 else f.2.1, xgran := f.2.2
    s8 := recField r 0x1C 2, s16 := args, stopw := BitVec.ofNat 64 stopw, redun := fl / 16 % 2 == 1 }

/-- Packs of a copy placed one after another on a core (R88, R89): whether all fit. -/
def packsFit (s : State) (c : Nat) (r : SpawnRec) (per : Nat) : Nat → Nat → Bool
  | 0, n => n == 0
  | fuel + 1, n =>
    if n = 0 then true
    else match placeRecs s c 0 (List.replicate (min per n) r) with
      | none => false
      | some s' => packsFit s' c r per fuel (n - per)

/-- Whether one copy fits on a core that holds no user thread (R385). -/
def copyFits (s : State) (c : Nat) (r : Nat) : Bool :=
  let x := copyRec (recEntry s c r) r 0 0
  let s := { s with threads := s.threads.filter fun p => p.2.hold.resident }
  packsFit s c x (if x.width = 4 then 64 else 32) 64 (recField r 0x1C 2)

/-- A record finished without running: its status, vector 3 if asked for, and the cursor. -/
def refuseRec (s : State) (d k r status : Nat) : State :=
  let s := homeNum s none (recAddr s d k + 0x34) status 1
  let s := homeNum s none (s.host.launchBase.toNat + 64 * d + 8) (k + 1) 2
  let s := s.modDie d fun x => { x with disp := { x.disp with next := k + 1, hand := none } }
  if recField r 0x21 1 / 32 % 2 = 1 then raiseVector s 3 else s

/-- Whether die d's dispatcher can take a record (R385). -/
def recReady (s : State) (d : Nat) : Bool :=
  let p := (s.die d).disp
  s.host.ready && !s.host.fault && decide (d < 8) && !(dieCores s d).isEmpty && p.hand.isNone && decide (p.next < prodCursor s d)
    && (launchRec s d p.next).isSome

/-- LAUNCH_RECORD (R385, step 1). -/
def execLaunchRecord (die : Nat) (s : State) : Out :=
  .next (if !recReady s die then s
    else
      let k := (s.die die).disp.next
      match launchRec s die k with
      | none => s
      | some r =>
        if recBad r k then refuseRec s die k r 3
        else if recField r 0x20 1 > (dieCores s die).length ∨ !copyFits s ((dieCores s die).headD 0) r then refuseRec s die k r 4
        else s.modDie die fun x => { x with disp := { x.disp with hand := some k, started := false, copy := 0, job := none } })

/-- Whether a dependence is met (R385, step 2). -/
def depMet (s : State) (w : Nat) : Bool :=
  match launchRec s (w / 2 ^ 29) (w % 2 ^ 29) with
  | none => false
  | some r => recField r 0x24 4 % 2 ^ 29 != w % 2 ^ 29 || (decide (2 ≤ recField r 0x34 4) && decide (recField r 0x34 4 ≤ 5))

/-- The record in the dispatcher's hand. -/
def handRec (s : State) (d : Nat) : Option (Nat × Nat) := (s.die d).disp.hand.bind fun k => (launchRec s d k).map fun r => (k, r)

def startReady (s : State) (d : Nat) : Bool :=
  !(s.die d).disp.started && match handRec s d with
    | some (_, r) => (List.range (recField r 0x22 1)).all fun i => depMet s (recField r (0x28 + 4 * i) 4)
    | none => false

/-- Cores of n copies: enabled cores in ascending order from the one after the last copy's, wrapping (R385, step 3). -/
def copyCores (s : State) (d n : Nat) : List Nat :=
  let cs := dieCores s d
  let l := (s.die d).disp.lastCore
  let later := cs.filter fun c => match l with | some m => decide (m < c) | none => true
  ((later ++ cs.filter fun c => !later.contains c)).take n

/-- LAUNCH_START (R385, steps 2 and 3). -/
def execLaunchStart (die : Nat) (s : State) : Out :=
  .next (if !startReady s die then s
    else match handRec s die with
      | none => s
      | some (k, r) =>
        let a := recAddr s die k
        let s := homeNum s none (a + 0x38) (recField r 0x1C 2 * recField r 0x20 1) 1
        let s := homeNum s none (a + 0x3C) 0 1
        let s := homeNum s none (a + 0x34) 1 1
        let cs := copyCores s die (recField r 0x20 1)
        s.modDie die fun x => { x with disp := { x.disp with started := true, copy := 0, cores := cs, lastCore := cs.getLast?.or x.disp.lastCore } })

/-- A store by the dispatcher's thread to the copy's argument block. -/
def dispStore (s : State) (t : Tid) (va : W64) (bits v : Nat) : State := storeAt s t [t] va bits (numWords v 1) false false

/-- Records of a job put into the bins of core c until one finds no room. -/
def pushRecs (c : Nat) : Nat → State → SpawnJob → State × SpawnJob
  | 0, s, j => (s, j)
  | n + 1, s, j =>
    if j.next ≥ j.count then (s, j)
    else match putRecord s c { j.rec_ with s0 := j.next } with
      | none => (s, j)
      | some s' => pushRecs c n s' { j with next := j.next + 1 }

/-- The lowest of team entries 0 to 62 of core c that is not LIVE (R385, step 4). -/
def teamFree (s : State) (c : Nat) : Option Nat := (List.range 63).find? fun e => !(tgetD e {} (s.core c).teams).live

/-- Whether core c can take the copy (R385, step 4): its dispatcher thread runs there, so the core must not be halted (R254); records that
wait in its bins are threads to come of an earlier copy. -/
def coreFree (s : State) (c : Nat) (ptbr : Nat) : Bool :=
  !(s.core c).halted && (((s.core c).ptbr.toNat == ptbr)
    || !(s.threads.any fun p => coreOf p.1 == c && !p.2.hold.resident) && (s.core c).bins.all fun b => b.2.recs.isEmpty)

/-- The copy's core is set up: PTBR, the team's handle, the release begun, code made executable, and its SPAWNN's record (R385, step 4). -/
def setupCopy (s : State) (d k r c i : Nat) : State × SpawnJob :=
  let t := dispThread c
  let args := recField r 8 8 + i * recField r 0x18 4
  let s := sysWrite s t 0x060 (recField r 0x10 8)
  let s := if recField r 0x1E 2 = 0 then s
    else match teamFree s c with
      | some e => dispStore (dispStore s t (BitVec.ofNat 64 args) 16 (c % 8 * 64 + e)) t (BitVec.ofNat 64 (args + 8)) 32 0
      | none => s
  let s := relStart s c 5
  let s := if i = 0 ∧ recField r 0x21 1 / 64 % 2 = 1 then dropCode s c 4 none else s
  match readEntry s t (BitVec.ofNat 64 (recField r 0 8 / 8 * 8)) with
  | (s, .error b) => (recordDrop s t b, {})
  | (s, .ok w) => (s, { rec_ := copyRec w r args (recAddr s d k + 0x38), count := recField r 0x1C 2, batch := true })

/-- The copy's SPAWNN as far as it gets: it begins once the release is complete (R232, R385). -/
def goCopy (c : Nat) (a : State × SpawnJob) : State × SpawnJob :=
  if 0 < a.2.next then pushRecs c 2048 a.1 a.2
  else if relDone a.1 (dispThread c) 5 then pushRecs c 2048 (relEnd a.1 c 5) a.2
  else a

/-- After a copy's last record has entered a bin: the next copy, or the cursor (R385, step 5). -/
def copyDone (s : State) (d k r : Nat) : State :=
  let i := (s.die d).disp.copy + 1
  if i < recField r 0x20 1 then s.modDie d fun x => { x with disp := { x.disp with copy := i, job := none } }
  else
    let s := homeNum s none (s.host.launchBase.toNat + 64 * d + 8) (k + 1) 2
    s.modDie d fun x => { x with disp := { x.disp with next := k + 1, hand := none, started := false, copy := 0, cores := [], job := none } }

/-- Whether the dispatcher's present copy can go on: its core is free for it and has a team entry where the record asks for one, or its
release is complete and a bin takes its next record. -/
def copyReady (s : State) (d : Nat) : Bool :=
  let p := (s.die d).disp
  p.started && match handRec s d with
    | none => false
    | some (_, r) => match p.job with
      | some (c, j) =>
        decide (j.next ≥ j.count) || ((decide (0 < j.next) || relDone s (dispThread c) 5) && (binFor s c j.rec_.entry).isSome)
      | none => (recField r 0x1E 2 == 0 || (teamFree s (p.cores.getD p.copy 0)).isSome) && coreFree s (p.cores.getD p.copy 0) (keep (recField r 0x10 8) 51 16 + recField r 0x10 8 % 2 ^ 12)

/-- LAUNCH_COPY (R385, steps 4 and 5). -/
def execLaunchCopy (die : Nat) (s : State) : Out :=
  .next (if !copyReady s die then s
    else match handRec s die with
      | none => s
      | some (k, r) =>
        let p := (s.die die).disp
        let c := match p.job with | some (c, _) => c | none => p.cores.getD p.copy 0
        let a := match p.job with | some (_, j) => (s, j) | none => setupCopy s die k r c p.copy
        let b := goCopy c a
        if b.2.next ≥ b.2.count then copyDone b.1 die k r
        else b.1.modDie die fun x => { x with disp := { x.disp with job := some (c, b.2) } })

end Sys2Proof.Machine
end

