-- ==== Sys2Proof/Machine/Power.lean ====
section
/-! DEFINITION. Troham: power states, alarms, error counts, checkpoints, telemetry, attestation and firmware (R27, R332, R379,
R391 to R396, R399). -/

namespace Sys2Proof.Machine

/-! ### Power states (R391) -/

/-- Cycles of one millisecond and of one hour at 1.05 GHz. -/
def msCycles : Nat := 1050000
def hourCycles : Nat := 3600000 * msCycles

/-- Whether core c has a thread that is ready or on a port. -/
def busyCore (s : State) (c : Nat) : Bool :=
  s.threads.any fun p => coreOf p.1 == c && (s.onPort p.1 || ready s p.1)

def gateDue (s : State) (c : Nat) : Bool :=
  s.host.ready && s.enabled c && (s.core c).gatedAt.isNone
    && ((s.core c).halted || (decide ((s.core c).idleAt + 1024 ≤ s.now) && !busyCore s c))

/-- CORE_CLOCK_GATE. -/
def execCoreClockGate (core : Nat) (s : State) : Out := .next (if gateDue s core then gateCore s core false else s)

/-- The condition common to states 1 and 2: every enabled core gated, no fabric command outstanding. -/
def allGated (s : State) : Bool :=
  s.host.ready && !s.host.fault && (List.range 768).all fun c => !s.enabled c || ((s.core c).gatedAt.isSome && (s.core c).fabQ.isEmpty)

/-- What is lost on entry to state 1: L1 contents once written home, and every cache. -/
def dropCaches (s : State) : State :=
  let s := (s.cores.map Prod.fst).foldl (fun s c => writeBackAll s c false) s
  { s with cores := s.cores.map fun p => (p.1, { p.2 with l1 := [], icache := [], tlb := [], lasts := [] })
           dies := s.dies.map fun p => (p.1, { p.2 with cache := [] }) }

def sramDue (s : State) : Bool := s.host.pstate == 0 && allGated s && decide (20000 ≤ s.host.lattol)
def hbmDue (s : State) : Bool :=
  decide (s.host.pstate < 2) && allGated s && decide (200000 ≤ s.host.lattol) && decide (s.host.lastAccess + msCycles ≤ s.now)

/-- The device enters idle state n. -/
def enterState (s : State) (n : Nat) : State :=
  let s := dropCaches s
  { s with host := { s.host with pstate := n } }

/-- SRAM_RETENTION_ENTRY and HBM_SELF_REFRESH_ENTRY. -/
def execSramRetentionEntry (s : State) : Out := .next (if sramDue s then enterState s 1 else s)
def execHbmSelfRefreshEntry (s : State) : Out := .next (if hbmDue s then enterState s 2 else s)

/-- What a wake event wakes. -/
def wake (s : State) (w : Wake) : State :=
  let s := awake s
  match w with
  | .hostAccess => { s with host := { s.host with lastAccess := s.now } }
  | .wakeWrite c | .watchedLine c => if (s.core c).gatedAt.isSome then s.modCore c fun x => x.ungate s.now else s
  | .flit | .timer | .pageAnswer | .troham => s

/-- WAKE_EVENT. -/
def execWakeEvent (w : Wake) (s : State) : Out := .next (wake s w)

/-! ### Troham's events (R27, R332, R382, R393) -/

/-- A Troham event: vector 5, and the device wakes (R382, R391). -/
def trohamEvent (s : State) : State := raiseVector (awake s) 5

/-- POWER_ALARM (R332): raised where it is clear and cleared where it is raised; the sequencers change mode at their next K-step. -/
def execPowerAlarm (s : State) : Out := .next (trohamEvent { s with host := { s.host with alarm := !s.host.alarm } })

/-- TEMPERATURE_EVENT (R382). -/
def execTemperatureEvent (s : State) : Out := .next (trohamEvent { s with host := { s.host with temperature := true } })

/-- Whether a stack's rows rose by 64 or more over the history, which begins with their reset value (R393, R381). -/
def rowsRose (hist : List (Nat × List Nat)) (rows : List Nat) : Bool :=
  (List.range 8).any fun i => hist.any fun h => decide (h.2.getD i 0 + 64 ≤ rows.getD i 0)

/-- ECS_POLL (R393): the counts of the eight stacks; a report restarts the hour. -/
def execEcsPoll (rows corr : List Nat) (s : State) : Out :=
  .next (
    let hist := s.host.ecsHour.filter fun h => decide (s.now ≤ h.1 + hourCycles)
    let counts := (List.range 8).map fun i => (i, (min (rows.getD i 0) (2 ^ 32 - 1), min (corr.getD i 0) (2 ^ 32 - 1)))
    let s := { s with host := { s.host with ecs := counts } }
    if rowsRose hist rows then trohamEvent { s with host := { s.host with ecsHour := [(s.now, rows)] } }
    else { s with host := { s.host with ecsHour := hist ++ [(s.now, rows)] } })

/-! ### Checkpoints (R395, R396) -/

def slotGiB (s : State) : Nat := s.host.ckptBase.toNat % 256
def ckptOn (s : State) : Bool := s.host.ckptEn && slotGiB s != 0

/-- Whether the period since the last commit has passed. -/
def periodOver (s : State) : Bool :=
  ckptOn s && (if s.host.stepMode then decide (max 1 s.host.period ≤ s.host.ckptSteps)
    else decide (s.host.ckptLast + max 1 s.host.period * msCycles ≤ s.now))

/-- CHECKPOINT_DUE. -/
def execCheckpointDue (s : State) : Out := .next (if periodOver s then { s with host := { s.host with ckptDue := true } } else s)

/-- A leaf of the checkpointed space: its virtual address, level, entry and the entry's place. -/
structure LeafAt where
  va : Nat
  level : Nat
  e : W64
  at_ : Nat
  deriving DecidableEq, Repr

/-- Entries in a table of a level, and bytes that one maps (R187). -/
def levelEntries (level : Nat) : Nat := [32, 512, 512, 8192].getD level 0
def entryBytes (level : Nat) : Nat := leafSize level

/-- Every valid leaf below the table at byte address base, which maps from va on. -/
def leavesOf (s : State) (va base : Nat) : Nat → List LeafAt
  | 0 => []
  | level + 1 => (List.range (levelEntries level)).flatMap fun i =>
      let a := base + 8 * i
      match homeRead s (a / 4) 2 with
      | none => []
      | some n =>
        let e : W64 := BitVec.ofNat 64 n
        let v := va + i * entryBytes level
        if !e.getLsbD 0 || entryBad e level then []
        else if e.getLsbD 1 then leavesOf s v (bitsOf e.toNat 51 8 * 256) level
        else [⟨v, level, e, a⟩]

/-- The leaves of the checkpointed space that map this device's memory. -/
def ckptLeaves (s : State) : List LeafAt :=
  (leavesOf s 0 (spaceOf s.host.ckptRoot).root 4).filter fun l => isSelf s (leafPeer l.e)

/-- The 64 KiB pages of a leaf: virtual and physical address. -/
def leafPages (l : LeafAt) : List (Nat × Nat) :=
  let pa := bitsOf l.e.toNat 51 16 * 2 ^ 16 / leafSize l.level * leafSize l.level
  (List.range (leafSize l.level / 2 ^ 16)).map fun i => (l.va + 2 ^ 16 * i, pa + 2 ^ 16 * i)

def slotBytes (s : State) : Nat := slotGiB s * 2 ^ 30
def slotBase (s : State) (q : Nat) : Nat := bitsOf s.host.ckptBase.toNat 51 20 * 2 ^ 20 + q % 2 * slotBytes s
def ckptMagic : Nat := 0x0154504B43

/-- Offset of the page list of n pages (R396). -/
def listOff (s : State) (n : Nat) : Nat := slotBytes s - 2 ^ 16 - 2 ^ 16 * ((8 * n + 2 ^ 16 - 1) / 2 ^ 16)

/-- The pages that a slot's commit record lists. -/
def listedPages (s : State) (q : Nat) : List Nat :=
  let b := slotBase s q
  let r := b + slotBytes s - 2 ^ 16
  if homeRead s (r / 4) 2 ≠ some ckptMagic then []
  else match homeRead s (r / 4 + 4) 2, homeRead s (r / 4 + 14) 2 with
    | some n, some o => (List.range n).filterMap fun i => homeRead s ((b + o) / 4 + 2 * i) 2
    | _, _ => []

/-- The order in which a slot first held its pages. -/
def slotOrder (s : State) (q : Nat) : List Nat := if q % 2 = 0 then s.host.slot0 else s.host.slot1
def setOrder (s : State) (q : Nat) (l : List Nat) : State :=
  { s with host := if q % 2 = 0 then { s.host with slot0 := l } else { s.host with slot1 := l } }

/-- A page's words copied, poison with its tokens. -/
def copyPage (s : State) (src dst : Nat) : State :=
  homeWrites s none (dst / 4) ((List.range 16384).map fun i => homeWord s (src / 4 + i))

def homeByte (s : State) (a : Nat) : Byte := if isHost s a then s.hostMem.byte a else s.mem.byte a

/-- The bytes that a commit record's digest covers (R396). -/
def digestBytes (s : State) (pages : List (Nat × Nat)) : List Byte :=
  pages.flatMap (fun p => (List.range 8).map fun i => (BitVec.ofNat 8 (p.1 / 256 ^ i) : Byte))
    ++ pages.flatMap fun p => (List.range (2 ^ 16)).map fun i => homeByte s (p.2 + i)

/-- The pages of checkpoint q (R395): dirty ones, those the other slot lists, in the first two every one. -/
def ckptPages (s : State) (q : Nat) : List (Nat × Nat) :=
  let listed := listedPages s (q + 1)
  (ckptLeaves s).flatMap fun l =>
    (leafPages l).filter fun p => l.e.getLsbD 6 || decide (q ≤ 2) || listed.contains p.1

/-- DC cleared in the leaves found set, then TLBINV of the space at package scope (R193, R395). -/
def clearDC (s : State) : State :=
  let ls := (ckptLeaves s).filter fun l => l.e.getLsbD 6
  let s := ls.foldl (fun s l => homeNum s none l.at_ (l.e.toNat - 64) 2) s
  tlbInv s 0 (BitVec.ofNat 64 ((spaceOf s.host.ckptRoot).asid * 16 + 8 + 2))

/-- The pages, the page list and the commit record written (R396). -/
def commitCkpt (s : State) (q : Nat) (pages : List (Nat × Nat)) (order : List Nat) : State :=
  let b := slotBase s q
  let o := listOff s pages.length
  let digest := Config.sha3 (digestBytes s pages)
  let s := pages.foldl (fun s p => copyPage s p.2 (b + 2 ^ 16 * (order.findIdx fun v => v == p.1))) s
  let s := pages.zipIdx.foldl (fun s p => homeNum s none (b + o + 8 * p.2) p.1.1 2) s
  let s := clearDC s
  let s := homeNum s none (b + slotBytes s - 2 ^ 16)
    (ckptMagic + q * 2 ^ 64 + pages.length * 2 ^ 128 + digest.toNat * 2 ^ 192 + o * 2 ^ 448) 16384
  let s := setOrder s q order
  raiseVector { s with host := { s.host with ckptSeq := BitVec.ofNat 64 q, ckptDue := false, ckptSteps := 0, ckptLast := s.now } } 4

/-- A checkpoint written, or turned away because it does not fit its slot. -/
def writeCkpt (s : State) (q : Nat) : State :=
  if !ckptOn s then s
  else
    let pages := ckptPages s q
    let old := slotOrder s q
    let order := old ++ (pages.map Prod.fst).filter fun v => !old.contains v
    if slotBytes s < 2 ^ 16 + 2 ^ 16 * ((8 * pages.length + 2 ^ 16 - 1) / 2 ^ 16) + 2 ^ 16 * order.length then
      trohamEvent { s with host := { s.host with overflow := true, ckptDue := false, ckptSteps := 0 } }
    else commitCkpt s q pages order

/-- Whether every thread stands at a clause boundary or at its hold (R255, R395). -/
def allHeld (s : State) : Bool := s.ports.all fun p => p.2.stall && p.2.busy == 0

/-- Whether the releases of every core have been acknowledged. -/
def allReleased (s : State) : Bool :=
  s.msgs.isEmpty && s.host.backInval.isEmpty
    && s.cores.all fun p => p.2.reqs.all fun r => match r.kind with | .fill .. => false | _ => true

/-- One device's answer at a barrier that is withheld: one that was asked, or this device itself. -/
def answerBarrier (s : State) (b dev : Nat) : State :=
  match tget b s.fab.barriers with
  | none => s
  | some r =>
    if !r.withheld then s
    else
      let here := s.fab.dev.toNat
      let new := (dev == here || r.asked.contains dev) && !r.answers.contains dev
      let r := { r with answers := if new then r.answers ++ [dev] else r.answers }
      if r.arrivals.all fun w => r.answers.contains (if w.1 = 0 then here else w.1) then
        let s := countStep { s with fab := { s.fab with barriers := tdel b s.fab.barriers }, host := { s.host with ckptDue := false } } r.step
        barrierRetry (barrierFree s r)
      else { s with fab := { s.fab with barriers := tset b r s.fab.barriers } }

/-- A device has answered this coordinator's request (R395). -/
def ckptAnswer (s : State) (dev : Nat) : State := (s.fab.barriers.map Prod.fst).foldl (fun s b => answerBarrier s b dev) s

/-- CHECKPOINT_ANSWER. -/
def execCheckpointAnswer (device : BitVec 12) (s : State) : Out :=
  .next (ckptAnswer s (if device = 0 then s.fab.dev.toNat else device.toNat))

/-- The checkpoint request's steps, once the threads are held: the releases, the pages, the answer (R395). -/
def serveCkpt (s : State) (d : BitVec 12) (q : W64) : State :=
  if !allHeld s then s
  else
    let s := (s.cores.map Prod.fst).foldl (fun s c => relStart s c 4) s
    if !allReleased s then s
    else
      let s := writeCkpt s q.toNat
      let s := { s with host := { s.host with ckptReq := none } }
      if isSelf s d.toNat then ckptAnswer s s.fab.dev.toNat
      else { s with host := { s.host with ckptAnswered := s.host.ckptAnswered ++ [(d.toNat, q.toNat)] } }

/-- CHECKPOINT_REQUEST: the first stops the threads at their clause boundaries; it is served when they are there. -/
def execCheckpointRequest (coordinator : BitVec 12) (seq : W64) (s : State) : Out :=
  .next (if !s.host.ready || s.host.fault then s
    else match s.host.ckptReq with
      | none => serveCkpt { s with host := { s.host with ckptReq := some (coordinator, seq) } } coordinator seq
      | some (d, q) => serveCkpt s d q)

/-! ### Management (R379, R392, R399) -/

/-- A reply over I3C of one word that the manual leaves to the sensors. -/
def telemetry (s : State) : State :=
  { s with freeCtr := s.freeCtr + 1, host := { s.host with i3cReply := some [(Config.freeWord s.freeCtr).toNat] } }

/-- A line of the boot journal as I3C gives it. -/
def journalWord (j : JLine) : Nat := j.step + 2 ^ 8 * j.unit_ + j.method * 2 ^ 24 + if j.ok then 2 ^ 26 else 0

/-- I3C_COMMAND (R392): a read of state that does not exist is a NACK, no reply. -/
def execI3cCommand (c : I3c) (s : State) : Out :=
  let reply := fun (r : Option (List Nat)) => { s with host := { s.host with i3cReply := r } }
  .next (match c with
    | .readTemperature | .readPower | .readRails => telemetry s
    | .readEcs => reply (some ((List.range 8).map fun i => (tgetD i (0, 0) s.host.ecs).1 * 2 ^ 32 + (tgetD i (0, 0) s.host.ecs).2))
    | .readJournal => reply (some (s.host.journal.map journalWord))
    | .readAttestation => reply (s.host.report.map fun r => r.1.map BitVec.toNat ++ [r.2])
    | .setPowerLimit w => { s with host := { s.host with powerLimit := w, i3cReply := some [] } }
    | .other => reply none)

/-- Bytes of a number, little-endian, n of them. -/
def natBytes (v n : Nat) : List Byte := (List.range n).map fun i => (BitVec.ofNat 8 (v / 256 ^ i) : Byte)

/-- The measurements of an attestation report (R399): a digest of every image verified, then one of each active configuration. -/
def measured (s : State) : List (BitVec 256) :=
  s.host.images ++ [s.host.fwVersion, s.host.lattol, hostReg s 0x038, s.host.ckptBase.toNat, s.host.ckptRoot.toNat].map fun v =>
    Config.sha3 (natBytes v 8)

/-- ATTESTATION_REQUEST (R399): the measurements, and a signature over them and the request's nonce. -/
def execAttestationRequest (nonce : Nat) (s : State) : Out :=
  .next (
    let m := measured s
    { s with host := { s.host with
        report := some (m, Config.sign (Config.sha3 (natBytes nonce 32 ++ m.flatMap fun d => natBytes d.toNat 32))) } })

/-- FIRMWARE_UPDATE (R399): the image is verified and measured, and is Troham's own from the next start on. -/
def execFirmwareUpdate (version : Nat) (image : List Byte) (signature : Nat) (s : State) : Out :=
  .next (if Config.verify (Config.sha3 image) signature && decide (s.host.rollback ≤ version) then
      { s with host := { s.host with fwVersion := version, update := some image, images := s.host.images ++ [Config.sha3 image] } }
    else s)

/-- IDE_KEY_EXCHANGE (R379): a key for CXL.io, CXL.cache or CXL.mem. -/
def execIdeKeyExchange (channel : BitVec 2) (key : Nat) (s : State) : Out :=
  .next (if channel = 3 then s else { s with host := { s.host with keys := tset channel.toNat key s.host.keys } })

end Sys2Proof.Machine
end

