-- ==== Sys2Proof/Machine/Default.lean ====
section
/-! DEFINITION. What the machine does around one choice: the issue of a port's next word, a cycle of the clock, what follows of
itself after each step, and the choice made where the agenda names none (R34, R93, R94, R95, R345; assumption 1). -/

namespace Sys2Proof.Machine

/-! ### The issue of a word (R58, R95) -/

/-- What issuing a port's next word comes to: nothing more than a new state, or an instruction to run. -/
inductive Pick where
  | done (s : State)
  | run (i : Instr) (s : State)

/-- Core of a port: ports are numbered lane × 2, plus 1 for port B. -/
def portCore (k : Nat) : Nat := k / 32

/-- Whether port k has a thread-operation to issue. -/
def portLive (s : State) (k : Nat) : Bool :=
  match tget k s.ports with
  | none => false
  | some p => !p.pack.isEmpty && p.busy == 0 && clocked s (portCore k) && (decide (p.widx < p.words.length) || p.trap.isSome)

/-- The other port of port k's lane. -/
def otherPort (k : Nat) : Nat := if k % 2 = 0 then k + 1 else k - 1

/-- Whether port k's word finds no entry but those that end-commit words under way have still to take: it holds, as at a full queue (R14,
R124). -/
def reserved (s : State) (k : Nat) : Bool :=
  (s.port k).trap.isNone && (takes (s.port k).word).any fun q =>
    decide (0 < owed s (portCore k) k q) && !hasRoom s (portCore k) k q 1

/-- Whether port k can issue and does not hold. -/
def portFree (s : State) (k : Nat) : Bool := portLive s k && !(s.port k).stall && !reserved s k

/-- Whether port k has work for its lane's ALU: cycles of what it has issued, or a word that it can issue and does not hold at. -/
def portWorks (s : State) (k : Nat) : Bool := decide (0 < (s.port k).busy) || portFree s k

/-- The lane whose ALU runs the second copies of lane l's redundant thread-operations (R259). -/
def nextLane (l : Nat) : Nat := l / 16 * 16 + (l + 1) % 16

/-- Whether port k's pack issues redundantly, so that its thread-operations run on the next lane's ALU as well (R259). -/
def redundant (s : State) (k : Nat) : Bool := (s.port k).pack.any fun t => (s.thr t).redun

/-- Whether the ALUs that port k's thread-operations run on owe no cycle. -/
def alusFree (s : State) (k : Nat) : Bool :=
  decide (tgetD (k / 2) 0 s.lent = 0) && (!redundant s k || decide (tgetD (nextLane (k / 2)) 0 s.lent = 0))

/-- Whether the lane's ALU is port k's in this cycle (R94): its partner has no work, or it is its turn. -/
def holdsTurn (s : State) (k : Nat) : Bool :=
  alusFree s k && (!portWorks s (otherPort k) || decide (tgetD (k / 2) 0 s.turns = k % 2))

/-! ### Updates of one cycle (R104, R106, R107, R318) -/

/-- What has an order of its own among the updates of one cycle: of a team entry by core, lane and thread (R104), of an item queue pushes
first, then by lane and port (R107), of a matrix queue by lane and port (R318). A pop sees the pushes of its own cycle (R107; R106's 'before
its cycle' would leave them out: DESIGN CHOICE, assumption 53). -/
inductive Shared where
  | team | push | pop | mtx
  deriving DecidableEq, Repr

/-- Whether the word of thread t's pack may end in a thread fault, which leaves its team (R247). -/
def mayDie (s : State) (t : Tid) : Bool :=
  let x := s.thr t
  x.team.isSome && (decide (0 < x.hdepth) || (frameFail s t 0 0x60).isSome)

def wordShared (w : W64) : Option Shared :=
  let o := bitsOf w.toNat 63 56
  if o = 0x48 ∨ o = 0x4D ∨ o = 0x4E ∨ o = 0x4F then some .team else if o = 0x52 then some .push else if o = 0x51 then some .pop
  else if 0xA0 ≤ o ∧ o ≤ 0xBF ∧ o ≠ 0xA5 then some .mtx else none

/-- What port k's next thread-operation may update. -/
def sharedOf (s : State) (k : Nat) : List Shared :=
  let p := s.port k
  (if p.pack.any fun t => mayDie s t then [.team] else []) ++ if p.trap.isSome then [] else (wordShared p.word).toList

/-- Whether port j's update `a` comes before port k's update `b` of the same cycle. -/
def goesFirst (a b : Shared) (j k : Nat) : Bool :=
  match a, b with
  | .team, .team => portCore j / 8 == portCore k / 8 && decide (j < k)
  | .push, .push | .pop, .pop | .mtx, .mtx => portCore j == portCore k && decide (j < k)
  | .push, .pop => portCore j == portCore k
  | _, _ => false

/-- Whether a vote of a lane's port comes to something: a clause, or a page to wait for (R93, R189). -/
def voteMoves (s : State) (l : Nat) (b : Bool) : Bool :=
  let s' := vote s l b
  decide (s'.ports.length ≠ s.ports.length) || (laneThreads s l).any fun t => (s.thr t).hold.fetch != (s'.thr t).hold.fetch

/-- Whether port j may still issue in this cycle while port k waits for it: its lane's ALU is its own, or its partner, whose turn it is, may
yet hold. A partner at a pop of the same lane or a higher one, which waits for pushes itself, is taken not to. -/
def mayYet (s : State) (j k : Nat) : Bool :=
  let o := otherPort j
  portFree s j && alusFree s j
    && (holdsTurn s j || (o != k && portFree s o && ((wordShared (s.port o).word) != some .pop || decide (j / 2 < k / 2))))

/-- Whether update `b` of port k has its turn in this cycle: no port or vote that may come before it is open. -/
def settledFor (s : State) (k : Nat) (b : Shared) : Bool :=
  !(s.ports.any fun p => p.1 != k && (sharedOf s p.1).any (fun a => goesFirst a b p.1 k) && mayYet s p.1 k)
    && !((s.threads.map fun p => laneKey p.1).dedup.any fun l =>
      (if b = .team then l / 128 == portCore k / 8 else l / 16 == portCore k) && (b == .pop || decide (l * 2 < k))
        && (voteMoves s l false || voteMoves s l true))

/-- Whether port k may issue its next thread-operation now. -/
def mayIssue (s : State) (k : Nat) : Bool :=
  portLive s k && holdsTurn s k && !reserved s k && (sharedOf s k).all fun b => settledFor s k b

/-- The word that port k stands at: a trap that waits for its entry, an undefined word's trap, or an instruction. The cycle is
then port k's. -/
def pick (s : State) (k : Nat) : Pick :=
  if !mayIssue s k then .done s
  else
    let s := { s with iss := some k, turns := tset (k / 2) (k % 2) s.turns }
    match s.cur.trap with
    | some r => .done (takeTrap s r)
    | none => match decode s.cur.word with
      | none => .done (takeTrap s (trapAt s (pfxOf s.cur.word) tILL dUNDEF))
      | some i => .run i s

/-! ### One cycle (R94) -/

/-- Whether port k takes its lane's ALU cycle: it has issued work, and its partner has none or it is its turn. -/
def takesCycle (s : State) (k : Nat) : Bool :=
  decide (0 < (s.port k).busy) && alusFree s k
    && (decide ((s.port (otherPort k)).busy = 0) || decide (tgetD (k / 2) 0 s.turns = k % 2))

/-- A cycle of every lane's ALU: the turn passes to the other port, and a redundant thread-operation takes one from the next lane. -/
def tickPorts (s : State) : State :=
  let ks := (s.ports.map Prod.fst).filter fun k => takesCycle s k
  let owed := s.lent.filterMap fun p => if p.2 ≤ 1 then none else some (p.1, p.2 - 1)
  { s with
    ports := s.ports.map fun p => (p.1, { p.2 with busy := if ks.contains p.1 then p.2.busy - 1 else p.2.busy, stall := false })
    turns := ks.foldl (fun l k => tset (k / 2) (1 - k % 2) l) s.turns
    lent := (ks.filter fun k => redundant s k).foldl (fun l k => let n := nextLane (k / 2); tset n (tgetD n 0 l + 1) l) owed }

/-- Cores with a thread that is ready or on a port. -/
def busyCores (s : State) : List Nat :=
  ((s.threads.filter fun p => !p.2.hold.resident && (s.onPort p.1 || ready s p.1)).map fun p => coreOf p.1).dedup

/-- The cycle counts of cores that are not idle start anew (R391). -/
def noteBusy (s : State) : State :=
  { s with cores := (busyCores s).foldl (fun l c => match tget c l with
      | some x => tset c { x with idleAt := s.now } l
      | none => l) s.cores }

/-- Whether the dark start of a slot has just ended. -/
def slotOpens (s : State) : Bool := s.fab.rose.isSome && (s.now - s.fab.roseAt) % slotCycles == darkCycles

/-- One cycle of the clock: the ALUs, the fabric engine, and the time. -/
def tick (s : State) : State :=
  let s := tickPorts s
  let s := { s with now := s.now + 1 }
  let s := if s.host.fault then s else noteBusy s
  let s := if s.cores.any fun p => !p.2.fabQ.isEmpty then fabPoll s else s
  if slotOpens s then newSlot s else fabPush s

/-! ### What follows of itself -/

/-- Whether a port has finished its clause (R93). -/
def portOver (p : Port) : Bool := p.pack.isEmpty || (p.trap.isNone && p.busy == 0 && decide (p.words.length ≤ p.widx))

/-- Threads that wait for a phase go on when it is over (R102, R105). -/
def endPhase (s : State) (t : Tid) : State :=
  match (s.thr t).hold.phase with
  | some (h, b) => if !(s.thr t).hold.frozen && phaseOver s t h b && !acqBusy s t 2 then
      acquire (s.modThr t fun x => { x with hold := { x.hold with phase := none } }) (coreOf t) 2
    else s
  | none => s

/-- A thread that a save no longer holds goes on. -/
def thaw (s : State) (t : Tid) : State :=
  let x := s.thr t
  if x.hold.frozen && (match x.team with | some h => (teamSave s (teamKey t h.toNat)).isNone | none => true) then
    s.modThr t fun x => { x with hold := { x.hold with frozen := false } }
  else s

/-- Page requests of a parked thread that found no entry free are made when one is (R207, R217). -/
def reask (s : State) (t : Tid) : State :=
  (s.thr t).hold.parked.foldl (fun s w =>
    if (pageEntry s (dieOf (coreOf t)) w.asid w.page).isNone && pageRoom s (coreOf t) w.asid w.page then
      pageRequest s (coreOf t) w.asid w.page w.store false
    else s) s

/-- A gated core that was not halted runs again once a thread of it is ready; with a core that runs, the condition of an idle state of the
device no longer holds (R391). -/
def ungateReady (s : State) : State :=
  if s.cores.any fun p => p.2.gatedAt.isSome && !p.2.halted then
    (busyCores s).foldl (fun s c =>
      if (s.core c).gatedAt.isSome && !(s.core c).halted then awake (s.modCore c fun x => x.ungate s.now) else s) s
  else s

/-- Threads that something after a step may set going. -/
def stirred (h : Hold) : Bool := h.stopping || h.phase.isSome || h.frozen || !h.parked.isEmpty

/-- A thread that ends leaves its team in the order of R104. -/
def stir (s : State) (t : Tid) : State :=
  let s := reask (thaw (endPhase s t) t) t
  let x := s.thr t
  if x.hold.frozen || (x.hold.stopping && x.team.isSome && !settledFor s (laneKey t * 2) .team) then s else tryStop s t

/-- What follows after each step: ports that are done are free, waits that are over end, saves go on, ages of threads that have
blocked return to 0 (R93, R98, R102, R153, R255, R391). -/
def tidy (s : State) : State :=
  let s := { s with iss := none, ports := s.ports.filter fun p => !portOver p.2 }
  let s := s.saves.foldl (fun s v => saveStep s v.key) s
  let s := ((s.threads.filter fun p => stirred p.2.hold).map Prod.fst).foldl stir s
  let s := ((s.threads.filter fun p => (p.2.age != 0 || p.2.forced.isSome) && !p.2.hold.frozen).map Prod.fst).foldl settleAge s
  ungateReady { s with ports := s.ports.filter fun p => !portOver p.2 }

/-! ### The default choice (assumption 1) -/

/-- Bring-up with nothing failing, as device 1. -/
def bringUpChoice (s : State) : Option Choice :=
  if s.host.ready || s.host.fault || s.host.stopped then none else some (.ev (.bringUp ⟨[], 1⟩))

/-- The event of a late result that is due. -/
def reqChoice (s : State) : Option Choice :=
  s.cores.findSome? fun p => p.2.reqs.findSome? fun r =>
    if s.now < r.due then none
    else match r.kind with
      | .load => some (.ev (.loadReply p.1 r.id))
      | .atom => if acked s p.1 then some (.ev (.loadReply p.1 r.id)) else none
      | .multi => some (.ev (.multiCycleResult p.1 r.id))
      | .fill .. => some (.ev (.storeFillReturn p.1 r.id))
      | .hostStore => some (.ev (.hostStoreCompletion r.id))
      | .remote => none

/-- Messages to cores, and the host's acknowledgements. -/
def msgChoice (s : State) : Option Choice :=
  match s.msgs, s.host.backInval with
  | m :: _, _ => some (.ev (match m.kind with
      | .inval => .clusterInvalidation m.core m.key
      | .revoke => .revoke m.core m.key))
  | [], b :: _ => some (.ev (.backInvalidateAck b.1))
  | [], [] => none

/-- What a stream command's engine does next. -/
def strNext (s : State) (c : Nat) (k : StrCmd) : Option Choice :=
  if strMayStart s c k then some (.ev (.streamCommandStart c k.id))
  else if k.stage = 0 ∨ !k.tags.isEmpty ∨ s.now < k.due then none
  else if k.stage = 3 ∧ !acked s c then none
  else if k.stage = 4 ∧ (aslWaits s c k || decide (8 ≤ strRunning s c)) then none
  else if k.stage = 2 ∧ strAfter s c k then none
  else match k.op, decide (k.stage = 2) with
    | .asl _, true =>
      if aslAll s k then some (.ev (.streamCommandComplete c k.id))
      else (k.tids.find? fun t => aslReady s k t).map fun t => .ev (.aslDeliver c k.id t)
    | _, _ => some (.ev (.streamCommandComplete c k.id))

def strChoice (s : State) : Option Choice := s.cores.findSome? fun p => p.2.strQ.findSome? (strNext s p.1)

/-- What a core's matrix engine does next. -/
def matChoice (s : State) : Option Choice :=
  s.cores.findSome? fun p => match p.2.matQ with
    | [] => none
    | k :: _ =>
      if !k.started then (if k.stopAt.isSome then none else some (.ev (.matrixCommandStart p.1)))
      else if s.now < k.due then none
      else match k.op with
        | .loop _ _ _ _ _ _ n _ _ _ =>
          if k.step > n || (k.cancelled && k.stopAt == some k.step) then some (.ev (.matrixCommandComplete p.1))
          else if k.stopAt == some k.step then none else some (.ev (.mloopStep p.1 false))
        | _ => some (.ev (.matrixCommandComplete p.1))

/-- Combine requests that arrive now. -/
def combDue (s : State) : List Nat :=
  (s.comb.flight.filter fun r => r.peer == 0 && decide (r.sent + s.cfg.hopLatency ≤ s.now)).map fun r => r.id

/-- What the combiners do next. -/
def combChoice (s : State) : Option Choice :=
  let ids := combDue s
  if !ids.isEmpty && (arrivals s ids).any (fun r => (joinWave s r).isSome) then some (.ev (.combineRequestArrival ids))
  else match s.comb.waves.find? fun w => !w.closed && decide (w.opened + w.window ≤ s.now) with
    | some w => some (.ev (.waveWindowExpiry w.obj))
    | none => match s.comb.waves.find? fun w => w.closed && decide (w.closedAt + max 1 w.reqs.length ≤ s.now) with
      | some w => some (.ev (.waveApply w.obj))
      | none => match s.comb.replies.find? fun r => replyReady s r with
        | some r => some (.ev (.combineReply r.id))
        | none => (s.dies.find? fun d => !d.2.install.isEmpty).map fun d => .ev (.methodInstall d.1)

/-- The event of a received flit. -/
def flitEvent (type : Nat) : Instr :=
  match type with
  | 0 => .writeFlit
  | 1 => .readRequestFlit
  | 2 => .readReplyFlit
  | 3 => .atomicRequestFlit
  | 4 => .atomicReplyFlit
  | 5 => .signalFlit
  | 6 => .acknowledgeFlit
  | 7 => .refusalFlit
  | 8 => .allowanceGrantFlit
  | 9 => .drainMarkerFlit
  | 10 => .drainAcknowledgeFlit
  | 11 => .barrierArrivalFlit
  | 12 => .barrierReleaseFlit
  | _ => .reservedTypeFlit

/-- Received flits, the fabric's timeouts and its rose. -/
def fabChoice (s : State) : Option Choice :=
  match inboxNext s.fab.inbox with
  | some e => some (.ev (flitEvent e.2.1.type.toNat))
  | none => match s.fab.tags.find? fun r => decide (r.due ≤ s.now) with
  | some r => some (.ev (.fabricTimeout (BitVec.ofNat 16 r.tag)))
  | none => match roseDue s with
    | some t => if t ≤ s.now then some (.ev .roseTakeEffect) else none
    | none => none

/-- Saves and snapshots that can go on. -/
def saveChoice (s : State) : Option Choice :=
  match s.threads.find? fun p => p.2.hold.frozen && memberReady s p.1 with
  | some p => some (.ev (.memberSave p.1))
  | none => match s.snaps.find? fun p => !p.2.valid && !p.2.threads.isEmpty && decide ((teamEnt s p.1).members ≤ p.2.threads.length) with
    | some p => some (.ev (.snapshotValid p.1))
    | none => (s.snaps.find? fun p =>
        let n := (s.threads.filter fun q => q.2.hold.rbk == some p.1).length
        p.2.valid && decide (0 < n) && decide ((teamEnt s p.1).members ≤ n)).map fun p => .ev (.rollback p.1)

/-- Whether this device has a part in a withheld release that it has not answered. -/
def ownPart (s : State) (r : Barrier) : Bool :=
  r.withheld && r.arrivals.any (fun w => w.1 == 0) && !r.answers.contains s.fab.dev.toNat

/-- Checkpoints (R395). -/
def ckptChoice (s : State) : Option Choice :=
  if !s.host.ready then none
  else match s.host.ckptReq with
    | some (d, q) =>
      if allHeld s && ((s.cores.any fun p => p.2.l1.any fun e => e.2.dirty.isSome) || allReleased s) then
        some (.ev (.checkpointRequest d q)) else none
    | none =>
      match s.fab.barriers.find? fun b => ownPart s b.2 with
      | some b => some (.ev (.checkpointRequest s.fab.dev (BitVec.ofNat 64 b.2.seq)))
      | none => if !s.host.ckptDue && periodOver s then some (.ev .checkpointDue) else none

/-- Timers of threads and cores. -/
def timerChoice (s : State) : Option Choice :=
  match s.threads.find? fun p => (match p.2.hold.sleep with | some e => decide (e ≤ s.now) | none => false) with
  | some p => some (.ev (.sleepExpiry p.1))
  | none => match s.threads.find? fun p => p.2.hold.watch.isSome && watchNow s p.1 with
    | some p => some (.ev (.waitwTimer p.1))
    | none => s.cores.findSome? fun p =>
      match p.2.bins.find? fun b => timerOver s.now p.2 b.2 with
      | some b => some (.ev (.binTimerExpiry p.1 b.1))
      | none => match p.2.l1.find? fun e => wordOld s e.2 with
        | some e => some (.ev (.writebackTimer p.1 e.1))
        | none => if p.2.epochAt + 4096 ≤ coreCyc s.now p.2 then some (.ev (.throttleEpoch p.1)) else none

/-- The dispatchers (R385). -/
def launchChoice (s : State) : Option Choice :=
  (List.range 8).findSome? fun d =>
    if recReady s d then some (.ev (.launchRecord d))
    else if startReady s d then some (.ev (.launchStart d))
    else if copyReady s d then some (.ev (.launchCopy d))
    else none

/-- The lowest port that can issue and does not hold. -/
def portChoice (s : State) : Option Choice :=
  (s.ports.find? fun p => !p.2.stall && mayIssue s p.1).map fun p => .issue p.1

/-- Votes of free ports, port A first (R93). -/
def voteChoice (s : State) : Option Choice :=
  ((s.threads.filter fun p => !p.2.hold.resident).map fun p => laneKey p.1).dedup.findSome? fun l =>
    if voteMoves s l false then some (.ev (.issueVote l false))
    else if voteMoves s l true then some (.ev (.issueVote l true)) else none

/-- Packs that can be placed (R89). -/
def placeChoice (s : State) : Option Choice :=
  (s.cores.find? fun p => !(readyBins p.2).isEmpty && (packPlace s p.1).isSome).map fun p => .ev (.packPlace p.1)

/-- Clock gating and idle states (R391). -/
def idleChoice (s : State) : Option Choice :=
  match s.cores.find? fun p => p.2.gatedAt.isNone && (p.2.halted || decide (p.2.idleAt + 1024 ≤ s.now)) && gateDue s p.1 with
  | some p => some (.ev (.coreClockGate p.1))
  | none => if hbmDue s then some (.ev .hbmSelfRefreshEntry) else if sramDue s then some (.ev .sramRetentionEntry) else none

/-- What happens next where the agenda does not say: the first event that is due, else one cycle. -/
def defaultChoice (s : State) : Choice :=
  ([bringUpChoice, reqChoice, msgChoice, strChoice, matChoice, combChoice, fabChoice, saveChoice, ckptChoice, timerChoice,
    launchChoice, portChoice, voteChoice, placeChoice, idleChoice].findSome? fun f => f s).getD .tick

/-- Whether nothing can happen any more but what the agenda brings (R388, R397). -/
def dead (s : State) : Bool := (s.host.fault || s.host.stopped) && s.agenda.isEmpty

end Sys2Proof.Machine
end

