-- ==== Sys2Proof/Machine/Dispatch.lean ====
section
/-! DEFINITION. The dispatch: one meaning per constructor of Instr. -/

namespace Sys2Proof.Machine

/-- What an instruction or an event does. -/
def exec (i : Instr) (s : State) : Host.Outcome State Fault Refusal :=
  match i with
  -- group 000, integer and packed narrow (R49)
  | .iadd sg wc sat f => Sys2Proof.Machine.execIadd sg wc sat f s
  | .iaddImm sg wc f => Sys2Proof.Machine.execIaddImm sg wc f s
  | .isub sg wc sat f => Sys2Proof.Machine.execIsub sg wc sat f s
  | .imul sg wc f => Sys2Proof.Machine.execImul sg wc f s
  | .imulh sg wc f => Sys2Proof.Machine.execImulh sg wc f s
  | .imad sg wc sat f => Sys2Proof.Machine.execImad sg wc sat f s
  | .idiv sg wc f => Sys2Proof.Machine.execIdiv sg wc f s
  | .irem sg wc f => Sys2Proof.Machine.execIrem sg wc f s
  | .imin sg wc f => Sys2Proof.Machine.execImin sg wc f s
  | .imax sg wc f => Sys2Proof.Machine.execImax sg wc f s
  | .iabs wc sat f => Sys2Proof.Machine.execIabs wc sat f s
  | .ineg wc sat f => Sys2Proof.Machine.execIneg wc sat f s
  | .and_ f => Sys2Proof.Machine.execAnd f s
  | .or_ f => Sys2Proof.Machine.execOr f s
  | .xor_ f => Sys2Proof.Machine.execXor f s
  | .andn f => Sys2Proof.Machine.execAndn f s
  | .not_ f => Sys2Proof.Machine.execNot f s
  | .andImm f => Sys2Proof.Machine.execAndImm f s
  | .orImm f => Sys2Proof.Machine.execOrImm f s
  | .xorImm f => Sys2Proof.Machine.execXorImm f s
  | .andnImm f => Sys2Proof.Machine.execAndnImm f s
  | .lut3 table f => Sys2Proof.Machine.execLut3 table f s
  | .shl f => Sys2Proof.Machine.execShl f s
  | .shr f => Sys2Proof.Machine.execShr f s
  | .sar f => Sys2Proof.Machine.execSar f s
  | .rot f => Sys2Proof.Machine.execRot f s
  | .shlImm f => Sys2Proof.Machine.execShlImm f s
  | .shrImm f => Sys2Proof.Machine.execShrImm f s
  | .sarImm f => Sys2Proof.Machine.execSarImm f s
  | .rotImm f => Sys2Proof.Machine.execRotImm f s
  | .bfx sg f => Sys2Proof.Machine.execBfx sg f s
  | .bfi f => Sys2Proof.Machine.execBfi f s
  | .popc f => Sys2Proof.Machine.execPopc f s
  | .clz f => Sys2Proof.Machine.execClz f s
  | .ctz f => Sys2Proof.Machine.execCtz f s
  | .brev f => Sys2Proof.Machine.execBrev f s
  | .icmp sg cond f => Sys2Proof.Machine.execIcmp sg cond f s
  | .icmpImm sg cond f => Sys2Proof.Machine.execIcmpImm sg cond f s
  | .isel neg sel f => Sys2Proof.Machine.execIsel neg sel f s
  | .movZ f => Sys2Proof.Machine.execMovZ f s
  | .movS f => Sys2Proof.Machine.execMovS f s
  | .movx f => Sys2Proof.Machine.execMovx f s
  | .movxw f => Sys2Proof.Machine.execMovxw f s
  | .movi z f => Sys2Proof.Machine.execMovi z f s
  | .movh pos f => Sys2Proof.Machine.execMovh pos f s
  | .pack ew f => Sys2Proof.Machine.execPack ew f s
  | .unpk ew f => Sys2Proof.Machine.execUnpk ew f s
  | .padd sg ew sat f => Sys2Proof.Machine.execPadd sg ew sat f s
  | .psub sg ew sat f => Sys2Proof.Machine.execPsub sg ew sat f s
  | .pmin sg ew f => Sys2Proof.Machine.execPmin sg ew f s
  | .pmax sg ew f => Sys2Proof.Machine.execPmax sg ew f s
  | .pabs ew f => Sys2Proof.Machine.execPabs ew f s
  | .pcmp sg ew cond f => Sys2Proof.Machine.execPcmp sg ew cond f s
  | .pdot sg ew f => Sys2Proof.Machine.execPdot sg ew f s
  -- group 001, float, conversion and binary8 (R50)
  | .fadd fmt m f => Sys2Proof.Machine.execFadd fmt m f s
  | .fsub fmt m f => Sys2Proof.Machine.execFsub fmt m f s
  | .fmul fmt m f => Sys2Proof.Machine.execFmul fmt m f s
  | .ffma fmt m f => Sys2Proof.Machine.execFfma fmt m f s
  | .fmin fmt px f => Sys2Proof.Machine.execFmin fmt px f s
  | .fmax fmt px f => Sys2Proof.Machine.execFmax fmt px f s
  | .fabs fmt f => Sys2Proof.Machine.execFabs fmt f s
  | .fneg fmt f => Sys2Proof.Machine.execFneg fmt f s
  | .fcmp fmt sig cond f => Sys2Proof.Machine.execFcmp fmt sig cond f s
  | .fdiv fmt m f => Sys2Proof.Machine.execFdiv fmt m f s
  | .fsqrt fmt m f => Sys2Proof.Machine.execFsqrt fmt m f s
  | .frcp fmt m f => Sys2Proof.Machine.execFrcp fmt m f s
  | .frsq fmt m f => Sys2Proof.Machine.execFrsq fmt m f s
  | .fexp2 fmt m f => Sys2Proof.Machine.execFexp2 fmt m f s
  | .flog2 fmt m f => Sys2Proof.Machine.execFlog2 fmt m f s
  | .fscale fmt m f => Sys2Proof.Machine.execFscale fmt m f s
  | .fclass fmt f => Sys2Proof.Machine.execFclass fmt f s
  | .fcvt src dst m f => Sys2Proof.Machine.execFcvt src dst m f s
  | .icvtf sg fmt sat rnd f => Sys2Proof.Machine.execIcvtf sg fmt sat rnd f s
  | .fcvti sg fmt rnd f => Sys2Proof.Machine.execFcvti sg fmt rnd f s
  | .cvtb8 bp ef sat rnd f => Sys2Proof.Machine.execCvtb8 bp ef sat rnd f s
  | .cvtb8Unsigned bp ef sat rnd f => Sys2Proof.Machine.execCvtb8Unsigned bp ef sat rnd f s
  | .cvtf8 bp fmt f => Sys2Proof.Machine.execCvtf8 bp fmt f s
  | .cvtf8Unsigned bp fmt f => Sys2Proof.Machine.execCvtf8Unsigned bp fmt f s
  | .b8dot bp px rnd f => Sys2Proof.Machine.execB8dot bp px rnd f s
  | .b8dotUnsigned bp px rnd f => Sys2Proof.Machine.execB8dotUnsigned bp px rnd f s
  | .hadd2 m f => Sys2Proof.Machine.execHadd2 m f s
  | .hmul2 m f => Sys2Proof.Machine.execHmul2 m f s
  | .hfma2 m f => Sys2Proof.Machine.execHfma2 m f s
  -- group 010, control, scheduling, registers, counters and futures (R51)
  | .bra f => Sys2Proof.Machine.execBra f s
  | .jmpi f => Sys2Proof.Machine.execJmpi f s
  | .call f => Sys2Proof.Machine.execCall f s
  | .calli f => Sys2Proof.Machine.execCalli f s
  | .ret f => Sys2Proof.Machine.execRet f s
  | .loopd f => Sys2Proof.Machine.execLoopd f s
  | .yield f => Sys2Proof.Machine.execYield f s
  | .nop f => Sys2Proof.Machine.execNop f s
  | .stop f => Sys2Proof.Machine.execStop f s
  | .sleep f => Sys2Proof.Machine.execSleep f s
  | .waitw f => Sys2Proof.Machine.execWaitw f s
  | .spawn f => Sys2Proof.Machine.execSpawn f s
  | .spawnn f => Sys2Proof.Machine.execSpawnn f s
  | .join f => Sys2Proof.Machine.execJoin f s
  | .leave f => Sys2Proof.Machine.execLeave f s
  | .arrive f => Sys2Proof.Machine.execArrive f s
  | .waitph f => Sys2Proof.Machine.execWaitph f s
  | .item f => Sys2Proof.Machine.execItem f s
  | .itempush f => Sys2Proof.Machine.execItempush f s
  | .grow f => Sys2Proof.Machine.execGrow f s
  | .growNb f => Sys2Proof.Machine.execGrowNb f s
  | .shrink f => Sys2Proof.Machine.execShrink f s
  | .spl f => Sys2Proof.Machine.execSpl f s
  | .fil f => Sys2Proof.Machine.execFil f s
  | .sread sel f => Sys2Proof.Machine.execSread sel f s
  | .wait cls f => Sys2Proof.Machine.execWait cls f s
  | .fwait f => Sys2Proof.Machine.execFwait f s
  | .ftest f => Sys2Proof.Machine.execFtest f s
  | .fpass f => Sys2Proof.Machine.execFpass f s
  | .fcancel f => Sys2Proof.Machine.execFcancel f s
  -- group 011, memory and poison (R52)
  | .ld sx size hint f => Sys2Proof.Machine.execLd sx size hint f s
  | .st size hint f => Sys2Proof.Machine.execSt size hint f s
  | .ldV n size hint f => Sys2Proof.Machine.execLdV n size hint f s
  | .stV n size hint f => Sys2Proof.Machine.execStV n size hint f s
  | .ldp sx size pred f => Sys2Proof.Machine.execLdp sx size pred f s
  | .pgreq f => Sys2Proof.Machine.execPgreq f s
  | .atom op scope sz f => Sys2Proof.Machine.execAtom op scope sz f s
  | .sld sx size f => Sys2Proof.Machine.execSld sx size f s
  | .sst size f => Sys2Proof.Machine.execSst size f s
  | .fenceAcq scope f => Sys2Proof.Machine.execFenceAcq scope f s
  | .fenceRel scope f => Sys2Proof.Machine.execFenceRel scope f s
  | .fenceAr scope f => Sys2Proof.Machine.execFenceAr scope f s
  | .icinv scope f => Sys2Proof.Machine.execIcinv scope f s
  | .icinvLine scope f => Sys2Proof.Machine.execIcinvLine scope f s
  | .dcwb f => Sys2Proof.Machine.execDcwb f s
  | .dcwbAll f => Sys2Proof.Machine.execDcwbAll f s
  | .ldm n f => Sys2Proof.Machine.execLdm n f s
  | .leg n none_ f => Sys2Proof.Machine.execLeg n none_ f s
  | .commit f => Sys2Proof.Machine.execCommit f s
  | .commitR f => Sys2Proof.Machine.execCommitR f s
  | .pchk f => Sys2Proof.Machine.execPchk f s
  | .pclr f => Sys2Proof.Machine.execPclr f s
  | .pset f => Sys2Proof.Machine.execPset f s
  | .porg k f => Sys2Proof.Machine.execPorg k f s
  -- group 100, stream (R53)
  | .talloc level f => Sys2Proof.Machine.execTalloc level f s
  | .tfree f => Sys2Proof.Machine.execTfree f s
  | .tquery k f => Sys2Proof.Machine.execTquery k f s
  | .sload f => Sys2Proof.Machine.execSload f s
  | .sloadRing f => Sys2Proof.Machine.execSloadRing f s
  | .sstore f => Sys2Proof.Machine.execSstore f s
  | .scopy f => Sys2Proof.Machine.execScopy f s
  | .strns sub int uns sat f => Sys2Proof.Machine.execStrns sub int uns sat f s
  | .sring f => Sys2Proof.Machine.execSring f s
  | .sringFree f => Sys2Proof.Machine.execSringFree f s
  | .rpop f => Sys2Proof.Machine.execRpop f s
  | .rrel f => Sys2Proof.Machine.execRrel f s
  | .asl f => Sys2Proof.Machine.execAsl f s
  | .qpop q f => Sys2Proof.Machine.execQpop q f s
  | .qstat q f => Sys2Proof.Machine.execQstat q f s
  | .lastld f => Sys2Proof.Machine.execLastld f s
  -- group 101, matrix (R54)
  | .mloop f => Sys2Proof.Machine.execMloop f s
  | .mzero f => Sys2Proof.Machine.execMzero f s
  | .mloadacc f => Sys2Proof.Machine.execMloadacc f s
  | .tmov f => Sys2Proof.Machine.execTmov f s
  | .tcvtB8 bp ef sat rnd f => Sys2Proof.Machine.execTcvtB8 bp ef sat rnd f s
  | .tcvtB8Unsigned bp ef sat rnd f => Sys2Proof.Machine.execTcvtB8Unsigned bp ef sat rnd f s
  | .tcvtOther tgt sat rnd f => Sys2Proof.Machine.execTcvtOther tgt sat rnd f s
  | .mstat k f => Sys2Proof.Machine.execMstat k f s
  -- group 110, combine and fabric (R55)
  | .cmb op sz f => Sys2Proof.Machine.execCmb op sz f s
  | .cmbu n f => Sys2Proof.Machine.execCmbu n f s
  | .cmbdef n f => Sys2Proof.Machine.execCmbdef n f s
  | .flushr f => Sys2Proof.Machine.execFlushr f s
  | .flushrA f => Sys2Proof.Machine.execFlushrA f s
  | .fput f => Sys2Proof.Machine.execFput f s
  | .fget f => Sys2Proof.Machine.execFget f s
  | .fsig add sz f => Sys2Proof.Machine.execFsig add sz f s
  | .fbar f => Sys2Proof.Machine.execFbar f s
  | .fbarStep f => Sys2Proof.Machine.execFbarStep f s
  | .drain f => Sys2Proof.Machine.execDrain f s
  | .rload f => Sys2Proof.Machine.execRload f s
  | .rstat k f => Sys2Proof.Machine.execRstat k f s
  -- group 111, system (R56, R57)
  | .trap f => Sys2Proof.Machine.execTrap f s
  | .rte f => Sys2Proof.Machine.execRte f s
  | .sysr f => Sys2Proof.Machine.execSysr f s
  | .sysw f => Sys2Proof.Machine.execSysw f s
  | .brk f => Sys2Proof.Machine.execBrk f s
  | .sysc f => Sys2Proof.Machine.execSysc f s
  | .snap f => Sys2Proof.Machine.execSnap f s
  | .rbk f => Sys2Proof.Machine.execRbk f s
  | .ctxsv q f => Sys2Proof.Machine.execCtxsv q f s
  | .ctxld f => Sys2Proof.Machine.execCtxld f s
  | .halt f => Sys2Proof.Machine.execHalt f s
  | .med3 low => Sys2Proof.Machine.execMed3 low s
  -- register operations
  | .tlbinv core v => Sys2Proof.Machine.execTlbinv core v s
  | .orgctlFree core index => Sys2Proof.Machine.execOrgctlFree core index s
  | .orgctlFreeall core => Sys2Proof.Machine.execOrgctlFreeall core s
  | .wake core v => Sys2Proof.Machine.execWake core v s
  | .registerWrite space who reg v => Sys2Proof.Machine.execRegisterWrite space who reg v s
  -- thread-engine events
  | .issueVote lane portB => Sys2Proof.Machine.execIssueVote lane portB s
  | .binTimerExpiry core bin => Sys2Proof.Machine.execBinTimerExpiry core bin s
  | .packPlace core => Sys2Proof.Machine.execPackPlace core s
  | .throttleEpoch core => Sys2Proof.Machine.execThrottleEpoch core s
  | .sleepExpiry t => Sys2Proof.Machine.execSleepExpiry t s
  | .waitwReread t => Sys2Proof.Machine.execWaitwReread t s
  | .waitwTimer t => Sys2Proof.Machine.execWaitwTimer t s
  | .loadReply core id => Sys2Proof.Machine.execLoadReply core id s
  | .writebackTimer core key => Sys2Proof.Machine.execWritebackTimer core key s
  | .clusterInvalidation core key => Sys2Proof.Machine.execClusterInvalidation core key s
  | .revoke core key => Sys2Proof.Machine.execRevoke core key s
  -- stream, matrix and combiner events
  | .streamCommandStart core id => Sys2Proof.Machine.execStreamCommandStart core id s
  | .streamCommandComplete core id => Sys2Proof.Machine.execStreamCommandComplete core id s
  | .aslDeliver core id t => Sys2Proof.Machine.execAslDeliver core id t s
  | .matrixCommandStart core => Sys2Proof.Machine.execMatrixCommandStart core s
  | .mloopStep core mismatch => Sys2Proof.Machine.execMloopStep core mismatch s
  | .matrixCommandComplete core => Sys2Proof.Machine.execMatrixCommandComplete core s
  | .combineRequestArrival ids => Sys2Proof.Machine.execCombineRequestArrival ids s
  | .waveWindowExpiry object => Sys2Proof.Machine.execWaveWindowExpiry object s
  | .waveApply object => Sys2Proof.Machine.execWaveApply object s
  | .methodInstall die => Sys2Proof.Machine.execMethodInstall die s
  | .combineReply id => Sys2Proof.Machine.execCombineReply id s
  -- save, restore and snapshots
  | .memberSave t => Sys2Proof.Machine.execMemberSave t s
  | .snapshotValid team => Sys2Proof.Machine.execSnapshotValid team s
  | .rollback team => Sys2Proof.Machine.execRollback team s
  -- host
  | .pageRequestAnswer die entry refused => Sys2Proof.Machine.execPageRequestAnswer die entry refused s
  | .hostWrite pa size v => Sys2Proof.Machine.execHostWrite pa size v s
  | .hostRead pa size => Sys2Proof.Machine.execHostRead pa size s
  | .backInvalidateAck line => Sys2Proof.Machine.execBackInvalidateAck line s
  | .launchRecord die => Sys2Proof.Machine.execLaunchRecord die s
  | .launchStart die => Sys2Proof.Machine.execLaunchStart die s
  | .launchCopy die => Sys2Proof.Machine.execLaunchCopy die s
  | .deviceLevelFault cause => Sys2Proof.Machine.execDeviceLevelFault cause s
  | .bringUp r => Sys2Proof.Machine.execBringUp r s
  -- power, reliability, checkpoints and management
  | .coreClockGate core => Sys2Proof.Machine.execCoreClockGate core s
  | .wakeEvent w => Sys2Proof.Machine.execWakeEvent w s
  | .ecsPoll rows corr => Sys2Proof.Machine.execEcsPoll rows corr s
  | .checkpointRequest coordinator seq => Sys2Proof.Machine.execCheckpointRequest coordinator seq s
  | .i3cCommand c => Sys2Proof.Machine.execI3cCommand c s
  | .attestationRequest nonce => Sys2Proof.Machine.execAttestationRequest nonce s
  | .firmwareUpdate version image signature => Sys2Proof.Machine.execFirmwareUpdate version image signature s
  -- fabric
  | .fabricTimeout tag => Sys2Proof.Machine.execFabricTimeout tag s
  -- late results and acknowledgements
  | .multiCycleResult core id => Sys2Proof.Machine.execMultiCycleResult core id s
  | .storeFillReturn core id => Sys2Proof.Machine.execStoreFillReturn core id s
  | .hostStoreCompletion id => Sys2Proof.Machine.execHostStoreCompletion id s
  | .portRelock port => Sys2Proof.Machine.execPortRelock port s
  | .checkpointAnswer device => Sys2Proof.Machine.execCheckpointAnswer device s
  | .ideKeyExchange channel key => Sys2Proof.Machine.execIdeKeyExchange channel key s
  -- events that name nothing: register operations, Troham, slots and markers, and the flit at the head of the inbox
  | .devctlReset => Sys2Proof.Machine.execDevctlReset s
  | .devctlJrnclr => Sys2Proof.Machine.execDevctlJrnclr s
  | .ckptctlNow => Sys2Proof.Machine.execCkptctlNow s
  | .powerAlarm => Sys2Proof.Machine.execPowerAlarm s
  | .sramRetentionEntry => Sys2Proof.Machine.execSramRetentionEntry s
  | .hbmSelfRefreshEntry => Sys2Proof.Machine.execHbmSelfRefreshEntry s
  | .checkpointDue => Sys2Proof.Machine.execCheckpointDue s
  | .frameMarker => Sys2Proof.Machine.execFrameMarker s
  | .slotBoundary => Sys2Proof.Machine.execSlotBoundary s
  | .roseTakeEffect => Sys2Proof.Machine.execRoseTakeEffect s
  | .temperatureEvent => Sys2Proof.Machine.execTemperatureEvent s
  | .writeFlit => Sys2Proof.Machine.execWriteFlit s
  | .readRequestFlit => Sys2Proof.Machine.execReadRequestFlit s
  | .readReplyFlit => Sys2Proof.Machine.execReadReplyFlit s
  | .atomicRequestFlit => Sys2Proof.Machine.execAtomicRequestFlit s
  | .atomicReplyFlit => Sys2Proof.Machine.execAtomicReplyFlit s
  | .signalFlit => Sys2Proof.Machine.execSignalFlit s
  | .acknowledgeFlit => Sys2Proof.Machine.execAcknowledgeFlit s
  | .refusalFlit => Sys2Proof.Machine.execRefusalFlit s
  | .allowanceGrantFlit => Sys2Proof.Machine.execAllowanceGrantFlit s
  | .drainMarkerFlit => Sys2Proof.Machine.execDrainMarkerFlit s
  | .drainAcknowledgeFlit => Sys2Proof.Machine.execDrainAcknowledgeFlit s
  | .barrierArrivalFlit => Sys2Proof.Machine.execBarrierArrivalFlit s
  | .barrierReleaseFlit => Sys2Proof.Machine.execBarrierReleaseFlit s
  | .reservedTypeFlit => Sys2Proof.Machine.execReservedTypeFlit s

end Sys2Proof.Machine
end

