-- ==== Sys2Proof/Machine/Step.lean ====
section
/-! DEFINITION. One step of the machine. -/

namespace Sys2Proof.Machine

/-- A state that an instruction leaves, with what follows of itself. -/
def settled (o : Host.Outcome State Fault Refusal) : Host.Outcome State Fault Refusal :=
  match o with
  | .next s => .next (tidy s)
  | .fault f => .fault f
  | .refused r => .refused r

/-- An upset's effect: a mismatch that waits for the port's next redundant thread-operation (R259); words that become poison ECC, all
sixteen of an HBM line (R23, R200); a flit that leaves again from the replay store, up to four times (R341); a combine whose reply is
lost once its request has left (R283). -/
def upsetBy (s : State) (u : Upset) : State :=
  match u with
  | .alu k => if (tget k s.ports).isSome then s.modPort k fun p => { p with upset := true } else s
  | .hbm line =>
    if isHost s (64 * line) then s
    else { s with mem := (List.range 16).foldl (fun m i => m.setWord (16 * line + i) (.bad (token 0xFFF cECC))) s.mem }
  | .l2 w => if isHost s (4 * w) then s else { s with mem := s.mem.setWord w (.bad (token 0xFFF cECC)) }
  | .l1 c key => s.modCore c fun x => match tget key x.l1 with
    | some e => { x with l1 := tset key { e with val := .bad (token 0xFFF cECC) } x.l1 }
    | none => x
  | .flit n => match s.fab.sent[n]? with
    | some f =>
      if tgetD n 0 s.fab.resends < 4 then
        { s with fab := { s.fab with
            sent := s.fab.sent ++ [f]
            resends := tset s.fab.sent.length 4 (tset n (tgetD n 0 s.fab.resends + 1) s.fab.resends)
            resend := min (2 ^ 64 - 1) (s.fab.resend + 1) } }
      else s
    | none => s
  | .reply tag => match tagRec s tag with
    | some r => match r.use with
      | .comb _ => if s.fab.waiting.any fun f => f.tag.toNat == tag then s else tagFail s r cFAB
      | _ => s
    | none => s
  | .tile c w => s.modCore c fun x => { x with tmem := x.tmem.setWord w (.bad (token 0xFFF cECC)) }

/-- One choice carried out. An instruction word cannot happen as an event: it is passed over. -/
def act (s : State) (c : Choice) : Host.Outcome State Fault Refusal :=
  match c with
  | .tick => .next (tick s)
  | .flit p f data => .next { s with fab := { s.fab with inbox := s.fab.inbox ++ [(p, f, data)] } }
  | .issue k => match pick s k with
    | .done s => .next s
    | .run i s => exec i s
  | .upset u => .next (upsetBy s u)
  | .ev i => if (encode i).isSome then .next s else exec i s

/-- One step: the agenda's next choice, or the machine's own. -/
def step (s : State) : Host.Outcome State Fault Refusal :=
  if dead s then .fault .deviceStopped
  else match s.agenda with
    | c :: cs => settled (act { s with agenda := cs } c)
    | [] => settled (act s (defaultChoice s))

/-- The clause class that admits a word (R31). -/
def classOf (w : Nat) : Nat :=
  let o := w / 2 ^ 56 % 2 ^ 8
  if o < 0x80 then 0 else if o < 0xA0 then 1 else if o < 0xC0 then 2 else if o < 0xC3 then 3 else if o < 0xE0 then 4 else 5

/-- s with the instruction of bits w as the next one issued: alone in a clause that admits it, on port A of lane 0 of core 0, which
a supervisor thread in slot 0 has entered; core 0's other ports hold in this cycle, and no vote fills one (assumption 19). -/
def State.withFetchWord (s : State) (nbits w : Nat) : State :=
  let w := w % 2 ^ nbits
  let p : Port := { hdr := BitVec.ofNat 64 (classOf w * 2 ^ 61), words := [BitVec.ofNat 64 w], pack := [0] }
  { s with
    threads := tset 0 { (if s.live 0 then s.thr 0 else { tfp := defaultTfp 0 }) with priv := true, pc := 8, hdr := some 0 } s.threads
    ports := tset 0 p (((List.range 32).map fun k => (k, { s.port k with stall := true, old := [] })) ++ s.ports.filter fun q => decide (32 ≤ q.1))
    turns := tset 0 0 s.turns
    lent := s.lent.filter fun p => decide (2 ≤ p.1)
    agenda := .issue 0 :: s.agenda
    cores := tset 0 { (s.core 0) with halted := false, gatedAt := none } s.cores
    host := { s.host with ready := true, fault := false, stopped := false, pstate := 0, fenced := s.host.fenced.filter fun k => k != 0 } }

end Sys2Proof.Machine
end

