-- ==== Sys2Proof/Safety.lean ====
section
/-! DEFINITION. The words of the statements: memories in order, a step that does not stop, a word run by a pack of one thread. -/

namespace Sys2Proof.Machine

/-- Every memory of the machine is in its canonical form. -/
def State.memOk (s : State) : Prop :=
  s.mem.wf = true ∧ s.hostMem.wf = true ∧ ∀ p ∈ s.cores, p.2.tmem.wf = true

/-- A step that does not stop the machine. -/
def safeStep (s : State) : Prop := ∃ t, step s = .next t

/-- Thread T stands alone on the issuing port, before a word of prefix x that it acts on and whose copies do not differ (R36, R58, R95,
R259). -/
structure Solo (s : State) (T : Tid) (x : Pfx) : Prop where
  port : s.iss.isSome = true
  pack : s.cur.pack = [T]
  first : s.cur.acts = none
  fresh : s.cur.done = []
  live : s.live T = true
  act : actsOn x (s.thr T) = true
  calm : s.cur.upset = false

/-- The issuing port's clause is of class n (R31). -/
def inClass (s : State) (n : Nat) : Prop := bitsOf s.cur.hdr.toNat 63 61 = n

/-- The thread goes on behind the word of port p, or to g; at the end of its clause YLD, or a YIELD of the clause, demotes it (R28, R35, R95,
R97, R146). -/
def passed (p : Port) (g : Option Tgt) (y : Thread) : Thread :=
  if atLast p then endClause (p.hdr.getLsbD 36) (passOn p g y) else passOn p g y

/-- The issuing port once the word's acting thread T is known. -/
def opened (s : State) (T : Tid) : State := s.modCur (begin_ [T])

/-- The end of a word that thread T, alone in its pack, has done: it goes on behind the word, or to g, and the port moves on
after `cost` cycles (R95, R125, R146). -/
def ended (s : State) (T : Tid) (g : Option Tgt) (cost : Nat) : State := endWord ((finish s T g).modCur (markDone T)) cost

/-- A value written to slices D of thread T by the word at the port: outside the allocation the write is dropped, and a fresh
BND token, whose entry holds D's first slice, is recorded (R110, R199, R201). -/
def wrote (s : State) (T : Tid) (lo n : Nat) (v : Val) : State :=
  if lo + n ≤ (s.thr T).alloc then s.modThr T fun x => x.put lo n v
  else
    let r := raiseAt s T s.cur.addr cBND (BitVec.ofNat 64 lo)
    recordDrop r.1 T r.2

/-- No source of the word is pending in the thread it is read from (R115). -/
def unheld (s : State) (T : Tid) (rs : List Src) : Prop := ∀ r ∈ rs, r.busy s [T] T = false

/-- Slices lo to lo + n − 1 of thread T wait for nothing (R115). -/
def idle (s : State) (T : Tid) (lo n : Nat) : Prop := (s.thr T).pending lo n = false

/-- What an ALU word leaves: its operands read in order, then what its destination takes (R131): the token of the
lowest-numbered poisoned operand, else the computed value, else a fresh token of the cause that the operation names. -/
def operated (s : State) (T : Tid) (rs : List Src) (f : List Nat → Res) : State × Val :=
  let a := readSrcs [T] T rs (opened s T)
  match lowTok a.2 with
  | some k => (a.1, .bad k)
  | none => match f (a.2.map Val.num) with
    | .val v => (a.1, .ok v)
    | .inv c => let r := raise a.1 T c; (r.1, .bad r.2)

/-- An ALU word that thread T has run: its result stands in D (R131, R199). -/
def aluDone (s : State) (T : Tid) (d : Opd) (rs : List Src) (cost : Nat) (f : List Nat → Res) : State :=
  let b := operated s T rs f
  ended (wrote b.1 T d.start.toNat d.slices b.2) T none (max 1 (cost + crossCost rs))

/-- An ALU word whose result comes after `lat` cycles: D is pending on a work item that holds it (R132). -/
def lateDone (s : State) (T : Tid) (d : Opd) (rs : List Src) (lat : Nat) (f : List Nat → Res) : State :=
  let b := operated s T rs f
  ended (addReq b.1 (coreOf T) [T] b.1.cur.addr [⟨d.start.toNat, d.slices, b.2.got⟩] .multi lat).1 T none
    (max 1 (1 + crossCost rs))

/-- A word that writes predicate p: a poisoned operand gives false and its token is recorded (R131). -/
def predDone (s : State) (T : Tid) (p : Nat) (rs : List Src) (f : List Nat → Bool) : State :=
  let a := readSrcs [T] T rs (opened s T)
  ended (match lowTok a.2 with
    | some k => recordDrop (a.1.modThr T fun y => y.setPred p false) T k
    | none => a.1.modThr T fun y => y.setPred p (f (a.2.map Val.num))) T none (max 1 (1 + crossCost rs))

/-- Nothing holds an ALU word of thread T: its sources and its destination D wait for nothing (R115). -/
def aluFree (s : State) (T : Tid) (d : Opd) (rs : List Src) : Prop := unheld s T rs ∧ idle s T d.start.toNat d.slices

/-- No watchpoint of the core matches the access, of the kinds ks and `len` bytes, that thread T's word makes (R249). -/
def unwatched (s : State) (T : Tid) (f : MForm) (ks : List Nat) (len : Nat) : Prop :=
  (memGate f ks len).wait s [T] [T] = false ∧ (memGate f ks len).watch s [T] = []

/-- The operand reads of an engine's word; the leg of its thread can no longer replay (R213). -/
def engaged (s : State) (T : Tid) (rs : List Src) : State × List Val :=
  let a := readSrcs [T] T rs (opened s T)
  (noReplay a.1 [T], a.2)

/-- An engine's word that answers at once: its lowest operand token, or the value of what it does, stands in D (R131). -/
def engineDone (s : State) (T : Tid) (d : Opd) (rs : List Src) (g : State → List Nat → State × Nat) : State :=
  let a := engaged s T rs
  let b : State × Val := match lowTok a.2 with
    | some k => (a.1, .bad k)
    | none => let r := g a.1 (a.2.map Val.num); (r.1, .ok (r.2 % 2 ^ d.bits))
  ended (wrote b.1 T d.start.toNat d.slices b.2) T none (max 1 (1 + crossCost rs))

/-- An engine's word that acts on one operand: its token is recorded, or `g` acts on its value, with a cause to record, if any. -/
def engineActs (s : State) (T : Tid) (r : Src) (g : State → Nat → State × Option Nat) : State :=
  let a := r.read (opened s T) [T] T
  let s1 := noReplay a.1 [T]
  ended (match a.2 with
    | .bad k => recordDrop s1 T k
    | .ok v => let q := g s1 v
      match q.2 with
      | none => q.1
      | some k => let z := raise q.1 T k; recordDrop z.1 T z.2) T none (max 1 (1 + crossCost [r]))

/-- A command issued: its number is counted in its class, its future's handle stands in D with D pending on it, and `enter`
queues it; a poisoned operand completes it at once with the lowest token (R13, R20, R21, R298, R352). -/
def commanded (s : State) (T : Tid) (cls : Cls) (fut : Option Opd) (rs : List Src) (enter : State → Nat → List Nat → State) : State :=
  let c := coreOf T
  let a := engaged s T rs
  let f := a.1.fresh c
  let s1 := issueCmd f.1 cls f.2 [T]
  let h := if fut.isSome then allocFut s1 c cls f.2 else (s1, 0)
  let s2 := match lowTok a.2 with | some _ => h.1 | none => enter h.1 f.2 (a.2.map Val.num)
  let s3 := match fut with
    | none => s2
    | some d => markPend (wrote s2 T d.start.toNat d.slices (.ok h.2)) T d.start.toNat d.slices f.2 true
  ended (match lowTok a.2 with | some k => completeCmd s3 c f.2 (some k) | none => s3) T none (max 1 (1 + crossCost rs))

/-- Nothing holds a command's issue: operands, counter, future entry and D (R13, R17, R20, R115). -/
def cmdFree (s : State) (T : Tid) (cls : Cls) (fut : Option Opd) (rs : List Src) : Prop :=
  unheld s T rs ∧ (s.thr T).count cls < 63
    ∧ ∀ d, fut = some d → idle s T d.start.toNat d.slices ∧ futFull s (coreOf T) = false

end Sys2Proof.Machine
end

