-- ==== Sys2Proof/Certificates/Slice0/Obligations.lean ====
section
/-! DEFINITION. What is to be proved of the model: for each family what its instructions leave, when they complete, what they
leave alone, and the rules of the machine as a whole. -/

open Sys2Proof Sys2Proof.Machine

/-- R133, R134, R132: the exact value of the sources extended to w by sg, wrapped and fitted, or clamped with .sat. -/
def Obligations.IntegerArithmeticResults : Prop :=
  ∀ (s : State) (T : Tid) (f : RForm) (sg sat : Bool) (wc : BitVec 3), Solo s T f.x →
    let w := wcBits wc
    let W := f.d.bits
    let c := if w ≥ 48 then 2 else 1
    let a := fun (l : List Nat) => fitSrc sg f.a.bits w (arg l 0)
    let b := fun (l : List Nat) => fitSrc sg f.b.bits w (arg l 1)
    let d := fun (l : List Nat) => fitSrc sg W w (arg l 2)
    let neg := fun (l : List Nat) => fitSrc false f.a.bits w (arg l 0)
    let fit := fun (v : Int) => Res.val (fitRes sg w W v)
    let fitOrSat := fun (v : Int) => Res.val (if sat then satRes sg W v else fitRes sg w W v)
    let fitOrSatS := fun (v : Int) => Res.val (if sat then satRes false W v else fitRes false w W v)
    (aluFree s T f.d [rA f, rB f] →
      exec (.iadd sg wc sat f) s = .next (aluDone s T f.d [rA f, rB f] 1 fun l => fitOrSat (a l + b l))
      ∧ exec (.isub sg wc sat f) s = .next (aluDone s T f.d [rA f, rB f] 1 fun l => fitOrSat (a l - b l))
      ∧ exec (.imul sg wc f) s = .next (aluDone s T f.d [rA f, rB f] c fun l => fit (a l * b l))
      ∧ exec (.imulh sg wc f) s = .next (aluDone s T f.d [rA f, rB f] c fun l => fit (a l * b l / 2 ^ w))
      ∧ exec (.imin sg wc f) s = .next (aluDone s T f.d [rA f, rB f] 1 fun l => fit (min (a l) (b l)))
      ∧ exec (.imax sg wc f) s = .next (aluDone s T f.d [rA f, rB f] 1 fun l => fit (max (a l) (b l))))
    ∧ (aluFree s T f.d [rA f, rB f, rD f] →
      exec (.imad sg wc sat f) s = .next (aluDone s T f.d [rA f, rB f, rD f] c fun l => fitOrSat (a l * b l + d l)))
    ∧ (aluFree s T f.d [rA f] →
      exec (.iabs wc sat f) s = .next (aluDone s T f.d [rA f] 1 fun l => fitOrSatS |neg l|)
      ∧ exec (.ineg wc sat f) s = .next (aluDone s T f.d [rA f] 1 fun l => fitOrSatS (-neg l)))
    ∧ ∀ g : IForm, Solo s T g.x → aluFree s T g.d [iA g] →
      exec (.iaddImm sg wc g) s = .next (aluDone s T g.d [iA g] 1 fun l =>
        let i : Int := if sg then g.imm.toNat else g.imm.toInt
        .val (fitRes sg w g.d.bits (fitSrc sg g.a.bits w (arg l 0) + if sg then i % 2 ^ w else (i : Int).bmod (2 ^ w))))

/-- R135, R132: the quotient truncated toward zero, and the remainder, each pending 4 + w ÷ 2 cycles. -/
def Obligations.IntegerDivisionResults : Prop :=
  ∀ (s : State) (T : Tid) (f : RForm) (sg : Bool) (wc : BitVec 3), Solo s T f.x → aluFree s T f.d [rA f, rB f] →
    let w := wcBits wc
    let a := fun (l : List Nat) => fitSrc sg f.a.bits w (arg l 0)
    let b := fun (l : List Nat) => fitSrc sg f.b.bits w (arg l 1)
    let atEdge := fun (l : List Nat) => sg = false ∧ a l = -2 ^ (w - 1) ∧ b l = -1
    exec (.idiv sg wc f) s = .next (lateDone s T f.d [rA f, rB f] (4 + w / 2) fun l =>
      if b l = 0 then .inv cDIVZ else if atEdge l then .inv cINV else .val (fitRes sg w f.d.bits ((a l).tdiv (b l))))
    ∧ exec (.irem sg wc f) s = .next (lateDone s T f.d [rA f, rB f] (4 + w / 2) fun l =>
      if b l = 0 then .inv cDIVZ else if atEdge l then .val 0
      else .val (fitRes sg w f.d.bits (a l - (a l).tdiv (b l) * b l)))

/-- R136 to R139: sources at D's width W; the shifts and bit functions are those of Arith.lean, which the immediate forms share. -/
def Obligations.LogicAndShiftResults : Prop :=
  ∀ (s : State) (T : Tid) (f : RForm) (table : BitVec 8) (sg : Bool), Solo s T f.x →
    let W := f.d.bits
    let two := fun (g : Nat → Nat → Nat) => aluDone s T f.d [rA f, rB f] 1 fun l => .val (g (arg l 0) (arg l 1))
    let one := fun (g : Nat → Nat) => aluDone s T f.d [rA f] 1 fun l => .val (g (arg l 0))
    (aluFree s T f.d [rA f, rB f] →
      exec (.and_ f) s = .next (two fun a b => (a % 2 ^ W) &&& (b % 2 ^ W))
      ∧ exec (.or_ f) s = .next (two fun a b => (a % 2 ^ W) ||| (b % 2 ^ W))
      ∧ exec (.xor_ f) s = .next (two fun a b => (a % 2 ^ W) ^^^ (b % 2 ^ W))
      ∧ exec (.andn f) s = .next (two fun a b => (a % 2 ^ W) &&& (2 ^ W - 1 - b % 2 ^ W))
      ∧ exec (.shl f) s = .next (two fun a k => shiftBits 0 W (a % 2 ^ min f.a.bits W) k)
      ∧ exec (.shr f) s = .next (two fun a k => shiftBits 1 W (a % 2 ^ min f.a.bits W) k)
      ∧ exec (.sar f) s = .next (two fun a k => shiftBits 2 W (shiftSrc 2 f.a.bits W a) k)
      ∧ exec (.rot f) s = .next (two fun a k => shiftBits 3 W (a % 2 ^ min f.a.bits W) k)
      ∧ exec (.bfx sg f) s = .next (two (bfxBits sg f.a.bits W))
      ∧ exec (.bfi f) s = .next (two (bfiBits W)))
    ∧ (aluFree s T f.d [rA f, rB f, rD f] → exec (.lut3 table f) s = .next (aluDone s T f.d [rA f, rB f, rD f] 1 fun l =>
      .val (lut3 table.toNat W (arg l 0) (arg l 1) (arg l 2))))
    ∧ (aluFree s T f.d [rA f] →
      exec (.not_ f) s = .next (one fun a => 2 ^ W - 1 - a % 2 ^ W)
      ∧ exec (.popc f) s = .next (one fun a => popBits f.a.bits a % 2 ^ W)
      ∧ exec (.clz f) s = .next (one fun a => clzBits f.a.bits a % 2 ^ W)
      ∧ exec (.ctz f) s = .next (one fun a => ctzBits f.a.bits a % 2 ^ W)
      ∧ exec (.brev f) s = .next (one fun a => revBits f.a.bits a % 2 ^ W))
    ∧ ∀ g : IForm, Solo s T g.x → aluFree s T g.d [iA g] →
      let V := g.d.bits
      let imm := fun (h : Nat → Nat → Nat) => aluDone s T g.d [iA g] 1 fun l => .val (h (arg l 0) g.imm.toNat)
      exec (.andImm g) s = .next (imm fun a b => (a % 2 ^ V) &&& (b % 2 ^ V))
      ∧ exec (.orImm g) s = .next (imm fun a b => (a % 2 ^ V) ||| (b % 2 ^ V))
      ∧ exec (.xorImm g) s = .next (imm fun a b => (a % 2 ^ V) ^^^ (b % 2 ^ V))
      ∧ exec (.andnImm g) s = .next (imm fun a b => (a % 2 ^ V) &&& (2 ^ V - 1 - b % 2 ^ V))
      ∧ exec (.shlImm g) s = .next (imm fun a k => shiftBits 0 V (a % 2 ^ min g.a.bits V) (k % 64))
      ∧ exec (.shrImm g) s = .next (imm fun a k => shiftBits 1 V (a % 2 ^ min g.a.bits V) (k % 64))
      ∧ exec (.sarImm g) s = .next (imm fun a k => shiftBits 2 V (shiftSrc 2 g.a.bits V a) (k % 64))
      ∧ exec (.rotImm g) s = .next (imm fun a k => shiftBits 3 V (a % 2 ^ min g.a.bits V) (k % 64))

/-- R140 to R142 and R118. MOVH judges its whole .64 operand for R110 (DEDUCED, assumption 50). -/
def Obligations.CompareSelectMoveResults : Prop :=
  ∀ (s : State) (T : Tid),
    (∀ (f : RForm) (sg : Bool) (cond : BitVec 3), Solo s T f.x → unheld s T [rA f, rB f] →
      let w := max f.a.bits f.b.bits
      exec (.icmp sg cond f) s = .next (predDone s T f.d.start.toNat [rA f, rB f] fun l =>
        condHolds cond.toNat (fitSrc sg f.a.bits w (arg l 0)) (fitSrc sg f.b.bits w (arg l 1))))
    ∧ (∀ (g : IForm) (sg : Bool) (cond : BitVec 3), Solo s T g.x → unheld s T [iA g] →
      let w := g.a.bits
      exec (.icmpImm sg cond g) s = .next (predDone s T g.d.start.toNat [iA g] fun l =>
        condHolds cond.toNat (fitSrc sg w w (arg l 0))
          (if sg then (g.imm.toNat : Int) % 2 ^ w else g.imm.toInt.bmod (2 ^ w))))
    ∧ (∀ (f : RForm) (neg : Bool) (sel : BitVec 3), Solo s T f.x → aluFree s T f.d [rA f, rB f] →
      exec (.isel neg sel f) s = .next (aluDone s T f.d [rA f, rB f] 1 fun l =>
        .val ((if (s.thr T).pred sel.toNat = true ↔ neg = false then arg l 0 else arg l 1) % 2 ^ f.d.bits)))
    ∧ (∀ f : RForm, Solo s T f.x → aluFree s T f.d [rA f] →
      exec (.movZ f) s = .next (aluDone s T f.d [rA f] 1 fun l => .val (arg l 0 % 2 ^ f.d.bits))
      ∧ exec (.movS f) s = .next (aluDone s T f.d [rA f] 1 fun l => .val (wrapTo f.d.bits (toSigned f.a.bits (arg l 0)))))
    ∧ (∀ (g : IForm) (z : Bool), Solo s T g.x → idle s T g.d.start.toNat g.d.slices →
      exec (.movi z g) s = .next (aluDone s T g.d [] 1 fun _ =>
        .val (if z then g.imm.toNat % 2 ^ g.d.bits else wrapTo g.d.bits g.imm.toInt)))
    ∧ (∀ (g : IForm) (pos : BitVec 2), Solo s T g.x → idle s T g.d.start.toNat g.d.slices →
      let lo := g.d.start.toNat
      let sp : Nat × Nat := if pos = 0 then (5, 5) else if pos = 1 then (10, 5) else (15, 1)
      exec (.movh pos g) s = .next (ended
        (if lo + 16 ≤ (s.thr T).alloc then (opened s T).modThr T fun x => x.put (lo + sp.1) sp.2 (.ok g.imm.toNat)
          else recordDrop (raiseAt (opened s T) T s.cur.addr cBND (BitVec.ofNat 64 lo)).1 T
            (raiseAt (opened s T) T s.cur.addr cBND (BitVec.ofNat 64 lo)).2) T none 1))
    ∧ (∀ f : RForm, Solo s T f.x → aluFree s T f.d [rA f] →
      (∀ k, (rA f).peek s [T] T = .val (.ok k) → idle s T k f.d.slices) →
      let a := (rA f).read (opened s T) [T] T
      let b : State × Val := match a.2 with
        | .bad k => (a.1, .bad k)
        | .ok k => settle a.1 T ((a.1.thr T).peek k f.d.slices)
      let cross := match (rA f).peek s [T] T with
        | .val (.ok k) => crosses k f.d.slices
        | _ => 0
      exec (.movx f) s = .next (ended (wrote b.1 T f.d.start.toNat f.d.slices b.2) T none (max 1 (1 + crossCost [rA f] + cross))))
    ∧ ∀ f : RForm, Solo s T f.x → unheld s T [rA f, rB f] →
      (∀ k, (rA f).peek s [T] T = .val (.ok k) → idle s T k f.b.slices) →
      let a := (rA f).read (opened s T) [T] T
      exec (.movxw f) s = .next (ended (match a.2 with
        | .bad k => recordDrop a.1 T k
        | .ok k => let b := (rB f).read a.1 [T] T; wrote b.1 T k f.b.slices b.2) T none (max 1 (1 + crossCost [rA f, rB f])))

/-- R143 to R145, element by element. -/
def Obligations.PackedResults : Prop :=
  ∀ (s : State) (T : Tid) (f : RForm) (sg sat : Bool) (ew : BitVec 2) (cond : BitVec 3), Solo s T f.x →
    let e := ewBits ew
    let W := f.d.bits
    let a := fun (l : List Nat) (k : Nat) => elemInt sg e k (arg l 0 % 2 ^ W)
    let b := fun (l : List Nat) (k : Nat) => elemInt sg e k (arg l 1 % 2 ^ W)
    let each := fun (g : List Nat → Nat → Nat) => aluDone s T f.d [rA f, rB f] 1 fun l => .val (elems e (W / e) (g l))
    (aluFree s T f.d [rA f, rB f] →
      exec (.pack ew f) s = .next (each fun l k =>
        if k < W / e / 2 then elem (2 * e) k (arg l 0 % 2 ^ W) else elem (2 * e) (k - W / e / 2) (arg l 1 % 2 ^ W))
      ∧ exec (.padd sg ew sat f) s = .next (each fun l k => elemRes sg sat e (a l k + b l k))
      ∧ exec (.psub sg ew sat f) s = .next (each fun l k => elemRes sg sat e (a l k - b l k))
      ∧ exec (.pmin sg ew f) s = .next (each fun l k => wrapTo e (min (a l k) (b l k)))
      ∧ exec (.pmax sg ew f) s = .next (each fun l k => wrapTo e (max (a l k) (b l k)))
      ∧ exec (.pcmp sg ew cond f) s = .next (each fun l k => if condHolds cond.toNat (a l k) (b l k) then 2 ^ e - 1 else 0))
    ∧ (aluFree s T f.d [rA f] →
      exec (.unpk ew f) s = .next (aluDone s T f.d [rA f] 1 fun l =>
        .val (elems (2 * e) (W / (2 * e)) fun k => elem e k (arg l 0)))
      ∧ exec (.pabs ew f) s = .next (aluDone s T f.d [rA f] 1 fun l =>
        .val (elems e (W / e) fun k => wrapTo e |elemInt false e k (arg l 0)|)))
    ∧ (aluFree s T f.d [rA f, rB f, rD f] →
      exec (.pdot sg ew f) s = .next (aluDone s T f.d [rA f, rB f, rD f] (if f.a.bits > 32 then 2 else 1) fun l =>
        .val (wrapTo W (fitSrc sg W W (arg l 2)
          + ((List.range (f.a.bits / e)).map fun k => elemInt sg e k (arg l 0) * elemInt sg e k (arg l 1 % 2 ^ f.a.bits)).sum))))

/-- R173 to R175, R178, R180, with the cycles of R172. -/
def Obligations.FloatResults : Prop :=
  ∀ (s : State) (T : Tid) (f : RForm) (t : BitVec 2) (m : FMod), Solo s T f.x →
    let k := fmtOf t
    let c := if t = 0 then 2 else 1
    let x := fun (l : List Nat) => k.decode (arg l 0)
    let y := fun (l : List Nat) => k.decode (arg l 1)
    let sign := 2 ^ (k.fb + k.eb)
    (aluFree s T f.d [rA f, rB f] →
      let two := fun (c : Nat) (g : List Nat → Res) => aluDone s T f.d [rA f, rB f] c g
      exec (.fadd t m f) s = .next (two 1 fun l => fpAdd k m.rnd m.sat m.px (x l) (y l))
      ∧ exec (.fsub t m f) s = .next (two 1 fun l => fpAdd k m.rnd m.sat m.px (x l) (y l).negate)
      ∧ exec (.fmul t m f) s = .next (two c fun l => fpMul k m.rnd m.sat m.px (x l) (y l))
      ∧ exec (.fmin t m.px f) s = .next (two 1 fun l => fpMinMax k false m.px (arg l 0) (arg l 1))
      ∧ exec (.fmax t m.px f) s = .next (two 1 fun l => fpMinMax k true m.px (arg l 0) (arg l 1))
      ∧ exec (.fscale t m f) s = .next (two 1 fun l => fpScale k m (x l) (toSigned f.b.bits (arg l 1))))
    ∧ (aluFree s T f.d [rA f, rB f, rD f] → exec (.ffma t m f) s = .next (aluDone s T f.d [rA f, rB f, rD f] c fun l =>
        fpFma k m.rnd m.sat m.px (x l) (y l) (k.decode (arg l 2))))
    ∧ (aluFree s T f.d [rA f] →
      exec (.fabs t f) s = .next (aluDone s T f.d [rA f] 1 fun l => .val (arg l 0 % sign))
      ∧ exec (.fneg t f) s = .next (aluDone s T f.d [rA f] 1 fun l => .val (arg l 0 ^^^ sign))
      ∧ exec (.fclass t f) s = .next (aluDone s T f.d [rA f] 1 fun l => .val (fpClass k (arg l 0) % 2 ^ f.d.bits)))

/-- R181 to R184, and R168 for .ef. -/
def Obligations.ConversionResults : Prop :=
  ∀ (s : State) (T : Tid) (f : RForm) (t u rnd : BitVec 2) (bp : BitVec 4) (sg sat : Bool) (m : FMod), Solo s T f.x →
    (aluFree s T f.d [rA f] →
      let one := fun (g : Nat → Res) => aluDone s T f.d [rA f] 1 fun l => g (arg l 0)
      let whole := fun (a : Nat) => if sg then (a : Int) else toSigned f.a.bits a
      exec (.fcvt t u m f) s = .next (one fun a => fpConvert (fmtOf u) m.rnd m.sat m.px ((fmtOf t).decode a))
      ∧ exec (.icvtf sg t sat rnd f) s = .next (one fun a =>
        .val (roundFmt (fmtOf t) rnd sat (decide (whole a < 0)) (whole a).natAbs 0))
      ∧ exec (.fcvti sg t rnd f) s = .next (one fun a => fpInt sg f.d.bits rnd ((fmtOf t).decode a))
      ∧ exec (.cvtb8 bp false sat rnd f) s = .next (one fun a => .val ((b8Of bp false).round rnd sat ((fmtBits f.a.bits).decode a)))
      ∧ exec (.cvtb8Unsigned bp false sat rnd f) s
        = .next (one fun a => .val ((b8Of bp true).round rnd sat ((fmtBits f.a.bits).decode a)))
      ∧ exec (.cvtf8 bp t f) s = .next (one fun a => fpConvert (fmtOf t) 0 false false ((b8Of bp false).decode a))
      ∧ exec (.cvtf8Unsigned bp t f) s = .next (one fun a => fpConvert (fmtOf t) 0 false false ((b8Of bp true).decode a)))
    ∧ (aluFree s T f.d [rA f, rB f] → idle s T f.b.start.toNat f.b.slices →
      let ef := fun (b : B8) =>
        let a := readSrcs [T] T [rA f, rB f] (opened s T)
        let v : Val × Val := match lowTok a.2 with
          | some k => (.bad k, .bad k)
          | none => let q := b8Feedback b rnd sat (arg (a.2.map Val.num) 0) (arg (a.2.map Val.num) 1); (.ok q.1, .ok q.2)
        ended (putAll (putAll a.1 a.1.cur.addr f.d.start.toNat f.d.slices v.1 none [T]) a.1.cur.addr f.b.start.toNat f.b.slices
          v.2 none [T]) T none (max 1 (1 + crossCost [rA f, rB f]))
      exec (.cvtb8 bp true sat rnd f) s = .next (ef (b8Of bp false))
      ∧ exec (.cvtb8Unsigned bp true sat rnd f) s = .next (ef (b8Of bp true)))

/-- R185, R186. -/
def Obligations.DotAndHalfResults : Prop :=
  ∀ (s : State) (T : Tid) (f : RForm) (rnd : BitVec 2) (bp : BitVec 4) (px : Bool) (m : FMod), Solo s T f.x →
    let h := fun (l : List Nat) (i k : Nat) => f16.decode (arg l i / 2 ^ (16 * k) % 2 ^ 16)
    (aluFree s T f.d [rA f, rB f] →
      exec (.hadd2 m f) s = .next (aluDone s T f.d [rA f, rB f] 1 fun l =>
        halves fun k => fpAdd f16 m.rnd m.sat m.px (h l 0 k) (h l 1 k))
      ∧ exec (.hmul2 m f) s = .next (aluDone s T f.d [rA f, rB f] 1 fun l =>
        halves fun k => fpMul f16 m.rnd m.sat m.px (h l 0 k) (h l 1 k)))
    ∧ (aluFree s T f.d [rA f, rB f, rD f] →
      let dot := fun (b : B8) (l : List Nat) =>
        let sum := (List.range (f.a.bits / 8)).foldl (fun d k =>
          d.add (prodFv (b.decode (byteOf (arg l 0) k)) (b.decode (byteOf (arg l 1) k)) 0)) (Dot.fin 0 0)
        match sum.round rnd with
        | none => invalidRes f32 px
        | some p => fpAdd f32 rnd false px (f32.decode (arg l 2)) (f32.decode p)
      exec (.hfma2 m f) s = .next (aluDone s T f.d [rA f, rB f, rD f] 1 fun l =>
        halves fun k => fpFma f16 m.rnd m.sat m.px (h l 0 k) (h l 1 k) (h l 2 k))
      ∧ exec (.b8dot bp px rnd f) s = .next (aluDone s T f.d [rA f, rB f, rD f] (if f.a.bits = 64 then 2 else 1) (dot (b8Of bp false)))
      ∧ exec (.b8dotUnsigned bp px rnd f) s
        = .next (aluDone s T f.d [rA f, rB f, rD f] (if f.a.bits = 64 then 2 else 1) (dot (b8Of bp true))))

/-- R176, R177; the cycles of R172 for f16, f32 and f64. Which of the allowed codes a unit answers is free (`Config.approxPick`). -/
def Obligations.LateFloatResults : Prop :=
  (∀ (s : State) (T : Tid) (f : RForm) (t : BitVec 2) (m : FMod), Solo s T f.x →
    let k := fmtOf t
    let long := if t = 0 then 24 else if t = 1 then 12 else 8
    let short := if t = 0 then 14 else if t = 1 then 6 else 4
    (aluFree s T f.d [rA f, rB f] → exec (.fdiv t m f) s = .next (lateDone s T f.d [rA f, rB f] long fun l =>
      fpDiv k m.rnd m.sat m.px (k.decode (arg l 0)) (k.decode (arg l 1))))
    ∧ (aluFree s T f.d [rA f] →
      exec (.fsqrt t m f) s = .next (lateDone s T f.d [rA f] long fun l => fpSqrt k m.rnd m.sat m.px (k.decode (arg l 0)))
      ∧ exec (.frcp t m f) s = .next (lateDone s T f.d [rA f] short fun l => fpRcp k m.rnd m.sat m.px (arg l 0))
      ∧ exec (.frsq t m f) s = .next (lateDone s T f.d [rA f] short fun l => fpRsq k m.rnd m.sat m.px (arg l 0))
      ∧ exec (.fexp2 t m f) s = .next (lateDone s T f.d [rA f] short fun l => fpExp2 k m.rnd m.sat m.px (arg l 0))
      ∧ exec (.flog2 t m f) s = .next (lateDone s T f.d [rA f] short fun l => fpLog2 k m.rnd m.sat m.px (arg l 0))))
  ∧ (∀ (op : Nat) (k : Fmt) (rnd : BitVec 2) (sat : Bool) (bound a : Nat) (x : Near),
      let q := min x.e k.qmin
      let lo := x.m * 2 ^ (x.e - q).toNat
      let hi := lo + x.w * 2 ^ (x.e - q).toNat
      let c := roundFmt k 1 true false x.m x.e true
      let ulp := codeAt k (c + 1) q - codeAt k c q
      let below := rnd = 1 ∨ (rnd = 3 ∧ x.neg = false) ∨ (rnd = 2 ∧ x.neg = true)
      lo ≤ codeAt k (k.maxBits false) q → codeAt k 1 q < hi → allowedCodes k rnd bound x ≠ [] →
      ∃ d, approxCode op k rnd sat bound a x = k.sgn x.neg + d
        ∧ let v := codeAt k d q
          let b := if rnd = 0 then bound else 2 * bound
          v ≤ lo + b * ulp ∧ hi ≤ v + b * ulp ∧ (rnd ≠ 0 → if below then v ≤ lo else hi ≤ v))
  ∧ (∀ k ∈ [f16, f32, f64], ∀ (rnd : BitVec 2) (px n : Bool),
      let z0 := if n then 2 ^ (k.fb + k.eb) else 0
      let inf := z0 + (2 ^ k.eb - 1) * 2 ^ k.fb
      fpRcp k rnd false px z0 = .val inf ∧ fpRcp k rnd false px inf = .val z0
      ∧ fpRsq k rnd false px z0 = .val inf ∧ (n = false → fpRsq k rnd false px inf = .val 0))

/-- R179. `ord` compares numbers exactly, each as an integer at a common quantum. -/
def Obligations.FloatCompareResults : Prop :=
  (∀ (s : State) (T : Tid) (f : RForm) (t : BitVec 2) (sig : Bool) (cc : BitVec 3), Solo s T f.x → unheld s T [rA f, rB f] →
    let a := readSrcs [T] T [rA f, rB f] (opened s T)
    let x := (fmtOf t).decode (arg (a.2.map Val.num) 0)
    let y := (fmtOf t).decode (arg (a.2.map Val.num) 1)
    let le := fvLe x y
    let ge := fvLe y x
    let holds := if x.isNan || y.isNan then cc.toNat == 1 || cc.toNat == 6
      else [le && ge, !(le && ge), !ge, le, !le, ge, false, true].getD cc.toNat true
    let wrong := x.isSig || y.isSig || (sig && (x.isNan || y.isNan))
    exec (.fcmp t sig cc f) s = .next (ended (match lowTok a.2 with
      | some k => recordDrop (a.1.modThr T fun z => z.setPred f.d.start.toNat false) T k
      | none =>
        if wrong then let r := raise a.1 T cINV; recordDrop (r.1.modThr T fun z => z.setPred f.d.start.toNat holds) T r.2
        else a.1.modThr T fun z => z.setPred f.d.start.toNat holds) T none (max 1 (1 + crossCost [rA f, rB f]))))
  ∧ (∀ (n : Bool) (k : Fmt) (a : Fv), a.isNan = false →
      fvLe (.fin n 0 k.qmin) (.fin (!n) 0 k.qmin) = true ∧ (fvLe a (.inf false) = true) ∧ fvLe (.inf true) a = true)
  ∧ (∀ (na nb : Bool) (ma mb : Nat) (e : Int), fvLe (.fin na ma e) (.fin nb mb e)
      = decide ((if na then -(ma : Int) else ma) ≤ if nb then -(mb : Int) else mb))
  ∧ decode 0x2817004022808502 = some (.fcmp 1 false 2
      { x := { u := false, p := 7, pn := false }, d := { start := 1, wc := 0 }, a := { start := 8, wc := 5 }, ax := .self
        b := { start := 16, wc := 5 }, bx := .self, r4 := false, e := 0 })

/-- R160 and R161 for the three IEEE formats, with 2^(bias + 1) the first power of two beyond the format; R163 to R167 for
all 7168 binary8 codes, and the rounding of the worked example into b8p4. -/
def Obligations.NumberFormatResults : Prop :=
  (∀ k ∈ [f16, f32, f64], ∀ v < 2 ^ k.bits, ∀ (rnd : BitVec 2) (sat n : Bool) (m : Nat) (e : Int),
    k.decode v = .fin n m e → roundFmt k rnd sat n m e = v)
  ∧ (∀ k ∈ [f16, f32, f64], ∀ (n : Bool) (m : Nat), 2 ^ (k.bias + 1).toNat ≤ m →
    let inf := (if n then 2 ^ (k.fb + k.eb) else 0) + (2 ^ k.eb - 1) * 2 ^ k.fb
    roundFmt k 0 false n m 0 = inf
    ∧ roundFmt k 1 false n m 0 = inf - 1
    ∧ roundFmt k 2 false n m 0 = (if n then inf - 1 else inf)
    ∧ roundFmt k 3 false n m 0 = (if n then inf else inf - 1)
    ∧ ∀ rnd, roundFmt k rnd true n m 0 = inf - 1)
  ∧ (∀ p : Fin 7, ∀ (fin uns : Bool), ∀ c : Fin 256, ∀ rnd : BitVec 2,
    let b := b8Of (BitVec.ofNat 4 (p.val + 1 + if fin then 8 else 0)) uns
    (match b.decode c.val with
    | .fin n m e => b.round rnd false (.fin n m e) == c.val && b.round rnd true (.fin n m e) == c.val
    | .inf n => !fin && c.val == (if uns then 0xFE else if n then 0xFF else 0x7F)
    | .nan _ => c.val == if uns then 0xFF else 0x80) = true)
  ∧ (let b := b8Of 4 false
     b.round 0 false (.fin false 232 0) = 0x7E ∧ b.round 0 false (.fin false 236 0) = 0x7F ∧ b.round 0 true (.fin false 236 0) = 0x7E
     ∧ b.round 2 false (.fin true 236 0) = 0xFE ∧ b.round 0 false (.fin false 3 (-4)) = 0x2C)
  ∧ (let b := b8Of 12 false
     b.round 0 false (.fin false 236 0) = 0x7F ∧ b.round 0 false (.fin false 300 0) = 0x80 ∧ b.round 0 true (.fin false 300 0) = 0x7F)
  ∧ (let b := b8Of 4 true
     b.round 0 false (.fin true 3 0) = 0xFF ∧ b.round 0 true (.fin true 3 0) = 0x00)

/-- R95, R125, R146, R126, R35: what `ended` leaves. -/
def Obligations.EndOfWord : Prop :=
  ∀ (s : State) (T : Tid) (g : Option Tgt) (cost : Nat), s.iss.isSome = true → s.cur.pack = [T] → s.cur.done = [] →
    let p := s.cur
    let n := g.getD (if p.widx + 1 < p.words.length then ⟨p.hdrAddr + BitVec.ofNat 64 (8 * (p.widx + 2)), some p.hdrAddr⟩
      else ⟨p.hdrAddr + BitVec.ofNat 64 (8 * (p.words.length + 1)), none⟩)
    let keep := fun (x : Thread) (v : Option Raw) => if x.carryAt = p.addr then none else v
    ended s T g cost = (s.modThr T fun x =>
        { x with
          pc := n.pc, hdr := n.hdr, carryA := keep x x.carryA, carryB := keep x x.carryB
          demote := if p.widx + 1 = p.words.length ∧ (p.hdr.getLsbD 36 ∨ x.yields) then 16 else x.demote
          yields := if p.widx + 1 = p.words.length then false else x.yields }).modCur fun q =>
      { q with widx := q.widx + 1, done := [], acts := none, old := [], busy := cost, stall := false }

/-- R148 to R151. -/
def Obligations.ControlTransferResults : Prop :=
  ∀ (s : State) (T : Tid), atLast s.cur = true →
    let p := s.cur
    let behind := p.hdrAddr + BitVec.ofNat 64 (8 * (p.words.length + 1))
    let near := fun (f : BForm) => some (⟨p.hdrAddr + f.disp.signExtend 64 * 8, none⟩ : Tgt)
    let far := fun (a : Nat) => some (⟨BitVec.ofNat 64 (a / 8 * 8), none⟩ : Tgt)
    (∀ f : BForm, Solo s T f.x →
      exec (.bra f) s = .next (ended (opened s T) T (near f) 1)
      ∧ (idle s T (bOpd f).start.toNat (bOpd f).slices →
        exec (.call f) s
          = .next (ended (wrote (opened s T) T (bOpd f).start.toNat (bOpd f).slices (.ok behind.toNat)) T (near f) 1)
        ∧ let a := Src.read ⟨(bOpd f).start.toNat, (bOpd f).slices, .self, 0, false⟩ (opened s T) [T] T
          let n := 1 + crosses (bOpd f).start.toNat (bOpd f).slices
          exec (.loopd f) s = .next (match a.2 with
            | .bad k => ended (recordDrop a.1 T k) T none n
            | .ok c => if c = 0 then ended a.1 T none n
              else ended (wrote a.1 T (bOpd f).start.toNat (bOpd f).slices (.ok (c - 1))) T (if c = 1 then none else near f) n)))
    ∧ ∀ f : RForm, Solo s T f.x → unheld s T [rA f] →
      let a := (rA f).read (opened s T) [T] T
      let c := 1 + crossCost [rA f]
      let jump := match a.2 with
        | .bad k => ended (recordDrop a.1 T k) T none c
        | .ok v => ended a.1 T (far v) c
      exec (.jmpi f) s = .next jump ∧ exec (.ret f) s = .next jump
      ∧ (idle s T f.d.start.toNat f.d.slices → exec (.calli f) s = .next (match a.2 with
        | .bad k => ended (recordDrop a.1 T k) T none c
        | .ok v => ended (wrote a.1 T f.d.start.toNat f.d.slices (.ok behind.toNat)) T (far v) c))

/-- R97, R152 to R154, R156. -/
def Obligations.SchedulingResults : Prop :=
  ∀ (s : State) (T : Tid),
    (∀ f : RForm, Solo s T f.x →
      exec (.yield f) s = .next (ended ((opened s T).modThr T fun x => { x with yields := true }) T none 1)
      ∧ exec (.nop f) s = .next (ended (opened s T) T none 1)
      ∧ (atLast s.cur = true → (s.thr T).leg = none →
        exec (.stop f) s = .next (ended ((opened s T).modThr T fun x => { x with hold := { x.hold with stopping := true } }) T none 1)))
    ∧ ∀ g : IForm, Solo s T g.x →
      exec (.sleep g) s = .next (ended ((opened s T).modThr T fun x =>
        { x with hold := { x.hold with sleep := some (max (x.hold.sleep.getD 0) (s.now + g.imm.toNat)) } }) T none 1)
      ∧ ∀ cls : BitVec 2, (s.thr T).count (clsOf cls) ≤ g.imm.toNat →
        exec (.wait cls g) s = .next (ended (opened s T) T none 1)

/-- R155. A WAITW that blocks takes the place of an earlier watch of its clause (DESIGN CHOICE, assumption 78); only one that blocked acquires
when it goes on, and a word of a peer's page is re-read there (assumption 7). -/
def Obligations.WaitwResults : Prop :=
  ∀ (s : State) (T : Tid) (f : RForm), Solo s T f.x → (waitwOp f).rdBusy (opened s T) [T] T = false →
    let a := readSrcs [T] T [rA f, rB f] (opened s T)
    let ea := BitVec.ofNat 64 (arg (a.2.map Val.num) 0)
    let want := arg (a.2.map Val.num) 1
    let l := loadAt a.1 T ea f.b.bits false false id
    let c := max 1 (1 + crossCost [rA f, rB f])
    (∀ k, lowTok a.2 = some k → exec (.waitw f) s = .next (ended (recordDrop a.1 T k) T none c))
    ∧ (lowTok a.2 = none → ea.toNat % (f.b.bits / 8) ≠ 0 →
      exec (.waitw f) s = .next (ended (recordRaise a.1 T cBND ea) T none c))
    ∧ (lowTok a.2 = none → ea.toNat % (f.b.bits / 8) = 0 → ∀ v, l.2 = .got (.clean v) →
      (v ≠ want → exec (.waitw f) s = .next (ended l.1 T none c))
      ∧ (v = want → ∀ p, (xlat a.1 T .load ea).2 = .ok p →
        exec (.waitw f) s = .next (ended (l.1.modThr T fun x =>
          { x with hold := { x.hold with watch := some (watchOf l.1 T ea f.b.bits want p) } }) T none c)))

/-- R91, R87, R73: `beginSpawn` reads the entry word and forms the job, `pushJob` puts its records into bins. -/
def Obligations.SpawnResults : Prop :=
  (∀ (s : State) (T : Tid) (f : RForm) (batch : Bool), Solo s T f.x → unheld s T [rA f, rB f] → (s.thr T).spawn = none →
    (batch = true → idle s T 16 16) →
    let a := readSrcs [T] T [rA f, rB f] (opened s T)
    let t := pushJob (beginSpawn a.1 T batch a.2) T 4096
    (∀ j, (t.thr T).spawn = some j → j.count ≤ j.next) → (t.thr T).spawn.isSome = true → unheld t T [rA f, rB f] →
    (batch = true → idle t T 16 16) →
    let after := ended ((noReplay t [T]).modThr T fun x => { x with spawn := none }) T none (max 1 (1 + crossCost [rA f, rB f]))
    (batch = false → exec (.spawn f) s = .next after) ∧ (batch = true → exec (.spawnn f) s = .next after))
  ∧ (∀ (s : State) (T : Tid) (batch : Bool) (vs : List Val),
      (∀ k, lowTok vs = some k → beginSpawn s T batch vs = (recordDrop s T k).modThr T fun x => { x with spawn := some {} })
      ∧ (lowTok vs = none → ∀ k, (readEntry s T (BitVec.ofNat 64 (arg (vs.map Val.num) 0 / 8 * 8))).2 = .error k →
        beginSpawn s T batch vs = (recordDrop (readEntry s T (BitVec.ofNat 64 (arg (vs.map Val.num) 0 / 8 * 8))).1 T k).modThr T
          fun x => { x with spawn := some {} }))
  ∧ (∀ (s : State) (c : Nat) (r : SpawnRec) (i : Nat), i < 16 →
      (∀ j < i, (tgetD j {} (s.core c).bins).key ≠ some r.entry) → (tgetD i {} (s.core c).bins).key = some r.entry →
      putRecord s c r = if (tgetD i {} (s.core c).bins).recs.length < 64 then
        some (s.modCore c fun x =>
          let b := tgetD i {} x.bins
          let b := if b.recs.isEmpty then { b with opened := s.now, expired := false } else b
          { x with bins := tset i { b with key := some r.entry, recs := b.recs ++ [{ r with at_ := s.now }] } x.bins }) else none)

/-- R102, R103, R105, for a handle h of nine bits; JOINs under way on other ports count towards R103's bound. An ARRIVE count of any width is
added whole, to 2048 (DESIGN CHOICE, assumption 77); WAITPH waits for earlier loads, and blocks after its clause (DEDUCED, assumption 50). -/
def Obligations.TeamResults : Prop :=
  ∀ (s : State) (T : Tid) (f : RForm), Solo s T f.x →
    let c1 := max 1 (1 + crossCost [rA f])
    let c2 := max 1 (1 + crossCost [rA f, rB f])
    let s1 := noReplay (opened s T) [T]
    (unheld s T [rA f] → ∀ h < 512, (rA f).peek s [T] T = .val (.ok h) →
      let e := teamOf s T h
      ((s.thr T).team = none → joinsUnder s = [] → (e.live = true → e.members < 2048) →
        exec (.join f) s = .next (ended ((setTeam s1 T h
          (if e.live then { e with members := e.members + 1 } else ⟨true, 1, 0, 0⟩)).modThr T
            fun x => { x with team := some (BitVec.ofNat 16 h) }) T none c1))
      ∧ ((s.thr T).team = some (BitVec.ofNat 16 h) →
        exec (.leave f) s = .next (ended ((setTeam s1 T h
          (if e.members - 1 = 0 then { e with members := 0, live := false }
            else if e.arrived ≥ e.members - 1 then { e with members := e.members - 1, phase := (e.phase + 1) % 2 ^ 16, arrived := 0 }
            else { e with members := e.members - 1 })).modThr T fun x => { x with team := none }) T none c1)))
    ∧ (unheld s T [rA f, rB f] → ∀ h < 512, ∀ n, (rA f).peek s [T] T = .val (.ok h) → (rB f).peek s [T] T = .val (.ok n) →
      (s.thr T).team = some (BitVec.ofNat 16 h) →
      let e := teamOf s T h
      (relBusy (opened s T) T 2 = false →
        exec (.arrive f) s = .next (ended (setTeam s1 T h
          (if min (e.arrived + n) 2048 ≥ e.members then { e with phase := (e.phase + 1) % 2 ^ 16, arrived := 0 }
            else { e with arrived := min (e.arrived + n) 2048 })) T none c2))
      ∧ let d := (2 ^ 16 + e.phase - n % 2 ^ 16) % 2 ^ 16
        acqBusy (opened s T) T 2 = false → exec (.waitph f) s = .next (ended (if 1 ≤ d ∧ d ≤ 32767 then acquire (opened s T) (coreOf T) 2
          else (opened s T).modThr T fun x =>
            { x with hold := { x.hold with phase := some (BitVec.ofNat 16 h, BitVec.ofNat 16 n) } }) T none c2))
    ∧ (unheld s T [rA f] → ∀ k, (rA f).peek s [T] T = .val (.bad k) →
      (joinsUnder s = [] → exec (.join f) s = .next (ended (recordDrop s1 T k) T none c1))
      ∧ exec (.leave f) s = .next (ended (recordDrop s1 T k) T none c1))
    ∧ (unheld s T [rA f, rB f] → (rA f).peek s [T] T ≠ .xch → (rB f).peek s [T] T ≠ .xch →
      (∀ lo, (rA f).peek s [T] T ≠ .bnd lo) → (∀ lo, (rB f).peek s [T] T ≠ .bnd lo) →
      ∀ k, ((rA f).peek s [T] T = .val (.bad k) ∨ (∃ v, (rA f).peek s [T] T = .val (.ok v)) ∧ (rB f).peek s [T] T = .val (.bad k)) →
      (relBusy (opened s T) T 2 = false → exec (.arrive f) s = .next (ended (recordDrop s1 T k) T none c2))
      ∧ (acqBusy (opened s T) T 2 = false → exec (.waitph f) s = .next (ended (recordDrop (opened s T) T k) T none c2)))

/-- R106, R107. -/
def Obligations.ItemResults : Prop :=
  ∀ (s : State) (T : Tid),
    (∀ f : RForm, Solo s T f.x → unheld s T [rA f] → (s.core (coreOf T)).items.length < 4096 →
      let a := (rA f).read (opened s T) [T] T
      exec (.itempush f) s = .next (ended (noReplay (a.1.modCore (coreOf T) fun x => { x with items := x.items ++ [a.2] }) [T]) T none
        (max 1 (1 + crossCost [rA f]))))
    ∧ ∀ f : BForm, Solo s T f.x → atLast s.cur = true → idle s T (bOpd f).start.toNat (bOpd f).slices →
      exec (.item f) s = .next (match (s.core (coreOf T)).items with
        | [] => ended (opened s T) T (some ⟨s.cur.hdrAddr + f.disp.signExtend 64 * 8, none⟩) 1
        | v :: l => ended (wrote ((opened s T).modCore (coreOf T) fun x => { x with items := l }) T (bOpd f).start.toNat
            (bOpd f).slices v) T none 1)

/-- R112. -/
def Obligations.AllocationResults : Prop :=
  ∀ (s : State) (T : Tid) (g : IForm), Solo s T g.x →
    let n := g.imm.toNat
    let free := 1024 - ((s.threads.filter fun p => laneKey p.1 == laneKey T).map fun p => p.2.xgran).sum
    ((s.thr T).xgran + n ≤ 12 →
      (n ≤ free → (∀ u, (growWaits s T).head? = some u → u.1 = T) →
        exec (.grow g) s = .next (ended (growThread ((opened s T).modCore (coreOf T) fun x =>
          { x with growQ := x.growQ.filter fun w => w.1 != T }) T n) T none 1))
      ∧ exec (.growNb g) s = .next (ended (if n ≤ free ∧ growWaits s T = [] then
          (growThread (opened s T) T n).modThr T fun x => x.setPred g.d.start.toNat true
        else (opened s T).modThr T fun x => x.setPred g.d.start.toNat false) T none 1))
    ∧ (n ≤ (s.thr T).xgran → (∀ l, (s.thr T).leg = some l → l.n = 0 ∨ 8 * (l.lo + l.n) ≤ 128 + 32 * ((s.thr T).xgran - n)) →
      idle s T (128 + 32 * ((s.thr T).xgran - n)) (32 * n) →
      exec (.shrink g) s = .next (ended ((opened s T).modThr T fun x =>
        { (x.blank (128 + 32 * (x.xgran - n)) (32 * n)) with xgran := x.xgran - n }) T none 1))
    ∧ (s.live T = true → (s.thr T).xgran + n ≤ 12 → ∀ lo,
      let t := (growThread s T n).thr T
      (lo < (s.thr T).alloc → t.bits lo 1 = (s.thr T).bits lo 1 ∧ tget (lo / 8) t.tags = tget (lo / 8) (s.thr T).tags)
      ∧ ((s.thr T).alloc ≤ lo → lo < t.alloc → t.bits lo 1 = 0 ∧ tget (lo / 8) t.tags = none))

/-- R117, R157, R158. SREAD clears the tags of the granules that it covers in part as well, and FTEST and FPASS of a handle that cannot be read
take the token before they write (DEDUCED, assumption 6). -/
def Obligations.QueryAndFutureResults : Prop :=
  ∀ (s : State) (T : Tid) (f : RForm), Solo s T f.x →
    let D := f.d.start.toNat
    let c := max 1 (1 + crossCost [rA f])
    let s1 := opened s T
    let h := readRaw (rA f) s1 [T] T
    (∀ sel : BitVec 3, idle s T D f.d.slices →
      let clear := s1.modThr T fun x => if D + f.d.slices ≤ x.alloc then
          { x with tags := x.tags.filter fun g => !(decide (D / 8 ≤ g.1) && decide (g.1 < D / 8 + granSpan D f.d.slices)) }
        else x
      exec (.sread sel f) s = .next (ended (wrote clear T D f.d.slices (.ok (sreadVal s1 T sel % 2 ^ f.d.bits))) T none 1))
    ∧ (∀ (v : Nat) (toks : List (Option Tok)), h.2 = .got v toks →
      (futLive s1 (coreOf T) v = none → exec (.fwait f) s = .next (ended s1 T none c))
      ∧ exec (.ftest f) s = .next (ended (s1.modThr T fun x => x.setPred D (futLive s1 (coreOf T) v).isNone) T none c)
      ∧ exec (.fcancel f) s = .next (ended (cancel s1 (coreOf T) v) T none c)
      ∧ (idle s T D f.d.slices → D + f.d.slices ≤ (s.thr T).alloc →
        let copy := s1.modThr T fun x => (List.range (granSpan D f.d.slices)).foldl (fun x i =>
          let g := D / 8 + i
          let lo := max D (8 * g)
          let hi := min (D + f.d.slices) (8 * g + 8)
          match ((toks.drop (lo - D)).take (hi - lo)).findSome? id with
          | none => x.putGran g D f.d.slices (.ok v)
          | some k => { x with slices := setSlices x.slices lo (hi - lo) (v >>> (4 * (lo - D))), tags := tset g k x.tags }) x
        exec (.fpass f) s = .next (ended (match futLive s1 (coreOf T) v with
          | none => copy
          | some e => markPend copy T D f.d.slices e.id true) T none c)))
    ∧ (∀ k : Tok, h.2 = .out k →
      exec (.fwait f) s = .next (ended (recordDrop h.1 T k) T none c)
      ∧ exec (.ftest f) s = .next (ended ((recordDrop h.1 T k).modThr T fun x => x.setPred D true) T none c)
      ∧ exec (.fcancel f) s = .next (ended (recordDrop h.1 T k) T none c)
      ∧ (idle s T D f.d.slices → exec (.fpass f) s = .next (ended (wrote (recordDrop h.1 T k) T D f.d.slices (.bad k)) T none c)))

/-- R202 to R204. `loadEls` translates and reads, `putLoaded` writes tokens and opens requests (LoadOutcome says how). -/
def Obligations.LoadResults : Prop :=
  ∀ (s : State) (T : Tid) (f : MForm), Solo s T f.x → unheld s T [mA f] → reqFull s (coreOf T) = false →
    let a := (mA f).read (opened s T) [T] T
    let free := fun (d : LdSpec) => (∀ e ∈ d.els, idle s T e.lo e.n)
      ∧ ∀ ea, cleanEa f s [T] T = some ea → ∀ e ∈ d.els, fillBusy (opened s T) T (ea + BitVec.ofNat 64 e.off) d.bits = false
    let loads := fun (d : LdSpec) => ended (match a.2 with
      | .bad k => putLoaded a.1 [T] d (d.els.map fun e => ⟨e, 0, .tok k⟩)
      | .ok b => let r := loadEls d T (BitVec.ofNat 64 b + f.ofs.signExtend 64) d.els a.1; putLoaded r.1 [T] d r.2) T none
        (1 + crossCost [mA f])
    (∀ (sx : Bool) (size hint : BitVec 2),
      let d : LdSpec := ⟨8 * 2 ^ size.toNat, hint == 2, hint == 1, sx, [⟨0, f.d.start.toNat, f.d.slices⟩]⟩
      unwatched s T f [0] (2 ^ size.toNat) → free d → exec (.ld sx size hint f) s = .next (loads d))
    ∧ ∀ (n size hint : BitVec 2),
      let els : List Elem := (List.range (2 ^ (n.toNat + 1))).map fun k =>
        ⟨k * 2 ^ size.toNat, f.d.start.toNat + k * (2 * 2 ^ size.toNat), 2 * 2 ^ size.toNat⟩
      let d : LdSpec := ⟨8 * 2 ^ size.toNat, hint == 2, hint == 1, false, els⟩
      unwatched s T f [0] (2 ^ (n.toNat + 1) * 2 ^ size.toNat) → free d → exec (.ldV n size hint f) s = .next (loads d)

/-- R202, R203, R189, R200 for one element, and what the word then does with it. -/
def Obligations.LoadOutcome : Prop :=
  (∀ (s : State) (t : Tid) (ea : W64) (bits : Nat) (nl1 evf : Bool) (fit : Nat → Nat),
    (ea.toNat % (bits / 8) ≠ 0 → loadAt s t ea bits nl1 evf fit = ((raise s t cBND ea).1, .tok (raise s t cBND ea).2))
    ∧ (ea.toNat % (bits / 8) = 0 → let r := xlat s t .load ea
      (r.2 = .fault cNR → loadAt s t ea bits nl1 evf fit = (r.1, .absent))
      ∧ (∀ f, f ≠ cNR → r.2 = .fault f → loadAt s t ea bits nl1 evf fit = ((raise r.1 t f ea).1, .tok (raise r.1 t f ea).2))
      ∧ (∀ k, r.2 = .carried k →
        let q := raiseCarried r.1 t (s.thr t).pc k ea
        loadAt s t ea bits nl1 evf fit = (q.1, .tok q.2))
      ∧ (∀ p w, bits ≤ 32 → r.2 = .ok p → (p.peer = 0 ∨ p.mode = 1) →
        tget (l1Key p.peer (p.pa / 4)) (r.1.core (coreOf t)).l1 = some w →
        loadAt s t ea bits nl1 evf fit = (r.1, .got (match forwardAt r.1 t false ea.toNat (.glob p.peer (p.pa / 4)) w.val with
          | .bad k => .carried k (BitVec.ofNat 64 (ea.toNat / 4 * 4))
          | .ok v => .clean (fit (v / 2 ^ (p.pa % 4 * 8) % 2 ^ bits)))))))
  ∧ ∀ (s : State) (T : Tid) (d : LdSpec) (e : Elem) (ea : W64),
    (∀ k, putLoaded s [T] d [⟨e, ea, .tok k⟩] = wrote s T e.lo e.n (.bad k))
    ∧ ∀ g, putLoaded s [T] d [⟨e, ea, .got g⟩]
      = (addReq s (coreOf T) [T] s.cur.addr [⟨e.lo, e.n, g⟩] .load s.cfg.loadLatency).1

/-- R189, in its order. -/
def Obligations.TranslationChecks : Prop :=
  (∀ (s : State) (c : Nat) (sp : Space) (user : Bool) (a : Acc) (va : W64), 2 ^ 52 ≤ va.toNat →
    translate s c sp user a va = (s, .fault cPROT))
  ∧ (∀ (s : State) (cache : List TlbEnt) (asid va base level : Nat),
    let at_ := base + 8 * levelIndex va level
    let w := fun i => homeWord s (at_ / 4 + i)
    let here := walk s cache asid va base (level + 1)
    (∀ e, tableHit asid va level cache = some e → here = walk s cache asid va (bitsOf e.leaf.toNat 51 8 * 256) level)
    ∧ (tableHit asid va level cache = none →
      (∀ k, w 0 = .bad k → here = (.carried k, []))
      ∧ (∀ a k, w 0 = .ok a → w 1 = .bad k → here = (.carried k, []))
      ∧ (∀ a b, w 0 = .ok a → w 1 = .ok b → let e : W64 := BitVec.ofNat 64 (a + 2 ^ 32 * b)
        let below := walk s cache asid va (bitsOf e.toNat 51 8 * 256) level
        here = if e.getLsbD 0 = false then (.fault cNR, [])
          else if entryBad e level then (.fault cPROT, [])
          else if e.getLsbD 1 then (below.1, ⟨asid, va / 2 ^ 16, level, e, at_⟩ :: below.2)
          else (.leaf e level at_, []))))
  ∧ (∀ (s : State) (c : Nat) (sp : Space) (user : Bool) (a : Acc) (va : W64) (f : Nat), va.toNat < 2 ^ 52 →
    tlbHit sp.asid va.toNat (s.core c).tlb = none → tlbHit sp.asid va.toNat (s.die (dieOf c)).cache = none →
    (walk s (s.die (dieOf c)).cache sp.asid va.toNat sp.root 4).1 = .fault f → translate s c sp user a va = (s, .fault f))
  ∧ ∀ (s : State) (user : Bool) (a : Acc) (p : Page), leafFail s user a p =
    (if user = true ∧ p.leaf.getLsbD 4 = false then some cPROT
     else if a = .store ∧ (p.leaf.getLsbD 2 = false ∨ p.leaf.getLsbD 5 = true) then some cPROT
     else if p.peer ≠ 0 ∧ reachable s p.peer = false then some cPEER else none)

/-- R202 to R204; what `storeAt` does to one element follows: a held word says which store it is a half of, and of what level its leaf is, and
a failing store's origin entry that it is a store's (R195, R350, R387). -/
def Obligations.StoreResults : Prop :=
  (∀ (s : State) (T : Tid) (f : MForm), Solo s T f.x → unheld s T [mA f] → reqFull s (coreOf T) = false →
    let a := (mA f).read (opened s T) [T] T
    let stores := fun (d : LdSpec) (data : Src) =>
      let q := readStore f d.bits [T] T d.els a.1
      ended (match a.2 with
        | .bad k => recordDrop q.1 T k
        | .ok b => (d.els.zip q.2).foldl (fun s e => storeAt s T [T]
            (BitVec.ofNat 64 b + f.ofs.signExtend 64 + BitVec.ofNat 64 e.1.off) d.bits e.2 d.nl1 d.evf) q.1) T none (1 + crossCost [mA f, data])
    (∀ size hint : BitVec 2, unwatched s T f [1] (2 ^ size.toNat) → idle s T f.d.start.toNat f.d.slices →
      exec (.st size hint f) s
        = .next (stores ⟨8 * 2 ^ size.toNat, hint == 2, hint == 1, false, [⟨0, f.d.start.toNat, f.d.slices⟩]⟩
            ⟨f.d.start.toNat, f.d.slices, .self, 0, false⟩))
    ∧ ∀ n size hint : BitVec 2,
      let els : List Elem := (List.range (2 ^ (n.toNat + 1))).map fun k =>
        ⟨k * 2 ^ size.toNat, f.d.start.toNat + k * (2 * 2 ^ size.toNat), 2 * 2 ^ size.toNat⟩
      unwatched s T f [1] (2 ^ (n.toNat + 1) * 2 ^ size.toNat) → (∀ e ∈ els, idle s T e.lo e.n) →
      exec (.stV n size hint f) s = .next (stores ⟨8 * 2 ^ size.toNat, hint == 2, hint == 1, false, els⟩
          ⟨f.d.start.toNat, 2 ^ (n.toNat + 1) * (2 * 2 ^ size.toNat), .self, 0, false⟩))
  ∧ ∀ (s : State) (T : Tid) (ea : W64) (bits : Nat) (vs : List Val) (nl1 evf : Bool),
    let r := xlat s T .store ea
    let bad := fun (q : State × Tok) =>
      if (q.1.thr T).leg.isSome && (q.1.thr T).hdepth == 0 then
        holdAll q.1 T ea ((failKeys s T ea bits).map fun k =>
          { tid := T, key := k, va := ea, pc := (q.1.thr T).pc, wide := (failKeys s T ea bits).length == 2, mask := 0xF, val := .bad q.2 })
      else recordDrop q.1 T q.2
    (ea.toNat % (bits / 8) ≠ 0 → storeAt s T [T] ea bits vs nl1 evf = bad (raise s T cBND ea))
    ∧ (ea.toNat % (bits / 8) = 0 →
      (∀ k, r.2 = .fault k → storeAt s T [T] ea bits vs nl1 evf = bad (raiseStore r.1 T k ea))
      ∧ ∀ p, r.2 = .ok p →
        ((s.thr T).leg.isSome = true → (s.thr T).hdepth = 0 →
          storeAt s T [T] ea bits vs nl1 evf = holdAll r.1 T ea ((storeWords p.pa bits vs).map fun w =>
            { tid := T, key := .glob p.peer w.1, va := BitVec.ofNat 64 (ea.toNat / 4 * 4 + 4 * (w.1 - p.pa / 4)), pc := (s.thr T).pc
              nl1 := nl1, evf := evf, mtc := p.mtc, mode := p.mode, at_ := p.at_, level := p.via.2.2, wide := bits == 64
              mask := w.2.1, val := w.2.2 }))
        ∧ (((s.thr T).leg = none ∨ (s.thr T).hdepth ≠ 0) → p.peer = 0 →
          storeAt s T [T] ea bits vs nl1 evf = (storeWords p.pa bits vs).foldl
            (fun s w => l1Store s T p w.1 w.2.1 w.2.2 nl1 evf) (setDC r.1 p)))

/-- R206 to R208; R208's table stands last, on words of 32 bits as bit vectors. LDP looks at the page before the alignment, and of an ATOM's poisoned
operands the first in the order address, data, compare value gives the token (DEDUCED, assumption 8); a poisoned address is recorded, as R202
says, and D takes the token, as R208 says (DEDUCED, assumption 6). -/
def Obligations.ProbeAndAtomResults : Prop :=
  (∀ (s : State) (T : Tid) (f : MForm), Solo s T f.x →
    let c := 1 + crossCost [mA f]
    let D := f.d.start.toNat
    let a := (mA f).read (opened s T) [T] T
    let e : Elem := ⟨0, D, f.d.slices⟩
    let free := fun (bits : Nat) => reqFull s (coreOf T) = false ∧ idle s T D f.d.slices
      ∧ ∀ ea, cleanEa f s [T] T = some ea → fillBusy (opened s T) T ea bits = false
    (∀ (sx : Bool) (size : BitVec 2) (pred : BitVec 3),
      let d : LdSpec := ⟨8 * 2 ^ size.toNat, false, false, sx, [e]⟩
      unwatched s T f [0] (2 ^ size.toNat) → unheld s T [mA f] → free d.bits → exec (.ldp sx size pred f) s = .next (ended (match a.2 with
        | .bad k => putLoaded (a.1.modThr T fun x => x.setPred pred.toNat false) [T] d [⟨e, 0, .tok k⟩]
        | .ok b =>
          let ea := BitVec.ofNat 64 b + f.ofs.signExtend 64
          if absent a.1 T ea then
            let q := (xlat a.1 T .load ea).1.modThr T fun x => x.setPred pred.toNat false
            let clear := q.modThr T fun x => if D + f.d.slices ≤ x.alloc then
                { x with tags := x.tags.filter fun g => !(decide (D / 8 ≤ g.1) && decide (g.1 < D / 8 + granSpan D f.d.slices)) }
              else x
            wrote clear T D f.d.slices (.ok 0)
          else
            let l := loadAt a.1 T ea d.bits false false (fitLoad d.bits sx f.d.bits)
            putLoaded (l.1.modThr T fun x => x.setPred pred.toNat
              (match (lookup a.1 (coreOf T) (threadSpace a.1 T) ea).2 with | .ok _ => true | _ => false)) [T] d [⟨e, ea, l.2⟩]) T none c))
    ∧ (unheld s T [mA f] →
      (∀ ea p, cleanEa f s [T] T = some ea → absentPage (opened s T) T ea = some p → pageRoom (opened s T) (coreOf T) p.asid p.page = true) →
      exec (.pgreq f) s = .next (ended (match a.2 with
        | .bad k => recordDrop a.1 T k
        | .ok b => match absentPage a.1 T (BitVec.ofNat 64 b + f.ofs.signExtend 64) with
          | some p => pageRequest a.1 (coreOf T) p.asid p.page false false
          | none => a.1) T none c))
    ∧ ∀ (op : BitVec 4) (scope : BitVec 3) (sz : Bool),
      let w := if sz then 64 else 32
      let rs := [mA f, ⟨D, f.d.slices, .self, 0, false⟩] ++ if op == 9 then [⟨D + f.d.slices, f.d.slices, .self, 0, false⟩] else []
      unwatched s T f [1] (w / 8) → unheld s T rs → free w →
      let r := readSrcs [T] T rs (opened s T)
      let n := r.2.map Val.num
      let ea := BitVec.ofNat 64 (arg n 0) + f.ofs.signExtend 64
      let s1 := noReplay r.1 [T]
      let writes := fun (u : State) (k : Tok) => wrote u T D f.d.slices (.bad k)
      let x := xlat s1 T .store ea
      exec (.atom op scope sz f) s = .next (ended (match lowTok r.2 with
        | some k => writes (match r.2.head? with | some (.bad j) => recordDrop s1 T j | _ => s1) k
        | none =>
          if ea.toNat % (w / 8) ≠ 0 then writes (raise s1 T cBND ea).1 (raise s1 T cBND ea).2
          else match x.2 with
            | .fault k => writes (raise x.1 T k ea).1 (raise x.1 T k ea).2
            | .carried k => let q := raiseCarried x.1 T (s1.thr T).pc k ea; writes q.1 q.2
            | .ok p =>
              if p.peer = 0 then
                let q := atomHere x.1 T ea p scope op w (arg n 1) (arg n 2)
                (addReq q.1 (coreOf T) [T] q.1.cur.addr [⟨D, f.d.slices, q.2⟩] (if scope.toNat ≤ 1 then .load else .atom)
                  q.1.cfg.loadLatency).1
              else
                let ks := (List.range (w / 32)).map fun i => p.pa / 4 + i
                let u := migCount (dropPeer x.1 (coreOf T) p.peer ks) ((s1.core (coreOf T)).ptbr.toNat % 4096) ea p
                let q := addReq u (coreOf T) [T] u.cur.addr [⟨D, f.d.slices, .clean 0⟩] .remote 0
                fabSend q.1 3 p.peer { core := coreOf T, tid := T, pc := u.cur.addr, ea := ea, use := .req q.2, write := true
                                       lo := p.pa, hi := p.pa + w / 8, bits := w }
                  (reqPayload p.pa (arg n 1) 0 0 (op.toNat + if sz then 256 else 0) (arg n 2) (identOf u.fab.dev.toNat T)) [])
        T none (1 + crossCost rs)))
  ∧ ∀ old d n : BitVec 32,
    let new := fun (op : BitVec 4) => atomNew op 32 old.toNat d.toNat n.toNat
    new 0 = (old + d).toNat
    ∧ new 1 = (if d.slt old then d else old).toNat
    ∧ new 2 = (if d.ult old then d else old).toNat
    ∧ new 3 = (if old.slt d then d else old).toNat
    ∧ new 4 = (if old.ult d then d else old).toNat
    ∧ new 5 = (old &&& d).toNat ∧ new 6 = (old ||| d).toNat ∧ new 7 = (old ^^^ d).toNat ∧ new 8 = d.toNat
    ∧ new 9 = (if old = d then n else old).toNat

/-- R205, R128, R129, R210. FIL and SPL act at once, and a nibble of SPL takes its neighbour from its byte (DEDUCED, assumption 9). -/
def Obligations.ScratchResults : Prop :=
  (∀ (s : State) (T : Tid) (f : MForm), Solo s T f.x → unheld s T [mA f] → reqFull s (coreOf T) = false →
    idle s T f.d.start.toNat f.d.slices →
    let a := (mA f).read (opened s T) [T] T
    let e : Elem := ⟨0, f.d.start.toNat, f.d.slices⟩
    let c := 1 + crossCost [mA f]
    (∀ (sx : Bool) (size : BitVec 2), let bits := 8 * 2 ^ size.toNat
      exec (.sld sx size f) s = .next (ended (match a.2 with
        | .bad k => putLoaded a.1 [T] { bits := bits, els := [] } [⟨e, 0, .tok k⟩]
        | .ok b =>
          let h := b / 2 ^ 16 % 2 ^ 16
          let off := ((b % 2 ^ 16 : Nat) : Int) + f.ofs.toInt
          let ea := BitVec.ofNat 64 b + f.ofs.signExtend 64
          match scratchFail a.1 T h off (bits / 8) with
          | some k => let q := raise a.1 T k ea; putLoaded q.1 [T] { bits := bits, els := [] } [⟨e, ea, .tok q.2⟩]
          | none => putLoaded a.1 [T] { bits := bits, els := [] } [⟨e, ea, .got (gotOf ea bits (off.toNat % 4 * 8)
              ((List.range (if bits = 64 then 2 else 1)).map fun i => seeTile a.1 T h (off.toNat / 4 + i))
              (fitLoad bits sx f.d.bits))⟩]) T none c))
    ∧ ∀ size : BitVec 2, let bits := 8 * 2 ^ size.toNat
      let q := readData a.1 T f.d.start.toNat f.d.slices bits
      exec (.sst size f) s = .next (ended (match a.2 with
        | .bad k => recordDrop q.1 T k
        | .ok b =>
          let h := b / 2 ^ 16 % 2 ^ 16
          let off := ((b % 2 ^ 16 : Nat) : Int) + f.ofs.toInt
          let ea := BitVec.ofNat 64 b + f.ofs.signExtend 64
          match scratchFail q.1 T h off (bits / 8) with
          | some k => let r := raise q.1 T k ea; failStore r.1 T ea [T] r.2
              (lostTile h ((List.range ((bits + 31) / 32)).map fun i => (off % 2 ^ 16).toNat / 4 + i))
          | none => storeTile q.1 T h ea (storeWords off.toNat bits q.2)) T none
        (1 + crossCost [mA f, ⟨f.d.start.toNat, f.d.slices, .self, 0, false⟩])))
  ∧ (∀ (s : State) (T : Tid) (f : RForm), Solo s T f.x → unheld s T [rA f] → idle s T (splLo f) (splN f) →
    let a := (rA f).read (opened s T) [T] T
    let c := max 1 (ceilDiv (splN f) 32) + crossCost [rA f]
    exec (.fil f) s = .next (ended (match a.2 with
      | .bad k => putClip a.1 a.1.cur.addr (splLo f) (splN f) (fun x m => x.put (splLo f) m (.bad k)) none [T]
      | .ok b => match spillFail a.1 T (b / 2 ^ 16 % 2 ^ 16) (b % 2 ^ 16) (splN f) with
        | some k => let q := raise a.1 T k (BitVec.ofNat 64 b)
          putClip q.1 q.1.cur.addr (splLo f) (splN f) (fun x m => x.put (splLo f) m (.bad q.2)) none [T]
        | none => putClip a.1 a.1.cur.addr (splLo f) (splN f) (filPut (splLo f) (b % 2 ^ 16)
            ((spillWords (b % 2 ^ 16) (splN f)).map fun w => seeTile a.1 T (b / 2 ^ 16 % 2 ^ 16) w)) none [T]) T none c)
    ∧ (splLo f + splN f ≤ (s.thr T).alloc → exec (.spl f) s = .next (ended (match a.2 with
      | .bad k => recordDrop a.1 T k
      | .ok b => match spillFail a.1 T (b / 2 ^ 16 % 2 ^ 16) (b % 2 ^ 16) (splN f) with
        | some k => let q := raise a.1 T k (BitVec.ofNat 64 b); failStore q.1 T (BitVec.ofNat 64 b) [T] q.2
            (lostTile (b / 2 ^ 16 % 2 ^ 16) (spillWords (b % 2 ^ 16) (splN f)))
        | none => storeTile a.1 T (b / 2 ^ 16 % 2 ^ 16) (BitVec.ofNat 64 b) ((spillWords (b % 2 ^ 16) (splN f)).filterMap fun w =>
            splPart a.1 T (b / 2 ^ 16 % 2 ^ 16) w (splWord (a.1.thr T) 0 (splLo f) (splN f) (b % 2 ^ 16) w)))
        T none c)))
  ∧ ∀ (s : State) (T : Tid) (f : MForm) (n : BitVec 4), Solo s T f.x → unheld s T [mA f] → (s.thr T).seq = false →
    (ldmGate f (n.toNat + 1)).watch s [T] = [] →
    let t := ldmCapture f [T] [T] (opened s T)
    (t.thr T).seqstep = 0 → t.cur.done = [] → ldmBusy f 0 t T = false →
    let u := ldmStep f 0 t T
    (n ≠ 0 → T ∉ u.cur.done → exec (.ldm n f) s
      = .next ((u.modThr T fun x => { x with seqstep := 1 }).modCur fun p => { p with busy := 1 + crossCost [mA f] }))
    ∧ (n = 0 → u.cur.done = [] → u.iss = s.iss → s.iss.isSome = true → exec (.ldm n f) s
      = .next (ended (u.modThr T fun x => { x with seq := false, seqstep := 0, ldm := none }) T none (1 + crossCost [mA f])))

/-- R231 to R237, R209. `acqBusy` and `relBusy` say what R230 and R232 make an acquire and a release wait for. -/
def Obligations.FenceResults : Prop :=
  ∀ (s : State) (T : Tid) (f : RForm) (scope : BitVec 3), Solo s T f.x →
    let s1 := opened s T
    let c := coreOf T
    let a := (rA f).read s1 [T] T
    let cost := 1 + crossCost [rA f]
    (acqBusy s1 T scope.toNat = false → exec (.fenceAcq scope f) s = .next (ended (dropLasts (acquire s1 c scope.toNat) c) T none 1))
    ∧ (relBusy s1 T scope.toNat = false →
      exec (.fenceRel scope f) s = .next (ended (dropLasts (relEnd s1 c scope.toNat) c) T none 1)
      ∧ (acqBusy s1 T scope.toNat = false →
        exec (.fenceAr scope f) s = .next (ended (dropLasts (acquire (relEnd s1 c scope.toNat) c scope.toNat) c) T none 1)))
    ∧ exec (.icinv scope f) s = .next (ended (dropCode s1 c scope.toNat none) T none 1)
    ∧ exec (.dcwbAll f) s = .next (ended (writeBackAll s1 c false) T none 1)
    ∧ (unheld s T [rA f] →
      exec (.icinvLine scope f) s = .next (ended (match a.2 with
        | .bad k => recordDrop (dropCode a.1 c scope.toNat none) T k
        | .ok v => dropCode a.1 c scope.toNat (codeLine a.1 T (BitVec.ofNat 64 v))) T none cost)
      ∧ exec (.dcwb f) s = .next (ended (match a.2 with
        | .bad k => recordDrop a.1 T k
        | .ok v => dcwbAt a.1 T [T] (BitVec.ofNat 64 v)) T none cost))

/-- R211 to R218. -/
def Obligations.LegResults : Prop :=
  (∀ (s : State) (T : Tid) (f : RForm) (n : BitVec 4) (nothing : Bool), Solo s T f.x → (s.thr T).leg = none →
    let lo := f.d.start.toNat / 8
    let m := if nothing then 0 else n.toNat + 1
    idle s T (8 * lo) (8 * m) → exec (.leg n nothing f) s = .next (ended (openLeg (opened s T) T lo m) T none 1))
  ∧ ∀ (s : State) (T : Tid) (f : BForm) (l : Leg), Solo s T f.x → (s.thr T).leg = some l → atLast s.cur = true →
    let s1 := opened s T
    let a := (f.fld.extractLsb' 9 6).toNat
    let b := (f.fld.extractLsb' 3 6).toNat
    let ks := livePoison s1 T a b
    let out := some (⟨s.cur.hdrAddr + f.disp.signExtend 64 * 8, none⟩ : Tgt)
    let first := (liveGrans (s.thr T) a b ++ liveHeld s1 T).head?
    let recover := ended ((discardHeld s1 T).modThr T fun x =>
      { x with leg := none, drop := if x.drop.isSome then x.drop else first }) T out 1
    let may := l.replays < 4 ∧ l.replayable = true ∧ ∀ k ∈ ks, tokCause k = cNR ∧ (nrEntry s1 T k).isSome = true
    let ps := replayPages s1 T ks
    accessesOut s1 T = false → reqPending s1 T (8 * a) (8 * (b + 1 - a)) = false →
      (ks = [] →
        let close := ended ((releaseHeld s1 T).modThr T fun x => { x with drop := none, leg := none }) T none 1
        exec (.commit f) s = .next close ∧ exec (.commitR f) s = .next close)
      ∧ (ks ≠ [] → exec (.commit f) s = .next recover)
      ∧ (ks ≠ [] → ¬ may → exec (.commitR f) s = .next recover)
      ∧ (ks ≠ [] → may →
        exec (.commitR f) s = .next (if ps = [] then ended (replayLeg s1 T) T (some ⟨l.pc, l.hdr⟩) 1
          else ended ((ps.foldl (fun s p => pageRequest s (coreOf T) p.asid p.page p.store false) s1).modThr T fun x =>
            { x with leg := some { l with first := first }, hold := { x.hold with parked := ps, refused := false } }) T out 1))

/-- R215, in the three kinds of live poison; the threads and the places of COMMIT are those of R216 and R217. -/
def Obligations.LivePoison : Prop :=
  ∀ (s : State) (T : Tid) (f : BForm), Solo s T f.x → (s.thr T).leg.isSome = true → atLast s.cur = true →
    let a := (f.fld.extractLsb' 9 6).toNat
    let b := (f.fld.extractLsb' 3 6).toNat
    let granule := ∃ g k, a ≤ g ∧ g ≤ b ∧ 8 * g < (s.thr T).alloc ∧ tget g (s.thr T).tags = some k
    let store := ∃ h ∈ (s.core (coreOf T)).quar, h.tid = T ∧ ∃ k, h.val = .bad k
    let record := (s.thr T).drop.isSome = true
    accessesOut (opened s T) T = false → reqPending (opened s T) T (8 * a) (8 * (b + 1 - a)) = false →
      (¬ granule → ¬ store → ¬ record → ∃ t, exec (.commit f) s = .next t ∧ exec (.commitR f) s = .next t
        ∧ (t.thr T).leg = none ∧ (t.thr T).drop = none ∧ (t.thr T).tags = (s.thr T).tags
        ∧ (t.thr T).pc = s.cur.hdrAddr + BitVec.ofNat 64 (8 * (s.cur.words.length + 1)))
      ∧ ((granule ∨ store ∨ record) → ∃ t, exec (.commit f) s = .next t
        ∧ (t.thr T).leg = none ∧ (t.thr T).drop.isSome = true ∧ (t.thr T).pc = s.cur.hdrAddr + f.disp.signExtend 64 * 8)

/-- R219, R220. A D outside the allocation is dropped and not recorded, though PSET raises its token (DEDUCED, assumption 6, of R110 and R219). -/
def Obligations.PoisonWordResults : Prop :=
  ∀ (s : State) (T : Tid) (f : RForm), Solo s T f.x →
    let s1 := opened s T
    let D := f.d.start.toNat
    let gs := (List.range (granSpan D f.d.slices)).map fun i => D / 8 + i
    let inside := D + f.d.slices ≤ (s.thr T).alloc
    let c := max 1 (1 + crossCost [rA f])
    (unheld s T [rA f] → exec (.pchk f) s = .next (ended (s1.modThr T fun x => x.setPred D
      (match (rA f).peek s [T] T with | .val (.ok _) => false | _ => true)) T none c))
    ∧ (idle s T D f.d.slices →
      (inside →
        exec (.pclr f) s = .next (ended (s1.modThr T fun x => gs.foldl (fun x g =>
          if (tget g x.tags).isSome then { x with slices := setSlices x.slices (8 * g) 8 0, tags := tdel g x.tags } else x) x) T none 1)
        ∧ let q := raise s1 T cUSER
          exec (.pset f) s = .next (ended (q.1.modThr T fun x => gs.foldl (fun x g => x.put (8 * g) 8 (.bad q.2)) x) T none 1))
      ∧ (¬ inside → exec (.pclr f) s = .next (ended s1 T none 1)
        ∧ exec (.pset f) s = .next (ended (raise s1 T cUSER).1 T none 1))
      ∧ (unheld s T [rA f] → inside → ∀ k : BitVec 2,
        let a := (rA f).read s1 [T] T
        let v := match a.2 with
          | .ok _ => 0
          | .bad b => match tget (tokOrigin b) (a.1.core (coreOf T)).org with
            | some o => [o.pc.toNat, o.addr.toNat, o.cyc % 2 ^ 64, o.info.toNat].getD k.toNat 0
            | none => 0
        exec (.porg k f) s = .next (ended (a.1.modThr T fun x => x.put D f.d.slices (.ok v)) T none c)))

/-- R291 to R293. TFREE of a tile that is a frame, or of another core, fails with PROT before R288's checks (DEDUCED, assumption 25). -/
def Obligations.TileWordResults : Prop :=
  (∀ (s : State) (T : Tid) (f : RForm) (level k : BitVec 2), Solo s T f.x → inClass s 1 →
    (aluFree s T f.d [rA f] →
      exec (.talloc level f) s
        = .next (engineDone s T f.d [rA f] fun u l => talloc u T level.toNat (BitVec.ofNat 64 (arg l 0)))
      ∧ exec (.tquery k f) s = .next (engineDone s T f.d [rA f] fun u l =>
          let h := arg l 0
          let fail := tileFail u (coreOf T) h (askerOf u T) false 0 0
          let e := tileEnt u (rankCore (coreOf T) h) (hLevel h) (hIndex h)
          (u, match k.toNat, fail with
            | 0, none => e.shape.toNat
            | 1, none => shBytes e.shape
            | 2, none => shBlocks e.shape * if e.bank then 1 else 2 ^ 16
            | 3, none => (if hLevel h = 3 then 0 else e.gen % 8 * 32) + 1
            | 3, some q => (if hLevel h = 3 then 0 else e.gen % 8 * 32) + 2 * q
            | _, _ => 0)))
    ∧ ((tfreeOp f).rdBusy (opened s T) [T] T = false →
      exec (.tfree f) s = .next (engineActs s T (rA f) fun u h =>
        if hRank h ≠ 0 ∨ (hLevel h = 2 ∧ 248 ≤ hIndex h) then (u, some cPROT)
        else match tileFail u (coreOf T) h (askerOf u T) false 0 0 with
          | some q => (u, some q)
          | none =>
            let e := tileEnt u (coreOf T) (hLevel h) (hIndex h)
            (setTile u (coreOf T) (hLevel h) (hIndex h) { e with live := false, gen := (e.gen + 1) % 8 }, none))))
  ∧ ∀ (u : State) (T : Tid) (level : Nat) (w : W64),
    let c := coreOf T
    let bad := shOk w = false ∨ (level = 1 ∧ (shPlanes w = true ∨ shBits w ≠ 32))
    let full := level = 1 ∧ 8192 < usedAcc (u.core c) + shBlocks w
    (bad → talloc u T level w = (u, 0x1802))
    ∧ (¬ bad → ctxTiles u c = [] →
      (freeTile u c level = none → talloc u T level w = (u, 0x1801))
      ∧ ∀ i, freeTile u c level = some i →
        (full → talloc u T level w = (u, 0x1803))
        ∧ (¬ full →
          let e := tileEnt u c level i
          let bank := level = 1 ∨ (level = 0 ∧ usedBanks (u.core c) + shBlocks w ≤ 384)
          let u1 := setTile u c level i
            { e with live := true, shape := w, asid := some ((u.core c).ptbr.toNat % 4096), bank := bank, ovf := false, ctx := 0 }
          talloc u T level w = (modTile u1 c level i fun m => m.clear (4 * tileAt u1 c level i) 65536,
            level * 2 ^ 11 + i * 8 + e.gen % 8)))

/-- R298, R301: what each command's word leaves. The queue's 64 entries are the commands that have not started (DEDUCED, assumption 26). -/
def Obligations.StreamCommandResults : Prop :=
  ∀ (s : State) (T : Tid) (f : RForm), Solo s T f.x → inClass s 1 →
    ((s.core (coreOf T)).strQ.filter fun k => k.stage == 0).length < 64 →
    let fut := if f.r4 then some f.d else none
    let asks := fun (rs : List Src) (g : List Nat → StrOp) => commanded s T .s fut rs fun u id l =>
      let p := (u.core (coreOf T)).ptbr
      u.modCore (coreOf T) fun x => { x with strQ := x.strQ ++
        [{ id := id, tids := [T], lead := T, pc := u.cur.addr, asid := p.toNat % 4096, root := p, user := !(u.thr T).priv
           frames := (askerOf u T).frames, op := g l }] }
    (cmdFree s T .s fut [rA f] →
      exec (.asl f) s = .next (asks [rA f] fun l => .asl (BitVec.ofNat 64 (arg l 0)))
      ∧ exec (.lastld f) s = .next (asks [rA f] fun l => .lastld (BitVec.ofNat 64 (arg l 0))))
    ∧ (cmdFree s T .s fut [rA f, rB f] →
      exec (.sload f) s = .next (asks [rA f, rB f] fun l => .sload (BitVec.ofNat 32 (arg l 0)) (BitVec.ofNat 64 (arg l 1)))
      ∧ exec (.sloadRing f) s = .next (asks [rA f, rB f] fun l => .fill (BitVec.ofNat 16 (arg l 0)) (BitVec.ofNat 64 (arg l 1)))
      ∧ exec (.sstore f) s = .next (asks [rA f, rB f] fun l => .sstore (BitVec.ofNat 32 (arg l 0)) (BitVec.ofNat 64 (arg l 1)))
      ∧ exec (.scopy f) s = .next (asks [rA f, rB f] fun l =>
          .scopy (BitVec.ofNat 32 (arg l 0 / 2 ^ 32)) (BitVec.ofNat 32 (arg l 0)) (arg l 1))
      ∧ ∀ (sub : BitVec 4) (int uns sat : Bool), exec (.strns sub int uns sat f) s
        = .next (asks [rA f, rB f] fun l => .strns sub int uns sat (BitVec.ofNat 32 (arg l 0)) (BitVec.ofNat 64 (arg l 1))))

/-- R307, R309, R312. -/
def Obligations.RingAndQueueResults : Prop :=
  ∀ (s : State) (T : Tid) (f : RForm), Solo s T f.x → inClass s 1 →
    let c := coreOf T
    let ring := fun (u : State) (h : Nat) => tgetD (h % 16) {} (u.core c).rings
    let live := fun (u : State) (h : Nat) => h < 128 ∧ (ring u h).live = true ∧ (ring u h).gen = h / 16 % 8
    let put := fun (u : State) (h : Nat) (g : Ring) => u.modCore c fun x => { x with rings := tset (h % 16) g x.rings }
    (aluFree s T f.d [rA f, rB f] → exec (.sring f) s = .next (engineDone s T f.d [rA f, rB f] fun u l =>
      let words := bitsOf (arg l 1) 15 0
      let n := bitsOf (arg l 1) 23 16
      if words = 0 ∨ words > 16383 ∨ n = 0 ∨ bitsOf (arg l 1) 31 24 ≠ 0 then (u, 0xFFFF)
      else if (tileFail u c (arg l 0) (askerOf u T) true 0 (n * words * 4)).isSome then (u, 0xFFFF)
      else match (List.range 16).find? fun i => !(tgetD i {} (u.core c).rings).live with
        | none => (u, 0xFFFF)
        | some i =>
          let r : Ring := { live := true, gen := (tgetD i {} (u.core c).rings).gen, tile := BitVec.ofNat 16 (arg l 0), slotB := 4 * words, nslot := n, free := n }
          (u.modCore c fun x => { x with rings := tset i r x.rings }, i + 16 * ((tgetD i {} (u.core c).rings).gen % 8))))
    ∧ ((sringFreeOp f).rdBusy (opened s T) [T] T = false → exec (.sringFree f) s = .next (engineActs s T (rA f) fun u h =>
      if live u h then (put u h { gen := ((ring u h).gen + 1) % 8 }, none) else (u, some cSTALE)))
    ∧ (unheld s T [rA f] → loadsOut s T = false → scratchReads s T = false →
      exec (.rrel f) s = .next (engineActs s T (rA f) fun u h =>
        let g := ring u h
        if live u h then (if g.held = 0 then (u, some cBND)
          else (put u h { g with held := g.held - 1, free := g.free + 1, relAt := (g.relAt + 1) % g.nslot }, none))
        else (u, some cSTALE)))
    ∧ (idle s T f.d.start.toNat f.d.slices →
      let a := engaged s T [rA f]
      let cost := max 1 (1 + crossCost [rA f])
      let done := fun (u : State) (v : Val) => ended (wrote u T f.d.start.toNat f.d.slices v) T none cost
      (unheld s T [rA f] →
        (∀ k, a.2 = [.bad k] → exec (.rpop f) s = .next (done a.1 (.bad k)))
        ∧ ∀ h, a.2 = [.ok h] →
          (¬ live a.1 h → ¬ live s h → exec (.rpop f) s = .next (done (raise a.1 T cSTALE).1 (.bad (raise a.1 T cSTALE).2)))
          ∧ ((rpopOp f).rdBusy (opened s T) [T] T = false → live a.1 h →
            let g := ring a.1 h
            exec (.rpop f) s = .next (done
              (put a.1 h { g with filled := g.filled - 1, held := g.held + 1, popAt := (g.popAt + 1) % g.nslot })
              (.ok (g.tile.toNat * 2 ^ 16 + g.popAt * g.slotB)))))
      ∧ ∀ q : BitVec 3,
        let u := tgetD q.toNat { bound := false } (s.thr T).queues
        let s1 := noReplay (opened s T) [T]
        (u.elems = [] → u.bound = false → exec (.qpop q f) s
          = .next (ended (wrote (raise s1 T cBND).1 T f.d.start.toNat f.d.slices (.bad (raise s1 T cBND).2)) T none 1))
        ∧ (∀ v vs, u.elems = v :: vs → exec (.qpop q f) s = .next (ended (wrote (s1.modThr T fun x =>
            { x with queues := tset q.toNat { u with elems := vs, bound := u.bound && !(vs.isEmpty && u.left == 0) } x.queues })
              T f.d.start.toNat f.d.slices (match v with | .ok a => .ok (a % 2 ^ f.d.bits) | .bad k => .bad k)) T none 1))
        ∧ exec (.qstat q f) s = .next (ended (wrote s1 T f.d.start.toNat f.d.slices
            (.ok ((u.elems.length % 32 + (if u.bound then 32 else 0) + min u.left (2 ^ 32 - 1) * 2 ^ 32) % 2 ^ f.d.bits))) T none 1))

/-- R320 to R322, R328, R331: what each command's word leaves. MSTAT.OVF is 0 where R288 fails (DEDUCED, assumption 24), and its NARROW bit, with no
loop under way, is the mode that the next step takes (DEDUCED, assumption 81). -/
def Obligations.MatrixCommandResults : Prop :=
  ∀ (s : State) (T : Tid), inClass s 2 →
    let c := coreOf T
    let enter := fun (op : MatOp) (u : State) (id : Nat) =>
      u.modCore c fun x => { x with matQ := x.matQ ++
        [{ id := id, tids := [T], lead := T, pc := u.cur.addr, asid := (askerOf u T).asid, frames := (askerOf u T).frames, op := op }] }
    (∀ f : RForm, Solo s T f.x → (s.core c).matQ.length < 8 →
      let fut := if f.r4 then some f.d else none
      let asks := fun (rs : List Src) (g : List Nat → MatOp) => commanded s T .m fut rs fun u id l => enter (g l) u id
      (cmdFree s T .m fut [rA f] → exec (.mzero f) s = .next (asks [rA f] fun l => .zero (BitVec.ofNat 16 (arg l 0))))
      ∧ (cmdFree s T .m fut [rA f, rB f] →
        exec (.mloadacc f) s = .next (asks [rA f, rB f] fun l => .loadacc (BitVec.ofNat 16 (arg l 0)) (BitVec.ofNat 32 (arg l 1)))
        ∧ exec (.tmov f) s = .next (asks [rA f, rB f] fun l => .mov (BitVec.ofNat 32 (arg l 0)) (BitVec.ofNat 16 (arg l 1)))
        ∧ (∀ (bp : BitVec 4) (ef sat : Bool) (rnd : BitVec 2),
          exec (.tcvtB8 bp ef sat rnd f) s = .next (asks [rA f, rB f] fun l =>
            .cvtB8 bp false ef sat rnd (BitVec.ofNat 32 (arg l 0)) (BitVec.ofNat 32 (arg l 1)))
          ∧ exec (.tcvtB8Unsigned bp ef sat rnd f) s = .next (asks [rA f, rB f] fun l =>
            .cvtB8 bp true ef sat rnd (BitVec.ofNat 32 (arg l 0)) (BitVec.ofNat 32 (arg l 1))))
        ∧ ∀ (tgt rnd : BitVec 2) (sat : Bool), exec (.tcvtOther tgt sat rnd f) s = .next (asks [rA f, rB f] fun l =>
            .cvtOther tgt sat rnd (BitVec.ofNat 32 (arg l 0)) (BitVec.ofNat 16 (arg l 1)))))
    ∧ (∀ (f : RForm) (k : BitVec 2), Solo s T f.x → let rs := if k = 1 then [rA f] else []
      aluFree s T f.d rs → exec (.mstat k f) s = .next (engineDone s T f.d rs fun u l => (u, match k.toNat with
        | 0 =>
          let way := (u.core c).matQ.head?.filter fun q => q.started
          let left := match way.map MatCmd.op with
            | some (.loop _ _ _ _ _ _ n _ _ _) => n + 1 - ((way.map MatCmd.step).getD 0)
            | _ => 0
          (if (if way.isSome then (u.core c).narrow else u.host.alarm) then 1 else 0) + (if way.isSome then 2 else 0)
            + min 8 (u.core c).matQ.length * 4 + left * 64
        | 1 =>
          let h := arg l 0
          let base := tileFail u c h (askerOf u T) false 0 0
          let fail := match base with
            | some q => some q
            | none => if hLevel h = 1 then accFail u c h (askerOf u T) else operFail u c h fun b => decide (1 ≤ b) && decide (b ≤ 8)
          (if base.isNone && (tileEnt u (rankCore c h) (hLevel h) (hIndex h)).ovf then 1 else 0)
            + (match fail with | none => 2 | some q => 4 * q)
        | 2 => (u.core c).sdcCnt
        | _ => (u.core c).stepCnt % 2 ^ 64)))
    ∧ ∀ f : XForm, Solo s T f.x → (mloopOp f).rdBusy (opened s T) [T] T = false → (mloopOp f).wrBusy (opened s T) T = false →
      let h := f.h.toNat
      let b := 8 * f.bsel.toNat
      let chained := offFrom (opened s T) T h
      let r := readSrcs [T] T [⟨h, 4, .self, 0, false⟩, ⟨h + 4, 4, .self, 0, false⟩, ⟨h + 8, 4, .self, 0, false⟩,
        ⟨h + 12, 8, .self, 0, false⟩] (opened s T)
      let x := if fmtInt f.fmt then (r.1, [], []) else scaleReads T (f.sc.toNat + b) (List.range 32) [] r.1
      let y := if fmtInt f.fmt then (x.1, [], []) else scaleReads T (f.sc.toNat + 64 + b) (List.range 32) x.2.2 x.1
      let n := (noReplay y.1 [T]).fresh c
      let s1 := issueCmd n.1 .m n.2 [T]
      let w := if f.fe then allocFut s1 c .m n.2 else (s1, 0)
      let l := r.2.map Val.num
      let bad := lowTok (if chained.isSome then r.2.take 3 else r.2)
      let off : OffSrc := match chained with | some id => .after id (arg l 3) | none => .word (arg l 3)
      let s2 := if bad.isSome then w.1 else enter (.loop (BitVec.ofNat 16 (arg l 0)) (BitVec.ofNat 16 (arg l 1)) (BitVec.ofNat 16 (arg l 2))
        off x.2.1 y.2.1 f.kcnt.toNat f.fmt f.ainc h) w.1 n.2
      let s3 := if f.fe then markPend (wrote s2 T f.fd.toNat 4 (.ok w.2)) T f.fd.toNat 4 n.2 true else s2
      let s4 := if f.ainc then markPend s3 T (h + 12) 8 n.2 false else s3
      exec (.mloop f) s = .next (ended (match bad with | some k => completeCmd s4 c n.2 (some k) | none => s4) T none
        (1 + crossCost (mloopSrcs f)))

/-- R324 to R326 for one element in one step. -/
def Obligations.MatrixStepElements : Prop :=
  (∀ (f : BitVec 6) (sa sb acc : Val) (k : Tok) (b : Except Tok (List Nat)) (as_ : List Nat),
    elemStep f (.error k) b sa sb acc = .word (.bad k) false
    ∧ elemStep f (.ok as_) (.error k) sa sb acc = .word (.bad k) false)
  ∧ (∀ (f : BitVec 6) (as_ bs : List Nat) (sa sb : Val) (o : Nat), fmtInt f = true →
    let rd := fun (v : Nat) => if f.getLsbD 1 then (v : Int) else toSigned (fmtW f) v
    let z := (if f.getLsbD 1 then (o : Int) else toSigned 32 o) + ((as_.zip bs).map fun p => rd p.1 * rd p.2).sum
    let out := if f.getLsbD 1 then z < 0 ∨ 2 ^ 32 ≤ z else z < -2 ^ 31 ∨ 2 ^ 31 ≤ z
    elemStep f (.ok as_) (.ok bs) sa sb (.ok o) = .word (.ok (z % 2 ^ 32).toNat) (decide out)
    ∧ ∀ k, elemStep f (.ok as_) (.ok bs) sa sb (.bad k) = .word (.bad k) false)
  ∧ ∀ (f : BitVec 6) (as_ bs : List Nat) (sa sb acc : Val), fmtInt f = false →
    (∀ k, lowTok [sa, sb, acc] = some k → elemStep f (.ok as_) (.ok bs) sa sb acc = .word (.bad k) false)
    ∧ (lowTok [sa, sb, acc] = none → (sa.num = 0xFF ∨ sb.num = 0xFF) → elemStep f (.ok as_) (.ok bs) sa sb acc = .inv)
    ∧ (lowTok [sa, sb, acc] = none → sa.num ≠ 0xFF → sb.num ≠ 0xFF →
      let products := (as_.zip bs).map fun p =>
        prodFv ((fmtB8 f).decode p.1) ((fmtB8 f).decode p.2) ((sa.num : Int) - 127 + ((sb.num : Int) - 127))
      let t := ((products.foldl Dot.add (.fin 0 0)).round 0).getD f32.nanBits
      elemStep f (.ok as_) (.ok bs) sa sb acc = .word (.ok (rne32Add (f32.decode acc.num) (f32.decode t))) false)

/-- R318, R327, R333, R334 as the engine's three events. One SDC token per step that mismatches, the OVF flag set when the loop ends, and what is
left of a loop that stops at a boundary, are assumption 24's (DEDUCED). -/
def Obligations.MatrixEngineEvents : Prop :=
  ∀ (s : State) (c : Nat) (k : MatCmd) (l : List MatCmd), (s.core c).matQ = k :: l →
    (k.started = false → k.stopAt = none → exec (.matrixCommandStart c) s = .next (matBegin s c k))
    ∧ (∀ (acc a b : BitVec 16) (off : OffSrc) (sa sb : List Val) (n : Nat) (f : BitVec 6) (i : Bool) (h : Nat),
      k.started = true → k.op = .loop acc a b off sa sb n f i h →
      let reached := off.num + 8 * k.step
      let r := runStep s c k acc.toNat a.toNat b.toNat reached sa sb f
      (k.step ≤ n → k.stopAt ≠ some k.step → ∀ mismatch : Bool,
        let s1 := r.1.modCore c fun x => { x with stepCnt := x.stepCnt + 1, narrow := r.1.host.alarm }
        let q := raiseAt s1 k.lead k.pc cSDC 0
        let s2 := if mismatch then (setTileWords q.1 c acc.toNat 0 (List.replicate 16384 (.bad q.2))).modCore c fun x =>
          { x with sdcCnt := min (2 ^ 32 - 1) (x.sdcCnt + 1) } else s1
        exec (.mloopStep c mismatch) s
          = .next (matSet s2 c { r.2 with
            step := k.step + 1, due := s2.now + if k.step + 1 ≤ n ∧ k.stopAt ≠ some (k.step + 1) then stepCycles f s2.host.alarm else 0 }))
      ∧ (let s1 := if k.ovf then setOvf s c acc.toNat true else s
        (n < k.step → (k.cancelled = false ∨ k.stopAt ≠ some k.step) → exec (.matrixCommandComplete c) s
          = .next (matEnd s1 c k (some reached) (firstBad (tileWords s1 c acc.toNat 0 16384))))
        ∧ (k.cancelled = true → k.stopAt = some k.step → exec (.matrixCommandComplete c) s
          = .next (matEnd (raiseAt s1 k.lead k.pc cUSER 0).1 c k (some reached) (some (raiseAt s1 k.lead k.pc cUSER 0).2))))
      ∧ (k.step ≤ n → let q := matCancel s c k
        q = matSet s c { (k.stop s c) with cancelled := true } ∧ (k.stop s c).step = k.step
        ∧ (k.stop s c).stopAt = some (if k.inStep s c then k.step + 1 else k.step)))
    ∧ (∀ acc : BitVec 16, k.started = true → k.op = .zero acc → exec (.matrixCommandComplete c) s
      = .next (matEnd (setOvf (setTileWords s c acc.toNat 0 (List.replicate 16384 (.ok 0))) c acc.toNat false) c k none none))

/-- R275, R276, R278, R281. -/
def Obligations.CombineResults : Prop :=
  (∀ (s : State) (T : Tid) (f : RForm), Solo s T f.x → inClass s 3 → combOut s (coreOf T) < 256 → (s.thr T).count .c < 63 →
    idle s T f.d.start.toNat f.d.slices →
    let c := coreOf T
    let sends := fun (rs : List Src) (user sz : Bool) (method : Nat) =>
      let a := engaged s T rs
      let n := a.1.fresh c
      let s1 := issueCmd n.1 .c n.2 [T]
      let cost := max 1 (1 + crossCost rs)
      let poisoned := fun (u : State) (k : Tok) =>
        ended (completeCmd (wrote u T f.d.start.toNat f.d.slices (.bad k)) c n.2 none) T none cost
      match lowTok a.2 with
      | some k => poisoned s1 k
      | none =>
        let l := a.2.map Val.num
        let ea : W64 := BitVec.ofNat 64 (arg l 0)
        let size := if sz then 8 else 4
        if user = false ∧ (ea.toNat % (if method = 12 then 16 else size) ≠ 0 ∨ (method = 11 ∧ 64 ≤ ea.toNat % 64 + size)) then
          poisoned (raise s1 T cBND ea).1 (raise s1 T cBND ea).2
        else
          let r := xlat s1 T .store ea
          match r.2 with
          | .fault k => poisoned (raise r.1 T k ea).1 (raise r.1 T k ea).2
          | .carried k => let q := raiseCarried r.1 T (s1.thr T).pc k ea; poisoned q.1 q.2
          | .ok p =>
            let z := combSend r.1 { core := c, cmd := n.2, tids := [T], lead := T, lo := f.d.start.toNat, n := f.d.slices, pc := s1.cur.addr
                                    ea := ea, user := user, method := method, sz := sz, b := arg l 1, new := arg l 2 } p
            ended (markPend z T f.d.start.toNat f.d.slices n.2 false) T none cost
    (∀ (op : BitVec 4) (sz : Bool), unheld s T (combSrcs (op == 10) f) →
      exec (.cmb op sz f) s = .next (sends (combSrcs (op == 10) f) false sz op.toNat))
    ∧ (∀ n : BitVec 6, unheld s T [rA f, rB f] → exec (.cmbu n f) s = .next (sends [rA f, rB f] true true n.toNat))
    ∧ ∀ n : BitVec 6, (s.thr T).priv = true → unheld s T [rA f] →
      let a := engaged s T [rA f]
      let q := a.1.fresh c
      let s1 := issueCmd q.1 .c q.2 [T]
      let cost := max 1 (1 + crossCost [rA f])
      (∀ k, a.2 = [.bad k] → exec (.cmbdef n f) s
        = .next (ended (completeCmd (wrote s1 T f.d.start.toNat f.d.slices (.bad k)) c q.2 none) T none cost))
      ∧ ∀ v, a.2 = [.ok v] →
        let k : FabCmd := { id := q.2, tids := [T], lead := T, pc := s1.cur.addr
                            kind := .cmbdef n.toNat (BitVec.ofNat 64 v) f.d.start.toNat, asid := (s1.core c).ptbr.toNat % 4096
                            root := (s1.core c).ptbr, user := false }
        let z := markPend (s1.modCore c fun x => { x with fabQ := x.fabQ ++ [k] }) T f.d.start.toNat f.d.slices q.2 false
        fabGet z c q.2 = some k → exec (.cmbdef n f) s = .next (ended (cmbdefGo z c k n.toNat (BitVec.ofNat 64 v)) T none cost))
  ∧ ∀ (s : State) (r : CReq) (p : Page), p.peer = 0 →
    let u := setDC s p
    combSend s r p = { u with comb := { u.comb with
      nextId := u.comb.nextId + 1
      flight := u.comb.flight ++ [{ r with id := u.comb.nextId, pa := p.pa, peer := 0
                                           ident := identOf u.fab.dev.toNat r.lead, sent := u.now
                                           port := u.iss.getD 0, filled := u.cur.filled }] } }

/-- R277, R282: each built-in on word i of a copy, and a wave of lanes. -/
def Obligations.CombineMethods : Prop :=
  (∀ (copy : List Val) (i : Nat) (old b new : BitVec 32), copy[i]? = some (.ok old.toNat) →
    let gives := fun (m : Nat) (v : BitVec 32) =>
      builtinLane m false copy i b.toNat new.toNat = some (copy.set i (.ok v.toNat), old.toNat)
    gives 0 (old + b)
    ∧ gives 2 (if b.slt old then b else old) ∧ gives 3 (if b.ult old then b else old)
    ∧ gives 4 (if old.slt b then b else old) ∧ gives 5 (if old.ult b then b else old)
    ∧ gives 6 (old &&& b) ∧ gives 7 (old ||| b) ∧ gives 8 (old ^^^ b) ∧ gives 9 b
    ∧ gives 10 (if old = b then new else old)
    ∧ ∀ v : BitVec 32, copy[i + 1]? = some (.ok v.toNat) →
      builtinLane 11 false copy i b.toNat new.toNat
        = if old.toNat + b.toNat < 2 ^ 32 ∧ old.toNat + b.toNat ≤ v.toNat then
            some (copy.set i (.ok (old + b).toNat), old.toNat)
          else some (copy, 2 ^ 32 - 1))
  ∧ (∀ (copy : List Val) (i : Nat) (old b new : BitVec 32), copy[i]? = some (.ok old.toNat) →
    builtinLane 1 false copy i b.toNat new.toNat
      = some (copy.set i (.ok (rne32Add (f32.decode old.toNat) (f32.decode b.toNat) % 2 ^ 32)), old.toNat))
  ∧ (∀ (copy : List Val) (i : Nat) (old b new : BitVec 64), copyNum copy i true = some old.toNat →
    let gives := fun (m : Nat) (v : BitVec 64) =>
      builtinLane m true copy i b.toNat new.toNat = some (copyPut copy i true v.toNat, old.toNat)
    gives 0 (old + b)
    ∧ gives 2 (if b.slt old then b else old) ∧ gives 3 (if b.ult old then b else old)
    ∧ gives 4 (if old.slt b then b else old) ∧ gives 5 (if old.ult b then b else old)
    ∧ gives 6 (old &&& b) ∧ gives 7 (old ||| b) ∧ gives 8 (old ^^^ b) ∧ gives 9 b
    ∧ gives 10 (if old = b then new else old)
    ∧ ∀ v : BitVec 64, copyNum copy (i + 2) true = some v.toNat →
      builtinLane 11 true copy i b.toNat new.toNat
        = if old.toNat + b.toNat < 2 ^ 64 ∧ old.toNat + b.toNat ≤ v.toNat then
            some (copyPut copy i true (old + b).toNat, old.toNat)
          else some (copy, 2 ^ 64 - 1))
  ∧ (∀ (copy : List Val) (i b new : Nat) (m : Nat) (k : Tok), copy[i]? = some (.bad k) → builtinLane m false copy i b new = none)
  ∧ (∀ (copy : List Val) (i b new old : Nat), copyNum copy i true = some old →
    let queued := copyPut copy i true b
    builtinLane 12 true copy i b new = some (if old = 0 then copyPut queued (i + 2) true b else queued, old))
  ∧ ∀ (n i : Nat) (r : CReq) (rs : List CReq) (copy : List Val), r.user = false →
    match builtinLane r.method r.sz copy (r.pa % 64 / 4) r.b r.new with
    | none => runLanes n i (r :: rs) copy = none
    | some (copy', v) => runLanes n i (r :: rs) copy = (runLanes n (i + 1) rs copy').map fun q => (q.1, v :: q.2)

/-- R352 to R357, R360; what an engine does with a command follows in FabricCommandEffects. -/
def Obligations.FabricCommandResults : Prop :=
  ∀ (s : State) (T : Tid), inClass s 4 →
    let c := coreOf T
    let asks := fun (fut : Option Opd) (rs : List Src) (g : List Nat → FabKind) =>
      let a := engaged s T rs
      let n := a.1.fresh c
      let s1 := issueCmd n.1 .f n.2 [T]
      let h := if fut.isSome then allocFut s1 c .f n.2 else (s1, 0)
      let handed := fun (u : State) => match fut with
        | none => u
        | some d => markPend (wrote u T d.start.toNat d.slices (.ok h.2)) T d.start.toNat d.slices n.2 true
      ended (match lowTok a.2 with
        | some k => completeCmd (handed h.1) c n.2 (some k)
        | none =>
          let p := (s1.core c).ptbr
          let k : FabCmd := { id := n.2, tids := [T], lead := T, pc := s1.cur.addr, asid := p.toNat % 4096, root := p
                              user := !(s1.thr T).priv, frames := (askerOf s1 T).frames, kind := g (a.2.map Val.num) }
          let u := handed (h.1.modCore c fun x => { x with fabQ := x.fabQ ++ [k] })
          match fabGet u c n.2 with
          | some k => fabGo u c k
          | none => u) T none (max 1 (1 + crossCost rs))
    (∀ f : FForm, Solo s T f.x →
      let fut := if f.fut then some f.d else none
      (cmdFree s T .f fut [] →
        exec (.flushr f) s = .next (asks fut [] fun _ => .flushr f.imm.toNat)
        ∧ ((s.thr T).priv = true → exec (.drain f) s = .next (asks fut [] fun _ => .drain (f.imm.setWidth 8))))
      ∧ (cmdFree s T .f fut [fA f] →
        exec (.flushrA f) s = .next (asks fut [fA f] fun l => .flushr (arg l 0 % 2 ^ 12))
        ∧ exec (.fbar f) s = .next (asks fut [fA f] fun l => .fbar f.imm.toNat false (arg l 0))
        ∧ exec (.fbarStep f) s = .next (asks fut [fA f] fun l => .fbar f.imm.toNat true (arg l 0))))
    ∧ (∀ f : RForm, Solo s T f.x →
      let fut := if f.r4 then some f.d else none
      cmdFree s T .f fut [rA f, rB f] →
        exec (.fput f) s = .next (asks fut [rA f, rB f] fun l =>
          .fput (BitVec.ofNat 64 (arg l 0)) (BitVec.ofNat 32 (arg l 1)) (arg l 1 / 2 ^ 32))
        ∧ exec (.fget f) s = .next (asks fut [rA f, rB f] fun l =>
          .fget (BitVec.ofNat 64 (arg l 0)) (BitVec.ofNat 32 (arg l 1)) (arg l 1 / 2 ^ 32))
        ∧ (∀ add sz : Bool, exec (.fsig add sz f) s
          = .next (asks fut [rA f, rB f] fun l => .fsig add sz (BitVec.ofNat 64 (arg l 0)) (arg l 1)))
        ∧ ((s.thr T).priv = true → rosePending s = false →
          exec (.rload f) s = .next (asks fut [rA f, rB f] fun l => .rload (BitVec.ofNat 64 (arg l 0)) (arg l 1))))
    ∧ ∀ (f : RForm) (k : BitVec 3), Solo s T f.x → idle s T f.d.start.toNat f.d.slices →
      let s1 := noReplay (opened s T) [T]
      let b := s.fab
      let staged := 72 * stagedFlits b / 1024
      let v := match k.toNat with
        | 0 => b.dev.toNat + roseSlots s * 2 ^ 12 + curSlot s * 2 ^ 19 + (if b.next.isSome then 2 ^ 25 else 0) + b.down.toNat * 2 ^ 26
          + (b.drained ||| b.down).toNat * 2 ^ 34 + b.degraded.toNat * 2 ^ 42
        | 1 => curCycle s % 2 ^ 64
        | 2 => match b.next with | some (_, t, _, _) => t | none => 0
        | 3 => min staged 32768 + (staged - 32768) * 2 ^ 32
        | 4 => min 0xFFFF (postedOut s c).length + (s.core c).posted.length * 2 ^ 16 + if (s.core c).postOvf then 2 ^ 32 else 0
        | 5 => b.migRec % 2 ^ 32 + b.migDrop * 2 ^ 32
        | 6 => b.resend
        | _ => b.fabPois
      exec (.rstat k f) s = .next (ended (wrote s1 T f.d.start.toNat f.d.slices (.ok (v % 2 ^ f.d.bits))) T none 1)

/-- R353 to R356 as the engine takes a command up. BND for an FPUT's or FGET's byte count of 0, not a multiple of 4 or above 65536 is assumption
82's (DEDUCED). -/
def Obligations.FabricCommandEffects : Prop :=
  ∀ (s : State) (c : Nat) (k : FabCmd), k.sent = false → k.tags = [] →
    let closes := fun (u : State) (t : Option Tok) =>
      let tags := u.fab.tags.filter fun r => !(r.core == c && r.use == .cmd k.id)
      completeCmd (fabDrop { u with fab := { u.fab with tags := tags } } c k.id) c k.id t
    let fails := fun (u : State) (cause : Nat) (a : W64) => closes (raiseAt u k.lead k.pc cause a).1 (some (raiseAt u k.lead k.pc cause a).2)
    (∀ d, k.kind = .flushr d →
      ((d = 0 ∨ d = s.fab.dev.toNat) → fabGo s c k = closes s none)
      ∧ (d ≠ 0 → d ≠ s.fab.dev.toNat → reachable s d = false → fabGo s c k = fails s cPEER 0))
    ∧ (k.kind = .drain 0 → fabGo s c k = closes s none)
    ∧ (∀ (b a : Nat) (step : Bool), k.kind = .fbar b step a → k.freed = false →
      let badly := bitsOf a 11 0 = 0 ∨ bitsOf a 15 12 ≠ 0 ∨ bitsOf a 31 28 ≠ 0
      let d := bitsOf a 27 16
      (badly → fabGo s c k = fails s cBND 0)
      ∧ (¬ badly → d ≠ 0 → d ≠ s.fab.dev.toNat → reachable s d = false → fabGo s c k = fails s cPEER 0))
    ∧ (∀ (add sz : Bool) (va : W64) (v : Nat), k.kind = .fsig add sz va v →
      let size := if sz then 8 else 4
      (va.toNat % size ≠ 0 → fabGo s c k = fails s cBND va)
      ∧ (va.toNat % size = 0 → ∀ p, p.peer = 0 → (translate s c ⟨(spaceOf k.root).root, k.asid⟩ k.user .store va).2 = .ok p →
        let u := setDC (translate s c ⟨(spaceOf k.root).root, k.asid⟩ k.user .store va).1 p
        let z := if add then (match homeRead u (p.pa / 4) (size / 4) with
            | some o => homeNum u (some c) p.pa ((o + v) % 2 ^ (8 * size)) (size / 4)
            | none => u)
          else homeNum u (some c) p.pa v (size / 4)
        let y := dropL1 (dropL1 z c (p.pa / 4)) c (p.pa / 4 + if sz then 1 else 0)
        k.fault = none → k.lines = [] → (acked y c = true → fabGo s c k = closes y none)
          ∧ (acked y c = false → fabGo s c k = fabSet y c { k with sent := true })))
    ∧ ∀ (va : W64) (sa : BitVec 32) (n : Nat), (k.kind = .fput va sa n ∨ k.kind = .fget va sa n) →
      let h := sa.toNat / 2 ^ 16
      let o := sa.toNat % 2 ^ 16
      (∀ f, tileFail s c h ⟨k.asid, k.frames⟩ true 0 0 = some f → fabGo s c k = fails s f 0)
      ∧ (tileFail s c h ⟨k.asid, k.frames⟩ true 0 0 = none →
        (va.toNat % 4 ≠ 0 ∨ o % 4 ≠ 0 ∨ n < 4 ∨ 65536 < n ∨ n % 4 ≠ 0 ∨ shBytes (tileShape s c h) < o + n) → fabGo s c k = fails s cBND 0)

/-- R57, R251 to R254. -/
def Obligations.SystemWordResults : Prop :=
  (∀ (s : State) (low : BitVec 60), exec (.med3 low) s
    = .next (takeTrap s (trapAt s (pfxOf (0xF000000000000000 ||| low.setWidth 64)) tILL dUNIMPL)))
  ∧ ∀ (s : State) (T : Tid), inClass s 5 →
    (∀ f : IForm, Solo s T f.x →
      let code := f.imm.toNat
      let takes := fun (cause code : Nat) (byTrap : Bool) =>
        takeTrap s { trapAt s f.x cause 0 with code := code, byTrap := byTrap }
      exec (.trap f) s = .next (takes (code % 8) (code / 8 % 2 ^ 16) true)
      ∧ exec (.brk f) s = .next (takes tBRK (code % 2 ^ 16) false)
      ∧ exec (.sysc f) s = .next (takes tSYSC (code % 2 ^ 16) false)
      ∧ ((sysReadSup code = true → (s.thr T).priv = true) → idle s T f.d.start.toNat f.d.slices →
        exec (.sysr f) s = .next (ended (wrote (opened s T) T f.d.start.toNat f.d.slices (.ok (sysRead s T code % 2 ^ f.d.bits))) T none 1))
      ∧ ((sysWriteSup code = true → (s.thr T).priv = true) → unheld s T [iA f] →
        let a := (iA f).read (opened s T) [T] T
        exec (.sysw f) s = .next (ended (match a.2 with
          | .bad k => recordDrop (noReplay a.1 [T]) T k
          | .ok v => sysWrite (noReplay a.1 [T]) T code v) T none (1 + crossCost [iA f]))))
    ∧ ∀ f : RForm, Solo s T f.x →
      ((s.thr T).priv = true → (∀ p ∈ s.threads, coreOf p.1 = coreOf T → p.2.outst = []) →
        exec (.halt f) s = .next (ended
          ((gateCore (opened s T) (coreOf T) true).modCur fun p => { p with widx := p.words.length - 1 }) T none 1))
      ∧ (atLast s.cur = true → 0 < (s.thr T).hdepth → (s.thr T).pending 96 32 = false → (s.thr T).hold.noPage = false →
        ∀ (u : State) (cs : List (Tid × Nat)), heads (coreOf T) (!(s.thr T).priv) [T] s = (u, .ok cs) →
          let z := rteThread (opened u T) T (((cs.find? fun p => p.1 == T).map Prod.snd).getD 0)
          exec (.rte f) s = .next (ended z T (some ⟨(z.thr T).pc, (z.thr T).hdr⟩) 1))

/-- R253 with the rules of each register, among them R342, R198, R248 and R274. -/
def Obligations.SystemRegisterFields : Prop :=
  ∀ (s : State) (T : Tid) (v : W64), s.live T = true →
    let after := fun (r : Nat) => sysWrite s T r v.toNat
    let reads := fun (r : Nat) (w : W64) => sysRead (after r) T r = w.toNat
    reads 0x040 ((v &&& 0xFFFFF000) ||| if v &&& 0xFFF = 0 then 1 else v &&& 0xFFF)
    ∧ reads 0x060 (v &&& 0x000FFFFFFFFF0FFF)
    ∧ reads 0x080 (v &&& 0xFFFFFFFFFFFFFFF8)
    ∧ reads 0x085 (v &&& 0xFFFFFF00)
    ∧ (∀ i < 4, reads (0x090 + i) (v &&& 0x000FFFFFFFFFFFFF) ∧ ∀ j < 4, j ≠ i → sysRead (after (0x090 + i)) T (0x090 + j) = sysRead s T (0x090 + j))
    ∧ reads 0x0A0 (v &&& 0x000FFFFFFFF000FF)
    ∧ reads 0x0C0 (if v &&& 0xFF = 0 then 1 else v &&& 0xFF)
    ∧ reads 0x0E0 (v &&& 0x000FFFFFFFFFFFFC)
    ∧ reads 0x101 ((if v &&& 0xFFFF0000 = 0 then 0x10000 else v &&& 0xFFFF0000) ||| if 0x3F00 < v &&& 0xFF00 then 0x3F00 else v &&& 0xFF00)
    ∧ reads 0x102 (v &&& 0x000FFFFFFFFFF00F)
    ∧ after 0x084 = (if v.getLsbD 20 then s.modThr T fun x => { x with uviol := false } else s)
    ∧ (∀ o, (v.getLsbD 62 = true → (((after 0x062).core (coreOf T)).org = [] ∧ ((after 0x062).core (coreOf T)).orgCur = 0))
      ∧ (v.getLsbD 62 = false → v.getLsbD 63 = true → o = (v.extractLsb' 32 12).toNat →
        ((after 0x062).core (coreOf T)).org = tdel o (s.core (coreOf T)).org)
      ∧ (v.getLsbD 62 = false → v.getLsbD 63 = false → after 0x062 = s))
    ∧ ∀ r, r ∉ [0x040, 0x060, 0x061, 0x062, 0x080, 0x084, 0x085, 0x090, 0x091, 0x092, 0x093, 0x0A0, 0x0C0, 0x0E0, 0x0E8, 0x101, 0x102] →
      after r = s

/-- R58, R244 to R247, R252. A clause with YIELD demotes its thread at the trap's exit too (R97; DEDUCED, assumption 50), and RTE's PC has
bits 2 to 0 cleared (assumption 33). -/
def Obligations.TrapEntryAndReturn : Prop :=
  (∀ (s : State) (g : Gate) (x : Pfx) (acts : List Tid),
    let placed := admitted s.cur.hdr g.cls = true ∧ (g.last = true → atLast s.cur = true)
    let held := g.sup = true → ∀ t ∈ s.cur.pack, (s.thr t).priv = true
    (¬ placed → gateTrap s g x acts = some (trapAt s x tILL dPLACE))
    ∧ (placed → ¬ held → gateTrap s g x acts = some (trapAt s x tPRIV 0))
    ∧ (placed → held → g.bad s acts s.cur.pack = true → gateTrap s g x acts = some (trapAt s x tILL dSTATE))
    ∧ (placed → held → g.bad s acts s.cur.pack = false →
      (acts = [] → gateTrap s g x acts = none)
      ∧ (acts ≠ [] → ∀ c code tr, g.brk = some (c, code, tr) →
        gateTrap s g x acts = some { trapAt s x c 0 with code := code, byTrap := tr })
      ∧ (acts ≠ [] → g.brk = none → gateTrap s g x acts
        = if g.watch s acts = [] then none else some { trapAt s x tWATCH 0 with addrs := g.watch s acts })))
  ∧ (∀ (s : State) (r : TrapRec) (k : Nat), s.iss = some k → (∀ t ∈ s.cur.pack, (s.thr t).pending 96 32 = false) →
    takeTrap s r = s.cur.pack.foldl (fun s t => trapThread s r t) (s.freePort k))
  ∧ (∀ (s : State) (r : TrapRec) (t : Tid),
    let x := s.thr t
    let o := 0x60 * x.hdepth
    (x.hdepth = 2 → trapThread s r t = threadFault s t r.pc (causeWord r t))
    ∧ (x.hdepth ≠ 2 → ∀ f, frameFail s t o 0x60 = some f →
      let q := raiseAt s t r.pc f (BitVec.ofNat 64 (x.tfp.toNat / 256 * 256 + o))
      trapThread s r t = threadFault q.1 t r.pc q.2.toNat)
    ∧ (x.hdepth ≠ 2 → frameFail s t o 0x60 = none →
      trapThread s r t = (setTileWords s (coreOf t) (frameH x) ((frameOff x + o) / 4) (frameWords x t r)).setThr t
        { (((x.put 104 8 (.ok 0)).put 112 8 (.ok 0)).put 120 8 (.ok 0)).put 96 8 (.ok (x.tfp.toNat / 256 * 256 + o)) with
          demote := if x.yields then 16 else x.demote, yields := false
          hdepth := x.hdepth + 1, priv := true, pc := (s.core (coreOf t)).tvec, hdr := none }))
  ∧ ∀ (s : State) (t : Tid) (cnt : Nat) (l : List Val), readFrame s t = .ok l →
    (∀ k, framePoison l = some k → rteThread s t cnt = threadFault s t (s.thr t).pc k.toNat)
    ∧ (framePoison l = none → ∃ y : Thread, rteThread s t cnt = s.setThr t y
      ∧ y.hdepth = (s.thr t).hdepth - 1 ∧ y.preds = BitVec.ofNat 7 (frameField l 6).num
      ∧ y.priv = (frameField l 4).num.testBit 16 ∧ y.uviol = (frameField l 4).num.testBit 20 ∧ y.seq = (frameField l 4).num.testBit 25
      ∧ y.pc = BitVec.ofNat 64 ((frameField l 0).num / 8 * 8) ∧ y.drop = (s.thr t).drop ∧ y.leg = (s.thr t).leg
      ∧ ∀ i < 4, ∀ v, l[16 + i]? = some (.ok v) → v < 2 ^ 32 → y.bits (96 + 8 * i) 8 = v)

/-- R255 to R260. CTXSV's future counts as a command of class F (DESIGN CHOICE, assumption 37); the collective wait, leaving the port, a poisoned
handle and what RBK brings back are assumption 39's. -/
def Obligations.TeamImageResults : Prop :=
  (∀ (s : State) (T : Tid) (f : RForm), Solo s T f.x → inClass s 5 →
    let c := coreOf T
    let a := (rA f).read (opened s T) [T] T
    let cost := 1 + crossCost [rA f]
    (∀ h, unheld s T [rA f] → (rA f).peek s [T] T = .val (.ok h) → h < 2 ^ 16 → (s.thr T).team = some (BitVec.ofNat 16 h) →
      let key := teamKey T h
      ((s.thr T).leg = none → (s.thr T).outst = [] → exec (.snap f) s = .next (leavePort (ended (snapThreads (noReplay a.1 [T]) T [T] h) T none cost)))
      ∧ ((tgetD key {} s.snaps).valid = true →
        exec (.rbk f) s = .next (leavePort (ended ((discardHeld a.1 T).modThr T fun x =>
          { x with leg := none, hold := { x.hold with rbk := some key } }) T none cost))))
    ∧ ((s.thr T).priv = true → unheld s T [rA f, rB f] →
      let r := readSrcs [T] T [rA f, rB f] (opened s T)
      let cost := 1 + crossCost [rA f, rB f]
      ∀ (q : Bool) (h a : Nat), (rA f).peek s [T] T = .val (.ok h) → r.2 = [.ok h, .ok a] → badHandle h = false →
        (teamEnt s (teamKey T h)).live = true → (s.thr T).team ≠ some (BitVec.ofNat 16 h) →
        (f.r4 = true → idle s T f.d.start.toNat f.d.slices → futFull s c = false →
          let n := r.1.fresh c
          let w := allocFut n.1 c .f n.2
          let u := markPend (wrote w.1 T f.d.start.toNat f.d.slices (.ok w.2)) T f.d.start.toNat f.d.slices n.2 true
          let v := readSrcs [T] T [rA f, rB f] u
          exec (.ctxsv q f) s = .next (ended (saveBegin v.1 T (arg (v.2.map Val.num) 0)
            (BitVec.ofNat 64 (arg (v.2.map Val.num) 1)) q (some n.2)) T none cost))
        ∧ (f.r4 = false → ∀ v, ownSave s T = some v → v.done = true →
          exec (.ctxsv q f) s
            = .next (ended { r.1 with saves := r.1.saves.filter fun v => !(v.cmd.isNone && v.lead == T) } T none cost)))
    ∧ ((s.thr T).priv = true → aluFree s T f.d [rA f] →
      (∀ k, a.2 = .bad k → exec (.ctxld f) s = .next (ended (wrote a.1 T f.d.start.toNat f.d.slices (.bad k)) T none cost))
      ∧ ∀ v, a.2 = .ok v → let q := ctxld a.1 T (BitVec.ofNat 64 v)
        exec (.ctxld f) s = .next (ended (wrote q.1 T f.d.start.toNat f.d.slices (.ok (q.2 % 2 ^ f.d.bits))) T none cost)))
  ∧ (∀ (s : State) (T : Tid) (h : Nat),
    let key := teamKey T h
    ((tgetD (clusterOf (coreOf T)) 0 s.clusters).toNat % 2 ^ 8 = 0 →
      snapThreads s T [T] h = recordDrop (raise s T cBND).1 T (raise s T cBND).2)
    ∧ ((tgetD (clusterOf (coreOf T)) 0 s.clusters).toNat % 2 ^ 8 ≠ 0 →
      let old := tgetD key {} s.snaps
      let others := if old.valid then [] else old.threads.filter fun p => p.1 ≠ T
      let behind : Thread := { (s.thr T) with pc := s.cur.next.pc, hdr := s.cur.next.hdr, carryA := none, carryB := none }
      snapThreads s T [T] h = ({ s with snaps := tset key { threads := others ++ [(T, behind)] } s.snaps } : State).modThr T fun x =>
        { x with hold := { x.hold with snap := some key } }))
  ∧ ∀ (s : State) (T : Tid) (va : W64),
    (imageAt s (coreOf T) va = none → ctxld s T va = (s, 1)) ∧ ((ctxld s T va).2 ≠ 0 → (ctxld s T va).1 = s)

/-- R193, R198, R390 as register operations; watches of the invalidated address space are re-read (R155). SCOPE 0 drops the die's cache as well
(DESIGN CHOICE, assumption 69), and a WAKE that finds no halted core of its die changes nothing (assumption 57). -/
def Obligations.RegisterOperationEvents : Prop :=
  (∀ (s : State) (c : Nat) (v : W64), ∃ t, exec (.tlbinv c v) s = .next t ∧
    let keeps := fun (e : TlbEnt) => e.asid ≠ bitsOf v.toNat 15 4
      ∨ (v.getLsbD 3 = false ∧ e.page * 2 ^ 16 / leafSize e.level ≠ bitsOf v.toNat 51 16 * 2 ^ 16 / leafSize e.level)
    let inScope := fun (d : Nat) => (v.toNat % 4 = 0 ∧ d = c) ∨ (v.toNat % 4 = 1 ∧ dieOf d = dieOf c) ∨ 2 ≤ v.toNat % 4
    (∀ d, inScope d → (t.core d).tlb = (s.core d).tlb.filter fun e => decide (keeps e))
    ∧ (∀ d, ¬ inScope d → t.core d = s.core d)
    ∧ (∀ d, d = dieOf c ∨ 2 ≤ v.toNat % 4 → (t.die d).cache = (s.die d).cache.filter fun e => decide (keeps e))
    ∧ (∀ d, ¬ (d = dieOf c ∨ 2 ≤ v.toNat % 4) → t.die d = s.die d)
    ∧ (∀ T,
      let again := fun (w : Watch) =>
        if inScope (coreOf T) ∧ (spaceOf (s.core (coreOf T)).ptbr).asid = bitsOf v.toNat 15 4 then { w with due := s.now } else w
      t.thr T = { s.thr T with hold := { (s.thr T).hold with watch := (s.thr T).hold.watch.map again } })
    ∧ t.ports = s.ports ∧ t.mem = s.mem)
  ∧ (∀ (s : State) (c : Nat) (i : BitVec 12), ∃ t, exec (.orgctlFree c i) s = .next t
    ∧ (t.core c).org = tdel i.toNat (s.core c).org ∧ (t.core c).orgCur = (s.core c).orgCur ∧ ∀ d, d ≠ c → t.core d = s.core d)
  ∧ (∀ (s : State) (c : Nat), ∃ t, exec (.orgctlFreeall c) s = .next t
    ∧ (t.core c).org = [] ∧ (t.core c).orgCur = 0 ∧ ∀ d, d ≠ c → t.core d = s.core d)
  ∧ (∀ (s : State) (c : Nat) (v : W64), let d := v.toNat % 2 ^ 10
    (dieOf d = dieOf c → (s.core d).halted = true → ∃ t, exec (.wake c v) s = .next t
      ∧ (t.core d).halted = false ∧ (t.core d).gatedAt = none ∧ ∀ e, e ≠ d → t.core e = s.core e)
    ∧ (¬ (dieOf d = dieOf c ∧ (s.core d).halted = true) → exec (.wake c v) s = .next s))
  ∧ ∀ (s : State) (T : Tid) (r : BitVec 12) (v : W64),
    exec (.registerWrite .system T r v) s = .next (sysWrite s T r.toNat v.toNat)
    ∧ exec (.registerWrite .host T r v) s = .next
      (hostRegWrite { s with host := { s.host with pstate := 0, lastAccess := s.now } } r.toNat v.toNat)

/-- R88 to R98, R108, R154, R155, R132, R194, R200, R225, R232 as events. Votes are assumption 66's, what a watch's re-read waits for is assumption
7's, and a word goes home with its dirty partner (DEDUCED, assumption 71). -/
def Obligations.ThreadEngineEvents : Prop :=
  (∀ (s : State) (l : Nat) (b : Bool),
    let k := voteLane s l * 2 + (if b then 1 else 0)
    tget k s.ports = none → running s (voteLane s l / 16) = true → (b = true → (tget (voteLane s l * 2) s.ports).isSome = true) →
    let ts := (laneThreads s (voteLane s l)).filter fun t => ready s t
    ∀ c, choose s (if (ts.filter fun t => (s.thr t).demote == 0) = [] then ts else ts.filter fun t => (s.thr t).demote == 0) = some c →
      ∃ t, exec (.issueVote l b) s = .next t ∧ t.voteCtr = s.voteCtr + 1
        ∧ ∀ x ∈ laneThreads s (voteLane s l), (t.thr x).demote = (s.thr x).demote - 1
          ∧ (ready s x = false → (s.thr x).hold.frozen = false → (t.thr x).age = 0 ∧ (t.thr x).forced = none))
  ∧ (∀ (s : State) (c i : Nat), let b := tgetD i {} (s.core c).bins
    (b.recs ≠ [] → b.expired = false → b.opened + (s.core c).schcfg.toNat % 2 ^ 12 ≤ s.now →
      exec (.binTimerExpiry c i) s = .next (s.modCore c fun x => { x with bins := tset i { b with expired := true } x.bins }))
    ∧ (∀ t, packPlace s c = some t → exec (.packPlace c) s = .next t)
    ∧ ((s.core c).epochAt + 4096 ≤ s.cyc c → ∃ t, exec (.throttleEpoch c) s = .next t ∧ (t.core c).epochAt = s.cyc c
      ∧ ∀ j < 16, (tgetD j {} (t.core c).bins).score = (tgetD j {} (s.core c).bins).score / 2
        ∧ (bitsOf (s.core c).schcfg.toNat 15 12 = 0 → (tgetD j {} (t.core c).bins).allowed = true)))
  ∧ (∀ (s : State) (T : Tid),
    (∀ e, (s.thr T).hold.sleep = some e → e ≤ s.now →
      exec (.sleepExpiry T) s = .next ((awake s).modThr T fun x => { x with hold := { x.hold with sleep := none } }))
    ∧ (∀ w, (s.thr T).hold.watch = some w → w.due ≤ s.now → w.asked = false → (∀ u ∈ watchMates s w, acqBusy s u 5 = false) →
      exec (.waitwReread T) s = .next (reread (awake s) T) ∧ exec (.waitwTimer T) s = .next (reread (awake s) T)))
  ∧ (∀ (s : State) (c id : Nat) (r : Req), ((s.core c).reqs.find? fun q => q.id == id) = some r → r.due ≤ s.now →
    let gone := s.modCore c fun x => { x with reqs := x.reqs.filter fun q => q.id != id }
    let free := { gone with threads := s.threads.map fun p => if coreOf p.1 = c then (p.1, p.2.clearPend id none) else p }
    let done := r.pieces.foldl (fun s p => writePiece s r.lead r.tids r.pc p) free
    ((r.kind = .load ∨ (r.kind = .atom ∧ acked s c = true)) → exec (.loadReply c id) s = .next done)
    ∧ (r.kind = .multi → exec (.multiCycleResult c id) s = .next done)
    ∧ (∀ key m v evf, r.kind = .fill key m v evf →
      let f := fillWord gone c key (gone.thr r.lead).bin evf
      ∀ e, tget key (f.core c).l1 = some e → ∃ t, exec (.storeFillReturn c id) s = .next t
        ∧ (∀ o, e.val = .ok o → m ≠ 0 → tget key (t.core c).l1
          = some { e with val := maskWord e.val m (.ok v), dirty := some (e.dirty.getD f.now), evf := e.evf || evf })
        ∧ (∀ k, e.val = .bad k → m ≠ 0xF → tget key (t.core c).l1 = some e)
        ∧ (m = 0 → t = f))
    ∧ (hostStoreCore s id = some c → ∃ t, exec (.hostStoreCompletion id) s = .next t
      ∧ (t.core c).reqs = (s.core c).reqs.filter fun q => !(q.id == id && q.kind == .hostStore)))
  ∧ ∀ (s : State) (c w : Nat) (e : L1Word), tget w (s.core c).l1 = some e →
    (∀ d, e.dirty = some d → d + 4096 ≤ s.now → exec (.writebackTimer c w) s = .next (writeBackKeys s c false [w, pairOf w]))
    ∧ (∀ m : Msg,
      let heard := fun (u : State) => payOwed { u with msgs := u.msgs.erase m }
      (findMsg s .inval c w = some m → exec (.clusterInvalidation c w) s = .next
        (heard (s.modCore c fun x => if e.dirty.isSome then x else { x with l1 := tdel w x.l1 })))
      ∧ (findMsg s .revoke c w = some m → exec (.revoke c w) s = .next
        (heard (s.modCore c fun x => { x with l1 := tset w { e with owned := false } x.l1 }))))

/-- R298, R311, R268 to R271, R281, R256, R260 as events. A stream command moves all its data in one event (DESIGN CHOICE, assumption 27), a wave
commits whole, with the arrivals that stand there (assumption 28), and snapshots and rollbacks are assumption 39's. -/
def Obligations.EngineEvents : Prop :=
  (∀ (s : State) (c id : Nat) (k : StrCmd), strGet s c id = some k →
    (strMayStart s c k = true → exec (.streamCommandStart c id) s = .next (strStart s c k))
    ∧ (1 ≤ k.stage → k.tags = [] → exec (.streamCommandComplete c id) s = .next (strFinish s c k))
    ∧ (∀ a T, k.op = .asl a → k.tags = [] → aslReady s k T = true → exec (.aslDeliver c id T) s = .next (aslDeliverTo s c k T)))
  ∧ (∀ (s : State) (ids : List Nat) (r : CReq), arrivals s ids = [r] →
    (∀ t, joinWave s r = some t → exec (.combineRequestArrival ids) s
      = .next { t with comb := { t.comb with flight := t.comb.flight.filter fun q => q.id != r.id } })
    ∧ (joinWave s r = none → exec (.combineRequestArrival ids) s = .next s))
  ∧ (∀ (s : State) (w : Wave),
    ((s.comb.waves.find? fun v => v.obj == w.obj && !v.closed) = some w → w.opened + w.window ≤ s.now → ∃ t v, exec (.waveWindowExpiry w.obj) s = .next t
      ∧ v ∈ t.comb.waves ∧ v.closed = true ∧ v.obj = w.obj
      ∧ ∀ r ∈ w.reqs, (r.user = false → r ∈ v.reqs)
        ∧ (r.user = true → tget r.method (s.die (homeDie w.obj)).methods = none → { r with reply := some (.cause cCMB r.ea) } ∈ t.comb.replies)
        ∧ ∀ b, r.user = true → tget r.method (s.die (homeDie w.obj)).methods = some b → { r with body := b } ∈ v.reqs)
    ∧ ((s.comb.waves.find? fun v => v.obj == w.obj && v.closed) = some w → w.closedAt < s.now → w.reqs ≠ [] →
      let copy := (List.range 16).map fun i => homeWord s (16 * w.obj + i)
      (runLanes w.reqs.length 0 w.reqs copy = none → exec (.waveApply w.obj) s = .next { s with comb := { s.comb with
        waves := s.comb.waves.filter fun v => v != w, replies := s.comb.replies ++ w.reqs.map fun r => { r with reply := some (.cause cCMB r.ea) } } })
      ∧ (∀ copy' vs, runLanes w.reqs.length 0 w.reqs copy = some (copy', vs) → ∃ t, exec (.waveApply w.obj) s = .next t
        ∧ (∀ v ∈ t.comb.waves, v ≠ w) ∧ t.comb.replies = s.comb.replies ++ (w.reqs.zip vs).map fun p => { p.1 with reply := some (.clean p.2) })))
  ∧ (∀ (s : State) (d : Nat) (m : Install) (l : List Install), (s.die d).install = m :: l → ∃ t, exec (.methodInstall d) s = .next t
    ∧ (t.die d).install = l ∧ (t.die d).methods = tset m.slot m.body (s.die d).methods)
  ∧ (∀ (s : State) (r : CReq) (v : Nat), (s.comb.replies.find? fun q => q.id == r.id) = some r → r.reply = some (.clean v) → r.dev = 0 → lineAcked s r.obj = true →
    exec (.combineReply r.id) s = .next (completeCmd (writePiece { s with comb := { s.comb with replies := s.comb.replies.filter fun q => q.id != r.id } }
      r.lead (r.tids.filter s.live) r.pc ⟨r.lo, r.n, .clean (v % 2 ^ (4 * r.n))⟩) r.core r.cmd none))
  ∧ ∀ (s : State) (k : Nat) (T : Tid),
    (∀ h v, memberReady s T = true → (s.thr T).team = some h → teamSave (relStart s (coreOf T) 4) (teamKey T h.toNat) = some v →
      relDone (relStart s (coreOf T) 4) T 4 = true →
      exec (.memberSave T) s = .next (saveStep (recordMember (relStart s (coreOf T) 4) v T) (teamKey T h.toNat)))
    ∧ (∀ n, tget k s.snaps = some n → n.valid = false → n.threads ≠ [] → (teamEnt s k).members ≤ n.threads.length →
      ∃ t, exec (.snapshotValid k) s = .next t ∧ (t.snaps = tdel k s.snaps ∨ (tgetD k {} t.snaps).valid = true)
        ∧ ∀ p ∈ t.threads, p.2.hold.snap ≠ some k)
    ∧ (∀ n, tget k s.snaps = some n → n.valid = true →
      let ws := s.threads.filter fun p => p.2.hold.rbk == some k
      ws ≠ [] → (teamEnt s k).members ≤ ws.length →
      exec (.rollback k) s = .next (n.tiles.foldl (fun s i => putTileImg s i.1 i.2)
        (ws.foldl (fun s w => s.modThr w.1 fun x =>
          match n.threads.find? fun p => p.1 == w.1 with
          | some p => restoreSnap { x with hold := { x.hold with rbk := none } } p.2
          | none => { x with hold := { x.hold with rbk := none } }) s)))

/-- R221, R380, R385, R387, R388, R396 to R398 as the host's operations. The LAUNCH events act for the dispatcher's threads (DESIGN CHOICE,
assumption 14); reset, faults and the host's accesses rest on assumptions 13, 42, 43, 44 and 57 as well. -/
def Obligations.HostEvents : Prop :=
  (∀ (s : State) (d e : Nat) (p : PageReq), tget e (s.die d).pages = some p → ∀ no : Bool, ∃ t, exec (.pageRequestAnswer d e no) s = .next t
    ∧ (t.die d).pages = tdel e (s.die d).pages ∧ t.host.pstate = 0
    ∧ ∀ q ∈ t.threads, dieOf (coreOf q.1) = d → ∀ w : PageWait, (w ∈ q.2.hold.parked ∨ q.2.hold.fetch = some w) →
      ¬ (w.asid = p.asid ∧ w.page = p.page))
  ∧ (∀ (s : State) (a : Nat) (v : W64), s.memOk → a % 4 = 0 → hostReaches s a 4 = true → statusEntry s a = none →
    ∃ t, exec (.hostWrite a 2 v) s = .next t ∧ homeWord t (a / 4) = .ok (v.toNat % 2 ^ 32)
      ∧ t.host.pstate = 0 ∧ t.host.lastAccess = s.now ∧ t.host.hostLines = s.host.hostLines
      ∧ ∀ w, w ≠ a / 4 → homeWord t w = homeWord s w)
  ∧ (∀ (s : State) (a : Nat), a % 4 = 0 → hostReaches s a 4 = true → ∃ t, exec (.hostRead a 2) s = .next t
    ∧ t.host.read = some (homeWord s (a / 4)) ∧ t.host.pstate = 0 ∧ a / 64 ∈ t.host.hostLines ∧ t.mem = s.mem)
  ∧ (∀ (s : State) (l : Nat), ∃ t, exec (.backInvalidateAck l) s = .next t ∧ (∀ b ∈ t.host.backInval, b.1 ≠ l)
    ∧ ∀ b ∈ s.host.backInval, b.1 ≠ l → b ∈ t.host.backInval)
  ∧ (∀ (s : State) (d r : Nat), recReady s d = true → launchRec s d (s.die d).disp.next = some r →
    let k := (s.die d).disp.next
    (recBad r k = true → exec (.launchRecord d) s = .next (refuseRec s d k r 3))
    ∧ (recBad r k = false → (dieCores s d).length < recField r 0x20 1 ∨ copyFits s ((dieCores s d).headD 0) r = false →
      exec (.launchRecord d) s = .next (refuseRec s d k r 4))
    ∧ (recBad r k = false → recField r 0x20 1 ≤ (dieCores s d).length → copyFits s ((dieCores s d).headD 0) r = true →
      ∃ t, exec (.launchRecord d) s = .next t ∧ (t.die d).disp.hand = some k ∧ (t.die d).disp.started = false ∧ t.mem = s.mem))
  ∧ (∀ (s : State) (d k r : Nat), handRec s d = some (k, r) →
    (startReady s d = true → ∃ t, exec (.launchStart d) s = .next t ∧ (t.die d).disp.started = true ∧ (t.die d).disp.copy = 0)
    ∧ (copyReady s d = true →
      let c := match (s.die d).disp.job with | some (c, _) => c | none => (s.die d).disp.cores.getD (s.die d).disp.copy 0
      let a := match (s.die d).disp.job with | some (_, j) => (s, j) | none => setupCopy s d k r c (s.die d).disp.copy
      let b := goCopy c a
      exec (.launchCopy d) s = .next (if b.2.next < b.2.count
        then b.1.modDie d fun x => { x with disp := { x.disp with job := some (c, b.2) } } else copyDone b.1 d k r)))
  ∧ (∀ (s : State) (n : BitVec 4), s.host.ready = true → s.host.fault = false → 1 ≤ n.toNat → n.toNat ≤ 4 →
    ∃ t, exec (.deviceLevelFault n) s = .next t ∧ t.host.fault = true ∧ t.host.fcause = n.toNat
      ∧ t.host.vectors = s.host.vectors ++ [0] ∧ t.threads = [] ∧ t.ports = [] ∧ t.cores = [] ∧ t.dies = [] ∧ t.mem = s.mem)
  ∧ ∀ s : State,
    (∃ t, exec .devctlReset s = .next t ∧ t.mem = s.mem ∧ t.hostMem = s.hostMem ∧ t.host.journal = s.host.journal
      ∧ t.host.fenced = s.host.fenced ∧ t.host.fencedDies = s.host.fencedDies ∧ t.host.update = s.host.update ∧ t.host.images = s.host.images ∧ t.host.fwVersion = s.host.fwVersion
      ∧ t.host.ready = false ∧ t.host.fault = false ∧ t.threads = [] ∧ t.ports = [] ∧ t.cores = [] ∧ t.dies = [])
    ∧ (∃ t, exec .devctlJrnclr s = .next t ∧ t.host.jrnclr = true ∧ t.threads = s.threads ∧ t.cores = s.cores ∧ t.mem = s.mem)
    ∧ (∀ r : BringUp, s.host.ready = false → s.host.fault = false → s.host.stopped = false →
      let b := boot s r
      ∃ t, exec (.bringUp r) s = .next t ∧ t.host.stopped = b.h.stopped ∧ t.host.ready = !b.h.stopped
        ∧ (b.h.stopped = false → t.host.cores = 8 * (96 - t.host.fenced.length)) ∧ t.host.failSteps = b.failed.length
        ∧ t.host.fenced = b.h.fenced ∧ t.host.fencedDies = b.h.fencedDies ∧ t.host.journal = b.h.journal
        ∧ (∀ n ∈ [2, 6, 8], ⟨n, 0, 0⟩ ∈ r.fails → t.host.stopped = true)
        ∧ (t.host.stopped = false → (∀ c < 96, ⟨5, c, 0⟩ ∈ r.fails → c ∈ t.host.fenced)
          ∧ ∀ n ∈ [3, 4], ∀ d < 8, ⟨n, d, 0⟩ ∈ r.fails → ⟨n, d, 1⟩ ∈ r.fails → d ∈ t.host.fencedDies))
    ∧ (s.host.ckptEn = true → s.host.ckptBase.toNat % 256 ≠ 0 → ∃ t, exec .ckptctlNow s = .next t ∧ t.host.ckptDue = true
      ∧ t.threads = s.threads ∧ t.cores = s.cores ∧ t.mem = s.mem)
    ∧ ((s.host.ckptEn = false ∨ s.host.ckptBase.toNat % 256 = 0) → exec .ckptctlNow s = .next s)

/-- R27, R332, R379, R382, R391 to R396, R399 as Troham's operations. Alarms that come and go in turn are assumption 46's (DESIGN CHOICE),
checkpoints 45's, other commands of telemetry 47's, images, versions and measurements 48's, the hour of the error polls 49's, and what
an event that is not due leaves is 57's. -/
def Obligations.PowerEvents : Prop :=
  (∀ (s : State) (c : Nat), s.host.ready = true → s.enabled c = true → (s.core c).gatedAt = none →
    ((s.core c).halted = true ∨ ((s.core c).idleAt + 1024 ≤ s.now ∧ busyCore s c = false)) →
    ∃ t, exec (.coreClockGate c) s = .next t ∧ (t.core c).gatedAt = some s.now)
  ∧ (∀ s : State, allGated s = true →
    let cold := fun (t : State) (n : Nat) => t.host.pstate = n
      ∧ (∀ p ∈ t.cores, p.2.l1 = [] ∧ p.2.icache = [] ∧ p.2.tlb = []) ∧ ∀ p ∈ t.dies, p.2.cache = []
    (s.host.pstate = 0 → 20000 ≤ s.host.lattol → ∃ t, exec .sramRetentionEntry s = .next t ∧ cold t 1)
    ∧ (s.host.pstate < 2 → 200000 ≤ s.host.lattol → s.host.lastAccess + 1050000 ≤ s.now →
      ∃ t, exec .hbmSelfRefreshEntry s = .next t ∧ cold t 2))
  ∧ (∀ (s : State) (w : Wake), ∃ t, exec (.wakeEvent w) s = .next t ∧ t.host.pstate = 0 ∧ t.threads = s.threads
    ∧ (w = .hostAccess → t.host.lastAccess = s.now)
    ∧ ∀ c, w = .wakeWrite c ∨ w = .watchedLine c → (t.core c).gatedAt = none)
  ∧ (∀ s : State,
    let told := fun (t : State) => t.host.vectors = s.host.vectors ++ [5] ∧ t.host.pstate = 0
    (∃ t, exec .powerAlarm s = .next t ∧ told t ∧ t.host.alarm = !s.host.alarm)
    ∧ (∃ t, exec .temperatureEvent s = .next t ∧ told t ∧ t.host.temperature = true)
    ∧ (∀ rows corr : List Nat, ∃ t, exec (.ecsPoll rows corr) s = .next t
      ∧ (∀ i < 8, tget i t.host.ecs = some (min (rows.getD i 0) (2 ^ 32 - 1), min (corr.getD i 0) (2 ^ 32 - 1)))
      ∧ (rowsRose (s.host.ecsHour.filter fun h => decide (s.now ≤ h.1 + 3600000 * 1050000)) rows = true → told t)
      ∧ (rowsRose (s.host.ecsHour.filter fun h => decide (s.now ≤ h.1 + 3600000 * 1050000)) rows = false → t.host.vectors = s.host.vectors))
    ∧ (periodOver s = true → ∃ t, exec .checkpointDue s = .next t ∧ t.host.ckptDue = true ∧ t.mem = s.mem)
    ∧ (∀ d : BitVec 12, exec (.checkpointAnswer d) s
      = .next ((s.fab.barriers.map Prod.fst).foldl (fun u b => answerBarrier u b (if d = 0 then s.fab.dev.toNat else d.toNat)) s))
    ∧ (∀ (d : BitVec 12) (q : W64), s.host.ready = true → s.host.fault = false →
      (s.host.ckptReq = none → exec (.checkpointRequest d q) s = .next (serveCkpt { s with host := { s.host with ckptReq := some (d, q) } } d q))
      ∧ ∀ e r, s.host.ckptReq = some (e, r) → exec (.checkpointRequest d q) s = .next (serveCkpt s e r))
    ∧ (∃ t, exec (.i3cCommand .readJournal) s = .next t ∧ t.host.i3cReply = some (s.host.journal.map journalWord))
    ∧ (∀ w, ∃ t, exec (.i3cCommand (.setPowerLimit w)) s = .next t ∧ t.host.powerLimit = w)
    ∧ (∃ t, exec (.i3cCommand .other) s = .next t ∧ t.host.i3cReply = none)
    ∧ (∀ n, ∃ t, exec (.attestationRequest n) s = .next t
      ∧ t.host.report = some (measured s, Config.sign (Config.sha3 (natBytes n 32 ++ (measured s).flatMap fun d => natBytes d.toNat 32)))
      ∧ ∃ l, measured s = s.host.images ++ l)
    ∧ (∀ v i g, let d := Config.sha3 i
      (Config.verify d g = true → s.host.rollback ≤ v → ∃ t, exec (.firmwareUpdate v i g) s = .next t
        ∧ t.host.fwVersion = v ∧ t.host.images = s.host.images ++ [d] ∧ t.host.update = some i)
      ∧ (Config.verify d g = false ∨ v < s.host.rollback → exec (.firmwareUpdate v i g) s = .next s))
    ∧ ∀ (c : BitVec 2) (k : Nat), (c ≠ 3 → ∃ t, exec (.ideKeyExchange c k) s = .next t ∧ tget c.toNat t.host.keys = some k)
      ∧ (c = 3 → exec (.ideKeyExchange c k) s = .next s))

/-- R340 to R346, R349, R351, R354 to R358 as the fabric's events: `fits n` says that the next flit is of type n, for this device, and
passes every check. Payloads are assumption 29's (DESIGN CHOICE), allowances 30's, the order of requests to the same bytes 31's, a corrupt header
and timeouts 32's, and a flit of another type that changes nothing 57's. -/
def Obligations.FabricEvents : Prop :=
  (∀ (s : State) (p : Nat) (f : Flit) (data : List Flit), inboxNext s.fab.inbox = some (p, f, data) → s.host.fault = false →
    let kinds : List Instr := [.writeFlit, .readRequestFlit, .readReplyFlit, .atomicRequestFlit, .atomicReplyFlit, .signalFlit,
      .acknowledgeFlit, .refusalFlit, .allowanceGrantFlit, .drainMarkerFlit, .drainAcknowledgeFlit, .barrierArrivalFlit, .barrierReleaseFlit]
    let taken : State := { s with host := { s.host with pstate := 0 }, fab := { s.fab with inbox := s.fab.inbox.erase (p, f, data) } }
    let u := useGrant taken p f (1 + data.length)
    let whole := f.state ≠ 3 ∧ f.check = flitCrc f ∧ ∀ d ∈ data, reservedFlit d = false
    let fits := fun (n : Nat) => f.type.toNat = n ∧ whole ∧ f.dst = s.fab.dev ∧ headBad f data = false
    let src := f.src.toNat
    let tag := f.tag.toNat
    let pa := plField f 0 64
    let b := plField f 8 64
    let op := plField f 20 32
    (∀ n i, kinds[n]? = some i →
      (f.type.toNat ≠ n → exec i s = .next s)
      ∧ (f.type.toNat = n → f.state = 3 → exec i s = .next (dropFlit taken))
      ∧ (f.type.toNat = n → f.state ≠ 3 → f.check ≠ flitCrc f → exec i s = .next (deviceFault taken 3))
      ∧ (f.type.toNat = n → f.state ≠ 3 → f.check = flitCrc f → (data.filter reservedFlit) ≠ [] →
        exec i s = .next ((data.filter reservedFlit).foldl (fun s _ => dropFlit s) taken))
      ∧ (f.type.toNat = n → whole → f.dst ≠ s.fab.dev → exec i s = .next (relayFlit (countBad u p data) f data))
      ∧ (f.type.toNat = n → whole → f.dst = s.fab.dev → headBad f data = true → exec i s = .next (deviceFault u 3)))
    ∧ (13 ≤ f.type.toNat → exec .reservedTypeFlit s = .next (dropFlit taken))
    ∧ (fits 0 →
      let z := data.zipIdx.foldl (fun s d => writeLine s (pa / 64 + d.2) (if d.2 = 0 then b else 2 ^ 64 - 1)
        (flitWords d.1 (if d.2 = 0 then plField f 16 16 else 0xFFFF))) (countBad u p data)
      exec .writeFlit s = .next (answerWrite z (pa / 64) (mkFlit z 6 src tag (if data.any dataBad then 1 else 2) true 0)))
    ∧ (fits 1 →
      let ws := (List.range 16).map fun i => homeWord u (pa / 64 * 16 + i)
      let pois := ((ws.zipIdx.filter fun q => match q.1 with | .bad _ => true | .ok _ => false).map fun q => 2 ^ q.2).sum
      exec .readRequestFlit s = .next (answer (answer u f 2 2 false (reqPayload pa b pois 1 0 0 0)) f 2 (if pois = 0 then 0 else 1) true
        (BitVec.ofNat 512 ((ws.zipIdx.map fun q => q.1.num * 2 ^ (32 * q.2)).sum))))
    ∧ (fits 2 → (tagRec u tag = none → exec .readReplyFlit s = .next (countBad u p data))
      ∧ ∀ d r id, data = [d] → tagRec (countBad u p data) tag = some r → r.use = .req id →
        let z := if dataBad d then countBad u p data else keepLine (countBad u p data) r (flitWords d (plField f 16 16))
        exec .readReplyFlit s
          = .next (tagClear (remoteGot z r.core id (loadGot r (flitWords d (plField f 16 16)) (dataBad d))) r.tag))
    ∧ (fits 3 →
      (plField f 16 16 = 0 →
        let r := atomFor u pa (op % 256) (op / 256 % 2 == 1) b (plField f 24 64)
        (∀ v, r.2 = .ok v →
          exec .atomicRequestFlit s = .next (answerWrite r.1 (pa / 64) (mkFlit r.1 4 src tag 0 true (BitVec.ofNat 512 v))))
        ∧ ∀ k, r.2 = .bad k → exec .atomicRequestFlit s = .next (answer r.1 f 4 1 true (BitVec.ofNat 512 k.toNat)))
      ∧ (plField f 16 16 ≠ 0 → exec .atomicRequestFlit s = .next { u with comb := { u.comb with
          nextId := u.comb.nextId + 1
          flight := u.comb.flight ++ [{ id := u.comb.nextId, pa := pa, user := plField f 16 16 == 2, method := op % 256
                                        sz := op / 256 % 2 == 1, b := b, new := plField f 24 64, ident := plField f 32 64
                                        dev := src, tag := tag, sent := u.now }] } }))
    ∧ (fits 4 → (tagRec u tag = none → exec .atomicReplyFlit s = .next u)
      ∧ ∀ r id, tagRec u tag = some r →
        (r.use = .req id → exec .atomicReplyFlit s = .next (tagClear (remoteGot u r.core id fun n =>
          if f.state = 1 then .carried (BitVec.ofNat 32 (plField f 0 32)) r.ea else .clean (pa % 2 ^ (4 * n))) r.tag))
        ∧ (r.use = .comb id → f.state ≠ 1 → exec .atomicReplyFlit s = .next (tagClear (combGot u id (.clean pa)) r.tag)))
    ∧ (fits 5 →
      let z := signalHome u none pa (op / 512 % 2 == 1) (op / 256 % 2 == 1) b
      exec .signalFlit s = .next (answerWrite z (pa / 64) (mkFlit z 6 src tag 2 true 0)))
    ∧ (fits 6 → (tagRec u tag = none → exec .acknowledgeFlit s = .next u)
      ∧ ∀ r, tagRec u tag = some r → (r.use = .store ∨ ∃ id, r.use = .cmd id) →
        exec .acknowledgeFlit s = .next (if f.state = 1 then tagFail u r cFAB else tagClear u r.tag))
    ∧ (fits 7 → (tagRec u tag = none → exec .refusalFlit s = .next u)
      ∧ ∀ r, tagRec u tag = some r → exec .refusalFlit s = .next (tagFail u r cPEER))
    ∧ (fits 8 → exec .allowanceGrantFlit s = .next { u with fab := { u.fab with
        allow := tset (64 * src + curSlot u) (tgetD (64 * src + curSlot u) 0 u.fab.allow + plField f 0 32) u.fab.allow
        relay := tset (64 * src + curSlot u) (tgetD (64 * src + curSlot u) 0 u.fab.relay + plField f 4 32) u.fab.relay } })
    ∧ (fits 9 → exec .drainMarkerFlit s = .next (ackMarkers { u with fab := { u.fab with markers := u.fab.markers ++ [(p, f)] } }))
    ∧ (fits 10 → exec .drainAcknowledgeFlit s = .next (endDrains { u with fab := { u.fab with
        drains := u.fab.drains.map fun (d : DrainRec) => { d with tags := d.tags.filter fun t => t.1 != tag } } }))
    ∧ (fits 11 → exec .barrierArrivalFlit s = .next (barrierIn u
        { b := b % 2 ^ 12, n := plField f 24 12, step := b / 2 ^ 16 % 2 == 1, who := (src, tag, 0) }))
    ∧ (fits 12 → (tagRec u tag = none → exec .barrierReleaseFlit s = .next u)
      ∧ ∀ r id k n step a, tagRec u tag = some r → r.use = .cmd id → fabGet u r.core id = some k → k.kind = .fbar n step a →
        let z := if f.state = 1 then fabFail u r.core k cINV else fabFree u r.core k
        exec .barrierReleaseFlit s = .next (tagClear (countStep z (f.payload.getLsbD 0 && f.state != 1)) r.tag)))
  ∧ ∀ s : State,
    (∀ (g : BitVec 16) (r : TagRec), tagRec s g.toNat = some r →
      (r.due ≤ s.now → exec (.fabricTimeout g) s = .next (tagFail s r cPEER)) ∧ (s.now < r.due → exec (.fabricTimeout g) s = .next s))
    ∧ (∃ t, exec .frameMarker s = .next t ∧ t.fab.epoch = some s.now ∧ t.threads = s.threads ∧ t.mem = s.mem)
    ∧ (s.host.fault = false →
      let ds := (rowAt s (curSlot s)).filterMap id
      let v := lockCheck s
      exec .slotBoundary s = .next (fabPush (ds.foldl grantTo { v with fab := { v.fab with
        allow := keepAllow (curSlot v) ds v.fab.allow, relay := keepAllow (curSlot v) ds v.fab.relay } })))
    ∧ (∀ n, roseDue s = some n → n ≤ s.now → s.host.fault = false → exec .roseTakeEffect s = .next (takeRose s))
    ∧ ∀ p < 8, (s.now < s.fab.roseAt + slotCycles → ∃ t, exec (.portRelock p) s = .next t ∧ t.fab.relock.getLsbD p = false
        ∧ (s.fab.relock.getLsbD p = true → t.fab.down.getLsbD p = false)
        ∧ ∀ q, q ≠ p → t.fab.relock.getLsbD q = s.fab.relock.getLsbD q ∧ t.fab.down.getLsbD q = s.fab.down.getLsbD q)
      ∧ (s.fab.roseAt + slotCycles ≤ s.now → exec (.portRelock p) s = .next s)

/-- R274. -/
def Obligations.MethodMaskRegister : Prop :=
  (∀ (s : State) (T : Tid), (∀ i < 64, (sysRead s T 0x0C1).testBit i = (tget i (s.die (dieOf (coreOf T))).methods).isSome)
    ∧ ∀ i, 64 ≤ i → (sysRead s T 0x0C1).testBit i = false)
  ∧ (∀ T, sysRead State.reset T 0x0C1 = 0)
  ∧ ∀ (s : State) (T : Tid) (f : IForm), inClass s 5 → Solo s T f.x → f.imm = 0x0C1 →
    (idle s T f.d.start.toNat f.d.slices →
      exec (.sysr f) s = .next (ended (wrote (opened s T) T f.d.start.toNat f.d.slices (.ok (sysRead s T 0x0C1 % 2 ^ f.d.bits))) T none 1))
    ∧ (unheld s T [iA f] → let a := (iA f).read (opened s T) [T] T
      exec (.sysw f) s = .next (ended (match a.2 with
        | .bad k => recordDrop (noReplay a.1 [T]) T k
        | .ok _ => noReplay a.1 [T]) T none (1 + crossCost [iA f])))

/-- R30, R35. -/
def Obligations.ClauseHeaderRules : Prop :=
  (∀ (s u : State) (k : Nat) (pack : List Tid) (a h : W64) (w : Nat) (back : Bool),
    (∀ t ∈ pack, (s.thr t).hold.noPage = false) → fetchWord s (coreOf (pack.headD 0)) (anyUser s pack) a = (u, .word h) →
    back = false → (6 ≤ bitsOf h.toNat 63 61 ∨ 5 ≤ bitsOf h.toNat 35 33 ∨ bitsOf h.toNat 32 0 ≠ 0) →
    ∃ r : TrapRec, fillPort s k pack a w back = u.setPort k { hdrAddr := a, hdr := h, pack := pack, trap := some r, filled := u.now }
      ∧ r.cause = tILL ∧ r.detail = dUNDEF ∧ r.pc = a ∧ r.inst = h)
  ∧ (∀ (s : State) (k : Nat) (cs : List Choice) (r : TrapRec), s.agenda = .issue k :: cs → dead s = false → mayIssue { s with agenda := cs } k = true →
    (s.port k).trap = some r → step s = .next (tidy (takeTrap { s with agenda := cs, iss := some k, turns := tset (k / 2) (k % 2) s.turns } r)))
  ∧ ∀ (s : State) (k cost : Nat), s.iss = some k → atLast s.cur = true →
    let with_ := s.modCur fun p => { p with hdr := p.hdr ||| 0x1000000000 }
    let without := s.modCur fun p => { p with hdr := p.hdr &&& ~~~0x1000000000 }
    (endWord with_ cost).threads = (endClauses (endWord without cost) true s.cur.pack).threads
    ∧ ∀ (T : Tid) (f : RForm), Solo s T f.x → ∃ a b, exec (.nop f) with_ = .next a ∧ exec (.yield f) without = .next b ∧ a.threads = b.threads

/-- R28, R58, R95; the agenda and `withFetchWord` are the model's own (assumptions 1, 19). -/
def Obligations.StepRunsTheDecodedWord : Prop :=
  (∀ (s : State) (k : Nat) (cs : List Choice), s.agenda = .issue k :: cs → dead s = false →
    let u : State := { s with agenda := cs, iss := some k, turns := tset (k / 2) (k % 2) s.turns }
    (mayIssue { s with agenda := cs } k = true → (s.port k).trap = none →
      (∀ i, decode (s.port k).word = some i → i.WellFormed ∧ step s = settled (exec i u))
      ∧ (decode (s.port k).word = none → step s = .next (tidy (takeTrap u (trapAt u (pfxOf (s.port k).word) tILL dUNDEF)))))
    ∧ (mayIssue { s with agenda := cs } k = false → step s = .next (tidy { s with agenda := cs })))
  ∧ (∀ (s : State) (i : Instr) (cs : List Choice), s.agenda = .ev i :: cs → dead s = false → encode i = none →
    step s = settled (exec i { s with agenda := cs }))
  ∧ ∀ (s : State) (w : W64) (i : Instr), decode w = some i → ∃ u : State,
    step (s.withFetchWord 64 w.toNat) = settled (exec i u) ∧ u.iss = some 0 ∧ u.cur.pack = [0] ∧ u.cur.word = w ∧ u.cur.acts = none
      ∧ u.live 0 = true ∧ (u.thr 0).priv = true ∧ u.agenda = s.agenda ∧ u.mem = s.mem ∧ ∀ t, t ≠ 0 → u.thr t = s.thr t

/-- Words of R40 to R46 and of the entries' own worked encodings. -/
def Obligations.WrittenWordsDecode : Prop :=
  let o := fun (n : BitVec 9) (wc : BitVec 3) => (⟨n, wc⟩ : Opd)
  let p : Pfx := ⟨false, 7, false⟩
  decode 0x00520A2822908500 = some (.iadd false 5 false
      { x := ⟨false, 2, false⟩, d := o 40 5, a := o 8 5, ax := .dn1, b := o 16 5, bx := .self, r4 := false, e := 0 })
  ∧ decode 0x40028000FFFFFFFC = some (.bra { x := ⟨false, 2, true⟩, fld := 0, disp := 0xFFFFFFFC })
  ∧ decode 0x6127042823800000 = some (.st 2 0 { x := p, d := o 16 5, a := o 8 7, ax := .self, ofs := 0, e := 0 })
  ∧ decode 0x6917000000000004 = some (.fenceRel 4
      { x := p, d := o 0 0, a := o 0 0, ax := .self, b := o 0 0, bx := .self, r4 := false, e := 0 })
  ∧ decode 0x830703184280C710 = some (.sload
      { x := p, d := o 12 3, a := o 16 5, ax := .self, b := o 24 7, bx := .self, r4 := true, e := 0 })
  ∧ decode 0xA00F101000213020 = some (.mloop
      { x := ⟨true, 7, false⟩, h := 64, sc := 128, kcnt := 1, bsel := 0, ainc := false, fe := true, fd := 96, fmt := 16 })
  ∧ decode 0xC0070428A380C500 = some (.cmb 0 false
      { x := p, d := o 16 5, a := o 40 7, ax := .self, b := o 24 5, bx := .self, r4 := false, e := 0 })
  ∧ decode 0xC80F00000000FF00 = some (.drain
      { x := ⟨true, 7, false⟩, d := o 0 0, a := o 0 0, ax := .self, imm := 0xFF, fut := false })
  ∧ decode 0xE207043800000084 = some (.sysr { x := p, d := o 16 7, a := o 0 0, ax := .self, imm := 0x84 })
  ∧ decode 0x4707000000000000 = some (.nop { x := p, d := o 0 0, a := o 0 0, ax := .self, b := o 0 0, bx := .self, r4 := false, e := 0 })
  ∧ decode 0x4707000000000001 = none ∧ decode 0x4717000000000000 = none ∧ decode 0x5D07000000000000 = none

/-- R36 to R57: no field of an encoding is dropped. -/
def Obligations.DecodeOfEncode : Prop :=
  ∀ (i : Instr) (w : W64), i.WellFormed → encode i = some w →
    decode w = some i ∧ (∀ rest : List Byte, decodeBytes (bytesOfWord w ++ rest) = some (i, rest))
      ∧ decodeTableWord 64 w.toNat = some i

/-- R200's movements for one word, and the memories beneath them. -/
def Obligations.MemoryWordRules : Prop :=
  (∀ (m : Memory) (w : Nat) (v : Val), m.wf = true →
    (m.setWord w v).word w = (match v with | .ok x => .ok (x % 2 ^ 32) | .bad k => .bad k)
    ∧ (∀ u, u ≠ w → (m.setWord w v).word u = m.word u))
  ∧ (∀ (m : Memory) (w n : Nat), m.wf = true → m.words w n = (List.range n).map fun i => m.word (w + i))
  ∧ (∀ (m : Memory) (w : Nat) (l : List Val), m.wf = true →
    (∀ i v, l[i]? = some v → (m.setWords w l).word (w + i) = match v with | .ok x => .ok (x % 2 ^ 32) | .bad k => .bad k)
    ∧ ∀ u, u < w ∨ w + l.length ≤ u → (m.setWords w l).word u = m.word u)
  ∧ (∀ (m : Memory) (a v n b : Nat), m.wf = true →
    (m.setNum a v n).byte b = if a ≤ b ∧ b < a + n then BitVec.ofNat 8 (v / 256 ^ (b - a)) else m.byte b)
  ∧ (∀ (m : Memory) (a v n : Nat), m.wf = true → (m.setNum a v n).num a n = v % 256 ^ n)
  ∧ (∀ (m : Memory) (w n : Nat), m.wf = true → ∀ u, (m.clear (4 * w) (4 * n)).word u = if w ≤ u ∧ u < w + n then .ok 0 else m.word u)
  ∧ ∀ (o x sh : Nat) (k j : Tok), o < 2 ^ 32 →
    mergeWord (.ok o) 0 32 (.ok x) = .ok (x % 2 ^ 32) ∧ mergeWord (.bad k) 0 32 (.ok x) = .ok (x % 2 ^ 32)
    ∧ (∀ nb ∈ [8, 16], mergeWord (.bad k) sh nb (.ok x) = .bad k
      ∧ (sh + nb ≤ 32 → ∃ z, mergeWord (.ok o) sh nb (.ok x) = .ok z ∧ z < 2 ^ 32
        ∧ ∀ i, z.testBit i = if sh ≤ i ∧ i < sh + nb then x.testBit (i - sh) else o.testBit i))
    ∧ ∀ (old : Val) (nb : Nat), mergeWord old sh nb (.bad j) = .bad j

/-- R110, R119 to R121, R196, R197, R199. -/
def Obligations.OperandReads : Prop :=
  (∀ (s : State) (acts : List Tid) (t : Tid) (e : Nat),
    let x := s.thr t
    let at_ := fun (j : Nat) => if s.live (mate x t j) then some (mate x t j) else none
    let i := tix x t
    let G := x.group
    srcThread s acts t .self e = some t ∧ srcThread s acts t .dn1 e = at_ ((i + G - 1) % G)
    ∧ srcThread s acts t .up1 e = at_ ((i + 1) % G) ∧ srcThread s acts t .bc0 e = at_ 0 ∧ srcThread s acts t .x1 e = at_ (i ^^^ 1)
    ∧ (2 ^ e < G → srcThread s acts t .xk e = at_ (i ^^^ 2 ^ e)) ∧ (G ≤ 2 ^ e → srcThread s acts t .xk e = none)
    ∧ srcThread s acts t .mir e = at_ (G - 1 - i)
    ∧ (acts.head? = some t → srcThread s acts t .chn e = some t))
  ∧ (∀ (s : State) (acts : List Tid) (t : Tid) (lo n : Nat) (ax : Exch) (e : Nat) (b : Bool), 0 < n → carryOf s acts t ax b = none →
    (srcThread s acts t ax e = none → readX s acts t lo n ax e b = ((raise s t 10).1, .bad (raise s t 10).2))
    ∧ ∀ u, srcThread s acts t ax e = some u →
      let y := s.thr u
      let r := raise s t 3 (BitVec.ofNat 64 lo)
      (128 + 32 * y.xgran < lo + n → readX s acts t lo n ax e b = (r.1, .bad r.2))
      ∧ (lo + n ≤ 128 + 32 * y.xgran → ∀ g k, lo / 8 ≤ g → g ≤ (lo + n - 1) / 8 → tget g y.tags = some k →
        (∀ h, lo / 8 ≤ h → h < g → tget h y.tags = none) → readX s acts t lo n ax e b = (s, .bad k))
      ∧ (lo + n ≤ 128 + 32 * y.xgran → (∀ g, lo / 8 ≤ g → g ≤ (lo + n - 1) / 8 → tget g y.tags = none) →
        ∃ v, readX s acts t lo n ax e b = (s, .ok v) ∧ v < 2 ^ (4 * n) ∧ ∀ i < 4 * n, v.testBit i = y.slices.getLsbD (4 * lo + i)))
  ∧ (∀ o < 4096, ∀ c < 16, (token o c).toNat % 2 ^ 16 = 0xC5A9 ∧ tokCause (token o c) = c ∧ tokOrigin (token o c) = o)
  ∧ ∀ (s : State) (t : Tid) (cause : Nat) (a : W64),
    let x := s.core (coreOf t)
    let r := raise s t cause a
    r.1.threads = s.threads ∧ r.1.mem = s.mem ∧ (∀ d, d ≠ coreOf t → r.1.core d = s.core d)
    ∧ ((∀ i < 4095, (tget i x.org).isSome = true) → x.orgCur ≤ 4095 → r = (s, token 0xFFF cause))
    ∧ (tget x.orgCur x.org = none → x.orgCur < 4095 → r.2 = token x.orgCur cause
      ∧ (∀ i, i ≠ x.orgCur → tget i (r.1.core (coreOf t)).org = tget i x.org)
      ∧ ∃ o, tget x.orgCur (r.1.core (coreOf t)).org = some o ∧ o.pc = (s.thr t).pc ∧ o.addr = a ∧ o.cyc = s.cyc (coreOf t))

/-- The frames of aluDone, lateDone and predDone, and R199's table. -/
def Obligations.RegisterWordFrames : Prop :=
  (∀ (s : State) (T : Tid) (x : Pfx) (d : Opd) (rs : List Src) (cost lat : Nat) (f : List Nat → Res) (g : List Nat → Bool), Solo s T x →
    let outside := fun (t : State) => t.mem = s.mem ∧ t.hostMem = s.hostMem ∧ t.dies = s.dies ∧ t.clusters = s.clusters ∧ t.now = s.now
      ∧ t.msgs = s.msgs ∧ t.comb = s.comb ∧ t.fab = s.fab ∧ t.host = s.host ∧ t.recs = s.recs ∧ t.homes = s.homes ∧ t.saves = s.saves ∧ t.snaps = s.snaps
      ∧ (∀ u, u ≠ T → t.thr u = s.thr u) ∧ (∀ c, c ≠ coreOf T → t.core c = s.core c)
    let inside := fun (t : State) => (t.thr T).xgran = (s.thr T).xgran ∧ (t.thr T).priv = (s.thr T).priv ∧ (t.thr T).hold = (s.thr T).hold
      ∧ (t.thr T).outst = (s.thr T).outst ∧ (t.thr T).leg = (s.thr T).leg ∧ (t.thr T).team = (s.thr T).team
      ∧ ∀ h, (8 * h + 8 ≤ d.start.toNat ∨ d.start.toNat + d.slices ≤ 8 * h) →
        tget h (t.thr T).tags = tget h (s.thr T).tags ∧ (t.thr T).bits (8 * h) 8 = (s.thr T).bits (8 * h) 8
    let a := aluDone s T d rs cost f
    let l := lateDone s T d rs lat f
    let p := predDone s T d.start.toNat rs g
    (outside a ∧ inside a ∧ (a.thr T).preds = (s.thr T).preds
      ∧ a.core (coreOf T) = { s.core (coreOf T) with org := (a.core (coreOf T)).org, orgCur := (a.core (coreOf T)).orgCur })
    ∧ (outside l ∧ inside l ∧ (l.thr T).preds = (s.thr T).preds ∧ (l.thr T).slices = (s.thr T).slices ∧ (l.thr T).tags = (s.thr T).tags)
    ∧ (outside p ∧ inside p ∧ (p.thr T).slices = (s.thr T).slices ∧ (p.thr T).tags = (s.thr T).tags
      ∧ ∀ q < 8, q ≠ d.start.toNat → (p.thr T).pred q = (s.thr T).pred q))
  ∧ ∀ (y : Thread) (lo n : Nat), 0 < n → lo + n ≤ 512 →
    (∀ v, (∀ h, lo / 8 ≤ h → h ≤ (lo + n - 1) / 8 → tget h y.tags = none) →
      (y.put lo n (.ok v)).tags = y.tags ∧ (y.put lo n (.ok v)).bits lo n = v % 2 ^ (4 * n)
      ∧ ∀ i, i < lo ∨ lo + n ≤ i → (y.put lo n (.ok v)).bits i 1 = y.bits i 1)
    ∧ (∀ k h, lo / 8 ≤ h → h ≤ (lo + n - 1) / 8 →
      tget h (y.put lo n (.bad k)).tags = some k ∧ (y.put lo n (.bad k)).bits (8 * h) 8 = k.toNat)
    ∧ ∀ v h k, lo / 8 ≤ h → h ≤ (lo + n - 1) / 8 → tget h y.tags = some k → (8 * h < lo ∨ lo + n < 8 * h + 8) →
      tget h (y.put lo n (.ok v)).tags = some k ∧ (y.put lo n (.ok v)).bits (8 * h) 8 = y.bits (8 * h) 8

/-- The reset columns of the registers' rules; R397's bring-up as the default choice. -/
def Obligations.ResetState : Prop :=
  State.reset.memOk ∧ State.reset.threads = [] ∧ State.reset.ports = [] ∧ State.reset.host.ready = false ∧ State.reset.host.fault = false
  ∧ State.reset.host.vectors = [] ∧ State.reset.iss = none
  ∧ (∀ T, sysRead State.reset T 0x040 = 0x04000100 ∧ sysRead State.reset T 0x0C0 = 64
    ∧ ∀ r ∈ [0x060, 0x080, 0x090, 0x091, 0x092, 0x093, 0x0A0, 0x0C1, 0x0E0, 0x102], sysRead State.reset T r = 0)
  ∧ (∀ a, State.reset.mem.byte a = 0)
  ∧ (let start : Instr := .bringUp ⟨[], 1⟩
    step State.reset = settled (exec start State.reset)
    ∧ ∃ t, exec start State.reset = .next t ∧ t.host.ready = true ∧ t.host.cores = 768 ∧ t.ports = [])

/-- No instruction stops the machine; a port whose clause is over is free (R93). -/
def Obligations.EveryStepGoesOn : Prop :=
  (∀ s : State, dead s = true → step s = .fault .deviceStopped)
  ∧ (∀ s : State, dead s = false → ∃ t, step s = .next t ∧ ∀ p ∈ t.ports,
    p.2.pack ≠ [] ∧ (p.2.trap = none → p.2.busy = 0 → p.2.widx < p.2.words.length))
  ∧ ∀ (i : Instr) (s : State), ∃ t, exec i s = .next t
end

