-- ==== Sys2Proof/Laws/Encoding.lean ====
section
/-! SUPPORT. The fields of an encoded word, form by form: what the decoder's field readers give back (R36 to R46). -/

namespace Sys2Proof.Laws

theorem exch_toBits (e : Exch) : Exch.ofBits e.toBits = e := by cases e <;> rfl

theorem fld_low (w : W64) : fld w 0 3 = (fld w 0 4).extractLsb' 0 3 := by
  apply BitVec.eq_of_getLsbD_eq; intro i hi
  interval_cases i <;> simp
theorem low_or : ∀ (m : BitVec 4) (e : BitVec 3), (m ||| 0#1 ++ e).extractLsb' 0 3 = m.extractLsb' 0 3 ||| e := by decide
theorem top_or : ∀ (m : BitVec 4) (e : BitVec 3), (m ||| 0#1 ++ e).getLsbD 3 = m.getLsbD 3 := by decide

/-! ### R-form and stream form (R40, R44) -/

theorem encR_group (o : BitVec 8) (s : BitVec 4) (f : RForm) (m : BitVec 4) : fld (encR o s f m) 61 3 = o.extractLsb' 5 3 := by
  unfold fld; simp only [encR]
  apply BitVec.eq_of_getLsbD_eq; intro i hi
  simp only [BitVec.getLsbD_extractLsb', BitVec.getLsbD_append]; interval_cases i <;> simp

theorem encR_opc (o : BitVec 8) (s : BitVec 4) (f : RForm) (m : BitVec 4) : fld (encR o s f m) 56 5 = o.extractLsb' 0 5 := by
  unfold fld; simp only [encR]
  apply BitVec.eq_of_getLsbD_eq; intro i hi
  simp only [BitVec.getLsbD_extractLsb', BitVec.getLsbD_append]; interval_cases i <;> simp

theorem encR_top (o : BitVec 8) (s : BitVec 4) (f : RForm) (m : BitVec 4) : fld (encR o s f m) 60 4 = o.extractLsb' 4 4 := by
  unfold fld; simp only [encR]
  apply BitVec.eq_of_getLsbD_eq; intro i hi
  simp only [BitVec.getLsbD_extractLsb', BitVec.getLsbD_append]; interval_cases i <;> simp

theorem encR_sub (o : BitVec 8) (s : BitVec 4) (f : RForm) (m : BitVec 4) : fld (encR o s f m) 52 4 = s := by
  unfold fld; simp only [encR]
  apply BitVec.eq_of_getLsbD_eq; intro i hi
  simp only [BitVec.getLsbD_extractLsb', BitVec.getLsbD_append]; interval_cases i <;> simp

theorem encR_pfx (o : BitVec 8) (s : BitVec 4) (f : RForm) (m : BitVec 4) : pfxOf (encR o s f m) = f.x := by
  have h : f.x = ⟨f.x.u, f.x.p, f.x.pn⟩ := rfl
  rw [h]; simp only [pfxOf, fld, encR, Pfx.bits, Pfx.mk.injEq]
  refine ⟨?_, ?_, ?_⟩
  · simp only [BitVec.getLsbD_append, b1]; cases f.x.u <;> simp
  · apply BitVec.eq_of_getLsbD_eq; intro i hi
    simp only [BitVec.getLsbD_extractLsb', BitVec.getLsbD_append]; interval_cases i <;> simp
  · simp only [BitVec.getLsbD_append, b1]; cases f.x.pn <;> simp

theorem encR_d (o : BitVec 8) (s : BitVec 4) (f : RForm) (m : BitVec 4) : opdOf (encR o s f m) 35 = f.d := by
  have h : f.d = ⟨f.d.start, f.d.wc⟩ := rfl
  rw [h]; simp only [opdOf, fld, encR, Opd.enc, Opd.mk.injEq]
  refine ⟨?_, ?_⟩ <;>
    (apply BitVec.eq_of_getLsbD_eq; intro i hi; simp only [BitVec.getLsbD_extractLsb', BitVec.getLsbD_append]; interval_cases i <;> simp)

theorem encR_a (o : BitVec 8) (s : BitVec 4) (f : RForm) (m : BitVec 4) : opdOf (encR o s f m) 23 = f.a := by
  have h : f.a = ⟨f.a.start, f.a.wc⟩ := rfl
  rw [h]; simp only [opdOf, fld, encR, Opd.enc, Opd.mk.injEq]
  refine ⟨?_, ?_⟩ <;>
    (apply BitVec.eq_of_getLsbD_eq; intro i hi; simp only [BitVec.getLsbD_extractLsb', BitVec.getLsbD_append]; interval_cases i <;> simp)

theorem encR_b (o : BitVec 8) (s : BitVec 4) (f : RForm) (m : BitVec 4) : opdOf (encR o s f m) 8 = f.b := by
  have h : f.b = ⟨f.b.start, f.b.wc⟩ := rfl
  rw [h]; simp only [opdOf, fld, encR, Opd.enc, Opd.mk.injEq]
  refine ⟨?_, ?_⟩ <;>
    (apply BitVec.eq_of_getLsbD_eq; intro i hi; simp only [BitVec.getLsbD_extractLsb', BitVec.getLsbD_append]; interval_cases i <;> simp)

theorem encR_ax (o : BitVec 8) (s : BitVec 4) (f : RForm) (m : BitVec 4) : fld (encR o s f m) 20 3 = f.ax.toBits := by
  unfold fld; simp only [encR]
  apply BitVec.eq_of_getLsbD_eq; intro i hi
  simp only [BitVec.getLsbD_extractLsb', BitVec.getLsbD_append]; interval_cases i <;> simp

theorem encR_bx (o : BitVec 8) (s : BitVec 4) (f : RForm) (m : BitVec 4) : fld (encR o s f m) 5 3 = f.bx.toBits := by
  unfold fld; simp only [encR]
  apply BitVec.eq_of_getLsbD_eq; intro i hi
  simp only [BitVec.getLsbD_extractLsb', BitVec.getLsbD_append]; interval_cases i <;> simp

theorem encR_r4 (o : BitVec 8) (s : BitVec 4) (f : RForm) (m : BitVec 4) : (encR o s f m).getLsbD 4 = f.r4 := by
  simp only [encR, BitVec.getLsbD_append, b1]; cases f.r4 <;> simp

theorem encR_mod (o : BitVec 8) (s : BitVec 4) (f : RForm) (m : BitVec 4) : fld (encR o s f m) 0 4 = m ||| (0#1 ++ f.e) := by
  unfold fld; simp only [encR]
  apply BitVec.eq_of_getLsbD_eq; intro i hi
  simp only [BitVec.getLsbD_extractLsb', BitVec.getLsbD_append]; interval_cases i <;> simp

theorem encR_low (o : BitVec 8) (s : BitVec 4) (f : RForm) (m : BitVec 4) : fld (encR o s f m) 0 3 = m.extractLsb' 0 3 ||| f.e := by
  rw [fld_low, encR_mod]; exact low_or m f.e

theorem encR_bit3 (o : BitVec 8) (s : BitVec 4) (f : RForm) (m : BitVec 4) : (encR o s f m).getLsbD 3 = m.getLsbD 3 := by
  have h : (encR o s f m).getLsbD 3 = (fld (encR o s f m) 0 4).getLsbD 3 := by simp
  rw [h, encR_mod]; exact top_or m f.e

/-- An R-form word gives its form and its modifiers back. -/
theorem encR_form (o : BitVec 8) (s : BitVec 4) (f : RForm) (m : BitVec 4) (h : if f.xk then m.extractLsb' 0 3 = 0 else f.e = 0) :
    rFormOf (encR o s f m) = f ∧ rModOf (encR o s f m) = m := by
  unfold rFormOf rModOf
  simp only [encR_pfx, encR_d, encR_a, encR_ax, encR_b, encR_bx, encR_r4, encR_low, encR_mod, exch_toBits]
  unfold RForm.xk at h
  by_cases hx : (f.ax == .xk || f.bx == .xk) = true
  · rw [if_pos hx] at h
    simp only [hx, if_true, h]
    have key : ∀ (m : BitVec 4) (e : BitVec 3), m.extractLsb' 0 3 = 0 → (m ||| 0#1 ++ e) &&& 8#4 = m := by decide
    exact ⟨by cases f; simp, key _ _ h⟩
  · rw [if_neg hx] at h
    simp only [Bool.not_eq_true] at hx
    simp only [hx, h]
    obtain ⟨_, _, _, _, _, _, _, e⟩ := f
    simp at h; subst h; simp

/-! ### I-form (R41) -/

theorem encI_group (o : BitVec 8) (s : BitVec 4) (f : IForm) : fld (encI o s f) 61 3 = o.extractLsb' 5 3 := by
  unfold fld; simp only [encI]
  apply BitVec.eq_of_getLsbD_eq; intro i hi
  simp only [BitVec.getLsbD_extractLsb', BitVec.getLsbD_append]; interval_cases i <;> simp

theorem encI_opc (o : BitVec 8) (s : BitVec 4) (f : IForm) : fld (encI o s f) 56 5 = o.extractLsb' 0 5 := by
  unfold fld; simp only [encI]
  apply BitVec.eq_of_getLsbD_eq; intro i hi
  simp only [BitVec.getLsbD_extractLsb', BitVec.getLsbD_append]; interval_cases i <;> simp

theorem encI_top (o : BitVec 8) (s : BitVec 4) (f : IForm) : fld (encI o s f) 60 4 = o.extractLsb' 4 4 := by
  unfold fld; simp only [encI]
  apply BitVec.eq_of_getLsbD_eq; intro i hi
  simp only [BitVec.getLsbD_extractLsb', BitVec.getLsbD_append]; interval_cases i <;> simp

theorem encI_sub (o : BitVec 8) (s : BitVec 4) (f : IForm) : fld (encI o s f) 52 4 = s := by
  unfold fld; simp only [encI]
  apply BitVec.eq_of_getLsbD_eq; intro i hi
  simp only [BitVec.getLsbD_extractLsb', BitVec.getLsbD_append]; interval_cases i <;> simp

theorem encI_pfx (o : BitVec 8) (s : BitVec 4) (f : IForm) : pfxOf (encI o s f) = f.x := by
  have h : f.x = ⟨f.x.u, f.x.p, f.x.pn⟩ := rfl
  rw [h]; simp only [pfxOf, fld, encI, Pfx.bits, Pfx.mk.injEq]
  refine ⟨?_, ?_, ?_⟩
  · simp only [BitVec.getLsbD_append, b1]; cases f.x.u <;> simp
  · apply BitVec.eq_of_getLsbD_eq; intro i hi
    simp only [BitVec.getLsbD_extractLsb', BitVec.getLsbD_append]; interval_cases i <;> simp
  · simp only [BitVec.getLsbD_append, b1]; cases f.x.pn <;> simp

theorem encI_d (o : BitVec 8) (s : BitVec 4) (f : IForm) : opdOf (encI o s f) 35 = f.d := by
  have h : f.d = ⟨f.d.start, f.d.wc⟩ := rfl
  rw [h]; simp only [opdOf, fld, encI, Opd.enc, Opd.mk.injEq]
  refine ⟨?_, ?_⟩ <;>
    (apply BitVec.eq_of_getLsbD_eq; intro i hi; simp only [BitVec.getLsbD_extractLsb', BitVec.getLsbD_append]; interval_cases i <;> simp)

theorem encI_a (o : BitVec 8) (s : BitVec 4) (f : IForm) : opdOf (encI o s f) 23 = f.a := by
  have h : f.a = ⟨f.a.start, f.a.wc⟩ := rfl
  rw [h]; simp only [opdOf, fld, encI, Opd.enc, Opd.mk.injEq]
  refine ⟨?_, ?_⟩ <;>
    (apply BitVec.eq_of_getLsbD_eq; intro i hi; simp only [BitVec.getLsbD_extractLsb', BitVec.getLsbD_append]; interval_cases i <;> simp)

theorem encI_ax (o : BitVec 8) (s : BitVec 4) (f : IForm) : fld (encI o s f) 20 3 = f.ax.toBits := by
  unfold fld; simp only [encI]
  apply BitVec.eq_of_getLsbD_eq; intro i hi
  simp only [BitVec.getLsbD_extractLsb', BitVec.getLsbD_append]; interval_cases i <;> simp

theorem encI_imm (o : BitVec 8) (s : BitVec 4) (f : IForm) : fld (encI o s f) 0 20 = f.imm := by
  unfold fld; simp only [encI]
  apply BitVec.eq_of_getLsbD_eq; intro i hi
  simp only [BitVec.getLsbD_extractLsb', BitVec.getLsbD_append]; interval_cases i <;> simp

theorem encI_form (o : BitVec 8) (s : BitVec 4) (f : IForm) : iFormOf (encI o s f) = f := by
  simp only [iFormOf, encI_pfx, encI_d, encI_a, encI_ax, encI_imm, exch_toBits]

/-! ### B-form (R42) -/

theorem encB_group (o : BitVec 8) (f : BForm) : fld (encB o f) 61 3 = o.extractLsb' 5 3 := by
  unfold fld; simp only [encB]
  apply BitVec.eq_of_getLsbD_eq; intro i hi
  simp only [BitVec.getLsbD_extractLsb', BitVec.getLsbD_append]; interval_cases i <;> simp

theorem encB_opc (o : BitVec 8) (f : BForm) : fld (encB o f) 56 5 = o.extractLsb' 0 5 := by
  unfold fld; simp only [encB]
  apply BitVec.eq_of_getLsbD_eq; intro i hi
  simp only [BitVec.getLsbD_extractLsb', BitVec.getLsbD_append]; interval_cases i <;> simp

theorem encB_top (o : BitVec 8) (f : BForm) : fld (encB o f) 60 4 = o.extractLsb' 4 4 := by
  unfold fld; simp only [encB]
  apply BitVec.eq_of_getLsbD_eq; intro i hi
  simp only [BitVec.getLsbD_extractLsb', BitVec.getLsbD_append]; interval_cases i <;> simp

theorem encB_sub (o : BitVec 8) (f : BForm) : fld (encB o f) 52 4 = 0 := by
  unfold fld; simp only [encB]
  apply BitVec.eq_of_getLsbD_eq; intro i hi
  simp only [BitVec.getLsbD_extractLsb', BitVec.getLsbD_append]; interval_cases i <;> simp

theorem encB_pfx (o : BitVec 8) (f : BForm) : pfxOf (encB o f) = f.x := by
  have h : f.x = ⟨f.x.u, f.x.p, f.x.pn⟩ := rfl
  rw [h]; simp only [pfxOf, fld, encB, Pfx.bits, Pfx.mk.injEq]
  refine ⟨?_, ?_, ?_⟩
  · simp only [BitVec.getLsbD_append, b1]; cases f.x.u <;> simp
  · apply BitVec.eq_of_getLsbD_eq; intro i hi
    simp only [BitVec.getLsbD_extractLsb', BitVec.getLsbD_append]; interval_cases i <;> simp
  · simp only [BitVec.getLsbD_append, b1]; cases f.x.pn <;> simp

theorem encB_fld (o : BitVec 8) (f : BForm) : fld (encB o f) 32 15 = f.fld := by
  unfold fld; simp only [encB]
  apply BitVec.eq_of_getLsbD_eq; intro i hi
  simp only [BitVec.getLsbD_extractLsb', BitVec.getLsbD_append]; interval_cases i <;> simp

theorem encB_disp (o : BitVec 8) (f : BForm) : fld (encB o f) 0 32 = f.disp := by
  unfold fld; simp only [encB]
  apply BitVec.eq_of_getLsbD_eq; intro i hi
  simp only [BitVec.getLsbD_extractLsb', BitVec.getLsbD_append]; interval_cases i <;> simp

theorem encB_bit32 (o : BitVec 8) (f : BForm) : (encB o f).getLsbD 32 = f.fld.getLsbD 0 := by
  simp only [encB, BitVec.getLsbD_append]; simp

theorem encB_form (o : BitVec 8) (f : BForm) : bFormOf (encB o f) = f := by simp only [bFormOf, encB_pfx, encB_fld, encB_disp]

/-! ### M-form (R43) -/

theorem encM_group (o : BitVec 8) (s : BitVec 4) (f : MForm) (m : BitVec 4) : fld (encM o s f m) 61 3 = o.extractLsb' 5 3 := by
  unfold fld; simp only [encM]
  apply BitVec.eq_of_getLsbD_eq; intro i hi
  simp only [BitVec.getLsbD_extractLsb', BitVec.getLsbD_append]; interval_cases i <;> simp

theorem encM_opc (o : BitVec 8) (s : BitVec 4) (f : MForm) (m : BitVec 4) : fld (encM o s f m) 56 5 = o.extractLsb' 0 5 := by
  unfold fld; simp only [encM]
  apply BitVec.eq_of_getLsbD_eq; intro i hi
  simp only [BitVec.getLsbD_extractLsb', BitVec.getLsbD_append]; interval_cases i <;> simp

theorem encM_top (o : BitVec 8) (s : BitVec 4) (f : MForm) (m : BitVec 4) : fld (encM o s f m) 60 4 = o.extractLsb' 4 4 := by
  unfold fld; simp only [encM]
  apply BitVec.eq_of_getLsbD_eq; intro i hi
  simp only [BitVec.getLsbD_extractLsb', BitVec.getLsbD_append]; interval_cases i <;> simp

theorem encM_sub (o : BitVec 8) (s : BitVec 4) (f : MForm) (m : BitVec 4) : fld (encM o s f m) 52 4 = s := by
  unfold fld; simp only [encM]
  apply BitVec.eq_of_getLsbD_eq; intro i hi
  simp only [BitVec.getLsbD_extractLsb', BitVec.getLsbD_append]; interval_cases i <;> simp

theorem encM_pfx (o : BitVec 8) (s : BitVec 4) (f : MForm) (m : BitVec 4) : pfxOf (encM o s f m) = f.x := by
  have h : f.x = ⟨f.x.u, f.x.p, f.x.pn⟩ := rfl
  rw [h]; simp only [pfxOf, fld, encM, Pfx.bits, Pfx.mk.injEq]
  refine ⟨?_, ?_, ?_⟩
  · simp only [BitVec.getLsbD_append, b1]; cases f.x.u <;> simp
  · apply BitVec.eq_of_getLsbD_eq; intro i hi
    simp only [BitVec.getLsbD_extractLsb', BitVec.getLsbD_append]; interval_cases i <;> simp
  · simp only [BitVec.getLsbD_append, b1]; cases f.x.pn <;> simp

theorem encM_d (o : BitVec 8) (s : BitVec 4) (f : MForm) (m : BitVec 4) : opdOf (encM o s f m) 35 = f.d := by
  have h : f.d = ⟨f.d.start, f.d.wc⟩ := rfl
  rw [h]; simp only [opdOf, fld, encM, Opd.enc, Opd.mk.injEq]
  refine ⟨?_, ?_⟩ <;>
    (apply BitVec.eq_of_getLsbD_eq; intro i hi; simp only [BitVec.getLsbD_extractLsb', BitVec.getLsbD_append]; interval_cases i <;> simp)

theorem encM_a (o : BitVec 8) (s : BitVec 4) (f : MForm) (m : BitVec 4) : opdOf (encM o s f m) 23 = f.a := by
  have h : f.a = ⟨f.a.start, f.a.wc⟩ := rfl
  rw [h]; simp only [opdOf, fld, encM, Opd.enc, Opd.mk.injEq]
  refine ⟨?_, ?_⟩ <;>
    (apply BitVec.eq_of_getLsbD_eq; intro i hi; simp only [BitVec.getLsbD_extractLsb', BitVec.getLsbD_append]; interval_cases i <;> simp)

theorem encM_ax (o : BitVec 8) (s : BitVec 4) (f : MForm) (m : BitVec 4) : fld (encM o s f m) 20 3 = f.ax.toBits := by
  unfold fld; simp only [encM]
  apply BitVec.eq_of_getLsbD_eq; intro i hi
  simp only [BitVec.getLsbD_extractLsb', BitVec.getLsbD_append]; interval_cases i <;> simp

theorem encM_ofs (o : BitVec 8) (s : BitVec 4) (f : MForm) (m : BitVec 4) : fld (encM o s f m) 4 16 = f.ofs := by
  unfold fld; simp only [encM]
  apply BitVec.eq_of_getLsbD_eq; intro i hi
  simp only [BitVec.getLsbD_extractLsb', BitVec.getLsbD_append]; interval_cases i <;> simp

theorem encM_mod (o : BitVec 8) (s : BitVec 4) (f : MForm) (m : BitVec 4) : fld (encM o s f m) 0 4 = m ||| (0#1 ++ f.e) := by
  unfold fld; simp only [encM]
  apply BitVec.eq_of_getLsbD_eq; intro i hi
  simp only [BitVec.getLsbD_extractLsb', BitVec.getLsbD_append]; interval_cases i <;> simp

theorem encM_low (o : BitVec 8) (s : BitVec 4) (f : MForm) (m : BitVec 4) : fld (encM o s f m) 0 3 = m.extractLsb' 0 3 ||| f.e := by
  rw [fld_low, encM_mod]; exact low_or m f.e

/-- An M-form word gives its form and its modifiers back. -/
theorem encM_form (o : BitVec 8) (s : BitVec 4) (f : MForm) (m : BitVec 4) (h : if f.xk then m.extractLsb' 0 3 = 0 else f.e = 0) :
    mFormOf (encM o s f m) = f ∧ mModOf (encM o s f m) = m := by
  unfold mFormOf mModOf
  simp only [encM_pfx, encM_d, encM_a, encM_ax, encM_ofs, encM_low, encM_mod, exch_toBits]
  unfold MForm.xk at h
  by_cases hx : (f.ax == .xk) = true
  · rw [if_pos hx] at h
    simp only [hx, if_true, h]
    have key : ∀ (m : BitVec 4) (e : BitVec 3), m.extractLsb' 0 3 = 0 → (m ||| 0#1 ++ e) &&& 8#4 = m := by decide
    exact ⟨by cases f; simp, key _ _ h⟩
  · rw [if_neg hx] at h
    simp only [Bool.not_eq_true] at hx
    simp only [hx, h]
    obtain ⟨_, _, _, _, _, e⟩ := f
    simp at h; subst h; simp

/-! ### Fabric form (R46) -/

theorem encF_group (o : BitVec 8) (s : BitVec 4) (f : FForm) : fld (encF o s f) 61 3 = o.extractLsb' 5 3 := by
  unfold fld; simp only [encF]
  apply BitVec.eq_of_getLsbD_eq; intro i hi
  simp only [BitVec.getLsbD_extractLsb', BitVec.getLsbD_append]; interval_cases i <;> simp

theorem encF_opc (o : BitVec 8) (s : BitVec 4) (f : FForm) : fld (encF o s f) 56 5 = o.extractLsb' 0 5 := by
  unfold fld; simp only [encF]
  apply BitVec.eq_of_getLsbD_eq; intro i hi
  simp only [BitVec.getLsbD_extractLsb', BitVec.getLsbD_append]; interval_cases i <;> simp

theorem encF_top (o : BitVec 8) (s : BitVec 4) (f : FForm) : fld (encF o s f) 60 4 = o.extractLsb' 4 4 := by
  unfold fld; simp only [encF]
  apply BitVec.eq_of_getLsbD_eq; intro i hi
  simp only [BitVec.getLsbD_extractLsb', BitVec.getLsbD_append]; interval_cases i <;> simp

theorem encF_sub (o : BitVec 8) (s : BitVec 4) (f : FForm) : fld (encF o s f) 52 4 = s := by
  unfold fld; simp only [encF]
  apply BitVec.eq_of_getLsbD_eq; intro i hi
  simp only [BitVec.getLsbD_extractLsb', BitVec.getLsbD_append]; interval_cases i <;> simp

theorem encF_pfx (o : BitVec 8) (s : BitVec 4) (f : FForm) : pfxOf (encF o s f) = f.x := by
  have h : f.x = ⟨f.x.u, f.x.p, f.x.pn⟩ := rfl
  rw [h]; simp only [pfxOf, fld, encF, Pfx.bits, Pfx.mk.injEq]
  refine ⟨?_, ?_, ?_⟩
  · simp only [BitVec.getLsbD_append, b1]; cases f.x.u <;> simp
  · apply BitVec.eq_of_getLsbD_eq; intro i hi
    simp only [BitVec.getLsbD_extractLsb', BitVec.getLsbD_append]; interval_cases i <;> simp
  · simp only [BitVec.getLsbD_append, b1]; cases f.x.pn <;> simp

theorem encF_d (o : BitVec 8) (s : BitVec 4) (f : FForm) : opdOf (encF o s f) 35 = f.d := by
  have h : f.d = ⟨f.d.start, f.d.wc⟩ := rfl
  rw [h]; simp only [opdOf, fld, encF, Opd.enc, Opd.mk.injEq]
  refine ⟨?_, ?_⟩ <;>
    (apply BitVec.eq_of_getLsbD_eq; intro i hi; simp only [BitVec.getLsbD_extractLsb', BitVec.getLsbD_append]; interval_cases i <;> simp)

theorem encF_a (o : BitVec 8) (s : BitVec 4) (f : FForm) : opdOf (encF o s f) 23 = f.a := by
  have h : f.a = ⟨f.a.start, f.a.wc⟩ := rfl
  rw [h]; simp only [opdOf, fld, encF, Opd.enc, Opd.mk.injEq]
  refine ⟨?_, ?_⟩ <;>
    (apply BitVec.eq_of_getLsbD_eq; intro i hi; simp only [BitVec.getLsbD_extractLsb', BitVec.getLsbD_append]; interval_cases i <;> simp)

theorem encF_ax (o : BitVec 8) (s : BitVec 4) (f : FForm) : fld (encF o s f) 20 3 = f.ax.toBits := by
  unfold fld; simp only [encF]
  apply BitVec.eq_of_getLsbD_eq; intro i hi
  simp only [BitVec.getLsbD_extractLsb', BitVec.getLsbD_append]; interval_cases i <;> simp

theorem encF_imm (o : BitVec 8) (s : BitVec 4) (f : FForm) : fld (encF o s f) 8 12 = f.imm := by
  unfold fld; simp only [encF]
  apply BitVec.eq_of_getLsbD_eq; intro i hi
  simp only [BitVec.getLsbD_extractLsb', BitVec.getLsbD_append]; interval_cases i <;> simp

theorem encF_low (o : BitVec 8) (s : BitVec 4) (f : FForm) : fld (encF o s f) 0 4 = 0 := by
  unfold fld; simp only [encF]
  apply BitVec.eq_of_getLsbD_eq; intro i hi
  simp only [BitVec.getLsbD_extractLsb', BitVec.getLsbD_append]; interval_cases i <;> simp

theorem encF_mid (o : BitVec 8) (s : BitVec 4) (f : FForm) : fld (encF o s f) 5 3 = 0 := by
  unfold fld; simp only [encF]
  apply BitVec.eq_of_getLsbD_eq; intro i hi
  simp only [BitVec.getLsbD_extractLsb', BitVec.getLsbD_append]; interval_cases i <;> simp

theorem encF_fut (o : BitVec 8) (s : BitVec 4) (f : FForm) : (encF o s f).getLsbD 4 = f.fut := by
  simp only [encF, BitVec.getLsbD_append, b1]; cases f.fut <;> simp

theorem encF_form (o : BitVec 8) (s : BitVec 4) (f : FForm) : fFormOf (encF o s f) = f := by
  simp only [fFormOf, encF_pfx, encF_d, encF_a, encF_ax, encF_imm, encF_fut, exch_toBits]

/-! ### MLOOP (R45) -/

theorem encX_group (f : XForm) : fld (encX f) 61 3 = (160#8).extractLsb' 5 3 := by
  unfold fld; simp only [encX]
  apply BitVec.eq_of_getLsbD_eq; intro i hi
  simp only [BitVec.getLsbD_extractLsb', BitVec.getLsbD_append]; interval_cases i <;> simp

theorem encX_opc (f : XForm) : fld (encX f) 56 5 = (160#8).extractLsb' 0 5 := by
  unfold fld; simp only [encX]
  apply BitVec.eq_of_getLsbD_eq; intro i hi
  simp only [BitVec.getLsbD_extractLsb', BitVec.getLsbD_append]; interval_cases i <;> simp

theorem encX_top (f : XForm) : fld (encX f) 60 4 = (160#8).extractLsb' 4 4 := by
  unfold fld; simp only [encX]
  apply BitVec.eq_of_getLsbD_eq; intro i hi
  simp only [BitVec.getLsbD_extractLsb', BitVec.getLsbD_append]; interval_cases i <;> simp

theorem encX_sub (f : XForm) : fld (encX f) 52 4 = f.fmt.extractLsb' 0 4 := by
  unfold fld; simp only [encX]
  apply BitVec.eq_of_getLsbD_eq; intro i hi
  simp only [BitVec.getLsbD_extractLsb', BitVec.getLsbD_append]; interval_cases i <;> simp

theorem encX_pfx (f : XForm) : pfxOf (encX f) = f.x := by
  have h : f.x = ⟨f.x.u, f.x.p, f.x.pn⟩ := rfl
  rw [h]; simp only [pfxOf, fld, encX, Pfx.bits, Pfx.mk.injEq]
  refine ⟨?_, ?_, ?_⟩
  · simp only [BitVec.getLsbD_append, b1]; cases f.x.u <;> simp
  · apply BitVec.eq_of_getLsbD_eq; intro i hi
    simp only [BitVec.getLsbD_extractLsb', BitVec.getLsbD_append]; interval_cases i <;> simp
  · simp only [BitVec.getLsbD_append, b1]; cases f.x.pn <;> simp

theorem encX_h (f : XForm) : fld (encX f) 38 9 = f.h := by
  unfold fld; simp only [encX]
  apply BitVec.eq_of_getLsbD_eq; intro i hi
  simp only [BitVec.getLsbD_extractLsb', BitVec.getLsbD_append]; interval_cases i <;> simp

theorem encX_sc (f : XForm) : fld (encX f) 29 9 = f.sc := by
  unfold fld; simp only [encX]
  apply BitVec.eq_of_getLsbD_eq; intro i hi
  simp only [BitVec.getLsbD_extractLsb', BitVec.getLsbD_append]; interval_cases i <;> simp

theorem encX_kcnt (f : XForm) : fld (encX f) 21 8 = f.kcnt := by
  unfold fld; simp only [encX]
  apply BitVec.eq_of_getLsbD_eq; intro i hi
  simp only [BitVec.getLsbD_extractLsb', BitVec.getLsbD_append]; interval_cases i <;> simp

theorem encX_bsel (f : XForm) : fld (encX f) 18 3 = f.bsel := by
  unfold fld; simp only [encX]
  apply BitVec.eq_of_getLsbD_eq; intro i hi
  simp only [BitVec.getLsbD_extractLsb', BitVec.getLsbD_append]; interval_cases i <;> simp

theorem encX_fd (f : XForm) : fld (encX f) 7 9 = f.fd := by
  unfold fld; simp only [encX]
  apply BitVec.eq_of_getLsbD_eq; intro i hi
  simp only [BitVec.getLsbD_extractLsb', BitVec.getLsbD_append]; interval_cases i <;> simp

theorem encX_fmtHigh (f : XForm) : fld (encX f) 5 2 = f.fmt.extractLsb' 4 2 := by
  unfold fld; simp only [encX]
  apply BitVec.eq_of_getLsbD_eq; intro i hi
  simp only [BitVec.getLsbD_extractLsb', BitVec.getLsbD_append]; interval_cases i <;> simp

theorem encX_low (f : XForm) : fld (encX f) 0 5 = 0 := by
  unfold fld; simp only [encX]
  apply BitVec.eq_of_getLsbD_eq; intro i hi
  simp only [BitVec.getLsbD_extractLsb', BitVec.getLsbD_append]; interval_cases i <;> simp

theorem encX_ainc (f : XForm) : (encX f).getLsbD 17 = f.ainc := by
  simp only [encX, BitVec.getLsbD_append, b1]; cases f.ainc <;> simp

theorem encX_fe (f : XForm) : (encX f).getLsbD 16 = f.fe := by
  simp only [encX, BitVec.getLsbD_append, b1]; cases f.fe <;> simp

theorem encX_form (f : XForm) : xFormOf (encX f) = f := by
  simp only [xFormOf, encX_pfx, encX_h, encX_sc, encX_kcnt, encX_bsel, encX_ainc, encX_fe, encX_fd, encX_fmtHigh, encX_sub]
  have key : ∀ m : BitVec 6, m.extractLsb' 4 2 ++ m.extractLsb' 0 4 = m := by decide
  rw [key]

end Sys2Proof.Laws
end

