-- ==== Sys2Proof/Laws/State.lean ====
section
/-! SUPPORT. Tables, and one lemma per field of the state for each of its updates. -/

namespace Sys2Proof.Machine

/-! ### Tables -/

section Tables
variable {α : Type} (k j : Nat) (a b : α) (l : Tbl α)

@[simp] theorem tget_tset_self : tget k (tset k a l) = some a := by
  induction l with
  | nil => simp [tset, tget]
  | cons p l ih =>
    obtain ⟨i, c⟩ := p
    unfold tset
    split
    · simp [tget]
    · split
      · simp [tget]
      · rename_i h; simp [tget, h, ih]

theorem tget_tset_ne (h : j ≠ k) : tget j (tset k a l) = tget j l := by
  have hk : ¬ k = j := fun e => h e.symm
  induction l with
  | nil => simp [tset, tget, hk]
  | cons p l ih =>
    obtain ⟨i, c⟩ := p
    unfold tset
    split
    · simp [tget, hk]
    · split
      · rename_i e; subst e; simp [tget, hk]
      · simp [tget, ih]

@[simp] theorem tset_tset : tset k b (tset k a l) = tset k b l := by
  induction l with
  | nil => simp [tset]
  | cons p l ih =>
    obtain ⟨i, c⟩ := p
    by_cases h1 : k < i
    · simp [tset, h1]
    · by_cases h2 : i = k
      · simp [tset, h2]
      · simp [tset, h1, h2, ih]

@[simp] theorem tgetD_tset_self (d : α) : tgetD k d (tset k a l) = a := by simp [tgetD]
theorem tgetD_tset_ne (d : α) (h : j ≠ k) : tgetD j d (tset k a l) = tgetD j d l := by simp [tgetD, tget_tset_ne _ _ _ _ h]

end Tables

/-! ### Updates of the state, field by field -/

namespace State
variable (s : State)

@[simp] theorem setThr_cfg (t : Tid) (x : Thread) : (s.setThr t x).cfg = s.cfg := rfl
@[simp] theorem setThr_now (t : Tid) (x : Thread) : (s.setThr t x).now = s.now := rfl
@[simp] theorem setThr_freeCtr (t : Tid) (x : Thread) : (s.setThr t x).freeCtr = s.freeCtr := rfl
@[simp] theorem setThr_voteCtr (t : Tid) (x : Thread) : (s.setThr t x).voteCtr = s.voteCtr := rfl
@[simp] theorem setThr_agenda (t : Tid) (x : Thread) : (s.setThr t x).agenda = s.agenda := rfl
@[simp] theorem setThr_iss (t : Tid) (x : Thread) : (s.setThr t x).iss = s.iss := rfl
@[simp] theorem setThr_cores (t : Tid) (x : Thread) : (s.setThr t x).cores = s.cores := rfl
@[simp] theorem setThr_clusters (t : Tid) (x : Thread) : (s.setThr t x).clusters = s.clusters := rfl
@[simp] theorem setThr_dies (t : Tid) (x : Thread) : (s.setThr t x).dies = s.dies := rfl
@[simp] theorem setThr_ports (t : Tid) (x : Thread) : (s.setThr t x).ports = s.ports := rfl
@[simp] theorem setThr_turns (t : Tid) (x : Thread) : (s.setThr t x).turns = s.turns := rfl
@[simp] theorem setThr_lent (t : Tid) (x : Thread) : (s.setThr t x).lent = s.lent := rfl
@[simp] theorem setThr_mem (t : Tid) (x : Thread) : (s.setThr t x).mem = s.mem := rfl
@[simp] theorem setThr_hostMem (t : Tid) (x : Thread) : (s.setThr t x).hostMem = s.hostMem := rfl
@[simp] theorem setThr_msgs (t : Tid) (x : Thread) : (s.setThr t x).msgs = s.msgs := rfl
@[simp] theorem setThr_comb (t : Tid) (x : Thread) : (s.setThr t x).comb = s.comb := rfl
@[simp] theorem setThr_fab (t : Tid) (x : Thread) : (s.setThr t x).fab = s.fab := rfl
@[simp] theorem setThr_host (t : Tid) (x : Thread) : (s.setThr t x).host = s.host := rfl
@[simp] theorem setThr_recs (t : Tid) (x : Thread) : (s.setThr t x).recs = s.recs := rfl
@[simp] theorem setThr_homes (t : Tid) (x : Thread) : (s.setThr t x).homes = s.homes := rfl
@[simp] theorem setThr_saves (t : Tid) (x : Thread) : (s.setThr t x).saves = s.saves := rfl
@[simp] theorem setThr_snaps (t : Tid) (x : Thread) : (s.setThr t x).snaps = s.snaps := rfl

@[simp] theorem dropThr_cfg (t : Tid) : (s.dropThr t).cfg = s.cfg := rfl
@[simp] theorem dropThr_now (t : Tid) : (s.dropThr t).now = s.now := rfl
@[simp] theorem dropThr_freeCtr (t : Tid) : (s.dropThr t).freeCtr = s.freeCtr := rfl
@[simp] theorem dropThr_voteCtr (t : Tid) : (s.dropThr t).voteCtr = s.voteCtr := rfl
@[simp] theorem dropThr_agenda (t : Tid) : (s.dropThr t).agenda = s.agenda := rfl
@[simp] theorem dropThr_iss (t : Tid) : (s.dropThr t).iss = s.iss := rfl
@[simp] theorem dropThr_cores (t : Tid) : (s.dropThr t).cores = s.cores := rfl
@[simp] theorem dropThr_clusters (t : Tid) : (s.dropThr t).clusters = s.clusters := rfl
@[simp] theorem dropThr_dies (t : Tid) : (s.dropThr t).dies = s.dies := rfl
@[simp] theorem dropThr_ports (t : Tid) : (s.dropThr t).ports = s.ports := rfl
@[simp] theorem dropThr_turns (t : Tid) : (s.dropThr t).turns = s.turns := rfl
@[simp] theorem dropThr_lent (t : Tid) : (s.dropThr t).lent = s.lent := rfl
@[simp] theorem dropThr_mem (t : Tid) : (s.dropThr t).mem = s.mem := rfl
@[simp] theorem dropThr_hostMem (t : Tid) : (s.dropThr t).hostMem = s.hostMem := rfl
@[simp] theorem dropThr_msgs (t : Tid) : (s.dropThr t).msgs = s.msgs := rfl
@[simp] theorem dropThr_comb (t : Tid) : (s.dropThr t).comb = s.comb := rfl
@[simp] theorem dropThr_fab (t : Tid) : (s.dropThr t).fab = s.fab := rfl
@[simp] theorem dropThr_host (t : Tid) : (s.dropThr t).host = s.host := rfl
@[simp] theorem dropThr_recs (t : Tid) : (s.dropThr t).recs = s.recs := rfl
@[simp] theorem dropThr_homes (t : Tid) : (s.dropThr t).homes = s.homes := rfl
@[simp] theorem dropThr_saves (t : Tid) : (s.dropThr t).saves = s.saves := rfl
@[simp] theorem dropThr_snaps (t : Tid) : (s.dropThr t).snaps = s.snaps := rfl

@[simp] theorem setCore_cfg (c : Nat) (x : Core) : (s.setCore c x).cfg = s.cfg := rfl
@[simp] theorem setCore_now (c : Nat) (x : Core) : (s.setCore c x).now = s.now := rfl
@[simp] theorem setCore_freeCtr (c : Nat) (x : Core) : (s.setCore c x).freeCtr = s.freeCtr := rfl
@[simp] theorem setCore_voteCtr (c : Nat) (x : Core) : (s.setCore c x).voteCtr = s.voteCtr := rfl
@[simp] theorem setCore_agenda (c : Nat) (x : Core) : (s.setCore c x).agenda = s.agenda := rfl
@[simp] theorem setCore_iss (c : Nat) (x : Core) : (s.setCore c x).iss = s.iss := rfl
@[simp] theorem setCore_threads (c : Nat) (x : Core) : (s.setCore c x).threads = s.threads := rfl
@[simp] theorem setCore_clusters (c : Nat) (x : Core) : (s.setCore c x).clusters = s.clusters := rfl
@[simp] theorem setCore_dies (c : Nat) (x : Core) : (s.setCore c x).dies = s.dies := rfl
@[simp] theorem setCore_ports (c : Nat) (x : Core) : (s.setCore c x).ports = s.ports := rfl
@[simp] theorem setCore_turns (c : Nat) (x : Core) : (s.setCore c x).turns = s.turns := rfl
@[simp] theorem setCore_lent (c : Nat) (x : Core) : (s.setCore c x).lent = s.lent := rfl
@[simp] theorem setCore_mem (c : Nat) (x : Core) : (s.setCore c x).mem = s.mem := rfl
@[simp] theorem setCore_hostMem (c : Nat) (x : Core) : (s.setCore c x).hostMem = s.hostMem := rfl
@[simp] theorem setCore_msgs (c : Nat) (x : Core) : (s.setCore c x).msgs = s.msgs := rfl
@[simp] theorem setCore_comb (c : Nat) (x : Core) : (s.setCore c x).comb = s.comb := rfl
@[simp] theorem setCore_fab (c : Nat) (x : Core) : (s.setCore c x).fab = s.fab := rfl
@[simp] theorem setCore_host (c : Nat) (x : Core) : (s.setCore c x).host = s.host := rfl
@[simp] theorem setCore_recs (c : Nat) (x : Core) : (s.setCore c x).recs = s.recs := rfl
@[simp] theorem setCore_homes (c : Nat) (x : Core) : (s.setCore c x).homes = s.homes := rfl
@[simp] theorem setCore_saves (c : Nat) (x : Core) : (s.setCore c x).saves = s.saves := rfl
@[simp] theorem setCore_snaps (c : Nat) (x : Core) : (s.setCore c x).snaps = s.snaps := rfl

@[simp] theorem modCore_cfg (c : Nat) (f : Core → Core) : (s.modCore c f).cfg = s.cfg := rfl
@[simp] theorem modCore_now (c : Nat) (f : Core → Core) : (s.modCore c f).now = s.now := rfl
@[simp] theorem modCore_freeCtr (c : Nat) (f : Core → Core) : (s.modCore c f).freeCtr = s.freeCtr := rfl
@[simp] theorem modCore_voteCtr (c : Nat) (f : Core → Core) : (s.modCore c f).voteCtr = s.voteCtr := rfl
@[simp] theorem modCore_agenda (c : Nat) (f : Core → Core) : (s.modCore c f).agenda = s.agenda := rfl
@[simp] theorem modCore_iss (c : Nat) (f : Core → Core) : (s.modCore c f).iss = s.iss := rfl
@[simp] theorem modCore_threads (c : Nat) (f : Core → Core) : (s.modCore c f).threads = s.threads := rfl
@[simp] theorem modCore_clusters (c : Nat) (f : Core → Core) : (s.modCore c f).clusters = s.clusters := rfl
@[simp] theorem modCore_dies (c : Nat) (f : Core → Core) : (s.modCore c f).dies = s.dies := rfl
@[simp] theorem modCore_ports (c : Nat) (f : Core → Core) : (s.modCore c f).ports = s.ports := rfl
@[simp] theorem modCore_turns (c : Nat) (f : Core → Core) : (s.modCore c f).turns = s.turns := rfl
@[simp] theorem modCore_lent (c : Nat) (f : Core → Core) : (s.modCore c f).lent = s.lent := rfl
@[simp] theorem modCore_mem (c : Nat) (f : Core → Core) : (s.modCore c f).mem = s.mem := rfl
@[simp] theorem modCore_hostMem (c : Nat) (f : Core → Core) : (s.modCore c f).hostMem = s.hostMem := rfl
@[simp] theorem modCore_msgs (c : Nat) (f : Core → Core) : (s.modCore c f).msgs = s.msgs := rfl
@[simp] theorem modCore_comb (c : Nat) (f : Core → Core) : (s.modCore c f).comb = s.comb := rfl
@[simp] theorem modCore_fab (c : Nat) (f : Core → Core) : (s.modCore c f).fab = s.fab := rfl
@[simp] theorem modCore_host (c : Nat) (f : Core → Core) : (s.modCore c f).host = s.host := rfl
@[simp] theorem modCore_recs (c : Nat) (f : Core → Core) : (s.modCore c f).recs = s.recs := rfl
@[simp] theorem modCore_homes (c : Nat) (f : Core → Core) : (s.modCore c f).homes = s.homes := rfl
@[simp] theorem modCore_saves (c : Nat) (f : Core → Core) : (s.modCore c f).saves = s.saves := rfl
@[simp] theorem modCore_snaps (c : Nat) (f : Core → Core) : (s.modCore c f).snaps = s.snaps := rfl

@[simp] theorem setPort_cfg (k : Nat) (p : Port) : (s.setPort k p).cfg = s.cfg := rfl
@[simp] theorem setPort_now (k : Nat) (p : Port) : (s.setPort k p).now = s.now := rfl
@[simp] theorem setPort_freeCtr (k : Nat) (p : Port) : (s.setPort k p).freeCtr = s.freeCtr := rfl
@[simp] theorem setPort_voteCtr (k : Nat) (p : Port) : (s.setPort k p).voteCtr = s.voteCtr := rfl
@[simp] theorem setPort_agenda (k : Nat) (p : Port) : (s.setPort k p).agenda = s.agenda := rfl
@[simp] theorem setPort_iss (k : Nat) (p : Port) : (s.setPort k p).iss = s.iss := rfl
@[simp] theorem setPort_threads (k : Nat) (p : Port) : (s.setPort k p).threads = s.threads := rfl
@[simp] theorem setPort_cores (k : Nat) (p : Port) : (s.setPort k p).cores = s.cores := rfl
@[simp] theorem setPort_clusters (k : Nat) (p : Port) : (s.setPort k p).clusters = s.clusters := rfl
@[simp] theorem setPort_dies (k : Nat) (p : Port) : (s.setPort k p).dies = s.dies := rfl
@[simp] theorem setPort_turns (k : Nat) (p : Port) : (s.setPort k p).turns = s.turns := rfl
@[simp] theorem setPort_lent (k : Nat) (p : Port) : (s.setPort k p).lent = s.lent := rfl
@[simp] theorem setPort_mem (k : Nat) (p : Port) : (s.setPort k p).mem = s.mem := rfl
@[simp] theorem setPort_hostMem (k : Nat) (p : Port) : (s.setPort k p).hostMem = s.hostMem := rfl
@[simp] theorem setPort_msgs (k : Nat) (p : Port) : (s.setPort k p).msgs = s.msgs := rfl
@[simp] theorem setPort_comb (k : Nat) (p : Port) : (s.setPort k p).comb = s.comb := rfl
@[simp] theorem setPort_fab (k : Nat) (p : Port) : (s.setPort k p).fab = s.fab := rfl
@[simp] theorem setPort_host (k : Nat) (p : Port) : (s.setPort k p).host = s.host := rfl
@[simp] theorem setPort_recs (k : Nat) (p : Port) : (s.setPort k p).recs = s.recs := rfl
@[simp] theorem setPort_homes (k : Nat) (p : Port) : (s.setPort k p).homes = s.homes := rfl
@[simp] theorem setPort_saves (k : Nat) (p : Port) : (s.setPort k p).saves = s.saves := rfl
@[simp] theorem setPort_snaps (k : Nat) (p : Port) : (s.setPort k p).snaps = s.snaps := rfl

@[simp] theorem modPort_cfg (k : Nat) (f : Port → Port) : (s.modPort k f).cfg = s.cfg := rfl
@[simp] theorem modPort_now (k : Nat) (f : Port → Port) : (s.modPort k f).now = s.now := rfl
@[simp] theorem modPort_freeCtr (k : Nat) (f : Port → Port) : (s.modPort k f).freeCtr = s.freeCtr := rfl
@[simp] theorem modPort_voteCtr (k : Nat) (f : Port → Port) : (s.modPort k f).voteCtr = s.voteCtr := rfl
@[simp] theorem modPort_agenda (k : Nat) (f : Port → Port) : (s.modPort k f).agenda = s.agenda := rfl
@[simp] theorem modPort_iss (k : Nat) (f : Port → Port) : (s.modPort k f).iss = s.iss := rfl
@[simp] theorem modPort_threads (k : Nat) (f : Port → Port) : (s.modPort k f).threads = s.threads := rfl
@[simp] theorem modPort_cores (k : Nat) (f : Port → Port) : (s.modPort k f).cores = s.cores := rfl
@[simp] theorem modPort_clusters (k : Nat) (f : Port → Port) : (s.modPort k f).clusters = s.clusters := rfl
@[simp] theorem modPort_dies (k : Nat) (f : Port → Port) : (s.modPort k f).dies = s.dies := rfl
@[simp] theorem modPort_turns (k : Nat) (f : Port → Port) : (s.modPort k f).turns = s.turns := rfl
@[simp] theorem modPort_lent (k : Nat) (f : Port → Port) : (s.modPort k f).lent = s.lent := rfl
@[simp] theorem modPort_mem (k : Nat) (f : Port → Port) : (s.modPort k f).mem = s.mem := rfl
@[simp] theorem modPort_hostMem (k : Nat) (f : Port → Port) : (s.modPort k f).hostMem = s.hostMem := rfl
@[simp] theorem modPort_msgs (k : Nat) (f : Port → Port) : (s.modPort k f).msgs = s.msgs := rfl
@[simp] theorem modPort_comb (k : Nat) (f : Port → Port) : (s.modPort k f).comb = s.comb := rfl
@[simp] theorem modPort_fab (k : Nat) (f : Port → Port) : (s.modPort k f).fab = s.fab := rfl
@[simp] theorem modPort_host (k : Nat) (f : Port → Port) : (s.modPort k f).host = s.host := rfl
@[simp] theorem modPort_recs (k : Nat) (f : Port → Port) : (s.modPort k f).recs = s.recs := rfl
@[simp] theorem modPort_homes (k : Nat) (f : Port → Port) : (s.modPort k f).homes = s.homes := rfl
@[simp] theorem modPort_saves (k : Nat) (f : Port → Port) : (s.modPort k f).saves = s.saves := rfl
@[simp] theorem modPort_snaps (k : Nat) (f : Port → Port) : (s.modPort k f).snaps = s.snaps := rfl

@[simp] theorem freePort_cfg (k : Nat) : (s.freePort k).cfg = s.cfg := rfl
@[simp] theorem freePort_now (k : Nat) : (s.freePort k).now = s.now := rfl
@[simp] theorem freePort_freeCtr (k : Nat) : (s.freePort k).freeCtr = s.freeCtr := rfl
@[simp] theorem freePort_voteCtr (k : Nat) : (s.freePort k).voteCtr = s.voteCtr := rfl
@[simp] theorem freePort_agenda (k : Nat) : (s.freePort k).agenda = s.agenda := rfl
@[simp] theorem freePort_iss (k : Nat) : (s.freePort k).iss = s.iss := rfl
@[simp] theorem freePort_threads (k : Nat) : (s.freePort k).threads = s.threads := rfl
@[simp] theorem freePort_cores (k : Nat) : (s.freePort k).cores = s.cores := rfl
@[simp] theorem freePort_clusters (k : Nat) : (s.freePort k).clusters = s.clusters := rfl
@[simp] theorem freePort_dies (k : Nat) : (s.freePort k).dies = s.dies := rfl
@[simp] theorem freePort_turns (k : Nat) : (s.freePort k).turns = s.turns := rfl
@[simp] theorem freePort_lent (k : Nat) : (s.freePort k).lent = s.lent := rfl
@[simp] theorem freePort_mem (k : Nat) : (s.freePort k).mem = s.mem := rfl
@[simp] theorem freePort_hostMem (k : Nat) : (s.freePort k).hostMem = s.hostMem := rfl
@[simp] theorem freePort_msgs (k : Nat) : (s.freePort k).msgs = s.msgs := rfl
@[simp] theorem freePort_comb (k : Nat) : (s.freePort k).comb = s.comb := rfl
@[simp] theorem freePort_fab (k : Nat) : (s.freePort k).fab = s.fab := rfl
@[simp] theorem freePort_host (k : Nat) : (s.freePort k).host = s.host := rfl
@[simp] theorem freePort_recs (k : Nat) : (s.freePort k).recs = s.recs := rfl
@[simp] theorem freePort_homes (k : Nat) : (s.freePort k).homes = s.homes := rfl
@[simp] theorem freePort_saves (k : Nat) : (s.freePort k).saves = s.saves := rfl
@[simp] theorem freePort_snaps (k : Nat) : (s.freePort k).snaps = s.snaps := rfl

@[simp] theorem setDie_cfg (d : Nat) (x : Die) : (s.setDie d x).cfg = s.cfg := rfl
@[simp] theorem setDie_now (d : Nat) (x : Die) : (s.setDie d x).now = s.now := rfl
@[simp] theorem setDie_freeCtr (d : Nat) (x : Die) : (s.setDie d x).freeCtr = s.freeCtr := rfl
@[simp] theorem setDie_voteCtr (d : Nat) (x : Die) : (s.setDie d x).voteCtr = s.voteCtr := rfl
@[simp] theorem setDie_agenda (d : Nat) (x : Die) : (s.setDie d x).agenda = s.agenda := rfl
@[simp] theorem setDie_iss (d : Nat) (x : Die) : (s.setDie d x).iss = s.iss := rfl
@[simp] theorem setDie_threads (d : Nat) (x : Die) : (s.setDie d x).threads = s.threads := rfl
@[simp] theorem setDie_cores (d : Nat) (x : Die) : (s.setDie d x).cores = s.cores := rfl
@[simp] theorem setDie_clusters (d : Nat) (x : Die) : (s.setDie d x).clusters = s.clusters := rfl
@[simp] theorem setDie_ports (d : Nat) (x : Die) : (s.setDie d x).ports = s.ports := rfl
@[simp] theorem setDie_turns (d : Nat) (x : Die) : (s.setDie d x).turns = s.turns := rfl
@[simp] theorem setDie_lent (d : Nat) (x : Die) : (s.setDie d x).lent = s.lent := rfl
@[simp] theorem setDie_mem (d : Nat) (x : Die) : (s.setDie d x).mem = s.mem := rfl
@[simp] theorem setDie_hostMem (d : Nat) (x : Die) : (s.setDie d x).hostMem = s.hostMem := rfl
@[simp] theorem setDie_msgs (d : Nat) (x : Die) : (s.setDie d x).msgs = s.msgs := rfl
@[simp] theorem setDie_comb (d : Nat) (x : Die) : (s.setDie d x).comb = s.comb := rfl
@[simp] theorem setDie_fab (d : Nat) (x : Die) : (s.setDie d x).fab = s.fab := rfl
@[simp] theorem setDie_host (d : Nat) (x : Die) : (s.setDie d x).host = s.host := rfl
@[simp] theorem setDie_recs (d : Nat) (x : Die) : (s.setDie d x).recs = s.recs := rfl
@[simp] theorem setDie_homes (d : Nat) (x : Die) : (s.setDie d x).homes = s.homes := rfl
@[simp] theorem setDie_saves (d : Nat) (x : Die) : (s.setDie d x).saves = s.saves := rfl
@[simp] theorem setDie_snaps (d : Nat) (x : Die) : (s.setDie d x).snaps = s.snaps := rfl

@[simp] theorem modDie_cfg (d : Nat) (f : Die → Die) : (s.modDie d f).cfg = s.cfg := rfl
@[simp] theorem modDie_now (d : Nat) (f : Die → Die) : (s.modDie d f).now = s.now := rfl
@[simp] theorem modDie_freeCtr (d : Nat) (f : Die → Die) : (s.modDie d f).freeCtr = s.freeCtr := rfl
@[simp] theorem modDie_voteCtr (d : Nat) (f : Die → Die) : (s.modDie d f).voteCtr = s.voteCtr := rfl
@[simp] theorem modDie_agenda (d : Nat) (f : Die → Die) : (s.modDie d f).agenda = s.agenda := rfl
@[simp] theorem modDie_iss (d : Nat) (f : Die → Die) : (s.modDie d f).iss = s.iss := rfl
@[simp] theorem modDie_threads (d : Nat) (f : Die → Die) : (s.modDie d f).threads = s.threads := rfl
@[simp] theorem modDie_cores (d : Nat) (f : Die → Die) : (s.modDie d f).cores = s.cores := rfl
@[simp] theorem modDie_clusters (d : Nat) (f : Die → Die) : (s.modDie d f).clusters = s.clusters := rfl
@[simp] theorem modDie_ports (d : Nat) (f : Die → Die) : (s.modDie d f).ports = s.ports := rfl
@[simp] theorem modDie_turns (d : Nat) (f : Die → Die) : (s.modDie d f).turns = s.turns := rfl
@[simp] theorem modDie_lent (d : Nat) (f : Die → Die) : (s.modDie d f).lent = s.lent := rfl
@[simp] theorem modDie_mem (d : Nat) (f : Die → Die) : (s.modDie d f).mem = s.mem := rfl
@[simp] theorem modDie_hostMem (d : Nat) (f : Die → Die) : (s.modDie d f).hostMem = s.hostMem := rfl
@[simp] theorem modDie_msgs (d : Nat) (f : Die → Die) : (s.modDie d f).msgs = s.msgs := rfl
@[simp] theorem modDie_comb (d : Nat) (f : Die → Die) : (s.modDie d f).comb = s.comb := rfl
@[simp] theorem modDie_fab (d : Nat) (f : Die → Die) : (s.modDie d f).fab = s.fab := rfl
@[simp] theorem modDie_host (d : Nat) (f : Die → Die) : (s.modDie d f).host = s.host := rfl
@[simp] theorem modDie_recs (d : Nat) (f : Die → Die) : (s.modDie d f).recs = s.recs := rfl
@[simp] theorem modDie_homes (d : Nat) (f : Die → Die) : (s.modDie d f).homes = s.homes := rfl
@[simp] theorem modDie_saves (d : Nat) (f : Die → Die) : (s.modDie d f).saves = s.saves := rfl
@[simp] theorem modDie_snaps (d : Nat) (f : Die → Die) : (s.modDie d f).snaps = s.snaps := rfl

@[simp] theorem modThr_cfg (t : Tid) (f : Thread → Thread) : (s.modThr t f).cfg = s.cfg := by unfold modThr; split <;> rfl
@[simp] theorem modThr_now (t : Tid) (f : Thread → Thread) : (s.modThr t f).now = s.now := by unfold modThr; split <;> rfl
@[simp] theorem modThr_freeCtr (t : Tid) (f : Thread → Thread) : (s.modThr t f).freeCtr = s.freeCtr := by unfold modThr; split <;> rfl
@[simp] theorem modThr_voteCtr (t : Tid) (f : Thread → Thread) : (s.modThr t f).voteCtr = s.voteCtr := by unfold modThr; split <;> rfl
@[simp] theorem modThr_agenda (t : Tid) (f : Thread → Thread) : (s.modThr t f).agenda = s.agenda := by unfold modThr; split <;> rfl
@[simp] theorem modThr_iss (t : Tid) (f : Thread → Thread) : (s.modThr t f).iss = s.iss := by unfold modThr; split <;> rfl
@[simp] theorem modThr_cores (t : Tid) (f : Thread → Thread) : (s.modThr t f).cores = s.cores := by unfold modThr; split <;> rfl
@[simp] theorem modThr_clusters (t : Tid) (f : Thread → Thread) : (s.modThr t f).clusters = s.clusters := by unfold modThr; split <;> rfl
@[simp] theorem modThr_dies (t : Tid) (f : Thread → Thread) : (s.modThr t f).dies = s.dies := by unfold modThr; split <;> rfl
@[simp] theorem modThr_ports (t : Tid) (f : Thread → Thread) : (s.modThr t f).ports = s.ports := by unfold modThr; split <;> rfl
@[simp] theorem modThr_turns (t : Tid) (f : Thread → Thread) : (s.modThr t f).turns = s.turns := by unfold modThr; split <;> rfl
@[simp] theorem modThr_lent (t : Tid) (f : Thread → Thread) : (s.modThr t f).lent = s.lent := by unfold modThr; split <;> rfl
@[simp] theorem modThr_mem (t : Tid) (f : Thread → Thread) : (s.modThr t f).mem = s.mem := by unfold modThr; split <;> rfl
@[simp] theorem modThr_hostMem (t : Tid) (f : Thread → Thread) : (s.modThr t f).hostMem = s.hostMem := by unfold modThr; split <;> rfl
@[simp] theorem modThr_msgs (t : Tid) (f : Thread → Thread) : (s.modThr t f).msgs = s.msgs := by unfold modThr; split <;> rfl
@[simp] theorem modThr_comb (t : Tid) (f : Thread → Thread) : (s.modThr t f).comb = s.comb := by unfold modThr; split <;> rfl
@[simp] theorem modThr_fab (t : Tid) (f : Thread → Thread) : (s.modThr t f).fab = s.fab := by unfold modThr; split <;> rfl
@[simp] theorem modThr_host (t : Tid) (f : Thread → Thread) : (s.modThr t f).host = s.host := by unfold modThr; split <;> rfl
@[simp] theorem modThr_recs (t : Tid) (f : Thread → Thread) : (s.modThr t f).recs = s.recs := by unfold modThr; split <;> rfl
@[simp] theorem modThr_homes (t : Tid) (f : Thread → Thread) : (s.modThr t f).homes = s.homes := by unfold modThr; split <;> rfl
@[simp] theorem modThr_saves (t : Tid) (f : Thread → Thread) : (s.modThr t f).saves = s.saves := by unfold modThr; split <;> rfl
@[simp] theorem modThr_snaps (t : Tid) (f : Thread → Thread) : (s.modThr t f).snaps = s.snaps := by unfold modThr; split <;> rfl

@[simp] theorem modCur_cfg (f : Port → Port) : (s.modCur f).cfg = s.cfg := by unfold modCur; split <;> rfl
@[simp] theorem modCur_now (f : Port → Port) : (s.modCur f).now = s.now := by unfold modCur; split <;> rfl
@[simp] theorem modCur_freeCtr (f : Port → Port) : (s.modCur f).freeCtr = s.freeCtr := by unfold modCur; split <;> rfl
@[simp] theorem modCur_voteCtr (f : Port → Port) : (s.modCur f).voteCtr = s.voteCtr := by unfold modCur; split <;> rfl
@[simp] theorem modCur_agenda (f : Port → Port) : (s.modCur f).agenda = s.agenda := by unfold modCur; split <;> rfl
@[simp] theorem modCur_iss (f : Port → Port) : (s.modCur f).iss = s.iss := by unfold modCur; split <;> rfl
@[simp] theorem modCur_threads (f : Port → Port) : (s.modCur f).threads = s.threads := by unfold modCur; split <;> rfl
@[simp] theorem modCur_cores (f : Port → Port) : (s.modCur f).cores = s.cores := by unfold modCur; split <;> rfl
@[simp] theorem modCur_clusters (f : Port → Port) : (s.modCur f).clusters = s.clusters := by unfold modCur; split <;> rfl
@[simp] theorem modCur_dies (f : Port → Port) : (s.modCur f).dies = s.dies := by unfold modCur; split <;> rfl
@[simp] theorem modCur_turns (f : Port → Port) : (s.modCur f).turns = s.turns := by unfold modCur; split <;> rfl
@[simp] theorem modCur_lent (f : Port → Port) : (s.modCur f).lent = s.lent := by unfold modCur; split <;> rfl
@[simp] theorem modCur_mem (f : Port → Port) : (s.modCur f).mem = s.mem := by unfold modCur; split <;> rfl
@[simp] theorem modCur_hostMem (f : Port → Port) : (s.modCur f).hostMem = s.hostMem := by unfold modCur; split <;> rfl
@[simp] theorem modCur_msgs (f : Port → Port) : (s.modCur f).msgs = s.msgs := by unfold modCur; split <;> rfl
@[simp] theorem modCur_comb (f : Port → Port) : (s.modCur f).comb = s.comb := by unfold modCur; split <;> rfl
@[simp] theorem modCur_fab (f : Port → Port) : (s.modCur f).fab = s.fab := by unfold modCur; split <;> rfl
@[simp] theorem modCur_host (f : Port → Port) : (s.modCur f).host = s.host := by unfold modCur; split <;> rfl
@[simp] theorem modCur_recs (f : Port → Port) : (s.modCur f).recs = s.recs := by unfold modCur; split <;> rfl
@[simp] theorem modCur_homes (f : Port → Port) : (s.modCur f).homes = s.homes := by unfold modCur; split <;> rfl
@[simp] theorem modCur_saves (f : Port → Port) : (s.modCur f).saves = s.saves := by unfold modCur; split <;> rfl
@[simp] theorem modCur_snaps (f : Port → Port) : (s.modCur f).snaps = s.snaps := by unfold modCur; split <;> rfl

/-! ### Threads -/

@[simp] theorem thr_setThr (t : Tid) (x : Thread) : (s.setThr t x).thr t = x := by simp [setThr, thr]
theorem thr_setThr_ne (t u : Tid) (x : Thread) (h : u ≠ t) : (s.setThr t x).thr u = s.thr u := by
  simp [setThr, thr, tgetD_tset_ne _ _ _ _ _ h]
@[simp] theorem live_setThr (t : Tid) (x : Thread) : (s.setThr t x).live t = true := by simp [setThr, live]
theorem live_setThr_ne (t u : Tid) (x : Thread) (h : u ≠ t) : (s.setThr t x).live u = s.live u := by
  simp [setThr, live, tget_tset_ne _ _ _ _ h]

theorem modThr_live {t : Tid} (f : Thread → Thread) (h : s.live t = true) : s.modThr t f = s.setThr t (f (s.thr t)) := by
  unfold live at h
  unfold modThr thr tgetD
  cases e : tget t s.threads with
  | none => simp [e] at h
  | some x => rfl

theorem modThr_dead {t : Tid} (f : Thread → Thread) (h : s.live t = false) : s.modThr t f = s := by
  unfold live at h
  unfold modThr
  cases e : tget t s.threads with
  | none => rfl
  | some x => simp [e] at h

@[simp] theorem setThr_setThr (t : Tid) (x y : Thread) : (s.setThr t x).setThr t y = s.setThr t y := by simp [setThr]

@[simp] theorem live_modThr (t u : Tid) (f : Thread → Thread) : (s.modThr t f).live u = s.live u := by
  by_cases h : s.live t = true
  · rw [modThr_live s f h]
    by_cases e : u = t
    · subst e; simp [h]
    · exact live_setThr_ne s t u _ e
  · rw [modThr_dead s f (by simpa using h)]

theorem thr_modThr {t : Tid} (f : Thread → Thread) (h : s.live t = true) : (s.modThr t f).thr t = f (s.thr t) := by
  rw [modThr_live s f h]; simp

theorem thr_modThr_ne {t u : Tid} (f : Thread → Thread) (h : u ≠ t) : (s.modThr t f).thr u = s.thr u := by
  by_cases e : s.live t = true
  · rw [modThr_live s f e, thr_setThr_ne s t u _ h]
  · rw [modThr_dead s f (by simpa using e)]

theorem modThr_modThr (t : Tid) (f g : Thread → Thread) : (s.modThr t f).modThr t g = s.modThr t fun x => g (f x) := by
  by_cases h : s.live t = true
  · rw [modThr_live _ g (by simpa using h), modThr_live s f h, modThr_live s _ h]; simp
  · have h' : s.live t = false := by simpa using h
    rw [modThr_dead s f h', modThr_dead s g h', modThr_dead s _ h']

/-! ### Cores and ports -/

@[simp] theorem core_setCore (c : Nat) (x : Core) : (s.setCore c x).core c = x := by simp [setCore, core]
@[simp] theorem core_modCore (c : Nat) (f : Core → Core) : (s.modCore c f).core c = f (s.core c) := by simp [modCore]
theorem core_modCore_ne {c d : Nat} (f : Core → Core) (h : d ≠ c) : (s.modCore c f).core d = s.core d := by
  simp [modCore, setCore, core, tgetD_tset_ne _ _ _ _ _ h]

@[simp] theorem port_setPort (k : Nat) (p : Port) : (s.setPort k p).port k = p := by simp [setPort, port]
@[simp] theorem port_modPort (k : Nat) (f : Port → Port) : (s.modPort k f).port k = f (s.port k) := by simp [modPort]

theorem cur_modCur {k : Nat} (f : Port → Port) (h : s.iss = some k) : (s.modCur f).cur = f s.cur := by
  simp [modCur, cur, h, modPort, setPort, port]

theorem modCur_modCur (f g : Port → Port) : (s.modCur f).modCur g = s.modCur fun p => g (f p) := by
  unfold modCur
  cases h : s.iss with
  | none => simp [h]
  | some k => simp [h, modPort, setPort, port]

@[simp] theorem cur_modThr (t : Tid) (f : Thread → Thread) : (s.modThr t f).cur = s.cur := by simp [cur, port]
@[simp] theorem cur_modCore (c : Nat) (f : Core → Core) : (s.modCore c f).cur = s.cur := rfl
@[simp] theorem thr_modCur (f : Port → Port) (t : Tid) : (s.modCur f).thr t = s.thr t := by simp [thr]
@[simp] theorem live_modCur (f : Port → Port) (t : Tid) : (s.modCur f).live t = s.live t := by simp [live]
@[simp] theorem core_modCur (f : Port → Port) (c : Nat) : (s.modCur f).core c = s.core c := by simp [core]
@[simp] theorem core_modThr (t : Tid) (f : Thread → Thread) (c : Nat) : (s.modThr t f).core c = s.core c := by simp [core]
@[simp] theorem thr_modCore (c : Nat) (f : Core → Core) (t : Tid) : (s.modCore c f).thr t = s.thr t := rfl
@[simp] theorem live_modCore (c : Nat) (f : Core → Core) (t : Tid) : (s.modCore c f).live t = s.live t := rfl

theorem modThr_modCur (t : Tid) (f : Thread → Thread) (g : Port → Port) : (s.modThr t f).modCur g = (s.modCur g).modThr t f := by
  unfold modThr modCur
  cases h : s.iss <;> cases e : tget t s.threads <;> simp [h, e, setThr, modPort, setPort, port]

end State

end Sys2Proof.Machine
end

