-- ==== Sys2Proof/Laws/Issue.lean ====
section
/-! SUPPORT. What a word does for a pack of one thread (R95, R122 to R124). -/

namespace Sys2Proof.Machine

variable {α β : Type}

theorem cur_iss (s t : State) (h : t.iss = s.iss) (hp : t.ports = s.ports) : t.cur = s.cur := by
  unfold State.cur State.port; rw [h, hp]

theorem actors_solo {s : State} {T : Tid} {x : Pfx} (h : Solo s T x) : actors s x s.cur.pack = [T] := by
  simp [actors, h.pack, h.act]

theorem ready_free (o : WordOp α β) (s : State) (T : Tid) (hr : o.rdBusy s [T] T = false) (hw : o.wrBusy s T = false) :
    o.ready s [T] T [T] = (s, true) := by
  simp [WordOp.ready, hr, hw]

/-- What a word leaves before its end, for one thread. -/
def WordOp.left (o : WordOp α β) (s : State) (T : Tid) : State × Option Tgt :=
  let a := o.rd s [T] T
  let b := o.eff a.1 T [T] a.2
  let s := o.put b.1 [T] b.2
  (s, o.tgt s T b.2)

theorem one_left (o : WordOp α β) (s : State) (T : Tid) :
    o.one s [T] T = (finish (o.left s T).1 T (o.left s T).2).modCur (markDone T) := rfl

theorem modThr_modCur_modThr (s : State) (T : Tid) (f g : Thread → Thread) (h : Port → Port) :
    ((s.modThr T f).modCur h).modThr T g = (s.modThr T fun x => g (f x)).modCur h := by
  rw [← State.modThr_modCur, State.modThr_modThr]

/-- The end of a word where the port stands at it with T alone (R95). -/
theorem ended_eq {s : State} {T : Tid} {g : Option Tgt} {k cost : Nat} (hi : s.iss = some k) (hp : s.cur.pack = [T])
    (hd : s.cur.done = []) :
    ended s T g cost = (s.modThr T (passed s.cur g)).modCur (nextWord cost) := by
  have hc : ((finish s T g).modCur (markDone T)).cur = markDone T s.cur := by
    rw [State.cur_modCur _ _ (k := k) (by simp [finish, hi])]; simp [finish]
  have ha : atLast (markDone T s.cur) = atLast s.cur := rfl
  have hh : (markDone T s.cur).hdr = s.cur.hdr := rfl
  have hn : ∀ p : Port, nextWord cost (markDone T p) = nextWord cost p := fun _ => rfl
  unfold ended endWord
  simp only [hc, ha, hh]
  have h1 : (markDone T s.cur).pack = [T] := hp
  have h2 : (markDone T s.cur).done = [T] := by simp [markDone, hd]
  simp only [h1, h2, List.foldl_cons, List.foldl_nil, List.contains_cons, beq_self_eq_true, Bool.true_or, if_true]
  cases hy : atLast s.cur
  · have : passed s.cur g = passOn s.cur g := by funext y; simp only [passed, hy, Bool.false_eq_true, if_false]
    simp only [Bool.false_eq_true, if_false, finish, State.modCur_modCur, hn, this]
  · have : passed s.cur g = fun y => endClause (s.cur.hdr.getLsbD 36) (passOn s.cur g y) := by funext y; simp only [passed, hy, if_true]
    simp only [if_true, endClauses, List.foldl_cons, List.foldl_nil, finish, modThr_modCur_modThr, State.modCur_modCur, hn, this]

theorem opCost_solo (T : Tid) (c : Nat) : opCost [T] T c = max 1 c := by
  unfold opCost
  by_cases h : laneOf T % 2 = 1 <;> simp [h]

theorem upset_calm {s : State} (T : Tid) (h : s.cur.upset = false) : upset s T = false := by simp [upset, h]

/-- A word for a pack of one thread that may proceed, in the state s1 that its wait leaves: reads, effect, write, end. -/
theorem act_ready (o : WordOp α β) {s s1 : State} {T : Tid} (x : Pfx) (endc : Bool) (c : Nat)
    (ha : s.cur.acts = some [T]) (hp : s.cur.pack = [T]) (hd : s.cur.done = []) (hu : s.cur.upset = false) (hu1 : s1.cur.upset = false)
    (ho : s.cur.old = []) (ho1 : s1.cur.old = []) (hr : o.ready s [T] T [T] = (s1, true)) :
    o.act x endc c s = ended (o.left s1 T).1 T (o.left s1 T).2 (max 1 (c + o.extra s [T] T)) := by
  have h0 : upset s T = false := upset_calm T hu
  have h1 : upset s1 T = false := upset_calm T hu1
  unfold WordOp.act
  simp only [ha, Option.getD_some, hp, List.contains_cons, beq_self_eq_true, Bool.true_or, List.filter_cons_of_pos, List.filter_nil, h0,
    Bool.false_eq_true, if_false, hr, if_true]
  cases x.u
  · cases endc
    · simp only [Bool.false_eq_true, if_false, WordOp.stream, hd, List.contains_nil, Bool.not_false, List.filter_cons_of_pos, List.filter_nil,
        h0, hr, if_true, List.isEmpty_nil, opCost_solo]
      rfl
    · simp only [Bool.false_eq_true, if_false, if_true, WordOp.whole, hd, List.contains_nil, Bool.not_false, List.filter_cons_of_pos,
        List.filter_nil, ho, List.isEmpty_nil, WordOp.readyAll, hr, Bool.true_or, Bool.and_self, Bool.not_true, Bool.and_false, h1,
        WordOp.oneOfAll, ho1, opCost_solo]
      rfl
  · simp only [if_true, WordOp.uniform, List.foldl_cons, List.foldl_nil]
    rfl

/-- The effect of a word as its class has it (R213). -/
def gated (g : Gate) (o : WordOp α β) : WordOp α β := if engineClass g then o.noReplay else o

theorem gated_free {g : Gate} (o : WordOp α β) (h : engineClass g = false) : gated g o = o := by simp [gated, h]
theorem gated_engine {g : Gate} (o : WordOp α β) (h : engineClass g = true) : gated g o = o.noReplay := by simp [gated, h]
@[simp] theorem gated_rdBusy (g : Gate) (o : WordOp α β) : (gated g o).rdBusy = o.rdBusy := by unfold gated; split <;> rfl
@[simp] theorem gated_wrBusy (g : Gate) (o : WordOp α β) : (gated g o).wrBusy = o.wrBusy := by unfold gated; split <;> rfl

/-- Where an opened word stands. -/
theorem opened_cur {s : State} {T : Tid} (h : s.iss.isSome = true) : (opened s T).cur = begin_ [T] s.cur := by
  obtain ⟨k, hk⟩ := Option.isSome_iff_exists.1 h
  exact State.cur_modCur _ _ hk

@[simp] theorem gated_extra (g : Gate) (o : WordOp α β) : (gated g o).extra = o.extra := by unfold gated; split <;> rfl
@[simp] theorem gated_wait (g : Gate) (o : WordOp α β) : (gated g o).wait = o.wait := by unfold gated; split <;> rfl
theorem gated_ready (g : Gate) (o : WordOp α β) (s : State) (acts : List Tid) (t : Tid) (ws : List Tid) :
    (gated g o).ready s acts t ws = o.ready s acts t ws := by
  unfold WordOp.ready; simp only [gated_rdBusy, gated_wrBusy, gated_wait]

/-- What a word does for a pack of one thread that its checks let pass, once its wait leaves nothing to hold it. -/
theorem runWord_ready (g : Gate) (o : WordOp α β) {s s1 : State} {T : Tid} {x : Pfx} (endc : Bool) (c : Nat) (h : Solo s T x)
    (hwait : g.wait s [T] [T] = false) (hg : gateTrap s g x [T] = none) (hu : s1.cur.upset = false)
    (ho : s1.cur.old = []) (hr : o.ready (opened s T) [T] T [T] = (s1, true)) :
    runWord g x endc c o s
      = ended ((gated g o).left s1 T).1 T ((gated g o).left s1 T).2 (max 1 (c + o.extra (opened s T) [T] T)) := by
  have hc : (s.modCur (begin_ [T])).cur = begin_ [T] s.cur := opened_cur h.port
  have hact := act_ready (gated g o) (s := s.modCur (begin_ [T])) (T := T) x endc c (by simp [hc, begin_])
    (by simp [hc, begin_, h.pack]) (by simp [hc, begin_, h.fresh]) (by simp [hc, begin_, h.calm]) hu (by simp [hc, begin_]) ho (by rw [gated_ready]; exact hr)
  have hacts := actors_solo h
  rw [h.pack] at hacts
  unfold runWord
  simp only [h.first, h.pack, hacts, hwait, hg, Bool.false_eq_true, if_false]
  rw [gated_extra] at hact
  exact hact

/-- The same where nothing holds the word. -/
theorem runWord_solo (g : Gate) (o : WordOp α β) {s : State} {T : Tid} {x : Pfx} (endc : Bool) (c : Nat) (h : Solo s T x)
    (hwait : g.wait s [T] [T] = false) (hg : gateTrap s g x [T] = none)
    (hr : o.rdBusy (opened s T) [T] T = false) (hw : o.wrBusy (opened s T) T = false) :
    runWord g x endc c o s
      = ended ((gated g o).left (opened s T) T).1 T ((gated g o).left (opened s T) T).2 (max 1 (c + o.extra (opened s T) [T] T)) :=
  runWord_ready g o endc c h hwait hg (by rw [opened_cur h.port]; exact h.calm) (by rw [opened_cur h.port]; rfl) (ready_free o _ T hr hw)

/-- A word without checks runs (R58). -/
theorem gate_free {s : State} {T : Tid} {x : Pfx} : gateTrap s {} x [T] = none := by
  simp [gateTrap, admitted]

/-- The checks that let a word pass (R58). -/
theorem gate_pass {s : State} {T : Tid} {x : Pfx} {g : Gate} (hc : admitted s.cur.hdr g.cls = true)
    (hl : g.last = true → atLast s.cur = true) (hs : g.sup = true → anyUser s s.cur.pack = false)
    (hb : g.bad s [T] s.cur.pack = false) (hk : g.brk = none) (hw : g.watch s [T] = []) : gateTrap s g x [T] = none := by
  unfold gateTrap
  cases h : g.last <;> cases h2 : g.sup <;> simp_all

/-- A word outside the engine classes that its checks let pass (R58, R213). -/
theorem word_gate {o : WordOp α β} {s : State} {T : Tid} {x : Pfx} {g : Gate} (endc : Bool) (c : Nat) (h : Solo s T x)
    (hwt : g.wait s [T] [T] = false) (hg : gateTrap s g x [T] = none) (hc : engineClass g = false)
    (hr : o.rdBusy (opened s T) [T] T = false) (hw : o.wrBusy (opened s T) T = false)
    (he : o.extra (opened s T) [T] T = 0 := by rfl) :
    runWord g x endc c o s = ended (o.left (opened s T) T).1 T (o.left (opened s T) T).2 (max 1 c) := by
  rw [runWord_solo g o endc c h hwt hg hr hw, gated_free _ hc, he, Nat.add_zero]

/-- A word that no check guards. -/
theorem word_solo {o : WordOp α β} {s : State} {T : Tid} {x : Pfx} (endc : Bool) (c : Nat) (h : Solo s T x)
    (hr : o.rdBusy (opened s T) [T] T = false) (hw : o.wrBusy (opened s T) T = false)
    (he : o.extra (opened s T) [T] T = 0 := by rfl) :
    runWord {} x endc c o s = ended (o.left (opened s T) T).1 T (o.left (opened s T) T).2 (max 1 c) :=
  word_gate endc c h rfl gate_free rfl hr hw he

end Sys2Proof.Machine
end

