-- ==== Sys2Proof/Laws/Mem.lean ====
section
/-! SUPPORT. Every memory operation keeps the canonical form of a memory. -/

namespace Sys2Proof.Machine

/-! ### Rising lists -/

theorem rising_mono {l : List Nat} {b c : Nat} (h : risingFrom c l = true) (hb : b ≤ c) : risingFrom b l = true := by
  cases l with
  | nil => rfl
  | cons a l => simp only [risingFrom, Bool.and_eq_true, decide_eq_true_eq] at h ⊢; exact ⟨by omega, h.2⟩

theorem rising_ge {l : List Nat} {b : Nat} (h : risingFrom b l = true) : ∀ a ∈ l, b ≤ a := by
  induction l generalizing b with
  | nil => intro a ha; cases ha
  | cons c l ih =>
    simp only [risingFrom, Bool.and_eq_true, decide_eq_true_eq] at h
    intro a ha
    rcases List.mem_cons.mp ha with rfl | ha
    · exact h.1
    · have := ih h.2 a ha; omega

theorem rising_natIns {l : List Nat} {b a : Nat} (h : risingFrom b l = true) (hb : b ≤ a) : risingFrom b (natIns a l) = true := by
  induction l generalizing b with
  | nil => simp [natIns, risingFrom, hb]
  | cons c l ih =>
    simp only [risingFrom, Bool.and_eq_true, decide_eq_true_eq] at h
    unfold natIns
    split
    · simp only [risingFrom, Bool.and_eq_true, decide_eq_true_eq]; exact ⟨hb, by omega, h.2⟩
    · split
      · simp only [risingFrom, Bool.and_eq_true, decide_eq_true_eq]; exact h
      · simp only [risingFrom, Bool.and_eq_true, decide_eq_true_eq]; exact ⟨h.1, ih h.2 (by omega)⟩

theorem rising_natDel {l : List Nat} {b a : Nat} (h : risingFrom b l = true) : risingFrom b (natDel a l) = true := by
  induction l generalizing b with
  | nil => rfl
  | cons c l ih =>
    simp only [risingFrom, Bool.and_eq_true, decide_eq_true_eq] at h
    unfold natDel
    split
    · exact rising_mono h.2 (by omega)
    · simp only [risingFrom, Bool.and_eq_true, decide_eq_true_eq]; exact ⟨h.1, ih h.2⟩

theorem rising_filter {l : List Nat} {b : Nat} (p : Nat → Bool) (h : risingFrom b l = true) : risingFrom b (l.filter p) = true := by
  induction l generalizing b with
  | nil => rfl
  | cons c l ih =>
    simp only [risingFrom, Bool.and_eq_true, decide_eq_true_eq] at h
    rw [List.filter_cons]
    split
    · simp only [risingFrom, Bool.and_eq_true, decide_eq_true_eq]; exact ⟨h.1, ih h.2⟩
    · exact rising_mono (ih h.2) (by omega)

theorem rising_append {l k : List Nat} {b c : Nat} (hl : risingFrom b l = true) (hc : ∀ a ∈ l, a < c) (hk : risingFrom c k = true)
    (hb : b ≤ c) : risingFrom b (l ++ k) = true := by
  induction l generalizing b with
  | nil => exact rising_mono hk hb
  | cons a l ih =>
    simp only [risingFrom, Bool.and_eq_true, decide_eq_true_eq, List.cons_append] at hl ⊢
    have := hc a (List.mem_cons_self ..)
    exact ⟨hl.1, ih hl.2 (fun x hx => hc x (List.mem_cons_of_mem _ hx)) (by omega)⟩

/-! ### Cells -/

/-- Cells from a bound on: rising addresses, no byte that an unlisted address would read as. -/
def cellsOk (b : Nat) (l : List Host.Cell) : Prop := risingFrom b (l.map Prod.fst) = true ∧ ∀ c ∈ l, c.2 ≠ 0

theorem wf_iff (m : Memory) : m.wf = true ↔ cellsOk 0 m.bytes ∧ risingFrom 0 m.tags = true := by
  simp [Memory.wf, cellsOk, and_assoc]

theorem cellsOk_set {l : List Host.Cell} {b a : Nat} (v : Byte) (h : cellsOk b l) (hb : b ≤ a) : cellsOk b (cellSet a v l) := by
  induction l generalizing b with
  | nil =>
    unfold cellSet
    split
    · exact h
    · exact ⟨by simp [risingFrom, hb], by simpa using ‹_›⟩
  | cons p l ih =>
    obtain ⟨c, d⟩ := p
    obtain ⟨h1, h2⟩ := h
    simp only [List.map_cons, risingFrom, Bool.and_eq_true, decide_eq_true_eq] at h1
    have hd : d ≠ 0 := h2 (c, d) (List.mem_cons_self ..)
    have hl : ∀ x ∈ l, x.2 ≠ 0 := fun x hx => h2 x (List.mem_cons_of_mem _ hx)
    unfold cellSet
    split
    · split
      · exact ⟨by simpa [risingFrom] using h1, h2⟩
      · refine ⟨?_, ?_⟩
        · simp only [List.map_cons, risingFrom, Bool.and_eq_true, decide_eq_true_eq]; exact ⟨hb, by omega, h1.2⟩
        · intro x hx
          rcases List.mem_cons.mp hx with rfl | hx
          · assumption
          · exact h2 x hx
    · split
      · split
        · exact ⟨rising_mono h1.2 (by omega), hl⟩
        · refine ⟨?_, ?_⟩
          · simp only [List.map_cons, risingFrom, Bool.and_eq_true, decide_eq_true_eq]
            exact ⟨hb, rising_mono h1.2 (by omega)⟩
          · intro x hx
            rcases List.mem_cons.mp hx with rfl | hx
            · assumption
            · exact hl x hx
      · have q := ih ⟨h1.2, hl⟩ (by omega)
        refine ⟨?_, ?_⟩
        · simp only [List.map_cons, risingFrom, Bool.and_eq_true, decide_eq_true_eq]; exact ⟨h1.1, q.1⟩
        · intro x hx
          rcases List.mem_cons.mp hx with rfl | hx
          · exact hd
          · exact q.2 x hx

theorem map_fst_filter (l : List Host.Cell) (p : Nat → Bool) : (l.filter fun c => p c.1).map Prod.fst = (l.map Prod.fst).filter p := by
  induction l with
  | nil => rfl
  | cons c l ih => by_cases h : p c.1 = true <;> simp [h, ih]

theorem cellsOk_filter {l : List Host.Cell} {b : Nat} (p : Nat → Bool) (h : cellsOk b l) : cellsOk b (l.filter fun c => p c.1) :=
  ⟨by rw [map_fst_filter]; exact rising_filter p h.1, fun c hc => h.2 c (List.mem_filter.mp hc).1⟩

theorem cellsOk_append {l k : List Host.Cell} {b c : Nat} (hl : cellsOk b l) (hc : ∀ a ∈ l, a.1 < c) (hk : cellsOk c k) (hb : b ≤ c) :
    cellsOk b (l ++ k) := by
  refine ⟨?_, ?_⟩
  · rw [List.map_append]
    refine rising_append hl.1 ?_ hk.1 hb
    intro a ha
    obtain ⟨x, hx, rfl⟩ := List.mem_map.mp ha
    exact hc x hx
  · intro x hx
    rcases List.mem_append.mp hx with h | h
    · exact hl.2 x h
    · exact hk.2 x h

theorem rising_cells {l : List Host.Cell} {b : Nat} (p : Host.Cell → Bool) (h : risingFrom b (l.map Prod.fst) = true) :
    risingFrom b ((l.filter p).map Prod.fst) = true := by
  induction l generalizing b with
  | nil => rfl
  | cons c l ih =>
    simp only [List.map_cons, risingFrom, Bool.and_eq_true, decide_eq_true_eq] at h
    rw [List.filter_cons]
    split
    · simp only [List.map_cons, risingFrom, Bool.and_eq_true, decide_eq_true_eq]; exact ⟨h.1, ih h.2⟩
    · exact rising_mono (ih h.2) (by omega)

theorem cellsOk_word (a : Nat) (b0 b1 b2 b3 : Byte) :
    cellsOk a ([(a, b0), (a + 1, b1), (a + 2, b2), (a + 3, b3)].filter fun c => c.2 != 0) :=
  ⟨rising_cells _ (by simp [risingFrom]), fun c hc => by simpa using (List.mem_filter.mp hc).2⟩

theorem cellsOk_words (w : Nat) (l : List Val) : cellsOk (4 * w) (wordCells w l) ∧ ∀ c ∈ wordCells w l, c.1 < 4 * (w + l.length) := by
  induction l generalizing w with
  | nil => exact ⟨⟨rfl, by simp [wordCells]⟩, by simp [wordCells]⟩
  | cons v l ih =>
    have q := ih (w + 1)
    unfold wordCells
    have lt : ∀ c ∈ ([(4 * w, BitVec.ofNat 8 v.bits), (4 * w + 1, BitVec.ofNat 8 (v.bits / 2 ^ 8)),
        (4 * w + 2, BitVec.ofNat 8 (v.bits / 2 ^ 16)), (4 * w + 3, BitVec.ofNat 8 (v.bits / 2 ^ 24))].filter fun c => c.2 != 0),
        c.1 < 4 * (w + 1) := by
      intro c hc
      have := (List.mem_filter.mp hc).1
      simp only [List.mem_cons, List.not_mem_nil, or_false] at this
      rcases this with rfl | rfl | rfl | rfl <;> simp <;> omega
    refine ⟨cellsOk_append (cellsOk_word _ _ _ _ _) lt q.1 (by omega), ?_⟩
    intro c hc
    rcases List.mem_append.mp hc with h | h
    · have := lt c h; simp only [List.length_cons]; omega
    · have := q.2 c h; simp only [List.length_cons]; omega

theorem rising_wordTags (w : Nat) (l : List Val) : risingFrom w (wordTags w l) = true ∧ ∀ t ∈ wordTags w l, t < w + l.length := by
  induction l generalizing w with
  | nil => exact ⟨rfl, by simp [wordTags]⟩
  | cons v l ih =>
    have q := ih (w + 1)
    cases v with
    | ok x =>
      refine ⟨rising_mono q.1 (by omega), ?_⟩
      intro t ht
      have := q.2 t ht; simp only [List.length_cons]; omega
    | bad k =>
      refine ⟨by simp only [wordTags, risingFrom, Bool.and_eq_true, decide_eq_true_eq]; exact ⟨Nat.le_refl _, q.1⟩, ?_⟩
      intro t ht
      rcases List.mem_cons.mp ht with rfl | ht
      · simp
      · have := q.2 t ht; simp only [List.length_cons]; omega

/-! ### Memory operations -/

namespace Memory

theorem wf_setByte {m : Memory} (a : Nat) (b : Byte) (h : m.wf = true) : (m.setByte a b).wf = true := by
  rw [wf_iff] at h ⊢
  exact ⟨cellsOk_set b h.1 (Nat.zero_le _), h.2⟩

theorem wf_setNum {m : Memory} (a v n : Nat) (h : m.wf = true) : (m.setNum a v n).wf = true := by
  induction n generalizing m a v with
  | zero => exact h
  | succ n ih => exact ih _ _ (wf_setByte _ _ h)

theorem wf_setWord {m : Memory} (w : Nat) (v : Val) (h : m.wf = true) : (m.setWord w v).wf = true := by
  have key : ∀ (x n : Nat), risingFrom 0 (m.setNum (4 * w) x n).tags = true := fun x n => ((wf_iff _).mp (wf_setNum _ x n h)).2
  have tags : ∀ (x n a : Nat) (m : Memory), (m.setNum a x n).tags = m.tags := by
    intro x n
    induction n generalizing x with
    | zero => intro a m; rfl
    | succ n ih => intro a m; exact ih _ _ _
  cases v with
  | ok x =>
    have q := (wf_iff _).mp (wf_setNum (4 * w) x 4 h)
    rw [wf_iff]
    refine ⟨q.1, rising_natDel ?_⟩
    have := q.2; rw [tags] at this; exact this
  | bad k =>
    have q := (wf_iff _).mp (wf_setNum (4 * w) k.toNat 4 h)
    rw [wf_iff]
    refine ⟨q.1, rising_natIns ?_ (Nat.zero_le _)⟩
    have := q.2; rw [tags] at this; exact this

theorem wf_setWords {m : Memory} (w : Nat) (l : List Val) (h : m.wf = true) : (m.setWords w l).wf = true := by
  rw [wf_iff] at h ⊢
  have hc := cellsOk_words w l
  have ht := rising_wordTags w l
  have up : ∀ (b : Nat) (k : List Nat), risingFrom 0 k = true → risingFrom b (k.filter fun t => decide (b ≤ t)) = true := by
    intro b k
    generalize 0 = z
    induction k generalizing z with
    | nil => intro _; rfl
    | cons c k ih =>
      intro hk
      simp only [risingFrom, Bool.and_eq_true, decide_eq_true_eq] at hk
      rw [List.filter_cons]
      split
      · rename_i hd
        simp only [decide_eq_true_eq] at hd
        simp only [risingFrom, Bool.and_eq_true, decide_eq_true_eq]
        exact ⟨hd, rising_filter _ hk.2⟩
      · exact ih _ hk.2
  refine ⟨?_, ?_⟩
  · refine cellsOk_append (cellsOk_filter (fun a => decide (a < 4 * w)) h.1) ?_ (cellsOk_append hc.1 hc.2 ⟨?_, ?_⟩ (by omega)) (Nat.zero_le _)
    · intro c hc
      simpa using (List.mem_filter.mp hc).2
    · have := map_fst_filter m.bytes fun a => decide (4 * (w + l.length) ≤ a)
      rw [this]; exact up _ _ h.1.1
    · intro c hc; exact h.1.2 c (List.mem_filter.mp hc).1
  · refine rising_append (rising_filter _ h.2) ?_ (rising_append ht.1 ht.2 (up _ _ h.2) (by omega)) (Nat.zero_le _)
    intro t ht
    simpa using (List.mem_filter.mp ht).2

theorem wf_clear {m : Memory} (a n : Nat) (h : m.wf = true) : (m.clear a n).wf = true := by
  rw [wf_iff] at h ⊢
  exact ⟨cellsOk_filter (fun x => !(decide (a ≤ x) && decide (x < a + n))) h.1, rising_filter _ h.2⟩

end Memory

/-- The memories of the machine right after reset are in canonical form. -/
theorem reset_memOk : State.reset.memOk := ⟨rfl, rfl, by intro p hp; cases hp⟩

/-- A write at a home keeps every memory in canonical form. -/
theorem memOk_homeWrite {s : State} (h : s.memOk) (by_ : Option Nat) (w : Nat) (v : Val) : (homeWrite s by_ w v).memOk := by
  have watch : ∀ (s : State) (line : Nat), s.memOk → (wakeWatch s line).memOk := by
    intro s line h
    refine ⟨h.1, h.2.1, ?_⟩
    intro p hp
    unfold wakeWatch at hp
    simp only [List.mem_map] at hp
    obtain ⟨q, hq, rfl⟩ := hp
    have := h.2.2 q hq
    split
    · unfold Core.ungate; split <;> exact this
    · exact this
  unfold homeWrite
  apply watch
  have base : ∀ (s : State), s.memOk → ∀ m, State.memOk { s with msgs := m } := fun s h m => h
  split <;> split <;>
    first
      | exact ⟨h.1, Memory.wf_setWord _ _ h.2.1, h.2.2⟩
      | exact ⟨Memory.wf_setWord _ _ h.1, h.2.1, h.2.2⟩

end Sys2Proof.Machine
end

