-- ==== Sys2Proof/Laws/Operands.lean ====
section
/-! SUPPORT. Operand reads and result writes of a word for a pack of one thread (R110, R113, R131). -/

namespace Sys2Proof.Machine

section
variable (s : State) (T : Tid)

@[simp] theorem opened_thr (t : Tid) : (opened s T).thr t = s.thr t := by simp [opened]
@[simp] theorem opened_live (t : Tid) : (opened s T).live t = s.live t := by simp [opened]
@[simp] theorem opened_core (c : Nat) : (opened s T).core c = s.core c := by simp [opened]
@[simp] theorem opened_now : (opened s T).now = s.now := by simp [opened]
@[simp] theorem opened_iss : (opened s T).iss = s.iss := by simp [opened]
@[simp] theorem opened_threads : (opened s T).threads = s.threads := by simp [opened]
@[simp] theorem opened_mem : (opened s T).mem = s.mem := by simp [opened]
@[simp] theorem opened_cores : (opened s T).cores = s.cores := by simp [opened]
@[simp] theorem opened_fab : (opened s T).fab = s.fab := by simp [opened]
@[simp] theorem opened_host : (opened s T).host = s.host := by simp [opened]
@[simp] theorem opened_dies : (opened s T).dies = s.dies := by simp [opened]
end

theorem opened_addr {s : State} (T : Tid) (h : s.iss.isSome = true) : (opened s T).cur.addr = s.cur.addr := by
  rw [opened_cur h]; rfl

@[simp] theorem chainSrc_opened (s : State) (T : Tid) (acts : List Tid) (t : Tid) :
    chainSrc (opened s T) acts t = chainSrc s acts t := by
  unfold chainSrc; simp

@[simp] theorem srcThread_opened (s : State) (T : Tid) (acts : List Tid) (t : Tid) (ax : Exch) (e : Nat) :
    srcThread (opened s T) acts t ax e = srcThread s acts t ax e := by
  unfold srcThread chainSrc; simp

@[simp] theorem busyX_opened (s : State) (T : Tid) (acts : List Tid) (t : Tid) (lo n : Nat) (ax : Exch) (e : Nat) :
    busyX (opened s T) acts t lo n ax e = busyX s acts t lo n ax e := by
  unfold busyX; simp

theorem peek_opened {s : State} {T : Tid} (r : Src) (h : s.iss.isSome = true) (acts : List Tid) (t : Tid) :
    r.peek (opened s T) acts t = r.peek s acts t := by
  unfold Src.peek peekX carryOf
  simp only [opened_addr T h, srcThread_opened, chainSrc_opened, opened_thr]

theorem busySrcs_free {s : State} {T : Tid} {rs : List Src} (h : unheld s T rs) : busySrcs rs (opened s T) [T] T = false := by
  unfold busySrcs
  rw [List.any_eq_false]
  intro r hr
  simpa [Src.busy] using h r hr

/-- A write by the word at the port, for one thread (R110). -/
theorem putAll_solo (s : State) (T : Tid) (lo n : Nat) (v : Val) : putAll s s.cur.addr lo n v none [T] = wrote s T lo n v := by
  unfold putAll wrote
  by_cases h : lo + n ≤ (s.thr T).alloc
  · have h' : ¬ lo + n > (s.thr T).alloc := by omega
    simp [h, h', putAll]
  · have h' : lo + n > (s.thr T).alloc := by omega
    simp [h, h', putAll]

theorem settleRes_operated (s : State) (T : Tid) (rs : List Src) (f : List Nat → Res) :
    settleRes (readSrcs [T] T rs (opened s T)).1 T f (readSrcs [T] T rs (opened s T)).2 = operated s T rs f := rfl

/-- An ALU word for a pack of one thread: its operands read, its result written (R96, R110, R113, R131). -/
theorem aluWord_solo {s : State} {T : Tid} {x : Pfx} {d : Opd} {rs : List Src} (cost : Nat) (f : List Nat → Res) (h : Solo s T x)
    (hf : aluFree s T d rs) : aluWord x d rs cost none f s = aluDone s T d rs cost f := by
  unfold aluWord
  rw [word_solo (o := aluOp d rs none f) _ _ h (busySrcs_free hf.1) (by simpa [aluOp, idle] using hf.2)]
  unfold WordOp.left aluDone
  simp only [aluOp, putAll_solo, settleRes_operated]

/-- The same of a word whose result comes late (R132). -/
theorem aluWord_late {s : State} {T : Tid} {x : Pfx} {d : Opd} {rs : List Src} (lat : Nat) (f : List Nat → Res) (h : Solo s T x)
    (hf : aluFree s T d rs) : aluWord x d rs 1 (some lat) f s = lateDone s T d rs lat f := by
  unfold aluWord
  rw [word_solo (o := aluOp d rs (some lat) f) _ _ h (busySrcs_free hf.1) (by simpa [aluOp, idle] using hf.2)]
  rfl

theorem putPred_solo (s : State) (p : Nat) (v : Bool) (T : Tid) : putPred s p v [T] = s.modThr T fun y => y.setPred p v := rfl

/-- A word that writes a predicate, for a pack of one thread (R116, R131). -/
theorem predWord_solo {s : State} {T : Tid} {x : Pfx} (d : Opd) {rs : List Src} (f : List Nat → Bool) (h : Solo s T x)
    (hf : unheld s T rs) : predWord x d rs f s = predDone s T d.start.toNat rs f := by
  unfold predWord
  rw [word_solo (o := predOp d.start.toNat rs f) _ _ h (busySrcs_free hf) rfl]
  unfold WordOp.left predDone
  simp only [predOp, putPred_solo]
  cases lowTok (readSrcs [T] T rs (opened s T)).2 <;> rfl

end Sys2Proof.Machine
end

