-- ==== Sys2Proof/Laws/Words.lean ====
section
/-! SUPPORT. What a word of one thread leaves, kind by kind: control transfers, loads, engine words, commands. -/

namespace Sys2Proof.Machine

/-- One operand read. -/
theorem read1 (s : State) (T : Tid) (r : Src) : readSrcs [T] T [r] s = ((r.read s [T] T).1, [(r.read s [T] T).2]) := rfl

/-- A source of a word that nothing holds. -/
theorem src_busy {s : State} {T : Tid} {r : Src} (h : unheld s T [r]) : r.busy (opened s T) [T] T = false := by
  have := h r (by simp); simpa [Src.busy] using this

/-- A control transfer of one thread at the end of its clause (R146). -/
theorem jump_solo {j : Jump} {s : State} {T : Tid} {x : Pfx} (h : Solo s T x) (hl : atLast s.cur = true)
    (hr : j.op.rdBusy (opened s T) [T] T = false) (hw : j.op.wrBusy (opened s T) T = false)
    (hr' : j.op.rdBusy s [T] T = false) (hw' : j.op.wrBusy s T = false) :
    j.run x s = ended (j.op.left (opened s T) T).1 T (j.op.left (opened s T) T).2 (1 + crossCost j.src.toList) := by
  unfold Jump.run
  have hm : max 1 (1 + crossCost j.src.toList) = 1 + crossCost j.src.toList := by omega
  have hg : gateTrap s ({ last := true } : Gate) x [T] = none := gate_pass rfl (fun _ => hl) (by simp) rfl rfl rfl
  cases hu : x.u
  · simp only [Bool.false_eq_true, if_false]
    rw [word_gate (g := { last := true }) (o := j.op) _ _ h rfl hg rfl hr hw, hm]
  · simp only [if_true]
    unfold Jump.uniform
    have h0 : upset s T = false := upset_calm T h.calm
    have ha : (s.cur.pack.filter fun t => actsOn x (s.thr t)) = [T] := by simp [h.pack, h.act]
    simp only [ha, hg]
    simp only [List.any_cons, List.any_nil, hr', hw', Bool.or_self, Bool.false_eq_true, if_false]
    simp only [h.pack, List.length_singleton, WordOp.reads, h0, List.map_cons, List.map_nil, List.all_cons, List.head?_cons, beq_self_eq_true,
      List.all_nil, Bool.and_true, Bool.not_false, Bool.false_eq_true, if_false, h.first, Option.isSome_none, and_self, if_true]
    rfl

/-- RaisePoison leaves the issuing port. -/
theorem raiseIn_cur (s : State) (c : Nat) (t : Tid) (pc : W64) (k : Nat) (a : W64) (o : Option Nat) : (raiseIn s c t pc k a o).1.cur = s.cur := by
  unfold raiseIn; dsimp only; split <;> rfl

theorem raise_cur (s : State) (t : Tid) (k : Nat) (a : W64) : (raise s t k a).1.cur = s.cur := raiseIn_cur ..

theorem settle_cur (s : State) (t : Tid) (p : Peek) : (settle s t p).1.cur = s.cur := by
  cases p <;> first | rfl | exact raise_cur ..

theorem read_cur (r : Src) (s : State) (acts : List Tid) (t : Tid) : (r.read s acts t).1.cur = s.cur := settle_cur ..

theorem cleanEa_opened {s : State} {T : Tid} (f : MForm) (h : s.iss.isSome = true) (acts : List Tid) (t : Tid) :
   cleanEa f (opened s T) acts t = cleanEa f s acts t := by unfold cleanEa; rw [peek_opened _ h]

@[simp] theorem reqFull_opened (s : State) (T : Tid) (c : Nat) : reqFull (opened s T) c = reqFull s c := by unfold reqFull; simp

theorem memgate_pass {s : State} {T : Tid} {x : Pfx} {f : MForm} {ks : List Nat} {n : Nat} (h : unwatched s T f ks n) :
   gateTrap s (memGate f ks n) x [T] = none := gate_pass rfl (by simp [memGate]) (by simp [memGate]) rfl rfl h.2

theorem memcost (f : MForm) : max 1 (memCost f) = 1 + crossCost [mA f] := by unfold memCost; omega

/-- A load of one thread (R202 to R204). -/
theorem load_solo {s : State} {T : Tid} {f : MForm} {d : LdSpec} {ks : List Nat} {n : Nat} (h : Solo s T f.x) (hu : unheld s T [mA f]) (hr : reqFull s (coreOf T) = false)
   (hw : unwatched s T f ks n) (hd : ∀ e ∈ d.els, idle s T e.lo e.n)
   (hf : ∀ ea, cleanEa f s [T] T = some ea → ∀ e ∈ d.els, fillBusy (opened s T) T (ea + BitVec.ofNat 64 e.off) d.bits = false) :
   runWord (memGate f ks n) f.x (mA f).endc (memCost f) (loadOp f d) s = ended (match ((mA f).read (opened s T) [T] T).2 with
      | .bad k => putLoaded ((mA f).read (opened s T) [T] T).1 [T] d (d.els.map fun e => ⟨e, 0, .tok k⟩)
      | .ok b => putLoaded (loadEls d T (eaOf f b) d.els ((mA f).read (opened s T) [T] T).1).1 [T] d (loadEls d T (eaOf f b) d.els ((mA f).read (opened s T) [T] T).1).2) T none
        (1 + crossCost [mA f]) := by
  rw [word_gate (g := memGate f ks n) (o := loadOp f d) _ _ h hw.1 (memgate_pass hw) rfl ?_ ?_, memcost]
  · unfold WordOp.left
    simp only [loadOp]
    generalize (mA f).read (opened s T) [T] T = a
    obtain ⟨a1, a2⟩ := a
    cases a2 <;> rfl
  · simp only [loadOp, src_busy hu, reqFull_opened, hr, Bool.false_or, cleanEa_opened f h.port]
    cases e : cleanEa f s [T] T with
    | none => rfl
    | some ea => simp only [List.any_eq_false]; intro x hx; simpa using hf ea e x hx
  · simp only [loadOp, List.any_eq_false]; intro x hx; simpa [idle] using hd x hx

/-- A word that its clause admits passes its checks. -/
theorem class_pass {s : State} {T : Tid} {x : Pfx} {n : Nat} (hc : inClass s n) : gateTrap s ({ cls := some n } : Gate) x [T] = none := by
  have : admitted s.cur.hdr (some n) = true := by unfold admitted; simpa [inClass] using hc
  exact gate_pass this (by simp) (by simp) rfl rfl rfl

theorem engineOk {n : Nat} (h : 1 ≤ n) (h' : n ≤ 4) (g : Gate) (hg : g.cls = some n) : engineClass g = true := by
  unfold engineClass; simp [hg, h, h']

theorem noReplay_cur (s : State) (ts : List Tid) : (noReplay s ts).cur = s.cur := by
  induction ts generalizing s with
  | nil => rfl
  | cons t ts ih => unfold noReplay; simp only [List.foldl_cons]; exact (ih _).trans (State.cur_modThr ..)

/-- A word of an engine, run by one thread (R213). -/
theorem engine_word {α β : Type} {o : WordOp α β} {s : State} {T : Tid} {x : Pfx} {n : Nat} (e : Bool) (c : Nat) (h : Solo s T x) (h1 : 1 ≤ n) (h4 : n ≤ 4) (hc : inClass s n)
  (hr : o.rdBusy (opened s T) [T] T = false) (hw : o.wrBusy (opened s T) T = false) (he : o.extra (opened s T) [T] T = 0 := by rfl) :
  runWord { cls := some n } x e c o s = ended (o.noReplay.left (opened s T) T).1 T (o.noReplay.left (opened s T) T).2 (max 1 c) := by
  rw [runWord_solo { cls := some n } o e c h rfl (class_pass hc) hr hw, gated_engine _ (engineOk h1 h4 _ rfl), he, Nat.add_zero]

/-- An engine's word that answers at once. -/
theorem strVal_solo {s : State} {T : Tid} {x : Pfx} {n : Nat} {d : Opd} {rs : List Src} (e : Bool) (g : State → Tid → List Nat → State × Nat) (h : Solo s T x) (h1 : 1 ≤ n) (h4 : n ≤ 4) (hc : inClass s n)
  (hf : aluFree s T d rs) : runWord { cls := some n } x e (1 + crossCost rs) (strValOp d rs g) s = engineDone s T d rs (fun u l => g u T l) := by
  rw [engine_word e _ h h1 h4 hc (busySrcs_free hf.1) (by simpa [strValOp, idle] using hf.2)]
  unfold WordOp.left engineDone engaged
  simp only [strValOp, WordOp.noReplay, putAll_solo]
  all_goals (cases lowTok (readSrcs [T] T rs (opened s T)).2 <;> rfl)

theorem recordAll_solo (s : State) (T : Tid) (k : Tok) : recordAll s [T] k = recordDrop s T k := rfl

/-- A command of one thread (R13, R20, R298). -/
theorem cmd_solo {s : State} {T : Tid} {x : Pfx} {n : Nat} (q : CmdIssue) (h : Solo s T x) (h1 : 1 ≤ n) (h4 : n ≤ 4) (hc : inClass s n)
  (hf : cmdFree s T q.cls q.fut q.rs) (hq : q.full (opened s T) (coreOf T) = false) (hn : ∀ u id l, (q.add u T [T] id l).2 = none) :
  cmdWord n false x q s = commanded s T q.cls q.fut q.rs (fun u id l => (q.add u T [T] id l).1) := by
  obtain ⟨hu, hk, hd⟩ := hf
  unfold cmdWord
  rw [engine_word _ _ h h1 h4 hc ?_ ?_]
  · unfold WordOp.left commanded engaged
    simp only [cmdOp, WordOp.noReplay]
    cases e : lowTok (readSrcs [T] T q.rs (opened s T)).2 with
    | some k =>
      cases hfut : q.fut with
      | none => rfl
      | some d => simp [putHandle, putAll_solo]
    | none =>
      simp only [hn]
      cases hfut : q.fut with
      | none => rfl
      | some d => simp [putHandle, putAll_solo]
  · simp only [cmdOp, busySrcs_free hu, hq, Bool.false_or]
    cases hfut : q.fut with
    | none => rfl
    | some d => simp only [Option.isSome_some, Bool.true_and]; have := (hd d hfut).2; unfold futFull at *; simpa using this
  · simp only [cmdOp]
    have : countFull (opened s T) q.cls [T] = false := by unfold countFull; simp; exact hk
    rw [this]
    cases hfut : q.fut with
    | none => rfl
    | some d => simpa [idle] using (hd d hfut).1

end Sys2Proof.Machine
end

