-- ==== Sys2Proof/Machine/Assemble.lean ====
section
/-! DEFINITION. The words and records that the assembler makes of its lines (R63 to R69, R71 to R77). Source text is the tool's. -/

namespace Sys2Proof.Machine

/-- An instruction's word; none where phas refuses it (R63). -/
def asm (i : Instr) : Option W64 := if i.wf then encode i else none

/-- The prefix of a word that every thread acts on. -/
def always : Pfx := ⟨false, 7, false⟩

/-- The operators a0 to a3 (R64, R65). -/
def piece (k v : Nat) : BitVec 20 := BitVec.ofNat 20 (v % 2 ^ 64 / 2 ^ (20 * k))

/-- LA sD.64, v (R64), of an absolute value; a relocatable one leaves the fields to PIECE0 to PIECE3 (`Stmt.la`). -/
def laWords (d : BitVec 9) (v : Nat) : List Instr :=
  let f := fun (k : Nat) => ({ x := always, d := ⟨d, 7⟩, a := Opd.zero, ax := .self, imm := piece k v } : IForm)
  [.movi true (f 0), .movh 0 (f 1), .movh 1 (f 2), .movh 2 (f 3)]

/-- .leg gA:gB, and .leg none (R74, R211). -/
def legLine (g : Option (Nat × Nat)) : Instr :=
  let f := fun (d : Opd) => ({ x := always, d := d, a := Opd.zero, ax := .self, b := Opd.zero, bx := .self, r4 := false, e := 0 } : RForm)
  match g with
  | none => .leg 0 true (f Opd.zero)
  | some (a, b) => .leg (BitVec.ofNat 4 (b - a)) false (f ⟨BitVec.ofNat 9 (8 * a), 0⟩)

/-- .endleg live=gA:gB, recover at `disp` 8-byte units, replay (R74, R214). -/
def endlegLine (a b : Nat) (disp : BitVec 32) (replay : Bool) : Instr :=
  let f : BForm := { x := always, fld := BitVec.ofNat 15 (a * 2 ^ 9 + b * 2 ^ 3 + if replay then 1 else 0), disp := disp }
  if replay then .commitR f else .commit f

/-- TEAMLOG of a team size (R73). -/
def teamLog (n : Nat) : Nat := if n = 0 then 0 else (((List.range 12).find? fun k => decide (n ≤ 2 ^ k)).getD 11) + 1

/-- The entry word of .entry's keys (R72, R73). -/
def entryWordOf (width prio need team : Nat) : Nat :=
  0xE17A * 2 ^ 48 + teamLog team * 2 ^ 12 + ceilDiv (need - 128) 32 * 2 ^ 8 + prio * 2 ^ 4 + width

/-- The shape word of .tile (R75). -/
def shapeWordOf (rows cols bits : Nat) (planes : Bool) : Nat :=
  rows + cols * 2 ^ 16 + bits * 2 ^ 32 + if planes then 2 ^ 40 else 0

/-- The record of .last as a number; dimensions (extent, stride, bound), innermost first (R75, R294). -/
def lastRecord (base ebits pad padval : Nat) (dims : List (Nat × Int × Option Nat)) : Nat :=
  base + ebits * 2 ^ 64 + dims.length * 2 ^ 72 + pad * 2 ^ 80 + padval * 2 ^ 128
    + (dims.zipIdx.map fun p =>
        (p.1.1 + (p.1.2.2.getD p.1.1) * 2 ^ 16 + (p.1.2.1 % 2 ^ 32).toNat * 2 ^ 32) * 2 ^ (8 * 0x18 + 64 * p.2)).sum

/-- The record of .method (R76). -/
def methodRecord (slot : Nat) (body : List W64) : List W64 := BitVec.ofNat 64 (slot + body.length * 2 ^ 8) :: body

/-- The record of .rose: a line's port entries, none where dark (R77). -/
def roseRecord (slots : List (List (Option Nat))) : List W64 :=
  let half := fun (l : List (Option Nat)) =>
    BitVec.ofNat 64 ((l.zipIdx.map fun p => (match p.1 with | some d => d + 2 ^ 15 | none => 0) * 2 ^ (16 * p.2)).sum)
  BitVec.ofNat 64 slots.length :: slots.flatMap fun l => [half (l.take 4), half ((l.drop 4).take 4)]

/-- An item of .byte, .half, .word or .dword, n bits; none where nonzero bits would be lost (R71). -/
def dataItem (n : Nat) (v : Int) : Option (List Byte) :=
  if n = 64 ∨ (-(2 ^ (n - 1) : Int) ≤ v ∧ v < 2 ^ n) then
    some ((List.range (n / 8)).map fun i => BitVec.ofNat 8 ((v % 2 ^ n).toNat / 2 ^ (8 * i)))
  else none

/-- What pads TEXT: a header of class 7, which traps where it is reached (R69). -/
def textPad : W64 := 0xE000000000000000

/-! ### Text sections (R66 to R69, R72) -/

/-- The keys of .clause; a key not given is none (R67): the class, the waits ws, wm, wc and wf, yld and pwd. -/
structure ClauseKeys where
  cls : Option (BitVec 3) := none
  ws : Option (BitVec 4) := none
  wm : Option (BitVec 4) := none
  wc : Option (BitVec 4) := none
  wf : Option (BitVec 4) := none
  yld : Bool := false
  pwd : Option (BitVec 3) := none
  deriving DecidableEq, Repr

/-- The header's wait enables and thresholds: a given wait sets the bit and the nibble of its class (R16, R67). -/
def ClauseKeys.wen (k : ClauseKeys) : BitVec 4 :=
  BitVec.ofBool k.ws.isSome ++ BitVec.ofBool k.wm.isSome ++ BitVec.ofBool k.wc.isSome ++ BitVec.ofBool k.wf.isSome
def ClauseKeys.wth (k : ClauseKeys) : BitVec 16 := k.ws.getD 0 ++ k.wm.getD 0 ++ k.wc.getD 0 ++ k.wf.getD 0

/-- What a line of a TEXT section holds: an instruction, one whose immediate is filled in and checked later, a word of .dword, .f64 or .inst, a label, or a directive. -/
inductive Line where
  | ins (i : Instr)
  | unset (i : Instr)
  | word (w : W64)
  | label
  | clause (k : ClauseKeys)
  | width (w : BitVec 3)
  | entry (width : BitVec 3) (prio need team : Nat)
  deriving DecidableEq, Repr

/-- Assembly under way: finished words, the clause under way with its class once fixed, the current width, and the labels'
positions in words. -/
structure Text where
  out : List W64 := []
  keys : Option ClauseKeys := none
  cls : Option (BitVec 3) := none
  pwd : BitVec 3 := 0
  words : List W64 := []
  width : BitVec 3 := 0
  labels : List Nat := []
  deriving DecidableEq, Repr

/-- The clause under way ends; a clause without words keeps its keys and makes no header. -/
def Text.flush (a : Text) : Text :=
  if a.words.isEmpty then a
  else
    let k := a.keys.getD {}
    let h : Header := { cls := a.cls.getD 0, cnt := BitVec.ofNat 4 (a.words.length - 1), wen := k.wen, wth := k.wth, yld := k.yld, pwd := a.pwd }
    { a with out := a.out ++ h.toWord :: a.words, keys := none, cls := none, words := [] }

/-- The class that an opcode fixes, none below 0x80 and from 0xF0 (R66). -/
def fixesClass (opc : Nat) : Option (BitVec 3) :=
  if opc < 0x80 ∨ 0xF0 ≤ opc then none else [1#3, 2#3, 3#3, 4#3, 5#3].find? fun c => classAdmits c opc

/-- A word put into the clause under way, or into a new one where that is full or does not admit it (R66, R67). -/
def Text.put (a : Text) (w : W64) (fix : Option (BitVec 3)) : Option Text :=
  let add := fun (a : Text) =>
    let k := a.keys.getD {}
    let a := if a.words.isEmpty then { a with pwd := k.pwd.getD a.width, cls := k.cls } else a
    { a with words := a.words ++ [w], cls := if a.cls.isSome then a.cls else fix }
  let k := a.keys.getD {}
  let now := if a.words.isEmpty then k.cls else a.cls
  let clash := match now, fix with | some c, some d => c != d | _, _ => false
  if a.words.length < 16 ∧ !clash then some (add a)
  else if a.keys.isSome then none
  else some (add a.flush)

/-- Control transfers end their clause (R32, R66). -/
def endsClause (opc : Nat) : Bool := [0x40, 0x41, 0x42, 0x43, 0x44, 0x45, 0x48, 0x51, 0x71, 0xE1].contains opc

def Text.mark (a : Text) : Text := { a with labels := a.labels ++ [a.out.length] }

/-- An instruction's word put into its clause, which it has not ended yet; then the clause ended where it is a control transfer. -/
def Text.ins (a : Text) (w : Option W64) : Option Text := w.bind fun w => a.put w (fixesClass (opcodeOf w))
def Text.over (a : Text) : Text := if endsClause (opcodeOf (a.words.getLastD 0)) then a.flush else a

/-- One line; none where it is an error. A `.clause` with no word yet keeps its keys across an entry word (DESIGN CHOICE, assumption 75). -/
def Text.line (a : Text) : Line → Option Text
  | .ins i => (a.ins (asm i)).map Text.over
  | .unset i => (a.ins (encode i)).map Text.over
  | .word w => a.put w none
  | .label => some a.flush.mark
  | .clause k => some { a.flush with keys := some k }
  | .width w => some { a with width := w }
  | .entry w p n t =>
    let a := a.flush
    some ({ a with out := a.out ++ [BitVec.ofNat 64 (entryWordOf w.toNat p n t)], width := w }).mark

/-- The words of a TEXT section, and the positions of its labels and entries (R66). -/
def assemble (l : List Line) : Option (List W64 × List Nat) :=
  (l.foldlM Text.line {}).map fun a => (a.flush.out, a.labels)

end Sys2Proof.Machine
end

