-- ==== Sys2Proof/Machine/Image.lean ====
section
/-! DEFINITION. Object files and the loader's part (R78 to R84, R376): which images it refuses, and the bytes that it writes, each
by a host write (R380). -/

namespace Sys2Proof.Machine

/-- n little-endian bytes of a file from an offset; bytes past its end read zero. -/
def fileNum (f : List Byte) (o n : Nat) : Nat := ((f.drop o).take n).foldr (fun b v => b.toNat + 256 * v) 0

/-- A section (R79). -/
structure Section where
  name : Nat := 0
  kind : Nat := 0
  flags : Nat := 0
  addr : Nat := 0
  size : Nat := 0
  foff : Nat := 0
  align : Nat := 0
  nrel : Nat := 0
  reloff : Nat := 0
  deriving DecidableEq, Repr

/-- A symbol (R80). -/
structure Symbol where
  name : Nat := 0
  sec : Nat := 0
  bind : Nat := 0
  type : Nat := 0
  value : Nat := 0
  size : Nat := 0
  deriving DecidableEq, Repr

/-- A relocation (R81). -/
structure Reloc where
  off : Nat := 0
  sym : Nat := 0
  type : Nat := 0
  cpos : Nat := 0
  addend : Nat := 0
  deriving DecidableEq, Repr

/-- An entry record (R82). -/
structure Entry where
  sym : Nat := 0
  width : Nat := 0
  prio : Nat := 0
  need : Nat := 0
  team : Nat := 0
  spare : Nat := 0
  deriving DecidableEq, Repr

def sectionAt (f : List Byte) (k : Nat) : Section :=
  let o := fileNum f 0x10 8 + 48 * k
  { name := fileNum f o 4, kind := fileNum f (o + 4) 2, flags := fileNum f (o + 6) 2, addr := fileNum f (o + 8) 8,
    size := fileNum f (o + 16) 8, foff := fileNum f (o + 24) 8, align := fileNum f (o + 32) 4, nrel := fileNum f (o + 36) 4,
    reloff := fileNum f (o + 40) 8 }
def sections (f : List Byte) : List Section := (List.range (fileNum f 0x0C 4)).map (sectionAt f)

def symbolAt (f : List Byte) (k : Nat) : Symbol :=
  let o := fileNum f 0x18 8 + 24 * k
  { name := fileNum f o 4, sec := fileNum f (o + 4) 2, bind := fileNum f (o + 6) 1, type := fileNum f (o + 7) 1,
    value := fileNum f (o + 8) 8, size := fileNum f (o + 16) 8 }
def symbols (f : List Byte) : List Symbol := (List.range (fileNum f 0x20 4)).map (symbolAt f)

def relocAt (f : List Byte) (s : Section) (k : Nat) : Reloc :=
  let o := s.reloff + 24 * k
  { off := fileNum f o 8, sym := fileNum f (o + 8) 4, type := fileNum f (o + 12) 2, cpos := fileNum f (o + 14) 2,
    addend := fileNum f (o + 16) 8 }
def relocs (f : List Byte) (s : Section) : List Reloc := (List.range s.nrel).map (relocAt f s)

def entryAt (f : List Byte) (k : Nat) : Entry :=
  let o := fileNum f 0x38 8 + 16 * k
  { sym := fileNum f o 4, width := fileNum f (o + 4) 1, prio := fileNum f (o + 5) 1, need := fileNum f (o + 6) 2,
    team := fileNum f (o + 8) 2, spare := fileNum f (o + 10) 6 }
def entries (f : List Byte) : List Entry := (List.range (fileNum f 0x24 4)).map (entryAt f)

/-- A section's 64-bit words as the file holds them. -/
def sectionWords (f : List Byte) (s : Section) : List Nat := (List.range (s.size / 8)).map fun i => fileNum f (s.foff + 8 * i) 8

/-- Whether the words of a METHOD section are records of R76; `n` bounds the records. -/
def methodsOk : Nat → List Nat → Bool
  | _, [] => true
  | 0, _ :: _ => false
  | n + 1, h :: ws =>
    let c := bitsOf h 13 8
    !methodHeadBad h (h % 64) && decide (c ≤ ws.length) && ((ws.take c).all fun w => bodyWordOk (BitVec.ofNat 64 w)) && methodsOk n (ws.drop c)

/-- The slots of the records in a METHOD section's words; `n` bounds the records (R76). -/
def methodSlots : Nat → List Nat → List Nat
  | _, [] => []
  | 0, _ :: _ => []
  | n + 1, h :: ws => h % 64 :: methodSlots n (ws.drop (bitsOf h 13 8))

/-- A port entry of R77: a peer with the valid bit, or zero. -/
def portEntryOk (v : Nat) : Bool := if v ≥ 2 ^ 15 then v / 2 ^ 12 % 8 == 0 else v == 0

/-- Whether the words of a ROSE section are records of R77. -/
def rosesOk : Nat → List Nat → Bool
  | _, [] => true
  | 0, _ :: _ => false
  | n + 1, h :: ws =>
    decide (1 ≤ h) && decide (h ≤ 64) && decide (2 * h ≤ ws.length)
      && ((ws.take (2 * h)).all fun w => (List.range 4).all fun i => portEntryOk (w / 2 ^ (16 * i) % 2 ^ 16))
      && rosesOk n (ws.drop (2 * h))

/-- Threads of a width code, 1 for any. -/
def widthOf (code : Nat) : Nat := if code = 0 then 1 else 8 * 2 ^ (code - 1)

/-- Bytes of address space that an image takes from its link base (R84). -/
def imageSpan (f : List Byte) : Nat := (sections f).foldl (fun m s => max m (s.addr + s.size - fileNum f 0x40 8)) 0

/-- The images that the loader refuses, `room` bytes granted (R84, R376). -/
def imageBad (f : List Byte) (room : Nat) : Bool :=
  fileNum f 0 4 != 0x004F4850 || fileNum f 6 2 != 0x9768 || fileNum f 5 1 != 1 || fileNum f 8 4 != 1
    || ((sections f).any fun s =>
      decide (s.kind = 0 ∨ 6 < s.kind ∨ 8 ≤ s.flags)
        || ((relocs f s).any fun r => decide (r.type = 0 ∨ 7 < r.type))
        || (s.kind == 5 && !methodsOk (s.size / 8) (sectionWords f s))
        || (s.kind == 6 && !rosesOk (s.size / 8) (sectionWords f s)))
    || decide (¬ ((sections f).flatMap fun s => if s.kind = 5 then methodSlots (s.size / 8) (sectionWords f s) else []).Nodup)
    || ((symbols f).any fun y => decide (7 < y.type))
    || ((entries f).any fun e => decide (e.need < 128 ∨ 512 < e.need ∨ 4 < e.width ∨ e.spare ≠ 0 ∨ 2048 < e.team)
        || e.team % widthOf e.width != 0)
    || decide (room < imageSpan f)

/-- A word's patch by a load relocation of value v (R81, R84): ABS64, ABS32, PIECE0 to PIECE3; none where v is out of range. -/
def patched (type w v : Nat) : Option (Nat × Nat) :=
  match type with
  | 1 => some (v % 2 ^ 64, 8)
  | 3 => if v < 2 ^ 32 then some (v, 4) else none
  | 4 | 5 | 6 | 7 => some (w / 2 ^ 20 * 2 ^ 20 + (piece (type - 4) v).toNat, 8)
  | _ => none

/-- DISP32 (R81): the word at P, H the clause header's address; none where the distance is out of range. -/
def patchedDisp (w sa p cpos : Nat) : Option Nat :=
  let d : Int := (sa : Int) - ((p : Int) - 8 * cpos)
  if d % 8 = 0 ∧ -(2 ^ 34) ≤ d ∧ d < 2 ^ 34 then some (w / 2 ^ 32 * 2 ^ 32 + (d / 8 % 2 ^ 32).toNat) else none

/-- Bytes with a little-endian number of n bytes written at o. -/
def patchBytes (b : List Byte) (o n v : Nat) : List Byte :=
  b.take o ++ ((List.range n).map fun i => BitVec.ofNat 8 (v / 2 ^ (8 * i))) ++ b.drop (o + n)

/-- A section's contents at a base: BSS zeroed, load relocations applied (R84). An image that still holds a DISP32, or an ABS32 whose sum
passes 2^32, is not loaded (DESIGN CHOICE, assumption 75). -/
def sectionBytes (f : List Byte) (base : Nat) (s : Section) : Option (List Byte) :=
  if s.kind = 4 then some (List.replicate s.size 0)
  else (relocs f s).foldlM (fun b r =>
    (patched r.type (fileNum b r.off 8) ((base + r.addend) % 2 ^ 64)).map fun p => patchBytes b r.off p.2 p.1)
    ((f.drop s.foff).take s.size)

/-- The W and SK bits of the leaves that the loader writes for a section (R84): no W for TEXT and RODATA, W for the other kinds, METHOD and
ROSE among them (DESIGN CHOICE, assumption 75). -/
def sectionLeaf (s : Section) : Bool × Bool := (s.kind != 1 && s.kind != 3, s.flags.testBit 2)

/-- An image loaded at a 64 KiB aligned base: each section's first address, bytes and leaf bits (R84). The base is never 0: the page at
virtual address 0 is not mapped (R261). -/
def loadImage (f : List Byte) (base room : Nat) : Option (List (Nat × List Byte × Bool × Bool)) :=
  if imageBad f room ∨ base % 2 ^ 16 ≠ 0 ∨ base = 0 then none
  else (sections f).mapM fun s =>
    (sectionBytes f base s).map fun b => (base + (s.addr - fileNum f 0x40 8), b, sectionLeaf s)

/-- The host writes that put a loaded section into memory, `pa` the physical address of each virtual one (R84, R380). -/
def loadWrites (pa : Nat → Nat) (sec : Nat × List Byte × Bool × Bool) : List Choice :=
  sec.2.1.zipIdx.map fun p => .ev (.hostWrite (pa (sec.1 + p.2)) 0 (p.1.setWidth 64))

end Sys2Proof.Machine
end

