-- ==== Sys2Proof/Machine/Link.lean ====
section
/-! DEFINITION. What phlink makes of objects (R70, R83): where it places sections, how symbols resolve, and the relocations that it
applies and keeps. -/

namespace Sys2Proof.Machine

/-- A zero-terminated name of the string table (R78). -/
def fileName (f : List Byte) (o : Nat) : List Byte := (((f.drop (fileNum f 0x28 8)).take (fileNum f 0x30 8)).drop o).takeWhile fun b => b != 0

/-- One object's section: the object's number, the section's number in it (R80 counts from 1), and where it is placed. -/
structure Placed where
  obj : Nat := 0
  sec : Nat := 0
  name : List Byte := []
  info : Section := {}
  addr : Nat := 0
  deriving DecidableEq, Repr

/-- The sections of objects in command-line order. -/
def allSections (fs : List (List Byte)) : List Placed :=
  fs.zipIdx.flatMap fun p => (sections p.1).zipIdx.map fun q =>
    { obj := p.2, sec := q.2 + 1, name := fileName p.1 q.1.name, info := q.1 }

def alignUp (a n : Nat) : Nat := ceilDiv a n * n

/-- One combined section from address a: its parts in order, each at its own alignment, and the address behind them (R83). -/
def placeParts (a : Nat) (l : List Placed) : List Placed × Nat :=
  l.foldl (fun r p =>
    let at_ := alignUp r.2 (2 ^ p.info.align)
    (r.1 ++ [{ p with addr := at_ }], at_ + p.info.size)) ([], a)

/-- The distinct members of a list in the order in which they first stand in it. -/
def firsts {α : Type} [DecidableEq α] (l : List α) : List α := l.foldl (fun r a => if r.contains a then r else r ++ [a]) []

/-- Every section placed from `base`: TEXT, RODATA, DATA, BSS, METHOD, ROSE, each combined section at a 64 KiB boundary (R83). Combined
sections of one kind stand in the order in which their names first appear (DESIGN CHOICE, assumption 75). -/
def placeAll (fs : List (List Byte)) (base : Nat) : List Placed :=
  let all := allSections fs
  ([1, 3, 2, 4, 5, 6].foldl (fun (r : List Placed × Nat) kind =>
    let own := all.filter fun p => p.info.kind == kind
    (firsts (own.map fun p => p.name)).foldl (fun (r : List Placed × Nat) n =>
      let q := placeParts (alignUp r.2 (2 ^ 16)) (own.filter fun p => p.name == n)
      (r.1 ++ q.1, q.2)) r) ([], base)).1

/-- A symbol with its object and name. -/
structure Named where
  obj : Nat := 0
  name : List Byte := []
  sym : Symbol := {}
  deriving DecidableEq, Repr

def allSymbols (fs : List (List Byte)) : List Named :=
  fs.zipIdx.flatMap fun p => (symbols p.1).map fun y => { obj := p.2, name := fileName p.1 y.name, sym := y }

/-- A defined symbol's address or absolute value (R80). -/
def definedAt (ps : List Placed) (y : Named) : Nat :=
  if y.sym.sec = 0xFFFF then y.sym.value
  else match ps.find? fun p => p.obj == y.obj && p.sec == y.sym.sec with
    | some p => p.addr + y.sym.value
    | none => y.sym.value

/-- The address a symbol resolves to: a global definition before a weak one; an unresolved weak reference is 0; none where it is
undefined (R70, R83). Of several weak definitions and no global one the first in command-line order is taken (DESIGN CHOICE, assumption
75). -/
def resolve (ps : List Placed) (ys : List Named) (y : Named) : Option Nat :=
  if y.sym.bind = 0 ∧ y.sym.sec ≠ 0 then some (definedAt ps y)
  else
    let defs := ys.filter fun d => d.name == y.name && d.sym.sec != 0 && d.sym.bind != 0
    match defs.find? fun d => d.sym.bind == 1 with
    | some d => some (definedAt ps d)
    | none => match defs with
      | d :: _ => some (definedAt ps d)
      | [] => if y.sym.bind = 2 then some 0 else none

/-- A load relocation that the image keeps: the address patched, its type, its word's place in its clause, and S + A − LINKBASE (R81, R83). -/
structure LoadReloc where
  addr : Nat := 0
  type : Nat := 0
  cpos : Nat := 0
  addend : Int := 0
  deriving DecidableEq, Repr

/-- One relocation applied to its section's bytes (R81); the load relocation kept, none for DISP32. -/
def applyReloc (ps : List Placed) (ys : List Named) (base : Nat) (p : Placed) (b : List Byte) (r : Reloc) :
    Option (List Byte × Option LoadReloc) :=
  let own := ys.filter fun y => y.obj == p.obj
  let s := if r.sym = 0 then some base else match own[r.sym]? with | some y => resolve ps ys y | none => none
  match s with
  | none => none
  | some s =>
    let v := (s + r.addend) % 2 ^ 64
    if r.type = 2 then
      (patchedDisp (fileNum b r.off 8) v (p.addr + r.off) r.cpos).map fun w => (patchBytes b r.off 8 w, none)
    else
      (patched r.type (fileNum b r.off 8) v).map fun q =>
        (patchBytes b r.off q.2 q.1, some { addr := p.addr + r.off, type := r.type, cpos := r.cpos, addend := (v : Int) - base })

/-- A section's linked bytes and load relocations. -/
def linkSection (fs : List (List Byte)) (ps : List Placed) (ys : List Named) (base : Nat) (p : Placed) :
    Option (List Byte × List LoadReloc) :=
  let f := fs.getD p.obj []
  let b := if p.info.kind = 4 then List.replicate p.info.size 0 else (f.drop p.info.foff).take p.info.size
  (relocs f p.info).foldlM (fun (r : List Byte × List LoadReloc) q =>
    (applyReloc ps ys base p r.1 q).map fun n => (n.1, r.2 ++ n.2.toList)) (b, [])

/-- Why a link fails before any relocation (R83): differing MACH, a second global definition, an undefined symbol, a method slot
defined twice, an entry record whose symbol is no entry of a TEXT section. -/
def linkBad (fs : List (List Byte)) (ps : List Placed) (ys : List Named) : Bool :=
  let globals := (ys.filter fun y => y.sym.bind == 1 && y.sym.sec != 0).map fun y => y.name
  let slots := ps.flatMap fun p => if p.info.kind = 5 then
    methodSlots (p.info.size / 8) (sectionWords (fs.getD p.obj []) p.info) else []
  decide ((fs.map fun f => fileNum f 6 2).dedup.length > 1) || !decide globals.Nodup
    || (ys.any fun y => !y.name.isEmpty && (resolve ps ys y).isNone) || !decide slots.Nodup
    || (fs.zipIdx.any fun p => (entries p.1).any fun e =>
        match (ys.filter fun y => y.obj == p.2)[e.sym]? with
        | none => true
        | some y => y.sym.type != 3 || !(ps.any fun q => q.obj == p.2 && q.sec == y.sym.sec && q.info.kind == 1))

/-- A linked image: each part placed, its bytes and the load relocations kept; none where the link fails (R83). -/
def link (fs : List (List Byte)) (base : Nat) : Option (List (Placed × List Byte × List LoadReloc)) :=
  let ps := placeAll fs base
  let ys := allSymbols fs
  if linkBad fs ps ys then none
  else ps.mapM fun p => (linkSection fs ps ys base p).map fun r => (p, r)

end Sys2Proof.Machine
end

