-- ==== Sys2Proof/Machine/Object.lean ====
section
/-! DEFINITION. The directives of phas and the files that phas and phlink write (R60, R64 to R83). A source line stands here as the tool
has read it: its characters, R60 to R62, are the tool's. -/

namespace Sys2Proof.Machine

abbrev Name := List Byte

/-- n little-endian bytes. -/
def leBytes (n v : Nat) : List Byte := (List.range n).map fun i => BitVec.ofNat 8 (v / 2 ^ (8 * i))

/-! ### Expressions (R60) -/

inductive BinOp where
  | add | sub | mul | div | rem | shl | shr | and_ | or_ | xor_
  deriving DecidableEq, Repr

inductive Ex where
  | num (v : Int)
  | sym (n : Name)
  | here
  | neg (a : Ex)
  | inv (a : Ex)
  | bin (o : BinOp) (a b : Ex)
  deriving DecidableEq, Repr

/-- What a value is counted from: nothing, a section's start, or a symbol. -/
inductive Base where
  | abs
  | sec (k : Nat)
  | sym (n : Name)
  deriving DecidableEq, Repr

/-- 64-bit two's complement. -/
def wrap64 (v : Int) : Int := toSigned 64 (v % 2 ^ 64).toNat

/-- A binary operator on absolute values, with C's division. R60 does not say that a shift by 64 or more and a division by zero are errors,
nor that `>>` fills with the sign (DESIGN CHOICE, assumption 75). -/
def BinOp.apply (o : BinOp) (a b : Int) : Option Int :=
  let n : Int → Nat := fun v => (v % 2 ^ 64).toNat
  match o with
  | .add => some (wrap64 (a + b))
  | .sub => some (wrap64 (a - b))
  | .mul => some (wrap64 (a * b))
  | .div => if b = 0 then none else some (wrap64 (a.tdiv b))
  | .rem => if b = 0 then none else some (wrap64 (a.tmod b))
  | .shl => if b < 0 ∨ 64 ≤ b then none else some (wrap64 (a * 2 ^ b.toNat))
  | .shr => if b < 0 ∨ 64 ≤ b then none else some (wrap64 (a / 2 ^ b.toNat))
  | .and_ => some (wrap64 ((n a &&& n b : Nat) : Int))
  | .or_ => some (wrap64 ((n a ||| n b : Nat) : Int))
  | .xor_ => some (wrap64 ((n a ^^^ n b : Nat) : Int))

/-- An expression's value: `look` gives a symbol's, `loc` the section and offset of what is defined here, `at_` the current word. A distance
within one section is absolute. -/
def Ex.eval (look : Name → Option (Base × Int)) (loc : Base → Option (Nat × Int)) (at_ : Nat × Nat) : Ex → Option (Base × Int)
  | .num v => some (.abs, wrap64 v)
  | .sym n => look n
  | .here => some (.sec at_.1, at_.2)
  | .neg a => match a.eval look loc at_ with | some (.abs, v) => some (.abs, wrap64 (-v)) | _ => none
  | .inv a => match a.eval look loc at_ with | some (.abs, v) => some (.abs, wrap64 (-v - 1)) | _ => none
  | .bin o a b => match o, a.eval look loc at_, b.eval look loc at_ with
    | o, some (.abs, v), some (.abs, w) => (o.apply v w).map fun r => (.abs, r)
    | .add, some (p, v), some (.abs, w) => some (p, wrap64 (v + w))
    | .add, some (.abs, v), some (q, w) => some (q, wrap64 (v + w))
    | .sub, some (p, v), some (.abs, w) => some (p, wrap64 (v - w))
    | .sub, some (p, v), some (q, w) => match loc p, loc q with
      | some (j, x), some (k, y) => if j = k then some (.abs, wrap64 (x + v - (y + w))) else none
      | _, _ => none
    | _, _, _ => none

/-! ### Statements -/

/-- A number of .f16, .f32, .f64 or .b8: an exact fraction, an infinity or the NaN (R71). -/
inductive Dec where
  | fin (neg : Bool) (n d : Nat)
  | inf (neg : Bool)
  | nan
  deriving DecidableEq, Repr

/-- A fraction as m × 2^e with at least p + 4 bits, the last of them set where anything lies below. -/
def ratMag (p n d : Nat) : Nat × Int :=
  let q := quoBits p n d
  (2 * q.1 + ofBool q.2.2, q.2.1 - 1)

/-- An item of .f64, .f32 or .f16, rounded once, RNE (R71). -/
def floatItem (f : Fmt) : Dec → Nat
  | .fin neg n d => let q := ratMag (f.fb + 1) n d; roundFmt f 0 false neg q.1 q.2
  | .inf neg => f.infBits neg
  | .nan => f.nanBits

/-- An item of .b8; none where R71 calls it an error: too large once rounded on the unbounded grid, negative in an unsigned domain, an
infinity that the domain lacks. -/
def b8Item (f : B8) : Dec → Option Nat
  | .fin neg n d =>
    if f.uns && neg && n != 0 then none
    else
      let q := ratMag f.p n d
      let r := roundMag f.p f.qmin 0 neg (fun b q => if f.p = 1 && b = 1 then (q + f.bias) % 2 == 1 else b % 2 == 1) q.1 q.2 false
      let c := if r.1 < 2 ^ (f.p - 1) then r.1 else (r.2 - f.qmin + 1).toNat * 2 ^ (f.p - 1) + (r.1 - 2 ^ (f.p - 1))
      if c > f.maxCode then none else some (f.roundFin 0 false neg q.1 q.2)
  | .inf neg => if f.finite || (f.uns && neg) then none else some (f.infCode neg)
  | .nan => some f.nanCode

/-- EBITS of a format name of .last (R75): zN and sN, fN, and every binary8 name. -/
inductive LastFmt where
  | int (n : Nat)
  | float (t : BitVec 2)
  | b8 (p : BitVec 3) (uns finite : Bool)
  deriving DecidableEq, Repr

def LastFmt.ebits : LastFmt → Option Nat
  | .int n => if n ∈ [1, 2, 4, 8, 16, 32, 64] then some n else none
  | .float t => if t = 3 then none else some (fmtOf t).bits
  | .b8 p _ _ => if p = 0 then none else some 8

/-- pad=zero, value:X or poison (R75, R294). -/
inductive PadKind where
  | zero
  | value (x : Nat)
  | poison
  deriving DecidableEq, Repr

def PadKind.code : PadKind → Nat × Nat
  | .zero => (0, 0)
  | .value x => (1, x)
  | .poison => (2, 0)

/-- Where an immediate operand stands (R61): IMM, IMM12, OFS, bits of MOD from `lo` on, or LUT3's table in SUB and MOD (R62). -/
inductive ImmAt where
  | imm | imm12 | ofs | table
  | mod (lo n : Nat)
  deriving DecidableEq, Repr

/-- The bits of an immediate operand in its word. -/
def ImmAt.bits : ImmAt → Nat
  | .imm => 20
  | .imm12 => 12
  | .ofs => 16
  | .table => 8
  | .mod _ n => n

/-- A word with an immediate operand's low bits in their place. -/
def ImmAt.put (f : ImmAt) (w v : Nat) : Nat :=
  let field := fun (lo n : Nat) (w v : Nat) => w / 2 ^ (lo + n) * 2 ^ (lo + n) + v % 2 ^ n * 2 ^ lo + w % 2 ^ lo
  match f with
  | .imm => field 0 20 w v
  | .imm12 => field 8 12 w v
  | .ofs => field 4 16 w v
  | .table => field 52 4 (field 0 4 w v) (v / 16)
  | .mod lo n => field lo n w v

/-- Whether an immediate operand is signed: a memory OFS, and IMM in the words whose SUB[3] is 0 and which the map gives no other use of it,
IADD, ICMP and MOVI (R41, R43, R49, R63). -/
def ImmAt.signed (f : ImmAt) (w : Nat) : Bool := match f with
  | .ofs => true
  | .imm => [0x01, 0x16, 0x19].contains (w / 2 ^ 56 % 2 ^ 8) && !w.testBit 55
  | _ => false

/-- An immediate operand filled in; none where it is out of range or makes a word that would trap UNDEF (R63). -/
def ImmAt.fill (f : ImmAt) (w : Nat) (v : Int) : Option Nat :=
  let n := f.bits
  let fits := if f.signed w then decide (-(2 ^ (n - 1) : Int) ≤ v) && decide (v < 2 ^ (n - 1)) else decide (0 ≤ v) && decide (v < 2 ^ n)
  let r := f.put w (v % 2 ^ n).toNat
  if fits && (decode (BitVec.ofNat 64 r)).isSome then some r else none

/-- What a fix-up puts into the bytes at its place: an item of n bits, a branch's DISP, or an immediate operand, plain or under one of the
operators a0 to a3 (R61, R65, R71, R81). -/
inductive FixKind where
  | item (n : Nat)
  | disp
  | imm (f : ImmAt) (piece : Option Nat)
  deriving DecidableEq, Repr

/-- A line of source as phas has read it: each directive of R67 to R77, an instruction with its label or piece operand, LA and a label. -/
inductive Stmt where
  | sect (name : Name) (kind : Nat) (stable : Bool)
  | align (n : Nat)
  | width (w : BitVec 3)
  | label (n : Name)
  | ins (i : Instr) (fix : Option (FixKind × Ex))
  | la (d : BitVec 9) (e : Ex)
  | global (n : Name)
  | weak (n : Name)
  | set (n : Name) (e : Ex)
  | size (n : Name) (e : Ex)
  | data (bits : Nat) (es : List Ex)
  | float (t : BitVec 2) (xs : List Dec)
  | b8 (f : B8) (xs : List Dec)
  | ascii (zero : Bool) (text : List Byte)
  | zero (n : Nat)
  | inst (w : W64)
  | clause (k : ClauseKeys)
  | entry (n : Name) (width : Option (BitVec 3)) (prio need team : Option Nat)
  | leg (g : Option (Nat × Nat))
  | endleg (a b : Nat) (recover : Ex) (replay : Bool)
  | tile (n : Name) (rows cols bits : Nat) (planes : Bool)
  | last (n : Name) (base : Ex) (fmt : LastFmt) (pad : PadKind) (dims : List (Nat × Int × Option Nat))
  | method (n : Name) (slot : Nat) (body : List (Instr × Option (FixKind × Ex)))
  | rose (n : Name) (slots : List (List (Option Nat)))
  deriving DecidableEq, Repr

/-! ### Assembly under way -/

/-- A fix-up: where, what, the word's position in its clause, and the expression. -/
structure FixUp where
  off : Nat := 0
  kind : FixKind := .disp
  cpos : Nat := 0
  e : Ex := .here
  deriving DecidableEq, Repr

/-- A section under way: a TEXT section's words, another section's bytes; `leg` while a leg is open (R74). -/
structure ASec where
  name : Name := []
  kind : Nat := 1
  stable : Bool := false
  text : Text := {}
  bytes : List Byte := []
  align : Nat := 3
  fixes : List FixUp := []
  leg : Bool := false
  deriving DecidableEq, Repr

/-- A symbol that a file defines (R80): its section from 1, or 0xFFFF with an expression and the place of its line. -/
structure ASym where
  name : Name := []
  sec : Nat := 0
  type : Nat := 0
  value : Nat := 0
  e : Ex := .num 0
  at_ : Nat × Nat := (0, 0)
  deriving DecidableEq, Repr

structure Asm where
  secs : List ASec := []
  cur : Nat := 0
  width : BitVec 3 := 0
  syms : List ASym := []
  globals : List Name := []
  weaks : List Name := []
  sizes : List (Name × (Nat × Nat) × Ex) := []
  ents : List (Name × Entry) := []
  slots : List Nat := []
  deriving DecidableEq, Repr

def ASec.words (x : ASec) : List W64 := x.text.flush.out

/-- The offset that the next byte or word takes. -/
def ASec.size (x : ASec) : Nat := if x.kind = 1 then 8 * x.words.length else x.bytes.length

def Asm.sec (a : Asm) : ASec := a.secs.getD a.cur {}
def Asm.putSec (a : Asm) (x : ASec) : Asm := { a with secs := a.secs.set a.cur x }

/-- A symbol defined; a second definition of the name is an error (R75). -/
def Asm.define (a : Asm) (y : ASym) : Option Asm :=
  if a.syms.any fun z => z.name == y.name then none else some { a with syms := a.syms ++ [y] }

/-- A line of TEXT put into the current section (R66, R67), `.width` being the file's; its word's fix-up stands at the word. -/
def Asm.text (a : Asm) (l : Line) (fix : Option (FixKind × Ex)) : Option Asm :=
  let x := a.sec
  let t : Text := { x.text with width := a.width }
  let word := match l with
    | .ins i => t.ins (asm i)
    | .unset i => t.ins (encode i)
    | .word w => t.put w none
    | _ => none
  let fixes := match fix, word with
    | some f, some u => [({ off := 8 * (u.out.length + u.words.length), kind := f.1, cpos := u.words.length, e := f.2 } : FixUp)]
    | _, _ => []
  if x.kind ≠ 1 then none
  else (t.line l).map fun t => a.putSec { x with text := t, fixes := x.fixes ++ fixes }

/-- Bytes put into a section that takes data (R71). -/
def Asm.bytes (a : Asm) (b : List Byte) (fix : Option (FixKind × Ex) := none) : Option Asm :=
  let x := a.sec
  if x.kind ≠ 2 ∧ x.kind ≠ 3 then none
  else some (a.putSec { x with
    bytes := x.bytes ++ b
    fixes := x.fixes ++ (fix.map fun f => { off := x.bytes.length, kind := f.1, cpos := 0, e := f.2 }).toList })

/-- One item of n bits: in TEXT only a 64-bit one, which is a word of the clause (R71). -/
def Asm.item (a : Asm) (n v : Nat) (fix : Option (FixKind × Ex) := none) : Option Asm :=
  if a.sec.kind = 1 then (if n = 64 then a.text (.word (BitVec.ofNat 64 v)) fix else none)
  else a.bytes (leBytes (n / 8) v) fix

/-- Padding to a multiple of n bytes (R69). In TEXT it ends the clause under way, whose words the padding's headers cannot be; where none is
needed the clause goes on (R68). -/
def Asm.alignTo (a : Asm) (n : Nat) : Option Asm :=
  let x := a.sec
  if n = 0 ∨ n ≠ 2 ^ Nat.log2 n ∨ 2 ^ 16 < n ∨ (x.kind = 1 ∧ n < 8) then none
  else
    let x := { x with align := max x.align (Nat.log2 n) }
    if x.kind = 1 then
      let t := x.text.flush
      let pad := (n / 8 - t.out.length % (n / 8)) % (n / 8)
      some (a.putSec (if pad = 0 then x else { x with text := { t with out := t.out ++ List.replicate pad textPad } }))
    else some (a.putSec { x with bytes := x.bytes ++ List.replicate ((n - x.bytes.length % n) % n) 0 })

/-- A label: in TEXT it starts a clause, whose header it names (R66). -/
def Asm.label (a : Asm) (n : Name) (type : Nat) : Option Asm := do
  let a ← if a.sec.kind = 1 then a.text .label none else pure a
  a.define { name := n, sec := a.cur + 1, type := type, value := a.sec.size }

/-- Whether a slot of .rose is a peer or dark (R77). -/
def slotOk (l : List (Option Nat)) : Bool := l.length == 8 && l.all fun p => match p with | some d => decide (d < 4096) | none => true

/-- One line of source; none where phas rejects it. -/
def Asm.stmt (a : Asm) (l : Stmt) : Option Asm :=
  let x := a.sec
  let at_ := (a.cur, x.size)
  match l with
  | .sect n kind stable =>
    if kind = 0 ∨ 6 < kind ∨ (stable ∧ kind ≠ 3) then none
    else match a.secs.findIdx? fun y => y.name == n && y.kind == kind with
      | some k => some { a with cur := k, secs := a.secs.modify k fun y => { y with stable := y.stable || stable } }
      | none => some { a with cur := a.secs.length, secs := a.secs ++ [{ name := n, kind := kind, stable := stable }] }
  | .align n => a.alignTo n
  | .width w => if w.toNat ≤ 4 then some { a with width := w } else none
  | .label n => a.label n (if x.kind = 1 then 1 else 2)
  | .ins i (some (.imm f p, e)) => a.text (.unset i) (some (.imm f p, e))
  | .ins i fix => a.text (.ins i) fix
  | .la d e => ((laWords d 0).zipIdx).foldlM (fun a p => a.text (.ins p.1) (some (.imm .imm (some p.2), e))) a
  | .global n => some { a with globals := a.globals ++ [n] }
  | .weak n => some { a with weaks := a.weaks ++ [n] }
  | .set n e => a.define { name := n, sec := 0xFFFF, e := e, at_ := at_ }
  | .size n e => some { a with sizes := a.sizes ++ [(n, at_, e)] }
  | .data bits es => if bits ∉ [8, 16, 32, 64] then none else es.foldlM (fun a e => a.item bits 0 (some (.item bits, e))) a
  | .float t xs => if t = 3 then none else xs.foldlM (fun a v => a.item (fmtOf t).bits (floatItem (fmtOf t) v)) a
  | .b8 f xs => if x.kind = 1 then none else xs.foldlM (fun a v => (b8Item f v).bind fun c => a.bytes [BitVec.ofNat 8 c]) a
  | .ascii z t => a.bytes (t ++ if z then [0] else [])
  | .zero n => if x.kind = 4 then some (a.putSec { x with bytes := x.bytes ++ List.replicate n 0 }) else a.bytes (List.replicate n 0)
  | .inst w => a.item 64 w.toNat
  | .clause k => if (k.pwd.getD 0).toNat ≤ 4 ∧ (k.cls.getD 0).toNat ≤ 5 then a.text (.clause k) none else none
  | .entry n w p need team =>
    let w := w.getD 0
    let p := p.getD 0
    let need := need.getD 128
    let team := team.getD 0
    if 4 < w.toNat ∨ 7 < p ∨ need < 128 ∨ 512 < need ∨ 2048 < team then none
    else do
      let a ← a.text (.entry w p need team) none
      let a ← a.define { name := n, sec := a.cur + 1, type := 3, value := a.sec.size }
      some { a with width := w, globals := a.globals ++ [n], ents := a.ents ++ [(n, { width := w.toNat, prio := p, need := need, team := team })] }
  | .leg g =>
    let ok := match g with | some (p, q) => decide (p ≤ q) && decide (q < 64) && decide (q - p ≤ 15) | none => true
    if x.leg ∨ !ok then none
    else (a.text (.ins (legLine g)) none).map fun a => a.putSec { a.sec with leg := true }
  | .endleg p q e replay =>
    if !x.leg ∨ q < p ∨ 63 < q then none
    else (a.text (.ins (endlegLine p q 0 replay)) (some (.disp, e))).map fun a => a.putSec { a.sec with text := a.sec.text.flush, leg := false }
  | .tile n r c b p =>
    if r = 0 ∨ 65535 < r ∨ c = 0 ∨ 65535 < c ∨ b = 0 ∨ 64 < b then none
    else a.define { name := n, sec := 0xFFFF, type := 7, e := .num (shapeWordOf r c b p) }
  | .last n base fmt pad dims =>
    if dims.isEmpty ∨ 5 < dims.length ∨ (dims.any fun d => decide (d.1 = 0 ∨ 65535 < d.1 ∨ d.1 < d.2.2.getD d.1 ∨ d.2.1 < -(2 ^ 31) ∨ 2 ^ 31 ≤ d.2.1)) then none
    else do
      let eb ← fmt.ebits
      let a ← a.alignTo 64
      let a ← a.define { name := n, sec := a.cur + 1, type := 6, value := a.sec.size }
      a.bytes (leBytes 64 (lastRecord 0 eb pad.code.1 pad.code.2 dims)) (some (.item 64, base))
  | .method n slot body => do
    let ws ← body.mapM fun b => if b.2.isSome then encode b.1 else asm b.1
    if x.kind ≠ 5 ∨ 63 < slot ∨ ws.isEmpty ∨ 48 < ws.length ∨ a.slots.contains slot ∨ !(ws.all bodyWordOk) then none
    else
      let a ← a.define { name := n, sec := a.cur + 1, type := 4, value := x.bytes.length }
      let fixes := body.zipIdx.filterMap fun b => b.1.2.map fun f => ({ off := x.bytes.length + 8 * (b.2 + 1), kind := f.1, e := f.2 } : FixUp)
      some { (a.putSec { x with
        bytes := x.bytes ++ (methodRecord slot ws).flatMap fun w => leBytes 8 w.toNat
        fixes := x.fixes ++ fixes }) with slots := a.slots ++ [slot] }
  | .rose n slots =>
    if x.kind ≠ 6 ∨ slots.isEmpty ∨ 64 < slots.length ∨ !(slots.all slotOk) then none
    else do
      let a ← a.define { name := n, sec := a.cur + 1, type := 5, value := x.bytes.length }
      some (a.putSec { x with bytes := x.bytes ++ (roseRecord slots).flatMap fun w => leBytes 8 w.toNat })

/-! ### Objects (R78 to R82) -/

structure OSec where
  name : Name := []
  kind : Nat := 1
  stable : Bool := false
  addr : Nat := 0
  align : Nat := 3
  bytes : List Byte := []
  rels : List Reloc := []
  deriving DecidableEq, Repr

/-- What a file holds: its symbols begin after the null symbol. -/
structure Obj where
  linked : Bool := false
  base : Nat := 0
  secs : List OSec := []
  syms : List (Name × Symbol) := []
  ents : List Entry := []
  deriving DecidableEq, Repr

/-- SFLAGS of a kind (R79). -/
def sflagsOf (kind : Nat) (stable : Bool) : Nat :=
  if kind = 1 then 2 else if kind = 2 ∨ kind = 4 then 1 else if kind = 3 ∧ stable then 4 else 0

/-- The string offset of each name, the first at `o`. -/
def nameOffs (o : Nat) : List Name → List Nat
  | [] => []
  | n :: l => (if n.isEmpty then 0 else o) :: nameOffs (if n.isEmpty then o else o + n.length + 1) l

/-- File offsets of consecutive parts. -/
def partOffs (o : Nat) : List Nat → List Nat
  | [] => []
  | n :: l => o :: partOffs (o + n) l

/-- The file: header, contents, section table, relocations, symbols, entry records, strings (R78 to R82); the order of the parts behind the
header is the model's (DESIGN CHOICE, assumption 75). -/
def writeObj (o : Obj) : List Byte :=
  let names := o.secs.map (fun x => x.name) ++ o.syms.map Prod.fst
  let strs := (0 : Byte) :: names.flatMap fun n => if n.isEmpty then [] else n ++ [0]
  let offs := nameOffs 1 names
  let ns := o.secs.length
  let file := fun (x : OSec) => if x.kind = 4 then [] else x.bytes
  let foff := partOffs 72 (o.secs.map fun x => (file x).length)
  let secOff := 72 + (o.secs.map fun x => (file x).length).sum
  let relOff := partOffs (secOff + 48 * ns) (o.secs.map fun x => 24 * x.rels.length)
  let symOff := secOff + 48 * ns + (o.secs.map fun x => 24 * x.rels.length).sum
  let entOff := symOff + 24 * (o.syms.length + 1)
  let strOff := entOff + 16 * o.ents.length
  let sym := fun (n : Nat) (y : Symbol) => leBytes 4 n ++ leBytes 2 y.sec ++ leBytes 1 y.bind ++ leBytes 1 y.type ++ leBytes 8 y.value ++ leBytes 8 y.size
  [0x50, 0x48, 0x4F, 0] ++ leBytes 2 0x100 ++ leBytes 2 0x9768 ++ leBytes 4 (ofBool o.linked) ++ leBytes 4 ns ++ leBytes 8 secOff
    ++ leBytes 8 symOff ++ leBytes 4 (o.syms.length + 1) ++ leBytes 4 o.ents.length ++ leBytes 8 strOff ++ leBytes 8 strs.length
    ++ leBytes 8 entOff ++ leBytes 8 o.base
    ++ o.secs.flatMap file
    ++ (o.secs.zipIdx.flatMap fun p =>
        leBytes 4 (offs.getD p.2 0) ++ leBytes 2 p.1.kind ++ leBytes 2 (sflagsOf p.1.kind p.1.stable) ++ leBytes 8 p.1.addr ++ leBytes 8 p.1.bytes.length
          ++ leBytes 8 (if p.1.kind = 4 then 0 else foff.getD p.2 0) ++ leBytes 4 p.1.align ++ leBytes 4 p.1.rels.length ++ leBytes 8 (relOff.getD p.2 0))
    ++ (o.secs.flatMap fun x => x.rels.flatMap fun r =>
        leBytes 8 r.off ++ leBytes 4 r.sym ++ leBytes 2 r.type ++ leBytes 2 r.cpos ++ leBytes 8 r.addend)
    ++ sym 0 {} ++ (o.syms.zipIdx.flatMap fun p => sym (offs.getD (ns + p.2) 0) p.1.2)
    ++ (o.ents.flatMap fun e => leBytes 4 e.sym ++ leBytes 1 e.width ++ leBytes 1 e.prio ++ leBytes 2 e.need ++ leBytes 2 e.team ++ leBytes 6 0)
    ++ strs

/-! ### The end of assembly -/

/-- Where what a value is counted from lies, when this file defines it. -/
def Asm.loc (a : Asm) : Base → Option (Nat × Int)
  | .abs => none
  | .sec k => some (k, 0)
  | .sym n => match a.syms.find? fun y => y.name == n with
    | some y => if y.sec = 0xFFFF then none else some (y.sec - 1, y.value)
    | none => none

/-- A name's value, .set expressions followed n deep, each at the place of its line: an absolute symbol's, or an offset of 0 from the symbol. -/
def Asm.look (a : Asm) : Nat → Name → Option (Base × Int)
  | 0, _ => none
  | k + 1, n => match a.syms.find? fun y => y.name == n with
    | some y => if y.sec = 0xFFFF then y.e.eval (a.look k) a.loc y.at_ else some (.sym n, 0)
    | none => some (.sym n, 0)

def Asm.eval (a : Asm) (at_ : Nat × Nat) (e : Ex) : Option (Base × Int) := e.eval (a.look (a.syms.length + 1)) a.loc at_

/-- The names that an expression uses. -/
def Ex.names : Ex → List Name
  | .sym n => [n]
  | .neg a | .inv a => a.names
  | .bin _ a b => a.names ++ b.names
  | .num _ | .here => []

/-- Names used and not defined: external (R70). -/
def Asm.externs (a : Asm) : List Name :=
  firsts ((a.secs.flatMap fun x => x.fixes.flatMap fun f => f.e.names) ++ a.globals ++ a.weaks) |>.filter fun n => !(a.syms.any fun y => y.name == n)

/-- The index of a base's symbol: the null symbol, one for each section, the file's, the external ones. -/
def Asm.symIndex (a : Asm) : Base → Nat
  | .abs => 0
  | .sec k => 1 + k
  | .sym n => 1 + a.secs.length + ((a.syms.map (fun y => y.name) ++ a.externs).findIdx fun m => m == n)

/-- A fix-up at the end: the patched bytes of an absolute value, or a relocation (R65, R71, R81); none where it is an error. PIECE fills IMM
alone, so a relocatable operator elsewhere is one (DEDUCED from R81, assumption 75). -/
def Asm.fix (a : Asm) (k : Nat) (r : List Byte × List Reloc) (f : FixUp) : Option (List Byte × List Reloc) := do
  let v ← a.eval (k, f.off) f.e
  let rel := fun (t : Nat) => (r.1, r.2 ++ [{ off := f.off, sym := a.symIndex v.1, type := t, cpos := f.cpos, addend := (v.2 % 2 ^ 64).toNat }])
  match f.kind, v.1 with
  | .item n, .abs => (dataItem n v.2).map fun b => (r.1.take f.off ++ b ++ r.1.drop (f.off + n / 8), r.2)
  | .item n, _ => if n = 64 then some (rel 1) else if n = 32 then some (rel 3) else none
  | .disp, .abs => if -(2 ^ 31 : Int) ≤ v.2 ∧ v.2 < 2 ^ 31 then
      some (patchBytes r.1 f.off 8 (fileNum r.1 f.off 8 / 2 ^ 32 * 2 ^ 32 + (v.2 % 2 ^ 32).toNat), r.2) else none
  | .disp, _ => some (rel 2)
  | .imm p n, .abs => do
    let w ← p.fill (fileNum r.1 f.off 8) (match n with | some n => (piece n (v.2 % 2 ^ 64).toNat).toNat | none => v.2)
    pure (patchBytes r.1 f.off 8 w, r.2)
  | .imm .imm (some n), _ =>
    if [0, 1].any fun i => (ImmAt.imm.fill (fileNum r.1 f.off 8) i).isSome then some (rel (4 + n)) else none
  | .imm .., _ => none

/-- A finished section. -/
def Asm.finish (a : Asm) (k : Nat) (x : ASec) : Option OSec := do
  let b := if x.kind = 1 then x.words.flatMap fun w => leBytes 8 w.toNat else x.bytes
  let r ← x.fixes.foldlM (a.fix k) (b, [])
  if x.leg then none
  else some { name := x.name, kind := x.kind, stable := x.stable, align := x.align, bytes := r.1, rels := r.2 }

/-- A symbol's entry (R70, R80): its size is what .size gives, else the distance to the next symbol of its section or to its end. A name that
is both .global and .weak is bound weak (DESIGN CHOICE, assumption 75). -/
def Asm.symbol (a : Asm) (y : ASym) : Option (Name × Symbol) := do
  let size := (a.sizes.find? fun z => z.1 == y.name).map fun z => a.eval z.2.1 z.2.2
  let ends := (a.syms.filter fun z => z.sec == y.sec && decide (y.value < z.value)).map fun z => z.value
  let next := ends.foldl min ((a.secs.getD (y.sec - 1) {}).size)
  let n ← match size with
    | some (some (.abs, v)) => some (v % 2 ^ 64).toNat
    | some _ => none
    | none => some (if y.sec = 0xFFFF then 0 else next - y.value)
  let v ← if y.sec = 0xFFFF then (match a.eval (a.cur, 0) (.sym y.name) with | some (.abs, v) => some (v % 2 ^ 64).toNat | _ => none) else some y.value
  pure (y.name, { sec := y.sec, bind := if a.weaks.contains y.name then 2 else ofBool (a.globals.contains y.name), type := y.type, value := v, size := n })

/-- phas: the object of a source file, none where it is rejected. Each section has an unnamed local symbol of type none, which what is counted
from the section's start relocates against (DESIGN CHOICE, assumption 75: R80 and R81 do not say how `.` is named). -/
def phas (l : List Stmt) : Option Obj := do
  let a ← l.foldlM Asm.stmt { secs := [{ name := [0x2E, 0x74, 0x65, 0x78, 0x74] }] }
  let secs ← a.secs.zipIdx.mapM fun p => a.finish p.2 p.1
  let own ← a.syms.mapM a.symbol
  let ext : List (Name × Symbol) := a.externs.map fun n => (n, { bind := if a.weaks.contains n then 2 else 1 })
  pure { secs := secs, syms := (a.secs.zipIdx.map fun p => (([] : Name), ({ sec := p.2 + 1 } : Symbol))) ++ own ++ ext
         ents := a.ents.map fun e => { e.2 with sym := a.symIndex (.sym e.1) } }

/-! ### phlink's image (R83) -/

/-- The combined section that parts of one name and kind make: gaps hold the padding of R69 in TEXT and zeros elsewhere, and one stable part
makes it all stable (DESIGN CHOICE, assumption 75). -/
def combined (l : List (Placed × List Byte × List LoadReloc)) : OSec :=
  let p := (l.map Prod.fst).headD {}
  let bytes := l.foldl (fun (b : List Byte) q =>
    let gap := q.1.addr - p.addr - b.length
    b ++ (if p.info.kind = 1 then (List.range gap).map fun i => BitVec.ofNat 8 (textPad.toNat / 2 ^ (8 * (i % 8))) else List.replicate gap 0) ++ q.2.1) []
  { name := p.name, kind := p.info.kind, stable := l.any fun q => q.1.info.flags.testBit 2, addr := p.addr, align := 16, bytes := bytes
    rels := l.flatMap fun q => q.2.2.map fun r => { off := r.addr - p.addr, type := r.type, cpos := r.cpos, addend := (r.addend % 2 ^ 64).toNat } }

/-- The linked image as a file; none where the link fails. It keeps every defined symbol, local ones too, and no reference (DESIGN CHOICE,
assumption 75). -/
def phlink (fs : List (List Byte)) (base : Nat) : Option (List Byte) :=
  if base % 2 ^ 16 ≠ 0 then none
  else (link fs base).map fun ps =>
    let groups := firsts (ps.map fun p => (p.1.info.kind, p.1.name))
    let secs := groups.map fun g => combined (ps.filter fun p => (p.1.info.kind, p.1.name) == g)
    let at_ := fun (obj sec : Nat) => (ps.find? fun p => p.1.obj == obj && p.1.sec == sec).map fun p =>
      let g := groups.findIdx fun g => (p.1.info.kind, p.1.name) == g
      (g + 1, p.1.addr - (secs.getD g {}).addr)
    let syms := (allSymbols fs).filter fun y => y.sym.sec != 0
    let put := fun (y : Named) => match at_ y.obj y.sym.sec with
      | some (k, o) => { y.sym with sec := k, value := o + y.sym.value }
      | none => y.sym
    let index := fun (obj k : Nat) => 1 + syms.findIdx fun y => y.obj == obj && some y == ((allSymbols fs).filter fun z => z.obj == obj)[k]?
    writeObj { linked := true, base := base, secs := secs, syms := syms.map fun y => (y.name, put y)
               ents := fs.zipIdx.flatMap fun p => (entries p.1).map fun e => { e with sym := index p.2 e.sym } }

end Sys2Proof.Machine
end

