-- ==== Sys2Proof/Machine/Portable.lean ====
section
/-! DEFINITION. The portable form's records and what they are lowered to (R366 to R376). The registers that
Phitan gives a kernel's values are its choice: they are arguments here. -/

namespace Sys2Proof.Machine

/-- What a kernel declares (R366): team size, slice need, width code (0 none). -/
structure Kernel where
  team : Nat := 1
  need : Nat := 128
  width : BitVec 3 := 0
  deriving DecidableEq, Repr

def Kernel.ok (k : Kernel) : Bool :=
  decide (1 ≤ k.team) && decide (k.team ≤ 2048) && decide (128 ≤ k.need) && decide (k.need ≤ 512) && decide (k.width.toNat ≤ 4)

/-- Threads launched for a kernel: the next multiple of its width (R375). -/
def Kernel.launched (k : Kernel) : Nat :=
  let w := if k.width = 0 then 1 else 8 * 2 ^ (k.width.toNat - 1)
  ceilDiv k.team w * w

/-- A dependence record (R369). -/
structure DepRec where
  id : Nat := 0
  cls : Cls := .s
  fut : Bool := false
  deps : List Nat := []
  deriving DecidableEq, Repr

/-- The 16 bytes of a record as a number; none where lowering refuses it. `used` are the identifiers that the kernel already has, `seen`
the operations issued before it along every path, in this iteration, member and barrier interval (R369). -/
def DepRec.read (v : Nat) (used seen : List Nat) : Option DepRec :=
  let c := bitsOf v 23 16
  let n := bitsOf v 26 25
  let ids := (List.range 3).map fun k => bitsOf v (47 + 16 * k) (32 + 16 * k)
  let deps := ids.take n
  if v % 2 ^ 16 = 0 ∨ used.contains (v % 2 ^ 16) ∨ 3 < c ∨ bitsOf v 31 27 ≠ 0 ∨ bitsOf v 127 80 ≠ 0 ∨ ((ids.drop n).any fun d => d != 0)
      ∨ (deps.any fun d => !seen.contains d) then none
  else some { id := v % 2 ^ 16, cls := [.s, .m, .c, .f].getD c .s, fut := v.testBit 24, deps := deps }

/-- A wait at the head of the dependent operation's clause (R370). -/
inductive DepWait where
  | none
  | fwait
  | header (t : Nat)
  | word (t : Nat)
  deriving DecidableEq, Repr

/-- The wait for the dependences of one class: the dependent operation's class, whether the class has one dependence and that has a
future, and the fewest commands of the class issued after the youngest dependence (R370). -/
def depWait (k dependent : Cls) (soleFuture : Bool) (t : Nat) : DepWait :=
  if k = .m ∧ dependent = .m then .none
  else if soleFuture then .fwait
  else if t ≤ 15 then .header t
  else .word (min t 62)

/-- The spaces of R371. -/
inductive PpfSpace where
  | global | scratch | accum | peer
  deriving DecidableEq, Repr

/-- The scope that an ordering point lowers to; none where PPF refuses it (R371). Codes of R52. -/
def loweredScope (sp : PpfSpace) (scope : BitVec 3) : Option (BitVec 3) :=
  match sp with
  | .global => if scope.toNat ≤ 5 then some scope else none
  | .scratch => if scope.toNat ≤ 5 then some (if scope.toNat ≤ 2 then scope else 2) else none
  | .accum => none
  | .peer => if scope = 5 then some 5 else none

/-- The words of an ordering point with a release, an acquire or both (R371). -/
def orderWords (sp : PpfSpace) (scope : BitVec 3) (rel acq : Bool) : Option (List Instr) :=
  let f : RForm := { x := always, d := Opd.zero, a := Opd.zero, ax := .self, b := Opd.zero, bx := .self, r4 := false, e := 0 }
  (loweredScope sp scope).map fun c => match rel, acq with
    | true, true => [.fenceAr c f]
    | true, false => [.fenceRel c f]
    | false, true => [.fenceAcq c f]
    | false, false => []

/-- The iterations of a region of n that member x runs in order, of a kernel declared for t members (R372); a member beyond them runs none
(R375). -/
def memberIters (serial : Bool) (n t x : Nat) : List Nat :=
  if serial ∨ t = 1 then (if x = 0 then List.range n else [])
  else (List.range (if x < n ∧ x < t then ceilDiv (n - x) t else 0)).map fun k => x + t * k

/-- What a member's LOOPD counter holds for a region (R372). -/
def memberCount (serial : Bool) (n t x : Nat) : Nat := (memberIters serial n t x).length

/-! ### Statements and their words (R367, R370 to R375) -/

def rWord (d a b : Opd) : RForm := { x := always, d := d, a := a, ax := .self, b := b, bx := .self, r4 := false, e := 0 }
def iWord (d a : Opd) (v : Nat) : IForm := { x := always, d := d, a := a, ax := .self, imm := BitVec.ofNat 20 v }
def mWord (d a : Opd) (ofs : Nat) : MForm := { x := always, d := d, a := a, ax := .self, ofs := BitVec.ofNat 16 ofs, e := 0 }

/-- A plain word, and a branch to a name on predicate p0 or its negation. -/
def put (i : Instr) : Stmt := .ins i none
def braOn (neg : Bool) (n : Name) : Stmt := .ins (.bra { x := ⟨false, 0, neg⟩, fld := 0, disp := 0 }) (some (.disp, .sym n))

/-- What a kernel body and the body of a region hold in sequence (R367): words that Phitan has made, each with whether its operands are
uniform; an async operation with its dependence record; an ordering point; an exchange. None of them branches, so that the operations of
a sequence are issued on every path in its order (R369). -/
inductive PItem where
  | words (l : List (Bool × Instr))
  | async (record : Nat) (op : Instr)
  | order (sp : PpfSpace) (scope : BitVec 3) (rel acq : Bool)
  | exchange (distance : Nat) (back : Bool) (d a : Opd)
  deriving DecidableEq, Repr

/-- The statements of a kernel body (R367); a region has two names of its own and the slices of its n. -/
inductive PStmt where
  | item (i : PItem)
  | region (serial : Bool) (n : Opd) (head skip : Name) (body : List PItem)
  | barrier (scope : Option (BitVec 3))
  deriving DecidableEq, Repr

/-- The slices of what a member keeps: the team's handle, the join word's address, the reply, the constant 1, the phase count, the batch
index x, and of the present region the iterations left, the present one and the distance to the next. -/
structure PRegs where
  handle : Opd
  joinAt : Opd
  reply : Opd
  one : Opd
  phase : Opd
  index : Opd
  count : Opd
  iter : Opd
  stride : Opd

/-- The exchange code and exponent of a distance within the declared width, on the thread that reads (R375). -/
def distanceExch (k : Kernel) (distance : Nat) (back : Bool) : Option (Exch × BitVec 3) :=
  if k.width = 0 then none
  else if distance = 1 then some (if back then .dn1 else .up1, 0)
  else ((List.range 8).find? fun e => distance == 2 ^ e && decide (2 ^ e < 8 * 2 ^ (k.width.toNat - 1))).map fun e => (.xk, BitVec.ofNat 3 e)

/-! ### Dependences (R369, R370) -/

/-- An operation issued: its record's identifier and class, and where its future's handle stands. -/
structure Issue where
  id : Nat := 0
  cls : Cls := .s
  handle : Option Opd := none
  deriving DecidableEq, Repr

/-- The class of an operation's word, none where it is no command (R31). -/
def opClass (w : W64) : Option Cls :=
  let o := opcodeOf w
  if 0x80 ≤ o ∧ o < 0xA0 then some .s else if 0xA0 ≤ o ∧ o < 0xC0 then some .m else if 0xC0 ≤ o ∧ o < 0xC3 then some .c
  else if 0xC3 ≤ o ∧ o < 0xE0 then some .f else none

/-- Where an operation's word puts its future's handle (R44, R45). -/
def opHandle (w : W64) : Option Opd :=
  if opcodeOf w = 0xA0 then (if w.getLsbD 16 then some ⟨w.extractLsb' 7 9, 3⟩ else none)
  else if w.getLsbD 4 then some ⟨w.extractLsb' 38 9, w.extractLsb' 35 3⟩ else none

/-- The waits of one class's dependences among what was issued before, oldest first (R370). -/
def classWait (dependent : Cls) (deps : List Nat) (seen : List Issue) (k : Cls) : Option (Cls × DepWait × Opd) :=
  let own := seen.filter fun i => i.cls == k
  let ds := own.filter fun i => deps.contains i.id
  let sole := match ds with | [d] => d.handle | _ => none
  let t := (own.reverse.takeWhile fun i => !deps.contains i.id).length
  if ds.isEmpty then none else some (k, depWait k dependent sole.isSome t, sole.getD Opd.zero)

/-- The waits of a record, class by class. -/
def recWaits (d : DepRec) (seen : List Issue) : List (Cls × DepWait × Opd) :=
  [Cls.s, .m, .c, .f].filterMap (classWait d.cls d.deps seen)

/-- The header waits, and then the words, of an operation's dependences (R370). -/
def depKeys (l : List (Cls × DepWait × Opd)) : ClauseKeys :=
  l.foldl (fun k w => match w.1, w.2.1 with
    | .s, .header t => { k with ws := some (BitVec.ofNat 4 t) }
    | .m, .header t => { k with wm := some (BitVec.ofNat 4 t) }
    | .c, .header t => { k with wc := some (BitVec.ofNat 4 t) }
    | .f, .header t => { k with wf := some (BitVec.ofNat 4 t) }
    | _, _ => k) {}

def depWords (l : List (Cls × DepWait × Opd)) : List Instr :=
  l.flatMap fun w => match w.2.1 with
    | .word t => [.wait (match w.1 with | .s => 0 | .m => 1 | .c => 2 | .f => 3) (iWord Opd.zero Opd.zero t)]
    | .fwait => [.fwait (rWord Opd.zero w.2.2 Opd.zero)]
    | .none | .header _ => []

/-- Lowering under way: the identifiers that the kernel has used, and the operations issued since the last barrier on the way here. -/
structure Lowering where
  used : List Nat := []
  seen : List Issue := []
  deriving DecidableEq, Repr

/-- An async operation (R369, R370): refused where its record is, or where the record's class or future is not the operation's. -/
def lowerAsync (st : Lowering) (record : Nat) (op : Instr) : Option (Lowering × List Stmt) := do
  let d ← DepRec.read record st.used (st.seen.map fun i => i.id)
  let w ← asm op
  let h := opHandle w
  if opClass w ≠ some d.cls ∨ h.isSome ≠ d.fut then none
  else
    let ws := recWaits d st.seen
    pure ({ used := st.used ++ [d.id], seen := st.seen ++ [⟨d.id, d.cls, h⟩] }, .clause (depKeys ws) :: (depWords ws ++ [op]).map put)

/-- A word of a serial statement: the .U word where its operands are uniform and its entry allows U, else the word itself (R372). -/
def serialWord (uniform : Bool) (i : Instr) : Instr :=
  if !uniform then i else match (encode i).bind fun w => decode (w ||| 0x8000000000000) with
    | some j => j
    | none => i

/-- One item's lines; none where PPF refuses it. -/
def lowerItem (k : Kernel) (st : Lowering) : PItem → Option (Lowering × List Stmt)
  | .words l => some (st, l.map fun p => put (serialWord p.1 p.2))
  | .async r op => lowerAsync st r op
  | .order sp scope rel acq => (orderWords sp scope rel acq).map fun l => (st, l.map put)
  | .exchange n back d a => (distanceExch k n back).map fun x => (st, [put (.movZ { rWord d a Opd.zero with ax := x.1, e := x.2 })])

/-- Items in sequence. -/
def lowerItems (k : Kernel) (st : Lowering) (l : List PItem) : Option (Lowering × List Stmt) :=
  l.foldlM (fun a i => (lowerItem k a.1 i).map fun b => (b.1, a.2 ++ b.2)) (st, [])

/-! ### Barriers and regions (R371 to R373, R375) -/

/-- A barrier's lines: ARRIVE and WAITPH, between the fences of a wider scope. WAITPH blocks after its clause (R105), so the clause ends with
it; what follows, the acquire and the member's own phase count, comes when the phase is over. -/
def barrierLines (g : PRegs) (scope : Option (BitVec 3)) : List Stmt :=
  let fence := fun (rel acq : Bool) => match scope with
    | some c => if 2 < c.toNat then (orderWords .global c rel acq).getD [] else []
    | none => []
  (fence true false ++ [Instr.arrive (rWord Opd.zero g.handle g.one), Instr.waitph (rWord Opd.zero g.handle g.phase)]).map put
    ++ .clause {} :: (fence false true ++ [Instr.iaddImm false 3 (iWord g.phase g.phase 1)]).map put

/-- A word that compares unsigned 32-bit numbers into p0, and a branch on it: the member skips the region. -/
def skipIf (skip : Name) (i : Instr) : List Stmt := [put i, braOn false skip]

/-- What a member does before its first iteration (R372, R375): it skips the region where it runs none, else sets its count, its first
iteration and the distance to the next. -/
def regionHead (k : Kernel) (g : PRegs) (serial : Bool) (n : Opd) (skip : Name) : List Stmt :=
  let p0 : Opd := ⟨0, 0⟩
  if serial ∨ k.team = 1 then
    skipIf skip (.icmpImm true 1 (iWord p0 g.index 0)) ++ skipIf skip (.icmpImm true 0 (iWord p0 n 0))
      ++ [ put (.movZ (rWord g.count n Opd.zero)), put (.movi true (iWord g.iter Opd.zero 0)), put (.movi true (iWord g.stride Opd.zero 1)) ]
  else
    skipIf skip (.icmp true 5 (rWord p0 g.index n))
      ++ (if k.launched = k.team then [] else skipIf skip (.icmpImm true 5 (iWord p0 g.index k.team)))
      ++ [ put (.movi true (iWord g.stride Opd.zero k.team)), put (.movZ (rWord g.iter g.index Opd.zero)),
           put (.isub true 5 false (rWord g.count n g.index)), put (.isub true 5 false (rWord g.count g.count g.one)),
           put (.idiv true 5 (rWord g.count g.count g.stride)), put (.iaddImm true 5 (iWord g.count g.count 1)) ]

/-- A region over a body: its head, the loop closed with LOOPD, then the implicit barrier, which every member reaches (R367, R372). -/
def regionLines (k : Kernel) (g : PRegs) (serial : Bool) (n : Opd) (head skip : Name) (body : List Stmt) : List Stmt :=
  regionHead k g serial n skip ++ [.label head] ++ body
    ++ [ put (.iadd true 5 false (rWord g.iter g.iter g.stride)),
         .ins (.loopd { x := always, fld := g.count.start ++ g.count.wc ++ 0#3, disp := 0 }) (some (.disp, .sym head)), .label skip ]
    ++ barrierLines g none

/-- One statement's lines; none where PPF refuses it. No dependence reaches over a barrier, nor out of an iteration (R369). -/
def lower (k : Kernel) (g : PRegs) (st : Lowering) : PStmt → Option (Lowering × List Stmt)
  | .item i => lowerItem k st i
  | .region serial n head skip body =>
    (lowerItems k st body).map fun r => ({ used := r.1.used }, regionLines k g serial n head skip r.2)
  | .barrier scope => some ({ st with seen := [] }, barrierLines g scope)

/-- The prologue of a kernel of T members (R373): JOIN, the join word's combine, and the wait for the last member; x is kept. -/
def prologue (g : PRegs) (t : Nat) (wait done : Name) : List Stmt :=
  let args : Opd := ⟨16, 7⟩
  [ put (.movZ (rWord g.index ⟨0, 5⟩ Opd.zero)), put (.ld false 1 0 (mWord g.handle args 0)), put (.iaddImm false 7 (iWord g.joinAt args 8)),
    put (.movi true (iWord g.one Opd.zero 1)), put (.movi true (iWord g.phase Opd.zero 0)), put (.join (rWord Opd.zero g.handle Opd.zero)),
    put (.cmb 0 false (rWord g.reply g.joinAt g.one)),
    .clause { wc := some 0 }, put (.icmpImm false 0 (iWord ⟨0, 0⟩ g.reply (t - 1))), braOn false done, .label wait,
    put (.ld false 2 2 (mWord g.reply g.joinAt 0)), put (.icmpImm false 5 (iWord ⟨0, 0⟩ g.reply t)), braOn false done,
    put (.waitw (rWord Opd.zero g.joinAt g.reply)), .ins (.bra { x := always, fld := 0, disp := 0 }) (some (.disp, .sym wait)), .label done ]

/-- A kernel's program: the entry, the prologue, its statements and STOP (R366, R373, R375); no object where a record is refused (R369). -/
def program (k : Kernel) (g : PRegs) (entry wait done : Name) (body : List PStmt) : Option (List Stmt) :=
  if !k.ok then none
  else
    let lines := body.foldlM (fun (a : Lowering × List Stmt) p => (lower k g a.1 p).map fun b => (b.1, a.2 ++ b.2)) ({}, [])
    lines.map fun l =>
      .entry entry (some k.width) none (some k.need) (some k.launched) :: prologue g k.launched wait done ++ l.2
        ++ [put (.stop (rWord Opd.zero Opd.zero Opd.zero))]

end Sys2Proof.Machine
end

