-- ==== Sys2Proof/Tests/Slice0.lean ====
section
/-! SUPPORT. Tests: ill-formed words refused, words written out from the encodings, single steps, and states that meet the
hypotheses of the statements. -/

namespace Sys2Proof.Tests

open Sys2Proof Sys2Proof.Machine

/-! ## Operand forms -/

def o (n : BitVec 9) (wc : BitVec 3) : Opd := ⟨n, wc⟩
def px (u : Bool) : Pfx := ⟨u, 7, false⟩
def r (u : Bool) (d a b : Opd) (r4 : Bool) : RForm := ⟨px u, d, a, .self, b, .self, r4, 0⟩
def i (u : Bool) (d a : Opd) (imm : BitVec 20) : IForm := ⟨px u, d, a, .self, imm⟩
def b (fld : BitVec 15) (disp : BitVec 32) : BForm := ⟨px false, fld, disp⟩
def m (d a : Opd) (ofs : BitVec 16) : MForm := ⟨px false, d, a, .self, ofs, 0⟩
def f (u : Bool) (d a : Opd) (imm : BitVec 12) (fut : Bool) : FForm := ⟨px u, d, a, .self, imm, fut⟩
def z : Opd := o 0 0

def codes (l : List (W64 × Instr)) : Bool := l.all fun p => decide (decode p.1 = some p.2)

/-- Every instruction of the list is refused as ill formed. -/
def refused (l : List Instr) : Bool := l.all fun j => !j.wf

/-- Each pair: an instruction that is legal, and one beside it that is not. -/
def parts (l : List (Instr × Instr)) : Bool := l.all fun p => p.1.wf && !p.2.wf

/-! ## Ill-formed words: each check of WellFormed refuses the second of a pair (R37 to R57) -/

/-- U: an entry marked r refuses 0, one marked n refuses 1 (R39). -/
theorem smoke_u : parts [(.halt (r true z z z false), .halt (r false z z z false)),
    (.stop (r false z z z false), .stop (r true z z z false)),
    (.grow (i false z z 1), .grow (i true z z 1))] = true := by decide

/-- Operands: unused, a fixed width, a predicate destination, a future (R44, R47, R48). -/
theorem smoke_operands : parts [(.nop (r false z z z false), .nop (r false (o 1 0) z z false)),
    (.not_ (r false (o 8 5) (o 16 5) z false), .not_ (r false (o 8 5) (o 16 5) (o 1 0) false)),
    (.jmpi (r false z (o 16 7) z false), .jmpi (r false z (o 16 5) z false)),
    (.icmp false 0 (r false (o 6 0) (o 8 5) (o 16 5) false), .icmp false 0 (r false (o 7 0) (o 8 5) (o 16 5) false)),
    (.icmp false 0 (r false (o 6 0) (o 8 5) (o 16 5) false), .icmp false 0 (r false (o 6 1) (o 8 5) (o 16 5) false)),
    (.sload (r false (o 8 3) (o 16 5) (o 24 7) true), .sload (r false (o 8 5) (o 16 5) (o 24 7) true)),
    (.sload (r false z (o 16 5) (o 24 7) false), .sload (r false (o 8 3) (o 16 5) (o 24 7) false)),
    (.flushr (f false (o 8 3) z 5 true), .flushr (f false (o 8 3) z 5 false))] = true := by decide

/-- Exchange fields: unused ones are zero; xk only where the entry has MOD[2:0] free, which then holds e; none in an I-form
or a fabric-form word (R38, R41, R46, R47). -/
theorem smoke_exchange : parts [
    (.nop (r false z z z false), .nop { r false z z z false with ax := .dn1 }),
    (.not_ (r false (o 8 5) (o 16 5) z false), .not_ { r false (o 8 5) (o 16 5) z false with bx := .up1 }),
    (.iadd true 5 false { r false (o 8 5) (o 16 5) (o 24 5) false with ax := .xk, e := 4 },
      .iadd true 5 true { r false (o 8 5) (o 16 5) (o 24 5) false with ax := .xk, e := 4 }),
    (.iadd true 5 false (r false (o 8 5) (o 16 5) (o 24 5) false), .iadd true 5 false { r false (o 8 5) (o 16 5) (o 24 5) false with e := 1 }),
    (.lut3 7 { r false (o 8 5) (o 16 5) (o 24 5) false with ax := .dn1 }, .lut3 7 { r false (o 8 5) (o 16 5) (o 24 5) false with bx := .xk }),
    (.iaddImm false 5 { i false (o 8 5) (o 16 5) 9 with ax := .mir }, .iaddImm false 5 { i false (o 8 5) (o 16 5) 9 with ax := .xk }),
    (.movi true (i false (o 8 5) z 9), .movi true { i false (o 8 5) z 9 with ax := .mir }),
    (.fbar { f false z (o 16 5) 9 false with ax := .bc0 }, .fbar { f false z (o 16 5) 9 false with ax := .xk }),
    (.movxw { r false z (o 16 5) (o 24 5) false with bx := .mir }, .movxw { r false z (o 16 5) (o 24 5) false with bx := .chn }),
    (.ld true 2 0 { m (o 8 5) (o 16 7) 4 with ax := .xk, e := 1 }, .ld true 2 1 { m (o 8 5) (o 16 7) 4 with ax := .xk, e := 1 }),
    (.st 2 0 (m (o 8 5) (o 16 7) 4), .st 2 0 { m (o 8 5) (o 16 7) 4 with e := 1 }),
    (.sload { r false z (o 16 5) (o 24 7) false with ax := .dn1 }, .sload { r false z (o 16 5) (o 24 7) false with ax := .xk }),
    (.ctxsv false (r true z (o 16 3) (o 24 7) false), .ctxsv false { r true z (o 16 3) (o 24 7) false with bx := .dn1 })] = true := by
  decide

/-- Futures: an entry marked "no future" refuses FUT (R44). -/
theorem smoke_future : parts [(.talloc 0 (r false (o 8 3) (o 16 7) z false), .talloc 0 (r false (o 8 3) (o 16 7) z true)),
    (.rpop (r false (o 8 5) (o 16 3) z false), .rpop (r false (o 8 5) (o 16 3) z true))] = true := by decide

/-- Immediates and their limits (R47, R111, R142, R154, R356). -/
theorem smoke_immediates : parts [(.shlImm (i false (o 8 5) (o 16 5) 63), .shlImm (i false (o 8 5) (o 16 5) 64)),
    (.movh 2 (i false (o 0 7) z 15), .movh 2 (i false (o 0 7) z 16)), (.movh 2 (i false (o 0 7) z 15), .movh 3 (i false (o 0 7) z 15)),
    (.sleep (i false z z 1), .sleep (i false z z 0)), (.wait 1 (i false z z 63), .wait 1 (i false z z 64)),
    (.grow (i false z z 12), .grow (i false z z 13)), (.growNb (i false (o 6 0) z 1), .growNb (i false (o 6 0) z 0)),
    (.shrink (i false z z 1), .shrink (i false z z 0)),
    (.flushrA (f false z (o 16 3) 0 false), .flushrA (f false z (o 16 3) 1 false)),
    (.drain (f true z z 0xFF false), .drain (f true z z 0x1FF false)),
    (.trap (i false z z 5), .trap (i false z z 6)), (.trap (i false z z 1), .trap (i false z z 8)),
    (.brk (i false z z 0xFFFF), .brk (i false z z 0x10000)), (.sysc (i false z z 0xFFFF), .sysc (i false z z 0x10000)),
    (.sysr (i false (o 8 7) z 0x40), .sysr (i false (o 8 7) z 0x41)), (.sysw (i false z (o 8 7) 0x40), .sysw (i false z (o 8 7) 0x41))]
    = true := by decide

/-- Selector fields with codes that are not allocated (R48, R50, R52 to R55, R140, R143). -/
theorem smoke_selectors : parts [
    (.icmp false 5 (r false (o 6 0) (o 8 5) (o 16 5) false), .icmp false 6 (r false (o 6 0) (o 8 5) (o 16 5) false)),
    (.icmpImm false 5 (i false (o 6 0) (o 8 5) 1), .icmpImm false 6 (i false (o 6 0) (o 8 5) 1)),
    (.padd false 1 false (r false (o 8 5) (o 16 5) (o 24 5) false), .padd false 3 false (r false (o 8 5) (o 16 5) (o 24 5) false)),
    (.padd false 2 false (r false (o 8 5) (o 16 5) (o 24 5) false), .padd false 2 false (r false (o 8 4) (o 16 5) (o 24 5) false)),
    (.pcmp false 1 0 (r false (o 8 5) (o 16 5) (o 24 5) false), .pcmp false 1 7 (r false (o 8 5) (o 16 5) (o 24 5) false)),
    (.pack 1 (r false (o 8 5) (o 16 5) (o 24 5) false), .pack 1 (r false (o 8 1) (o 16 5) (o 24 5) false)),
    (.pdot false 1 (r false (o 8 5) (o 16 5) (o 24 5) false), .pdot false 1 (r false (o 8 5) (o 16 2) (o 24 5) false)),
    (.fabs 2 (r false (o 8 3) (o 16 3) z false), .fabs 3 (r false (o 8 3) (o 16 3) z false)),
    (.fabs 1 (r false (o 8 5) (o 16 5) z false), .fabs 1 (r false (o 8 5) (o 16 3) z false)),
    (.fcvt 1 2 ⟨0, false, false⟩ (r false (o 8 3) (o 16 5) z false), .fcvt 1 1 ⟨0, false, false⟩ (r false (o 8 5) (o 16 5) z false)),
    (.cvtb8 4 false false 0 (r false (o 8 1) (o 16 3) z false), .cvtb8 8 false false 0 (r false (o 8 1) (o 16 3) z false)),
    (.cvtb8 4 true false 0 (r false (o 8 1) (o 16 5) (o 24 5) false), .cvtb8 4 true false 0 (r false (o 8 1) (o 16 3) (o 24 5) false)),
    (.cvtb8 4 true false 0 (r false (o 8 1) (o 16 5) (o 24 5) false),
      .cvtb8 4 true false 0 { r false (o 8 1) (o 16 5) (o 24 5) false with bx := .dn1 }),
    (.b8dot 4 false 0 (r false (o 8 5) (o 16 7) (o 24 7) false), .b8dot 4 false 0 (r false (o 8 5) (o 16 7) (o 24 5) false)),
    (.spl { r false (o 8 0) (o 16 5) (o 15 0) false with r4 := false }, .spl (r false (o 16 0) (o 16 5) (o 15 0) false)),
    (.ld true 2 2 (m (o 8 5) (o 16 7) 4), .ld true 2 3 (m (o 8 5) (o 16 7) 4)),
    (.ldV 0 2 2 (m (o 8 0) (o 16 7) 4), .ldV 0 2 2 (m (o 8 1) (o 16 7) 4)),
    (.ldp true 2 6 (m (o 8 5) (o 16 7) 4), .ldp true 2 7 (m (o 8 5) (o 16 7) 4)),
    (.atom 9 5 true (m (o 8 7) (o 16 7) 0), .atom 10 5 true (m (o 8 7) (o 16 7) 0)),
    (.atom 9 5 true (m (o 8 7) (o 16 7) 0), .atom 9 6 true (m (o 8 7) (o 16 7) 0)),
    (.atom 9 5 false (m (o 8 5) (o 16 7) 0), .atom 9 5 false (m (o 8 7) (o 16 7) 0)),
    (.fenceAcq 5 (r false z z z false), .fenceAcq 6 (r false z z z false)),
    (.icinv 4 (r false z z z false), .icinv 5 (r false z z z false)), (.icinv 1 (r false z z z false), .icinv 0 (r false z z z false)),
    (.icinvLine 2 { r false z (o 16 7) z false with ax := .xk, e := 2 }, .icinvLine 3 { r false z (o 16 7) z false with ax := .xk, e := 2 }),
    (.leg 3 false (r false (o 8 0) z z false), .leg 3 false (r false (o 9 0) z z false)),
    (.leg 0 true (r false z z z false), .leg 1 true (r false z z z false)),
    (.talloc 2 (r false (o 8 3) (o 16 7) z false), .talloc 3 (r false (o 8 3) (o 16 7) z false)),
    (.strns 4 false true true (r false z (o 16 5) (o 24 7) false), .strns 8 false true true (r false z (o 16 5) (o 24 7) false)),
    (.strns 0 true false false (r false z (o 16 5) (o 24 7) false), .strns 0 true false true (r false z (o 16 5) (o 24 7) false)),
    (.tcvtOther 1 false 2 (r false z (o 16 5) (o 24 3) false), .tcvtOther 2 false 2 (r false z (o 16 5) (o 24 3) false)),
    (.tcvtB8 1 true false 0 (r false z (o 16 5) (o 24 5) false), .tcvtB8 1 true false 0 (r false z (o 16 5) (o 24 3) false)),
    (.mstat 1 (r false (o 8 5) (o 16 3) z false), .mstat 2 (r false (o 8 5) (o 16 3) z false)),
    (.cmb 11 false (r false (o 8 5) (o 16 7) (o 24 5) false), .cmb 13 false (r false (o 8 5) (o 16 7) (o 24 5) false)),
    (.cmb 1 false (r false (o 8 5) (o 16 7) (o 24 5) false), .cmb 1 true (r false (o 8 7) (o 16 7) (o 24 7) false)),
    (.cmb 12 true (r false (o 8 7) (o 16 7) (o 24 7) false), .cmb 12 false (r false (o 8 5) (o 16 7) (o 24 5) false))] = true := by
  decide

/-- Branch-form fields (R42, R148 to R151, R107, R214). -/
theorem smoke_branches : parts [(.bra (b 0 4), .bra (b 1 4)), (.call (b (8 * 64 + 56) 4), .call (b (8 * 64 + 40) 4)),
    (.loopd (b (8 * 64 + 40) 4), .loopd (b (8 * 64 + 41) 4)), (.item (b (8 * 64 + 40) 4), .item (b (8 * 64 + 56) 4)),
    (.item (b (8 * 64 + 40) 4), .item { b (8 * 64 + 40) 4 with x := px true }),
    (.commit (b (2 * 512 + 3 * 8) 4), .commit (b (3 * 512 + 2 * 8) 4)), (.commit (b 8 4), .commit (b 9 4)),
    (.commitR (b 9 4), .commitR (b 8 4)), (.commit (b 8 4), .commit { b 8 4 with x := px true })] = true := by decide

def xf : XForm := ⟨px true, 64, 128, 1, 0, false, true, 96, 16⟩

/-- MLOOP: U, the element format, the fields an integer format leaves unused, the future's slices (R45, R320). -/
theorem smoke_mloop : parts [(.mloop xf, .mloop { xf with x := px false }), (.mloop xf, .mloop { xf with fmt := 1 }),
    (.mloop { xf with fmt := 32, sc := 0 }, .mloop { xf with fmt := 33, sc := 0 }),
    (.mloop { xf with fmt := 32, sc := 0 }, .mloop { xf with fmt := 32, sc := 128 }),
    (.mloop { xf with fmt := 32, sc := 0 }, .mloop { xf with fmt := 32, sc := 0, bsel := 1 }),
    (.mloop { xf with fe := false, fd := 0 }, .mloop { xf with fe := false })] = true := by decide

/-- An ill-formed instruction is not decoded: its word is UNDEF (R58). -/
theorem smoke_decode : [0x4707000000000001, 0x4717000000000000, 0x5D07000000000000, 0x0C670228420C0700].all
    (fun w => decide (decode w = none)) = true := by decide

/-! ## Words written out bit by bit from the encodings of the spec (R36 to R57), one an instruction that has a word -/

theorem test_words_integer_1 : codes [
    (0x00B702284200C701, .iadd true 3 true (r false (o 8 5) (o 16 4) (o 24 7) false)),
    (0x0167022842080001, .iaddImm false 6 (i false (o 8 5) (o 16 4) 524289)),
    (0x027702284200C701, .isub false 7 true (r false (o 8 5) (o 16 4) (o 24 7) false)),
    (0x03D702284200C700, .imul true 5 (r false (o 8 5) (o 16 4) (o 24 7) false)),
    (0x044702284200C700, .imulh false 4 (r false (o 8 5) (o 16 4) (o 24 7) false)),
    (0x05A702284200C700, .imad true 2 false (r false (o 8 5) (o 16 4) (o 24 7) false)),
    (0x065702284200C700, .idiv false 5 (r false (o 8 5) (o 16 4) (o 24 7) false)),
    (0x07D702284200C700, .irem true 5 (r false (o 8 5) (o 16 4) (o 24 7) false))] = true := by decide

theorem test_words_integer_2 : codes [
    (0x081702284200C700, .imin false 1 (r false (o 8 5) (o 16 4) (o 24 7) false)),
    (0x099702284200C700, .imax true 1 (r false (o 8 5) (o 16 4) (o 24 7) false)),
    (0x0A57022842000001, .iabs 5 true (r false (o 8 5) (o 16 4) (o 0 0) false)),
    (0x0B67022842000000, .ineg 6 false (r false (o 8 5) (o 16 4) (o 0 0) false)),
    (0x0C0702284200C700, .and_ (r false (o 8 5) (o 16 4) (o 24 7) false)),
    (0x0C1702284200C700, .or_ (r false (o 8 5) (o 16 4) (o 24 7) false)),
    (0x0C2702284200C700, .xor_ (r false (o 8 5) (o 16 4) (o 24 7) false)),
    (0x0C3702284200C700, .andn (r false (o 8 5) (o 16 4) (o 24 7) false))] = true := by decide

theorem test_words_integer_3 : codes [
    (0x0C47022842000000, .not_ (r false (o 8 5) (o 16 4) (o 0 0) false)),
    (0x0D070228420ABCDE, .andImm (i false (o 8 5) (o 16 4) 703710)),
    (0x0D170228420ABCDE, .orImm (i false (o 8 5) (o 16 4) 703710)),
    (0x0D270228420ABCDE, .xorImm (i false (o 8 5) (o 16 4) 703710)),
    (0x0D370228420ABCDE, .andnImm (i false (o 8 5) (o 16 4) 703710)),
    (0x0EC702284200C70A, .lut3 0xCA (r false (o 8 5) (o 16 4) (o 24 7) false)),
    (0x100702284200C700, .shl (r false (o 8 5) (o 16 4) (o 24 7) false)),
    (0x101702284200C700, .shr (r false (o 8 5) (o 16 4) (o 24 7) false))] = true := by decide

theorem test_words_integer_4 : codes [
    (0x102702284200C700, .sar (r false (o 8 5) (o 16 4) (o 24 7) false)),
    (0x103702284200C700, .rot (r false (o 8 5) (o 16 4) (o 24 7) false)),
    (0x110702284200003F, .shlImm (i false (o 8 5) (o 16 4) 63)),
    (0x111702284200003F, .shrImm (i false (o 8 5) (o 16 4) 63)),
    (0x112702284200003F, .sarImm (i false (o 8 5) (o 16 4) 63)),
    (0x113702284200003F, .rotImm (i false (o 8 5) (o 16 4) 63)),
    (0x128702284200C700, .bfx true (r false (o 8 5) (o 16 4) (o 24 7) false)),
    (0x130702284200C700, .bfi (r false (o 8 5) (o 16 4) (o 24 7) false))] = true := by decide

theorem test_words_integer_5 : codes [
    (0x1407022842000000, .popc (r false (o 8 5) (o 16 4) (o 0 0) false)),
    (0x1417022842000000, .clz (r false (o 8 5) (o 16 4) (o 0 0) false)),
    (0x1427022842000000, .ctz (r false (o 8 5) (o 16 4) (o 0 0) false)),
    (0x1437022842000000, .brev (r false (o 8 5) (o 16 4) (o 0 0) false)),
    (0x15D700C04200C700, .icmp true 5 (r false (o 3 0) (o 16 4) (o 24 7) false)),
    (0x164700C04200004D, .icmpImm false 4 (i false (o 3 0) (o 16 4) 77)),
    (0x170702284200C70E, .isel true 6 (r false (o 8 5) (o 16 4) (o 24 7) false)),
    (0x1807022842000000, .movZ (r false (o 8 5) (o 16 4) (o 0 0) false))] = true := by decide

theorem test_words_integer_6 : codes [
    (0x1817022842000000, .movS (r false (o 8 5) (o 16 4) (o 0 0) false)),
    (0x1827022842000000, .movx (r false (o 8 5) (o 16 4) (o 0 0) false)),
    (0x183700004200C700, .movxw (r false (o 0 0) (o 16 4) (o 24 7) false)),
    (0x19870228000FFFFF, .movi true (i false (o 8 5) (o 0 0) 1048575)),
    (0x1A2704380000000F, .movh 2 (i false (o 16 7) (o 0 0) 15)),
    (0x1B0702284200C701, .pack 1 (r false (o 8 5) (o 16 4) (o 24 7) false)),
    (0x1B17022842000000, .unpk 0 (r false (o 8 5) (o 16 4) (o 0 0) false)),
    (0x1C9702284200C701, .padd true 1 true (r false (o 8 5) (o 16 4) (o 24 7) false))] = true := by decide

theorem test_words_integer_7 : codes [
    (0x1C6702284200C700, .psub false 2 false (r false (o 8 5) (o 16 4) (o 24 7) false)),
    (0x1D8702284200C700, .pmin true 0 (r false (o 8 5) (o 16 4) (o 24 7) false)),
    (0x1D5702284200C700, .pmax false 1 (r false (o 8 5) (o 16 4) (o 24 7) false)),
    (0x1E17022842000000, .pabs 1 (r false (o 8 5) (o 16 4) (o 0 0) false)),
    (0x1EE702284200C703, .pcmp true 2 3 (r false (o 8 5) (o 16 4) (o 24 7) false)),
    (0x1F9702284280C700, .pdot true 1 (r false (o 8 5) (o 16 5) (o 24 7) false))] = true := by decide

theorem test_words_float_1 : codes [
    (0x201702284280C506, .fadd 1 ⟨2, true, false⟩ (r false (o 8 5) (o 16 5) (o 24 5) false)),
    (0x210702384380C709, .fsub 0 ⟨1, false, true⟩ (r false (o 8 7) (o 16 7) (o 24 7) false)),
    (0x222702184180C306, .fmul 2 ⟨2, true, false⟩ (r false (o 8 3) (o 16 3) (o 24 3) false)),
    (0x231702284280C509, .ffma 1 ⟨1, false, true⟩ (r false (o 8 5) (o 16 5) (o 24 5) false)),
    (0x241702284280C508, .fmin 1 true (r false (o 8 5) (o 16 5) (o 24 5) false)),
    (0x250702384380C700, .fmax 0 false (r false (o 8 7) (o 16 7) (o 24 7) false)),
    (0x2617022842800000, .fabs 1 (r false (o 8 5) (o 16 5) (o 0 0) false)),
    (0x2727021841800000, .fneg 2 (r false (o 8 3) (o 16 3) (o 0 0) false))] = true := by decide

theorem test_words_float_2 : codes [
    (0x281700C04280C50D, .fcmp 1 true 5 (r false (o 3 0) (o 16 5) (o 24 5) false)),
    (0x291702284280C506, .fdiv 1 ⟨2, true, false⟩ (r false (o 8 5) (o 16 5) (o 24 5) false)),
    (0x2A17022842800006, .fsqrt 1 ⟨2, true, false⟩ (r false (o 8 5) (o 16 5) (o 0 0) false)),
    (0x2B17022842800006, .frcp 1 ⟨2, true, false⟩ (r false (o 8 5) (o 16 5) (o 0 0) false)),
    (0x2C17022842800006, .frsq 1 ⟨2, true, false⟩ (r false (o 8 5) (o 16 5) (o 0 0) false)),
    (0x2D17022842800006, .fexp2 1 ⟨2, true, false⟩ (r false (o 8 5) (o 16 5) (o 0 0) false)),
    (0x2E17022842800006, .flog2 1 ⟨2, true, false⟩ (r false (o 8 5) (o 16 5) (o 0 0) false)),
    (0x2F1702284280C309, .fscale 1 ⟨1, false, true⟩ (r false (o 8 5) (o 16 5) (o 24 3) false))] = true := by decide

theorem test_words_float_3 : codes [
    (0x3007021043800000, .fclass 0 (r false (o 8 2) (o 16 7) (o 0 0) false)),
    (0x3197021842800006, .fcvt 1 2 ⟨2, true, false⟩ (r false (o 8 3) (o 16 5) (o 0 0) false)),
    (0x3297022842000007, .icvtf true 1 true 3 (r false (o 8 5) (o 16 4) (o 0 0) false)),
    (0x3307022843800001, .fcvti false 0 1 (r false (o 8 5) (o 16 7) (o 0 0) false)),
    (0x3457020841800006, .cvtb8 5 false true 2 (r false (o 8 1) (o 16 3) (o 0 0) false)),
    (0x35C702084280C509, .cvtb8Unsigned 12 true false 1 (r false (o 8 1) (o 16 5) (o 24 5) false)),
    (0x3647022840800001, .cvtf8 4 1 (r false (o 8 5) (o 16 1) (o 0 0) false)),
    (0x3737021840800002, .cvtf8Unsigned 3 2 (r false (o 8 3) (o 16 1) (o 0 0) false))] = true := by decide

theorem test_words_float_4 : codes [
    (0x384702284380C709, .b8dot 4 true 1 (r false (o 8 5) (o 16 7) (o 24 7) false)),
    (0x392702284180C302, .b8dotUnsigned 2 false 2 (r false (o 8 5) (o 16 3) (o 24 3) false)),
    (0x3A0702284280C506, .hadd2 ⟨2, true, false⟩ (r false (o 8 5) (o 16 5) (o 24 5) false)),
    (0x3B0702284280C506, .hmul2 ⟨2, true, false⟩ (r false (o 8 5) (o 16 5) (o 24 5) false)),
    (0x3C0702284280C506, .hfma2 ⟨2, true, false⟩ (r false (o 8 5) (o 16 5) (o 24 5) false))] = true := by decide

theorem test_words_control_1 : codes [
    (0x40070000FFFFFFFC, .bra (b 0 4294967292)),
    (0x4107000043800000, .jmpi (r false (o 0 0) (o 16 7) (o 0 0) false)),
    (0x420701B800000008, .call (b 440 8)),
    (0x4307023843800000, .calli (r false (o 8 7) (o 16 7) (o 0 0) false)),
    (0x4407000043800000, .ret (r false (o 0 0) (o 16 7) (o 0 0) false)),
    (0x450701F8FFFFFFF8, .loopd (b 504 4294967288)),
    (0x4607000000000000, .yield (r false (o 0 0) (o 0 0) (o 0 0) false)),
    (0x4707000000000000, .nop (r false (o 0 0) (o 0 0) (o 0 0) false))] = true := by decide

theorem test_words_control_2 : codes [
    (0x4807000000000000, .stop (r false (o 0 0) (o 0 0) (o 0 0) false)),
    (0x49070000000003E8, .sleep (i false (o 0 0) (o 0 0) 1000)),
    (0x4A0700004380C500, .waitw (r false (o 0 0) (o 16 7) (o 24 5) false)),
    (0x4B0700004380C200, .spawn (r false (o 0 0) (o 16 7) (o 24 2) false)),
    (0x4C0700004380C500, .spawnn (r false (o 0 0) (o 16 7) (o 24 5) false)),
    (0x4D07000041800000, .join (r false (o 0 0) (o 16 3) (o 0 0) false)),
    (0x4E07000041800000, .leave (r false (o 0 0) (o 16 3) (o 0 0) false)),
    (0x4F0700004180C300, .arrive (r false (o 0 0) (o 16 3) (o 24 3) false))] = true := by decide

theorem test_words_control_3 : codes [
    (0x500700004180C300, .waitph (r false (o 0 0) (o 16 3) (o 24 3) false)),
    (0x5107042800000004, .item (b 1064 4)),
    (0x5207000042800000, .itempush (r false (o 0 0) (o 16 5) (o 0 0) false)),
    (0x530700000000000C, .grow (i false (o 0 0) (o 0 0) 12)),
    (0x531700C000000001, .growNb (i false (o 3 0) (o 0 0) 1)),
    (0x5407000000000003, .shrink (i false (o 0 0) (o 0 0) 3)),
    (0x550702004280C000, .spl (r false (o 8 0) (o 16 5) (o 24 0) false)),
    (0x560702004280C000, .fil (r false (o 8 0) (o 16 5) (o 24 0) false))] = true := by decide

theorem test_words_control_4 : codes [
    (0x5737023800000000, .sread 3 (r false (o 8 7) (o 0 0) (o 0 0) false)),
    (0x5827000000000005, .wait 2 (i false (o 0 0) (o 0 0) 5)),
    (0x5907000041800000, .fwait (r false (o 0 0) (o 16 3) (o 0 0) false)),
    (0x5A0700C041800000, .ftest (r false (o 3 0) (o 16 3) (o 0 0) false)),
    (0x5B07021841800000, .fpass (r false (o 8 3) (o 16 3) (o 0 0) false)),
    (0x5C07000041800000, .fcancel (r false (o 0 0) (o 16 3) (o 0 0) false))] = true := by decide

theorem test_words_memory_1 : codes [
    (0x6057022843880012, .ld true 1 2 (m (o 8 5) (o 16 7) 32769)),
    (0x6127022843800041, .st 2 1 (m (o 8 5) (o 16 7) 4)),
    (0x6267020043800100, .ldV 1 2 0 (m (o 8 0) (o 16 7) 16)),
    (0x63C7020043800101, .stV 3 0 1 (m (o 8 0) (o 16 7) 16)),
    (0x6437023843800005, .ldp false 3 5 (m (o 8 7) (o 16 7) 0)),
    (0x65070000438FFF00, .pgreq (m (o 0 0) (o 16 7) 65520)),
    (0x6697023843800089, .atom 9 4 true (m (o 8 7) (o 16 7) 8)),
    (0x6747020842800030, .sld true 0 (m (o 8 1) (o 16 5) 3))] = true := by decide

theorem test_words_memory_2 : codes [
    (0x6827022842800040, .sst 2 (m (o 8 5) (o 16 5) 4)),
    (0x6907000000000003, .fenceAcq 3 (r false (o 0 0) (o 0 0) (o 0 0) false)),
    (0x6917000000000003, .fenceRel 3 (r false (o 0 0) (o 0 0) (o 0 0) false)),
    (0x6927000000000003, .fenceAr 3 (r false (o 0 0) (o 0 0) (o 0 0) false)),
    (0x6A07000000000004, .icinv 4 (r false (o 0 0) (o 0 0) (o 0 0) false)),
    (0x6A17000043800002, .icinvLine 2 (r false (o 0 0) (o 16 7) (o 0 0) false)),
    (0x6B07000043800000, .dcwb (r false (o 0 0) (o 16 7) (o 0 0) false)),
    (0x6B17000000000000, .dcwbAll (r false (o 0 0) (o 0 0) (o 0 0) false))] = true := by decide

theorem test_words_memory_3 : codes [
    (0x6C37022843800000, .ldm 3 (m (o 8 5) (o 16 7) 0)),
    (0x7037040000000000, .leg 3 false (r false (o 16 0) (o 0 0) (o 0 0) false)),
    (0x7107045000000040, .commit (b 1104 64)),
    (0x7107045100000040, .commitR (b 1105 64)),
    (0x720700C042000000, .pchk (r false (o 3 0) (o 16 4) (o 0 0) false)),
    (0x7307022800000000, .pclr (r false (o 8 5) (o 0 0) (o 0 0) false)),
    (0x7407022800000000, .pset (r false (o 8 5) (o 0 0) (o 0 0) false)),
    (0x7537023842800000, .porg 3 (r false (o 8 7) (o 16 5) (o 0 0) false))] = true := by decide

theorem test_words_stream_1 : codes [
    (0x8027021843800000, .talloc 2 (r false (o 8 3) (o 16 7) (o 0 0) false)),
    (0x8107000041800000, .tfree (r false (o 0 0) (o 16 3) (o 0 0) false)),
    (0x8217023841800000, .tquery 1 (r false (o 8 7) (o 16 3) (o 0 0) false)),
    (0x830702184280C710, .sload (r false (o 8 3) (o 16 5) (o 24 7) true)),
    (0x830700004180C701, .sloadRing (r false (o 0 0) (o 16 3) (o 24 7) false)),
    (0x840700004280C700, .sstore (r false (o 0 0) (o 16 5) (o 24 7) false)),
    (0x850702184380C710, .scopy (r false (o 8 3) (o 16 7) (o 24 7) true)),
    (0x864700004280C703, .strns 4 false true true (r false (o 0 0) (o 16 5) (o 24 7) false))] = true := by decide

theorem test_words_stream_2 : codes [
    (0x870702184180C500, .sring (r false (o 8 3) (o 16 3) (o 24 5) false)),
    (0x8707000041800001, .sringFree (r false (o 0 0) (o 16 3) (o 0 0) false)),
    (0x8807022841800000, .rpop (r false (o 8 5) (o 16 3) (o 0 0) false)),
    (0x8907000041800000, .rrel (r false (o 0 0) (o 16 3) (o 0 0) false)),
    (0x8A0F021843800010, .asl (r true (o 8 3) (o 16 7) (o 0 0) true)),
    (0x8B57022800000000, .qpop 5 (r false (o 8 5) (o 0 0) (o 0 0) false)),
    (0x8C27023800000000, .qstat 2 (r false (o 8 7) (o 0 0) (o 0 0) false)),
    (0x8D07000043800000, .lastld (r false (o 0 0) (o 16 7) (o 0 0) false))] = true := by decide

theorem test_words_matrix_1 : codes [
    (0xA06F101040F73020, .mloop ⟨⟨true, 7, false⟩, 64, 130, 7, 5, true, true, 96, 22⟩),
    (0xA107021841800010, .mzero (r false (o 8 3) (o 16 3) (o 0 0) true)),
    (0xA20700004180C500, .mloadacc (r false (o 0 0) (o 16 3) (o 24 5) false)),
    (0xA34700004280C50E, .tcvtB8 4 true true 2 (r false (o 0 0) (o 16 5) (o 24 5) false)),
    (0xA40700004280C300, .tmov (r false (o 0 0) (o 16 5) (o 24 3) false)),
    (0xA507023800000000, .mstat 0 (r false (o 8 7) (o 0 0) (o 0 0) false)),
    (0xA6B700004280C301, .tcvtB8Unsigned 11 false false 1 (r false (o 0 0) (o 16 5) (o 24 3) false)),
    (0xA71700004280C307, .tcvtOther 1 true 3 (r false (o 0 0) (o 16 5) (o 24 3) false))] = true := by decide

theorem test_words_fabric_1 : codes [
    (0xC0C702384380C701, .cmb 12 true (r false (o 8 7) (o 16 7) (o 24 7) false)),
    (0xC15702384380C702, .cmbu 37 (r false (o 8 7) (o 16 7) (o 24 7) false)),
    (0xC22F021843800001, .cmbdef 18 (r true (o 8 3) (o 16 7) (o 0 0) false)),
    (0xC3070000000ABC00, .flushr (f false (o 0 0) (o 0 0) 2748 false)),
    (0xC317021841800010, .flushrA (f false (o 8 3) (o 16 3) 0 true)),
    (0xC40702184380C710, .fput (r false (o 8 3) (o 16 7) (o 24 7) true)),
    (0xC50700004380C700, .fget (r false (o 0 0) (o 16 7) (o 24 7) false)),
    (0xC60700004380C502, .fsig true false (r false (o 0 0) (o 16 7) (o 24 5) false))] = true := by decide

theorem test_words_fabric_2 : codes [
    (0xC707000042812300, .fbar (f false (o 0 0) (o 16 5) 291 false)),
    (0xC717021842800510, .fbarStep (f false (o 8 3) (o 16 5) 5 true)),
    (0xC80F00000000FF00, .drain (f true (o 0 0) (o 0 0) 255 false)),
    (0xC90F00004380C700, .rload (r true (o 0 0) (o 16 7) (o 24 7) false)),
    (0xCA47023800000000, .rstat 4 (r false (o 8 7) (o 0 0) (o 0 0) false))] = true := by decide

theorem test_words_system_1 : codes [
    (0xE0070000000002A5, .trap (i false (o 0 0) (o 0 0) 677)),
    (0xE207023800000101, .sysr (i false (o 8 7) (o 0 0) 257)),
    (0xE307000043800080, .sysw (i false (o 0 0) (o 16 7) 128)),
    (0xE407000000000042, .brk (i false (o 0 0) (o 0 0) 66)),
    (0xE50700000000FFFF, .sysc (i false (o 0 0) (o 0 0) 65535)),
    (0xE107000000000000, .rte (r false (o 0 0) (o 0 0) (o 0 0) false)),
    (0xE60F000041800000, .snap (r true (o 0 0) (o 16 3) (o 0 0) false)),
    (0xE70F000041800000, .rbk (r true (o 0 0) (o 16 3) (o 0 0) false))] = true := by decide

theorem test_words_system_2 : codes [
    (0xE80F02184180C711, .ctxsv true (r true (o 8 3) (o 16 3) (o 24 7) true)),
    (0xE90F021843800000, .ctxld (r true (o 8 3) (o 16 7) (o 0 0) false)),
    (0xEA0F000000000000, .halt (r true (o 0 0) (o 0 0) (o 0 0) false)),
    (0xF123456789ABCDEF, .med3 0x123456789ABCDEF)] = true := by decide


/-- Words with an exchange field of 101: MOD[2:0] is the exponent, and only MOD[3] keeps its meaning (R38); R237's example. -/
theorem test_words_exchange : codes [
    (0x0057022842D0C504, .iadd false 5 false { r false (o 8 5) (o 16 5) (o 24 5) false with ax := .xk, e := 4 }),
    (0x201702284280C5BB, .fadd 1 ⟨0, false, true⟩ { r false (o 8 5) (o 16 5) (o 24 5) true with bx := .xk, e := 3 }),
    (0x6A17000023D00004, .icinvLine 4 { r false z (o 8 7) z false with ax := .xk, e := 4 })] = true := by decide

/-! ## Small states

`mk cls x c` is a state in which thread 0, with contents x, stands alone on port 0 of core 0, whose contents are c, before the
last word of a clause of class cls. -/

def thr0 : Thread := { tfp := defaultTfp 0, priv := true, pc := 8, hdr := some 0 }

def mk (cls : Nat) (x : Thread := thr0) (c : Core := {}) : State :=
  { host := { ready := true }, threads := [(0, x)], cores := [(0, c)], iss := some 0
    ports := [(0, { hdr := BitVec.ofNat 64 (cls * 2 ^ 61), words := [0], pack := [0] })] }

/-- Thread 0 with value v in its slices from `lo` on. -/
def holds (lo v : Nat) (x : Thread := thr0) : Thread := { x with slices := x.slices ||| (BitVec.ofNat 2048 v <<< (4 * lo)) }

/-- A core whose TLB maps page 1 of ASID 0, at 0x10000, to PA 0x10000 in MODE 1: readable, writable, for users, DC set. -/
def mapped (c : Core := {}) : Core := { c with tlb := [⟨0, 1, 0, 0x10155, 0⟩] }

def tok3 : Tok := token 5 cBND
/-- Thread 0 with the granule of slice `lo` poisoned. -/
def bad (lo : Nat) (x : Thread := thr0) : Thread := { x with tags := [(lo / 8, tok3)] }

theorem solo (cls : Nat) (x : Thread) (c : Core) (u : Bool) : Solo (mk cls x c) 0 (px u) := by
  constructor <;> rfl

theorem thr0_pend : thr0.pend = [] := rfl

theorem idle_mk (cls : Nat) (x : Thread) (c : Core) (lo n : Nat) (h : x.pend = []) : idle (mk cls x c) 0 lo n := by
  have e : (mk cls x c).thr 0 = x := rfl
  rw [idle, e]; simp [Thread.pending, h]

def R3 : RForm := r false (o 8 5) (o 16 5) (o 24 5) false
def R7 : RForm := r false (o 8 5) (o 16 7) (o 32 7) false
def I3 : IForm := i false (o 8 5) (o 16 5) 9
def M3 : MForm := m (o 8 5) (o 16 7) 0

theorem free3 : aluFree (mk 0) 0 R3.d [rA R3, rB R3, rD R3] ∧ aluFree (mk 0) 0 R3.d [rA R3, rB R3] ∧ aluFree (mk 0) 0 R3.d [rA R3]
    ∧ aluFree (mk 0) 0 I3.d [iA I3] ∧ idle (mk 0) 0 R3.b.start.toNat R3.b.slices := by
  simp only [aluFree, unheld, idle]; decide

/-! ## States that meet the hypotheses of the statements -/

theorem meets_IntegerArithmeticResults : Solo (mk 0) 0 R3.x ∧ aluFree (mk 0) 0 R3.d [rA R3, rB R3]
    ∧ aluFree (mk 0) 0 R3.d [rA R3, rB R3, rD R3] ∧ aluFree (mk 0) 0 R3.d [rA R3] ∧ Solo (mk 0) 0 I3.x ∧ aluFree (mk 0) 0 I3.d [iA I3] :=
  ⟨solo .., free3.2.1, free3.1, free3.2.2.1, solo .., free3.2.2.2.1⟩

theorem meets_IntegerDivisionResults : Solo (mk 0) 0 R3.x ∧ aluFree (mk 0) 0 R3.d [rA R3, rB R3] := ⟨solo .., free3.2.1⟩

theorem meets_LogicAndShiftResults : Solo (mk 0) 0 R3.x ∧ aluFree (mk 0) 0 R3.d [rA R3, rB R3]
    ∧ aluFree (mk 0) 0 R3.d [rA R3, rB R3, rD R3] ∧ aluFree (mk 0) 0 R3.d [rA R3] ∧ Solo (mk 0) 0 I3.x ∧ aluFree (mk 0) 0 I3.d [iA I3] :=
  meets_IntegerArithmeticResults

theorem meets_CompareSelectMoveResults : Solo (mk 0) 0 R3.x ∧ unheld (mk 0) 0 [rA R3, rB R3] ∧ Solo (mk 0) 0 I3.x ∧ unheld (mk 0) 0 [iA I3]
    ∧ aluFree (mk 0) 0 R3.d [rA R3, rB R3] ∧ aluFree (mk 0) 0 R3.d [rA R3] ∧ idle (mk 0) 0 I3.d.start.toNat I3.d.slices
    ∧ (∀ k, (rA R3).peek (mk 0) [0] 0 = .val (.ok k) → idle (mk 0) 0 k R3.d.slices ∧ idle (mk 0) 0 k R3.b.slices)
    ∧ (rA R3).peek (mk 0) [0] 0 = .val (.ok 0) :=
  ⟨solo .., free3.2.1.1, solo .., free3.2.2.2.1.1, free3.2.1, free3.2.2.1, free3.2.2.2.1.2,
    fun k _ => ⟨idle_mk 0 thr0 {} k _ thr0_pend, idle_mk 0 thr0 {} k _ thr0_pend⟩, by decide +kernel⟩

/-- MOVH's two clauses meet at the end of the allocation: D at slice 112 lies inside, D at 113 does not. -/
theorem meets_movh : 112 + 16 ≤ ((mk 0).thr 0).alloc ∧ ¬ 113 + 16 ≤ ((mk 0).thr 0).alloc := by decide

theorem meets_PackedResults : Solo (mk 0) 0 R3.x ∧ aluFree (mk 0) 0 R3.d [rA R3, rB R3] ∧ aluFree (mk 0) 0 R3.d [rA R3]
    ∧ aluFree (mk 0) 0 R3.d [rA R3, rB R3, rD R3] := ⟨solo .., free3.2.1, free3.2.2.1, free3.1⟩

theorem meets_FloatResults : Solo (mk 0) 0 R3.x ∧ aluFree (mk 0) 0 R3.d [rA R3, rB R3] ∧ aluFree (mk 0) 0 R3.d [rA R3, rB R3, rD R3]
    ∧ aluFree (mk 0) 0 R3.d [rA R3] := ⟨solo .., free3.2.1, free3.1, free3.2.2.1⟩

theorem meets_ConversionResults : Solo (mk 0) 0 R3.x ∧ aluFree (mk 0) 0 R3.d [rA R3] ∧ aluFree (mk 0) 0 R3.d [rA R3, rB R3]
    ∧ idle (mk 0) 0 R3.b.start.toNat R3.b.slices := ⟨solo .., free3.2.2.1, free3.2.1, free3.2.2.2.2⟩

theorem meets_DotAndHalfResults : Solo (mk 0) 0 R3.x ∧ aluFree (mk 0) 0 R3.d [rA R3, rB R3] ∧ aluFree (mk 0) 0 R3.d [rA R3, rB R3, rD R3] :=
  ⟨solo .., free3.2.1, free3.1⟩

/-- A quantity from 3/16 to 3/16 + 2^-20 has binary16 codes within one ulp; it lies above the least subnormal and below the largest. -/
theorem meets_LateFloatResults : Solo (mk 0) 0 R3.x ∧ aluFree (mk 0) 0 R3.d [rA R3, rB R3] ∧ aluFree (mk 0) 0 R3.d [rA R3]
    ∧ (let x : Near := { neg := false, m := 3 * 2 ^ 16, e := -20, w := 1 }
       x.m * 2 ^ 4 ≤ codeAt f16 (f16.maxBits false) (-24) ∧ codeAt f16 1 (-24) < x.m * 2 ^ 4 + 2 ^ 4 ∧ allowedCodes f16 0 1 x ≠ []) := by
  refine ⟨solo .., free3.2.1, free3.2.2.1, ?_, ?_, ?_⟩ <;> decide +kernel

theorem meets_FloatCompareResults : Solo (mk 0) 0 R3.x ∧ unheld (mk 0) 0 [rA R3, rB R3] ∧ (f32.decode 0x3F800000).isNan = false :=
  ⟨solo .., free3.2.1.1, by decide⟩

/-- Overflow begins at 2^(bias + 1), a number of 17 bits for binary16; 0x7BFF is the largest finite code of it. -/
theorem meets_NumberFormatResults : f16 ∈ [f16, f32, f64] ∧ (∃ e, f16.decode 0x7BFF = .fin false 2047 e) ∧ 2 ^ (f16.bias + 1).toNat ≤ 65536
    ∧ ¬ 2 ^ (f16.bias + 1).toNat ≤ 65535 := by
  refine ⟨by simp, ⟨_, rfl⟩, ?_, ?_⟩ <;> decide

theorem meets_EndOfWord : (mk 0).iss.isSome = true ∧ (mk 0).cur.pack = [0] ∧ (mk 0).cur.done = [] := by decide

def B3 : BForm := b (8 * 64 + 40) 4

theorem meets_ControlTransferResults : atLast (mk 0).cur = true ∧ Solo (mk 0) 0 B3.x ∧ idle (mk 0) 0 (bOpd B3).start.toNat (bOpd B3).slices
    ∧ Solo (mk 0) 0 R7.x ∧ unheld (mk 0) 0 [rA R7] ∧ idle (mk 0) 0 R7.d.start.toNat R7.d.slices := by
  refine ⟨rfl, solo .., idle_mk 0 thr0 {} _ _ thr0_pend, solo .., ?_, idle_mk 0 thr0 {} _ _ thr0_pend⟩
  unfold unheld; decide

theorem meets_SchedulingResults : Solo (mk 0) 0 R3.x ∧ atLast (mk 0).cur = true ∧ ((mk 0).thr 0).leg = none ∧ Solo (mk 0) 0 I3.x
    ∧ ((mk 0).thr 0).count (clsOf 0) ≤ 0 := ⟨solo .., rfl, rfl, solo .., by decide⟩

/-- A poisoned address; a misaligned one; an aligned one whose word holds 0, beside the expected values 0 and 5. -/
theorem meets_WaitwResults :
    let at_ := fun (a v : Nat) => mk 0 (holds 16 a (holds 32 v)) mapped
    let vs := fun (s : State) => (readSrcs [0] 0 [rA R7, rB R7] (opened s 0)).2
    (Solo (at_ 0x10000 0) 0 R7.x ∧ (waitwOp R7).rdBusy (opened (at_ 0x10000 0) 0) [0] 0 = false)
    ∧ lowTok (vs (mk 0 (bad 16))) = some tok3
    ∧ vs (at_ 0x10001 0) = [.ok 0x10001, .ok 0]
    ∧ vs (at_ 0x10000 5) = [.ok 0x10000, .ok 5]
    ∧ (loadAt (opened (at_ 0x10000 0) 0) 0 0x10000 64 false false id).2 = .got (.clean 0)
    ∧ (match (xlat (opened (at_ 0x10000 0) 0) 0 .load 0x10000).2 with | .ok p => p.pa | _ => 0) = 0x10000 := by
  refine ⟨⟨solo .., ?_⟩, ?_, ?_, ?_, ?_, ?_⟩ <;> decide +kernel
/-- A job of one record whose entry, at 0x10008, declares nothing, put into bin 0; a poisoned address; an address that is not
mapped; a bin that holds the entry. -/
theorem meets_SpawnResults :
    let s := mk 0 (holds 16 0x10008) mapped
    let a := readSrcs [0] 0 [rA R7, rB R7] (opened s 0)
    let t := pushJob (beginSpawn a.1 0 false a.2) 0 4096
    (Solo s 0 R7.x ∧ unheld s 0 [rA R7, rB R7] ∧ (s.thr 0).spawn = none ∧ (t.thr 0).spawn.isSome = true
      ∧ ((t.thr 0).spawn.map fun j => decide (j.count ≤ j.next)) = some true ∧ unheld t 0 [rA R7, rB R7])
    ∧ lowTok [.ok 1, .bad tok3] = some tok3
    ∧ (lowTok [.ok 0x20000, .ok 1] = none ∧ (match (readEntry (mk 0) 0 0x20000).2 with | .error k => tokCause k | .ok _ => 99) = cNR)
    ∧ ∀ b : Bin, b.key = some 0x10008 → (tgetD 0 {} ((mk 0 thr0 { bins := [(0, b)] }).core 0).bins).key = some 0x10008 := by
  simp only [unheld]
  refine ⟨⟨solo .., ?_, ?_, ?_, ?_, ?_⟩, ?_, ⟨?_, ?_⟩, fun b h => h⟩ <;> decide +kernel

/-- A SPAWNN of no records: its job is over at once. -/
theorem meets_spawnn :
    let s := mk 0 (holds 16 0x10008) mapped
    let a := readSrcs [0] 0 [rA R7, rB R7] (opened s 0)
    let t := pushJob (beginSpawn a.1 0 true a.2) 0 4096
    idle s 0 16 16 ∧ (t.thr 0).spawn.isSome = true ∧ ((t.thr 0).spawn.map fun j => decide (j.count ≤ j.next)) = some true ∧ idle t 0 16 16 := by
  simp only [idle]; refine ⟨?_, ?_, ?_, ?_⟩ <;> decide +kernel

/-- The last member that JOIN can add is the 2,048th; LEAVE, ARRIVE and WAITPH act on the thread's own handle, 0. -/
theorem meets_TeamResults :
    let R := r false z (o 16 3) (o 24 3) false
    let s := mk 0 thr0 { teams := [(0, ⟨true, 2047, 0, 0⟩)] }
    let u := mk 0 { thr0 with team := some 0 } { teams := [(0, ⟨true, 1, 0, 0⟩)] }
    (Solo s 0 R.x ∧ unheld s 0 [rA R] ∧ (rA R).peek s [0] 0 = .val (.ok 0) ∧ (s.thr 0).team = none ∧ joinsUnder s = []
      ∧ (teamOf s 0 0).live = true ∧ (teamOf s 0 0).members < 2048)
    ∧ (Solo u 0 R.x ∧ unheld u 0 [rA R, rB R] ∧ (u.thr 0).team = some (BitVec.ofNat 16 0) ∧ (rB R).peek u [0] 0 = .val (.ok 0)
      ∧ relBusy (opened u 0) 0 2 = false ∧ acqBusy (opened u 0) 0 2 = false)
    ∧ (rA R).peek (mk 0 (bad 16)) [0] 0 = .val (.bad tok3) := by
  simp only [unheld]
  refine ⟨⟨solo .., ?_, ?_, ?_, ?_, ?_, ?_⟩, ⟨solo .., ?_, ?_, ?_, ?_, ?_⟩, ?_⟩ <;> decide +kernel

theorem meets_ItemResults :
    let R := r false z (o 16 5) z false
    Solo (mk 0) 0 R.x ∧ unheld (mk 0) 0 [rA R] ∧ ((mk 0).core (coreOf 0)).items.length < 4096 ∧ Solo (mk 0) 0 B3.x
      ∧ atLast (mk 0).cur = true ∧ idle (mk 0) 0 (bOpd B3).start.toNat (bOpd B3).slices := by
  simp only [unheld, idle]; refine ⟨solo .., ?_, ?_, solo .., rfl, ?_⟩ <;> decide +kernel

/-- GROW of 12 granules by a thread that has none, and SHRINK of 12 by one that has 12. -/
theorem meets_AllocationResults :
    let g := i false z z 12
    let free := fun (s : State) => 1024 - ((s.threads.filter fun p => laneKey p.1 == laneKey 0).map fun p => p.2.xgran).sum
    let u := mk 0 { thr0 with xgran := 12 }
    (Solo (mk 0) 0 g.x ∧ ((mk 0).thr 0).xgran + 12 ≤ 12 ∧ 12 ≤ free (mk 0) ∧ growWaits (mk 0) 0 = [] ∧ (mk 0).live 0 = true)
    ∧ (Solo u 0 g.x ∧ 12 ≤ (u.thr 0).xgran ∧ (u.thr 0).leg = none ∧ idle u 0 (128 + 32 * ((u.thr 0).xgran - 12)) (32 * 12)) := by
  simp only [idle]; refine ⟨⟨solo .., ?_, ?_, ?_, ?_⟩, solo .., ?_, ?_, ?_⟩ <;> decide +kernel

/-- A handle of an entry that is not live; one outside the allocation, at slices 125 to 128. -/
theorem meets_QueryAndFutureResults :
    let F := r false (o 8 3) (o 16 3) z false
    let G := r false (o 8 3) (o 125 3) z false
    (Solo (mk 0) 0 F.x ∧ idle (mk 0) 0 8 4 ∧ (readRaw (rA F) (opened (mk 0) 0) [0] 0).2 = .got 0 [none, none, none, none]
      ∧ futLive (opened (mk 0) 0) (coreOf 0) 0 = none ∧ 8 + 4 ≤ ((mk 0).thr 0).alloc)
    ∧ (Solo (mk 0) 0 G.x ∧ (match (readRaw (rA G) (opened (mk 0) 0) [0] 0).2 with | .out k => tokCause k | _ => 99) = cBND) := by
  simp only [idle]; refine ⟨⟨solo .., ?_, ?_, ?_, ?_⟩, solo .., ?_⟩ <;> decide +kernel

/-! ### Memory -/

/-- A translation that reached a leaf, of which q holds. -/
def page (t : Tr) (q : Page → Bool) : Bool := match t with | .ok p => q p | _ => false

/-- LD of a poisoned address and of a mapped one; LD.V of two elements. -/
theorem meets_LoadResults :
    let s := mk 0 (holds 16 0x10000) mapped
    let d : LdSpec := ⟨32, false, false, true, [⟨0, 8, 8⟩]⟩
    let v : LdSpec := ⟨32, false, false, false, [⟨0, 8, 8⟩, ⟨4, 16, 8⟩]⟩
    let free := fun (s : State) (d : LdSpec) => (∀ e ∈ d.els, (s.thr 0).pending e.lo e.n = false)
      ∧ ∀ e ∈ d.els, fillBusy (opened s 0) 0 (0x10000 + BitVec.ofNat 64 e.off) d.bits = false
    Solo s 0 M3.x ∧ unheld s 0 [mA M3] ∧ reqFull s (coreOf 0) = false
    ∧ ((memGate M3 [0] 4).wait s [0] [0] = false ∧ (memGate M3 [0] 4).watch s [0] = []) ∧ cleanEa M3 s [0] 0 = some 0x10000 ∧ free s d
    ∧ ((memGate M3 [0] 8).wait s [0] [0] = false ∧ (memGate M3 [0] 8).watch s [0] = []) ∧ free s v
    ∧ (mA M3).read (opened (mk 0 (bad 16)) 0) [0] 0 = (opened (mk 0 (bad 16)) 0, .bad tok3) := by
  simp only [unheld]
  refine ⟨solo .., ?_, ?_, ⟨?_, ?_⟩, ?_, ⟨?_, ?_⟩, ⟨?_, ?_⟩, ⟨?_, ?_⟩, ?_⟩ <;> decide +kernel

/-- A table at 0x10000 whose entry for VA 0 is `e`. -/
def rooted (e : Nat) : State :=
  { mk 0 thr0 { ptbr := 0x10000 } with mem := ({} : Memory).setNum 0x10000 e 8 }

/-- Misaligned; absent; malformed; poisoned entry; a word that the L1 holds. -/
theorem meets_LoadOutcome :
    let s := mk 0 thr0 (mapped { l1 := [(0x4000, { val := .ok 7 })] })
    let poisoned := { mk 0 thr0 { ptbr := 0x10000 } with mem := ({} : Memory).setWord 0x4000 (.bad tok3) }
    (0x10001 : W64).toNat % (32 / 8) ≠ 0
    ∧ (xlat (rooted 0) 0 .load 0).2 = .fault cNR
    ∧ (xlat (rooted 1) 0 .load 0).2 = .fault cPROT ∧ cPROT ≠ cNR
    ∧ (xlat poisoned 0 .load 0).2 = .carried tok3
    ∧ page (xlat s 0 .load 0x10000).2 (fun p =>
        p.peer == 0 && (tget (l1Key p.peer (p.pa / 4)) ((xlat s 0 .load 0x10000).1.core 0).l1).isSome) = true := by
  refine ⟨?_, ?_, ?_, ?_, ?_, ?_⟩ <;> decide +kernel

/-- Bit 52 is the lowest that fails; an address below it that nothing caches walks, and finds no entry; a table that the die has cached. -/
theorem meets_TranslationChecks :
    2 ^ 52 ≤ (BitVec.ofNat 64 (2 ^ 52) : W64).toNat ∧ (BitVec.ofNat 64 (2 ^ 52 - 1) : W64).toNat < 2 ^ 52
    ∧ (let s := rooted 0
       tlbHit 0 0 (s.core 0).tlb = none ∧ tlbHit 0 0 (s.die (dieOf 0)).cache = none ∧ (walk s (s.die (dieOf 0)).cache 0 0 0x10000 4).1 = .fault cNR ∧ tableHit 0 0 3 [] = none
       ∧ homeWord s 0x4000 = .ok 0 ∧ homeWord s 0x4001 = .ok 0)
    ∧ (tableHit 0 0 3 [⟨0, 0, 3, 0x1000003, 0x10000⟩]).isSome = true
    ∧ homeWord { mk 0 with mem := ({} : Memory).setWord 1 (.bad tok3) } 0 = .ok 0
    ∧ homeWord { mk 0 with mem := ({} : Memory).setWord 1 (.bad tok3) } 1 = .bad tok3 := by
  refine ⟨?_, ?_, ⟨?_, ?_, ?_, ?_, ?_, ?_⟩, ?_, ?_, ?_⟩ <;> decide +kernel

theorem meets_StoreResults :
    let s := mk 0 (holds 16 0x10000) mapped
    Solo s 0 M3.x ∧ unheld s 0 [mA M3] ∧ reqFull s (coreOf 0) = false
    ∧ ((memGate M3 [1] 4).wait s [0] [0] = false ∧ (memGate M3 [1] 4).watch s [0] = []) ∧ idle s 0 8 8
    ∧ ((memGate M3 [1] 8).wait s [0] [0] = false ∧ (memGate M3 [1] 8).watch s [0] = []) ∧ idle s 0 16 8
    ∧ (0x10002 : W64).toNat % (32 / 8) ≠ 0
    ∧ (xlat s 0 .store 0x20000).2 = .fault cNR
    ∧ page (xlat s 0 .store 0x10000).2 (fun p => p.peer == 0) = true ∧ (s.thr 0).leg = none := by
  simp only [unheld, idle]
  refine ⟨solo .., ?_, ?_, ⟨?_, ?_⟩, ?_, ⟨?_, ?_⟩, ?_, ?_, ?_, ?_, ?_⟩ <;> decide +kernel

/-- An address on this device's page, on an absent page, on a page of device 3 that the rose reaches, misaligned, poisoned, and below a poisoned entry. -/
theorem meets_ProbeAndAtomResults :
    let s := mk 0 (holds 16 0x10000) mapped
    let u := mk 0 (holds 16 0x20000) mapped
    let rose : Rose := { slots := [[some 3]] }
    let far := { mk 0 (holds 16 0x10000) { tlb := [⟨0, 1, 0, 0x0030000000010155, 0⟩] } with fab := { rose := some rose } }
    let poisoned := { mk 0 thr0 { ptbr := 0x10000 } with mem := ({} : Memory).setWord 0x4000 (.bad tok3) }
    let rs : List Src := [mA M3, ⟨8, 8, .self, 0, false⟩]
    Solo s 0 M3.x
    ∧ ((memGate M3 [0] 4).wait s [0] [0] = false ∧ (memGate M3 [0] 4).watch s [0] = [])
    ∧ ((memGate M3 [1] 4).wait s [0] [0] = false ∧ (memGate M3 [1] 4).watch s [0] = [])
    ∧ (unheld s 0 [mA M3] ∧ unheld s 0 rs)
    ∧ (reqFull s 0 = false ∧ idle s 0 8 8 ∧ cleanEa M3 s [0] 0 = some 0x10000 ∧ fillBusy (opened s 0) 0 0x10000 32 = false)
    ∧ ((mA M3).read (opened s 0) [0] 0).2 = .ok 0x10000
    ∧ (absent (opened s 0) 0 0x10000 = false ∧ absent (opened u 0) 0 0x20000 = true)
    ∧ (absentPage (opened s 0) 0 0x10000 = none ∧ absentPage (opened u 0) 0 0x20000 = some { asid := 0, page := 2 }
      ∧ pageRoom (opened u 0) 0 0 2 = true)
    ∧ ((readSrcs [0] 0 rs (opened s 0)).2 = [.ok 0x10000, .ok 0] ∧ (0x10002 : W64).toNat % (32 / 8) ≠ 0)
    ∧ (readSrcs [0] 0 rs (opened (mk 0 (bad 16)) 0)).2 = [.bad tok3, .ok 0]
    ∧ (readSrcs [0] 0 rs (opened (mk 0 (bad 8)) 0)).2 = [.ok 0, .bad tok3]
    ∧ (xlat u 0 .store 0x20000).2 = .fault cNR ∧ (xlat poisoned 0 .store 0).2 = .carried tok3
    ∧ page (xlat (opened s 0) 0 .store 0x10000).2 (fun p => p.peer == 0) = true
    ∧ page (xlat (opened far 0) 0 .store 0x10000).2 (fun p => p.peer == 3) = true := by
  simp only [unheld, idle]
  refine ⟨solo .., ⟨?_, ?_⟩, ⟨?_, ?_⟩, ⟨?_, ?_⟩, ⟨?_, ?_, ?_, ?_⟩, ?_, ⟨?_, ?_⟩, ⟨?_, ?_, ?_⟩, ⟨?_, ?_⟩, ?_, ?_, ?_, ?_, ?_, ?_⟩ <;> decide +kernel

/-- SLD and SST, SPL and FIL of slices 8 to 15, the first step of LDM with more to come and the only step of another. -/
theorem meets_ScratchResults :
    let S := m (o 8 5) (o 16 5) 0
    let P := r false (o 8 0) (o 16 5) (o 15 0) false
    let L := m (o 8 5) (o 16 7) 0
    let s := mk 0 (holds 16 0x10000) mapped
    let t := ldmCapture L [0] [0] (opened s 0)
    (Solo s 0 S.x ∧ unheld s 0 [mA S] ∧ reqFull s (coreOf 0) = false ∧ idle s 0 8 8)
    ∧ (Solo s 0 P.x ∧ unheld s 0 [rA P] ∧ idle s 0 (splLo P) (splN P) ∧ splLo P + splN P ≤ (s.thr 0).alloc)
    ∧ (Solo s 0 L.x ∧ unheld s 0 [mA L] ∧ (s.thr 0).seq = false ∧ (ldmGate L 1).watch s [0] = [] ∧ (ldmGate L 2).watch s [0] = []
      ∧ (t.thr 0).seqstep = 0 ∧ t.cur.done = [] ∧ ldmBusy L 0 t 0 = false ∧ (ldmStep L 0 t 0).cur.done = []
      ∧ (ldmStep L 0 t 0).iss = s.iss ∧ s.iss.isSome = true) := by
  simp only [unheld, idle]
  refine ⟨⟨solo .., ?_, ?_, ?_⟩, ⟨solo .., ?_, ?_, ?_⟩, solo .., ?_, ?_, ?_, ?_, ?_, ?_, ?_, ?_, ?_, ?_⟩ <;> decide +kernel

theorem meets_FenceResults :
    Solo (mk 0) 0 R7.x ∧ acqBusy (opened (mk 0) 0) 0 5 = false ∧ relBusy (opened (mk 0) 0) 0 5 = false ∧ unheld (mk 0) 0 [rA R7] := by
  simp only [unheld]; refine ⟨solo .., ?_, ?_, ?_⟩ <;> decide +kernel

def leg0 : Leg := { lo := 0, n := 1, absent := [], pc := 16, hdr := none }

/-- A NR token in granule 1, whose origin entry is at 0. -/
def absent1 : Thread := { thr0 with leg := some leg0, tags := [(1, token 0 cNR)] }

/-- LEG of granule 2; COMMIT of granules 1 to 2 with nothing poisoned, with a token that cannot replay, and with one that can. -/
theorem meets_LegResults :
    let L := r false (o 16 0) z z false
    let C := b (1 * 512 + 2 * 8) 4
    let s := mk 0 { thr0 with leg := some leg0 }
    let dead := mk 0 { bad 8 with leg := some leg0 }
    let nr := mk 0 absent1 { org := [(0, { addr := 0x10000, info := BitVec.ofNat 64 cNR })] }
    (Solo (mk 0) 0 L.x ∧ ((mk 0).thr 0).leg = none ∧ idle (mk 0) 0 (8 * 2) (8 * 1))
    ∧ (Solo s 0 C.x ∧ (s.thr 0).leg = some leg0 ∧ atLast s.cur = true ∧ accessesOut (opened s 0) 0 = false ∧ reqPending (opened s 0) 0 8 16 = false
      ∧ livePoison (opened s 0) 0 1 2 = [])
    ∧ (livePoison (opened dead 0) 0 1 2 = [tok3] ∧ tokCause tok3 ≠ cNR)
    ∧ (livePoison (opened nr 0) 0 1 2 = [token 0 cNR] ∧ leg0.replays < 4 ∧ leg0.replayable = true
      ∧ (nrEntry (opened nr 0) 0 (token 0 cNR)).isSome = true ∧ pagesRoom (opened nr 0) 0 (replayPages (opened nr 0) 0 [token 0 cNR]) = true) := by
  simp only [idle]
  refine ⟨⟨solo .., ?_, ?_⟩, ⟨solo .., ?_, ?_, ?_, ?_, ?_⟩, ⟨?_, ?_⟩, ?_, ?_, ?_, ?_, ?_⟩ <;> decide +kernel

/-- No live poison, though granule 3 is poisoned; each of the three kinds. -/
theorem meets_LivePoison :
    let C := b (1 * 512 + 2 * 8) 4
    let s := mk 0 { bad 24 with leg := some leg0 }
    let g := mk 0 { bad 16 with leg := some leg0 }
    let h := mk 0 { thr0 with leg := some leg0 } { quar := [{ tid := 0, val := .bad tok3 }] }
    Solo s 0 C.x ∧ (s.thr 0).leg.isSome = true ∧ atLast s.cur = true ∧ accessesOut (opened s 0) 0 = false ∧ reqPending (opened s 0) 0 8 16 = false
    ∧ (tget 1 (s.thr 0).tags = none ∧ tget 2 (s.thr 0).tags = none ∧ (s.core 0).quar = [] ∧ (s.thr 0).drop = none)
    ∧ (8 * 2 < (g.thr 0).alloc ∧ tget 2 (g.thr 0).tags = some tok3)
    ∧ ((h.core 0).quar.any fun q => q.tid == 0 && q.val == .bad tok3) = true := by
  refine ⟨solo .., ?_, ?_, ?_, ?_, ⟨?_, ?_, ?_, ?_⟩, ⟨?_, ?_⟩, ?_⟩ <;> decide +kernel

/-- D at the end of the allocation, and one slice beyond it. -/
theorem meets_PoisonWordResults :
    let P := r false (o 120 5) (o 16 4) z false
    let Q := r false (o 121 5) (o 16 4) z false
    Solo (mk 0) 0 P.x ∧ unheld (mk 0) 0 [rA P] ∧ idle (mk 0) 0 120 8 ∧ 120 + P.d.slices ≤ ((mk 0).thr 0).alloc
    ∧ ¬ 121 + Q.d.slices ≤ ((mk 0).thr 0).alloc ∧ idle (mk 0) 0 121 8 := by
  simp only [unheld, idle]; refine ⟨solo .., ?_, ?_, ?_, ?_, ?_⟩ <;> decide +kernel
/-! ### Engines -/

/-- 256 rows of 64 elements of 32 bits: 64 KiB. -/
def shape : W64 := 0x0000002000400100

/-- Tables: empty; with the 256 scratch entries live; with 8,192 accumulator blocks used, where one of 64 more is too many. -/
theorem meets_TileWordResults :
    let R := r false (o 8 3) (o 16 7) z false
    let F := r false z (o 16 3) z false
    let busy := mk 1 thr0 { tiles := (List.range 256).map fun i => (i, { live := true }) }
    let full := mk 1 thr0 { tiles := (List.range 128).map fun i => (256 + i, { live := true, shape := shape }) }
    (Solo (mk 1) 0 R.x ∧ inClass (mk 1) 1 ∧ aluFree (mk 1) 0 R.d [rA R] ∧ (tfreeOp F).rdBusy (opened (mk 1) 0) [0] 0 = false)
    ∧ (shOk 0 = false ∧ shOk shape = true ∧ shPlanes shape = false ∧ shBits shape = 32)
    ∧ (ctxTiles busy 0 = [] ∧ freeTile busy 0 0 = none)
    ∧ (ctxTiles full 0 = [] ∧ freeTile full 0 1 = some 128 ∧ 8192 < usedAcc (full.core 0) + shBlocks shape)
    ∧ (freeTile (mk 1) 0 1 = some 0 ∧ ¬ 8192 < usedAcc ((mk 1).core 0) + shBlocks shape) := by
  simp only [inClass, aluFree, unheld, idle]
  refine ⟨⟨solo .., ?_, ⟨?_, ?_⟩, ?_⟩, ⟨?_, ?_, ?_, ?_⟩, ⟨?_, ?_⟩, ⟨?_, ?_, ?_⟩, ?_, ?_⟩ <;> decide +kernel

theorem futs (cls : Nat) (n : Cls) (d : Opd) (rs : List Src) (h : unheld (mk cls) 0 rs) (k : futFull (mk cls) (coreOf 0) = false) : cmdFree (mk cls) 0 n (some d) rs := by
  refine ⟨h, ?_, fun e he => ?_⟩
  · have e : (mk cls).thr 0 = thr0 := rfl
    rw [e]; cases n <;> decide
  · cases he
    exact ⟨idle_mk cls thr0 {} _ _ thr0_pend, k⟩

theorem meets_StreamCommandResults :
    let R := r false (o 8 3) (o 16 7) (o 32 7) true
    Solo (mk 1) 0 R.x ∧ inClass (mk 1) 1 ∧ (((mk 1).core (coreOf 0)).strQ.filter fun k => k.stage == 0).length < 64
    ∧ cmdFree (mk 1) 0 .s (some R.d) [rA R] ∧ cmdFree (mk 1) 0 .s (some R.d) [rA R, rB R] := by
  refine ⟨solo .., ?_, ?_, futs _ _ _ _ ?_ ?_, futs _ _ _ _ ?_ ?_⟩ <;> (try simp only [inClass, unheld]) <;> decide +kernel

/-- A live ring in slot 0, first without and then with a filled slot; a handle of no live ring; an empty and a filled queue. -/
theorem meets_RingAndQueueResults :
    let R := r false (o 8 5) (o 16 3) z false
    let ring : Ring := { live := true, slotB := 64, nslot := 2, free := 1, filled := 1 }
    let s := mk 1 thr0 { rings := [(0, ring)] }
    let q := mk 1 { thr0 with queues := [(0, { elems := [.ok 7], left := 3 })] }
    Solo (mk 1) 0 R.x ∧ inClass (mk 1) 1 ∧ aluFree (mk 1) 0 R.d [rA R, rB R] ∧ (sringFreeOp R).rdBusy (opened (mk 1) 0) [0] 0 = false
    ∧ loadsOut (mk 1) 0 = false ∧ scratchReads (mk 1) 0 = false
    ∧ (engaged s 0 [rA R]).2 = [.ok 0] ∧ (rpopOp R).rdBusy (opened s 0) [0] 0 = false ∧ (tgetD 0 {} (s.core 0).rings).live = true
    ∧ (engaged (mk 1) 0 [rA R]).2 = [.ok 0] ∧ (tgetD 0 {} ((mk 1).core 0).rings).live = false
    ∧ (engaged (mk 1 (bad 16)) 0 [rA R]).2 = [.bad tok3]
    ∧ (tgetD 0 { bound := false } (q.thr 0).queues).elems = [.ok 7] ∧ (tgetD 0 { bound := false } ((mk 1).thr 0).queues).elems = []
    ∧ (tgetD 0 { bound := false } ((mk 1).thr 0).queues).bound = false := by
  simp only [inClass, aluFree, unheld, idle]
  refine ⟨solo .., ?_, ⟨?_, ?_⟩, ?_, ?_, ?_, ?_, ?_, ?_, ?_, ?_, ?_, ?_, ?_, ?_⟩ <;> decide +kernel

theorem meets_MatrixCommandResults :
    let R := r false (o 8 3) (o 16 5) (o 32 5) true
    let X : XForm := { xf with h := 64, fd := 96 }
    let prior : MatCmd := { id := 7, tids := [0], op := .loop 0 0 0 (.word 0) [] [] 0 32 true 64 }
    let chain := mk 2 { thr0 with pend := [{ lo := 76, n := 8, id := 7 }] } { matQ := [prior] }
    Solo (mk 2) 0 R.x ∧ inClass (mk 2) 2 ∧ ((mk 2).core (coreOf 0)).matQ.length < 8
    ∧ cmdFree (mk 2) 0 .m (some R.d) [rA R] ∧ cmdFree (mk 2) 0 .m (some R.d) [rA R, rB R]
    ∧ aluFree (mk 2) 0 R.d [] ∧ aluFree (mk 2) 0 R.d [rA R]
    ∧ (Solo (mk 2) 0 X.x ∧ (mloopOp X).rdBusy (opened (mk 2) 0) [0] 0 = false ∧ (mloopOp X).wrBusy (opened (mk 2) 0) 0 = false
      ∧ offFrom (opened (mk 2) 0) 0 64 = none)
    ∧ (Solo chain 0 X.x ∧ inClass chain 2 ∧ (mloopOp X).rdBusy (opened chain 0) [0] 0 = false
      ∧ (mloopOp X).wrBusy (opened chain 0) 0 = false ∧ offFrom (opened chain 0) 0 64 = some 7) := by
  refine ⟨solo .., ?_, ?_, futs _ _ _ _ ?_ ?_, futs _ _ _ _ ?_ ?_, ⟨?_, ?_⟩, ⟨?_, ?_⟩, ⟨solo .., ?_, ?_, ?_⟩, solo .., ?_, ?_, ?_, ?_⟩ <;> (try simp only [inClass, unheld, idle]) <;> decide +kernel

/-- Formats 32 (integer) and 16 (binary8); scales that are clean, poisoned, and of 0xFE and 0xFF. -/
theorem meets_MatrixStepElements : fmtInt 32 = true ∧ fmtInt 16 = false ∧ lowTok [.ok 1, .ok 2, .bad tok3] = some tok3
    ∧ lowTok [.ok 0xFE, .ok 0xFF, .ok 0] = none ∧ (Val.ok 0xFE).num ≠ 0xFF ∧ (Val.ok 0xFF).num = 0xFF := by decide

/-- A queued command; a loop of one step before its step, past it, and stopped by a cancellation at a boundary; a loop whose step has begun, and
one at a boundary; a zeroing command under way. -/
theorem meets_MatrixEngineEvents :
    let one : MatOp := .loop 0 0 0 (.word 0) [] [] 0 32 false 64
    let way : MatCmd := { op := one, started := true }
    let at_ := fun (k : MatCmd) => (mk 2 thr0 { matQ := [k] }).core 0
    (at_ { op := one }).matQ = [{ op := one }] ∧ ({ op := one } : MatCmd).stopAt = none
    ∧ (at_ way).matQ = [way] ∧ (way.step ≤ 0 ∧ way.stopAt ≠ some way.step)
    ∧ (0 < ({ way with step := 1 } : MatCmd).step ∧ ({ way with step := 1 } : MatCmd).cancelled = false)
    ∧ (let k : MatCmd := { way with cancelled := true, stopAt := some 0 }; k.cancelled = true ∧ k.stopAt = some k.step)
    ∧ way.inStep (mk 2) 0 = true ∧ ({ way with due := 99 } : MatCmd).inStep (mk 2) 0 = false
    ∧ (at_ { op := .zero 0, started := true }).matQ = [{ op := .zero 0, started := true }] := by
  refine ⟨rfl, rfl, rfl, ⟨?_, ?_⟩, ⟨?_, rfl⟩, ⟨rfl, rfl⟩, ?_, ?_, rfl⟩ <;> decide

/-- CMB and CMBU of a mapped object, of a misaligned address, of a page that is not mapped, and of a poisoned address; CMBDEF. -/
theorem meets_CombineResults :
    let R := r false (o 8 5) (o 16 7) (o 32 5) false
    let D := r true (o 8 3) (o 16 7) z false
    let s := mk 3 (holds 16 0x10000) mapped
    Solo s 0 R.x ∧ Solo s 0 D.x ∧ inClass s 3 ∧ combOut s (coreOf 0) < 256 ∧ (s.thr 0).count .c < 63 ∧ idle s 0 8 8
    ∧ unheld s 0 (combSrcs false R) ∧ unheld s 0 (combSrcs true R) ∧ unheld s 0 [rA R, rB R]
    ∧ ((s.thr 0).priv = true ∧ unheld s 0 [rA D] ∧ (engaged s 0 [rA D]).2 = [.ok 0x10000])
    ∧ page (xlat s 0 .store 0x10000).2 (fun p => p.peer == 0) = true
    ∧ (engaged (mk 3 (bad 16)) 0 [rA D]).2 = [.bad tok3] := by
  simp only [inClass, unheld, idle]
  refine ⟨solo .., solo .., ?_, ?_, ?_, ?_, ?_, ?_, ?_, ⟨?_, ?_, ?_⟩, ?_, ?_⟩ <;> decide +kernel

/-- APPEND's two answers meet at the limit: 5 + 2 is at most 7, and 5 + 3 is not. -/
theorem meets_CombineMethods : ([.ok 5, .ok 7] : List Val)[0]? = some (.ok (5 : BitVec 32).toNat)
    ∧ ([.ok 5, .ok 7] : List Val)[1]? = some (.ok (7 : BitVec 32).toNat) ∧ ([.bad tok3] : List Val)[0]? = some (.bad tok3)
    ∧ copyNum [.ok 1, .ok 0] 0 true = some 1 ∧ ((5 : BitVec 32).toNat + (2 : BitVec 32).toNat < 2 ^ 32
      ∧ (5 : BitVec 32).toNat + (2 : BitVec 32).toNat ≤ (7 : BitVec 32).toNat)
    ∧ ¬ (5 : BitVec 32).toNat + (3 : BitVec 32).toNat ≤ (7 : BitVec 32).toNat ∧ ({ user := false } : CReq).user = false := by
  decide

theorem meets_FabricCommandResults :
    let R := r true (o 8 3) (o 16 7) (o 32 7) true
    let F := f true (o 8 3) (o 16 5) 9 true
    Solo (mk 4) 0 R.x ∧ Solo (mk 4) 0 F.x ∧ inClass (mk 4) 4 ∧ cmdFree (mk 4) 0 .f (some F.d) [] ∧ cmdFree (mk 4) 0 .f (some F.d) [fA F]
    ∧ cmdFree (mk 4) 0 .f (some R.d) [rA R, rB R] ∧ ((mk 4).thr 0).priv = true ∧ rosePending (mk 4) = false ∧ idle (mk 4) 0 8 4 := by
  refine ⟨solo .., solo .., ?_, futs _ _ _ _ ?_ ?_, futs _ _ _ _ ?_ ?_, futs _ _ _ _ ?_ ?_, ?_, ?_, ?_⟩ <;> (try simp only [inClass, unheld, idle]) <;> decide +kernel

/-- FLUSHR of this device and of a device that no rose names; FBAR of no arrivals, and of one at such a device; FSIG of a misaligned
and of an aligned word, with its invalidations acknowledged and not; FPUT of a tile that is not live, and of a live one from a
misaligned address. -/
theorem meets_FabricCommandEffects :
    let k : FabCmd := { kind := .flushr 7 }
    let s := mk 4 thr0 (mapped { tiles := [(0, { live := true, shape := shape })] })
    k.sent = false ∧ k.tags = [] ∧ (k.fault = none ∧ k.lines = [])
    ∧ (acked s 0 = true ∧ acked { s with msgs := [⟨.inval, 1, 0x4000, 0⟩] } 0 = false) ∧ s.fab.dev.toNat = 0 ∧ (7 ≠ 0 ∧ reachable s 7 = false)
    ∧ bitsOf 0 11 0 = 0 ∧ ¬ (bitsOf (7 * 2 ^ 16 + 1) 11 0 = 0 ∨ bitsOf (7 * 2 ^ 16 + 1) 15 12 ≠ 0 ∨ bitsOf (7 * 2 ^ 16 + 1) 31 28 ≠ 0)
    ∧ bitsOf (7 * 2 ^ 16 + 1) 27 16 = 7
    ∧ (0x10002 : W64).toNat % 4 ≠ 0 ∧ (0x10000 : W64).toNat % 4 = 0
    ∧ page (translate s 0 ⟨(spaceOf k.root).root, k.asid⟩ k.user .store 0x10000).2 (fun p => p.peer == 0) = true
    ∧ tileFail (mk 4) 0 0 ⟨0, false⟩ true 0 0 = some cSTALE ∧ tileFail s 0 0 ⟨0, false⟩ true 0 0 = none := by
  refine ⟨?_, ?_, ⟨?_, ?_⟩, ⟨?_, ?_⟩, ?_, ⟨?_, ?_⟩, ?_, ?_, ?_, ?_, ?_, ?_, ?_, ?_⟩ <;> decide +kernel

/-! ### System -/

/-- A supervisor thread in a clause of class 5; one in a handler, whose frame's header lies outside every clause. -/
theorem meets_SystemWordResults :
    let I := i false (o 8 7) z 0x40
    let R := r true z z z false
    let s := mk 5
    let u := mk 5 { thr0 with hdepth := 1 } { tlb := [⟨0, 0, 0, 0x1015D, 0⟩] }
    Solo s 0 I.x ∧ Solo s 0 R.x ∧ inClass s 5 ∧ (sysReadSup 0x40 = true → (s.thr 0).priv = true) ∧ idle s 0 8 16
    ∧ (sysWriteSup 0x40 = true → (s.thr 0).priv = true) ∧ unheld s 0 [iA I]
    ∧ (∀ p ∈ s.threads, coreOf p.1 = coreOf 0 → p.2.outst = [])
    ∧ (Solo u 0 (px false) ∧ atLast u.cur = true ∧ 0 < (u.thr 0).hdepth ∧ (u.thr 0).pending 96 32 = false ∧ (u.thr 0).hold.noPage = false
      ∧ (match (heads 0 false [0] u).2 with | .ok _ => true | _ => false) = true) := by
  simp only [inClass, unheld, idle]
  refine ⟨solo .., solo .., ?_, fun _ => rfl, ?_, fun _ => rfl, ?_, ?_, solo .., ?_, ?_, ?_, ?_, ?_⟩ <;> decide +kernel

/-- Both sides of ORGCTL's and TSTAT's clauses; the migration base is the highest number that the list names, 0x103 lies beyond. -/
theorem meets_SystemRegisterFields : (mk 5).live 0 = true ∧ (0x4000000000000000 : W64).getLsbD 62 = true
    ∧ ((0x8000000500000000 : W64).getLsbD 62 = false ∧ (0x8000000500000000 : W64).getLsbD 63 = true
      ∧ ((0x8000000500000000 : W64).extractLsb' 32 12).toNat = 5)
    ∧ ((0 : W64).getLsbD 62 = false ∧ (0 : W64).getLsbD 63 = false) ∧ (0x100000 : W64).getLsbD 20 = true
    ∧ 0x103 ∉ [0x040, 0x060, 0x061, 0x062, 0x080, 0x084, 0x085, 0x090, 0x091, 0x092, 0x093, 0x0A0, 0x0C0, 0x0E0, 0x0E8, 0x101, 0x102] := by
  decide

/-- Clause class 0 admits a word of class 0 and not one of class 5; a user thread does not hold a privileged word; frames at
depth 0, 1 and 2; a frame tile of another core's ASID cannot be reached. -/
theorem meets_TrapEntryAndReturn :
    let s := mk 0
    let user := mk 0 { thr0 with priv := false }
    let deep := fun (n : Nat) => mk 0 { thr0 with hdepth := n }
    let lost := mk 0 { thr0 with tfp := 0 }
    admitted s.cur.hdr (some 5) = false
    ∧ (admitted s.cur.hdr (some 0) = true ∧ atLast s.cur = true ∧ (user.thr 0).priv = false)
    ∧ (({} : Gate).bad s [0] s.cur.pack = false ∧ ({} : Gate).brk = none ∧ ({ brk := some (tBRK, 7, false) } : Gate).brk = some (tBRK, 7, false))
    ∧ ({ bad := fun s acts _ => acts.any fun t => (s.thr t).leg.isSome } : Gate).bad (mk 0 { thr0 with leg := some leg0 }) [0] [0] = true
    ∧ (s.iss = some 0 ∧ ∀ t ∈ s.cur.pack, (s.thr t).pending 96 32 = false)
    ∧ ((deep 2).thr 0).hdepth = 2 ∧ ((deep 1).thr 0).hdepth ≠ 2 ∧ frameFail (deep 1) 0 0x60 0x60 = none
    ∧ frameFail lost 0 0 0x60 = some cSTALE
    ∧ (match readFrame (deep 1) 0 with | .ok l => framePoison l == none | .error _ => false) = true := by
  refine ⟨?_, ⟨?_, ?_, ?_⟩, ⟨?_, ?_, ?_⟩, ?_, ⟨?_, ?_⟩, ?_, ?_, ?_, ?_, ?_⟩ <;> decide +kernel

/-- A member of team 0; its valid snapshot; a save of team 1, which is live, with a future and without one, whose save is done. -/
theorem meets_TeamImageResults :
    let R := r true z (o 16 3) z false
    let S := r true (o 8 3) (o 24 3) (o 32 7) true
    let s := { mk 5 { thr0 with team := some 0 } with snaps := [(0, { valid := true })] }
    let v : Save := { lead := 0, done := true }
    let u := { mk 5 (holds 24 1) { teams := [(1, ⟨true, 1, 0, 0⟩)] } with saves := [v] }
    (Solo s 0 R.x ∧ inClass s 5 ∧ unheld s 0 [rA R] ∧ (rA R).peek s [0] 0 = .val (.ok 0) ∧ (s.thr 0).team = some (BitVec.ofNat 16 0)
      ∧ (s.thr 0).leg = none ∧ (s.thr 0).outst = [] ∧ (tgetD (teamKey 0 0) {} s.snaps).valid = true)
    ∧ (Solo u 0 S.x ∧ inClass u 5 ∧ (u.thr 0).priv = true ∧ unheld u 0 [rA S, rB S] ∧ (rA S).peek u [0] 0 = .val (.ok 1)
      ∧ (readSrcs [0] 0 [rA S, rB S] (opened u 0)).2 = [.ok 1, .ok 0] ∧ badHandle 1 = false ∧ (teamEnt u (teamKey 0 1)).live = true
      ∧ (u.thr 0).team ≠ some (BitVec.ofNat 16 1) ∧ idle u 0 8 4 ∧ futFull u 0 = false ∧ ownSave u 0 = some v)
    ∧ (tgetD (clusterOf (coreOf 0)) 0 s.clusters).toNat % 2 ^ 8 = 0
    ∧ (tgetD (clusterOf (coreOf 0)) 0 ({ s with clusters := [(0, 1)] } : State).clusters).toNat % 2 ^ 8 ≠ 0
    ∧ imageAt s 0 0 = none ∧ (ctxld s 0 0).2 ≠ 0 := by
  simp only [inClass, unheld, idle]
  refine ⟨⟨by constructor <;> rfl, ?_, ?_, ?_, ?_, ?_, ?_, ?_⟩, ⟨by constructor <;> rfl, ?_, ?_, ?_, ?_, ?_, ?_, ?_, ?_, ?_, ?_, ?_⟩, ?_, ?_, ?_, ?_⟩ <;> decide +kernel

theorem meets_MethodMaskRegister :
    let I := i false (o 8 7) (o 24 7) 0x0C1
    inClass (mk 5) 5 ∧ Solo (mk 5) 0 I.x ∧ I.imm = 0x0C1 ∧ idle (mk 5) 0 8 16 ∧ unheld (mk 5) 0 [iA I] := by
  simp only [inClass, unheld, idle]; refine ⟨?_, solo .., ?_, ?_, ?_⟩ <;> decide +kernel
/-! ### Events -/

/-- Thread 0 alone, off every port, before the clause at VA 0, whose page is mapped and holds zero words. -/
def off (x : Thread := { thr0 with pc := 0, hdr := none }) (c : Core := {}) : State :=
  { mk 0 x { c with tlb := [⟨0, 0, 0, 0x1015D, 0⟩] } with ports := [], iss := none }

theorem meets_RegisterOperationEvents :
    let s := mk 0 thr0 { halted := true }
    dieOf ((0 : W64).toNat % 2 ^ 10) = dieOf 1 ∧ (s.core ((0 : W64).toNat % 2 ^ 10)).halted = true
    ∧ ((mk 0).core ((0 : W64).toNat % 2 ^ 10)).halted = false ∧ dieOf ((96 : W64).toNat % 2 ^ 10) ≠ dieOf 1 := by decide

/-- A vote of port A that chooses thread 0, and one of port B beside a filled port A; a bin whose 256 cycles are over to the cycle; an epoch whose 4,096 are; a sleep and a watch that are
due; late results of each kind; a word dirty for 4,096 cycles; a message of each kind. -/
theorem meets_ThreadEngineEvents :
    let s := off
    let ts := (laneThreads s (voteLane s 0)).filter fun t => !s.onPort t
    let bin : Bin := { key := some 0, recs := [{}] }
    let due := fun (k : ReqKind) => ({ kind := k } : Req)
    let t := { mk 0 thr0 { bins := [(0, bin)] } with now := 256 }
    let u := { mk 0 { thr0 with hold := { sleep := some 9, watch := some {} } } with now := 9 }
    let late := fun (k : ReqKind) => mk 0 thr0 { reqs := [due k] }
    let clean := { mk 0 thr0 { reqs := [due (.fill 0x4000 3 7 false), due (.fill 0x4000 0 7 false)] } with mem := ({} : Memory).setWord 0x4000 (.ok 5) }
    let foul := { clean with mem := ({} : Memory).setWord 0x4000 (.bad tok3) }
    let val := fun (s : State) => (tget 0x4000 ((fillWord s 0 0x4000 0 false).core 0).l1).map fun e => e.val
    let line := { mk 0 thr0 { l1 := [(0, { dirty := some 0 })] } with now := 4096, msgs := [⟨.inval, 0, 0, 1⟩, ⟨.revoke, 0, 0, 1⟩] }
    (tget (voteLane s 0 * 2 + 0) s.ports = none ∧ running s (voteLane s 0 / 16) = true
      ∧ (choose s (ts.filter fun t => ready s t && (s.thr t).demote == 0)).map Prod.fst = some 0
      ∧ tget 1 (mk 0).ports = none ∧ (tget 0 (mk 0).ports).isSome = true)
    ∧ (ready u 0 = false ∧ laneThreads u 0 = [0])
    ∧ (bin.recs ≠ [] ∧ bin.expired = false ∧ bin.opened + (t.core 0).schcfg.toNat % 2 ^ 12 ≤ t.now)
    ∧ (packPlace (mk 0 thr0 { bins := [(0, { bin with expired := true })] }) 0).isSome = true
    ∧ ((({ mk 0 with now := 4096 } : State).core 0).epochAt + 4096 ≤ ({ mk 0 with now := 4096 } : State).cyc 0
      ∧ bitsOf ((mk 0).core 0).schcfg.toNat 15 12 = 0)
    ∧ ((u.thr 0).hold.sleep = some 9 ∧ 9 ≤ u.now ∧ (u.thr 0).hold.watch = some {} ∧ ({} : Watch).due ≤ u.now ∧ ({} : Watch).asked = false
      ∧ ∀ t ∈ watchMates u {}, acqBusy u t 5 = false) ∧ (u.thr 0).hold.frozen = false
    ∧ (∀ k ∈ [.load, .multi, .atom, .fill 0 3 7 false, .hostStore], ((late k).core 0).reqs.find? (fun q => q.id == 0) = some (due k) ∧ (due k).due ≤ (late k).now)
    ∧ (acked (late .atom) 0 = true ∧ val clean = some (.ok 5) ∧ val foul = some (.bad tok3))
    ∧ hostStoreCore (late .hostStore) 0 = some 0
    ∧ (tget 0 (line.core 0).l1 = some { dirty := some 0 } ∧ 0 + 4096 ≤ line.now ∧ findMsg line .inval 0 0 = some ⟨.inval, 0, 0, 1⟩
      ∧ findMsg line .revoke 0 0 = some ⟨.revoke, 0, 0, 1⟩) := by
  refine ⟨⟨?_, ?_, ?_, ?_, ?_⟩, ⟨?_, ?_⟩, ⟨?_, ?_, ?_⟩, ?_, ⟨?_, ?_⟩, ⟨?_, ?_, ?_, ?_, ?_, ?_⟩, ?_, ?_, ⟨?_, ?_, ?_⟩, ?_, ?_, ?_, ?_, ?_⟩ <;> decide +kernel

/-- A queued stream command, one under way and an ASL with room; a request whose wave opens, and one whose combiner is full; a wave
whose 64 cycles are over, a closed wave that runs and one that reads poison; a method; a reply; a member to save; a snapshot and a
rollback with every member. -/
theorem meets_EngineEvents :
    let k : StrCmd := {}
    let asl : StrCmd := { op := .asl 0, stage := 2, tids := [0], slice := { levels := [(3, 0)] } }
    let a := mk 1 { thr0 with queues := [(0, { depth := 1, left := 3 })] } { strQ := [asl] }
    let req : CReq := { method := 0, b := 1 }
    let f : State := { mk 3 with comb := { flight := [req] } }
    let w : Wave := { reqs := [req] }
    let opened := { mk 3 with now := 64, comb := { waves := [w] } }
    let closed := { mk 3 with now := 1, comb := { waves := [{ w with closed := true }] } }
    let v : Save := { key := 0 }
    let member := { off { thr0 with team := some 0, pc := 0, hdr := none } { teams := [(0, ⟨true, 1, 0, 0⟩)] } with saves := [v] }
    let snap : Snap := { threads := [(0, thr0)] }
    let waits : Thread := { thr0 with team := some 0, hold := { snap := some 0, rbk := some 0 } }
    let snapped := { mk 5 waits { teams := [(0, ⟨true, 1, 0, 0⟩)] } with snaps := [(0, snap)] }
    (strGet (mk 1 thr0 { strQ := [k] }) 0 0 = some k ∧ strMayStart (mk 1 thr0 { strQ := [k] }) 0 k = true)
    ∧ (strGet a 0 0 = some asl ∧ 1 ≤ asl.stage ∧ asl.tags = [] ∧ aslReady a asl 0 = true)
    ∧ (arrivals f [0] = [req] ∧ (joinWave f req).isSome = true)
    ∧ ((opened.comb.waves.find? fun v => v.obj == w.obj && !v.closed) = some w ∧ w.opened + w.window ≤ opened.now)
    ∧ ((closed.comb.waves.find? fun v => v.obj == 0 && v.closed) = some { w with closed := true } ∧ w.closedAt < closed.now ∧ w.reqs ≠ []
      ∧ (runLanes 1 0 [req] ((List.range 16).map fun i => homeWord closed i)).isSome = true
      ∧ runLanes 1 0 [req] ((List.range 16).map fun _ => .bad tok3) = none)
    ∧ (({ dies := [(0, { install := [{ slot := 5 }] })] } : State).die 0).install = [{ slot := 5 }]
    ∧ (({ mk 3 with comb := { replies := [{ req with reply := some (.clean 7) }] } } : State).comb.replies.find? fun q => q.id == req.id)
      = some { req with reply := some (.clean 7) } ∧ req.dev = 0 ∧ lineAcked (mk 3) req.obj = true
    ∧ (memberReady member 0 = true ∧ (member.thr 0).team = some 0 ∧ teamSave (relStart member (coreOf 0) 4) (teamKey 0 0) = some v
      ∧ relDone (relStart member (coreOf 0) 4) 0 4 = true)
    ∧ (tget 0 snapped.snaps = some snap ∧ snap.valid = false ∧ snap.threads ≠ [] ∧ (teamEnt snapped 0).members ≤ snap.threads.length)
    ∧ (snapped.threads.filter fun p => p.2.hold.rbk == some 0) ≠ []
    ∧ (teamEnt snapped 0).members ≤ (snapped.threads.filter fun p => p.2.hold.rbk == some 0).length := by
  refine ⟨⟨?_, ?_⟩, ⟨?_, ?_, ?_, ?_⟩, ⟨?_, ?_⟩, ⟨?_, ?_⟩, ⟨?_, ?_, ?_, ?_, ?_⟩, ?_, ?_, ?_, ?_, ⟨?_, ?_, ?_, ?_⟩, ⟨?_, ?_, ?_, ?_⟩, ?_, ?_⟩ <;> decide +kernel

/-- A device with one launch record, of one thread and one copy, for die 0. -/
def launched : State :=
  { host := { ready := true, launchBase := 0x100000 }
    mem := (((({} : Memory).setNum 0x100000 1 8).setNum 0x10101C 1 2).setNum 0x101020 1 1) }

def rec0 : Nat := 2 ^ (8 * 0x1C) + 2 ^ (8 * 0x20)

theorem meets_HostEvents :
    let p : PageReq := ⟨0, 7⟩
    let hand : State := { launched with dies := [(0, { disp := { hand := some 0, cores := [0] } })] }
    let run : State := { launched with dies := [(0, { disp := { hand := some 0, cores := [0], started := true } })] }
    tget 3 (({ dies := [(0, { pages := [(3, p)] })] } : State).die 0).pages = some p
    ∧ (let r : BringUp := ⟨[⟨2, 0, 0⟩], 1⟩; (boot State.reset r).h.stopped = true)
    ∧ (let r : BringUp := ⟨[⟨5, 95, 0⟩, ⟨3, 7, 0⟩, ⟨3, 7, 1⟩], 1⟩; (boot State.reset r).h.stopped = false ∧ ⟨5, 95, 0⟩ ∈ r.fails ∧ ⟨3, 7, 1⟩ ∈ r.fails)
    ∧ (launched.mem.wf = true ∧ launched.hostMem.wf = true ∧ launched.cores = [] ∧ 0x200000 % 4 = 0
      ∧ hostReaches launched 0x200000 4 = true ∧ statusEntry launched 0x200000 = none)
    ∧ (hostReaches launched (512 * 10 ^ 9 - 4) 4 = true ∧ hostReaches launched (512 * 10 ^ 9) 4 = false)
    ∧ (recReady launched 0 = true ∧ launchRec launched 0 (launched.die 0).disp.next = some rec0 ∧ recBad rec0 0 = false
      ∧ recField rec0 0x20 1 ≤ (dieCores launched 0).length ∧ copyFits launched ((dieCores launched 0).headD 0) rec0 = true)
    ∧ (recBad 0 0 = true ∧ ¬ 97 ≤ (dieCores launched 0).length)
    ∧ (handRec hand 0 = some (0, rec0) ∧ startReady hand 0 = true)
    ∧ (handRec run 0 = some (0, rec0) ∧ copyReady run 0 = true)
    ∧ ((mk 0).host.ready = true ∧ (mk 0).host.fault = false ∧ 1 ≤ (4 : BitVec 4).toNat ∧ (4 : BitVec 4).toNat ≤ 4)
    ∧ (State.reset.host.ready = false ∧ State.reset.host.fault = false ∧ State.reset.host.stopped = false)
    ∧ (({ ckptEn := true, ckptBase := 8 } : HostBlk).ckptBase.toNat % 256 ≠ 0 ∧ State.reset.host.ckptEn = false) := by
  refine ⟨?_, ?_, ⟨?_, ?_, ?_⟩, ⟨?_, ?_, ?_, ?_, ?_, ?_⟩, ⟨?_, ?_⟩, ⟨?_, ?_, ?_, ?_, ?_⟩, ⟨?_, ?_⟩, ⟨?_, ?_⟩, ⟨?_, ?_⟩, ⟨?_, ?_, ?_, ?_⟩, ⟨?_, ?_, ?_⟩, ?_, ?_⟩
    <;> decide +kernel

/-- A halted core, and one idle for 1,024 cycles to the cycle; a device of one cluster whose cores are gated; a period of one
millisecond that is over to the cycle; a count of rows that rose by 64, and one that rose by 63. -/
theorem meets_PowerEvents :
    let idle_ : State := { host := { ready := true }, now := 1024 }
    let gated : State := { host := { ready := true, fenced := (List.range 95).map fun i => i + 1, lattol := 200000 }, now := 1050000
                           cores := (List.range 8).map fun c => (c, { gatedAt := some 0 }) }
    let ck : State := { mk 0 with now := 1050000, host := { ready := true, ckptEn := true, ckptBase := 8, period := 1 } }
    ((mk 0).host.ready = true ∧ (mk 0).enabled 0 = true ∧ ((mk 0).core 0).gatedAt = none ∧ ((mk 0 thr0 { halted := true }).core 0).halted = true)
    ∧ ((idle_.core 0).idleAt + 1024 ≤ idle_.now ∧ busyCore idle_ 0 = false ∧ idle_.enabled 767 = true ∧ idle_.enabled 768 = false)
    ∧ (allGated gated = true ∧ gated.host.pstate = 0 ∧ 20000 ≤ gated.host.lattol ∧ 200000 ≤ gated.host.lattol
      ∧ gated.host.lastAccess + 1050000 ≤ gated.now)
    ∧ (rowsRose [(0, [1])] [65] = true ∧ rowsRose [(0, [1])] [64] = false)
    ∧ periodOver ck = true
    ∧ ((mk 0).host.fault = false ∧ (mk 0).host.ckptReq = none)
    ∧ (∀ v, ∀ i : List Byte, ∀ g, Config.verify (Config.sha3 i) g = true ∧ (mk 0).host.rollback ≤ v ∨ Config.verify (Config.sha3 i) g = false ∨ v < (mk 0).host.rollback)
    ∧ ((2 : BitVec 2) ≠ 3 ∧ (3 : BitVec 2) = 3) := by
  refine ⟨⟨?_, ?_, ?_, ?_⟩, ⟨?_, ?_, ?_, ?_⟩, ⟨?_, ?_, ?_, ?_, ?_⟩, ⟨?_, ?_⟩, ?_, ⟨?_, ?_⟩, ?_, ?_, ?_⟩ <;> first | decide +kernel | skip
  intro v i g
  cases h : Config.verify (Config.sha3 i) g
  · exact .inr (.inl rfl)
  · exact .inl ⟨rfl, Nat.zero_le _⟩

/-- A device of number 1 that has received flit g with data d on port 0. -/
def receiving (g : Flit) (d : List Flit) : State :=
  { host := { ready := true }, fab := { dev := 1, inbox := [(0, g, d)], tags := [{ tag := 9, use := .req 4 }] } }

def flit (type : Nat) (payload : Nat) : Flit :=
  sealFlit ⟨BitVec.ofNat 4 type, 1, 2, 2, false, true, 9, 0, BitVec.ofNat 512 payload⟩

/-- A header of a type that passes every check, with the data flits that it must have: a write of one line, a read reply. -/
def headOf (type : Nat) : Flit × List Flit :=
  (flit type (if type = 0 then 2 ^ 144 else 0), if type = 0 ∨ type = 2 then [flit 0 0] else [])

/-- A flit of each type that passes every check, and flits that fail one: a reserved STATE, a CHECK, a field; a transaction that this
device has open, and one that it has not; a tag whose time is over; a port that locks in the slot it may lock in. -/
theorem meets_FabricEvents :
    let w := flit 0 0
    let s := receiving w [flit 0 0]
    (inboxNext s.fab.inbox = some (0, w, [flit 0 0]) ∧ s.host.fault = false)
    ∧ (∀ n < 13, (headOf n).1.type.toNat = n ∧ (headOf n).1.state ≠ 3 ∧ (headOf n).1.check = flitCrc (headOf n).1
      ∧ (∀ d ∈ (headOf n).2, reservedFlit d = false) ∧ (headOf n).1.dst = s.fab.dev ∧ headBad (headOf n).1 (headOf n).2 = false)
    ∧ (({ w with state := 3 } : Flit).state = 3 ∧ ({ w with check := w.check + 1 } : Flit).check ≠ flitCrc { w with check := w.check + 1 })
    ∧ ([flit 13 0, flit 0 0].filter reservedFlit = [flit 13 0])
    ∧ (headBad w [flit 0 0] = true ∧ headBad (flit 0 (2 ^ 144)) [flit 0 0] = false ∧ headBad (flit 3 (10 * 2 ^ 160)) [] = true
      ∧ headBad (flit 3 (9 * 2 ^ 160)) [] = false)
    ∧ ((flit 13 0).type.toNat = 13 ∧ ({ w with dst := 2 } : Flit).dst ≠ s.fab.dev)
    ∧ (plField (flit 3 0) 16 16 = 0 ∧ plField (flit 3 (2 ^ 128)) 16 16 ≠ 0 ∧ (flit 4 0).state ≠ 1 ∧ ({ w with state := 1 } : Flit).state = 1)
    ∧ tagRec s (flit 2 0).tag.toNat = some { tag := 9, use := .req 4 } ∧ tagRec s 8 = none
    ∧ ({} : TagRec).due ≤ s.now ∧ s.now < ({ due := 1 } : TagRec).due
    ∧ s.now < s.fab.roseAt + slotCycles ∧ s.fab.roseAt + slotCycles ≤ ({ s with now := slotCycles } : State).now
    ∧ roseDue { s with fab := { s.fab with epoch := some 0, next := some ({}, 0, 0, 0) } } = some 0 := by
  refine ⟨⟨?_, ?_⟩, ?_, ⟨?_, ?_⟩, ?_, ⟨?_, ?_, ?_, ?_⟩, ⟨?_, ?_⟩, ⟨?_, ?_, ?_, ?_⟩, ?_, ?_, ?_, ?_, ?_, ?_, ?_⟩ <;> decide +kernel

/-! ### The machine -/

/-- A header of CLS 6, and the least legal one below it; PWD 5, and 4; bit 32. The port with a trap to take issues at its core's turn. -/
theorem meets_ClauseHeaderRules :
    let s := { off with mem := ({} : Memory).setNum 0x10000 (6 * 2 ^ 61) 8 }
    let t := { mk 0 with ports := [(0, { pack := [0], trap := some {} })], agenda := [.issue 0] }
    (∀ u ∈ [0], (s.thr u).hold.noPage = false)
    ∧ (match (fetchWord s (coreOf 0) (anyUser s [0]) 0).2 with | .word h => bitsOf h.toNat 63 61 | _ => 0) = 6
    ∧ ¬ 6 ≤ bitsOf (5 * 2 ^ 61) 63 61 ∧ 5 ≤ bitsOf (5 * 2 ^ 33) 35 33 ∧ ¬ 5 ≤ bitsOf (4 * 2 ^ 33) 35 33 ∧ bitsOf (2 ^ 32) 32 0 ≠ 0
    ∧ (t.agenda = [.issue 0] ∧ dead t = false ∧ mayIssue { t with agenda := [] } 0 = true ∧ (t.port 0).trap = some {})
    ∧ ((mk 0).iss = some 0 ∧ atLast (mk 0).cur = true) := by
  refine ⟨?_, ?_, ?_, ?_, ?_, ?_, ⟨?_, ?_, ?_, ?_⟩, ?_, ?_⟩ <;> decide +kernel

def nop : W64 := 0x4707000000000000

theorem meets_StepRunsTheDecodedWord :
    let s := State.reset.withFetchWord 64 nop.toNat
    s.agenda = [.issue 0] ∧ dead s = false ∧ mayIssue { s with agenda := [] } 0 = true ∧ (s.port 0).trap = none ∧ (s.port 0).word = nop
    ∧ decode nop = some (.nop (r false z z z false)) ∧ decode 0x5D07000000000000 = none
    ∧ mayIssue { s with ports := [], agenda := [] } 0 = false ∧ encode (.sleepExpiry 0) = none := by
  refine ⟨?_, ?_, ?_, ?_, ?_, ?_, ?_, ?_, ?_⟩ <;> decide +kernel

theorem meets_DecodeOfEncode : (Instr.nop (r false z z z false)).WellFormed ∧ encode (.nop (r false z z z false)) = some nop := by
  decide

/-- Words at the ends of a range of two words from word 4, and beside it. -/
theorem meets_MemoryWordRules : ({} : Memory).wf = true ∧ (({} : Memory).setWord 4 (.bad tok3)).wf = true ∧ (3 < 4 ∨ 4 + 2 ≤ 3)
    ∧ ¬ (4 < 4 ∨ 4 + 2 ≤ 4) ∧ ¬ (5 < 4 ∨ 4 + 2 ≤ 5) ∧ (6 < 4 ∨ 4 + 2 ≤ 6) ∧ 16 + 16 ≤ 32 ∧ ¬ 17 + 16 ≤ 32 := by
  refine ⟨?_, ?_, ?_, ?_, ?_, ?_, ?_, ?_⟩ <;> decide +kernel

theorem tget_isSome (l : Tbl Origin) (i : Nat) (a : Origin) (h : (i, a) ∈ l) : (tget i l).isSome = true := by
  induction l with
  | nil => simp at h
  | cons p l ih =>
    obtain ⟨j, b⟩ := p
    by_cases e : j = i
    · simp [tget, e]
    · simp only [List.mem_cons, Prod.mk.injEq] at h
      rcases h with h | h
      · exact absurd h.1.symm e
      · simpa [tget, e] using ih h

def orgs (n : Nat) : Tbl Origin := (List.range n).map fun j => (j, {})

theorem full_isSome (n i : Nat) (h : i < n) : (tget i (orgs n)).isSome = true :=
  tget_isSome _ i {} (List.mem_map.2 ⟨i, List.mem_range.2 h, rfl⟩)

/-- A full origin table, with its cursor at the end. -/
theorem meets_origin_full : ∀ x : Core, x.org = orgs 4095 → x.orgCur = 4095 →
    (∀ i < 4095, (tget i x.org).isSome = true) ∧ x.orgCur ≤ 4095 := by
  intro x h k
  exact ⟨fun i hi => h ▸ full_isSome _ i hi, k.le⟩

/-- A group of 32 threads, so distance 16 is inside it and 32 is not; a thread of the group that is not there; slices at the end of
the allocation and beyond; a poisoned granule; a free entry at the cursor. -/
theorem meets_OperandReads :
    let s := mk 0 (bad 16)
    (2 ^ 4 < (s.thr 0).group ∧ (s.thr 0).group ≤ 2 ^ 5) ∧ carryOf s [0] 0 .self false = none
    ∧ srcThread s [0] 0 .up1 0 = none ∧ srcThread s [0] 0 .self 0 = some 0
    ∧ (127 + 1 ≤ 128 + 32 * (s.thr 0).xgran ∧ 128 + 32 * (s.thr 0).xgran < 128 + 1)
    ∧ (tget 2 (s.thr 0).tags = some tok3 ∧ tget 1 (s.thr 0).tags = none)
    ∧ (tget (s.core 0).orgCur (s.core 0).org = none ∧ (s.core 0).orgCur < 4095) := by
  refine ⟨⟨?_, ?_⟩, ?_, ?_, ?_, ⟨?_, ?_⟩, ⟨?_, ?_⟩, ?_, ?_⟩ <;> decide +kernel

/-- D in slices 8 to 15 touches granule 1 and not granules 0 and 2; in 9 to 16 it touches 1 and 2 in part. -/
theorem meets_RegisterWordFrames :
    Solo (mk 0) 0 R3.x ∧ (8 * 0 + 8 ≤ 8 ∨ 8 + 8 ≤ 8 * 0) ∧ ¬ (8 * 1 + 8 ≤ 8 ∨ 8 + 8 ≤ 8 * 1) ∧ (8 * 2 + 8 ≤ 8 ∨ 8 + 8 ≤ 8 * 2)
    ∧ (504 + 8 ≤ 512) ∧ (∀ h, 8 / 8 ≤ h → h ≤ (8 + 8 - 1) / 8 → tget h thr0.tags = none)
    ∧ (tget 2 (bad 16).tags = some tok3 ∧ 9 / 8 ≤ 2 ∧ 2 ≤ (9 + 8 - 1) / 8 ∧ (8 * 2 < 9 ∨ 9 + 8 < 8 * 2 + 8)) :=
  ⟨solo .., by decide, by decide, by decide, by decide, fun _ _ _ => rfl, by decide⟩

theorem meets_EveryStepGoesOn : dead { State.reset with host := { fault := true } } = true ∧ dead State.reset = false := by decide
/-! ## Single steps and the spec's worked examples -/

/-- What a step leaves, looked at by q. -/
def after (x : Out) (q : State → Bool) : Bool := match x with | .next t => q t | _ => false

/-- The table's numbering of a word is the word's own; the first step after reset runs it and goes to the next header. -/
theorem test_table_word : decodeTableWord 64 nop.toNat = some (.nop (r false z z z false)) := by decide

theorem test_step_nop : after (step (State.reset.withFetchWord 64 nop.toNat)) (fun t => (t.thr 0).pc == 16 && (t.thr 0).hdr == none)
    = true := by decide +kernel

theorem test_step_undef : after (step (State.reset.withFetchWord 64 0x5D07000000000000)) (fun t =>
    (t.thr 0).hdepth == 1 && tileWord t 0 (frameH thr0) 4 == .ok 0x2000011) = true := by decide +kernel

/-- IADD.s32 s8, s16, s24 of 0x7FFFFFFF and 1 wraps, and with .sat stays at the largest (R133). -/
theorem test_iadd_wraps : after (exec (.iadd false 5 false R3) (mk 0 (holds 16 0x7FFFFFFF (holds 24 1))))
    (fun t => (t.thr 0).bits 8 8 == 0x80000000) = true := by decide +kernel
theorem test_iadd_saturates : after (exec (.iadd false 5 true R3) (mk 0 (holds 16 0x7FFFFFFF (holds 24 1))))
    (fun t => (t.thr 0).bits 8 8 == 0x7FFFFFFF) = true := by decide +kernel

/-- "Division by zero and overflow": -7 and 2 give -3 and -1; a zero divisor gives DIVZ, -2^31 and -1 give INV and 0. -/
def divs (rem : Bool) (a b : Nat) : Option Got :=
  match exec (if rem then .irem false 5 R3 else .idiv false 5 R3) (mk 0 (holds 16 a (holds 24 b)) { orgCur := 0x12 }) with
  | .next t => (t.core 0).reqs.head?.bind fun q => q.pieces.head?.map Piece.got
  | _ => none

theorem test_division : divs false 0xFFFFFFF9 2 = some (.clean 0xFFFFFFFD) ∧ divs true 0xFFFFFFF9 2 = some (.clean 0xFFFFFFFF)
    ∧ divs false 5 0 = some (.tok (token 0x12 cDIVZ)) := by refine ⟨?_, ?_, ?_⟩ <;> decide +kernel
theorem test_division_edge : divs false 0x80000000 0xFFFFFFFF = some (.tok (token 0x12 cINV))
    ∧ divs true 0x80000000 0xFFFFFFFF = some (.clean 0) := by refine ⟨?_, ?_⟩ <;> decide +kernel

/-- "One element through two steps": eight of 1 by 1, then eight of 1 by 0.5, onto 2^24 (R326). -/
theorem test_matrix_steps : elemStep 16 (.ok (List.replicate 8 0x40)) (.ok (List.replicate 8 0x40)) (.ok 0x7F) (.ok 0x7F) (.ok 0x4B800000)
      = .word (.ok 0x4B800004) false
    ∧ elemStep 16 (.ok (List.replicate 8 0x40)) (.ok (List.replicate 8 0x38)) (.ok 0x7F) (.ok 0x7F) (.ok 0x4B800004)
      = .word (.ok 0x4B800006) false := by refine ⟨?_, ?_⟩ <;> decide +kernel

def lane (word b : Nat) (method : Nat) : CReq := { pa := 4 * word, b := b, method := method }

/-- "One wave and one abort": the replies and the new words of the first wave; the second wave aborts on w2. -/
theorem test_wave : runLanes 5 0 [lane 0 10 0, lane 0 1 0, lane 0 2 0, lane 0 4 0, lane 1 70 5] [.ok 100, .ok 50, .bad tok3]
    = some ([.ok 117, .ok 70, .bad tok3], [100, 110, 111, 113, 50]) := by decide +kernel
theorem test_wave_aborts : runLanes 2 0 [lane 0 5 0, lane 2 0 1] [.ok 117, .ok 70, .bad tok3] = none := by decide +kernel

/-- "A system call resumed inside its clause": SYSC 0x42 gives CAUSE 0x4204, with bit 25 where the thread's own predicate holds. -/
theorem test_sysc_cause : after (exec (.sysc ⟨px false, z, z, .self, 0x42⟩) (mk 5)) (fun t =>
    tileWord t 0 (frameH thr0) 4 == .ok 0x2004204 && tileWord t 0 (frameH thr0) 0 == .ok 8 && (t.thr 0).hdepth == 1 && (t.thr 0).priv) = true := by
  decide +kernel

/-- 1.5 + 2.25 = 3.75 exactly; 2^24 + 1 rounds to even, and up under RUP (R161, R173). -/
theorem test_fadd : fpAdd f32 0 false false (f32.decode 0x3FC00000) (f32.decode 0x40100000) = .val 0x40700000
    ∧ fpAdd f32 0 false false (f32.decode 0x4B800000) (f32.decode 0x3F800000) = .val 0x4B800000
    ∧ fpAdd f32 2 false false (f32.decode 0x4B800000) (f32.decode 0x3F800000) = .val 0x4B800001 := by
  refine ⟨?_, ?_, ?_⟩ <;> decide +kernel

/-- A store of a half word of a poisoned word leaves the word poisoned, one of the word clears it (R200). -/
theorem test_merge : mergeWord (.bad tok3) 16 16 (.ok 7) = .bad tok3 ∧ mergeWord (.bad tok3) 0 32 (.ok 7) = .ok 7
    ∧ mergeWord (.ok 0x11223344) 8 8 (.ok 0xFF) = .ok 0x1122FF44 := by refine ⟨?_, ?_, ?_⟩ <;> decide +kernel

/-- Bytes stand little-endian, and a byte written back to zero leaves no entry (R28). -/
theorem test_memory : (({} : Memory).setNum 0x100 0x0201 2).bytes = [(0x100, 1), (0x101, 2)]
    ∧ ((({} : Memory).setNum 0x100 0x0201 2).setNum 0x100 0 2).bytes = [] := by refine ⟨?_, ?_⟩ <;> decide +kernel

/-- A token holds its origin, its cause and 0xC5A9 (R196). -/
theorem test_token : token 0x12 cDIVZ = 0x0120C5A9 + BitVec.ofNat 32 (cDIVZ * 2 ^ 16) := by decide


/-- A mismatch of the two copies of a redundant thread-operation: the destination is SDC poison; without redundancy nothing differs (R259). -/
def redun (on : Bool) : State :=
  let s := mk 0 (holds 16 1 { thr0 with redun := on }) { orgCur := 0x12 }
  { s with ports := s.ports.map fun p => (p.1, { p.2 with upset := true }) }
theorem test_redundant_mismatch : after (exec (.iadd false 5 false R3) (redun true)) (fun t => tget 1 (t.thr 0).tags == some (token 0x12 cSDC)) = true
    ∧ after (exec (.iadd false 5 false R3) (redun false)) (fun t => (t.thr 0).tags == []) = true := by
  refine ⟨?_, ?_⟩ <;> decide +kernel

/-- An uncorrectable HBM line is poison ECC in all its words, and in no other (R23, R200). -/
theorem test_hbm_upset : after (act {} (.upset (.hbm 4))) (fun t => (List.range 18).all fun i =>
    t.mem.word (63 + i) == if 1 ≤ i && i ≤ 16 then .bad (token 0xFFF cECC) else .ok 0) = true := by decide +kernel

/-! ## Assembly, loading and the portable form -/

/-- "An object taken apart": the program fill, its listing's words at 0x00, 0x08, 0x18 to 0x30 and 0x50, and 96 bytes in all. -/
def fill : List Line :=
  let add := fun d a b => Line.ins (.iadd false 7 false (r false d a b false))
  [.entry 3 0 128 0, .ins (.sread 1 (r false (o 16 7) z z false))]
    ++ (laWords 8 0).map Line.ins
    ++ [add (o 16 7) (o 16 7) (o 16 7), add (o 16 7) (o 16 7) (o 16 7), add (o 8 7) (o 8 7) (o 16 7),
        .ins (.st 2 0 (m (o 16 5) (o 8 7) 0)), .ins (.stop (r false z z z false))]

theorem test_assemble : (match assemble fill with
    | some (w, l) => w.length == 12 && l == [1] && [0, 1, 3, 4, 5, 6, 10].map (fun k => w.getD k 0)
        == [0xE17A000000000003, 0x1200000600000000, 0x1987023800000000, 0x1A07023800000000, 0x1A17023800000000,
            0x1A27023800000000, 0x6127042823800000]
    | none => false) = true := by decide +kernel

/-- The same as source lines (R60 to R77). -/
def fillName : Name := [0x66, 0x69, 0x6C, 0x6C]
def tabName : Name := [0x74, 0x61, 0x62]
def fillSrc : List Stmt :=
  let add := fun d a b => Stmt.ins (.iadd false 7 false (r false d a b false)) none
  [.entry fillName (some 3) (some 0) (some 128) (some 0), .ins (.sread 1 (r false (o 16 7) z z false)) none, .la 8 (.sym tabName),
    add (o 16 7) (o 16 7) (o 16 7), add (o 16 7) (o 16 7) (o 16 7), add (o 8 7) (o 8 7) (o 16 7),
    .ins (.st 2 0 (m (o 16 5) (o 8 7) 0)) none, .ins (.stop (r false z z z false)) none,
    .sect [0x2E, 0x64, 0x61, 0x74, 0x61] 2 false, .align 64, .global tabName, .label tabName, .zero 128]

/-- The object: 96 bytes of text, and four relocations against `tab`, PIECE0 to PIECE3 with CPOS 2 to 5 (R64, R81). -/
theorem test_object : (match phas fillSrc with
    | some q => (q.secs.map fun x => x.bytes.length) == [96, 128]
        && ((q.secs.headD {}).rels.map fun x => (x.off, x.type, x.cpos, x.addend)) == [(0x18, 4, 2, 0), (0x20, 5, 3, 0), (0x28, 6, 4, 0), (0x30, 7, 5, 0)]
        && ((q.secs.headD {}).rels.all fun x => ((q.syms.getD (x.sym - 1) ([], {})).1 == tabName))
        && q.ents.map (fun e => (e.width, e.prio, e.need, e.team)) == [(3, 0, 128, 0)]
    | none => false) = true := by decide +kernel

/-- The object linked, and loaded with `tab` at 0x4A00030000: the four words of LA are those of the listing, and only `tab` is writable. -/
theorem test_loaded_object : (match (phas fillSrc).bind fun q => phlink [writeObj q] 0x4A00020000 with
    | some g => (match loadImage g 0x4A00020000 0x20000 with
      | some [(p, text, w), (q, data, v)] => p == 0x4A00020000 && q == 0x4A00030000 && data == List.replicate 128 0
          && w == (false, false) && v == (true, false) && [0x18, 0x20, 0x28, 0x30].map (fun k => fileNum text k 8)
            == [0x1987023800030000, 0x1A0702380004A000, 0x1A17023800000000, 0x1A27023800000000]
      | _ => false)
    | none => false) = true := by decide +kernel

/-- phas rejects a leg inside a leg, .endleg with none open, a section that ends with one open, and B below A (R74); a slot used twice
(R76); a .last of no dimension or of a format of 3 bits (R75). -/
theorem test_rejected : [[.leg none, .leg none], [.endleg 0 0 (.num 0) false], [.leg none], [.leg (some (3, 2))], [.leg (some (0, 16))],
      [.sect [1] 5 false, .method [2] 7 [(.nop (r false z z z false), none)], .method [3] 7 [(.nop (r false z z z false), none)]],
      [.sect [1] 2 false, .last [2] (.num 0) (.int 8) .zero []], [.sect [1] 2 false, .last [2] (.num 0) (.int 3) .zero [(4, 1, none)]],
      [.sect [1] 2 true], [.align 4], [.align 24]].all (fun l => (phas l).isNone) = true
    ∧ (phas [.leg none, .endleg 0 0 (.num 8) false]).isSome = true := by refine ⟨?_, ?_⟩ <;> decide +kernel

/-- .b8 of b8p4: 232 rounds to 224; 236 lies beyond on the unbounded grid, an error; so is a negative in an unsigned domain (R71, R165). -/
theorem test_b8_items : b8Item (b8Of 4 false) (.fin false 232 1) = some 0x7E ∧ b8Item (b8Of 4 false) (.fin false 236 1) = none
    ∧ b8Item (b8Of 4 true) (.fin true 1 2) = none ∧ floatItem f32 (.fin false 3 2) = 0x3FC00000 := by
  refine ⟨?_, ?_, ?_, ?_⟩ <;> decide +kernel

def recorded (y : Thread) : Bool :=
  y.bits 8 8 == 0x1234 && y.tags == [(2, tok3)] && y.preds == 5 && y.age == 9 && y.pc == 0x48 && y.team == some 3 && y.drop == some tok3

/-- A thread's record reads back as the thread, and over a thread that has changed since as the recorded fields (R257). -/
theorem test_thread_record :
    let x : Thread := { holds 8 0x1234 (bad 16) with preds := 5, team := some 3, age := 9, drop := some tok3, pc := 0x48 }
    let ws := threadWords x {} none []
    threadSize ws = ws.length ∧ (threadOf (x, []) ws).1 = x
    ∧ recorded (threadOf ({ x with slices := 0, tags := [], preds := 0, age := 0, pc := 0 }, []) ws).1 = true := by
  refine ⟨?_, ?_, ?_⟩ <;> decide +kernel

/-- The same: with `tab` at 0x4A00030000 the load relocations give these words. -/
theorem test_piece : patched 4 0x1987023800000000 0x4A00030000 = some (0x1987023800030000, 8)
    ∧ patched 5 0x1A07023800000000 0x4A00030000 = some (0x1A0702380004A000, 8)
    ∧ patched 7 0x1A27023800000000 0x4A00030000 = some (0x1A27023800000000, 8) := by decide

/-- TEAMLOG: 3 gives 3 and 100 gives 8 (R73); the assembler's entry word passes the checks of a launch. -/
theorem test_entry_word : teamLog 3 = 3 ∧ teamLog 100 = 8 ∧ teamLog 0 = 0 ∧ entryWordBad (entryWordOf 3 2 161 100) = false
    ∧ entryFields (entryWordOf 3 2 161 100) = (3, 2, 2) := by decide

/-- A record of .last reads back as the last it describes, each bound its extent by default (R75, R294). -/
theorem test_last_record : parseLast (lastRecord 0x1000 8 1 0xAB [(16, 1, none), (4, -16, some 3)])
    = some { base := 0x1000, ebits := 8, pad := 1, padval := 0xAB, dims := [(16, 16, 1), (4, 3, -16)] } := by decide +kernel

/-- The rose of device 4 in the ring split: header 1, port entries 0x8001 and 0x8003 (R365). -/
theorem test_rose_record : roseRecord [[some 1, some 3, none, none, none, none, none, none]] = [1, 0x80038001, 0]
    ∧ rosesOk 3 [1, 0x80038001, 0] = true ∧ rosesOk 3 [1, 0x90038001, 0] = false := by decide

/-- Waits by count: 15 a header wait, 16 and 62 a WAIT of that count, 63 and more WAIT 62; none between matrix commands (R370). -/
theorem test_dep_wait : depWait .s .c false 15 = .header 15 ∧ depWait .s .c false 16 = .word 16 ∧ depWait .s .c false 63 = .word 62
    ∧ depWait .m .m true 0 = .none ∧ depWait .m .s true 0 = .fwait := by decide

/-- Ten iterations on four members: member 1 runs 1, 5 and 9; a serial region is member 0's (R372); an extra member runs none (R375). -/
theorem test_iterations : memberIters false 10 4 1 = [1, 5, 9] ∧ memberIters false 1 4 3 = [] ∧ memberIters false 10 3 3 = [] ∧ memberIters true 3 4 0 = [0, 1, 2]
    ∧ memberIters true 3 4 1 = [] := by decide

/-- A kernel of 40 members and width 32 launches 64 (R375); its prologue, a region and the barriers assemble (R366, R371 to R373); an
exchange at distance 4 is ~xk2, and at 32 lies outside the group. -/
theorem test_kernel :
    let g : PRegs := ⟨⟨24, 3⟩, ⟨32, 7⟩, ⟨48, 5⟩, ⟨56, 5⟩, ⟨64, 3⟩, ⟨72, 5⟩, ⟨80, 5⟩, ⟨88, 5⟩, ⟨96, 5⟩⟩
    let k : Kernel := { team := 40, width := 3 }
    let body : List PStmt := [.region false ⟨104, 5⟩ [1] [2] [.words [(false, .iaddImm false 5 (iWord ⟨112, 5⟩ ⟨112, 5⟩ 1))]], .barrier (some 4)]
    k.launched = 64 ∧ distanceExch k 4 true = some (.xk, 2) ∧ distanceExch k 32 true = none ∧ distanceExch k 1 false = some (.up1, 0)
    ∧ ((program k g [3] [4] [5] body).bind phas).isSome = true := by decide +kernel

/-- A dependence on an operation that was not issued stops the object (R369). -/
theorem test_record_refused : (lowerAsync {} (1 + 2 ^ 25 + 9 * 2 ^ 32) (.mzero (r false z (o 16 3) z false))).isNone = true
    ∧ (lowerAsync {} (1 + 2 ^ 16) (.mzero (r false z (o 16 3) z false))).isSome = true := by refine ⟨?_, ?_⟩ <;> decide +kernel

/-- A file of zeros is no image (R84). -/
theorem test_no_image : loadImage (List.replicate 72 0) 0x10000 0 = none := by decide +kernel

/-- ".byte -1 and .byte 255 both emit 0xFF", and 256 is an error (R71); the pad of TEXT traps (R69). -/
theorem test_data_items : dataItem 8 (-1) = some [0xFF] ∧ dataItem 8 255 = some [0xFF] ∧ dataItem 8 256 = none
    ∧ dataItem 16 (-2) = some [0xFE, 0xFF] ∧ headerBad textPad = true := by decide

def le (n v : Nat) : List Byte := (List.range n).map fun k => BitVec.ofNat 8 (v / 2 ^ (8 * k))

/-- An object with one 8-byte section of a kind, one symbol `a` after the null symbol, and the relocations given (R78 to R81). -/
def obj (kind symSec : Nat) (rels : List (Nat × Nat × Nat)) : List Byte :=
  [0x50, 0x48, 0x4F, 0] ++ le 2 0x100 ++ le 2 0x9768 ++ le 4 1 ++ le 4 1 ++ le 8 72 ++ le 8 128 ++ le 4 2 ++ le 4 0 ++ le 8 176
    ++ le 8 3 ++ le 8 0 ++ le 8 0
    ++ (le 4 0 ++ le 2 kind ++ le 2 2 ++ le 8 0 ++ le 8 8 ++ le 8 120 ++ le 4 3 ++ le 4 rels.length ++ le 8 179)
    ++ le 8 0 ++ (List.replicate 24 0) ++ (le 4 1 ++ le 2 symSec ++ le 1 1 ++ le 1 2 ++ le 8 0 ++ le 8 8) ++ [0, 0x61, 0]
    ++ rels.flatMap fun q => le 8 0 ++ le 4 q.1 ++ le 2 q.2.1 ++ le 2 0 ++ le 8 q.2.2

/-- Two objects linked at 64 KiB: the reference to `a` with addend 4 becomes its address, 8 bytes behind the first DATA part, and the
load relocation keeps the distance from the link base; without the definition, or with two, the link fails (R83). -/
theorem test_link : (match link [obj 2 0 [(1, 1, 4)], obj 2 1 []] 0x10000 with
    | some [p, q] => p.1.addr == 0x10000 && q.1.addr == 0x10008 && p.2.1 == le 8 0x1000C && p.2.2 == [⟨0x10000, 1, 0, 0xC⟩] && q.2.2 == []
    | _ => false) = true := by decide +kernel
theorem test_link_fails : link [obj 2 0 []] 0x10000 = none ∧ link [obj 2 1 [], obj 2 1 []] 0x10000 = none := by
  refine ⟨?_, ?_⟩ <;> decide +kernel

/-- The loader adds the base to a load relocation: at 0x20000 an ABS64 of addend 0xC is 0x2000C; one byte too few refuses (R84). -/
theorem test_load : (match loadImage (obj 2 1 [(0, 1, 0xC)]) 0x20000 8 with
    | some [(a, b, w)] => a == 0x20000 && b == le 8 0x2000C && w == (true, false)
    | _ => false) = true := by decide +kernel
theorem test_load_refused : loadImage (obj 2 1 []) 0x20000 7 = none ∧ loadImage (obj 7 1 []) 0x20000 8 = none := by
  refine ⟨?_, ?_⟩ <;> decide +kernel

end Sys2Proof.Tests
end

section
/-! What Troham's events leave: gating, idle states, wakes, alarms, error polls, checkpoints, telemetry and firmware (R27, R332, R379,
R382, R391 to R396, R399). -/

namespace Sys2Proof.Machine

/-! ### A write-back never stops a core's clock -/

/-- A change of a table's entries that keeps their keys changes what each key holds, and no key's presence. -/
theorem tget_map {α : Type} (g : Nat × α → Nat × α) (hg : ∀ p, (g p).1 = p.1) (k : Nat) (l : Tbl α) :
    tget k (l.map g) = (tget k l).map fun a => (g (k, a)).2 := by
  induction l with
  | nil => rfl
  | cons p l ih =>
    obtain ⟨j, a⟩ := p
    have hj : g (j, a) = (j, (g (j, a)).2) := Prod.ext (hg (j, a)) rfl
    rw [List.map_cons, hj]
    by_cases h : j = k
    · subst h; simp [tget]
    · simp [tget, h, ih]

@[simp] theorem ungate_gatedAt (x : Core) (now : Nat) : (x.ungate now).gatedAt = none := by
  unfold Core.ungate
  split
  · rfl
  · assumption

/-- A watched line wakes a core or leaves it as it is (R155, R390). -/
theorem core_wakeWatch (s : State) (line c : Nat) :
    (wakeWatch s line).core c = s.core c ∨ (wakeWatch s line).core c = (s.core c).ungate s.now := by
  unfold wakeWatch State.core tgetD
  dsimp only
  rw [tget_map _ (by intro p; split <;> rfl)]
  cases tget c s.cores with
  | none => exact .inl rfl
  | some x =>
    simp only [Option.map_some, Option.getD_some]
    split
    · exact .inr rfl
    · exact .inl rfl

/-- A write at a home ends with the watches of its line; nothing before that touches a core. -/
theorem homeWrite_wakeWatch (s : State) (by_ : Option Nat) (w : Nat) (v : Val) :
    ∃ u, homeWrite s by_ w v = wakeWatch u (w / 16) ∧ u.cores = s.cores ∧ u.now = s.now := by
  refine ⟨_, rfl, ?_, ?_⟩ <;> dsimp only <;> split <;> split <;> rfl

/-- A write at a home wakes a core or leaves it as it is. -/
theorem core_homeWrite (s : State) (by_ : Option Nat) (w : Nat) (v : Val) (c : Nat) :
    (homeWrite s by_ w v).core c = s.core c ∨ (homeWrite s by_ w v).core c = (s.core c).ungate s.now := by
  obtain ⟨u, e, hc, hn⟩ := homeWrite_wakeWatch s by_ w v
  have hu : u.core c = s.core c := by simp only [State.core, hc]
  rw [e, ← hu, ← hn]
  exact core_wakeWatch ..

theorem homeWrite_keeps_ungated {s : State} {c : Nat} (h : (s.core c).gatedAt = none) (by_ : Option Nat) (w : Nat) (v : Val) :
    ((homeWrite s by_ w v).core c).gatedAt = none := by
  obtain e | e := core_homeWrite s by_ w v c <;> rw [e]
  · exact h
  · exact ungate_gatedAt ..

theorem writeBack_keeps_ungated {s : State} {c : Nat} (h : (s.core c).gatedAt = none) (key : Nat) (own : Bool) :
    ((writeBack s c key own).core c).gatedAt = none := by
  unfold writeBack
  cases tget key (s.core c).l1 with
  | none => exact h
  | some e =>
    dsimp only
    split
    · exact h
    · rw [State.core_modCore]
      exact homeWrite_keeps_ungated (s := if own then { s with freeCtr := s.freeCtr + 1 } else s) (by split <;> exact h) (some c) key e.val

theorem writeBackKeys_keeps_ungated (c : Nat) (own : Bool) (ks : List Nat) {s : State} (h : (s.core c).gatedAt = none) :
    ((writeBackKeys s c own ks).core c).gatedAt = none := by
  induction ks generalizing s with
  | nil => exact h
  | cons k ks ih => exact ih (writeBack_keeps_ungated h k own)

/-- The clock of a core that ran stops now, whatever its write-backs woke. -/
theorem gateCore_gatedAt {s : State} {c : Nat} (h : (s.core c).gatedAt = none) (halt : Bool) :
    ((gateCore s c halt).core c).gatedAt = some s.now := by
  have hw : ((writeBackAll s c false).core c).gatedAt = none := writeBackKeys_keeps_ungated c false _ h
  simp [gateCore, hw]

/-! ### Clock gating and the idle states (R391) -/

theorem exec_coreClockGate {s : State} {c : Nat} (h : gateDue s c = true) : exec (.coreClockGate c) s = .next (gateCore s c false) :=
  congrArg Host.Outcome.next (if_pos h)

theorem exec_sramRetentionEntry {s : State} (h : sramDue s = true) : exec .sramRetentionEntry s = .next (enterState s 1) :=
  congrArg Host.Outcome.next (if_pos h)

theorem exec_hbmSelfRefreshEntry {s : State} (h : hbmDue s = true) : exec .hbmSelfRefreshEntry s = .next (enterState s 2) :=
  congrArg Host.Outcome.next (if_pos h)

theorem gateDue_iff (s : State) (c : Nat) : gateDue s c = true ↔ s.host.ready = true ∧ s.enabled c = true ∧ (s.core c).gatedAt = none
    ∧ ((s.core c).halted = true ∨ ((s.core c).idleAt + 1024 ≤ s.now ∧ busyCore s c = false)) := by
  simp [gateDue, and_assoc]

theorem sramDue_iff (s : State) : sramDue s = true ↔ s.host.pstate = 0 ∧ allGated s = true ∧ 20000 ≤ s.host.lattol := by
  simp [sramDue, and_assoc]

theorem hbmDue_iff (s : State) : hbmDue s = true
    ↔ s.host.pstate < 2 ∧ allGated s = true ∧ 200000 ≤ s.host.lattol ∧ s.host.lastAccess + 1050000 ≤ s.now := by
  simp only [hbmDue, Bool.and_eq_true, decide_eq_true_eq, and_assoc]
  rfl

@[simp] theorem enterState_pstate (s : State) (n : Nat) : (enterState s n).host.pstate = n := rfl

theorem enterState_cores_empty (s : State) (n : Nat) : ∀ p ∈ (enterState s n).cores, p.2.l1 = [] ∧ p.2.icache = [] ∧ p.2.tlb = [] := by
  intro p hp
  obtain ⟨q, -, rfl⟩ := List.mem_map.mp hp
  exact ⟨rfl, rfl, rfl⟩

theorem enterState_dies_empty (s : State) (n : Nat) : ∀ p ∈ (enterState s n).dies, p.2.cache = [] := by
  intro p hp
  obtain ⟨q, -, rfl⟩ := List.mem_map.mp hp
  rfl

/-! ### Wake events (R391) -/

theorem exec_wakeEvent (w : Wake) (s : State) : exec (.wakeEvent w) s = .next (wake s w) := rfl

/-- A wake that names a core starts its clock where it is gated; a core whose clock runs is left alone. -/
theorem wake_core (s : State) (c : Nat) {w : Wake} (h : w = .wakeWrite c ∨ w = .watchedLine c) :
    wake s w = if (s.core c).gatedAt.isSome then (awake s).modCore c fun x => x.ungate s.now else awake s := by
  obtain rfl | rfl := h <;> rfl

theorem wake_pstate (s : State) (w : Wake) : (wake s w).host.pstate = 0 := by
  cases w with
  | wakeWrite c => rw [wake_core s c (.inl rfl)]; split <;> rfl
  | watchedLine c => rw [wake_core s c (.inr rfl)]; split <;> rfl
  | _ => rfl

theorem wake_threads (s : State) (w : Wake) : (wake s w).threads = s.threads := by
  cases w with
  | wakeWrite c => rw [wake_core s c (.inl rfl)]; split <;> rfl
  | watchedLine c => rw [wake_core s c (.inr rfl)]; split <;> rfl
  | _ => rfl

theorem wake_hostAccess_lastAccess (s : State) : (wake s .hostAccess).host.lastAccess = s.now := rfl

theorem wake_gatedAt (s : State) (c : Nat) {w : Wake} (h : w = .wakeWrite c ∨ w = .watchedLine c) : ((wake s w).core c).gatedAt = none := by
  rw [wake_core s c h]
  split
  · rw [State.core_modCore]; exact ungate_gatedAt ..
  · rename_i hg; exact Option.not_isSome_iff_eq_none.mp hg

/-! ### Troham's events (R27, R332, R382, R393) -/

/-- A Troham event raises vector 5 and wakes the device. -/
theorem trohamEvent_tells (s : State) : (trohamEvent s).host.vectors = s.host.vectors ++ [5] ∧ (trohamEvent s).host.pstate = 0 := ⟨rfl, rfl⟩

theorem exec_powerAlarm (s : State) :
    exec .powerAlarm s = .next (trohamEvent { s with host := { s.host with alarm := !s.host.alarm } }) := rfl

theorem exec_temperatureEvent (s : State) :
    exec .temperatureEvent s = .next (trohamEvent { s with host := { s.host with temperature := true } }) := rfl

/-- The counts of the eight stacks as they are kept: 32 bits each, saturating. -/
def ecsCounts (rows corr : List Nat) : Tbl (Nat × Nat) :=
  (List.range 8).map fun i => (i, (min (rows.getD i 0) (2 ^ 32 - 1), min (corr.getD i 0) (2 ^ 32 - 1)))

theorem tget_range' {α : Type} (f : Nat → α) {a n i : Nat} (ha : a ≤ i) (hn : i < a + n) :
    tget i ((List.range' a n).map fun j => (j, f j)) = some (f i) := by
  induction n generalizing a with
  | zero => omega
  | succ n ih =>
    rw [List.range'_succ, List.map_cons, tget]
    by_cases h : a = i
    · rw [if_pos h, h]
    · rw [if_neg h]; exact ih (by omega) (by omega)

theorem tget_ecsCounts (rows corr : List Nat) {i : Nat} (h : i < 8) :
    tget i (ecsCounts rows corr) = some (min (rows.getD i 0) (2 ^ 32 - 1), min (corr.getD i 0) (2 ^ 32 - 1)) := by
  unfold ecsCounts
  rw [List.range_eq_range']
  exact tget_range' (fun i => (min (rows.getD i 0) (2 ^ 32 - 1), min (corr.getD i 0) (2 ^ 32 - 1))) (Nat.zero_le i) (by omega)

/-- The polls of the last hour. -/
def ecsRecent (s : State) : List (Nat × List Nat) := s.host.ecsHour.filter fun h => decide (s.now ≤ h.1 + 3600000 * 1050000)

/-- A poll that finds rows risen is a Troham event. -/
theorem exec_ecsPoll_risen {s : State} {rows : List Nat} (corr : List Nat) (h : rowsRose (ecsRecent s) rows = true) :
    exec (.ecsPoll rows corr) s
      = .next (trohamEvent { s with host := { s.host with ecs := ecsCounts rows corr, ecsHour := [(s.now, rows)] } }) :=
  congrArg Host.Outcome.next (if_pos h)

theorem exec_ecsPoll_quiet {s : State} {rows : List Nat} (corr : List Nat) (h : rowsRose (ecsRecent s) rows = false) :
    exec (.ecsPoll rows corr) s
      = .next { s with host := { s.host with ecs := ecsCounts rows corr, ecsHour := ecsRecent s ++ [(s.now, rows)] } } :=
  congrArg Host.Outcome.next (if_neg (ne_true_of_eq_false h))

/-! ### Checkpoints (R395) -/

theorem exec_checkpointDue {s : State} (h : periodOver s = true) :
    exec .checkpointDue s = .next { s with host := { s.host with ckptDue := true } } :=
  congrArg Host.Outcome.next (if_pos h)

theorem exec_checkpointAnswer (d : BitVec 12) (s : State) :
    exec (.checkpointAnswer d) s = .next ((s.fab.barriers.map Prod.fst).foldl
      (fun u b => answerBarrier u b (if d = 0 then s.fab.dev.toNat else d.toNat)) s) := rfl

/-- A request of a device that is up: the first is kept and served, a later one serves the one kept. -/
theorem exec_checkpointRequest {s : State} (hr : s.host.ready = true) (hf : s.host.fault = false) (d : BitVec 12) (q : W64) :
    exec (.checkpointRequest d q) s = .next (match s.host.ckptReq with
      | none => serveCkpt { s with host := { s.host with ckptReq := some (d, q) } } d q
      | some (e, r) => serveCkpt s e r) :=
  congrArg Host.Outcome.next (if_neg (by simp [hr, hf]))

/-! ### Management (R379, R392, R399) -/

theorem exec_readJournal (s : State) : exec (.i3cCommand .readJournal) s
    = .next { s with host := { s.host with i3cReply := some (s.host.journal.map journalWord) } } := rfl

theorem exec_setPowerLimit (w : Nat) (s : State) : exec (.i3cCommand (.setPowerLimit w)) s
    = .next { s with host := { s.host with powerLimit := w, i3cReply := some [] } } := rfl

theorem exec_otherCommand (s : State) : exec (.i3cCommand .other) s = .next { s with host := { s.host with i3cReply := none } } := rfl

theorem exec_attestationRequest (n : Nat) (s : State) : exec (.attestationRequest n) s = .next { s with host := { s.host with
    report := some (measured s, Config.sign (Config.sha3 (natBytes n 32 ++ (measured s).flatMap fun d => natBytes d.toNat 32))) } } := rfl

theorem images_measured (s : State) : ∃ l, measured s = s.host.images ++ l := ⟨_, rfl⟩

theorem exec_firmwareUpdate_taken {s : State} {v : Nat} {i : List Byte} {g : Nat} (hg : Config.verify (Config.sha3 i) g = true)
    (hv : s.host.rollback ≤ v) : exec (.firmwareUpdate v i g) s
      = .next { s with host := { s.host with fwVersion := v, update := some i, images := s.host.images ++ [Config.sha3 i] } } :=
  congrArg Host.Outcome.next (if_pos (by simp [hg, hv]))

theorem exec_firmwareUpdate_refused {s : State} {v : Nat} {i : List Byte} {g : Nat}
    (h : Config.verify (Config.sha3 i) g = false ∨ v < s.host.rollback) : exec (.firmwareUpdate v i g) s = .next s :=
  congrArg Host.Outcome.next (if_neg (by rcases h with h | h <;> simp [h]))

theorem exec_ideKeyExchange_kept {c : BitVec 2} (h : c ≠ 3) (k : Nat) (s : State) :
    exec (.ideKeyExchange c k) s = .next { s with host := { s.host with keys := tset c.toNat k s.host.keys } } :=
  congrArg Host.Outcome.next (if_neg h)

theorem exec_ideKeyExchange_none (k : Nat) (s : State) : exec (.ideKeyExchange 3 k) s = .next s := rfl

/-! ### The statement -/

/-- Settles O49: each event's lemma names the state it leaves. The one clause that needs more is gating: the write-backs that come first may wake
the core but never gate it, so it gates now (`gateCore_gatedAt`). -/
theorem powerEvents : Obligations.PowerEvents := by
  unfold Obligations.PowerEvents
  refine ⟨?gate, ?idle, ?wake, fun s => ⟨?alarm, ?temperature, ?poll, ?due, ?answer, ?request, ?journal, ?limit, ?other, ?report, ?update, ?key⟩⟩
  case gate =>
    intro s c hr he hg hi
    exact ⟨_, exec_coreClockGate ((gateDue_iff s c).mpr ⟨hr, he, hg, hi⟩), gateCore_gatedAt hg false⟩
  case idle =>
    intro s hg
    refine ⟨fun hp hl => ?_, fun hp hl ha => ?_⟩
    · exact ⟨_, exec_sramRetentionEntry ((sramDue_iff s).mpr ⟨hp, hg, hl⟩), enterState_pstate s 1, enterState_cores_empty s 1,
        enterState_dies_empty s 1⟩
    · exact ⟨_, exec_hbmSelfRefreshEntry ((hbmDue_iff s).mpr ⟨hp, hg, hl, ha⟩), enterState_pstate s 2, enterState_cores_empty s 2,
        enterState_dies_empty s 2⟩
  case wake =>
    intro s w
    exact ⟨_, exec_wakeEvent w s, wake_pstate s w, wake_threads s w, fun h => h ▸ wake_hostAccess_lastAccess s, fun c h => wake_gatedAt s c h⟩
  case alarm => exact ⟨_, exec_powerAlarm s, trohamEvent_tells _, rfl⟩
  case temperature => exact ⟨_, exec_temperatureEvent s, trohamEvent_tells _, rfl⟩
  case poll =>
    intro rows corr
    change ∃ t, _ ∧ _ ∧ (rowsRose (ecsRecent s) rows = true → _) ∧ (rowsRose (ecsRecent s) rows = false → _)
    cases h : rowsRose (ecsRecent s) rows with
    | true => exact ⟨_, exec_ecsPoll_risen corr h, fun _ hi => tget_ecsCounts rows corr hi, fun _ => trohamEvent_tells _, nofun⟩
    | false => exact ⟨_, exec_ecsPoll_quiet corr h, fun _ hi => tget_ecsCounts rows corr hi, nofun, fun _ => rfl⟩
  case due => exact fun h => ⟨_, exec_checkpointDue h, rfl, rfl⟩
  case answer => exact fun d => exec_checkpointAnswer d s
  case request =>
    intro d q hr hf
    rw [exec_checkpointRequest hr hf]
    exact ⟨fun h => by rw [h], fun e r h => by rw [h]⟩
  case journal => exact ⟨_, exec_readJournal s, rfl⟩
  case limit => exact fun w => ⟨_, exec_setPowerLimit w s, rfl⟩
  case other => exact ⟨_, exec_otherCommand s, rfl⟩
  case report => exact fun n => ⟨_, exec_attestationRequest n s, rfl, images_measured s⟩
  case update =>
    intro v i g
    exact ⟨fun hg hv => ⟨_, exec_firmwareUpdate_taken hg hv, rfl, rfl, rfl⟩, exec_firmwareUpdate_refused⟩
  case key =>
    intro c k
    exact ⟨fun h => ⟨_, exec_ideKeyExchange_kept h k s, tget_tset_self ..⟩, fun h => h ▸ exec_ideKeyExchange_none k s⟩

end Sys2Proof.Machine
end

section
/-! Decoding gives back what was encoded (R36 to R57): what each form's word reads as, the parser's answer for it, and the bytes of a word. -/

namespace Sys2Proof.Laws

/-! ### What the parser reads of an encoded word, form by form -/

/-- Whether an R-form word can hold modifiers m: with xk its exponent stands where MOD[2:0] does, and without it has none (R38). -/
def rFits (f : RForm) (m : BitVec 4) : Prop := if f.xk then m.extractLsb' 0 3 = 0 else f.e = 0

/-- The same of an M-form word. -/
def mFits (f : MForm) (m : BitVec 4) : Prop := if f.xk then m.extractLsb' 0 3 = 0 else f.e = 0

variable {w : W64} {o : BitVec 8} {s m : BitVec 4}

theorem encR_reads {f : RForm} (hw : some (encR o s f m) = some w) (h : rFits f m) : fld w 61 3 = o.extractLsb' 5 3
    ∧ fld w 56 5 = o.extractLsb' 0 5 ∧ fld w 60 4 = o.extractLsb' 4 4 ∧ fld w 52 4 = s ∧ rFormOf w = f ∧ rModOf w = m := by
  obtain rfl := Option.some.inj hw
  exact ⟨encR_group .., encR_opc .., encR_top .., encR_sub .., encR_form o s f m h⟩

theorem encI_reads {f : IForm} (hw : some (encI o s f) = some w) : fld w 61 3 = o.extractLsb' 5 3
    ∧ fld w 56 5 = o.extractLsb' 0 5 ∧ fld w 60 4 = o.extractLsb' 4 4 ∧ fld w 52 4 = s ∧ iFormOf w = f := by
  obtain rfl := Option.some.inj hw
  exact ⟨encI_group .., encI_opc .., encI_top .., encI_sub .., encI_form ..⟩

theorem encB_reads {f : BForm} (hw : some (encB o f) = some w) : fld w 61 3 = o.extractLsb' 5 3
    ∧ fld w 56 5 = o.extractLsb' 0 5 ∧ fld w 52 4 = 0 ∧ w.getLsbD 32 = f.fld.getLsbD 0 ∧ bFormOf w = f := by
  obtain rfl := Option.some.inj hw
  exact ⟨encB_group .., encB_opc .., encB_sub .., encB_bit32 .., encB_form ..⟩

theorem encM_reads {f : MForm} (hw : some (encM o s f m) = some w) (h : mFits f m) : fld w 61 3 = o.extractLsb' 5 3
    ∧ fld w 56 5 = o.extractLsb' 0 5 ∧ fld w 52 4 = s ∧ mFormOf w = f ∧ mModOf w = m := by
  obtain rfl := Option.some.inj hw
  exact ⟨encM_group .., encM_opc .., encM_sub .., encM_form o s f m h⟩

theorem encF_reads {f : FForm} (hw : some (encF o s f) = some w) : fld w 61 3 = o.extractLsb' 5 3
    ∧ fld w 56 5 = o.extractLsb' 0 5 ∧ fld w 52 4 = s ∧ (fld w 0 4 = 0 ∧ fld w 5 3 = 0) ∧ fFormOf w = f := by
  obtain rfl := Option.some.inj hw
  exact ⟨encF_group .., encF_opc .., encF_sub .., ⟨encF_low .., encF_mid ..⟩, encF_form ..⟩

theorem encX_reads {f : XForm} (hw : some (encX f) = some w) : fld w 61 3 = (0xA0#8).extractLsb' 5 3
    ∧ fld w 56 5 = (0xA0#8).extractLsb' 0 5 ∧ fld w 0 5 = 0 ∧ xFormOf w = f := by
  obtain rfl := Option.some.inj hw
  exact ⟨encX_group .., encX_opc .., encX_low .., encX_form ..⟩

/-- The scope of an ICINV word is read where an exponent stands as well: the two agree (R237). -/
theorem encR_scope {f : RForm} {c : BitVec 3} (hw : some (encR o s f (lo3 c)) = some w) (h : if f.xk then f.e = c else f.e = 0) :
    fld w 61 3 = o.extractLsb' 5 3 ∧ fld w 56 5 = o.extractLsb' 0 5 ∧ fld w 52 4 = s ∧ w.getLsbD 3 = false ∧ fld w 0 3 = c ∧ rFormOf w = f := by
  obtain rfl := Option.some.inj hw
  have hc : ∀ c : BitVec 3, (lo3 c).extractLsb' 0 3 = c ∧ (lo3 c).getLsbD 3 = false := by decide
  have hl : fld (encR o s f (lo3 c)) 0 3 = c := by
    rw [encR_low, (hc c).1]; split at h <;> simp [h]
  have he : (if f.xk then c else 0) = f.e := by split at h <;> simp_all
  refine ⟨encR_group .., encR_opc .., encR_sub .., (encR_bit3 ..).trans (hc c).2, hl, ?_⟩
  unfold rFormOf
  simp only [encR_pfx, encR_d, encR_a, encR_ax, encR_b, encR_bx, encR_r4, exch_toBits, hl]
  rw [← RForm.xk, he]

theorem med3_reads {l : BitVec 60} (hw : some (0xF#4 ++ l) = some w) : fld w 61 3 = 7#3 ∧ fld w 60 4 = 15#4 ∧ fld w 0 60 = l := by
  obtain rfl := Option.some.inj hw
  refine ⟨?_, ?_, ?_⟩
  · apply BitVec.eq_of_getLsbD_eq; intro i hi
    simp only [BitVec.getLsbD_extractLsb', BitVec.getLsbD_append]; interval_cases i <;> simp
  · apply BitVec.eq_of_getLsbD_eq; intro i hi
    simp only [BitVec.getLsbD_extractLsb', BitVec.getLsbD_append]; interval_cases i <;> simp
  · exact BitVec.extractLsb'_append_eq_right

/-! ### What the checks of a well-formed word say of its exponent (R38) -/

theorem rFits_of_ok {f : RForm} {u : URule} {d a b : Use} {k l : Bool} (h : f.ok u d a b k l = true)
    (hm : k = true → l = true → m.extractLsb' 0 3 = 0) : rFits f m := by
  unfold RForm.ok at h
  have hx := Bool.and_elim_right h
  unfold rFits
  cases e : f.xk <;> simp only [e, Bool.false_eq_true, if_false, if_true] at hx ⊢
  · simpa using hx
  · exact hm (Bool.and_elim_left hx) (Bool.and_elim_right hx)

theorem rFits_of_strOk {f : RForm} {u : URule} {d a b : Use} {k : Bool} (h : f.strOk u d a b k = true) : rFits f m :=
  rFits_of_ok (Bool.and_elim_left h) nofun

/-- A word without operands A and B has no xk. -/
theorem xk_of_unused {f : RForm} {u : URule} {d : Use} {k l : Bool} (h : f.ok u d .unused .unused k l = true) : f.xk = false ∧ f.e = 0 := by
  simp only [RForm.ok, bne_self_eq_false, Bool.false_or, Bool.and_eq_true, beq_iff_eq] at h
  obtain ⟨⟨⟨_, ha⟩, hb⟩, hx⟩ := h
  have e : f.xk = false := by simp [RForm.xk, ha, hb]
  exact ⟨e, by simpa [e] using hx⟩

theorem rFits_of_unused {f : RForm} {u : URule} {d : Use} {k l : Bool} (h : f.ok u d .unused .unused k l = true) : rFits f m := by
  simp [rFits, xk_of_unused h]

theorem mFits_of_ok {f : MForm} {u : URule} {d a : Use} {l : Bool} (h : f.ok u d a l = true) (hm : l = true → m.extractLsb' 0 3 = 0) :
    mFits f m := by
  unfold MForm.ok at h
  have hx := Bool.and_elim_right h
  unfold mFits
  cases e : f.xk <;> simp only [e, Bool.false_eq_true, if_false, if_true] at hx ⊢
  · simpa using hx
  · exact hm hx

/-! ### Fields of SUB and MOD -/

@[simp] theorem sgwc_reads : ∀ (g : Bool) (c : BitVec 3), (sgwc g c).extractLsb' 0 3 = c ∧ (sgwc g c)[3] = g := by decide
@[simp] theorem sgew_reads : ∀ (g t : Bool) (e : BitVec 2),
    (sgew g t e).extractLsb' 0 2 = e ∧ (sgew g t e)[2] = t ∧ (sgew g t e)[3] = g := by decide
@[simp] theorem satMod_reads : ∀ b : Bool, (satMod b).extractLsb' 1 3 = 0#3 ∧ (satMod b)[0] = b
    ∧ ((satMod b).extractLsb' 0 3 = 0#3 ↔ b = false) := by decide
@[simp] theorem lo2_reads : ∀ t : BitVec 2, (lo2 t).extractLsb' 0 2 = t ∧ (lo2 t).extractLsb' 2 2 = 0#2 ∧ (lo2 t)[3] = false ∧ (lo2 t)[2] = false
    ∧ ((lo2 t).extractLsb' 0 3 = 0#3 ↔ t = 0#2) := by decide
@[simp] theorem lo3_reads : ∀ t : BitVec 3, (lo3 t).extractLsb' 0 3 = t ∧ (lo3 t)[3] = false := by decide
@[simp] theorem ers_reads : ∀ (e t : Bool) (r : BitVec 2), (ers e t r)[3] = e ∧ (ers e t r)[2] = t ∧ (ers e t r).extractLsb' 0 2 = r
    ∧ ((ers e t r).extractLsb' 0 3 = 0#3 ↔ r = 0#2 ∧ t = false) := by decide
@[simp] theorem bits_fmodOf (m : FMod) : fmodOf m.bits = m := by
  obtain ⟨r, t, p⟩ := m; revert r t p; decide
@[simp] theorem bits_low (m : FMod) : m.bits.extractLsb' 0 3 = 0#3 ↔ m.lowZero = true := by
  obtain ⟨r, t, p⟩ := m; revert r t p; decide
@[simp] theorem bitHigh_reads : ∀ (b : Bool) (c : BitVec 3), (b1 b ++ c : BitVec 4)[3] = b ∧ (b1 b ++ c : BitVec 4).extractLsb' 0 3 = c := by decide
@[simp] theorem bitLow_reads : ∀ (c : BitVec 3) (b : Bool), (c ++ b1 b : BitVec 4)[0] = b ∧ (c ++ b1 b : BitVec 4).extractLsb' 1 3 = c
    ∧ ((c ++ b1 b : BitVec 4).extractLsb' 0 3 = 0#3 ↔ b = false ∧ c.extractLsb' 0 2 = 0#2) := by decide
@[simp] theorem pair_reads : ∀ a b : BitVec 2, (a ++ b : BitVec 4).extractLsb' 2 2 = a ∧ (a ++ b : BitVec 4).extractLsb' 0 2 = b := by decide
@[simp] theorem flags3_reads : ∀ a b c : Bool, (0#1 ++ b1 a ++ b1 b ++ b1 c : BitVec 4)[3] = false
    ∧ (0#1 ++ b1 a ++ b1 b ++ b1 c : BitVec 4)[2] = a ∧ (0#1 ++ b1 a ++ b1 b ++ b1 c : BitVec 4)[1] = b
    ∧ (0#1 ++ b1 a ++ b1 b ++ b1 c : BitVec 4)[0] = c := by decide
@[simp] theorem flags2_reads : ∀ a b : Bool, (0#2 ++ b1 a ++ b1 b : BitVec 4).extractLsb' 2 2 = 0#2
    ∧ (0#2 ++ b1 a ++ b1 b : BitVec 4)[1] = a ∧ (0#2 ++ b1 a ++ b1 b : BitVec 4)[0] = b := by decide
@[simp] theorem table_joined : ∀ t : BitVec 8, t.extractLsb' 4 4 ++ t.extractLsb' 0 4 = t := by decide
@[simp] theorem number_joined : ∀ n : BitVec 6, n.extractLsb' 4 2 ++ n.extractLsb' 0 4 = n := by decide

/-! ### The parser by group (R47) -/

section Groups
variable {c : BitVec 5} (ho : fld w 56 5 = c)
include ho

theorem parse_int (h : fld w 61 3 = 0#3) : parse w = parseInt w c := by simp [parse, h, ho]
theorem parse_float (h : fld w 61 3 = 1#3) : parse w = parseFloat w c := by simp [parse, h, ho]
theorem parse_control (h : fld w 61 3 = 2#3) : parse w = parseControl w c := by simp [parse, h, ho]
theorem parse_mem (h : fld w 61 3 = 3#3) : parse w = parseMem w c := by simp [parse, h, ho]
theorem parse_stream (h : fld w 61 3 = 4#3) : parse w = parseStream w c := by simp [parse, h, ho]
theorem parse_matrix (h : fld w 61 3 = 5#3) : parse w = parseMatrix w c := by simp [parse, h, ho]
theorem parse_fabric (h : fld w 61 3 = 6#3) : parse w = parseFabric w c := by simp [parse, h, ho]
theorem parse_system (h : fld w 61 3 = 7#3) (ht : fld w 60 4 = 14#4) : parse w = parseSystem w c := by simp [parse, h, ho, ht]
end Groups

end Sys2Proof.Laws
end

section
/-! The parser gives every encoded instruction back, and a word's bytes the word (R28, R47 to R57). -/

namespace Sys2Proof.Laws

/-! ### The parser on encoded words -/

/-- The exponent of an ICINV.line word with xk is its scope (R237). -/
theorem icinvLine_scope {c : BitVec 3} {f : RForm} (h : (Instr.icinvLine c f).wf = true) : if f.xk then f.e = c else f.e = 0 := by
  simp only [Instr.wf, RForm.ok, Bool.and_eq_true] at h
  obtain ⟨⟨⟨⟨-, hx⟩, -⟩, -⟩, hc⟩ := h
  cases e : f.xk <;> simp_all

/-- Bit 32 tells COMMIT from COMMIT.R (R214). -/
theorem commit_bit {f : BForm} (h : (Instr.commit f).wf = true) : f.fld.getLsbD 0 = false := by
  have hb : f.fld.extractLsb' 0 3 = 0 := by simpa using Bool.and_elim_right (Bool.and_elim_left h)
  simpa using congrArg (·.getLsbD 0) hb

theorem commitR_bit {f : BForm} (h : (Instr.commitR f).wf = true) : f.fld.getLsbD 0 = true := by
  have hb : f.fld.extractLsb' 0 3 = 1 := by simpa using Bool.and_elim_right (Bool.and_elim_left h)
  simpa using congrArg (·.getLsbD 0) hb

/-- An instruction's word parses to it: the arm of its opcode is the one the parser takes, and each field reads back. -/
theorem parse_encode {i : Instr} {w : W64} (hw : i.wf = true) (he : encode i = some w) : parse w = some i := by
  cases i with
  | iadd g c t f | isub g c t f | imad g c t f | iabs c t f | ineg c t f =>
    obtain ⟨hg, ho, -, hs, hf, hm⟩ := encR_reads he (rFits_of_ok hw (by simp))
    exact (parse_int ho hg).trans ((if_pos (by simp [hs, hm])).trans (by simp [hs, hf, hm]))
  | imul g c f | imulh g c f | idiv g c f | irem g c f | imin g c f | imax g c f | bfx g f =>
    obtain ⟨hg, ho, -, hs, hf, hm⟩ := encR_reads he (rFits_of_ok hw (by simp))
    exact (parse_int ho hg).trans ((if_pos (by simp [hs, hm])).trans (by simp [hs, hf]))
  | and_ f | or_ f | xor_ f | andn f | not_ f | shl f | shr f | sar f | rot f | bfi f | popc f | clz f | ctz f | brev f
  | movZ f | movS f | movx f =>
    obtain ⟨hg, ho, -, hs, hf, hm⟩ := encR_reads he (rFits_of_ok hw (by simp))
    exact (parse_int ho hg).trans ((if_pos (by simp [hs, hm])).trans (by simp [hs, hf, pick]))
  | movxw f =>
    obtain ⟨hg, ho, -, hs, hf, hm⟩ := encR_reads he (rFits_of_ok (Bool.and_elim_left hw) (by simp))
    exact (parse_int ho hg).trans ((if_pos hm).trans (by simp [hs, hf, pick]))
  | iaddImm g c f | icmpImm g c f =>
    obtain ⟨hg, ho, -, hs, hf⟩ := encI_reads he
    exact (parse_int ho hg).trans (show some _ = some _ by simp [hs, hf])
  | andImm f | orImm f | xorImm f | andnImm f | shlImm f | shrImm f | sarImm f | rotImm f =>
    obtain ⟨hg, ho, -, hs, hf⟩ := encI_reads he
    exact (parse_int ho hg).trans (show pick _ _ = some _ by simp [hs, hf, pick])
  | movi g f | movh p f =>
    obtain ⟨hg, ho, -, hs, hf⟩ := encI_reads he
    exact (parse_int ho hg).trans ((if_pos (by simp [hs])).trans (by simp [hs, hf]))
  | lut3 t f =>
    obtain ⟨hg, ho, -, hs, hf, hm⟩ := encR_reads he (rFits_of_ok hw nofun)
    exact (parse_int ho hg).trans (show some _ = some _ by simp [hs, hf, hm])
  | isel n p f =>
    obtain ⟨hg, ho, -, hs, hf, hm⟩ := encR_reads he (rFits_of_ok hw nofun)
    exact (parse_int ho hg).trans ((if_pos hs).trans (by simp [hf, hm]))
  | icmp g c f | pmin g e f | pmax g e f =>
    obtain ⟨hg, ho, -, hs, hf, hm⟩ := encR_reads he (rFits_of_ok (Bool.and_elim_left hw) (by simp))
    exact (parse_int ho hg).trans ((if_pos hm).trans (by simp [hs, hf]))
  | padd g e t f | psub g e t f =>
    obtain ⟨hg, ho, -, hs, hf, hm⟩ := encR_reads he (rFits_of_ok (Bool.and_elim_left hw) (by simp))
    exact (parse_int ho hg).trans ((if_pos (by simp [hm])).trans (by simp [hs, hf, hm]))
  | pdot g e f =>
    obtain ⟨hg, ho, -, hs, hf, hm⟩ := encR_reads he (rFits_of_ok (Bool.and_elim_left hw) (by simp))
    exact (parse_int ho hg).trans ((if_pos (by simp [hs, hm])).trans (by simp [hs, hf]))
  | pabs e f =>
    obtain ⟨hg, ho, -, hs, hf, hm⟩ := encR_reads he (rFits_of_ok (Bool.and_elim_left hw) (by simp))
    exact (parse_int ho hg).trans ((if_neg (by simp [hs])).trans ((if_pos (by simp [hs, hm])).trans (by simp [hs, hf])))
  | pcmp g e c f =>
    obtain ⟨hg, ho, -, hs, hf, hm⟩ := encR_reads he (rFits_of_ok (Bool.and_elim_left (Bool.and_elim_left hw)) nofun)
    exact (parse_int ho hg).trans ((if_pos (by simp [hs])).trans ((if_pos (by simp [hm])).trans (by simp [hs, hf, hm])))
  | pack e f | unpk e f =>
    obtain ⟨hg, ho, -, hs, hf, hm⟩ := encR_reads he (rFits_of_ok (Bool.and_elim_left hw) nofun)
    exact (parse_int ho hg).trans ((if_pos (by simp [hm])).trans (by simp [hs, hf, hm, pick]))
  | fadd t m f | fsub t m f | fmul t m f | ffma t m f | fdiv t m f | fsqrt t m f | frcp t m f | frsq t m f | fexp2 t m f | flog2 t m f
  | fscale t m f =>
    obtain ⟨hg, ho, -, hs, hf, hm⟩ := encR_reads he (rFits_of_ok (Bool.and_elim_left hw) (by simp))
    exact (parse_float ho hg).trans ((if_pos (by simp [hs])).trans (by simp [hs, hf, hm]))
  | fmin t p f | fmax t p f | fabs t f | fneg t f | fclass t f | icvtf g t b r f | fcvti g t r f =>
    obtain ⟨hg, ho, -, hs, hf, hm⟩ := encR_reads he (rFits_of_ok (Bool.and_elim_left hw) (by simp))
    exact (parse_float ho hg).trans ((if_pos (by simp [hs, hm])).trans (by simp [hs, hf, hm]))
  | fcmp t b c f =>
    obtain ⟨hg, ho, -, hs, hf, hm⟩ := encR_reads he (rFits_of_ok (Bool.and_elim_left hw) nofun)
    exact (parse_float ho hg).trans ((if_pos (by simp [hs])).trans (by simp [hs, hf, hm]))
  | fcvt a d m f =>
    obtain ⟨hg, ho, -, hs, hf, hm⟩ := encR_reads he
      (rFits_of_ok (Bool.and_elim_left (Bool.and_elim_left (Bool.and_elim_left hw))) (by simp))
    exact (parse_float ho hg).trans (show some _ = some _ by simp [hs, hf, hm])
  | cvtb8 p e t r f | cvtb8Unsigned p e t r f =>
    obtain ⟨hg, ho, -, hs, hf, hm⟩ := encR_reads he (rFits_of_ok (Bool.and_elim_left (Bool.and_elim_left hw)) (by simp))
    exact (parse_float ho hg).trans (show some _ = some _ by simp [hs, hf, hm])
  | cvtf8 p t f | cvtf8Unsigned p t f =>
    obtain ⟨hg, ho, -, hs, hf, hm⟩ := encR_reads he (rFits_of_ok (Bool.and_elim_left (Bool.and_elim_left hw)) nofun)
    exact (parse_float ho hg).trans ((if_pos (by simp [hm])).trans (by simp [hs, hf, hm]))
  | b8dot p b r f | b8dotUnsigned p b r f =>
    obtain ⟨hg, ho, -, hs, hf, hm⟩ := encR_reads he (rFits_of_ok (Bool.and_elim_left hw) (by simp))
    exact (parse_float ho hg).trans ((if_pos (by simp [hm])).trans (by simp [hs, hf, hm]))
  | hadd2 m f | hmul2 m f | hfma2 m f =>
    obtain ⟨hg, ho, -, hs, hf, hm⟩ := encR_reads he (rFits_of_ok hw (by simp))
    exact (parse_float ho hg).trans ((if_pos hs).trans (by simp [hf, hm]))
  | bra f | call f | loopd f | item f =>
    obtain ⟨hg, ho, hs, -, hf⟩ := encB_reads he
    exact (parse_control ho hg).trans ((if_pos hs).trans (by rw [hf]))
  | jmpi f | calli f | ret f | yield f | stop f | waitw f | spawn f | spawnn f | join f | leave f | arrive f | waitph f | itempush f
  | fwait f | ftest f | fpass f | fcancel f =>
    obtain ⟨hg, ho, -, hs, hf, hm⟩ := encR_reads he (rFits_of_ok hw (by simp))
    exact (parse_control ho hg).trans ((if_pos ⟨hs, hm⟩).trans (by rw [hf]))
  | nop f =>
    obtain ⟨hg, ho, -, hs, hf, hm⟩ := encR_reads he (rFits_of_ok (Bool.and_elim_left hw) (by simp))
    exact (parse_control ho hg).trans ((if_pos ⟨hs, hm⟩).trans (by rw [hf]))
  | spl f | fil f =>
    obtain ⟨hg, ho, -, hs, hf, hm⟩ := encR_reads he (rFits_of_ok (Bool.and_elim_left (Bool.and_elim_left hw)) (by simp))
    exact (parse_control ho hg).trans ((if_pos ⟨hs, hm⟩).trans (by rw [hf]))
  | sread n f =>
    obtain ⟨hg, ho, -, hs, hf, hm⟩ := encR_reads he (rFits_of_ok hw (by simp))
    exact (parse_control ho hg).trans ((if_pos ⟨by simp [hs], hm⟩).trans (by simp [hs, hf]))
  | sleep f | shrink f =>
    obtain ⟨hg, ho, -, hs, hf⟩ := encI_reads he
    exact (parse_control ho hg).trans ((if_pos hs).trans (by rw [hf]))
  | grow f | growNb f =>
    obtain ⟨hg, ho, -, hs, hf⟩ := encI_reads he
    exact (parse_control ho hg).trans (show pick _ _ = some _ by simp [hs, hf, pick])
  | wait c f =>
    obtain ⟨hg, ho, -, hs, hf⟩ := encI_reads he
    exact (parse_control ho hg).trans ((if_pos (by simp [hs])).trans (by simp [hs, hf]))
  | ld x z h f | st z h f | ldV n z h f | stV n z h f | ldp x z h f =>
    obtain ⟨hg, ho, hs, hf, hm⟩ := encM_reads he (mFits_of_ok (Bool.and_elim_left hw) (by simp))
    exact (parse_mem ho hg).trans ((if_pos (by simp [hs, hm])).trans (by simp [hs, hf, hm]))
  | pgreq f | sld x z f | sst z f | ldm n f =>
    obtain ⟨hg, ho, hs, hf, hm⟩ := encM_reads he (mFits_of_ok hw (by simp))
    exact (parse_mem ho hg).trans ((if_pos (by simp [hs, hm])).trans (by simp [hs, hf]))
  | atom op c z f =>
    obtain ⟨hg, ho, hs, hf, hm⟩ := encM_reads he (mFits_of_ok (Bool.and_elim_left (Bool.and_elim_left hw)) (by simp))
    exact (parse_mem ho hg).trans (show some _ = some _ by simp [hs, hf, hm])
  | fenceAcq c f | fenceRel c f | fenceAr c f =>
    obtain ⟨hg, ho, -, hs, hf, hm⟩ := encR_reads he (rFits_of_unused (Bool.and_elim_left hw))
    exact (parse_mem ho hg).trans ((if_pos (by simp [hm])).trans (by simp [hs, hf, hm, pick]))
  | icinv c f =>
    obtain ⟨hx, hz⟩ := xk_of_unused (Bool.and_elim_left (Bool.and_elim_left hw))
    obtain ⟨hg, ho, hs, hb, hc, hf⟩ := encR_scope he (by simp [hx, hz])
    exact (parse_mem ho hg).trans ((if_pos hb).trans (by simp [hs, hf, hc, pick]))
  | icinvLine c f =>
    obtain ⟨hg, ho, hs, hb, hc, hf⟩ := encR_scope he (icinvLine_scope hw)
    exact (parse_mem ho hg).trans ((if_pos hb).trans (by simp [hs, hf, hc, pick]))
  | dcwb f | dcwbAll f =>
    obtain ⟨hg, ho, -, hs, hf, hm⟩ := encR_reads he (rFits_of_ok hw (by simp))
    exact (parse_mem ho hg).trans ((if_pos hm).trans (by simp [hs, hf, pick]))
  | leg n z f =>
    obtain ⟨hg, ho, -, hs, hf, hm⟩ := encR_reads he (rFits_of_unused (Bool.and_elim_left (Bool.and_elim_left hw)))
    exact (parse_mem ho hg).trans ((if_pos (by simp [hm])).trans (by simp [hs, hf, hm]))
  | commit f =>
    obtain ⟨hg, ho, hs, hb, hf⟩ := encB_reads he
    exact (parse_mem ho hg).trans ((if_pos hs).trans (by rw [hb, hf, commit_bit hw]; rfl))
  | commitR f =>
    obtain ⟨hg, ho, hs, hb, hf⟩ := encB_reads he
    exact (parse_mem ho hg).trans ((if_pos hs).trans (by rw [hb, hf, commitR_bit hw]; rfl))
  | pchk f | pclr f | pset f =>
    obtain ⟨hg, ho, -, hs, hf, hm⟩ := encR_reads he (rFits_of_ok hw (by simp))
    exact (parse_mem ho hg).trans ((if_pos ⟨hs, hm⟩).trans (by rw [hf]))
  | porg k f =>
    obtain ⟨hg, ho, -, hs, hf, hm⟩ := encR_reads he (rFits_of_ok hw (by simp))
    exact (parse_mem ho hg).trans ((if_pos ⟨by simp [hs], hm⟩).trans (by simp [hs, hf]))
  | talloc l f =>
    obtain ⟨hg, ho, -, hs, hf, hm⟩ := encR_reads he (rFits_of_strOk (Bool.and_elim_left hw))
    exact (parse_stream ho hg).trans ((if_pos (by simp [hs, hm])).trans (by simp [hs, hf]))
  | tfree f | sstore f | scopy f | rpop f | rrel f | asl f | lastld f =>
    obtain ⟨hg, ho, -, hs, hf, hm⟩ := encR_reads he (rFits_of_strOk hw)
    exact (parse_stream ho hg).trans ((if_pos ⟨hs, hm⟩).trans (by rw [hf]))
  | tquery k f | qpop k f | qstat k f =>
    obtain ⟨hg, ho, -, hs, hf, hm⟩ := encR_reads he (rFits_of_strOk hw)
    exact (parse_stream ho hg).trans ((if_pos (by simp [hs, hm])).trans (by simp [hs, hf]))
  | sload f | sloadRing f | sring f | sringFree f =>
    obtain ⟨hg, ho, -, hs, hf, hm⟩ := encR_reads he (rFits_of_strOk hw)
    exact (parse_stream ho hg).trans ((if_pos ⟨hs, by rw [hm]; rfl⟩).trans (by rw [hm, hf]; rfl))
  | strns n a u t f =>
    obtain ⟨hg, ho, -, hs, hf, hm⟩ := encR_reads he (rFits_of_strOk (Bool.and_elim_left hw))
    exact (parse_stream ho hg).trans ((if_pos (by simp [hm])).trans (by simp [hs, hf, hm]))
  | mloop f =>
    obtain ⟨hg, ho, hl, hf⟩ := encX_reads he
    exact (parse_matrix ho hg).trans ((if_pos hl).trans (by rw [hf]))
  | mzero f | mloadacc f | tmov f =>
    obtain ⟨hg, ho, -, hs, hf, hm⟩ := encR_reads he (rFits_of_strOk hw)
    exact (parse_matrix ho hg).trans ((if_pos ⟨hs, hm⟩).trans (by rw [hf]))
  | tcvtB8 p e t r f | tcvtB8Unsigned p e t r f =>
    obtain ⟨hg, ho, -, hs, hf, hm⟩ := encR_reads he (rFits_of_strOk (Bool.and_elim_left hw))
    exact (parse_matrix ho hg).trans (show some _ = some _ by simp [hs, hf, hm])
  | tcvtOther t b r f =>
    obtain ⟨hg, ho, -, hs, hf, hm⟩ := encR_reads he (rFits_of_strOk (Bool.and_elim_left hw))
    exact (parse_matrix ho hg).trans ((if_pos (by simp [hs, hm])).trans (by simp [hs, hf, hm]))
  | mstat k f =>
    obtain ⟨hg, ho, -, hs, hf, hm⟩ := encR_reads he (rFits_of_ok hw (by simp))
    exact (parse_matrix ho hg).trans ((if_pos (by simp [hs, hm])).trans (by simp [hs, hf]))
  | cmb op z f =>
    obtain ⟨hg, ho, -, hs, hf, hm⟩ := encR_reads he
      (rFits_of_strOk (Bool.and_elim_left (Bool.and_elim_left (Bool.and_elim_left hw))))
    exact (parse_fabric ho hg).trans ((if_pos (by simp [hm])).trans (by simp [hs, hf, hm]))
  | cmbu n f | cmbdef n f =>
    obtain ⟨hg, ho, -, hs, hf, hm⟩ := encR_reads he (rFits_of_strOk hw)
    exact (parse_fabric ho hg).trans ((if_pos (by simp [hm])).trans (by simp [hs, hf, hm]))
  | flushr f | flushrA f | fbar f | fbarStep f =>
    obtain ⟨hg, ho, hs, hz, hf⟩ := encF_reads he
    exact (parse_fabric ho hg).trans ((if_pos hz).trans (by simp [hs, hf, pick]))
  | drain f =>
    obtain ⟨hg, ho, hs, hz, hf⟩ := encF_reads he
    exact (parse_fabric ho hg).trans ((if_pos ⟨hs, hz⟩).trans (by rw [hf]))
  | fput f | fget f | rload f =>
    obtain ⟨hg, ho, -, hs, hf, hm⟩ := encR_reads he (rFits_of_strOk hw)
    exact (parse_fabric ho hg).trans ((if_pos ⟨hs, hm⟩).trans (by rw [hf]))
  | fsig a z f =>
    obtain ⟨hg, ho, -, hs, hf, hm⟩ := encR_reads he (rFits_of_strOk hw)
    exact (parse_fabric ho hg).trans ((if_pos ⟨hs, by simp [hm]⟩).trans (by simp [hf, hm]))
  | rstat k f =>
    obtain ⟨hg, ho, -, hs, hf, hm⟩ := encR_reads he (rFits_of_ok hw (by simp))
    exact (parse_fabric ho hg).trans ((if_pos ⟨by simp [hs], hm⟩).trans (by simp [hs, hf]))
  | trap f | sysr f | sysw f | brk f | sysc f =>
    obtain ⟨hg, ho, ht, hs, hf⟩ := encI_reads he
    exact (parse_system ho hg ht).trans ((if_pos hs).trans (show some _ = some _ by rw [hf]))
  | rte f | halt f =>
    obtain ⟨hg, ho, ht, hs, hf, hm⟩ := encR_reads he (rFits_of_ok hw (by simp))
    exact (parse_system ho hg ht).trans ((if_pos hs).trans ((if_pos hm).trans (by rw [hf])))
  | snap f | rbk f | ctxld f =>
    obtain ⟨hg, ho, ht, hs, hf, hm⟩ := encR_reads he (rFits_of_ok (Bool.and_elim_left hw) (by simp))
    exact (parse_system ho hg ht).trans ((if_pos hs).trans ((if_pos hm).trans (by rw [hf])))
  | ctxsv q f =>
    obtain ⟨hg, ho, ht, hs, hf, hm⟩ := encR_reads he (rFits_of_ok (Bool.and_elim_left hw) (by simp))
    exact (parse_system ho hg ht).trans ((if_pos hs).trans ((if_pos (by simp [hm])).trans (by simp [hf, hm])))
  | med3 l =>
    obtain ⟨hg, ht, hl⟩ := med3_reads he
    simp [parse, hg, ht, hl]
  | _ => exact nomatch he

/-! ### The bytes of a word (R28) -/

theorem length_bytesOfWord (w : W64) : (bytesOfWord w).length = 8 := by simp [bytesOfWord]

theorem wordOfBytes_bytesOfWord (w : W64) : wordOfBytes (bytesOfWord w) = w := by
  apply BitVec.eq_of_toNat_eq
  have hlt := w.isLt
  simp only [wordOfBytes, bytesOfWord, List.range_succ, List.range_zero, List.nil_append, List.cons_append, List.map_cons, List.map_nil, List.foldr_cons,
    List.foldr_nil, BitVec.extractLsb'_toNat, BitVec.toNat_ofNat, Nat.shiftRight_eq_div_pow]
  omega

theorem decodeBytes_bytesOfWord {w : W64} {i : Instr} (h : decode w = some i) (rest : List Byte) :
    decodeBytes (bytesOfWord w ++ rest) = some (i, rest) := by
  have hn : ¬ (bytesOfWord w ++ rest).length < 8 := by simp [length_bytesOfWord]
  unfold decodeBytes
  rw [if_neg hn, List.take_left' (length_bytesOfWord w), List.drop_left' (length_bytesOfWord w), wordOfBytes_bytesOfWord, h]
  rfl

theorem decode_encode {i : Instr} {w : W64} (hw : i.WellFormed) (he : encode i = some w) : decode w = some i := by
  simp only [decode, parse_encode hw he, if_pos hw]

/-- Settles O55: an instruction's word parses to it (`parse_encode`), passes the checks that it passed itself, and is made of its own bytes. -/
theorem decodeOfEncode : Obligations.DecodeOfEncode := by
  intro i w hw he
  have hd : decode w = some i := decode_encode hw he
  refine ⟨hd, decodeBytes_bytesOfWord hd, ?_⟩
  have hb := decodeBytes_bytesOfWord hd []
  rw [List.append_nil] at hb
  rw [decodeTableWord, BitVec.ofNat_toNat, BitVec.setWidth_eq, hb]
  rfl

end Sys2Proof.Laws
end

section
/-! What a step is: the choice it carries out, the word at a port that may issue, and what it leaves on the ports (R28, R58, R93, R95, R221). -/

namespace Sys2Proof.Machine

/-! ### A step carries out one choice -/

theorem decode_wellFormed {w : W64} {i : Instr} (h : decode w = some i) : i.WellFormed := by
  unfold decode at h
  cases hp : parse w with
  | none => simp [hp] at h
  | some j =>
    simp only [hp, Option.ite_none_right_eq_some, Option.some.injEq] at h
    obtain ⟨hj, rfl⟩ := h
    exact hj

theorem step_dead {s : State} (h : dead s = true) : step s = .fault .deviceStopped := if_pos h

theorem step_agenda {s : State} {c : Choice} {cs : List Choice} (ha : s.agenda = c :: cs) (hd : dead s = false) :
    step s = settled (act { s with agenda := cs } c) := by
  simp [step, hd, ha]

theorem step_default {s : State} (ha : s.agenda = []) (hd : dead s = false) : step s = settled (act s (defaultChoice s)) := by
  simp [step, hd, ha]

theorem act_event {s : State} {i : Instr} (h : encode i = none) : act s (.ev i) = exec i s := by simp [act, h]

/-- The state in which port k issues: the cycle of its lane is its own (R94). -/
def issuing (s : State) (k : Nat) : State := { s with iss := some k, turns := tset (k / 2) (k % 2) s.turns }

@[simp] theorem issuing_cur (s : State) (k : Nat) : (issuing s k).cur = s.port k := rfl

theorem act_held {s : State} {k : Nat} (h : mayIssue s k = false) : act s (.issue k) = .next s := by simp [act, pick, h]

theorem act_trap {s : State} {k : Nat} {r : TrapRec} (h : mayIssue s k = true) (ht : (s.port k).trap = some r) :
    act s (.issue k) = .next (takeTrap (issuing s k) r) := by
  have hc : (issuing s k).cur.trap = some r := ht
  unfold issuing at hc ⊢
  simp [act, pick, h, hc]

theorem act_undefined {s : State} {k : Nat} (h : mayIssue s k = true) (ht : (s.port k).trap = none) (hd : decode (s.port k).word = none) :
    act s (.issue k) = .next (takeTrap (issuing s k) (trapAt (issuing s k) (pfxOf (s.port k).word) tILL dUNDEF)) := by
  have hc : (issuing s k).cur = s.port k := rfl
  unfold issuing at hc ⊢
  simp [act, pick, h, hc, ht, hd]

theorem act_word {s : State} {k : Nat} {i : Instr} (h : mayIssue s k = true) (ht : (s.port k).trap = none)
    (hd : decode (s.port k).word = some i) : act s (.issue k) = exec i (issuing s k) := by
  have hc : (issuing s k).cur = s.port k := rfl
  unfold issuing at hc ⊢
  simp [act, pick, h, hc, ht, hd]

/-! ### Every step goes on -/

/-- Every instruction and every event has a next state. -/
theorem exec_next (i : Instr) (s : State) : ∃ t, exec i s = .next t := by
  cases i <;> exact ⟨_, rfl⟩

theorem act_issue_next (s : State) (k : Nat) : ∃ t, act s (.issue k) = .next t := by
  unfold act
  dsimp only
  cases pick s k with
  | done t => exact ⟨t, rfl⟩
  | run i t => exact exec_next i t

theorem act_next (s : State) (c : Choice) : ∃ t, act s c = .next t := by
  cases c with
  | ev i =>
    by_cases h : (encode i).isSome = true
    · exact ⟨s, if_pos h⟩
    · obtain ⟨t, ht⟩ := exec_next i s
      exact ⟨t, (if_neg h).trans ht⟩
  | issue k => exact act_issue_next s k
  | flit p f d => exact ⟨_, rfl⟩
  | tick => exact ⟨_, rfl⟩
  | upset u => exact ⟨_, rfl⟩

theorem step_next {s : State} (hd : dead s = false) : ∃ t, step s = .next (tidy t) := by
  cases ha : s.agenda with
  | nil =>
    obtain ⟨t, ht⟩ := act_next s (defaultChoice s)
    exact ⟨t, by rw [step_default ha hd, ht]; rfl⟩
  | cons c cs =>
    obtain ⟨t, ht⟩ := act_next { s with agenda := cs } c
    exact ⟨t, by rw [step_agenda ha hd, ht]; rfl⟩

/-! ### The ports that a step leaves -/

theorem ungateReady_ports (s : State) : (ungateReady s).ports = s.ports := by
  unfold ungateReady
  split
  · refine List.foldlRecOn (motive := fun u : State => u.ports = s.ports) _ _ rfl fun u hu c _ => ?_
    split
    · exact hu
    · exact hu
  · rfl

/-- Tidying ends by freeing every port whose clause is over. -/
theorem tidy_ports (s : State) : ∀ p ∈ (tidy s).ports, portOver p.2 = false := by
  intro p hp
  unfold tidy at hp
  rw [ungateReady_ports] at hp
  simpa using (List.mem_filter.1 hp).2

theorem portOver_false {p : Port} (h : portOver p = false) : p.pack ≠ [] ∧ (p.trap = none → p.busy = 0 → p.widx < p.words.length) := by
  simp only [portOver, Bool.or_eq_false_iff, List.isEmpty_eq_false_iff, Bool.and_eq_false_iff, Option.isNone_eq_false_iff,
    beq_eq_false_iff_ne, decide_eq_false_iff_not, not_le] at h
  obtain ⟨hp, hw⟩ := h
  refine ⟨hp, fun ht hb => ?_⟩
  rcases hw with (hw | hw) | hw
  · simp [ht] at hw
  · exact absurd hb hw
  · exact hw

/-- Settles O60: whatever the choice, `act` answers a next state, and what follows of itself ends by freeing the ports that are done. That a
stopped device answers a fault is the model's own choice (assumption 58). -/
theorem everyStepGoesOn : Obligations.EveryStepGoesOn := by
  refine ⟨fun s h => step_dead h, fun s h => ?_, exec_next⟩
  obtain ⟨t, ht⟩ := step_next h
  exact ⟨tidy t, ht, fun p hp => portOver_false (tidy_ports t p hp)⟩

end Sys2Proof.Machine
end

section
/-! The step of a state in which a word was placed, and the words that the spec writes out (R28, R40 to R46, R94; assumption 19). -/

namespace Sys2Proof.Machine

/-! ### A word placed as the next one to issue (assumption 19) -/

theorem mem_tset {α : Type} {k : Nat} {a : α} {l : Tbl α} {q : Nat × α} (h : q ∈ tset k a l) : q = (k, a) ∨ q ∈ l := by
  induction l with
  | nil => simpa [tset] using h
  | cons p l ih =>
    obtain ⟨j, b⟩ := p
    unfold tset at h
    split at h
    · simpa using h
    · split at h
      · rcases List.mem_cons.1 h with h | h
        · exact .inl h
        · exact .inr (List.mem_cons_of_mem _ h)
      · rcases List.mem_cons.1 h with h | h
        · exact .inr (h ▸ List.mem_cons_self ..)
        · exact (ih h).imp_right (List.mem_cons_of_mem _)

/-- An entry that stands in front of the rest of a table, behind none of its key. -/
theorem tget_append {α : Type} {k : Nat} {a : α} {l m : Tbl α} (h : tget k l = some a) : tget k (l ++ m) = some a := by
  induction l with
  | nil => cases h
  | cons p l ih =>
    obtain ⟨j, b⟩ := p
    by_cases e : j = k
    · simpa [tget, e] using h
    · simpa [tget, e] using ih (by simpa [tget, e] using h)

/-- A key that a filter leaves out holds nothing. -/
theorem tget_filter_none {α : Type} {k : Nat} {l : Tbl α} {p : Nat × α → Bool} (h : ∀ a, p (k, a) = false) : tget k (l.filter p) = none := by
  induction l with
  | nil => rfl
  | cons q l ih =>
    obtain ⟨j, b⟩ := q
    by_cases e : p (j, b) = true
    · have hj : j ≠ k := by rintro rfl; simp [h] at e
      rw [List.filter_cons_of_pos e]
      simpa [tget, hj] using ih
    · rwa [List.filter_cons_of_neg e]

/-- Port 0 as the placed word stands on it. -/
def fetchPort (w : W64) : Port := { hdr := BitVec.ofNat 64 (classOf w.toNat * 2 ^ 61), words := [w], pack := [0] }

/-- The state in which the placed word's port is to issue. -/
def fetched (s : State) (w : W64) : State := { s.withFetchWord 64 w.toNat with agenda := s.agenda }

section Fetched
variable (s : State) (w : W64)

theorem fetched_ports : (fetched s w).ports
    = tset 0 (fetchPort w) (((List.range 32).map fun k => (k, { s.port k with stall := true, old := [] })) ++ s.ports.filter fun q => decide (32 ≤ q.1)) := by
  have hw : w.toNat % 2 ^ 64 = w.toNat := Nat.mod_eq_of_lt w.isLt
  simp only [fetched, State.withFetchWord, fetchPort, hw, BitVec.ofNat_toNat, BitVec.setWidth_eq]

theorem fetched_port : tget 0 (fetched s w).ports = some (fetchPort w) := by rw [fetched_ports]; exact tget_tset_self ..

/-- The other ports of core 0 hold in this cycle. -/
theorem fetched_held {k : Nat} (h : k < 32) (h0 : k ≠ 0) :
    tget k (fetched s w).ports = some { s.port k with stall := true, old := [] } := by
  rw [fetched_ports, tget_tset_ne _ _ _ _ h0]
  rw [List.range_eq_range']
  exact tget_append (tget_range' (fun j => ({ s.port j with stall := true, old := [] } : Port)) (Nat.zero_le k) (by omega))

theorem fetched_mem {p : Nat × Port} (h : p ∈ (fetched s w).ports) : p.1 = 0 ∨ p.2.old = [] ∨ 32 ≤ p.1 := by
  rw [fetched_ports] at h
  rcases mem_tset h with rfl | h
  · exact .inl rfl
  rcases List.mem_append.1 h with h | h
  · obtain ⟨k, -, rfl⟩ := List.mem_map.1 h
    exact .inr (.inl rfl)
  · exact .inr (.inr (by simpa using (List.mem_filter.1 h).2))

theorem fetched_clocked : clocked (fetched s w) 0 = true := by
  have hc : (fetched s w).core 0 = { s.core 0 with halted := false, gatedAt := none } := tgetD_tset_self ..
  have he : (fetched s w).enabled 0 = true := by
    have h0 : (fetched s w).host.fenced = s.host.fenced.filter fun k => k != 0 := rfl
    simp [State.enabled, h0, clusterOf]
  have hh : (fetched s w).host.ready = true ∧ (fetched s w).host.fault = false ∧ (fetched s w).host.pstate = 0 := ⟨rfl, rfl, rfl⟩
  simp [clocked, hc, he, hh]

theorem fetched_portLive : portLive (fetched s w) 0 = true := by
  unfold portLive
  rw [fetched_port]
  have hc : clocked (fetched s w) (portCore 0) = true := fetched_clocked s w
  simp [hc, fetchPort]

theorem fetched_alusFree : alusFree (fetched s w) 0 = true := by
  have hl : ∀ l, l < 2 → tgetD l 0 (fetched s w).lent = 0 := by
    intro l hl
    have : tget l (fetched s w).lent = none := tget_filter_none fun a => decide_eq_false (by omega)
    simp [tgetD, this]
  simp [alusFree, hl 0 (by decide), hl (nextLane 0) (by decide)]

theorem fetched_holdsTurn : holdsTurn (fetched s w) 0 = true := by
  have ht : tgetD 0 0 (fetched s w).turns = 0 := tgetD_tset_self ..
  simp [holdsTurn, fetched_alusFree, ht]

/-- No end-commit word is under way on another port of the core. -/
theorem fetched_owed (q : Queue) : owed (fetched s w) 0 0 q = 0 := by
  unfold owed
  refine List.sum_eq_zero fun x hx => ?_
  obtain ⟨p, hp, rfl⟩ := List.mem_map.1 hx
  refine if_neg ?_
  rintro ⟨hc, h0, ho, -⟩
  rcases fetched_mem s w hp with h | h | h
  · exact h0 h
  · simp [h] at ho
  · omega

theorem fetched_reserved : reserved (fetched s w) 0 = false := by
  have ho : ∀ q, owed (fetched s w) (portCore 0) 0 q = 0 := fetched_owed s w
  simp [reserved, ho]

/-- No vote of core 0 fills a port: every port of it is taken. -/
theorem fetched_vote {l : Nat} (h : l < 16) (b : Bool) : vote (fetched s w) l b = fetched s w := by
  have hv : voteLane (fetched s w) l < 16 := by unfold voteLane; split <;> omega
  have hk : ∀ k, k < 32 → (tget k (fetched s w).ports).isSome = true := by
    intro k hk
    by_cases h0 : k = 0
    · rw [h0, fetched_port]; rfl
    · rw [fetched_held s w hk h0]; rfl
  have := hk (voteLane (fetched s w) l * 2 + if b = true then 1 else 0) (by split <;> omega)
  unfold vote
  simp [this]

theorem fetched_voteMoves {l : Nat} (h : l < 16) (b : Bool) : voteMoves (fetched s w) l b = false := by
  simp [voteMoves, fetched_vote s w h]

/-- What comes before an update of port 0 is a push of another port of core 0, before a pop (R104, R107, R318). -/
theorem goesFirst_core {a b : Shared} {j : Nat} (h : goesFirst a b j 0 = true) : portCore j = portCore 0 := by
  unfold goesFirst at h
  split at h
  · simp at h
  · simp at h
  · simp at h
  · simp at h
  · simpa using h
  · cases h

/-- Such a port holds in this cycle. -/
theorem fetched_first {p : Nat × Port} (h0 : p.1 ≠ 0) {a b : Shared} (hg : goesFirst a b p.1 0 = true) :
    mayYet (fetched s w) p.1 0 = false := by
  have hc := goesFirst_core hg
  have hlt : p.1 < 32 := by unfold portCore at hc; omega
  have hs : ((fetched s w).port p.1).stall = true := by simp [State.port, tgetD, fetched_held s w hlt h0]
  simp [mayYet, portFree, hs]

theorem fetched_settledFor (b : Shared) : settledFor (fetched s w) 0 b = true := by
  unfold settledFor
  rw [Bool.and_eq_true, Bool.not_eq_true', Bool.not_eq_true']
  constructor
  · rw [List.any_eq_false]
    intro p _ h
    simp only [Bool.and_eq_true, bne_iff_ne, List.any_eq_true] at h
    obtain ⟨⟨h0, a, -, hg⟩, hm⟩ := h
    rw [fetched_first s w h0 hg] at hm
    cases hm
  · rw [List.any_eq_false]
    intro l _ h
    simp only [Bool.and_eq_true, Bool.or_eq_true, beq_iff_eq, decide_eq_true_eq, Nat.not_lt_zero, or_false] at h
    obtain ⟨⟨hl, rfl⟩, hv⟩ := h
    have hl : l < 16 := by simpa [portCore] using hl
    simp [fetched_voteMoves s w hl] at hv

theorem fetched_mayIssue : mayIssue (fetched s w) 0 = true := by
  simp [mayIssue, fetched_portLive, fetched_holdsTurn, fetched_reserved, fetched_settledFor]

theorem fetched_cur : (fetched s w).port 0 = fetchPort w := by simp [State.port, tgetD, fetched_port]

theorem step_withFetchWord {i : Instr} (h : decode w = some i) :
    step (s.withFetchWord 64 w.toNat) = settled (exec i (issuing (fetched s w) 0)) := by
  rw [step_agenda (s := s.withFetchWord 64 w.toNat) rfl rfl]
  have ha : act (fetched s w) (.issue 0) = exec i (issuing (fetched s w) 0) :=
    act_word (fetched_mayIssue s w) (by rw [fetched_cur]; rfl) (by rw [fetched_cur]; exact h)
  exact congrArg settled ha

end Fetched

/-- Settles O53: the step's choice is carried out (`act_word`, `act_undefined`, `act_held`, `act_event`), and a placed word's port may issue
(`fetched_mayIssue`). -/
theorem stepRunsTheDecodedWord : Obligations.StepRunsTheDecodedWord := by
  refine ⟨fun s k cs ha hd => ⟨fun hm ht => ⟨fun i h => ⟨decode_wellFormed h, ?word⟩, fun h => ?undefined⟩, fun hm => ?held⟩,
    fun s i cs ha hd he => ?event, fun s w i h => ?placed⟩
  case word => rw [step_agenda ha hd]; exact congrArg settled (act_word hm ht h)
  case undefined => rw [step_agenda ha hd]; exact congrArg settled (act_undefined hm ht h)
  case held => rw [step_agenda ha hd, act_held hm]; rfl
  case event => rw [step_agenda ha hd, act_event he]
  case placed =>
    have hc : (issuing (fetched s w) 0).cur = fetchPort w := fetched_cur s w
    refine ⟨issuing (fetched s w) 0, step_withFetchWord s w h, rfl, ?_, ?_, ?_, ?_, ?_, rfl, rfl, fun t ht => tgetD_tset_ne _ _ _ _ _ ht⟩
    · rw [hc]; rfl
    · rw [hc]; rfl
    · rw [hc]; rfl
    · simp [State.live, issuing, fetched, State.withFetchWord]
    · simp [State.thr, issuing, fetched, State.withFetchWord]

end Sys2Proof.Machine

namespace Sys2Proof.Laws

/-- Settles O54: the written words are the encodings of legal instructions, which decode (`decode_encode`); the last three parse to nothing. -/
theorem writtenWordsDecode : Obligations.WrittenWordsDecode := by
  refine ⟨decode_encode rfl rfl, decode_encode rfl rfl, decode_encode rfl rfl, decode_encode rfl rfl, decode_encode rfl rfl,
    decode_encode rfl rfl, decode_encode rfl rfl, decode_encode rfl rfl, decode_encode rfl rfl, decode_encode rfl rfl, ?_, ?_, ?_⟩
  · decide
  · decide
  · decide

end Sys2Proof.Laws
end

section
/-! Clause headers: the trap of a reserved one, and what YLD leaves at the end of a clause (R30, R35, R97). -/

namespace Sys2Proof.Machine

/-! ### A reserved header (R30) -/

/-- The trap of a reserved header (R30, R246). -/
def undefHeader (addr hdr : W64) : TrapRec := { pc := addr, hdr := addr, inst := hdr, cause := tILL, detail := dUNDEF }

theorem headerTrap_reserved (s : State) (pack : List Tid) (addr : W64) {h : W64}
    (hb : 6 ≤ bitsOf h.toNat 63 61 ∨ 5 ≤ bitsOf h.toNat 35 33 ∨ bitsOf h.toNat 32 0 ≠ 0) :
    headerTrap s pack addr h false = some (undefHeader addr h) := by
  unfold headerTrap
  refine if_pos ?_
  simpa [or_assoc] using hb

/-- A header that traps is taken onto the port with no word. -/
theorem fillPort_trapped {s u : State} {pack : List Tid} {a h : W64} {r : TrapRec} (k w : Nat) {back : Bool}
    (hp : ∀ t ∈ pack, (s.thr t).hold.noPage = false) (hf : fetchWord s (coreOf (pack.headD 0)) (anyUser s pack) a = (u, .word h))
    (ht : headerTrap u pack a h back = some r) :
    fillPort s k pack a w back = u.setPort k { hdrAddr := a, hdr := r.inst, pack := pack, trap := some r, filled := u.now } := by
  have hn : ¬ (pack.any fun t => (s.thr t).hold.noPage && !(s.thr t).hold.rte) = true := by
    rw [List.any_eq_true]
    rintro ⟨t, hm, h⟩
    simp [hp t hm] at h
  unfold fillPort
  simp only [if_neg hn, hf, ht]

/-! ### Changes of one thread after another -/

theorem tset_comm {α : Type} {k j : Nat} (h : k ≠ j) (a b : α) (l : Tbl α) : tset k a (tset j b l) = tset j b (tset k a l) := by
  wlog hlt : k < j generalizing k j a b
  · exact (this h.symm b a (by omega)).symm
  induction l with
  | nil => simp [tset, hlt, hlt.not_gt, h]
  | cons p l ih =>
    obtain ⟨i, c⟩ := p
    have hj : ¬ j < k := hlt.not_gt
    rcases Nat.lt_trichotomy k i with hk | rfl | hk
    · rcases Nat.lt_trichotomy j i with h' | rfl | h'
      · simp [tset, hk, h', hlt, hj, h]
      · simp [tset, hk, hj, h]
      · simp [tset, hk, hj, h, h'.not_gt, h'.ne]
    · simp [tset, hj, h]
    · have hji : i < j := hk.trans hlt
      simp [tset, hk.not_gt, hk.ne, hji.not_gt, hji.ne, ih]

theorem modThr_comm (s : State) {t u : Tid} (h : t ≠ u) (f g : Thread → Thread) :
    (s.modThr t f).modThr u g = (s.modThr u g).modThr t f := by
  cases ht : s.live t with
  | false => rw [State.modThr_dead s f ht, State.modThr_dead (s.modThr u g) f (by simpa using ht)]
  | true =>
    cases hu : s.live u with
    | false => rw [State.modThr_dead s g hu, State.modThr_dead (s.modThr t f) g (by simpa using hu)]
    | true =>
      rw [State.modThr_live (s.modThr t f) g (by simpa using hu), State.modThr_live (s.modThr u g) f (by simpa using ht),
        State.thr_modThr_ne s f h.symm, State.thr_modThr_ne s g h, State.modThr_live s f ht, State.modThr_live s g hu]
      simp only [State.setThr, tset_comm h]

/-! ### The end of a clause with YLD (R35, R97) -/

theorem endClause_endClause (b : Bool) (x : Thread) : endClause true (endClause b x) = endClause true x := by
  unfold endClause
  cases b <;> cases h : x.yields <;> simp [h]

/-- What a clause's end leaves with YLD is not changed by an end without. -/
theorem endClause_yielded (x : Thread) : endClause false (endClause true x) = endClause true x := by simp [endClause]

theorem endClauses_cons (s : State) (b : Bool) (t : Tid) (ts : List Tid) :
    endClauses s b (t :: ts) = endClauses (s.modThr t (endClause b)) b ts := rfl

theorem endClauses_modCur (s : State) (b : Bool) (ts : List Tid) (f : Port → Port) :
    endClauses (s.modCur f) b ts = (endClauses s b ts).modCur f := by
  induction ts generalizing s with
  | nil => rfl
  | cons t ts ih => rw [endClauses_cons, endClauses_cons, ← State.modThr_modCur, ih]

/-- A thread's end with YLD and the ends of others without come to the same in either order. -/
theorem endClauses_modThr (s : State) (t : Tid) (ts : List Tid) :
    (endClauses s false ts).modThr t (endClause true) = endClauses (s.modThr t (endClause true)) false ts := by
  induction ts generalizing s with
  | nil => rfl
  | cons u ts ih =>
    rw [endClauses_cons, endClauses_cons, ih]
    by_cases h : t = u
    · subst h
      simp only [State.modThr_modThr, endClause_endClause, endClause_yielded]
    · rw [modThr_comm s h]

/-- The end of a clause with YLD after one without is the end with YLD. -/
theorem endClauses_endClauses (s : State) (ts : List Tid) : endClauses (endClauses s false ts) true ts = endClauses s true ts := by
  induction ts generalizing s with
  | nil => rfl
  | cons t ts ih =>
    rw [endClauses_cons s false, endClauses_cons _ true, endClauses_modThr, ih, State.modThr_modThr, endClauses_cons s true]
    simp only [endClause_endClause]

/-! ### Words under a header with YLD and without (R35) -/

/-- The header of a port changed. -/
def withHdr (g : W64 → W64) (p : Port) : Port := { p with hdr := g p.hdr }

/-- The threads of a pack that are not among d pass over the word at the port. -/
def passOver (s : State) (d ts : List Tid) : State := ts.foldl (fun u t => if d.contains t then u else finish u t none) s

theorem endWord_eq (s : State) (cost : Nat) (h : atLast s.cur = true) : endWord s cost
    = (endClauses (passOver s s.cur.done s.cur.pack) (s.cur.hdr.getLsbD 36) s.cur.pack).modCur (nextWord cost) := by
  unfold endWord
  simp only [h, if_true]
  rfl

theorem finish_withHdr {s : State} {k : Nat} (hi : s.iss = some k) (g : W64 → W64) (t : Tid) :
    finish (s.modCur (withHdr g)) t none = (finish s t none).modCur (withHdr g) := by
  unfold finish
  rw [State.cur_modCur s _ hi, State.modThr_modCur]
  rfl

theorem passOver_withHdr {s : State} {k : Nat} (hi : s.iss = some k) (g : W64 → W64) (d ts : List Tid) :
    passOver (s.modCur (withHdr g)) d ts = (passOver s d ts).modCur (withHdr g) := by
  unfold passOver
  induction ts generalizing s with
  | nil => rfl
  | cons t ts ih =>
    simp only [List.foldl_cons]
    split
    · exact ih hi
    · rw [finish_withHdr hi]
      exact ih (by simpa [finish] using hi)

/-- The end of a clause's last word, under a header changed by g. -/
theorem endWord_withHdr {s : State} {k : Nat} (hi : s.iss = some k) (hl : atLast s.cur = true) (g : W64 → W64) (cost : Nat) :
    endWord (s.modCur (withHdr g)) cost
      = ((endClauses (passOver s s.cur.done s.cur.pack) ((g s.cur.hdr).getLsbD 36) s.cur.pack).modCur (withHdr g)).modCur (nextWord cost) := by
  have hc : (s.modCur (withHdr g)).cur = withHdr g s.cur := State.cur_modCur s _ hi
  rw [endWord_eq _ _ (by rw [hc]; exact hl), hc]
  change (endClauses (passOver _ s.cur.done s.cur.pack) ((g s.cur.hdr).getLsbD 36) s.cur.pack).modCur _ = _
  rw [passOver_withHdr hi, endClauses_modCur]

theorem solo_withHdr {s : State} {T : Tid} {x : Pfx} (h : Solo s T x) (g : W64 → W64) : Solo (s.modCur (withHdr g)) T x := by
  obtain ⟨k, hk⟩ := Option.isSome_iff_exists.1 h.port
  have hc : (s.modCur (withHdr g)).cur = withHdr g s.cur := State.cur_modCur s _ hk
  refine ⟨?_, ?_, ?_, ?_, ?_, ?_, ?_⟩
  · simpa using h.port
  · rw [hc]; exact h.pack
  · rw [hc]; exact h.first
  · rw [hc]; exact h.fresh
  · simpa using h.live
  · simpa using h.act
  · rw [hc]; exact h.calm

/-- The threads that a word without operands leaves, run by one thread under a header changed by g: its effect f on the thread, then the
passing on. -/
theorem plain_threads {s : State} {T : Tid} {x : Pfx} (h : Solo s T x) (g : W64 → W64) {e : State → List Tid → State} {f : Thread → Thread}
    (hf : ∀ v F, (e v [T]).modThr T F = v.modThr T fun y => F (f y)) (hcur : ∀ v, (e v [T]).cur = v.cur) (hiss : ∀ v, (e v [T]).iss = v.iss) :
    (runWord {} x false 1 (plainOp e) (s.modCur (withHdr g))).threads = (s.modThr T fun y => passed (withHdr g s.cur) none (f y)).threads := by
  obtain ⟨k, hk⟩ := Option.isSome_iff_exists.1 h.port
  have hs := solo_withHdr h g
  have ho : (e (opened (s.modCur (withHdr g)) T) [T]).cur = begin_ [T] (withHdr g s.cur) := by
    rw [hcur, opened_cur hs.port, State.cur_modCur s _ hk]
  rw [word_solo false 1 hs rfl rfl]
  change (ended (e (opened (s.modCur (withHdr g)) T) [T]) T none (max 1 1)).threads = _
  rw [ended_eq (k := k) (by rw [hiss]; simpa using hk) (by rw [ho]; exact h.pack) (by rw [ho]; exact h.fresh), hf, ho]
  simp only [opened, ← State.modThr_modCur, State.modCur_threads]
  rfl

/-- With YLD a thread is left by a word as without it by a word that has yielded. -/
theorem passed_yielded {p : Port} (hl : atLast p = true) {g h : W64 → W64} (hg : (g p.hdr).getLsbD 36 = true) (hh : (h p.hdr).getLsbD 36 = false)
    (y : Thread) : passed (withHdr g p) none y = passed (withHdr h p) none { y with yields := true } := by
  have hl' : ∀ g, atLast (withHdr g p) = true := fun _ => hl
  simp only [passed, hl', if_true]
  simp only [withHdr, hg, hh, endClause, Bool.true_or, Bool.false_or, if_true]
  rfl

theorem yld_set (h : W64) : (h ||| 0x1000000000).getLsbD 36 = true := by simp
theorem yld_clear (h : W64) : (h &&& ~~~0x1000000000).getLsbD 36 = false := by simp

/-- Settles O52: a reserved header traps in `headerTrap`, before its words are fetched; YLD ends the clause as an end without it and one more
with it (`endClauses_endClauses`), and one thread's NOP under it as a YIELD (`passed_yielded`). -/
theorem clauseHeaderRules : Obligations.ClauseHeaderRules := by
  refine ⟨fun s u k pack a h w back hp hf hr hb => ?reserved, fun s k cs r ha hd hm ht => ?trap, fun s k cost hi hl => ⟨?yld, fun T f h => ?nop⟩⟩
  case reserved =>
    subst hr
    exact ⟨undefHeader a h, fillPort_trapped k w hp hf (headerTrap_reserved u pack a hb), rfl, rfl, rfl, rfl⟩
  case trap => rw [step_agenda ha hd]; exact congrArg settled (act_trap hm ht)
  case yld =>
    change (endWord (s.modCur (withHdr (· ||| 0x1000000000))) cost).threads
      = (endClauses (endWord (s.modCur (withHdr (· &&& ~~~0x1000000000))) cost) true s.cur.pack).threads
    rw [endWord_withHdr hi hl, endWord_withHdr hi hl, yld_set, yld_clear]
    simp only [endClauses_modCur, endClauses_endClauses, State.modCur_threads]
  case nop =>
    have hn := plain_threads h (· ||| 0x1000000000) (e := fun v _ => v) (f := id) (fun _ _ => rfl) (fun _ => rfl) fun _ => rfl
    have hy := plain_threads h (· &&& ~~~0x1000000000) (e := yieldAll) (f := fun y => { y with yields := true })
      (fun v F => State.modThr_modThr ..) (fun v => State.cur_modThr ..) fun v => State.modThr_iss ..
    have hp := funext (passed_yielded (p := s.cur) hl (g := (· ||| 0x1000000000)) (h := (· &&& ~~~0x1000000000)) (yld_set _) (yld_clear _))
    refine ⟨_, _, rfl, rfl, hn.trans (Eq.trans ?_ hy.symm)⟩
    exact congrArg (fun F => (s.modThr T F).threads) hp

end Sys2Proof.Machine
end

section
/-! What the words of class 5 leave, run by one thread: TRAP, BRK, SYSC, SYSR, SYSW, HALT and RTE (R57, R243, R244, R251 to R254). -/

namespace Sys2Proof.Machine

/-! ### A code fetch leaves threads and ports (R189) -/

/-- u has the threads, the ports and the issuing port of s. -/
structure SameIssue (s u : State) : Prop where
  threads : u.threads = s.threads
  ports : u.ports = s.ports
  iss : u.iss = s.iss

theorem lookup_sameIssue (s : State) (c : Nat) (sp : Space) (va : W64) : SameIssue s (lookup s c sp va).1 := by
  unfold lookup
  dsimp only
  split
  · exact ⟨rfl, rfl, rfl⟩
  split
  · exact ⟨rfl, rfl, rfl⟩
  split
  · exact ⟨rfl, rfl, rfl⟩
  split <;> exact ⟨rfl, rfl, rfl⟩

theorem fetchWord_sameIssue (s : State) (c : Nat) (user : Bool) (va : W64) : SameIssue s (fetchWord s c user va).1 := by
  have h := lookup_sameIssue s c (spaceOf (s.core c).ptbr) va
  unfold fetchWord
  dsimp only
  split
  · exact h
  · exact h
  split
  · exact h
  split
  · exact h
  · exact ⟨h.threads, h.ports, h.iss⟩

theorem heads_sameIssue (c : Nat) (user : Bool) (ts : List Tid) (s : State) : SameIssue s (heads c user ts s).1 := by
  induction ts generalizing s with
  | nil => exact ⟨rfl, rfl, rfl⟩
  | cons t ts ih =>
    unfold heads
    split
    · exact ih s
    · rename_i h _
      have hf := fetchWord_sameIssue s c user (BitVec.ofNat 64 h)
      dsimp only
      split
      · exact hf
      · exact hf
      · have hr := ih (fetchWord s c user (BitVec.ofNat 64 h)).1
        exact ⟨hr.threads.trans hf.threads, hr.ports.trans hf.ports, hr.iss.trans hf.iss⟩

theorem SameIssue.cur {s u : State} (h : SameIssue s u) : u.cur = s.cur := cur_iss s u h.iss h.ports
theorem SameIssue.thr {s u : State} (h : SameIssue s u) (t : Tid) : u.thr t = s.thr t := by simp only [State.thr, h.threads]
theorem SameIssue.live {s u : State} (h : SameIssue s u) (t : Tid) : u.live t = s.live t := by simp only [State.live, h.threads]

/-- A word stands before a thread alone as before where only caches differ. -/
theorem Solo.of_sameIssue {s u : State} {T : Tid} {x : Pfx} (hs : Solo s T x) (h : SameIssue s u) : Solo u T x where
  port := by rw [h.iss]; exact hs.port
  pack := by rw [h.cur]; exact hs.pack
  first := by rw [h.cur]; exact hs.first
  fresh := by rw [h.cur]; exact hs.fresh
  live := by rw [h.live]; exact hs.live
  act := by rw [h.thr]; exact hs.act
  calm := by rw [h.cur]; exact hs.calm

/-! ### The checks of class 5 (R31, R243) -/

theorem admitted_inClass {s : State} {n : Nat} (h : inClass s n) : admitted s.cur.hdr (some n) = true := by
  simpa [admitted, inClass] using h

theorem anyUser_solo (s : State) (T : Tid) : anyUser s [T] = !(s.thr T).priv := by simp [anyUser]

/-- A word of class 5 with the privilege that it asks for passes its checks. -/
theorem sup_pass {s : State} {T : Tid} {x : Pfx} {b : Bool} (h : Solo s T x) (hc : inClass s 5) (hp : b = true → (s.thr T).priv = true) :
    gateTrap s ({ cls := some 5, sup := b } : Gate) x [T] = none :=
  gate_pass (admitted_inClass hc) nofun (fun hb => by rw [h.pack, anyUser_solo, hp hb]; rfl) rfl rfl rfl

/-! ### TRAP, BRK and SYSC (R251) -/

theorem trapWord_solo {s : State} {T : Tid} {x : Pfx} (h : Solo s T x) (hc : inClass s 5) (cause code : Nat) (byTrap : Bool) :
    trapWord x cause code byTrap s = takeTrap s { trapAt s x cause 0 with code := code, byTrap := byTrap } := by
  have ha : actors s x s.cur.pack = [T] := actors_solo h
  have hg : gateTrap s ({ cls := some 5, brk := some (cause, code, byTrap) } : Gate) x [T]
      = some { trapAt s x cause 0 with code := code, byTrap := byTrap } := by
    simp [gateTrap, admitted_inClass hc]
  unfold trapWord runWord
  simp only [h.first, ha, hg, Bool.false_eq_true, if_false]

/-! ### SYSR and SYSW (R253) -/

theorem query_solo {s : State} {T : Tid} {x : Pfx} {b : Bool} (h : Solo s T x) (hc : inClass s 5) (hp : b = true → (s.thr T).priv = true)
    {d : Opd} (hd : idle s T d.start.toNat d.slices) (q : State → Tid → Nat) :
    runWord { cls := some 5, sup := b } x false 1 (queryOp d q) s
      = ended (wrote (opened s T) T d.start.toNat d.slices (.ok (q (opened s T) T % 2 ^ d.bits))) T none 1 := by
  rw [word_gate (o := queryOp d q) false 1 h rfl (sup_pass h hc hp) rfl rfl (by simpa [queryOp, idle] using hd)]
  unfold WordOp.left
  simp only [queryOp, putAll_solo, Nat.max_self]

/-- The port's acting threads are no part of a system register's value. -/
theorem sysRead_opened (s : State) (T : Tid) (r : Nat) : sysRead (opened s T) T r = sysRead s T r := by
  obtain ⟨ps, h⟩ : ∃ ps, opened s T = { s with ports := ps } := by
    unfold opened State.modCur
    split
    · exact ⟨_, rfl⟩
    · exact ⟨s.ports, rfl⟩
  rw [h]
  rfl

theorem sysw_solo {s : State} {T : Tid} {f : IForm} (h : Solo s T f.x) (hc : inClass s 5)
    (hp : sysWriteSup f.imm.toNat = true → (s.thr T).priv = true) (hu : unheld s T [iA f]) :
    let a := (iA f).read (opened s T) [T] T
    exec (.sysw f) s = .next (ended (match a.2 with
      | .bad k => recordDrop (noReplay a.1 [T]) T k
      | .ok v => sysWrite (noReplay a.1 [T]) T f.imm.toNat v) T none (1 + crossCost [iA f])) := by
  refine congrArg Host.Outcome.next ?_
  have hm : max 1 (1 + crossCost [iA f]) = 1 + crossCost [iA f] := by omega
  rw [word_gate (o := syswOp f.imm.toNat (iA f)) _ _ h rfl (sup_pass h hc hp) rfl (src_busy hu) rfl, hm]
  unfold WordOp.left
  simp only [syswOp]
  cases ((iA f).read (opened s T) [T] T).2 <;> rfl

/-! ### HALT (R254) -/

theorem halt_solo {s : State} {T : Tid} {f : RForm} (h : Solo s T f.x) (hc : inClass s 5) (hp : (s.thr T).priv = true)
    (ho : ∀ p ∈ s.threads, coreOf p.1 = coreOf T → p.2.outst = []) :
    exec (.halt f) s = .next (ended ((gateCore (opened s T) (coreOf T) true).modCur fun p => { p with widx := p.words.length - 1 }) T none 1) := by
  refine congrArg Host.Outcome.next ?_
  have hr : haltOp.rdBusy (opened s T) [T] T = false := by
    simp only [haltOp, opened_threads, List.any_eq_false, Bool.and_eq_true, beq_iff_eq, Bool.not_eq_true', List.isEmpty_eq_false_iff, not_and, not_not]
    exact ho
  rw [word_gate (o := haltOp) false 1 h rfl (sup_pass h hc fun _ => hp) rfl hr rfl]
  rfl

/-! ### RTE (R252) -/

theorem rteGate_pass {s : State} {T : Tid} {x : Pfx} (hc : inClass s 5) (hl : atLast s.cur = true) (hd : 0 < (s.thr T).hdepth) :
    gateTrap s rteGate x [T] = none :=
  gate_pass (admitted_inClass hc) (fun _ => hl) nofun (by simp [rteGate]; omega) rfl rfl

theorem rte_solo {s u : State} {T : Tid} {f : RForm} {cs : List (Tid × Nat)} (h : Solo s T f.x) (hc : inClass s 5) (hl : atLast s.cur = true)
    (hd : 0 < (s.thr T).hdepth) (hp : (s.thr T).pending 96 32 = false) (hn : (s.thr T).hold.noPage = false)
    (hh : heads (coreOf T) (!(s.thr T).priv) [T] s = (u, .ok cs)) :
    let z := rteThread (opened u T) T (((cs.find? fun p => p.1 == T).map Prod.snd).getD 0)
    exec (.rte f) s = .next (ended z T (some ⟨(z.thr T).pc, (z.thr T).hdr⟩) 1) := by
  refine congrArg Host.Outcome.next ?_
  have hu : SameIssue s u := by simpa only [hh] using heads_sameIssue (coreOf T) (!(s.thr T).priv) [T] s
  have hgu : gateTrap u rteGate f.x [T] = none :=
    rteGate_pass (by unfold inClass; rw [hu.cur]; exact hc) (by rw [hu.cur]; exact hl) (by rw [hu.thr]; exact hd)
  have hw : (rteOp cs).wrBusy (opened u T) T = false := by simpa [rteOp, hu.thr] using hp
  have ha : [T].filter (fun t => actsOn f.x (s.thr t)) = [T] := by simp [h.act]
  unfold rteWord
  simp only [h.pack, ha, rteGate_pass hc hl hd, List.any_cons, List.any_nil, Bool.or_false, hn, hp, Bool.false_and, Bool.false_eq_true, if_false,
    List.headD_cons, anyUser_solo, hh, List.length_singleton, le_refl, if_true]
  rw [word_gate (o := rteOp cs) true 1 (h.of_sameIssue hu) rfl hgu rfl rfl hw]
  rfl

/-- Settles O41: each word's own lemma for one thread that its checks let pass. -/
theorem systemWordResults : Obligations.SystemWordResults := by
  refine ⟨fun s low => rfl, fun s T hc => ⟨fun f h => ⟨?trap, ?brk, ?sysc, ?sysr, ?sysw⟩, fun f h => ⟨?halt, ?rte⟩⟩⟩
  case trap =>
    have hcode : bitsOf f.imm.toNat 18 3 = f.imm.toNat / 8 % 2 ^ 16 := by simp [bitsOf, Nat.shiftRight_eq_div_pow]
    have ht := trapWord_solo h hc (f.imm.toNat % 8) (f.imm.toNat / 8 % 2 ^ 16) true
    rw [← hcode] at ht ⊢
    exact congrArg Host.Outcome.next ht
  case brk => exact congrArg Host.Outcome.next (trapWord_solo h hc ..)
  case sysc => exact congrArg Host.Outcome.next (trapWord_solo h hc ..)
  case sysr =>
    intro hp hd
    have := query_solo h hc hp hd fun s t => sysRead s t f.imm.toNat
    rw [sysRead_opened] at this
    exact congrArg Host.Outcome.next this
  case sysw => exact fun hp hu => sysw_solo h hc hp hu
  case halt => exact fun hp ho => halt_solo h hc hp ho
  case rte => exact fun hl hd hp hn u cs hh => rte_solo h hc hl hd hp hn hh

end Sys2Proof.Machine
end

section
/-! What a thread leaves behind its word, and what the scheduling, item, team and spawn words of one thread leave (R91, R95, R97, R101 to R107,
R146, R152 to R156). -/

namespace Sys2Proof.Machine

/-! ### The end of a word (R95) -/

/-- The end of a clause for one thread, field by field (R35, R97). -/
theorem endClause_eq (b : Bool) (x : Thread) :
    endClause b x = { x with demote := if b ∨ x.yields then 16 else x.demote, yields := false } := by
  unfold endClause
  cases hy : x.yields <;> cases b
  · cases x
    cases hy
    rfl
  all_goals simp

/-- A thread behind the word of port p, field by field; a chain carry held for that word is dropped (R126). -/
theorem passOn_eq (p : Port) (g : Option Tgt) (x : Thread) :
    passOn p g x = { x with
      pc := (g.getD p.next).pc, hdr := (g.getD p.next).hdr
      carryA := if x.carryAt = p.addr then none else x.carryA
      carryB := if x.carryAt = p.addr then none else x.carryB } := by
  unfold passOn
  by_cases h : x.carryAt = p.addr <;> simp [h]

/-- A thread that has passed the word of port p: at the clause's last word the end of the clause is in it. -/
theorem passed_eq (p : Port) (g : Option Tgt) (x : Thread) :
    passed p g x = { passOn p g x with
      demote := if p.widx + 1 = p.words.length ∧ (p.hdr.getLsbD 36 ∨ x.yields) then 16 else x.demote
      yields := if p.widx + 1 = p.words.length then false else x.yields } := by
  by_cases hl : p.widx + 1 = p.words.length
  · have ha : atLast p = true := by simp [atLast, hl]
    simp only [passed, ha, if_true, endClause_eq, hl, true_and]
    rfl
  · have ha : atLast p = false := by simp [atLast, hl]
    simp only [passed, ha, Bool.false_eq_true, if_false, hl, false_and]
    rfl

/-- Settles O12: the end of a word passes its one thread on and moves the port (`ended_eq`); `passed_eq` and `passOn_eq` give the thread. -/
theorem endOfWord : Obligations.EndOfWord := by
  intro s T g cost hi hp hd
  obtain ⟨k, hk⟩ := Option.isSome_iff_exists.1 hi
  rw [ended_eq hk hp hd]
  refine congrArg (fun F => (s.modThr T F).modCur (nextWord cost)) (funext fun x => ?_)
  rw [passed_eq, passOn_eq]
  rfl

/-! ### YIELD, NOP, STOP, SLEEP and WAIT (R97, R152 to R154, R156) -/

/-- A word without operands that no check guards, for one thread: its effect, then its end. -/
theorem plain_solo {s : State} {T : Tid} {x : Pfx} (h : Solo s T x) (g : State → List Tid → State) :
    runWord {} x false 1 (plainOp g) s = ended (g (opened s T) [T]) T none 1 := word_solo false 1 h rfl rfl

/-- STOP's checks: it ends its clause, and no acting thread stands in a leg (R32, R153). -/
theorem stop_pass {s : State} {T : Tid} {x : Pfx} (hl : atLast s.cur = true) (hg : (s.thr T).leg = none) :
    gateTrap s ({ last := true, bad := fun s acts _ => acts.any fun t => (s.thr t).leg.isSome } : Gate) x [T] = none :=
  gate_pass rfl (fun _ => hl) nofun (by simp [hg]) rfl rfl

/-- Settles O14: each word is one without operands (`plain_solo`), STOP behind its checks (`stop_pass`) and WAIT where its counter lets it go on. -/
theorem schedulingResults : Obligations.SchedulingResults := by
  refine fun s T => ⟨fun f h => ⟨?yield, ?nop, fun hl hg => ?stop⟩, fun g h => ⟨?sleep, fun cls hc => ?wait⟩⟩ <;> refine congrArg Host.Outcome.next ?_
  case yield => exact plain_solo h yieldAll
  case nop => exact plain_solo h fun s _ => s
  case stop => exact word_gate (o := plainOp beginStop) false 1 h rfl (stop_pass hl hg) rfl rfl rfl
  case sleep =>
    rw [plain_solo h, ← opened_now s T]
    rfl
  case wait => exact word_solo (o := waitOp (clsOf cls) g.imm.toNat) false 1 h rfl (by simpa [waitOp] using hc)

/-! ### ITEM and ITEMPUSH (R106, R107) -/

/-- A control transfer's only check is that it ends its clause (R32). -/
theorem last_pass {s : State} {T : Tid} {x : Pfx} (hl : atLast s.cur = true) : gateTrap s ({ last := true } : Gate) x [T] = none :=
  gate_pass rfl (fun _ => hl) nofun rfl rfl rfl

/-- Settles O18: ITEMPUSH reads, appends and ends a leg's replayability; ITEM takes the oldest item into D, or goes to its target. -/
theorem itemResults : Obligations.ItemResults := by
  refine fun s T => ⟨fun f h hu hroom => ?push, fun f h hl hd => ?item⟩ <;> refine congrArg Host.Outcome.next ?_
  case push =>
    have hr : (itempushOp f).rdBusy (opened s T) [T] T = false := by
      simp only [itempushOp, src_busy hu, opened_core, Bool.false_or, decide_eq_false_iff_not]
      omega
    exact word_solo (o := itempushOp f) _ _ h hr rfl
  case item =>
    rw [word_gate (o := itemOp f) false 1 h rfl (last_pass hl) rfl rfl (by simpa [itemOp, idle] using hd)]
    unfold WordOp.left
    simp only [itemOp, opened_core]
    cases (s.core (coreOf T)).items with
    | nil => simp [brTgt, opened_cur h.port, begin_]
    | cons v l => simp [← putAll_solo]

/-! ### Reads that leave the state (R110, R119, R199) -/

/-- A source that reads a value, clean or poisoned, leaves the state. -/
theorem read_val {s : State} {T : Tid} {r : Src} {v : Val} (hp : s.iss.isSome = true) (h : r.peek s [T] T = .val v) :
    r.read (opened s T) [T] T = (opened s T, v) := by
  have ho : r.peek (opened s T) [T] T = .val v := by rw [peek_opened r hp, h]
  exact congrArg (settle (opened s T) T) ho

theorem readSrcs_val1 {s : State} {T : Tid} {r : Src} {v : Val} (hp : s.iss.isSome = true) (h : r.peek s [T] T = .val v) :
    readSrcs [T] T [r] (opened s T) = (opened s T, [v]) := by
  simp [readSrcs, read_val hp h]

theorem readSrcs_val2 {s : State} {T : Tid} {q r : Src} {v w : Val} (hp : s.iss.isSome = true) (hq : q.peek s [T] T = .val v)
    (hr : r.peek s [T] T = .val w) : readSrcs [T] T [q, r] (opened s T) = (opened s T, [v, w]) := by
  simp [readSrcs, read_val hp hq, read_val hp hr]

/-- Whatever peeks neither out of bounds nor out of its group reads a value. -/
theorem peek_val {r : Src} {s : State} {T : Tid} (hx : r.peek s [T] T ≠ .xch) (hb : ∀ lo, r.peek s [T] T ≠ .bnd lo) :
    ∃ v, r.peek s [T] T = .val v := by
  cases h : r.peek s [T] T with
  | val v => exact ⟨v, rfl⟩
  | bnd lo => exact absurd h (hb lo)
  | xch => exact absurd h hx

/-! ### Team words of one thread (R101 to R105) -/

theorem unheld_busySrcs {s : State} {T : Tid} {rs : List Src} (h : unheld s T rs) : busySrcs rs s [T] T = false := by
  simpa [busySrcs, unheld] using h

/-- A team word's effect on thread T with operands vs: the lowest token is recorded, or g acts on the handle and the count (R102). -/
def teamLeft (s : State) (T : Tid) (g : State → Tid → Nat → Nat → State) (vs : List Val) : State :=
  match lowTok vs with
  | some k => recordDrop s T k
  | none => g s T (arg (vs.map Val.num) 0) (arg (vs.map Val.num) 1)

theorem teamLeft_clean1 (s : State) (T : Tid) (g : State → Tid → Nat → Nat → State) (h : Nat) : teamLeft s T g [.ok h] = g s T h 0 := rfl
theorem teamLeft_clean2 (s : State) (T : Tid) (g : State → Tid → Nat → Nat → State) (h n : Nat) :
    teamLeft s T g [.ok h, .ok n] = g s T h n := rfl

/-- A team word of one thread whose STATE check passes: what its effect leaves, and the word's end (R58, R102, R213). -/
theorem team_solo {f : RForm} {rs : List Src} {all rel out acq : Bool} {bad : State → List (Tid × Nat) → Bool}
    {g : State → Tid → Nat → Nat → State} {s : State} {T : Tid} (h : Solo s T f.x) (hu : unheld s T rs)
    (hb : bad s (teamUnits f.x rs all s [T] [T]) = false) (hr : (rel && relBusy (opened s T) T 2) = false)
    (ha : (acq && acqBusy (opened s T) T 2) = false) {vs : List Val} (hv : readSrcs [T] T rs (opened s T) = (opened s T, vs)) :
    teamWord f rs all rel out acq bad g s
      = ended (teamLeft (if out then noReplay (opened s T) [T] else opened s T) T g vs) T none (max 1 (1 + crossCost rs)) := by
  have hw : (teamGate f.x rs all bad).wait s [T] [T] = false := by simp [teamGate, unheld_busySrcs hu]
  have hg : gateTrap s (teamGate f.x rs all bad) f.x [T] = none :=
    gate_pass rfl nofun nofun (by simp [teamGate, h.pack, hb]) rfl rfl
  have hrd : (teamOp rs all rel out acq g).rdBusy (opened s T) [T] T = false := by
    simpa only [teamOp, busySrcs_free hu, Bool.false_or] using hr
  unfold teamWord
  rw [word_gate (o := teamOp rs all rel out acq g) _ _ h hw hg rfl hrd ha]
  unfold WordOp.left teamLeft
  simp only [teamOp, hv, ite_self]
  cases lowTok vs <;> rfl

theorem teamUnits_clean {x : Pfx} {rs : List Src} {all : Bool} {s : State} {T : Tid} {h : Nat}
    (hb : (rs.map fun r => r.peek s [T] T).any Peek.bad = false) (hh : (rs.map fun r => r.peek s [T] T).head? = some (.val (.ok h))) :
    teamUnits x rs all s [T] [T] = [(T, h)] := by
  unfold teamUnits
  simp only [List.filterMap_cons, List.filterMap_nil, hb, hh, Bool.false_eq_true, if_false, List.map_cons, List.map_nil, ite_self]

theorem teamUnits_poisoned {x : Pfx} {rs : List Src} {all : Bool} {s : State} {T : Tid}
    (hb : (rs.map fun r => r.peek s [T] T).any Peek.bad = true) : teamUnits x rs all s [T] [T] = [] := by
  unfold teamUnits
  simp only [List.filterMap_cons, List.filterMap_nil, hb, if_true, ite_self]

theorem badHandle_small {h : Nat} (hh : h < 512) : badHandle h = false := by
  have : bitsOf h 15 9 = 0 := by simp only [bitsOf, Nat.shiftRight_eq_div_pow]; omega
  simp [badHandle, this]; omega

theorem joinBad_free {s : State} {T : Tid} {h : Nat} (hh : h < 512) (ht : (s.thr T).team = none) (hj : joinsUnder s = [])
    (hm : (teamOf s T h).live = true → (teamOf s T h).members < 2048) : joinBad s [(T, h)] = false := by
  have hn : ¬ 2048 < (if (teamOf s T h).live then (teamOf s T h).members else 0) + 1 := by
    split
    · have := hm ‹_›; omega
    · omega
  simpa [joinBad, badHandle_small hh, ht, hj, joinsOver] using hn

theorem memberBad_own {s : State} {T : Tid} {h : Nat} (hh : h < 512) (ht : (s.thr T).team = some (BitVec.ofNat 16 h)) :
    memberBad s [(T, h)] = false := by
  simp [memberBad, badHandle_small hh, ht]

theorem noReplay_solo (s : State) (T : Tid) : noReplay s [T]
    = s.modThr T fun x => { x with leg := x.leg.map fun l => { l with replayable := false } } := rfl

theorem teamOf_noReplay (s : State) (T U : Tid) (h : Nat) : teamOf (noReplay s [T]) U h = teamOf s U h := by
  simp [teamOf, noReplay_solo]

theorem teamOf_opened (s : State) (T U : Tid) (h : Nat) : teamOf (opened s T) U h = teamOf s U h := by simp [teamOf]

theorem team_noReplay (s : State) (T U : Tid) : ((noReplay s [T]).thr U).team = (s.thr U).team := by
  rw [noReplay_solo]
  by_cases hU : U = T
  · subst hU
    cases hl : s.live U
    · rw [State.modThr_dead _ _ hl]
    · rw [State.thr_modThr _ _ hl]
  · rw [State.thr_modThr_ne _ _ hU]

theorem toNat_handle {h : Nat} (hh : h < 512) : (BitVec.ofNat 16 h).toNat = h := by
  rw [BitVec.toNat_ofNat]; omega

/-- LEAVE's effect on an entry, case by case (R102). -/
theorem leave_eq (e : Team) : e.leave = if e.members - 1 = 0 then { e with members := 0, live := false }
    else if e.arrived ≥ e.members - 1 then { e with members := e.members - 1, phase := (e.phase + 1) % 2 ^ 16, arrived := 0 }
    else { e with members := e.members - 1 } := by
  unfold Team.leave Team.turn
  dsimp only
  split
  · simp_all
  · rfl

theorem phaseOver_iff (s : State) (T : Tid) {h : Nat} (hh : h < 512) (n : Nat) :
    phaseOver s T (BitVec.ofNat 16 h) (BitVec.ofNat 16 n) = true
      ↔ 1 ≤ (2 ^ 16 + (teamOf s T h).phase - n % 2 ^ 16) % 2 ^ 16 ∧ (2 ^ 16 + (teamOf s T h).phase - n % 2 ^ 16) % 2 ^ 16 ≤ 32767 := by
  simp [phaseOver, toNat_handle hh]

/-- Both operands of a team word read, one of them poison: the lowest token, and nothing else, comes of it. -/
theorem readSrcs_poisoned2 {s : State} {T : Tid} {q r : Src} {k : Tok} (hp : s.iss.isSome = true)
    (hk : q.peek s [T] T = .val (.bad k) ∨ (∃ v, q.peek s [T] T = .val (.ok v)) ∧ r.peek s [T] T = .val (.bad k))
    (hx : r.peek s [T] T ≠ .xch) (hb : ∀ lo, r.peek s [T] T ≠ .bnd lo) :
    ([q, r].map fun r => r.peek s [T] T).any Peek.bad = true
      ∧ ∃ vs, readSrcs [T] T [q, r] (opened s T) = (opened s T, vs) ∧ lowTok vs = some k := by
  obtain hq | ⟨⟨v, hq⟩, hr⟩ := hk
  · obtain ⟨w, hr⟩ := peek_val hx hb
    exact ⟨by simp [hq, Peek.bad], _, readSrcs_val2 hp hq hr, rfl⟩
  · exact ⟨by simp [hr, Peek.bad], _, readSrcs_val2 hp hq hr, rfl⟩

theorem exec_join (f : RForm) (s : State) : exec (.join f) s = .next (teamWord f [rA f] true false true false joinBad (fun s t h _ =>
    (setTeam s t h (teamOf s t h).join).modThr t fun x => { x with team := some (BitVec.ofNat 16 h) }) s) := rfl
theorem exec_leave (f : RForm) (s : State) :
    exec (.leave f) s = .next (teamWord f [rA f] true false true false memberBad (fun s t _ _ => leaveTeam s t) s) := rfl
theorem exec_arrive (f : RForm) (s : State) : exec (.arrive f) s
    = .next (teamWord f [rA f, rB f] false true true false memberBad (fun s t h n => setTeam s t h ((teamOf s t h).arrive n)) s) := rfl
theorem exec_waitph (f : RForm) (s : State) : exec (.waitph f) s = .next (teamWord f [rA f, rB f] true false false true memberBad (fun s t h b =>
    if phaseOver s t (BitVec.ofNat 16 h) (BitVec.ofNat 16 b) then acquire s (coreOf t) 2
    else s.modThr t fun x => { x with hold := { x.hold with phase := some (BitVec.ofNat 16 h, BitVec.ofNat 16 b) } }) s) := rfl

/-- Settles O17: each team word's check passes on its one thread's units (`teamUnits_clean`, `teamUnits_poisoned`), and `team_solo` gives its
effect. -/
theorem teamResults : Obligations.TeamResults := by
  intro s T f h
  refine ⟨fun hu k hk hA => ⟨fun ht hj hm => ?join, fun ht => ?leave⟩, fun hu k hk n hA hB ht => ⟨fun hr => ?arrive, fun ha => ?waitph⟩,
    fun hu k hA => ⟨fun hj => ?joinPoison, ?leavePoison⟩, fun hu _ hBx _ hBb k hk => ⟨fun hr => ?arrivePoison, fun ha => ?waitphPoison⟩⟩
  case join =>
    have hb : joinBad s (teamUnits f.x [rA f] true s [T] [T]) = false := by
      rw [teamUnits_clean (h := k) (by simp [hA, Peek.bad]) (by simp [hA])]
      exact joinBad_free hk ht hj hm
    rw [exec_join, team_solo h hu hb rfl rfl (readSrcs_val1 h.port hA)]
    simp only [if_true, teamLeft_clean1, teamOf_noReplay, teamOf_opened, Team.join]
  case leave =>
    have hb : memberBad s (teamUnits f.x [rA f] true s [T] [T]) = false := by
      rw [teamUnits_clean (h := k) (by simp [hA, Peek.bad]) (by simp [hA])]
      exact memberBad_own hk ht
    rw [exec_leave, team_solo h hu hb rfl rfl (readSrcs_val1 h.port hA)]
    simp only [if_true, teamLeft_clean1, leaveTeam, team_noReplay, opened_thr, ht, toNat_handle hk, teamOf_noReplay, teamOf_opened, leave_eq]
  case arrive =>
    have hb : memberBad s (teamUnits f.x [rA f, rB f] false s [T] [T]) = false := by
      rw [teamUnits_clean (h := k) (by simp [hA, hB, Peek.bad]) (by simp [hA])]
      exact memberBad_own hk ht
    rw [exec_arrive, team_solo (rel := true) h hu hb hr rfl (readSrcs_val2 h.port hA hB)]
    simp only [if_true, teamLeft_clean2, teamOf_noReplay, teamOf_opened, Team.arrive, Team.turn]
  case waitph =>
    have hb : memberBad s (teamUnits f.x [rA f, rB f] true s [T] [T]) = false := by
      rw [teamUnits_clean (h := k) (by simp [hA, hB, Peek.bad]) (by simp [hA])]
      exact memberBad_own hk ht
    rw [exec_waitph, team_solo (acq := true) h hu hb rfl ha (readSrcs_val2 h.port hA hB)]
    simp only [Bool.false_eq_true, if_false, teamLeft_clean2, phaseOver_iff _ _ hk, teamOf_opened]
  case joinPoison =>
    have hb : joinBad s (teamUnits f.x [rA f] true s [T] [T]) = false := by
      rw [teamUnits_poisoned (by simp [hA, Peek.bad])]
      simp [joinBad, hj, joinsOver]
    rw [exec_join, team_solo h hu hb rfl rfl (readSrcs_val1 h.port hA)]
    rfl
  case leavePoison =>
    have hb : memberBad s (teamUnits f.x [rA f] true s [T] [T]) = false := by
      rw [teamUnits_poisoned (by simp [hA, Peek.bad])]
      rfl
    rw [exec_leave, team_solo h hu hb rfl rfl (readSrcs_val1 h.port hA)]
    rfl
  case arrivePoison =>
    obtain ⟨hp, vs, hv, hl⟩ := readSrcs_poisoned2 h.port hk hBx hBb
    have hb : memberBad s (teamUnits f.x [rA f, rB f] false s [T] [T]) = false := by rw [teamUnits_poisoned hp]; rfl
    rw [exec_arrive, team_solo (rel := true) h hu hb hr rfl hv]
    simp only [if_true, teamLeft, hl]
  case waitphPoison =>
    obtain ⟨hp, vs, hv, hl⟩ := readSrcs_poisoned2 h.port hk hBx hBb
    have hb : memberBad s (teamUnits f.x [rA f, rB f] true s [T] [T]) = false := by rw [teamUnits_poisoned hp]; rfl
    rw [exec_waitph, team_solo (acq := true) h hu hb rfl ha hv]
    simp only [Bool.false_eq_true, if_false, teamLeft, hl]

/-! ### What leaves the ports: translation, loads, writes at homes (R189, R194, R225) -/

/-- u has the ports and the issuing port of s. -/
structure SamePorts (s u : State) : Prop where
  ports : u.ports = s.ports
  iss : u.iss = s.iss

namespace SamePorts

theorem refl (s : State) : SamePorts s s := ⟨rfl, rfl⟩
theorem trans {s u v : State} (h : SamePorts s u) (k : SamePorts u v) : SamePorts s v := ⟨k.ports.trans h.ports, k.iss.trans h.iss⟩
theorem cur {s u : State} (h : SamePorts s u) : u.cur = s.cur := cur_iss s u h.iss h.ports
theorem modCore (s : State) (c : Nat) (f : Core → Core) : SamePorts s (s.modCore c f) := ⟨rfl, rfl⟩
theorem modThr (s : State) (t : Tid) (f : Thread → Thread) : SamePorts s (s.modThr t f) := ⟨State.modThr_ports .., State.modThr_iss ..⟩

/-- A fold of operations that leave the ports leaves them. -/
theorem foldl {α : Type} {f : State → α → State} (h : ∀ s a, SamePorts s (f s a)) (l : List α) (s : State) : SamePorts s (l.foldl f s) := by
  induction l generalizing s with
  | nil => exact refl s
  | cons a l ih => exact (h s a).trans (ih (f s a))

end SamePorts

theorem SameIssue.samePorts {s u : State} (h : SameIssue s u) : SamePorts s u := ⟨h.ports, h.iss⟩

theorem raiseIn_samePorts (s : State) (c : Nat) (t : Tid) (pc : W64) (k : Nat) (a : W64) (o : Option Nat) : SamePorts s (raiseIn s c t pc k a o).1 := by
  unfold raiseIn
  dsimp only
  split <;> exact ⟨rfl, rfl⟩

theorem raise_samePorts (s : State) (t : Tid) (k : Nat) (a : W64) : SamePorts s (raise s t k a).1 := raiseIn_samePorts ..
theorem raiseCarried_samePorts (s : State) (t : Tid) (pc : W64) (k : Tok) (a : W64) : SamePorts s (raiseCarried s t pc k a).1 := raiseIn_samePorts ..

theorem recordDrop_samePorts (s : State) (t : Tid) (k : Tok) : SamePorts s (recordDrop s t k) := SamePorts.modThr ..

theorem recordRaise_samePorts (s : State) (t : Tid) (k : Nat) (a : W64) : SamePorts s (recordRaise s t k a) := by
  unfold recordRaise
  exact (raise_samePorts ..).trans (recordDrop_samePorts ..)

theorem read_samePorts (r : Src) (s : State) (acts : List Tid) (t : Tid) : SamePorts s (r.read s acts t).1 := by
  unfold Src.read readX settle
  split
  · exact SamePorts.refl s
  · exact raise_samePorts ..
  · exact raise_samePorts ..

theorem readSrcs_samePorts (acts : List Tid) (t : Tid) (rs : List Src) (s : State) : SamePorts s (readSrcs acts t rs s).1 := by
  induction rs generalizing s with
  | nil => exact SamePorts.refl s
  | cons r rs ih => exact (read_samePorts r s acts t).trans (ih _)

theorem xlat_samePorts (s : State) (t : Tid) (a : Acc) (va : W64) : SamePorts s (xlat s t a va).1 := by
  have h := (lookup_sameIssue s (coreOf t) (threadSpace s t) va).samePorts
  unfold xlat translate
  dsimp only
  split <;> exact h

theorem homeWrite_samePorts (s : State) (by_ : Option Nat) (w : Nat) (v : Val) : SamePorts s (homeWrite s by_ w v) := by
  unfold homeWrite wakeWatch
  constructor <;> dsimp only <;> split <;> split <;> rfl

theorem homeAdd_samePorts (s : State) (c pa : Nat) (v : Int) : SamePorts s (homeAdd s c pa v).1 := by
  unfold homeAdd
  split
  · exact SamePorts.refl s
  · exact homeWrite_samePorts ..

theorem writeBack_samePorts (s : State) (c key : Nat) (own : Bool) : SamePorts s (writeBack s c key own) := by
  unfold writeBack
  split
  · exact SamePorts.refl s
  split
  · exact SamePorts.refl s
  · have h : SamePorts s (if own then { s with freeCtr := s.freeCtr + 1 } else s) := by split <;> exact ⟨rfl, rfl⟩
    exact (h.trans (homeWrite_samePorts ..)).trans (SamePorts.modCore ..)

theorem evict_samePorts (s : State) (c line bin : Nat) : SamePorts s (evict s c line bin) := by
  unfold evict writeBackKeys
  exact (SamePorts.foldl (fun s k => writeBack_samePorts s c k false) ..).trans (SamePorts.modCore ..)

theorem scoreMiss_samePorts (s : State) (c line : Nat) : SamePorts s (scoreMiss s c line) := SamePorts.modCore s c _

theorem makeRoom_samePorts (s : State) (c line bin : Nat) : SamePorts s (makeRoom s c line bin) := by
  unfold makeRoom
  dsimp only
  split
  · exact SamePorts.refl s
  · exact SamePorts.trans (u := { s with freeCtr := s.freeCtr + 1 }) ⟨rfl, rfl⟩ (evict_samePorts ..)

theorem fillLine_samePorts (s : State) (c line bin : Nat) (sk : Option (Nat × Nat × Nat)) (evf : Bool) :
    SamePorts s (fillLine s c line bin sk evf) := by
  unfold fillLine
  exact (makeRoom_samePorts s c line bin).trans (SamePorts.modCore ..)

theorem l1Load_samePorts (s : State) (t : Tid) (p : Page) (w : Nat) (nl1 evf : Bool) : SamePorts s (l1Load s t p w nl1 evf).1 := by
  have h := scoreMiss_samePorts s (coreOf t) (l1Key p.peer w / 16)
  unfold l1Load
  dsimp only
  split
  · exact SamePorts.refl s
  split
  · exact h
  · exact h.trans (fillLine_samePorts ..)

theorem l1Words_samePorts (s : State) (t : Tid) (p : Page) (ws : List Nat) (nl1 evf : Bool) : SamePorts s (l1Words s t p ws nl1 evf).1 := by
  have fold : ∀ (ws : List Nat) (a : State × List Val), SamePorts a.1
      (ws.foldl (fun (a : State × List Val) w => let b := l1Load a.1 t p w nl1 evf; (b.1, a.2 ++ [b.2])) a).1 := by
    intro ws
    induction ws with
    | nil => exact fun a => SamePorts.refl a.1
    | cons w ws ih => exact fun a => (l1Load_samePorts a.1 t p w nl1 evf).trans (ih (_, _))
  unfold l1Words
  refine SamePorts.trans ?_ (fold ws (_, []))
  split
  · exact ⟨rfl, rfl⟩
  · exact SamePorts.refl s

theorem loadAt_samePorts (s : State) (t : Tid) (ea : W64) (bits : Nat) (nl1 evf : Bool) (fit : Nat → Nat) :
    SamePorts s (loadAt s t ea bits nl1 evf fit).1 := by
  have hx := xlat_samePorts s t .load ea
  unfold loadAt
  dsimp only
  split
  · exact raise_samePorts ..
  split
  · split
    · exact hx
    · exact hx.trans (raise_samePorts ..)
  · exact hx.trans (raiseCarried_samePorts ..)
  · rename_i p _
    generalize (if bits = 64 then [p.pa / 4, p.pa / 4 + 1] else [p.pa / 4]) = ws
    split
    · exact hx.trans (scoreMiss_samePorts ..)
    · exact hx.trans (l1Words_samePorts ..)

/-! ### Spawns leave the port they run on (R91) -/

theorem readEntry_samePorts (s : State) (t : Tid) (e : W64) : SamePorts s (readEntry s t e).1 := by
  have hx := xlat_samePorts s t .load (e - 8)
  have hl := hx.trans (loadAt_samePorts (xlat s t .load (e - 8)).1 t (e - 8) 64 false false id)
  unfold readEntry
  dsimp only
  split
  · exact hx.trans (raise_samePorts ..)
  · exact hx.trans (raiseCarried_samePorts ..)
  split
  · exact hx.trans (raise_samePorts ..)
  split
  · exact hl
  · exact hl.trans (raiseCarried_samePorts ..)
  · exact hl
  · exact hl
  · exact hl

theorem beginSpawn_samePorts (s : State) (t : Tid) (batch : Bool) (vs : List Val) : SamePorts s (beginSpawn s t batch vs) := by
  unfold beginSpawn
  dsimp only
  split
  · exact (recordDrop_samePorts ..).trans (SamePorts.modThr ..)
  have hr := readEntry_samePorts s t (BitVec.ofNat 64 (arg (vs.map Val.num) 0 / 8 * 8))
  split
  · exact (hr.trans (recordDrop_samePorts ..)).trans (SamePorts.modThr ..)
  generalize (if batch = true then arg (vs.map Val.num) 1 else 1) = n
  split
  · exact (hr.trans (recordRaise_samePorts ..)).trans (SamePorts.modThr ..)
  split
  · exact hr.trans (SamePorts.modThr ..)
  · refine (hr.trans ?_).trans (SamePorts.modThr ..)
    split
    · exact homeAdd_samePorts ..
    · exact SamePorts.refl _

theorem putRecord_samePorts {s u : State} {c : Nat} {r : SpawnRec} (h : putRecord s c r = some u) : SamePorts s u := by
  unfold putRecord at h
  obtain ⟨i, -, rfl⟩ := Option.map_eq_some_iff.1 h
  exact SamePorts.modCore ..

theorem pushJob_samePorts (t : Tid) (n : Nat) (s : State) : SamePorts s (pushJob s t n) := by
  induction n generalizing s with
  | zero => exact SamePorts.refl s
  | succ n ih =>
    unfold pushJob
    split
    · exact SamePorts.refl s
    dsimp only
    split
    · exact SamePorts.refl s
    split
    · exact SamePorts.refl s
    · rename_i h
      exact ((putRecord_samePorts h).trans (SamePorts.modThr ..)).trans (ih _)

/-- The state in which a spawn of thread T has entered its records (R91). -/
def spawnPushed (s : State) (T : Tid) (f : RForm) (batch : Bool) : State :=
  let a := readSrcs [T] T [rA f, rB f] (opened s T)
  pushJob (beginSpawn a.1 T batch a.2) T 4096

theorem spawnPushed_samePorts (s : State) (T : Tid) (f : RForm) (batch : Bool) : SamePorts (opened s T) (spawnPushed s T f batch) :=
  ((readSrcs_samePorts ..).trans (beginSpawn_samePorts ..)).trans (pushJob_samePorts ..)

/-- The wait of a spawn that has no job yet reads, begins its job and enters its records; with all of them entered nothing holds it. -/
theorem spawn_ready {s : State} {T : Tid} {f : RForm} {batch : Bool} (hp : s.iss.isSome = true) (hu : unheld s T [rA f, rB f])
    (hj : (s.thr T).spawn = none) (hi : batch = true → idle s T 16 16) {j : SpawnJob} (hd : ((spawnPushed s T f batch).thr T).spawn = some j)
    (hn : j.count ≤ j.next) (hu' : unheld (spawnPushed s T f batch) T [rA f, rB f]) (hi' : batch = true → idle (spawnPushed s T f batch) T 16 16) :
    (spawnOp batch f).ready (opened s T) [T] T [T] = (spawnPushed s T f batch, true) := by
  have hb : ∀ u : State, (batch = true → idle u T 16 16) → (batch && (u.thr T).pending 16 16) = false := by
    intro u h
    cases batch
    · rfl
    · exact h rfl
  have hacts : (opened s T).cur.acts.getD [] = [T] := by rw [opened_cur hp]; rfl
  have hw : (spawnOp batch f).wait (opened s T) T = spawnPushed s T f batch := by
    simp only [spawnOp, hacts, busySrcs_free hu, opened_thr, hb s hi, Bool.or_self, Bool.false_eq_true, if_false, hj]
    rfl
  have hbusy : (spawnOp batch f).rdBusy (opened s T) [T] T = true := by simp [spawnOp, hj]
  have hfree : (spawnOp batch f).rdBusy (spawnPushed s T f batch) [T] T = false := by
    simp only [spawnOp, hd, unheld_busySrcs hu', hb _ hi', Bool.or_self, Bool.false_or, decide_eq_false_iff_not]
    omega
  have hwr : ∀ u, (spawnOp batch f).wrBusy u T = false := fun _ => rfl
  simp [WordOp.ready, hbusy, hw, hfree, hwr]

/-- A spawn of one thread whose records have all entered bins (R91). -/
theorem spawn_solo {s : State} {T : Tid} {f : RForm} {batch : Bool} (h : Solo s T f.x) (hu : unheld s T [rA f, rB f])
    (hj : (s.thr T).spawn = none) (hi : batch = true → idle s T 16 16) {j : SpawnJob} (hd : ((spawnPushed s T f batch).thr T).spawn = some j)
    (hn : j.count ≤ j.next) (hu' : unheld (spawnPushed s T f batch) T [rA f, rB f]) (hi' : batch = true → idle (spawnPushed s T f batch) T 16 16) :
    runWord {} f.x ([rA f, rB f].any Src.endc) (1 + crossCost [rA f, rB f]) (spawnOp batch f) s
      = ended ((noReplay (spawnPushed s T f batch) [T]).modThr T fun x => { x with spawn := none }) T none (max 1 (1 + crossCost [rA f, rB f])) := by
  have hc : (spawnPushed s T f batch).cur = begin_ [T] s.cur := by rw [(spawnPushed_samePorts s T f batch).cur, opened_cur h.port]
  have hcalm : (spawnPushed s T f batch).cur.upset = false := by rw [hc]; exact h.calm
  have hold : (spawnPushed s T f batch).cur.old = [] := by rw [hc]; rfl
  rw [runWord_ready {} (spawnOp batch f) _ _ h rfl gate_free hcalm hold (spawn_ready h.port hu hj hi hd hn hu' hi'), gated_free _ rfl]
  rfl

/-! ### Bins (R87) -/

/-- The bin of an entry is the first that has its key, while it holds fewer than 64 records. -/
theorem binFor_keyed {s : State} {c i : Nat} {e : W64} (hi : i < 16) (hlt : ∀ j < i, (tgetD j {} (s.core c).bins).key ≠ some e)
    (hk : (tgetD i {} (s.core c).bins).key = some e) :
    binFor s c e = if (tgetD i {} (s.core c).bins).recs.length < 64 then some i else none := by
  have hf : ((List.range 16).find? fun i => (tgetD i {} (s.core c).bins).key == some e) = some i := by
    rw [List.find?_range_eq_some]
    refine ⟨by simpa using hk, by simpa using hi, fun j hj => by simpa using hlt j hj⟩
  unfold binFor
  simp only [hf]

/-- Settles O16: `spawn_solo` for the word, the branches of `beginSpawn` for what enters no record, and `binFor_keyed` for the bin. -/
theorem spawnResults : Obligations.SpawnResults := by
  refine ⟨fun s T f batch h hu hj hi hn hs hu' hi' => ?word, fun s T batch vs => ⟨fun k hk => ?poison, fun hk k hr => ?unread⟩,
    fun s c r i hi hlt hk => ?bin⟩
  case word =>
    obtain ⟨j, hd⟩ := Option.isSome_iff_exists.1 hs
    have hw := spawn_solo h hu hj hi hd (hn j hd) hu' hi'
    refine ⟨?_, ?_⟩ <;> rintro rfl <;> exact congrArg Host.Outcome.next hw
  case poison => simp only [beginSpawn, hk]
  case unread => simp only [beginSpawn, hk, hr]
  case bin =>
    unfold putRecord
    rw [binFor_keyed hi hlt hk]
    split <;> rfl

end Sys2Proof.Machine
end

section
/-! The device right after reset, and its first step (R90, R192, R245, R249, R250, R273, R274, R386, R388, R397). -/

namespace Sys2Proof.Machine

/-! ### A bring-up with nothing failing (R397) -/

/-- b goes on and has fenced nothing. -/
def Boot.clear (b : Boot) : Prop := b.h.stopped = false ∧ b.h.fenced = []

theorem bootDone_clear {b : Boot} (h : b.clear) (step unit method : Nat) : (bootDone b step unit method).clear := by
  unfold bootDone
  split <;> exact h

/-- Every unit's first method succeeds where no attempt fails. -/
theorem attempts_none (step unit m : Nat) (ms : List Nat) : attempts [] step unit (m :: ms) = [⟨step, unit, m, true⟩] := rfl

theorem methodOrder_ne (l : List JLine) (step unit : Nat) : methodOrder l step unit ≠ [] := by
  have hn : List.range (stepMethods step) ≠ [] := by
    unfold stepMethods
    split <;> simp
  unfold methodOrder
  dsimp only
  split
  · cases hr : List.range (stepMethods step) with
    | nil => exact absurd hr hn
    | cons m ms => simp
  · exact hn

theorem bootUnit_clear {b : Boot} (h : b.clear) (old : List JLine) (step unit : Nat) : (bootUnit [] old step b unit).clear := by
  unfold bootUnit
  split
  · exact h
  · obtain ⟨m, ms, hm⟩ := List.exists_cons_of_ne_nil (methodOrder_ne old step unit)
    simp only [hm, attempts_none, List.find?_cons]
    refine bootDone_clear ?_ step unit m
    exact h

theorem bootUnits_clear (old : List JLine) (step : Nat) (us : List Nat) {b : Boot} (h : b.clear) :
    (us.foldl (bootUnit [] old step) b).clear := by
  induction us generalizing b with
  | nil => exact h
  | cons u us ih => exact ih (bootUnit_clear h old step u)

/-- A start in which no attempt fails goes on to its end. -/
theorem boot_clear (d : BitVec 12) : (boot State.reset ⟨[], d⟩).clear := by
  unfold boot
  generalize List.range 9 = steps
  dsimp only
  suffices h : ∀ b : Boot, b.clear →
      (steps.foldl (fun b i => (List.range (stepUnits (i + 1))).foldl (bootUnit [] [] (i + 1)) b) b).clear from h _ ⟨rfl, rfl⟩
  induction steps with
  | nil => exact fun b h => h
  | cons i steps ih => exact fun b h => ih _ (bootUnits_clear _ _ _ h)

theorem startDispatchers_host (s : State) : (startDispatchers s).host = s.host := by simp only [startDispatchers]
theorem startDispatchers_ports (s : State) : (startDispatchers s).ports = s.ports := by simp only [startDispatchers]

/-- What a bring-up that comes to its end leaves (R397). -/
theorem bringUp_done {s : State} {r : BringUp} (h : (s.host.ready || s.host.fault || s.host.stopped) = false)
    (hs : (boot s r).h.stopped = false) :
    (bringUp s r).host.ready = true ∧ (bringUp s r).host.cores = 8 * (96 - (boot s r).h.fenced.length) ∧ (bringUp s r).ports = s.ports := by
  unfold bringUp
  generalize boot s r = b at hs ⊢
  simp only [h, hs, Bool.false_eq_true, if_false, startDispatchers_host, startDispatchers_ports, and_self]

theorem bringUp_reset (d : BitVec 12) :
    (bringUp State.reset ⟨[], d⟩).host.ready = true ∧ (bringUp State.reset ⟨[], d⟩).host.cores = 768 ∧ (bringUp State.reset ⟨[], d⟩).ports = [] := by
  obtain ⟨hs, hf⟩ := boot_clear d
  have h := bringUp_done rfl hs
  rwa [hf] at h

/-- No method is installed at reset (R273). -/
theorem sysRead_reset_methods (T : Tid) : sysRead State.reset T 0x0C1 = 0 :=
  calc sysRead State.reset T 0x0C1 = ((List.range 64).map fun _ => 0).sum := rfl
    _ = 0 := by simp

/-- Settles O59: the registers at their reset values; bring-up is the default choice, and with nothing failing it comes to its end
(`boot_clear`). -/
theorem resetState : Obligations.ResetState := by
  refine ⟨reset_memOk, rfl, rfl, rfl, rfl, rfl, rfl, fun T => ⟨rfl, rfl, ?zero⟩, fun a => rfl, ?_⟩
  case zero =>
    intro r hr
    simp only [List.mem_cons, List.not_mem_nil, or_false] at hr
    obtain rfl | rfl | rfl | rfl | rfl | rfl | rfl | rfl | rfl | rfl := hr
    case inr.inr.inr.inr.inr.inr.inr.inl => exact sysRead_reset_methods T
    all_goals rfl
  exact ⟨(step_default rfl rfl).trans (congrArg settled (act_event rfl)), _, rfl, bringUp_reset 1⟩

end Sys2Proof.Machine
end

section
/-! The thread engine's events: votes, bins, timed waits, late results and messages to an L1 (R88, R93, R97, R98, R108, R132, R154, R155, R194,
R200, R225, R226, R232). -/

namespace Sys2Proof.Machine

/-! ### The threads of a lane (R93, R100) -/

theorem tget_isSome_of_mem {α : Type} {p : Nat × α} {l : Tbl α} (h : p ∈ l) : (tget p.1 l).isSome = true := by
  induction l with
  | nil => cases h
  | cons q l ih =>
    obtain ⟨j, a⟩ := q
    by_cases e : j = p.1
    · simp [tget, e]
    · rcases List.mem_cons.1 h with rfl | h
      · exact absurd rfl e
      · simpa [tget, e] using ih h

theorem mem_insThread {t x : Tid} {l : List Tid} : x ∈ insThread t l ↔ x = t ∨ x ∈ l := by
  induction l with
  | nil => simp [insThread]
  | cons u l ih =>
    unfold insThread
    split
    · rename_i h; subst h; simp
    split
    · simp
    · simp only [List.mem_cons, ih]; tauto

/-- A pack in ascending order, each thread once. -/
def Ascending (l : List Tid) : Prop := l.Pairwise (fun t u => orderKey t ≤ orderKey u) ∧ l.Nodup

theorem Ascending.insThread {t : Tid} {l : List Tid} (h : Ascending l) : Ascending (insThread t l) := by
  induction l with
  | nil => exact ⟨by simp [Machine.insThread], by simp [Machine.insThread]⟩
  | cons u l ih =>
    obtain ⟨hs, hn⟩ := h
    obtain ⟨hu, hs'⟩ := List.pairwise_cons.1 hs
    obtain ⟨hm, hn'⟩ := List.nodup_cons.1 hn
    unfold Machine.insThread
    split
    · exact ⟨hs, hn⟩
    split
    · rename_i hlt
      have hle : ∀ y ∈ u :: l, orderKey u ≤ orderKey y := by simpa using hu
      refine ⟨List.pairwise_cons.2 ⟨fun y hy => hlt.le.trans (hle y hy), hs⟩, List.nodup_cons.2 ⟨fun ht => ?_, hn⟩⟩
      have := hle t ht
      omega
    · rename_i hne hge
      obtain ⟨is, ins⟩ := ih ⟨hs', hn'⟩
      refine ⟨List.pairwise_cons.2 ⟨fun y hy => ?_, is⟩, List.nodup_cons.2 ⟨fun hu' => ?_, ins⟩⟩
      · rcases mem_insThread.1 hy with rfl | hy
        · omega
        · exact hu y hy
      · rcases mem_insThread.1 hu' with rfl | hu'
        · exact hne rfl
        · exact hm hu'

/-- Threads put in order one by one, from a list that is in order. -/
theorem foldl_insThread {α : Type} (f : α → Tid) (ps : List α) {l : List Tid} (h : Ascending l) :
    Ascending (ps.foldl (fun a p => insThread (f p) a) l)
      ∧ ∀ x ∈ ps.foldl (fun a p => insThread (f p) a) l, x ∈ l ∨ ∃ p ∈ ps, f p = x := by
  induction ps generalizing l with
  | nil => exact ⟨h, fun x hx => .inl hx⟩
  | cons p ps ih =>
    obtain ⟨ha, hm⟩ := ih h.insThread
    refine ⟨ha, fun x hx => ?_⟩
    rcases hm x hx with hx | ⟨q, hq, rfl⟩
    · rcases mem_insThread.1 hx with rfl | hx
      · exact .inr ⟨p, List.mem_cons_self .., rfl⟩
      · exact .inl hx
    · exact .inr ⟨q, List.mem_cons_of_mem _ hq, rfl⟩

theorem laneThreads_nodup (s : State) (l : Nat) : (laneThreads s l).Nodup :=
  (foldl_insThread (fun p : Nat × Thread => p.1) _ (l := []) ⟨List.Pairwise.nil, List.nodup_nil⟩).1.2

theorem laneThreads_live {s : State} {l : Nat} {x : Tid} (h : x ∈ laneThreads s l) : s.live x = true := by
  rcases (foldl_insThread (fun p : Nat × Thread => p.1) _ (l := []) ⟨List.Pairwise.nil, List.nodup_nil⟩).2 x h with h | ⟨p, hp, rfl⟩
  · cases h
  · exact tget_isSome_of_mem (List.mem_filter.1 hp).1

/-! ### What a vote leaves in a thread (R97, R98) -/

theorem thr_foldl_modThr (G : Tid → Thread → Thread) {l : List Tid} (hn : l.Nodup) {s : State} {x : Tid} (hx : x ∈ l) (hl : s.live x = true) :
    (l.foldl (fun s t => s.modThr t (G t)) s).thr x = G x (s.thr x) := by
  have out : ∀ (l : List Tid) (s : State), x ∉ l → (l.foldl (fun s t => s.modThr t (G t)) s).thr x = s.thr x := by
    intro l
    induction l with
    | nil => exact fun _ _ => rfl
    | cons t l ih =>
      intro s hx
      obtain ⟨hne, hx⟩ := not_or.1 (List.mem_cons.not.1 hx)
      exact (ih _ hx).trans (State.thr_modThr_ne s _ hne)
  induction l generalizing s with
  | nil => cases hx
  | cons t l ih =>
    obtain ⟨hm, hn⟩ := List.nodup_cons.1 hn
    rcases List.mem_cons.1 hx with rfl | hx'
    · exact (out l _ hm).trans (State.thr_modThr s _ hl)
    · have hne : x ≠ t := by rintro rfl; exact hm hx'
      exact (ih hn hx' (by simpa using hl)).trans (by rw [State.thr_modThr_ne s _ hne])

/-- What a vote of number n leaves in thread t, of the ready threads rd, the eligible ones el and the chosen ones pack. -/
def votedThread (n : Nat) (rd el pack : List Tid) (t : Tid) (x : Thread) : Thread :=
  voteThread n (rd.contains t || x.hold.frozen) (el.contains t) (pack.contains t) x

theorem votedThread_demote (n : Nat) (rd el pack : List Tid) (t : Tid) (x : Thread) : (votedThread n rd el pack t x).demote = x.demote - 1 := by
  unfold votedThread voteThread
  dsimp only
  split
  · rfl
  split <;> rfl

theorem votedThread_unready {n : Nat} {rd el pack : List Tid} {t : Tid} {x : Thread} (hr : t ∉ rd) (hf : x.hold.frozen = false) :
    (votedThread n rd el pack t x).age = 0 ∧ (votedThread n rd el pack t x).forced = none := by
  have hc : rd.contains t = false := by simpa using hr
  unfold votedThread voteThread
  rw [hc, hf, if_pos (by simp)]
  exact ⟨rfl, rfl⟩

/-- The state behind the pass of a vote, s's next, over the threads ts. -/
def votedState (s : State) (ts rd el pack : List Tid) : State :=
  ts.foldl (fun u t => u.modThr t (votedThread (s.voteCtr + 1) rd el pack t)) { s with voteCtr := s.voteCtr + 1 }

theorem votedState_thr {s : State} {ts : List Tid} (rd el pack : List Tid) (hn : ts.Nodup) {x : Tid} (hx : x ∈ ts) (hl : s.live x = true) :
    (votedState s ts rd el pack).thr x = votedThread (s.voteCtr + 1) rd el pack x (s.thr x) :=
  thr_foldl_modThr (votedThread (s.voteCtr + 1) rd el pack) hn (s := { s with voteCtr := s.voteCtr + 1 }) hx hl

theorem votedState_voteCtr (s : State) (ts rd el pack : List Tid) : (votedState s ts rd el pack).voteCtr = s.voteCtr + 1 := by
  have h : ∀ u : State, (ts.foldl (fun u t => u.modThr t (votedThread (s.voteCtr + 1) rd el pack t)) u).voteCtr = u.voteCtr := by
    induction ts with
    | nil => exact fun _ => rfl
    | cons t ts ih => exact fun u => (ih _).trans (State.modThr_voteCtr ..)
  exact h _

/-- The vote's pass over the lane's threads takes each as it was. -/
theorem foldl_voted (s : State) (ts rd el pack : List Tid) :
    ts.foldl (fun u t => u.modThr t (voteThread u.voteCtr (rd.contains t || (u.thr t).hold.frozen) (el.contains t) (pack.contains t)))
      { s with voteCtr := s.voteCtr + 1 } = votedState s ts rd el pack := by
  have h1 : ∀ (u : State) (t : Tid), u.modThr t (voteThread u.voteCtr (rd.contains t || (u.thr t).hold.frozen) (el.contains t) (pack.contains t))
      = u.modThr t (votedThread u.voteCtr rd el pack t) := by
    intro u t
    cases hl : u.live t
    · rw [State.modThr_dead u _ hl, State.modThr_dead u _ hl]
    · rw [State.modThr_live u _ hl, State.modThr_live u _ hl]
      rfl
  have hfold : ∀ u : State, u.voteCtr = s.voteCtr + 1 →
      ts.foldl (fun u t => u.modThr t (voteThread u.voteCtr (rd.contains t || (u.thr t).hold.frozen) (el.contains t) (pack.contains t))) u
        = ts.foldl (fun u t => u.modThr t (votedThread (s.voteCtr + 1) rd el pack t)) u := by
    induction ts with
    | nil => exact fun _ _ => rfl
    | cons t ts ih =>
      intro u hu
      rw [List.foldl_cons, List.foldl_cons, h1, hu]
      exact ih _ (by simpa using hu)
  exact hfold _ rfl

/-! ### What the fetch of a clause leaves of a vote (R28, R189) -/

/-- u has the votes counted in s, and its threads the demotions, ages and forced marks of s. -/
structure SameVotes (s u : State) : Prop where
  count : u.voteCtr = s.voteCtr
  demote : ∀ t, (u.thr t).demote = (s.thr t).demote
  age : ∀ t, (u.thr t).age = (s.thr t).age
  forced : ∀ t, (u.thr t).forced = (s.thr t).forced

namespace SameVotes

theorem refl (s : State) : SameVotes s s := ⟨rfl, fun _ => rfl, fun _ => rfl, fun _ => rfl⟩

theorem trans {s u v : State} (h : SameVotes s u) (k : SameVotes u v) : SameVotes s v :=
  ⟨k.count.trans h.count, fun t => (k.demote t).trans (h.demote t), fun t => (k.age t).trans (h.age t), fun t => (k.forced t).trans (h.forced t)⟩

/-- A change of anything but the threads and the count. -/
theorem of_threads {s u : State} (hc : u.voteCtr = s.voteCtr) (ht : u.threads = s.threads) : SameVotes s u := by
  have h : ∀ t, u.thr t = s.thr t := fun t => by simp only [State.thr, ht]
  exact ⟨hc, fun t => by rw [h], fun t => by rw [h], fun t => by rw [h]⟩

/-- A change of threads that leaves a thread's votes. -/
theorem modThr (s : State) (t : Tid) {f : Thread → Thread} (hd : ∀ x, (f x).demote = x.demote) (ha : ∀ x, (f x).age = x.age)
    (hf : ∀ x, (f x).forced = x.forced) : SameVotes s (s.modThr t f) := by
  cases hl : s.live t with
  | false => rw [State.modThr_dead s f hl]; exact refl s
  | true =>
    have h : ∀ u, (s.modThr t f).thr u = if u = t then f (s.thr t) else s.thr u := by
      intro u
      split
      · rename_i e; rw [e, State.thr_modThr s f hl]
      · rename_i e; exact State.thr_modThr_ne s f e
    refine ⟨State.modThr_voteCtr .., fun u => ?_, fun u => ?_, fun u => ?_⟩ <;> rw [h u] <;> split
    · rename_i e; rw [hd, e]
    · rfl
    · rename_i e; rw [ha, e]
    · rfl
    · rename_i e; rw [hf, e]
    · rfl

theorem foldl {α : Type} {f : State → α → State} (h : ∀ s a, SameVotes s (f s a)) (l : List α) (s : State) : SameVotes s (l.foldl f s) := by
  induction l generalizing s with
  | nil => exact refl s
  | cons a l ih => exact (h s a).trans (ih (f s a))

/-- The same for one thread after another. -/
theorem foldl_modThr {f : Thread → Thread} (hd : ∀ x, (f x).demote = x.demote) (ha : ∀ x, (f x).age = x.age) (hf : ∀ x, (f x).forced = x.forced)
    (l : List Tid) (s : State) : SameVotes s (l.foldl (fun s t => s.modThr t f) s) :=
  foldl (fun s t => modThr s t hd ha hf) l s

theorem modDie (s : State) (d : Nat) (f : Die → Die) : SameVotes s (s.modDie d f) := of_threads rfl rfl
theorem setPort (s : State) (k : Nat) (p : Port) : SameVotes s (s.setPort k p) := of_threads rfl rfl

end SameVotes

theorem lookup_sameVotes (s : State) (c : Nat) (sp : Space) (va : W64) : SameVotes s (lookup s c sp va).1 := by
  refine SameVotes.of_threads ?_ (lookup_sameIssue s c sp va).threads
  unfold lookup
  dsimp only
  split
  · rfl
  split
  · rfl
  split
  · rfl
  split <;> rfl

theorem fetchWord_sameVotes (s : State) (c : Nat) (user : Bool) (va : W64) : SameVotes s (fetchWord s c user va).1 := by
  have h := lookup_sameVotes s c (spaceOf (s.core c).ptbr) va
  unfold fetchWord
  dsimp only
  split
  · exact h
  · exact h
  split
  · exact h
  split
  · exact h
  · exact h.trans (SameVotes.of_threads rfl rfl)

theorem fetchWords_sameVotes (c : Nat) (user : Bool) (n : Nat) (s : State) (va : W64) : SameVotes s (fetchWords s c user va n).1 := by
  induction n generalizing s va with
  | zero => exact SameVotes.refl s
  | succ n ih =>
    have h := fetchWord_sameVotes s c user va
    unfold fetchWords
    dsimp only
    split
    · exact h.trans (ih _ _)
    · exact h

/-- A line's watches are re-read at once: no more than that happens to a thread (R155). -/
theorem wakeWatch_sameVotes (s : State) (line : Nat) : SameVotes s (wakeWatch s line) := by
  have h : ∀ t, (wakeWatch s line).thr t = s.thr t ∨ ∃ hold, (wakeWatch s line).thr t = { s.thr t with hold := hold } := by
    intro t
    unfold wakeWatch State.thr tgetD
    dsimp only
    rw [tget_map _ (by intro p; split <;> rfl)]
    cases tget t s.threads with
    | none => exact .inl rfl
    | some x =>
      simp only [Option.map_some, Option.getD_some]
      split
      · exact .inr ⟨_, rfl⟩
      · exact .inl rfl
  refine ⟨rfl, fun t => ?_, fun t => ?_, fun t => ?_⟩ <;> obtain e | ⟨_, e⟩ := h t <;> rw [e]

theorem homeWrite_sameVotes (s : State) (by_ : Option Nat) (w : Nat) (v : Val) : SameVotes s (homeWrite s by_ w v) := by
  unfold homeWrite
  dsimp only
  refine SameVotes.trans (SameVotes.of_threads ?_ ?_) (wakeWatch_sameVotes ..) <;> split <;> split <;> rfl

theorem homeNum_sameVotes (s : State) (by_ : Option Nat) (pa v n : Nat) : SameVotes s (homeNum s by_ pa v n) := by
  have h : ∀ (vs : List Val) (s : State) (w : Nat), SameVotes s (homeWrites s by_ w vs) := by
    intro vs
    induction vs with
    | nil => exact fun s _ => SameVotes.refl s
    | cons v vs ih => exact fun s w => (homeWrite_sameVotes s by_ w v).trans (ih _ _)
  exact h _ s _

theorem raiseVector_sameVotes (s : State) (v : Nat) : SameVotes s (raiseVector s v) := SameVotes.of_threads rfl rfl

theorem pageRequest_sameVotes (s : State) (c asid page : Nat) (store fetch : Bool) : SameVotes s (pageRequest s c asid page store fetch) := by
  unfold pageRequest
  dsimp only
  split
  · exact SameVotes.refl s
  split
  · exact SameVotes.refl s
  · exact ((((SameVotes.modDie ..).trans (homeNum_sameVotes ..)).trans (homeNum_sameVotes ..)).trans (homeNum_sameVotes ..)).trans
      (raiseVector_sameVotes ..)

/-- A pack that waits for the page of its clause (R189). -/
theorem pageBlock_sameVotes (s : State) (c asid page : Nat) (pack : List Tid) :
    SameVotes s (if pageRoom s c asid page then
      pack.foldl (fun s t => s.modThr t fun x => { x with hold := { x.hold with fetch := some { asid := asid, page := page } } })
        (pageRequest s c asid page false true) else s) := by
  split
  · refine (pageRequest_sameVotes ..).trans (SameVotes.foldl_modThr ?_ ?_ ?_ ..) <;> exact fun _ => rfl
  · exact SameVotes.refl s

/-- A pack goes onto its port, or waits for a page, with its votes as they were. -/
theorem fillPort_sameVotes (s : State) (k : Nat) (pack : List Tid) (addr : W64) (widx : Nat) (resumed : Bool) :
    SameVotes s (fillPort s k pack addr widx resumed) := by
  have hf := fetchWord_sameVotes s (coreOf (pack.headD 0)) (anyUser s pack) addr
  have hw := fun n => hf.trans (fetchWords_sameVotes (coreOf (pack.headD 0)) (anyUser s pack) n
    (fetchWord s (coreOf (pack.headD 0)) (anyUser s pack) addr).1 (addr + 8))
  unfold fillPort
  dsimp only
  split
  · refine SameVotes.trans (SameVotes.foldl_modThr ?_ ?_ ?_ ..) (SameVotes.setPort ..) <;> exact fun _ => rfl
  split
  · exact hf.trans (pageBlock_sameVotes ..)
  · exact hf.trans (SameVotes.setPort ..)
  split
  · exact hf.trans (SameVotes.setPort ..)
  split
  · exact (hw _).trans (pageBlock_sameVotes ..)
  · exact (hw _).trans (SameVotes.setPort ..)
  · refine ((hw _).trans (SameVotes.setPort ..)).trans (SameVotes.foldl_modThr ?_ ?_ ?_ ..) <;> exact fun _ => rfl

theorem startA_sameVotes (s : State) (l : Nat) : SameVotes s (startA s l) := by
  unfold startA
  split
  · split
    · exact SameVotes.of_threads rfl rfl
    · exact SameVotes.refl s
  · exact SameVotes.refl s

/-- The ready threads that vote for lane l. -/
def readyThreads (s : State) (l : Nat) : List Tid := (laneThreads s l).filter fun t => ready s t

/-- Those of them that a vote may choose: a demoted thread only where every one is (R97). -/
def eligibleThreads (s : State) (ts : List Tid) : List Tid :=
  if (ts.filter fun t => (s.thr t).demote == 0) = [] then ts else ts.filter fun t => (s.thr t).demote == 0

theorem choose_ne_nil {s : State} {l : List Tid} {c : Tid × Thread} (h : choose s l = some c) : l ≠ [] := by
  rintro rfl
  cases h

theorem eligibleThreads_nil (s : State) : eligibleThreads s [] = [] := rfl

/-- A vote that chooses a pack counts itself, passes over the lane's threads, and has the pack's clause fetched (R93, R97, R98). -/
theorem vote_chosen {s : State} {l : Nat} {b : Bool} (hk : tget (voteLane s l * 2 + if b then 1 else 0) s.ports = none)
    (hr : running s (voteLane s l / 16) = true) (hA : b = true → (tget (voteLane s l * 2) s.ports).isSome = true) {c : Tid × Thread}
    (hc : choose s (eligibleThreads s (readyThreads s (voteLane s l))) = some c) :
    ∃ pack, SameVotes (votedState s (laneThreads s (voteLane s l)) (readyThreads s (voteLane s l))
      (eligibleThreads s (readyThreads s (voteLane s l))) pack) (vote s l b) := by
  have hfree : ((tget (voteLane s l * 2 + if b then 1 else 0) s.ports).isSome || !running s (voteLane s l / 16)
      || (b && (tget (voteLane s l * 2) s.ports).isNone)) = false := by
    rw [hk, hr]
    cases b
    · rfl
    · simpa [Option.isSome_iff_ne_none] using hA rfl
  have hrd : (readyThreads s (voteLane s l)).isEmpty = false := by
    rw [List.isEmpty_eq_false_iff]
    intro h
    exact choose_ne_nil hc (by rw [h, eligibleThreads_nil])
  refine ⟨(eligibleThreads s (readyThreads s (voteLane s l))).filter fun t => (s.thr t).pc == c.2.pc && (s.thr t).hdr == c.2.hdr, ?_⟩
  unfold vote
  unfold readyThreads eligibleThreads at *
  simp only [hfree, hrd, Bool.false_eq_true, if_false, List.isEmpty_iff, hc, foldl_voted]
  cases c.2.hdr with
  | none => exact (fillPort_sameVotes ..).trans (startA_sameVotes ..)
  | some h => exact (fillPort_sameVotes ..).trans (startA_sameVotes ..)

/-! ### Bins and throttling (R88, R108) -/

theorem tget_zipIdx {α : Type} (l : List α) (n j : Nat) : tget j ((l.zipIdx n).map fun p => (p.2, p.1)) = if n ≤ j then l[j - n]? else none := by
  induction l generalizing n with
  | nil => simp [tget]
  | cons a l ih =>
    rw [List.zipIdx_cons, List.map_cons]
    unfold tget
    dsimp only
    rw [ih]
    split
    · rename_i h; subst h; simp
    · rename_i h
      by_cases hn : n ≤ j
      · have h1 : n + 1 ≤ j := by omega
        have h2 : j - n = (j - (n + 1)) + 1 := by omega
        rw [if_pos h1, if_pos hn, h2, List.getElem?_cons_succ]
      · rw [if_neg hn, if_neg (by omega)]

/-- A bin at the end of an epoch: half its score, and allowed where throttling is off (R108). -/
theorem epochBins_get (x : Core) {j : Nat} (hj : j < 16) : ∃ b, (epochBins x)[j]? = some b
    ∧ b.score = (tgetD j {} x.bins).score / 2 ∧ (bitsOf x.schcfg.toNat 15 12 = 0 → b.allowed = true) := by
  unfold epochBins
  simp only [List.getElem?_map, List.getElem?_zipIdx, List.getElem?_range hj, Option.map_some, Option.some.injEq, exists_eq_left']
  exact ⟨trivial, fun h => by simp [h]⟩

theorem throttleEpoch_due {s : State} {c : Nat} (h : (s.core c).epochAt + 4096 ≤ s.cyc c) :
    ∃ t, exec (.throttleEpoch c) s = .next t ∧ (t.core c).epochAt = s.cyc c
      ∧ ∀ j < 16, (tgetD j {} (t.core c).bins).score = (tgetD j {} (s.core c).bins).score / 2
        ∧ (bitsOf (s.core c).schcfg.toNat 15 12 = 0 → (tgetD j {} (t.core c).bins).allowed = true) := by
  refine ⟨_, congrArg Host.Outcome.next (if_pos (decide_eq_true h)), by simp, fun j hj => ?_⟩
  obtain ⟨b, hb, hs, ha⟩ := epochBins_get (s.core c) hj
  have hg : tgetD j {} ((s.modCore c fun x => { x with bins := (epochBins x).zipIdx.map fun p => (p.2, p.1), epochAt := s.cyc c }).core c).bins = b := by
    rw [State.core_modCore, tgetD, tget_zipIdx]
    simp [hb]
  rw [hg]
  exact ⟨hs, ha⟩

theorem binTimerExpiry_due {s : State} {c i : Nat} (hr : (tgetD i {} (s.core c).bins).recs ≠ []) (he : (tgetD i {} (s.core c).bins).expired = false)
    (ho : (tgetD i {} (s.core c).bins).opened + (s.core c).schcfg.toNat % 2 ^ 12 ≤ s.now) :
    exec (.binTimerExpiry c i) s
      = .next (s.modCore c fun x => { x with bins := tset i { tgetD i {} (s.core c).bins with expired := true } x.bins }) := by
  have hd : binDue s c i = true := by
    simp only [binDue, timerOver, Bool.and_eq_true]
    exact ⟨⟨by simp [hr], by simp [he]⟩, decide_eq_true ho⟩
  exact congrArg Host.Outcome.next (if_pos hd)

/-! ### Late results (R132, R194, R200, R232) -/

/-- The request that a late result's event names is the one due, where its kind is the event's. -/
theorem reqDue_eq {s : State} {c id : Nat} {r : Req} {k : ReqKind → Bool} (hf : ((s.core c).reqs.find? fun q => q.id == id) = some r)
    (hd : r.due ≤ s.now) (hk : k r.kind = true) : reqDue s c id k = some r := by
  obtain ⟨hp, as, bs, hl, hn⟩ := List.find?_eq_some_iff_append.1 hf
  refine List.find?_eq_some_iff_append.2 ⟨by simp [hp, hk, hd], as, bs, hl, fun a ha => ?_⟩
  have hne : (a.id == id) = false := by simpa using hn a ha
  simp [hne]

/-- The late write of the request that has an id: it leaves the list, its marks clear, and its pieces are written in order (R132, R200). -/
theorem finishReq_eq {s : State} {c id : Nat} {r : Req} (hf : ((s.core c).reqs.find? fun q => q.id == id) = some r) :
    finishReq s c id = r.pieces.foldl (fun s p => writePiece s r.lead r.tids r.pc p)
      { (s.modCore c fun x => { x with reqs := x.reqs.filter fun q => q.id != id }) with
        threads := s.threads.map fun p => if coreOf p.1 = c then (p.1, p.2.clearPend id none) else p } := by
  unfold finishReq
  rw [hf]
  rfl

theorem exec_loadReply {s : State} {c id : Nat} {r : Req} (hf : ((s.core c).reqs.find? fun q => q.id == id) = some r) (hd : r.due ≤ s.now)
    (hk : r.kind = .load ∨ (r.kind = .atom ∧ acked s c = true)) : exec (.loadReply c id) s = .next (finishReq s c id) := by
  have hr := reqDue_eq (k := fun k => k == .load || (k == .atom && acked s c)) hf hd (by
    obtain h | ⟨h, ha⟩ := hk
    · rw [h]; rfl
    · rw [h, ha]; rfl)
  exact congrArg Host.Outcome.next (if_pos (by rw [hr]; rfl))

theorem exec_multiCycleResult {s : State} {c id : Nat} {r : Req} (hf : ((s.core c).reqs.find? fun q => q.id == id) = some r) (hd : r.due ≤ s.now)
    (hk : r.kind = .multi) : exec (.multiCycleResult c id) s = .next (finishReq s c id) := by
  have hr := reqDue_eq (k := fun k => k == .multi) hf hd (by rw [hk]; rfl)
  exact congrArg Host.Outcome.next (if_pos (by rw [hr]; rfl))

theorem exec_storeFillReturn {s : State} {c id : Nat} {r : Req} (hf : ((s.core c).reqs.find? fun q => q.id == id) = some r) (hd : r.due ≤ s.now)
    {key v : Nat} {m : BitVec 4} {evf : Bool} (hk : r.kind = .fill key m v evf) : exec (.storeFillReturn c id) s = .next (fillReturn s c r) := by
  refine congrArg Host.Outcome.next ?_
  rw [reqDue_eq hf hd]
  rw [hk]

/-- A store into a valid word: clean bytes go into a clean one, and part of a poisoned one takes none (R194, R200). -/
theorem store_clean (e : L1Word) {o : Nat} (he : e.val = .ok o) (now : Nat) (m : BitVec 4) (v : Nat) (evf : Bool) :
    e.store now m (.ok v) evf = { e with val := maskWord e.val m (.ok v), dirty := some (e.dirty.getD now), evf := e.evf || evf } := by
  unfold L1Word.store
  rw [he]

theorem store_poisoned (e : L1Word) {k : Tok} (he : e.val = .bad k) (now : Nat) {m : BitVec 4} (hm : m ≠ 0xF) (v : Nat) (evf : Bool) :
    e.store now m (.ok v) evf = e := by
  unfold L1Word.store
  simp only [he, if_neg hm]

/-- What a fill brings: the word, and where it is valid then, its store's bytes in it (R194). -/
theorem fillReturn_eq {s : State} {c : Nat} {r : Req} {key v : Nat} {m : BitVec 4} {evf : Bool} (hk : r.kind = .fill key m v evf) :
    let gone := s.modCore c fun x => { x with reqs := x.reqs.filter fun q => q.id != r.id }
    let f := fillWord gone c key (gone.thr r.lead).bin evf
    (m = 0 → fillReturn s c r = f)
    ∧ (m ≠ 0 → ∀ e, tget key (f.core c).l1 = some e → tget key ((fillReturn s c r).core c).l1 = some (e.store f.now m (.ok v) evf)) := by
  unfold fillReturn
  simp only [hk]
  refine ⟨fun h => if_pos h, fun h e he => ?_⟩
  rw [if_neg h, State.core_modCore, he]
  exact tget_tset_self ..

/-! ### The L1's timer and messages (R225, R226) -/

theorem exec_writebackTimer {s : State} {c w d : Nat} {e : L1Word} (he : tget w (s.core c).l1 = some e) (hd : e.dirty = some d)
    (hn : d + 4096 ≤ s.now) : exec (.writebackTimer c w) s = .next (writeBackKeys s c false [w, pairOf w]) := by
  have ho : wordOld s e = true := by simp only [wordOld, hd, decide_eq_true_eq]; exact hn
  refine congrArg Host.Outcome.next ?_
  rw [he]
  exact if_pos ho

/-- A change of a core by what one of its words is. -/
theorem modCore_found {s : State} {c w : Nat} {e : L1Word} (he : tget w (s.core c).l1 = some e) (f : L1Word → Core → Core) (g : Core → Core)
    (hg : ∀ x, tget w x.l1 = some e → g x = f e x) : s.modCore c g = s.modCore c (f e) := by
  unfold State.modCore
  rw [hg _ he]

theorem exec_clusterInvalidation {s : State} {c w : Nat} {e : L1Word} {m : Msg} (he : tget w (s.core c).l1 = some e)
    (hm : findMsg s .inval c w = some m) : exec (.clusterInvalidation c w) s
      = .next (dropMsg (s.modCore c fun x => if e.dirty.isSome then x else { x with l1 := tdel w x.l1 }) m) := by
  refine congrArg Host.Outcome.next ?_
  rw [hm]
  exact congrArg (fun u => dropMsg u m) (modCore_found he (fun e x => if e.dirty.isSome then x else { x with l1 := tdel w x.l1 }) _ fun x hx => by
    rw [hx])

theorem exec_revoke {s : State} {c w : Nat} {e : L1Word} {m : Msg} (he : tget w (s.core c).l1 = some e)
    (hm : findMsg s .revoke c w = some m) :
    exec (.revoke c w) s = .next (dropMsg (s.modCore c fun x => { x with l1 := tset w { e with owned := false } x.l1 }) m) := by
  refine congrArg Host.Outcome.next ?_
  rw [hm]
  exact congrArg (fun u => dropMsg u m) (modCore_found he (fun e x => { x with l1 := tset w { e with owned := false } x.l1 }) _ fun x hx => by
    rw [hx])

/-! ### Timed waits and host stores (R154, R155, R232) -/

theorem exec_sleepExpiry {s : State} {T : Tid} {e : Nat} (he : (s.thr T).hold.sleep = some e) (hn : e ≤ s.now) :
    exec (.sleepExpiry T) s = .next ((awake s).modThr T fun x => { x with hold := { x.hold with sleep := none } }) := by
  refine congrArg Host.Outcome.next ?_
  rw [he]
  exact if_pos hn

theorem watchNow_due {s : State} {T : Tid} {w : Watch} (hw : (s.thr T).hold.watch = some w) (hd : w.due ≤ s.now) (ha : w.asked = false)
    (hf : ∀ u ∈ watchMates s w, acqBusy s u 5 = false) : watchNow s T = true := by
  have hm : ((watchMates s w).any fun u => acqBusy s u 5) = false := by simpa using hf
  simp [watchNow, hw, hd, ha, hm]

theorem exec_hostStoreCompletion {s : State} {c id : Nat} (h : hostStoreCore s id = some c) : exec (.hostStoreCompletion id) s
    = .next (s.modCore c fun x => { x with reqs := x.reqs.filter fun q => !(q.id == id && q.kind == .hostStore) }) := by
  refine congrArg Host.Outcome.next ?_
  rw [h]

/-- Settles O46: one lemma per event; a vote's clause is `vote_chosen` with what `votedThread` does to one thread of the lane. -/
theorem threadEngineEvents : Obligations.ThreadEngineEvents := by
  refine ⟨fun s l b hk hr hA c hc => ?vote, fun s c i => ⟨binTimerExpiry_due, fun t ht => ?place, throttleEpoch_due⟩,
    fun s T => ⟨fun e => exec_sleepExpiry, fun w hw hd ha hf => ?watch⟩,
    fun s c id r hf hd => ⟨fun hk => ?load, fun hk => ?multi, fun key m v evf hk e he => ?fill, fun hc => ?host⟩,
    fun s c w e he => ⟨fun d => exec_writebackTimer he, fun m => ⟨exec_clusterInvalidation he, exec_revoke he⟩⟩⟩
  case vote =>
    obtain ⟨pack, hv⟩ := vote_chosen hk hr hA hc
    have hthr : ∀ x ∈ laneThreads s (voteLane s l), _ := fun x hx =>
      votedState_thr (readyThreads s (voteLane s l)) (eligibleThreads s (readyThreads s (voteLane s l))) pack (laneThreads_nodup s _) hx
        (laneThreads_live hx)
    refine ⟨_, rfl, hv.count.trans (votedState_voteCtr ..), fun x hx => ⟨?_, fun hnr hfr => ?_⟩⟩
    · rw [hv.demote, hthr x hx]
      exact votedThread_demote ..
    · rw [hv.age, hv.forced, hthr x hx]
      refine votedThread_unready (fun h => ?_) hfr
      rw [(List.mem_filter.1 h).2] at hnr
      cases hnr
  case place => exact congrArg (fun o : Option State => Host.Outcome.next (o.getD s)) ht
  case watch =>
    have hn := watchNow_due hw hd ha hf
    exact ⟨congrArg Host.Outcome.next (if_pos hn), congrArg Host.Outcome.next (if_pos hn)⟩
  case load => rw [exec_loadReply hf hd hk, finishReq_eq hf]
  case multi => rw [exec_multiCycleResult hf hd hk, finishReq_eq hf]
  case fill =>
    have hid : r.id = id := by simpa using List.find?_some hf
    subst hid
    obtain ⟨h0, h1⟩ := fillReturn_eq (s := s) (c := c) hk
    refine ⟨_, exec_storeFillReturn hf hd hk, fun o ho hm => ?_, fun k hb hm => ?_, h0⟩
    · rw [h1 hm e he, store_clean e ho]
    · by_cases hz : m = 0
      · rw [h0 hz, he]
      · rw [h1 hz e he, store_poisoned e hb _ hm]
  case host => exact ⟨_, exec_hostStoreCompletion hc, by rw [State.core_modCore]⟩

end Sys2Proof.Machine
end

section
/-! Register words: what the write of slices leaves in them, and what the words leave unchanged (R95, R110, R116, R131, R132, R199). -/

namespace Sys2Proof.Machine

/-! ### Bits of slices (R109) -/

theorem setSlices_getLsbD (b : BitVec 2048) (lo n v : Nat) {i : Nat} (hi : i < 2048) :
    (setSlices b lo n v).getLsbD i = if 4 * lo ≤ i ∧ i < 4 * (lo + n) then v.testBit (i - 4 * lo) else b.getLsbD i := by
  unfold setSlices
  simp only [BitVec.getLsbD_or, BitVec.getLsbD_and, BitVec.getLsbD_not, BitVec.getLsbD_shiftLeft, BitVec.getLsbD_ofNat,
    Nat.testBit_two_pow_sub_one, Nat.testBit_mod_two_pow, hi, decide_true, Bool.true_and]
  by_cases h1 : i < 4 * lo
  · have h2 : ¬ (4 * lo ≤ i ∧ i < 4 * (lo + n)) := by omega
    simp [h1, h2]
  · have h3 : i - 4 * lo < 2048 := by omega
    by_cases h4 : i - 4 * lo < 4 * n
    · have h2 : 4 * lo ≤ i ∧ i < 4 * (lo + n) := by omega
      simp [h1, h2, h3, h4]
    · have h2 : ¬ (4 * lo ≤ i ∧ i < 4 * (lo + n)) := by omega
      simp [h1, h2, h3, h4]

theorem bits_testBit (x : Thread) (lo n i : Nat) : (x.bits lo n).testBit i = (decide (i < 4 * n) && x.slices.getLsbD (4 * lo + i)) := by
  simp [Thread.bits, Nat.testBit_mod_two_pow, Nat.testBit_shiftRight, BitVec.getLsbD]

theorem bits_congr {x y : Thread} {lo n : Nat} (h : ∀ i < 4 * n, x.slices.getLsbD (4 * lo + i) = y.slices.getLsbD (4 * lo + i)) :
    x.bits lo n = y.bits lo n := by
  refine Nat.eq_of_testBit_eq fun i => ?_
  rw [bits_testBit, bits_testBit]
  by_cases hi : i < 4 * n
  · rw [h i hi]
  · simp [hi]

/-! ### One granule's write (R199) -/

theorem tget_tdel_ne {α : Type} {k j : Nat} (h : j ≠ k) (l : Tbl α) : tget j (tdel k l) = tget j l := by
  induction l with
  | nil => rfl
  | cons p l ih =>
    obtain ⟨i, a⟩ := p
    unfold tdel
    split
    · rename_i e
      simp [tget, e, h.symm]
    · simp [tget, ih]

theorem tdel_absent {α : Type} {k : Nat} {l : Tbl α} (h : tget k l = none) : tdel k l = l := by
  induction l with
  | nil => rfl
  | cons p l ih =>
    obtain ⟨i, a⟩ := p
    by_cases e : i = k
    · simp [tget, e] at h
    · simp only [tget, e, if_false] at h
      simp [tdel, e, ih h]

/-- A write touches slices and tags, and no other field of its thread. -/
theorem putGran_fields (x : Thread) (g lo n : Nat) (v : Val) : ∃ b tags, x.putGran g lo n v = { x with slices := b, tags := tags } := by
  unfold Thread.putGran
  cases v with
  | bad k => exact ⟨_, _, rfl⟩
  | ok w =>
    dsimp only
    split
    · exact ⟨_, _, rfl⟩
    · exact ⟨_, _, rfl⟩

theorem putGrans_fields (x : Thread) (g m lo n : Nat) (v : Val) : ∃ b tags, x.putGrans g m lo n v = { x with slices := b, tags := tags } := by
  induction m generalizing x g with
  | zero => exact ⟨_, _, rfl⟩
  | succ m ih =>
    obtain ⟨b, tags, h⟩ := putGran_fields x g lo n v
    obtain ⟨b', tags', h'⟩ := ih (x.putGran g lo n v) (g + 1)
    exact ⟨b', tags', h'.trans (by rw [h])⟩

/-- The write of granule g leaves every other granule. -/
theorem putGran_other (x : Thread) {g h : Nat} (lo n : Nat) (v : Val) (hne : h ≠ g) :
    tget h (x.putGran g lo n v).tags = tget h x.tags ∧ (x.putGran g lo n v).bits (8 * h) 8 = x.bits (8 * h) 8 := by
  have hs : ∀ (y : Thread) (b m w : Nat), m = 0 ∨ (8 * g ≤ b ∧ b + m ≤ 8 * g + 8) → y.slices = setSlices x.slices b m w →
      y.bits (8 * h) 8 = x.bits (8 * h) 8 := by
    intro y b m w hb hy
    refine bits_congr fun i hi => ?_
    by_cases hlt : 4 * (8 * h) + i < 2048
    · rw [hy, setSlices_getLsbD _ _ _ _ hlt, if_neg (by omega)]
    · rw [BitVec.getLsbD_of_ge _ _ (by omega), BitVec.getLsbD_of_ge _ _ (by omega)]
  unfold Thread.putGran
  cases v with
  | bad k => exact ⟨tget_tset_ne _ _ _ _ hne, hs _ _ _ _ (.inr ⟨le_rfl, le_rfl⟩) rfl⟩
  | ok w =>
    dsimp only
    split
    · exact ⟨rfl, rfl⟩
    · exact ⟨tget_tdel_ne hne _, hs _ _ _ _ (by omega) rfl⟩

theorem putGrans_other (x : Thread) {g m h : Nat} (lo n : Nat) (v : Val) (hne : h < g ∨ g + m ≤ h) :
    tget h (x.putGrans g m lo n v).tags = tget h x.tags ∧ (x.putGrans g m lo n v).bits (8 * h) 8 = x.bits (8 * h) 8 := by
  induction m generalizing x g with
  | zero => exact ⟨rfl, rfl⟩
  | succ m ih =>
    obtain ⟨h1, h2⟩ := putGran_other x lo n v (g := g) (h := h) (by omega)
    obtain ⟨h3, h4⟩ := ih (x.putGran g lo n v) (g := g + 1) (by omega)
    exact ⟨h3.trans h1, h4.trans h2⟩

/-- Of several granules' writes, granule h is left by its own: p holds of what that leaves in it. -/
theorem putGrans_at {x : Thread} {g m h lo n : Nat} {v : Val} (p : Option Tok → Nat → Prop) (hg : g ≤ h) (hm : h < g + m)
    (hp : ∀ y : Thread, tget h y.tags = tget h x.tags → y.bits (8 * h) 8 = x.bits (8 * h) 8 →
      p (tget h (y.putGran h lo n v).tags) ((y.putGran h lo n v).bits (8 * h) 8)) :
    p (tget h (x.putGrans g m lo n v).tags) ((x.putGrans g m lo n v).bits (8 * h) 8) := by
  induction m generalizing x g with
  | zero => omega
  | succ m ih =>
    by_cases e : h = g
    · subst e
      obtain ⟨h1, h2⟩ := putGrans_other (x.putGran h lo n v) (g := h + 1) (m := m) (h := h) lo n v (by omega)
      unfold Thread.putGrans
      rw [h1, h2]
      exact hp x rfl rfl
    · obtain ⟨h1, h2⟩ := putGran_other x lo n v e
      exact ih (x := x.putGran g lo n v) (g := g + 1) (by omega) (by omega) fun y ht hb => hp y (ht.trans h1) (hb.trans h2)

/-! ### The write of slices (R199) -/

theorem put_fields (x : Thread) (lo n : Nat) (v : Val) : ∃ b tags, x.put lo n v = { x with slices := b, tags := tags } := putGrans_fields ..

/-- A granule that the slices do not touch is left. -/
theorem put_other (x : Thread) {lo n h : Nat} (v : Val) (hn : 0 < n) (hh : 8 * h + 8 ≤ lo ∨ lo + n ≤ 8 * h) :
    tget h (x.put lo n v).tags = tget h x.tags ∧ (x.put lo n v).bits (8 * h) 8 = x.bits (8 * h) 8 :=
  putGrans_other x lo n v (by unfold granSpan; omega)

/-- A poisoned write leaves its token in every granule it touches. -/
theorem put_bad (x : Thread) {lo n h : Nat} (k : Tok) (hn : 0 < n) (hl : lo + n ≤ 512) (h1 : lo / 8 ≤ h) (h2 : h ≤ (lo + n - 1) / 8) :
    tget h (x.put lo n (.bad k)).tags = some k ∧ (x.put lo n (.bad k)).bits (8 * h) 8 = k.toNat := by
  refine putGrans_at (fun t b => t = some k ∧ b = k.toNat) h1 (by unfold granSpan; omega) fun y _ _ => ?_
  refine ⟨tget_tset_self .., Nat.eq_of_testBit_eq fun i => ?_⟩
  rw [bits_testBit]
  by_cases hi : i < 4 * 8
  · have hs : (y.putGran h lo n (.bad k)).slices = setSlices y.slices (8 * h) 8 k.toNat := rfl
    rw [hs, setSlices_getLsbD _ _ _ _ (by omega), if_pos (by omega), Nat.add_sub_cancel_left]
    simp [hi]
  · have hk : k.toNat.testBit i = false := Nat.testBit_lt_two_pow (k.isLt.trans_le (Nat.pow_le_pow_right (by omega) (by omega)))
    simp [hi, hk]

/-- A clean write of part of a poisoned granule leaves the granule. -/
theorem put_ok_part (x : Thread) {lo n h : Nat} (v : Nat) {k : Tok} (h1 : lo / 8 ≤ h) (h2 : h ≤ (lo + n - 1) / 8)
    (hk : tget h x.tags = some k) (hp : 8 * h < lo ∨ lo + n < 8 * h + 8) :
    tget h (x.put lo n (.ok v)).tags = some k ∧ (x.put lo n (.ok v)).bits (8 * h) 8 = x.bits (8 * h) 8 := by
  refine putGrans_at (fun t b => t = some k ∧ b = x.bits (8 * h) 8) h1 (by unfold granSpan; omega) fun y ht hb => ?_
  have hz : min (lo + n) (8 * h + 8) - max lo (8 * h) ≠ 8 := by omega
  have hy : y.putGran h lo n (.ok v) = y := by
    unfold Thread.putGran
    simp [ht, hk, hz]
  rw [hy]
  exact ⟨ht.trans hk, hb⟩

/-- A clean write of a granule without poison. -/
theorem putGran_ok {x : Thread} {g n : Nat} (lo v : Nat) (hg : tget g x.tags = none) :
    x.putGran g lo n (.ok v) = { x with
      slices := setSlices x.slices (max lo (8 * g)) (min (lo + n) (8 * g + 8) - max lo (8 * g)) (v >>> (4 * (max lo (8 * g) - lo))) } := by
  unfold Thread.putGran
  simp [hg, tdel_absent hg]

/-- A clean write of granules without poison leaves the tags, and the value's bits in the slices. -/
theorem putGrans_ok (x : Thread) {g m lo n : Nat} (v : Nat) (ht : ∀ h, g ≤ h → h < g + m → tget h x.tags = none) :
    (x.putGrans g m lo n (.ok v)).tags = x.tags
    ∧ ∀ i < 2048, (x.putGrans g m lo n (.ok v)).slices.getLsbD i
      = if 4 * max lo (8 * g) ≤ i ∧ i < 4 * min (lo + n) (8 * (g + m)) then v.testBit (i - 4 * lo) else x.slices.getLsbD i := by
  induction m generalizing x g with
  | zero =>
    refine ⟨rfl, fun i _ => ?_⟩
    rw [if_neg (by omega)]
    rfl
  | succ m ih =>
    have hg : tget g x.tags = none := ht g le_rfl (by omega)
    have hx := putGran_ok (n := n) lo v hg
    obtain ⟨h1, h2⟩ := ih (x.putGran g lo n (.ok v)) (g := g + 1) (by
      rw [hx]
      exact fun h hl hu => ht h (by omega) (by omega))
    unfold Thread.putGrans
    refine ⟨h1.trans (by rw [hx]), fun i hi => ?_⟩
    rw [h2 i hi, hx, setSlices_getLsbD _ _ _ _ hi, Nat.testBit_shiftRight]
    by_cases ha : 4 * max lo (8 * g) ≤ i ∧ i < 4 * (max lo (8 * g) + (min (lo + n) (8 * g + 8) - max lo (8 * g)))
    · have he : 4 * (max lo (8 * g) - lo) + (i - 4 * max lo (8 * g)) = i - 4 * lo := by omega
      rw [if_pos ha, he, ite_self, if_pos (by omega)]
    · rw [if_neg ha]
      by_cases hb : 4 * max lo (8 * (g + 1)) ≤ i ∧ i < 4 * min (lo + n) (8 * (g + 1 + m))
      · rw [if_pos hb, if_pos (by omega)]
      · rw [if_neg hb, if_neg (by omega)]

theorem put_ok (x : Thread) {lo n : Nat} (v : Nat) (hn : 0 < n) (hl : lo + n ≤ 512)
    (ht : ∀ h, lo / 8 ≤ h → h ≤ (lo + n - 1) / 8 → tget h x.tags = none) :
    (x.put lo n (.ok v)).tags = x.tags ∧ (x.put lo n (.ok v)).bits lo n = v % 2 ^ (4 * n)
    ∧ ∀ i, i < lo ∨ lo + n ≤ i → (x.put lo n (.ok v)).bits i 1 = x.bits i 1 := by
  obtain ⟨h1, h2⟩ := putGrans_ok x (g := lo / 8) (m := granSpan lo n) (lo := lo) (n := n) v fun h hl hu => ht h hl (by unfold granSpan at hu; omega)
  have hspan : max lo (8 * (lo / 8)) = lo ∧ min (lo + n) (8 * (lo / 8 + granSpan lo n)) = lo + n := by unfold granSpan; omega
  rw [hspan.1, hspan.2] at h2
  refine ⟨h1, Nat.eq_of_testBit_eq fun i => ?_, fun i hi => bits_congr fun j hj => ?_⟩
  · rw [bits_testBit, Nat.testBit_mod_two_pow]
    by_cases hi : i < 4 * n
    · have h := h2 (4 * lo + i) (by omega)
      rw [if_pos (by omega), Nat.add_sub_cancel_left] at h
      exact congrArg _ h
    · simp [hi]
  · by_cases hlt : 4 * i + j < 2048
    · exact (h2 _ hlt).trans (if_neg (by omega))
    · rw [BitVec.getLsbD_of_ge _ _ (by omega), BitVec.getLsbD_of_ge _ _ (by omega)]

theorem pred_setPred (x : Thread) {p q : Nat} (v : Bool) (hq : q < 8) (hne : q ≠ p) : (x.setPred p v).pred q = x.pred q := by
  unfold Thread.setPred Thread.pred
  by_cases hp : p < 7
  · by_cases h7 : q = 7
    · simp [h7]
    · have hq7 : q < 7 := by omega
      have h1 : ∀ b : BitVec 7, b = 1 ∨ b = 0 → (b <<< p).getLsbD q = false := by
        intro b hb
        rw [BitVec.getLsbD_shiftLeft]
        by_cases hlt : q < p
        · simp [hlt]
        · have hz : q - p ≠ 0 := by omega
          rcases hb with rfl | rfl <;> simp [BitVec.getLsbD_one, hz]
      have hv : (if v then (1 : BitVec 7) else 0) = 1 ∨ (if v then (1 : BitVec 7) else 0) = 0 := by cases v <;> simp
      rw [if_pos hp]
      simp only [BitVec.getLsbD_or, BitVec.getLsbD_and, BitVec.getLsbD_not, h1 _ (.inl rfl), h1 _ hv, hq7, decide_true, Bool.not_false, Bool.and_true,
        Bool.or_false]
  · rw [if_neg hp]

/-! ### What a register word leaves outside its thread and its core (R95) -/

/-- Outside core and thread T everything that is not a port is in t as in s. -/
structure SameOutside (s t : State) (T : Tid) : Prop where
  mem : t.mem = s.mem
  hostMem : t.hostMem = s.hostMem
  dies : t.dies = s.dies
  clusters : t.clusters = s.clusters
  now : t.now = s.now
  msgs : t.msgs = s.msgs
  comb : t.comb = s.comb
  fab : t.fab = s.fab
  host : t.host = s.host
  recs : t.recs = s.recs
  homes : t.homes = s.homes
  saves : t.saves = s.saves
  snaps : t.snaps = s.snaps
  thr : ∀ u, u ≠ T → t.thr u = s.thr u
  core : ∀ c, c ≠ coreOf T → t.core c = s.core c

namespace SameOutside

variable {s t u : State} {T : Tid}

theorem refl (s : State) (T : Tid) : SameOutside s s T :=
  ⟨rfl, rfl, rfl, rfl, rfl, rfl, rfl, rfl, rfl, rfl, rfl, rfl, rfl, fun _ _ => rfl, fun _ _ => rfl⟩

theorem trans (h : SameOutside s t T) (k : SameOutside t u T) : SameOutside s u T where
  mem := k.mem.trans h.mem
  hostMem := k.hostMem.trans h.hostMem
  dies := k.dies.trans h.dies
  clusters := k.clusters.trans h.clusters
  now := k.now.trans h.now
  msgs := k.msgs.trans h.msgs
  comb := k.comb.trans h.comb
  fab := k.fab.trans h.fab
  host := k.host.trans h.host
  recs := k.recs.trans h.recs
  homes := k.homes.trans h.homes
  saves := k.saves.trans h.saves
  snaps := k.snaps.trans h.snaps
  thr v hv := (k.thr v hv).trans (h.thr v hv)
  core c hc := (k.core c hc).trans (h.core c hc)

theorem modThr (s : State) (T : Tid) (f : Thread → Thread) : SameOutside s (s.modThr T f) T := by
  constructor <;> simp
  exact fun u hu => State.thr_modThr_ne s f hu

theorem modCur (s : State) (T : Tid) (f : Port → Port) : SameOutside s (s.modCur f) T := by
  constructor <;> simp

theorem modCore (s : State) (T : Tid) (f : Core → Core) : SameOutside s (s.modCore (coreOf T) f) T := by
  constructor <;> simp
  exact fun c hc => State.core_modCore_ne s f hc

/-- All of it, as O58 has it. -/
theorem all (h : SameOutside s t T) : t.mem = s.mem ∧ t.hostMem = s.hostMem ∧ t.dies = s.dies ∧ t.clusters = s.clusters ∧ t.now = s.now
    ∧ t.msgs = s.msgs ∧ t.comb = s.comb ∧ t.fab = s.fab ∧ t.host = s.host ∧ t.recs = s.recs ∧ t.homes = s.homes ∧ t.saves = s.saves
    ∧ t.snaps = s.snaps ∧ (∀ u, u ≠ T → t.thr u = s.thr u) ∧ ∀ c, c ≠ coreOf T → t.core c = s.core c :=
  ⟨h.mem, h.hostMem, h.dies, h.clusters, h.now, h.msgs, h.comb, h.fab, h.host, h.recs, h.homes, h.saves, h.snaps, h.thr, h.core⟩

end SameOutside

/-- Between s and t only core T has changed. -/
structure CoreOnly (s t : State) (T : Tid) : Prop extends SamePorts s t where
  outside : SameOutside s t T
  threads : t.threads = s.threads

/-- Of core T only the origin table has changed (R197). -/
structure OriginsOnly (s t : State) (T : Tid) : Prop extends CoreOnly s t T where
  org : t.core (coreOf T) = { s.core (coreOf T) with org := (t.core (coreOf T)).org, orgCur := (t.core (coreOf T)).orgCur }

namespace CoreOnly

variable {s t u : State} {T : Tid}

theorem trans (h : CoreOnly s t T) (k : CoreOnly t u T) : CoreOnly s u T where
  toSamePorts := h.toSamePorts.trans k.toSamePorts
  outside := h.outside.trans k.outside
  threads := k.threads.trans h.threads

theorem modCore (s : State) (T : Tid) (f : Core → Core) : CoreOnly s (s.modCore (coreOf T) f) T :=
  ⟨SamePorts.modCore .., SameOutside.modCore .., rfl⟩

end CoreOnly

namespace OriginsOnly

variable {s t u : State} {T : Tid}

theorem refl (s : State) (T : Tid) : OriginsOnly s s T := ⟨⟨SamePorts.refl s, SameOutside.refl s T, rfl⟩, rfl⟩

theorem trans (h : OriginsOnly s t T) (k : OriginsOnly t u T) : OriginsOnly s u T where
  toCoreOnly := h.toCoreOnly.trans k.toCoreOnly
  org := by
    rw [k.org, h.org]

theorem raiseAt (s : State) (T : Tid) (pc : W64) (k : Nat) (a : W64) : OriginsOnly s (raiseAt s T pc k a).1 T := by
  unfold Machine.raiseAt raiseIn
  dsimp only
  split
  · exact refl s T
  · exact ⟨CoreOnly.modCore s T fun _ => _, by rw [State.core_setCore]⟩

theorem read (r : Src) (s : State) (T : Tid) : OriginsOnly s (r.read s [T] T).1 T := by
  unfold Src.read readX settle
  split
  · exact refl s T
  · exact raiseAt ..
  · exact raiseAt ..

theorem readSrcs (rs : List Src) (s : State) (T : Tid) : OriginsOnly s (readSrcs [T] T rs s).1 T := by
  induction rs generalizing s with
  | nil => exact refl s T
  | cons r rs ih => exact (read r s T).trans (ih _)

theorem operated (s : State) (T : Tid) (rs : List Src) (f : List Nat → Res) : OriginsOnly (opened s T) (operated s T rs f).1 T := by
  have h := readSrcs rs (opened s T) T
  unfold Machine.operated
  dsimp only
  split
  · exact h
  split
  · exact h
  · exact h.trans (raiseAt ..)

end OriginsOnly

/-! ### What a register word leaves in its thread (R95, R116, R199) -/

/-- A change of thread T, by a word whose reads have changed no more than core T, and the word's end. -/
theorem ended_modThr {s w : State} {T : Tid} {x : Pfx} (h : Solo s T x) (hw : CoreOnly (opened s T) w T) (F : Thread → Thread) (cost : Nat) :
    ended (w.modThr T F) T none cost = (w.modThr T fun y => passed w.cur none (F y)).modCur (nextWord cost) := by
  obtain ⟨k, hk⟩ := Option.isSome_iff_exists.1 h.port
  have hc : w.cur = begin_ [T] s.cur := by rw [hw.cur, opened_cur h.port]
  have hi : (w.modThr T F).iss = some k := by rw [State.modThr_iss, hw.iss, opened_iss, hk]
  rw [ended_eq hi (by rw [State.cur_modThr, hc]; exact h.pack) (by rw [State.cur_modThr, hc]; exact h.fresh), State.cur_modThr, State.modThr_modThr]

/-- What such a word leaves: outside as before, its thread changed by F and passed on, core T as the reads left it. -/
theorem ended_frame {s w : State} {T : Tid} {x : Pfx} (h : Solo s T x) (hw : CoreOnly (opened s T) w T) (F : Thread → Thread) (cost : Nat) :
    SameOutside s (ended (w.modThr T F) T none cost) T
      ∧ (ended (w.modThr T F) T none cost).thr T = passed w.cur none (F (s.thr T))
      ∧ (ended (w.modThr T F) T none cost).core (coreOf T) = w.core (coreOf T) := by
  have hl : w.live T = true := by simp only [State.live, hw.threads, opened_threads]; exact h.live
  have ht : w.thr T = s.thr T := by simp only [State.thr, hw.threads, opened_threads]
  rw [ended_modThr h hw]
  refine ⟨?_, ?_, by simp⟩
  · exact (((SameOutside.modCur s T _).trans hw.outside).trans (SameOutside.modThr ..)).trans (SameOutside.modCur ..)
  · rw [State.thr_modCur, State.thr_modThr w _ hl, ht]

/-- Thread y is x but for its place, its predicates, its marks, and the granules that slices lo to lo + n − 1 touch. -/
def SameInside (lo n : Nat) (x y : Thread) : Prop :=
  y.xgran = x.xgran ∧ y.priv = x.priv ∧ y.hold = x.hold ∧ y.outst = x.outst ∧ y.leg = x.leg ∧ y.team = x.team
    ∧ ∀ h, (8 * h + 8 ≤ lo ∨ lo + n ≤ 8 * h) → tget h y.tags = tget h x.tags ∧ y.bits (8 * h) 8 = x.bits (8 * h) 8

/-- A thread passes on with its registers. -/
theorem passed_fields (p : Port) (g : Option Tgt) (x : Thread) : ∃ pc hdr a b d y,
    passed p g x = { x with pc := pc, hdr := hdr, carryA := a, carryB := b, demote := d, yields := y } := by
  rw [passed_eq, passOn_eq]
  exact ⟨_, _, _, _, _, _, rfl⟩

theorem SameInside.passed {lo n : Nat} {x y : Thread} (h : SameInside lo n x y) (p : Port) (g : Option Tgt) :
    SameInside lo n x (passed p g y) := by
  obtain ⟨_, _, _, _, _, _, e⟩ := passed_fields p g y
  rw [e]
  exact h

theorem passed_preds (p : Port) (g : Option Tgt) (x : Thread) : (passed p g x).preds = x.preds := by
  obtain ⟨_, _, _, _, _, _, e⟩ := passed_fields p g x
  rw [e]

theorem passed_slices (p : Port) (g : Option Tgt) (x : Thread) : (passed p g x).slices = x.slices := by
  obtain ⟨_, _, _, _, _, _, e⟩ := passed_fields p g x
  rw [e]

theorem passed_tags (p : Port) (g : Option Tgt) (x : Thread) : (passed p g x).tags = x.tags := by
  obtain ⟨_, _, _, _, _, _, e⟩ := passed_fields p g x
  rw [e]

theorem sameInside_put (x : Thread) {lo n : Nat} (v : Val) (hn : 0 < n) : SameInside lo n x (x.put lo n v) := by
  have h := fun h hh => put_other x (lo := lo) (n := n) (h := h) v hn hh
  obtain ⟨b, tags, e⟩ := put_fields x lo n v
  rw [e] at h ⊢
  exact ⟨rfl, rfl, rfl, rfl, rfl, rfl, h⟩

theorem put_preds (x : Thread) (lo n : Nat) (v : Val) : (x.put lo n v).preds = x.preds := by
  obtain ⟨b, tags, e⟩ := put_fields x lo n v
  rw [e]

theorem setPred_fields (x : Thread) (p : Nat) (v : Bool) : ∃ b, x.setPred p v = { x with preds := b } := by
  unfold Thread.setPred
  split
  · exact ⟨_, rfl⟩
  · exact ⟨_, rfl⟩

/-- The write of a result changes D's granules, or records a dropped write behind a fresh origin (R110, R199). -/
theorem wrote_frame (u : State) (T : Tid) {lo n : Nat} (v : Val) (hn : 0 < n) : ∃ w F, OriginsOnly u w T ∧ wrote u T lo n v = w.modThr T F
    ∧ ∀ x, SameInside lo n x (F x) ∧ (F x).preds = x.preds := by
  unfold wrote
  split
  · exact ⟨u, _, OriginsOnly.refl u T, rfl, fun x => ⟨sameInside_put x v hn, put_preds x lo n v⟩⟩
  · exact ⟨_, _, OriginsOnly.raiseAt .., rfl, fun x => ⟨⟨rfl, rfl, rfl, rfl, rfl, rfl, fun _ _ => ⟨rfl, rfl⟩⟩, rfl⟩⟩

/-- A late result takes a work item of the core and marks D pending in the thread (R132). -/
theorem addReq_frame (u : State) (T : Tid) (pc : W64) (lo n : Nat) (g : Got) (kind : ReqKind) (lat : Nat) :
    ∃ w F, CoreOnly u w T ∧ (addReq u (coreOf T) [T] pc [⟨lo, n, g⟩] kind lat).1 = w.modThr T F
    ∧ ∀ x, ∃ ps, F x = { x with pend := ps } := by
  refine ⟨_, _, (CoreOnly.modCore u T _).trans (CoreOnly.modCore _ T _), rfl, fun x => ?_⟩
  dsimp only
  split
  · exact ⟨_, rfl⟩
  · exact ⟨_, rfl⟩

/-- A predicate result changes its predicate, and records a poisoned operand's token (R116, R131). -/
theorem predDone_frame (s : State) (T : Tid) (p : Nat) (rs : List Src) (g : List Nat → Bool) :
    ∃ w F, OriginsOnly (opened s T) w T ∧ predDone s T p rs g = ended (w.modThr T F) T none (max 1 (1 + crossCost rs))
    ∧ ∀ x, (∃ b k, F x = { x with preds := b, drop := k }) ∧ ∀ q < 8, q ≠ p → (F x).pred q = x.pred q := by
  have h := OriginsOnly.readSrcs rs (opened s T) T
  unfold predDone
  dsimp only
  split
  · rename_i k _
    refine ⟨_, fun x => { x.setPred p false with drop := some ((x.setPred p false).drop.getD k) }, h, ?_, fun x => ⟨?_, fun q hq hne => ?_⟩⟩
    · rw [recordDrop, State.modThr_modThr]
    · obtain ⟨b, e⟩ := setPred_fields x p false
      dsimp only
      rw [e]
      exact ⟨_, _, rfl⟩
    · exact pred_setPred x false hq hne
  · refine ⟨_, fun x => x.setPred p (g ((readSrcs [T] T rs (opened s T)).2.map Val.num)), h, rfl, fun x => ⟨?_, fun q hq hne => ?_⟩⟩
    · obtain ⟨b, e⟩ := setPred_fields x p (g ((readSrcs [T] T rs (opened s T)).2.map Val.num))
      exact ⟨b, x.drop, e⟩
    · exact pred_setPred x _ hq hne

theorem slices_pos (d : Opd) : 0 < d.slices := by
  have h : ∀ wc : BitVec 3, 0 < wcSlices wc := by decide
  exact h d.wc

/-- Settles O58: each kind of result is a change of the thread behind reads that leave no more than origins (`wrote_frame`, `addReq_frame`,
`predDone_frame`), and `ended_frame` gives what the word's end leaves; the write of slices itself is `put_ok`, `put_bad` and `put_ok_part`. -/
theorem registerWordFrames : Obligations.RegisterWordFrames := by
  refine ⟨fun s T x d rs cost lat f g h => ⟨?now, ?late, ?pred⟩, fun y lo n hn hl =>
    ⟨fun v ht => put_ok y v hn hl ht, fun k h h1 h2 => put_bad y k hn hl h1 h2, fun v h k h1 h2 hk hp => put_ok_part y v h1 h2 hk hp⟩⟩
  case now =>
    have hop := OriginsOnly.operated s T rs f
    obtain ⟨w, F, hw, e, hF⟩ := wrote_frame (operated s T rs f).1 T (lo := d.start.toNat) (n := d.slices) (operated s T rs f).2 (slices_pos d)
    have ho := hop.trans hw
    obtain ⟨hout, hthr, hcore⟩ := ended_frame h ho.toCoreOnly F (max 1 (cost + crossCost rs))
    obtain ⟨hin, hpreds⟩ := hF (s.thr T)
    unfold aluDone
    dsimp only
    rw [e]
    refine ⟨hout.all, ?_, ?_, ?_⟩
    · rw [hthr]
      exact hin.passed ..
    · rw [hthr, passed_preds, hpreds]
    · rw [hcore]
      simpa using ho.org
  case late =>
    have hop := OriginsOnly.operated s T rs f
    obtain ⟨w, F, hw, e, hF⟩ := addReq_frame (operated s T rs f).1 T (operated s T rs f).1.cur.addr d.start.toNat d.slices (operated s T rs f).2.got
      .multi lat
    obtain ⟨hout, hthr, -⟩ := ended_frame h (hop.toCoreOnly.trans hw) F (max 1 (1 + crossCost rs))
    obtain ⟨ps, hx⟩ := hF (s.thr T)
    unfold lateDone
    dsimp only
    rw [e]
    refine ⟨hout.all, ?_, ?_, ?_, ?_⟩ <;> rw [hthr, hx]
    · exact SameInside.passed (y := { s.thr T with pend := ps }) ⟨rfl, rfl, rfl, rfl, rfl, rfl, fun _ _ => ⟨rfl, rfl⟩⟩ ..
    · rw [passed_preds]
    · rw [passed_slices]
    · rw [passed_tags]
  case pred =>
    obtain ⟨w, F, hw, e, hF⟩ := predDone_frame s T d.start.toNat rs g
    obtain ⟨hout, hthr, -⟩ := ended_frame h hw.toCoreOnly F (max 1 (1 + crossCost rs))
    obtain ⟨⟨b, k, hx⟩, hq⟩ := hF (s.thr T)
    rw [e]
    dsimp only
    refine ⟨hout.all, ?_, ?_, ?_, fun q h8 hne => ?_⟩
    · rw [hthr, hx]
      exact SameInside.passed (y := { s.thr T with preds := b, drop := k }) ⟨rfl, rfl, rfl, rfl, rfl, rfl, fun _ _ => ⟨rfl, rfl⟩⟩ ..
    · rw [hthr, hx, passed_slices]
    · rw [hthr, hx, passed_tags]
    · rw [hthr, ← hq q h8 hne]
      simp only [Thread.pred, passed_preds]

end Sys2Proof.Machine
end

section
/-! Operand reads: the thread that an exchange code reads, what its slices give, and the origin entry of what cannot be read (R110, R115,
R119 to R121, R196, R197, R199, R220). -/

namespace Sys2Proof.Machine

/-! ### Exchange codes (R119 to R121) -/

/-- A code with an index of its own reads that thread of the group, where it is there. -/
theorem srcThread_mate {s : State} (acts : List Tid) {t : Tid} {ax : Exch} {e j : Nat} (hs : ax ≠ .self) (hc : ax ≠ .chn)
    (hj : exchIdx ax (tix (s.thr t) t) (s.thr t).group e = some j) :
    srcThread s acts t ax e = if s.live (mate (s.thr t) t j) then some (mate (s.thr t) t j) else none := by
  unfold srcThread
  cases ax with
  | self => exact absurd rfl hs
  | chn => exact absurd rfl hc
  | dn1 | up1 | bc0 | x1 | xk | mir => simp only [hj]

/-- A distance of the group's width or more leads out of the group (R120). -/
theorem srcThread_xk_outside {s : State} (acts : List Tid) {t : Tid} {e : Nat} (h : (s.thr t).group ≤ 2 ^ e) :
    srcThread s acts t .xk e = none := by
  simp [srcThread, exchIdx, h]

/-- The first acting thread has none before it in its chain (R121). -/
theorem chainSrc_first {s : State} {acts : List Tid} {t : Tid} (h : acts.head? = some t) : chainSrc s acts t = none := by
  obtain ⟨l, rfl⟩ := List.head?_eq_some_iff.1 h
  simp [chainSrc]

/-! ### Slices of one thread (R110, R199) -/

theorem lowTag_none {tags : Tbl Tok} {g n : Nat} (h : ∀ i, g ≤ i → i < g + n → tget i tags = none) : lowTag tags g n = none := by
  induction n generalizing g with
  | zero => rfl
  | succ n ih =>
    rw [lowTag, h g le_rfl (by omega)]
    exact ih fun i hl hu => h i (by omega) (by omega)

theorem lowTag_lowest {tags : Tbl Tok} {g n i : Nat} {k : Tok} (hl : g ≤ i) (hu : i < g + n) (hk : tget i tags = some k)
    (hb : ∀ h, g ≤ h → h < i → tget h tags = none) : lowTag tags g n = some k := by
  induction n generalizing g with
  | zero => omega
  | succ n ih =>
    unfold lowTag
    by_cases e : g = i
    · rw [e, hk]
    · rw [hb g le_rfl (by omega)]
      exact ih (by omega) (by omega) fun h h1 h2 => hb h (by omega) h2

theorem peek_outside {x : Thread} {lo n : Nat} (h : x.alloc < lo + n) : x.peek lo n = .bnd lo := if_pos h

theorem peek_inside {x : Thread} {lo n : Nat} (h : lo + n ≤ x.alloc) : x.peek lo n = match lowTag x.tags (lo / 8) (granSpan lo n) with
    | some k => .val (.bad k)
    | none => .val (.ok (x.bits lo n)) := if_neg (by omega)

theorem peek_poisoned {x : Thread} {lo n g : Nat} {k : Tok} (h : lo + n ≤ x.alloc) (h1 : lo / 8 ≤ g) (h2 : g ≤ (lo + n - 1) / 8)
    (hk : tget g x.tags = some k) (hb : ∀ h, lo / 8 ≤ h → h < g → tget h x.tags = none) : x.peek lo n = .val (.bad k) := by
  rw [peek_inside h, lowTag_lowest h1 (by unfold granSpan; omega) hk hb]

theorem peek_clean {x : Thread} {lo n : Nat} (hn : 0 < n) (h : lo + n ≤ x.alloc)
    (ht : ∀ g, lo / 8 ≤ g → g ≤ (lo + n - 1) / 8 → tget g x.tags = none) : x.peek lo n = .val (.ok (x.bits lo n)) := by
  rw [peek_inside h, lowTag_none fun i h1 h2 => ht i h1 (by unfold granSpan at h2; omega)]

theorem bits_lt (x : Thread) (lo n : Nat) : x.bits lo n < 2 ^ (4 * n) := Nat.mod_lt _ (Nat.two_pow_pos _)

/-! ### The read of an operand (R119 to R121) -/

/-- With no chain carry in its place, an operand reads its source thread's slices. -/
theorem readX_thread {s : State} {acts : List Tid} {t u : Tid} (lo n : Nat) {ax : Exch} {e : Nat} {b : Bool} (hc : carryOf s acts t ax b = none)
    (hu : srcThread s acts t ax e = some u) : readX s acts t lo n ax e b = settle s t ((s.thr u).peek lo n) := by
  simp only [readX, peekX, hc, hu]

theorem readX_xch {s : State} {acts : List Tid} {t : Tid} (lo n : Nat) {ax : Exch} {e : Nat} {b : Bool} (hc : carryOf s acts t ax b = none)
    (hu : srcThread s acts t ax e = none) : readX s acts t lo n ax e b = settle s t .xch := by
  simp only [readX, peekX, hc, hu]

/-! ### Tokens (R196) -/

theorem token_toNat {o c : Nat} (ho : o < 4096) (hc : c < 16) : (token o c).toNat = o * 2 ^ 20 + c * 2 ^ 16 + 0xC5A9 := by
  rw [token, BitVec.toNat_ofNat, Nat.mod_eq_of_lt (by omega)]

theorem tokCause_token {o c : Nat} (ho : o < 4096) (hc : c < 16) : tokCause (token o c) = c := by
  rw [tokCause, token_toNat ho hc, bitsOf, Nat.shiftRight_eq_div_pow]
  omega

theorem tokOrigin_token {o c : Nat} (ho : o < 4096) (hc : c < 16) : tokOrigin (token o c) = o := by
  rw [tokOrigin, token_toNat ho hc, bitsOf, Nat.shiftRight_eq_div_pow]
  omega

/-! ### RaisePoison (R197, R220) -/

/-- With every entry taken the search finds none, wherever it begins. -/
theorem freeOrigin_full {l : Tbl Origin} (h : ∀ i < 4095, (tget i l).isSome = true) (i f : Nat) : freeOrigin l i f = none := by
  induction f generalizing i with
  | zero => rfl
  | succ f ih =>
    have hj : (tget (if i ≥ 0xFFF then 0 else i) l).isNone = false := by
      rw [← Option.not_isSome, h _ (by split <;> omega), Bool.not_true]
    rw [freeOrigin, hj]
    exact ih _

/-- A free entry at the cursor is the one found. -/
theorem freeOrigin_cursor {l : Tbl Origin} {i : Nat} (f : Nat) (hi : i < 4095) (h : tget i l = none) : freeOrigin l i (f + 1) = some i := by
  have hj : ¬ i ≥ 0xFFF := by omega
  simp [freeOrigin, hj, h]

theorem raise_full {s : State} {t : Tid} (cause : Nat) (a : W64) (h : ∀ i < 4095, (tget i (s.core (coreOf t)).org).isSome = true) :
    raise s t cause a = (s, token 0xFFF cause) := by
  simp only [raise, raiseAt, raiseIn, freeOrigin_full h]

/-- A free entry takes the word, the address and the core's cycle, and its number is the token's origin. -/
theorem raise_free {s : State} {t : Tid} {i : Nat} (cause : Nat) (a : W64)
    (h : freeOrigin (s.core (coreOf t)).org (s.core (coreOf t)).orgCur 4095 = some i) :
    (raise s t cause a).2 = token i cause
    ∧ ((raise s t cause a).1.core (coreOf t)).org
      = tset i { pc := (s.thr t).pc, addr := a, cyc := s.cyc (coreOf t), info := originInfo t (tix (s.thr t) t) cause none }
          (s.core (coreOf t)).org := by
  simp only [raise, raiseAt, raiseIn, h, State.core_setCore, and_self]

/-- Settles O57: an exchange code reads the thread of its table (`srcThread_mate`), a read is what that thread's slices give
(`readX_thread` with `peek_outside`, `peek_poisoned`, `peek_clean`), and RaisePoison takes the entry at its cursor (`freeOrigin_cursor`)
or finds none (`raise_full`). -/
theorem operandReads : Obligations.OperandReads := by
  refine ⟨fun s acts t e => ⟨rfl, ?codes⟩, fun s acts t lo n ax e b hn hc => ⟨fun hu => readX_xch lo n hc hu, fun u hu => ?slices⟩,
    fun o ho c hc => ⟨?low, tokCause_token ho hc, tokOrigin_token ho hc⟩, fun s t cause a => ?raise⟩
  case codes =>
    refine ⟨?dn1, ?up1, ?bc0, ?x1, fun h => ?xk, srcThread_xk_outside acts, ?mir, fun h => ?chn⟩
    case xk => exact srcThread_mate acts nofun nofun (if_neg (by omega))
    case chn => simp [srcThread, chainSrc_first h]
    all_goals exact srcThread_mate acts nofun nofun rfl
  case slices =>
    intro y r
    rw [readX_thread lo n hc hu]
    refine ⟨fun h => by rw [peek_outside h]; rfl, fun h g k h1 h2 hk hb => by rw [peek_poisoned h h1 h2 hk hb]; rfl, fun h ht => ?_⟩
    rw [peek_clean hn h ht]
    exact ⟨_, rfl, bits_lt .., fun i hi => by simp [bits_testBit, hi, y]⟩
  case low =>
    rw [token_toNat ho hc]
    omega
  case raise =>
    have hr : OriginsOnly s (raise s t cause a).1 t := OriginsOnly.raiseAt ..
    refine ⟨hr.threads, hr.outside.mem, hr.outside.core, fun h _ => raise_full cause a h, fun h hlt => ?_⟩
    obtain ⟨htok, horg⟩ := raise_free cause a (freeOrigin_cursor 4094 hlt h)
    refine ⟨htok, fun i hi => ?_, ?_⟩
    · rw [horg]
      exact tget_tset_ne _ _ _ _ hi
    · rw [horg]
      exact ⟨_, tget_tset_self .., rfl, rfl, rfl⟩

end Sys2Proof.Machine
end

section
/-! GROW, SHRINK, SREAD and the future instructions, run by one thread (R112, R117, R157 to R159). -/

namespace Sys2Proof.Machine

/-! ### Granules gained (R112) -/

/-- A key that a filter keeps holds what it held. -/
theorem tget_filter_keep {α : Type} {k : Nat} {l : Tbl α} {p : Nat × α → Bool} (h : ∀ a, p (k, a) = true) : tget k (l.filter p) = tget k l := by
  induction l with
  | nil => rfl
  | cons q l ih =>
    obtain ⟨j, b⟩ := q
    by_cases e : p (j, b) = true
    · rw [List.filter_cons_of_pos e, tget, tget, ih]
    · have hj : j ≠ k := by rintro rfl; exact e (h b)
      rw [List.filter_cons_of_neg e, ih]
      simp [tget, hj]

/-- A slice inside blanked slices that are whole granules reads zero, without poison. -/
theorem blank_inside (x : Thread) {g m i : Nat} (h1 : 8 * g ≤ i) (h2 : i < 8 * g + 8 * m) (hi : i < 512) :
    (x.blank (8 * g) (8 * m)).bits i 1 = 0 ∧ tget (i / 8) (x.blank (8 * g) (8 * m)).tags = none := by
  refine ⟨Nat.eq_of_testBit_eq fun j => ?_, tget_filter_none fun _ => ?_⟩
  · rw [bits_testBit, Nat.zero_testBit, Bool.and_eq_false_iff, decide_eq_false_iff_not]
    refine or_iff_not_imp_left.2 fun hj => ?_
    exact (setSlices_getLsbD _ _ _ _ (by omega)).trans (by rw [if_pos (by omega), Nat.zero_testBit])
  · have h3 : 8 * g ≤ 8 * (i / 8) ∧ 8 * (i / 8) < 8 * g + 8 * m := by omega
    simp [h3]

/-- A slice outside them is as before. -/
theorem blank_outside (x : Thread) {g m i : Nat} (h : i < 8 * g ∨ 8 * g + 8 * m ≤ i) :
    (x.blank (8 * g) (8 * m)).bits i 1 = x.bits i 1 ∧ tget (i / 8) (x.blank (8 * g) (8 * m)).tags = tget (i / 8) x.tags := by
  refine ⟨bits_congr fun j hj => ?_, tget_filter_keep fun _ => ?_⟩
  · by_cases hlt : 4 * i + j < 2048
    · exact (setSlices_getLsbD _ _ _ _ hlt).trans (if_neg (by omega))
    · rw [BitVec.getLsbD_of_ge _ _ (by omega), BitVec.getLsbD_of_ge _ _ (by omega)]
  · have h3 : i / 8 < g ∨ 8 * g + 8 * m ≤ 8 * (i / 8) := by omega
    simpa using h3

/-- A grown thread: blank slices behind its old allocation, and the new allocation. -/
theorem growThread_thr {s : State} {T : Tid} (n : Nat) (h : s.live T = true) : (growThread s T n).thr T
    = { (s.thr T).blank (8 * (16 + 4 * (s.thr T).xgran)) (8 * (4 * n)) with xgran := (s.thr T).xgran + n } := by
  have ha : (s.thr T).alloc = 8 * (16 + 4 * (s.thr T).xgran) := by unfold Thread.alloc; omega
  have hn : 32 * n = 8 * (4 * n) := by omega
  rw [growThread, State.thr_modThr _ _ h, ha, hn]

/-! ### GROW, GROW.NB and SHRINK (R112) -/

/-- A word whose STATE check alone guards it, where that check passes (R59). -/
theorem state_pass {s : State} {T : Tid} {x : Pfx} {bad : State → List Tid → List Tid → Bool} (h : bad s [T] s.cur.pack = false) :
    gateTrap s ({ bad := bad } : Gate) x [T] = none := gate_pass rfl nofun nofun h rfl rfl

theorem growOver_fits {s : State} {T : Tid} {n : Nat} (pack : List Tid) (h : (s.thr T).xgran + n ≤ 12) : growOver n s [T] pack = false := by
  simp [growOver, h]

@[simp] theorem laneFree_opened (s : State) (T : Tid) (l : Nat) : laneFree (opened s T) l = laneFree s l := by simp [laneFree]
@[simp] theorem growWaits_opened (s : State) (T t : Tid) : growWaits (opened s T) t = growWaits s t := by simp [growWaits]

/-- GROW goes on where the lane has its granules and no other thread's GROW is first. -/
theorem grow_free {s : State} {T : Tid} {n : Nat} (hn : n ≤ laneFree s (laneKey T)) (hw : ∀ u, (growWaits s T).head? = some u → u.1 = T) :
    (growOp n).rdBusy s [T] T = false := by
  have hlt : ¬ laneFree s (laneKey T) < n := by omega
  simp only [growOp, hlt, decide_false, Bool.false_or]
  cases hg : growWaits s T with
  | nil => rfl
  | cons u l => simp [hw u (by rw [hg]; rfl)]

/-- What GROW.NB leaves: the granules and a true predicate, or a false one. -/
theorem growNb_left (s : State) (T : Tid) (n : Nat) (d : Opd) : (growNbOp n d).left s T
    = (if n ≤ laneFree s (laneKey T) ∧ growWaits s T = [] then (growThread s T n).modThr T fun x => x.setPred d.start.toNat true
      else s.modThr T fun x => x.setPred d.start.toNat false, none) := by
  simp only [WordOp.left, growNbOp, putPred_solo]
  split
  · rfl
  · rfl

/-- SHRINK's checks: it returns no more than the thread holds, and no granule of an open leg's shadow. -/
theorem shrinkBad_free {s : State} {T : Tid} {n : Nat} (pack : List Tid) (hn : n ≤ (s.thr T).xgran)
    (hl : ∀ l, (s.thr T).leg = some l → l.n = 0 ∨ 8 * (l.lo + l.n) ≤ 128 + 32 * ((s.thr T).xgran - n)) : shrinkBad n s [T] pack = false := by
  have hgt : ¬ n > (s.thr T).xgran := by omega
  simp only [shrinkBad, List.any_cons, List.any_nil, hgt, decide_false, Bool.false_or, Bool.or_false]
  cases h : (s.thr T).leg with
  | none => rfl
  | some l => obtain h0 | h0 := hl l h <;> simp [h0]

/-- Settles O19: the STATE check passes, GROW's queue lets it go on (`grow_free`), and the slices gained are blanked ones (`blank_inside`,
`blank_outside`). -/
theorem allocationResults : Obligations.AllocationResults := by
  refine fun s T g h => ⟨fun hx => ⟨fun hn hw => congrArg Host.Outcome.next ?grow, congrArg Host.Outcome.next ?growNb⟩,
    fun hn hl hi => congrArg Host.Outcome.next ?shrink, fun hv hx lo => ?slices⟩
  case grow =>
    exact word_gate (o := growOp g.imm.toNat) false 1 h rfl (state_pass (growOver_fits _ hx)) rfl 
      (grow_free (by rwa [laneFree_opened]) (by rwa [growWaits_opened])) rfl
  case growNb =>
    rw [word_gate (o := growNbOp g.imm.toNat g.d) false 1 h rfl (state_pass (growOver_fits _ hx)) rfl rfl rfl, growNb_left, laneFree_opened,
      growWaits_opened]
    rfl
  case shrink =>
    exact word_gate (o := shrinkOp g.imm.toNat) false 1 h rfl (state_pass (shrinkBad_free _ hn hl)) rfl
      (by simpa [shrinkOp, idle] using hi) rfl
  case slices =>
    rw [growThread_thr _ hv]
    unfold Thread.alloc
    refine ⟨fun hlt => blank_outside _ (.inl (by omega)), fun h1 h2 => ?_⟩
    dsimp only at h2
    exact blank_inside _ (by omega) (by omega) (by omega)

/-! ### SREAD (R117) -/

theorem putClean_solo (s : State) (T : Tid) (d : Opd) (v : Nat) : putClean s s.cur.addr d v [T]
    = wrote (s.modThr T fun x => if d.start.toNat + d.slices ≤ x.alloc then x.untag d.start.toNat d.slices else x) T d.start.toNat d.slices (.ok v) := by
  have hf : (fun x : Thread => if d.start.toNat + d.slices > x.alloc then x else x.untag d.start.toNat d.slices)
      = fun x => if d.start.toNat + d.slices ≤ x.alloc then x.untag d.start.toNat d.slices else x := by
    funext x
    by_cases hx : d.start.toNat + d.slices ≤ x.alloc
    · rw [if_neg (by omega), if_pos hx]
    · rw [if_pos (by omega), if_neg hx]
  rw [putClean, List.foldl_cons, List.foldl_nil, hf, ← putAll_solo, State.cur_modThr]

/-! ### The future instructions (R157 to R159) -/

/-- A handle read as it stands leaves the state. -/
theorem peekRaw_got {r : Src} {s : State} {acts : List Tid} {t : Tid} {v : Nat} {toks : List (Option Tok)}
    (h : (readRaw r s acts t).2 = .got v toks) : peekRaw r s acts t = .ok (.got v toks) ∧ readRaw r s acts t = (s, .got v toks) := by
  unfold readRaw at h ⊢
  cases e : peekRaw r s acts t with
  | ok w =>
    rw [e] at h
    obtain rfl : w = .got v toks := h
    exact ⟨rfl, rfl⟩
  | error p => rw [e] at h; cases h

/-- A handle that cannot be read is none that a peek gives. -/
theorem peekRaw_out {r : Src} {s : State} {acts : List Tid} {t : Tid} {k : Tok} (h : (readRaw r s acts t).2 = .out k) (v : Nat)
    (toks : List (Option Tok)) : peekRaw r s acts t ≠ .ok (.got v toks) := by
  intro e
  rw [readRaw, e] at h
  cases h

/-- FWAIT goes on where its handle's command is complete (R158). -/
theorem fwait_complete {s : State} {T : Tid} {f : RForm} {v : Nat} {toks : List (Option Tok)} (h : (readRaw (rA f) s [T] T).2 = .got v toks)
    (hv : futLive s (coreOf T) v = none) : (fwaitOp f).rdBusy s [T] T = false := by
  simp only [fwaitOp, (peekRaw_got h).1, hv, Option.isSome_none]

/-- FWAIT waits for no handle that cannot be read (R157). -/
theorem fwait_out {s : State} {T : Tid} {f : RForm} {k : Tok} (h : (readRaw (rA f) s [T] T).2 = .out k) :
    (fwaitOp f).rdBusy s [T] T = false := by
  simp only [fwaitOp]
  split
  · rename_i v toks e
    exact absurd e (peekRaw_out h v toks)
  · rfl

/-- A copy of a field granule by granule (R158). -/
theorem passPut_eq (x : Thread) (lo n bits : Nat) (toks : List (Option Tok)) : x.passPut lo n bits toks
    = (List.range (granSpan lo n)).foldl (fun x i => x.passGran lo n bits toks (lo / 8 + i)) x := by
  rw [Thread.passPut, List.foldl_map]

/-- What FPASS leaves of a field that D has room for. -/
theorem fpass_left {s : State} {T : Tid} {f : RForm} {v : Nat} {toks : List (Option Tok)} (h : readRaw (rA f) s [T] T = (s, .got v toks))
    (hd : f.d.start.toNat + f.d.slices ≤ (s.thr T).alloc) : (fpassOp f).left s T
    = (let copy := s.modThr T fun x => x.passPut f.d.start.toNat f.d.slices v toks
      match futLive s (coreOf T) v with
      | none => copy
      | some e => markPend copy T f.d.start.toNat f.d.slices e.id true, none) := by
  simp only [WordOp.left, fpassOp, h, hd, decide_true, List.filter_cons_of_pos, List.filter_nil, Bool.not_true, Bool.false_eq_true,
    not_false_eq_true, List.filter_cons_of_neg, putAll, List.foldl_cons, List.foldl_nil]
  cases futLive s (coreOf T) v <;> rfl

/-- What FPASS leaves of one that cannot be read: its token recorded, and written to D (R21, R157). -/
theorem fpass_left_out {s u : State} {T : Tid} {f : RForm} {k : Tok} (h : readRaw (rA f) s [T] T = (u, .out k)) :
    (fpassOp f).left s T = (wrote (recordDrop u T k) T f.d.start.toNat f.d.slices (.bad k), none) := by
  simp only [WordOp.left, fpassOp, h, recordAll_solo, putAll_solo]

/-- Settles O20: SREAD writes with D's tags cleared (`putClean_solo`); a future word leaves the state of its handle's read (`peekRaw_got`)
or records the token of one that cannot be read; FPASS's copy is `fpass_left`. -/
theorem queryAndFutureResults : Obligations.QueryAndFutureResults := by
  refine fun s T f h => ⟨fun sel hi => congrArg Host.Outcome.next ?sread, fun v toks hg => ?readable, fun k hk => ?unreadable⟩
  case sread =>
    rw [word_solo (o := sreadOp f.d sel) false 1 h rfl (by simpa [sreadOp, queryOp, idle] using hi)]
    simp only [WordOp.left, sreadOp, queryOp, putClean_solo]
    rfl
  case readable =>
    obtain ⟨hp, hr⟩ := peekRaw_got hg
    refine ⟨fun hv => congrArg Host.Outcome.next ?fwait, congrArg Host.Outcome.next ?ftest, congrArg Host.Outcome.next ?fcancel,
      fun hi hd => congrArg Host.Outcome.next ?fpass⟩
    case fwait =>
      rw [word_solo (o := fwaitOp f) _ _ h (fwait_complete hg hv) rfl]
      simp only [WordOp.left, fwaitOp, hr]
    case ftest =>
      rw [word_solo (o := ftestOp f) _ _ h rfl rfl]
      simp only [WordOp.left, ftestOp, hr, putPred_solo]
    case fcancel =>
      rw [word_solo (o := fcancelOp f) _ _ h rfl rfl]
      simp only [WordOp.left, fcancelOp, hr]
    case fpass =>
      rw [word_solo (o := fpassOp f) _ _ h rfl (by simpa [fpassOp, idle] using hi), fpass_left hr (by rwa [opened_thr])]
      simp only [passPut_eq]
      rfl
  case unreadable =>
    have hr : readRaw (rA f) (opened s T) [T] T = ((readRaw (rA f) (opened s T) [T] T).1, .out k) := Prod.ext rfl hk
    refine ⟨congrArg Host.Outcome.next ?fwait, congrArg Host.Outcome.next ?ftest, congrArg Host.Outcome.next ?fcancel,
      fun hi => congrArg Host.Outcome.next ?fpass⟩
    case fwait =>
      rw [word_solo (o := fwaitOp f) _ _ h (fwait_out hk) rfl]
      simp only [WordOp.left, fwaitOp, hk, recordAll_solo]
    case ftest =>
      rw [word_solo (o := ftestOp f) _ _ h rfl rfl]
      simp only [WordOp.left, ftestOp, hk, recordAll_solo, putPred_solo]
    case fcancel =>
      rw [word_solo (o := fcancelOp f) _ _ h rfl rfl]
      simp only [WordOp.left, fcancelOp, hk, recordAll_solo]
    case fpass =>
      rw [word_solo (o := fpassOp f) _ _ h rfl (by simpa [fpassOp, idle] using hi), fpass_left_out hr]

end Sys2Proof.Machine
end

section
/-! Integer and control words, run by one thread: arithmetic, logic, shifts, moves, packed elements, transfers and WAITW (R130 to R151, R155). -/

namespace Sys2Proof.Machine

/-- Words that leave the same state complete alike. -/
theorem next_eq {s t : State} (e : s = t) : (Host.Outcome.next s : Out) = .next t := congrArg _ e

/-! ### Words and immediates as integers (R41, R113) -/

theorem wcBits_pos (wc : BitVec 3) : 0 < wcBits wc := by
  have h : ∀ wc : BitVec 3, 0 < wcBits wc := by decide
  exact h wc

/-- A two's-complement reading is the balanced remainder. -/
theorem toSigned_eq_bmod {w : Nat} (hw : 0 < w) (v : Nat) : toSigned w v = (v : Int).bmod (2 ^ w) := by
  obtain ⟨k, rfl⟩ : ∃ k, w = k + 1 := ⟨w - 1, by omega⟩
  have hp : 2 ^ (k + 1) = 2 * 2 ^ k := Nat.pow_succ'
  have hh : ((2 ^ (k + 1) : Nat) + 1 : Int) / 2 = (2 ^ k : Nat) := by rw [hp]; omega
  have hm : (v : Int) % (2 ^ (k + 1) : Nat) = (v % 2 ^ (k + 1) : Nat) := (Int.natCast_emod ..).symm
  rw [Int.bmod_def, hh, hm, toSigned, Nat.add_sub_cancel]
  by_cases h : v % 2 ^ (k + 1) < 2 ^ k
  · rw [if_pos h, if_pos (by exact_mod_cast h)]
  · rw [if_neg h, if_neg (by exact_mod_cast h), Nat.cast_pow]
    rfl

theorem toSigned_toNat {n : Nat} (hn : 0 < n) (b : BitVec n) : toSigned n b.toNat = b.toInt := by
  rw [toSigned_eq_bmod hn, BitVec.toInt_eq_toNat_bmod]

/-- The immediate of an I-form word, sign-extended. -/
theorem imm_toInt (g : IForm) : toSigned 20 g.imm.toNat = g.imm.toInt := toSigned_toNat (by decide) _

theorem wrapTo_cast (w : Nat) (z : Int) : (wrapTo w z : Int) = z % 2 ^ w := Int.toNat_of_nonneg (Int.emod_nonneg _ (by positivity))

theorem wrapTo_natCast (w n : Nat) : wrapTo w n = n % 2 ^ w := by
  have h := wrapTo_cast w n
  exact_mod_cast h

/-- A zero-extended immediate at w bits. -/
theorem immAt_zext (w : Nat) (g : IForm) : immAt true w g = (g.imm.toNat : Int) % 2 ^ w := wrapTo_cast ..

/-- A sign-extended one. -/
theorem immAt_sext {w : Nat} (hw : 0 < w) (g : IForm) : immAt false w g = g.imm.toInt.bmod (2 ^ w) := by
  simp only [immAt, Bool.false_eq_true, if_false, toSigned_eq_bmod hw, wrapTo_cast, imm_toInt]
  exact_mod_cast Int.emod_bmod (x := g.imm.toInt) (n := 2 ^ w)

/-! ### ALU words of one cycle (R131) -/

/-- An ALU word, its result given by a function of equal values. -/
theorem alu_result {s : State} {T : Tid} {x : Pfx} {d : Opd} {rs : List Src} {f g : List Nat → Nat} (h : Solo s T x)
    (hf : aluFree s T d rs) (e : ∀ l, f l = g l) : alu x d rs f s = aluDone s T d rs 1 fun l => .val (g l) := by
  rw [← funext e]
  exact aluWord_solo 1 _ h hf

/-! ### Arithmetic (R133, R134) -/

section
variable {s : State} {T : Tid} {f : RForm}

theorem arith2_solo (z : Bool) (wc : BitVec 3) (sat : Bool) (g : Int → Int → Int) (cost : Nat) (h : Solo s T f.x)
    (hf : aluFree s T f.d [rA f, rB f]) : arith2 z wc sat g f cost s = aluDone s T f.d [rA f, rB f] cost fun l =>
      let v := g (fitSrc z f.a.bits (wcBits wc) (arg l 0)) (fitSrc z f.b.bits (wcBits wc) (arg l 1))
      .val (if sat then satRes z f.d.bits v else fitRes z (wcBits wc) f.d.bits v) := aluWord_solo cost _ h hf

theorem arith1_solo (wc : BitVec 3) (sat : Bool) (g : Int → Int) (h : Solo s T f.x) (hf : aluFree s T f.d [rA f]) :
    arith1 wc sat g f s = aluDone s T f.d [rA f] 1 fun l =>
      let v := g (fitSrc false f.a.bits (wcBits wc) (arg l 0))
      .val (if sat then satRes false f.d.bits v else fitRes false (wcBits wc) f.d.bits v) := aluWord_solo 1 _ h hf

end

/-- Settles O1: the two- and one-source entries are `arith2` and `arith1`, and an immediate at w bits is `immAt_zext` or `immAt_sext`. -/
theorem integerArithmeticResults : Obligations.IntegerArithmeticResults := by
  refine fun s T f sg sat wc h => ⟨fun hf => ?two, fun hf => next_eq (aluWord_solo _ _ h hf), fun hf => ?one,
    fun g hg hf => next_eq ?imm⟩
  case two =>
    exact ⟨next_eq (arith2_solo sg wc sat (· + ·) 1 h hf), next_eq (arith2_solo sg wc sat (· - ·) 1 h hf),
      next_eq (arith2_solo sg wc false (· * ·) _ h hf),
      next_eq (arith2_solo sg wc false (fun a b => a * b / 2 ^ wcBits wc) _ h hf),
      next_eq (arith2_solo sg wc false min 1 h hf), next_eq (arith2_solo sg wc false max 1 h hf)⟩
  case one =>
    exact ⟨next_eq (arith1_solo wc sat (fun a => |a|) h hf), next_eq (arith1_solo wc sat (fun a => -a) h hf)⟩
  case imm =>
    refine alu_result hg hf fun l => ?_
    cases sg
    · rw [immAt_sext (wcBits_pos wc)]
      rfl
    · rw [immAt_zext]
      rfl

/-! ### Division (R135) -/

/-- Both results of R135, with the remainder as a − q × b. -/
theorem divRes_eq (z : Bool) (w W : Nat) (rem : Bool) (a b : Int) : divRes z w W rem a b = if b = 0 then .inv cDIVZ
    else if z = false ∧ a = -2 ^ (w - 1) ∧ b = -1 then (if rem then .val 0 else .inv cINV)
    else .val (fitRes z w W (if rem then a - a.tdiv b * b else a.tdiv b)) := by
  simp only [divRes, Int.tmod_def, Int.mul_comm b, Bool.and_eq_true, Bool.not_eq_true', beq_iff_eq, and_assoc]

theorem divWord_solo {s : State} {T : Tid} {f : RForm} (z : Bool) (wc : BitVec 3) (rem : Bool) (h : Solo s T f.x)
    (hf : aluFree s T f.d [rA f, rB f]) : divWord z wc rem f s = lateDone s T f.d [rA f, rB f] (4 + wcBits wc / 2) fun l =>
      divRes z (wcBits wc) f.d.bits rem (fitSrc z f.a.bits (wcBits wc) (arg l 0)) (fitSrc z f.b.bits (wcBits wc) (arg l 1)) :=
  aluWord_late _ _ h hf

/-- Settles O2: both words are `divWord`, late by `aluWord_late`, and `divRes_eq` has their two invalid cases. -/
theorem integerDivisionResults : Obligations.IntegerDivisionResults := by
  refine fun s T f sg wc h hf => ⟨next_eq ?quot, next_eq ?rem⟩
  case quot =>
    simp only [divWord_solo sg wc false h hf, divRes_eq]
    rfl
  case rem =>
    simp only [divWord_solo sg wc true h hf, divRes_eq]
    rfl

/-! ### Logic, shifts, bitfields and bit counts (R136 to R139) -/

/-- A right operand that is already reduced is not reduced again. -/
theorem andNot_mod (w a b : Nat) : andNot w a (b % 2 ^ w) = a &&& (2 ^ w - 1 - b % 2 ^ w) := by rw [andNot, Nat.mod_mod]

/-- The source of every shift but SAR is zero-extended (R137). -/
theorem shiftSrc_zext {op : Nat} (h : op ≠ 2) (wa w a : Nat) : shiftSrc op wa w a = a % 2 ^ min wa w := by
  have hz : (op != 2) = true := by simpa using h
  have hlt : a % 2 ^ min wa w < 2 ^ w :=
    (Nat.mod_lt _ (Nat.two_pow_pos _)).trans_le (Nat.pow_le_pow_right (by decide) (Nat.min_le_right ..))
  rw [shiftSrc, hz, fitSrc, if_pos rfl, wrapTo_natCast, Nat.mod_eq_of_lt hlt]

section
variable {s : State} {T : Tid} {f : RForm} {g : IForm}

theorem logic2_solo (q : Nat → Nat → Nat → Nat) (h : Solo s T f.x) (hf : aluFree s T f.d [rA f, rB f]) :
    logic2 q f s = aluDone s T f.d [rA f, rB f] 1 fun l => .val (q f.d.bits (arg l 0 % 2 ^ f.d.bits) (arg l 1 % 2 ^ f.d.bits)) :=
  aluWord_solo 1 _ h hf

theorem logicImm_solo (q : Nat → Nat → Nat → Nat) (h : Solo s T g.x) (hf : aluFree s T g.d [iA g]) :
    logicImm q g s = aluDone s T g.d [iA g] 1 fun l => .val (q g.d.bits (arg l 0 % 2 ^ g.d.bits) (g.imm.toNat % 2 ^ g.d.bits)) :=
  aluWord_solo 1 _ h hf

theorem shiftWord_solo (op : Nat) (h : Solo s T f.x) (hf : aluFree s T f.d [rA f, rB f]) : shiftWord op f s
    = aluDone s T f.d [rA f, rB f] 1 fun l => .val (shiftBits op f.d.bits (shiftSrc op f.a.bits f.d.bits (arg l 0)) (arg l 1)) :=
  aluWord_solo 1 _ h hf

theorem shiftWord_zext {op : Nat} (hop : op ≠ 2) (h : Solo s T f.x) (hf : aluFree s T f.d [rA f, rB f]) : shiftWord op f s
    = aluDone s T f.d [rA f, rB f] 1 fun l => .val (shiftBits op f.d.bits (arg l 0 % 2 ^ min f.a.bits f.d.bits) (arg l 1)) := by
  simp only [shiftWord_solo op h hf, shiftSrc_zext hop]

theorem shiftImm_solo (op : Nat) (h : Solo s T g.x) (hf : aluFree s T g.d [iA g]) : shiftImm op g s
    = aluDone s T g.d [iA g] 1 fun l => .val (shiftBits op g.d.bits (shiftSrc op g.a.bits g.d.bits (arg l 0)) (g.imm.toNat % 64)) :=
  aluWord_solo 1 _ h hf

theorem shiftImm_zext {op : Nat} (hop : op ≠ 2) (h : Solo s T g.x) (hf : aluFree s T g.d [iA g]) : shiftImm op g s
    = aluDone s T g.d [iA g] 1 fun l => .val (shiftBits op g.d.bits (arg l 0 % 2 ^ min g.a.bits g.d.bits) (g.imm.toNat % 64)) := by
  simp only [shiftImm_solo op h hf, shiftSrc_zext hop]

theorem count1_solo (q : Nat → Nat → Nat) (h : Solo s T f.x) (hf : aluFree s T f.d [rA f]) :
    count1 q f s = aluDone s T f.d [rA f] 1 fun l => .val (q f.a.bits (arg l 0) % 2 ^ f.d.bits) := aluWord_solo 1 _ h hf

end

/-- Settles O3: each group of entries is one function of the model, whose value `andNot_mod` or `shiftSrc_zext` writes as the rule has it. -/
theorem logicAndShiftResults : Obligations.LogicAndShiftResults := by
  refine fun s T f table sg h => ⟨fun hf => ?two, fun hf => next_eq (aluWord_solo 1 _ h hf), fun hf => ?one,
    fun g hg hf => ?imm⟩
  case two =>
    refine ⟨next_eq (logic2_solo (fun _ a b => a &&& b) h hf), next_eq (logic2_solo (fun _ a b => a ||| b) h hf),
      next_eq (logic2_solo (fun _ a b => a ^^^ b) h hf), next_eq ?andn,
      next_eq (shiftWord_zext (by decide) h hf), next_eq (shiftWord_zext (by decide) h hf),
      next_eq (shiftWord_solo 2 h hf), next_eq (shiftWord_zext (by decide) h hf),
      next_eq (aluWord_solo 1 _ h hf), next_eq (aluWord_solo 1 _ h hf)⟩
    simp only [logic2_solo andNot h hf, andNot_mod]
  case one =>
    exact ⟨next_eq (aluWord_solo 1 _ h hf), next_eq (count1_solo popBits h hf),
      next_eq (count1_solo clzBits h hf), next_eq (count1_solo ctzBits h hf),
      next_eq (count1_solo revBits h hf)⟩
  case imm =>
    refine ⟨next_eq (logicImm_solo (fun _ a b => a &&& b) hg hf),
      next_eq (logicImm_solo (fun _ a b => a ||| b) hg hf), next_eq (logicImm_solo (fun _ a b => a ^^^ b) hg hf),
      next_eq ?andnImm, next_eq (shiftImm_zext (by decide) hg hf),
      next_eq (shiftImm_zext (by decide) hg hf), next_eq (shiftImm_solo 2 hg hf),
      next_eq (shiftImm_zext (by decide) hg hf)⟩
    simp only [logicImm_solo andNot hg hf, andNot_mod]

/-! ### Compare, select and move (R140 to R142, R118) -/

section
variable {s : State} {T : Tid} {f : RForm} {g : IForm}

/-- The selector of ISEL is read beside its sources (R141). -/
theorem isel_solo (neg : Bool) (sel : BitVec 3) (h : Solo s T f.x) (hf : aluFree s T f.d [rA f, rB f]) :
    execIsel neg sel f s = .next (aluDone s T f.d [rA f, rB f] 1 fun l =>
      .val ((if (s.thr T).pred sel.toNat != neg then arg l 0 else arg l 1) % 2 ^ f.d.bits)) := by
  rw [execIsel, word_solo (o := iselOp neg sel f) _ _ h (busySrcs_free hf.1) (by simpa [iselOp, aluOp, idle] using hf.2)]
  simp only [WordOp.left, iselOp, aluOp, putAll_solo, opened_thr, settleRes_operated]
  rfl

/-- MOVH writes a part of D where the whole of D lies inside the allocation, and else drops the write (R110, R142). -/
theorem movh_left (s : State) (T : Tid) (pos : BitVec 2) (g : IForm) : (movhOp pos g).left s T
    = (if g.d.start.toNat + 16 ≤ (s.thr T).alloc then
        s.modThr T fun x => x.put (g.d.start.toNat + (movhSpan pos).1) (movhSpan pos).2 (.ok g.imm.toNat)
      else wrote s T g.d.start.toNat 16 (.ok g.imm.toNat), none) := by
  have hs : (movhSpan pos).1 + (movhSpan pos).2 ≤ 16 := by revert pos; decide
  by_cases ha : g.d.start.toNat + 16 ≤ (s.thr T).alloc
  · have hp : g.d.start.toNat + (movhSpan pos).1 + (movhSpan pos).2 ≤ (s.thr T).alloc := by omega
    simp only [WordOp.left, movhOp, ha, decide_true, Bool.not_true, List.filter_cons_of_pos, List.filter_nil, Bool.false_eq_true,
      not_false_eq_true, List.filter_cons_of_neg, if_true, putAll, if_neg (Nat.not_lt.2 hp)]
  · simp only [WordOp.left, movhOp, ha, decide_false, Bool.not_false, List.filter_cons_of_pos, List.filter_nil, Bool.false_eq_true,
      not_false_eq_true, List.filter_cons_of_neg, if_false, putAll_solo]
    rfl

/-- MOVX waits for no range that is not pending. -/
theorem movx_free (h : Solo s T f.x) (hu : unheld s T [rA f]) (hr : ∀ k, (rA f).peek s [T] T = .val (.ok k) → idle s T k f.d.slices) :
    (movxOp f).rdBusy (opened s T) [T] T = false := by
  simp only [movxOp, busySrcs_free hu, Bool.false_or, peek_opened _ h.port, opened_thr]
  split
  · rename_i k e
    exact hr k e
  · rfl

/-- MOVXW waits for no range that is not pending. -/
theorem movxw_free (h : Solo s T f.x) (hu : unheld s T [rA f, rB f])
    (hr : ∀ k, (rA f).peek s [T] T = .val (.ok k) → idle s T k f.b.slices) : (movxwOp f).rdBusy (opened s T) [T] T = false := by
  have hp : (if f.x.u then (opened s T).cur.pack else [T]) = [T] := by simp [opened_cur h.port, begin_, h.pack]
  simp only [movxwOp, busySrcs_free hu, Bool.false_or, peek_opened _ h.port, opened_thr, hp, List.any_cons, List.any_nil, Bool.or_false]
  split
  · rename_i k e
    exact hr k e
  · rfl

/-- MOVX writes D with the slices at its index, or with the token of a poisoned index (R118). -/
theorem movx_left (s : State) (T : Tid) (f : RForm) : (movxOp f).left s T
    = (let b := (movxOp f).rd s [T] T; wrote b.1 T f.d.start.toNat f.d.slices b.2, none) := by
  simp only [WordOp.left, movxOp, putAll_solo]

/-- MOVXW writes the slices at its index, or records the token of a poisoned index (R118). -/
theorem movxw_left (s : State) (T : Tid) (f : RForm) : (movxwOp f).left s T
    = (let a := (rA f).read s [T] T
      match a.2 with
      | .bad k => recordDrop a.1 T k
      | .ok k => let b := (rB f).read a.1 [T] T; wrote b.1 T k f.b.slices b.2, none) := by
  simp only [WordOp.left, movxwOp]
  cases (rA f).read s [T] T with
  | mk u v => cases v <;> simp only [putAll_solo, recordAll_solo]

end

/-- Settles O4: ICMP is a predicate word, ISEL and the moves are ALU words, and what MOVH, MOVX and MOVXW leave is `movh_left`, `movx_left`
and `movxw_left`. -/
theorem compareSelectMoveResults : Obligations.CompareSelectMoveResults := by
  refine fun s T => ⟨fun f sg cond h hu => next_eq (predWord_solo f.d _ h hu), fun g sg cond h hu => next_eq ?icmpImm,
    fun f neg sel h hf => ?isel, fun f h hf => ⟨next_eq (aluWord_solo 1 _ h hf), next_eq (aluWord_solo 1 _ h hf)⟩,
    fun g z h hi => next_eq ?movi, fun g pos h hi => next_eq ?movh, fun f h hf hr => next_eq ?movx, fun f h hu hr => next_eq ?movxw⟩
  case icmpImm =>
    rw [predWord_solo g.d _ h hu]
    cases sg
    · rw [immAt_sext (w := g.a.bits) (wcBits_pos _)]
      rfl
    · rw [immAt_zext]
      rfl
  case isel =>
    refine (isel_solo neg sel h hf).trans ?_
    cases (s.thr T).pred sel.toNat <;> cases neg <;> rfl
  case movi =>
    refine alu_result h ⟨nofun, hi⟩ fun l => ?_
    rw [imm_toInt]
  case movh =>
    rw [word_solo (o := movhOp pos g) false 1 h rfl (by simpa [movhOp, idle] using hi), movh_left, opened_thr]
    by_cases ha : g.d.start.toNat + 16 ≤ (s.thr T).alloc
    · simp only [if_pos ha]
      rfl
    · simp only [if_neg ha, wrote, opened_thr, opened_addr T h.port]
      rfl
  case movx =>
    have hx : (movxOp f).extra (opened s T) [T] T = (movxOp f).extra s [T] T := by simp only [movxOp, peek_opened _ h.port]
    rw [runWord_solo {} (movxOp f) _ _ h rfl gate_free (movx_free h hf.1 hr) (by simpa [movxOp, idle] using hf.2), gated_free _ rfl, movx_left, hx]
    rfl
  case movxw =>
    rw [word_solo (o := movxwOp f) _ _ h (movxw_free h hu hr) rfl]
    simp only [movxw_left] <;> rfl

/-! ### Packed elements (R143 to R145) -/

theorem packed2_solo {s : State} {T : Tid} {f : RForm} (z : Bool) (ew : BitVec 2) (sat : Bool) (q : Int → Int → Int) (h : Solo s T f.x)
    (hf : aluFree s T f.d [rA f, rB f]) : packed2 z ew sat q f s = aluDone s T f.d [rA f, rB f] 1 fun l =>
      .val (elems (ewBits ew) (f.d.bits / ewBits ew) fun k => elemRes z sat (ewBits ew)
        (q (elemInt z (ewBits ew) k (arg l 0 % 2 ^ f.d.bits)) (elemInt z (ewBits ew) k (arg l 1 % 2 ^ f.d.bits)))) := aluWord_solo 1 _ h hf

/-- Settles O5: the element-wise words are `packed2` or an ALU word of `elems`; PDOT's sum is `dotInt`. -/
theorem packedResults : Obligations.PackedResults := by
  refine fun s T f sg sat ew cond h => ⟨fun hf => ?two, fun hf => ?one, fun hf => next_eq (aluWord_solo _ _ h hf)⟩
  case two =>
    exact ⟨next_eq (aluWord_solo 1 _ h hf), next_eq (packed2_solo sg ew sat (· + ·) h hf),
      next_eq (packed2_solo sg ew sat (· - ·) h hf), next_eq (packed2_solo sg ew false min h hf),
      next_eq (packed2_solo sg ew false max h hf), next_eq (aluWord_solo 1 _ h hf)⟩
  case one => exact ⟨next_eq (aluWord_solo 1 _ h hf), next_eq (aluWord_solo 1 _ h hf)⟩

/-! ### Control transfers (R146 to R151) -/

/-- The place behind a clause's last word is the header after the clause (R28). -/
theorem next_last {p : Port} (h : atLast p = true) : p.next = ⟨p.hdrAddr + BitVec.ofNat 64 (8 * (p.words.length + 1)), none⟩ := by
  have he : p.widx + 1 = p.words.length := by simpa [atLast] using h
  exact if_neg (by omega)

theorem opened_next {s : State} (T : Tid) (h : s.iss.isSome = true) (hl : atLast s.cur = true) : (opened s T).cur.next
    = ⟨s.cur.hdrAddr + BitVec.ofNat 64 (8 * (s.cur.words.length + 1)), none⟩ := by
  rw [opened_cur h]
  exact next_last hl

/-- What the link of a transfer leaves: the address behind the clause (R150). -/
def linked (s : State) (T : Tid) : Option Opd → State
  | some d => wrote s T d.start.toNat d.slices (.ok s.cur.next.pc.toNat)
  | none => s

/-- What a transfer to a displaced header leaves (R148). -/
theorem jump_near_left (s : State) (T : Tid) (link : Option Opd) (d : BitVec 32) : ({ link := link, disp := some d } : Jump).op.left s T
    = (linked s T link, some ⟨s.cur.hdrAddr + d.signExtend 64 * 8, none⟩) := by
  cases link
  · rfl
  · simp only [WordOp.left, Jump.op, Jump.target, linked, putAll_solo]

/-- What a transfer to an address read from an operand leaves: a poisoned one is recorded, and nothing is linked (R149). -/
theorem jump_far_left (s : State) (T : Tid) (link : Option Opd) (r : Src) : ({ src := some r, link := link } : Jump).op.left s T
    = match (r.read s [T] T).2 with
      | .bad k => (recordDrop (r.read s [T] T).1 T k, none)
      | .ok v => (linked (r.read s [T] T).1 T link, some ⟨BitVec.ofNat 64 (v / 8 * 8), none⟩) := by
  simp only [WordOp.left, Jump.op, Jump.target]
  generalize r.read s [T] T = a
  obtain ⟨u, v⟩ := a
  cases v
  · cases link
    · rfl
    · simp only [linked, putAll_solo]
  · rfl

section
variable {s : State} {T : Tid}

/-- A transfer waits for its link's slices alone (R115, R150). -/
theorem jump_wrBusy {j : Jump} (hi : ∀ o, j.link = some o → idle s T o.start.toNat o.slices) :
    j.op.wrBusy s T = false ∧ j.op.wrBusy (opened s T) T = false := by
  have ho : j.op.wrBusy (opened s T) T = j.op.wrBusy s T := by simp only [Jump.op, opened_thr]
  rw [ho, and_self]
  cases hl : j.link with
  | none => simp only [Jump.op, hl]
  | some o => simpa only [Jump.op, hl, idle] using hi o hl

/-- A transfer to a displaced header, run by one thread. -/
theorem jump_near {x : Pfx} {link : Option Opd} (d : BitVec 32) (h : Solo s T x) (hl : atLast s.cur = true)
    (hi : ∀ o, link = some o → idle s T o.start.toNat o.slices) : ({ link := link, disp := some d } : Jump).run x s
    = ended (linked (opened s T) T link) T (some ⟨s.cur.hdrAddr + d.signExtend 64 * 8, none⟩) 1 := by
  obtain ⟨hw, hw'⟩ := jump_wrBusy (j := { link := link, disp := some d }) hi
  rw [jump_solo h hl rfl hw' rfl hw, jump_near_left, opened_cur h.port]
  rfl

/-- A transfer to an address read from an operand, run by one thread. -/
theorem jump_far {x : Pfx} {link : Option Opd} {r : Src} (h : Solo s T x) (hl : atLast s.cur = true) (hu : unheld s T [r])
    (hi : ∀ o, link = some o → idle s T o.start.toNat o.slices) : ({ src := some r, link := link } : Jump).run x s
    = match (r.read (opened s T) [T] T).2 with
      | .bad k => ended (recordDrop (r.read (opened s T) [T] T).1 T k) T none (1 + crossCost [r])
      | .ok v => ended (linked (r.read (opened s T) [T] T).1 T link) T (some ⟨BitVec.ofNat 64 (v / 8 * 8), none⟩) (1 + crossCost [r]) := by
  obtain ⟨hw, hw'⟩ := jump_wrBusy (j := { src := some r, link := link }) hi
  rw [jump_solo (j := { src := some r, link := link }) h hl (src_busy hu) hw' (hu r (by simp)) hw, jump_far_left]
  cases (r.read (opened s T) [T] T).2 <;> rfl

/-- A link written behind the read of a target. -/
theorem linked_read {r : Src} (o : Opd) (h : s.iss.isSome = true) (hl : atLast s.cur = true) :
    linked (r.read (opened s T) [T] T).1 T (some o) = wrote (r.read (opened s T) [T] T).1 T o.start.toNat o.slices
      (.ok (s.cur.hdrAddr + BitVec.ofNat 64 (8 * (s.cur.words.length + 1))).toNat) := by
  rw [linked, read_cur, opened_next T h hl]

/-- LOOPD's counter as a source waits where its slices do. -/
theorem bSrc_busy (f : BForm) (hi : idle s T (bOpd f).start.toNat (bOpd f).slices) : (bSrc f).busy (opened s T) [T] T = false := by
  simpa [bSrc, Src.busy, busyX, srcThread, idle] using hi

theorem wrote_cur (s : State) (T : Tid) (lo n : Nat) (v : Val) : (wrote s T lo n v).cur = s.cur := by
  unfold wrote
  split
  · exact State.cur_modThr ..
  · exact (recordDrop_samePorts ..).cur.trans (raiseIn_cur ..)

/-- What LOOPD leaves: a poisoned counter is recorded, 0 is left, and any other is counted down (R151). -/
theorem loopd_left (s : State) (T : Tid) (f : BForm) : (loopdOp f).left s T
    = match ((bSrc f).read s [T] T).2 with
      | .bad k => (recordDrop ((bSrc f).read s [T] T).1 T k, none)
      | .ok c => if c = 0 then (((bSrc f).read s [T] T).1, none)
        else (wrote ((bSrc f).read s [T] T).1 T (bOpd f).start.toNat (bOpd f).slices (.ok (c - 1)),
          if c = 1 then none else some (brTgt s.cur f)) := by
  have hc : ((bSrc f).read s [T] T).1.cur = s.cur := read_cur ..
  simp only [WordOp.left, loopdOp]
  generalize (bSrc f).read s [T] T = a at hc
  obtain ⟨u, v⟩ := a
  rw [← show u.cur = s.cur from hc]
  cases v with
  | bad k => rfl
  | ok c =>
    by_cases h0 : c = 0
    · subst h0
      rfl
    · have h1 : c ≤ 1 ↔ c = 1 := by omega
      simp only [h0, h1, if_false, putAll_solo, wrote_cur]

/-- LOOPD, run by one thread. -/
theorem loopd_solo {f : BForm} (h : Solo s T f.x) (hl : atLast s.cur = true) (hi : idle s T (bOpd f).start.toNat (bOpd f).slices) :
    runWord { last := true } f.x false (1 + crossCost [bSrc f]) (loopdOp f) s
    = match ((bSrc f).read (opened s T) [T] T).2 with
      | .bad k => ended (recordDrop ((bSrc f).read (opened s T) [T] T).1 T k) T none (1 + crossCost [bSrc f])
      | .ok c => if c = 0 then ended ((bSrc f).read (opened s T) [T] T).1 T none (1 + crossCost [bSrc f])
        else ended (wrote ((bSrc f).read (opened s T) [T] T).1 T (bOpd f).start.toNat (bOpd f).slices (.ok (c - 1))) T
          (if c = 1 then none else some (brTgt s.cur f)) (1 + crossCost [bSrc f]) := by
  have hm : max 1 (1 + crossCost [bSrc f]) = 1 + crossCost [bSrc f] := by omega
  have hg : brTgt (opened s T).cur f = brTgt s.cur f := by rw [opened_cur h.port]; rfl
  rw [word_gate (o := loopdOp f) false _ h rfl (last_pass hl) rfl (bSrc_busy f hi) (by simpa [loopdOp, idle] using hi), loopd_left, hm, hg]
  cases ((bSrc f).read (opened s T) [T] T).2 with
  | bad k => rfl
  | ok c => by_cases h0 : c = 0 <;> simp only [h0, if_true, if_false]

end

/-- Settles O13: the five transfers are `jump_near` and `jump_far`, with the link of `linked_read`; LOOPD is `loopd_solo`. -/
theorem controlTransferResults : Obligations.ControlTransferResults := by
  refine fun s T hl => ⟨fun f h => ⟨next_eq (jump_near f.disp h hl nofun), fun hi => ⟨next_eq ?call, next_eq ?loopd⟩⟩,
    fun f h hu => ⟨next_eq ?jump, next_eq ?jump, fun hi => next_eq ?calli⟩⟩
  case call =>
    rw [jump_near f.disp h hl (by simpa using hi), linked, opened_next T h.port hl]
  case loopd =>
    have hsrc : (⟨(bOpd f).start.toNat, (bOpd f).slices, .self, 0, false⟩ : Src) = bSrc f := rfl
    rw [loopd_solo h hl hi, hsrc]
    cases ((bSrc f).read (opened s T) [T] T).2 <;> rfl
  case jump => exact (jump_far (link := none) h hl hu nofun).trans (by cases ((rA f).read (opened s T) [T] T).2 <;> rfl)
  case calli =>
    refine (jump_far (link := some f.d) h hl hu (by simpa using hi)).trans ?_
    cases ((rA f).read (opened s T) [T] T).2 with
    | bad k => rfl
    | ok v => exact congrArg (fun u => ended u T _ _) (linked_read f.d h.port hl)

/-! ### WAITW (R155) -/

/-- Settles O15: a WAITW that may proceed leaves what `waitwAt` does with its operands, case by case. -/
theorem waitwResults : Obligations.WaitwResults := by
  intro s T f h hr
  have hrun : exec (.waitw f) s = .next (ended ((waitwOp f).left (opened s T) T).1 T none (max 1 (1 + crossCost [rA f, rB f]))) :=
    next_eq (word_solo (o := waitwOp f) _ _ h hr rfl)
  simp only [hrun, WordOp.left, waitwOp]
  refine ⟨fun k hk => ?poisoned, fun hn hm => ?misaligned, fun hn hm v hv => ⟨fun hne => ?other, fun he p hp => ?same⟩⟩
  case poisoned => simp only [hk, recordAll_solo]
  case misaligned =>
    simp only [hn, waitwAt, if_pos hm, recordAll_solo]
    rfl
  case other => simp only [hn, waitwAt, hm, ne_eq, not_true_eq_false, if_false, hv, hne, not_false_eq_true, if_true]
  case same =>
    simp only [hn, waitwAt, hm, ne_eq, not_true_eq_false, if_false, hv, he, hp]
    rfl

end Sys2Proof.Machine
end

section
/-! Float words and conversions, run by one thread (R170 to R186), and the numbers of a format (R160 to R167). -/

namespace Sys2Proof.Machine

/-! ### Words of one or two numbers (R170 to R172) -/

section
variable {s : State} {T : Tid} {f : RForm}

theorem fp2_solo (t : BitVec 2) (cost : Nat) (g : Fmt → Fv → Fv → Res) (h : Solo s T f.x) (hf : aluFree s T f.d [rA f, rB f]) :
    fp2 t f cost none g s = aluDone s T f.d [rA f, rB f] cost fun l =>
      g (fmtOf t) ((fmtOf t).decode (arg l 0)) ((fmtOf t).decode (arg l 1)) := aluWord_solo cost _ h hf

theorem fp1_solo (t : BitVec 2) (g : Fmt → Nat → Res) (h : Solo s T f.x) (hf : aluFree s T f.d [rA f]) :
    fp1 t f none g s = aluDone s T f.d [rA f] 1 fun l => g (fmtOf t) (arg l 0) := aluWord_solo 1 _ h hf

/-- A word of two numbers whose result comes after `lat` cycles. -/
theorem fp2_late (t : BitVec 2) (lat : Nat) (g : Fmt → Fv → Fv → Res) (h : Solo s T f.x) (hf : aluFree s T f.d [rA f, rB f]) :
    fp2 t f 1 (some lat) g s = lateDone s T f.d [rA f, rB f] lat fun l =>
      g (fmtOf t) ((fmtOf t).decode (arg l 0)) ((fmtOf t).decode (arg l 1)) := aluWord_late lat _ h hf

/-- A word of one number whose result comes after `lat` cycles. -/
theorem fp1_late (t : BitVec 2) (lat : Nat) (g : Fmt → Nat → Res) (h : Solo s T f.x) (hf : aluFree s T f.d [rA f]) :
    fp1 t f (some lat) g s = lateDone s T f.d [rA f] lat fun l => g (fmtOf t) (arg l 0) := aluWord_late lat _ h hf

end

/-- Settles O6: each word is `fp2`, `fp1` or an ALU word whose function is the rule's own. -/
theorem floatResults : Obligations.FloatResults := by
  refine fun s T f t m h => ⟨fun hf => ?two, fun hf => next_eq (aluWord_solo _ _ h hf), fun hf => ?one⟩
  case two =>
    exact ⟨next_eq (fp2_solo t 1 (fun k a b => fpAdd k m.rnd m.sat m.px a b) h hf),
      next_eq (fp2_solo t 1 (fun k a b => fpAdd k m.rnd m.sat m.px a b.negate) h hf),
      next_eq (fp2_solo t _ (fun k a b => fpMul k m.rnd m.sat m.px a b) h hf),
      next_eq (aluWord_solo 1 _ h hf), next_eq (aluWord_solo 1 _ h hf), next_eq (aluWord_solo 1 _ h hf)⟩
  case one =>
    exact ⟨next_eq (fp1_solo t (fun k a => .val (a % k.sgn true)) h hf), next_eq (fp1_solo t (fun k a => .val (a ^^^ k.sgn true)) h hf),
      next_eq (fp1_solo t (fun k a => .val (fpClass k a % 2 ^ f.d.bits)) h hf)⟩

/-! ### Conversions (R168, R181 to R184) -/

section
variable {s : State} {T : Tid} {f : RForm}

theorem cvtb8Word_solo (b : B8) (sat : Bool) (rnd : BitVec 2) (h : Solo s T f.x) (hf : aluFree s T f.d [rA f]) :
    cvtb8Word b false sat rnd f s = aluDone s T f.d [rA f] 1 fun l => .val (b.round rnd sat ((fmtBits f.a.bits).decode (arg l 0))) :=
  aluWord_solo 1 _ h hf

theorem cvtf8Word_solo (b : B8) (t : BitVec 2) (h : Solo s T f.x) (hf : aluFree s T f.d [rA f]) :
    cvtf8Word b t f s = aluDone s T f.d [rA f] 1 fun l => fpConvert (fmtOf t) 0 false false (b.decode (arg l 0)) :=
  aluWord_solo 1 _ h hf

/-- The code and the residue that CVTB8.ef computes of what it read, or the token of its lowest poisoned operand in both (R131, R168). -/
def efPair (b : B8) (rnd : BitVec 2) (sat : Bool) (vs : List Val) : Val × Val :=
  match lowTok vs with
  | some k => (.bad k, .bad k)
  | none => let q := b8Feedback b rnd sat (arg (vs.map Val.num) 0) (arg (vs.map Val.num) 1); (.ok q.1, .ok q.2)

/-- CVTB8.ef waits for both ranges that it writes, and writes the code to D, then the residue to B. -/
theorem cvtb8Word_ef (b : B8) (sat : Bool) (rnd : BitVec 2) (h : Solo s T f.x) (hf : aluFree s T f.d [rA f, rB f])
    (hb : idle s T f.b.start.toNat f.b.slices) : cvtb8Word b true sat rnd f s =
      (let a := readSrcs [T] T [rA f, rB f] (opened s T)
      let v := efPair b rnd sat a.2
      ended (putAll (putAll a.1 a.1.cur.addr f.d.start.toNat f.d.slices v.1 none [T]) a.1.cur.addr f.b.start.toNat f.b.slices v.2 none [T])
        T none (max 1 (1 + crossCost [rA f, rB f]))) := by
  have hw : (efOp b rnd sat f).wrBusy (opened s T) T = false := by
    simp only [efOp, opened_thr, Bool.or_eq_false_iff]
    exact ⟨hf.2, hb⟩
  exact word_solo (o := efOp b rnd sat f) _ _ h (busySrcs_free hf.1) hw

end

/-- Settles O7: FCVT and FCVTI are `fp1`, the words of binary8 are `cvtb8Word` and `cvtf8Word`, and .ef is `cvtb8Word_ef`. -/
theorem conversionResults : Obligations.ConversionResults := by
  refine fun s T f t u rnd bp sg sat m h => ⟨fun hf => ?one,
    fun hf hb => ⟨next_eq (cvtb8Word_ef _ sat rnd h hf hb), next_eq (cvtb8Word_ef _ sat rnd h hf hb)⟩⟩
  case one =>
    exact ⟨next_eq (fp1_solo t (fun k a => fpConvert (fmtOf u) m.rnd m.sat m.px (k.decode a)) h hf), next_eq (aluWord_solo 1 _ h hf),
      next_eq (fp1_solo t (fun k a => fpInt sg f.d.bits rnd (k.decode a)) h hf),
      next_eq (cvtb8Word_solo _ sat rnd h hf), next_eq (cvtb8Word_solo _ sat rnd h hf),
      next_eq (cvtf8Word_solo _ t h hf), next_eq (cvtf8Word_solo _ t h hf)⟩

/-! ### Dot products and packed binary16 (R185, R186) -/

theorem b8dotWord_solo {s : State} {T : Tid} {f : RForm} (b : B8) (px : Bool) (rnd : BitVec 2) (h : Solo s T f.x)
    (hf : aluFree s T f.d [rA f, rB f, rD f]) : b8dotWord b px rnd f s = aluDone s T f.d [rA f, rB f, rD f] (if f.a.bits = 64 then 2 else 1)
      fun l => b8dot b px rnd (f.a.bits / 8) (arg l 0) (arg l 1) (arg l 2) := aluWord_solo _ _ h hf

/-- Settles O8: B8DOT is `b8dotWord`, whose result is `b8dot`; the packed words are ALU words of `halves`. -/
theorem dotAndHalfResults : Obligations.DotAndHalfResults := by
  refine fun s T f rnd bp px m h => ⟨fun hf => ⟨next_eq (aluWord_solo 1 _ h hf), next_eq (aluWord_solo 1 _ h hf)⟩, fun hf => ?three⟩
  case three =>
    exact ⟨next_eq (aluWord_solo 1 _ h hf), next_eq (b8dotWord_solo _ px rnd h hf), next_eq (b8dotWord_solo _ px rnd h hf)⟩

/-! ### Comparison (R179) -/

/-- What FCMP leaves: its predicate, and the token of a poisoned source or the fresh one of an invalid comparison recorded. -/
theorem fcmp_left (s : State) (T : Tid) (t : BitVec 2) (sig : Bool) (c : BitVec 3) (f : RForm) : ((fcmpOp t sig c f).left s T).1
    = (let a := readSrcs [T] T [rA f, rB f] s
      let x := (fmtOf t).decode (arg (a.2.map Val.num) 0)
      let y := (fmtOf t).decode (arg (a.2.map Val.num) 1)
      match lowTok a.2 with
      | some k => recordDrop (a.1.modThr T fun z => z.setPred f.d.start.toNat false) T k
      | none =>
        if fpCmpInv sig x y then
          let r := raise a.1 T cINV
          recordDrop (r.1.modThr T fun z => z.setPred f.d.start.toNat (fpCond c x y)) T r.2
        else a.1.modThr T fun z => z.setPred f.d.start.toNat (fpCond c x y)) := by
  simp only [WordOp.left, fcmpOp]
  obtain ⟨u, vs⟩ := readSrcs [T] T [rA f, rB f] s
  cases lowTok vs with
  | some k => rfl
  | none => cases fpCmpInv sig ((fmtOf t).decode (arg (vs.map Val.num) 0)) ((fmtOf t).decode (arg (vs.map Val.num) 1)) <;> rfl

/-- The conditions of R179 as its table lists them. -/
theorem fpCond_table (c : BitVec 3) (a b : Fv) : fpCond c a b = if a.isNan || b.isNan then c.toNat == 1 || c.toNat == 6
    else [fvLe a b && fvLe b a, !(fvLe a b && fvLe b a), !fvLe b a, fvLe a b, !fvLe a b, fvLe b a, false, true].getD c.toNat true := by
  have hc : c = 0 ∨ c = 1 ∨ c = 2 ∨ c = 3 ∨ c = 4 ∨ c = 5 ∨ c = 6 ∨ c = 7 := by revert c; decide
  rcases hc with rfl | rfl | rfl | rfl | rfl | rfl | rfl | rfl <;> rfl

/-- Both zeros are equal (R179). -/
theorem fvLe_zeros (n : Bool) (e : Int) : fvLe (.fin n 0 e) (.fin (!n) 0 e) = true := by
  cases n <;> simp [fvLe, atQ]

theorem fvLe_posInf {a : Fv} (h : a.isNan = false) : fvLe a (.inf false) = true := by
  cases a with
  | nan g => cases h
  | inf n => cases n <;> rfl
  | fin n m e => rfl

theorem negInf_fvLe {a : Fv} (h : a.isNan = false) : fvLe (.inf true) a = true := by
  cases a with
  | nan g => cases h
  | inf n => rfl
  | fin n m e => rfl

/-- A magnitude at its own exponent is its signed integer. -/
theorem atQ_self (n : Bool) (m : Nat) (e : Int) : atQ n m e e = if n then -(m : Int) else m := by
  simp [atQ]

theorem fvLe_sameExp (na nb : Bool) (ma mb : Nat) (e : Int) : fvLe (.fin na ma e) (.fin nb mb e)
    = decide ((if na then -(ma : Int) else ma) ≤ if nb then -(mb : Int) else mb) := by
  simp only [fvLe, min_self, atQ_self]

/-- Settles O10: FCMP leaves what `fcmp_left` has, with the table of `fpCond_table`; the example is FCMP's encoding (`decode_encode`). -/
theorem floatCompareResults : Obligations.FloatCompareResults := by
  refine ⟨fun s T f t sig cc h hu => next_eq ?word, fun n k a ha => ⟨fvLe_zeros n k.qmin, fvLe_posInf ha, negInf_fvLe ha⟩, fvLe_sameExp,
    Laws.decode_encode rfl rfl⟩
  case word =>
    refine (word_solo (o := fcmpOp t sig cc f) _ _ h (busySrcs_free hu) rfl).trans ?_
    rw [fcmp_left]
    simp only [fpCond_table]
    rfl

/-! ### The approximate functions (R177) -/

/-- Under RTZ, and under the directed mode towards zero, a result of R177 lies at or below the magnitude of its quantity. -/
abbrev roundsBelow (rnd : BitVec 2) (neg : Bool) : Prop := rnd = 1 ∨ (rnd = 3 ∧ neg = false) ∨ (rnd = 2 ∧ neg = true)

/-- The quantum at which the codes of k and a quantity are compared. -/
def Near.quantum (k : Fmt) (x : Near) : Int := min x.e k.qmin

/-- The least value of a quantity, counted in its quanta. -/
def Near.low (k : Fmt) (x : Near) : Nat := x.m * 2 ^ (x.e - x.quantum k).toNat

/-- The greatest one. -/
def Near.high (k : Fmt) (x : Near) : Nat := x.low k + x.w * 2 ^ (x.e - x.quantum k).toNat

/-- The distance of the two codes of k that bracket a quantity. -/
def Near.ulp (k : Fmt) (x : Near) : Nat :=
  let c := roundFmt k 1 true false x.m x.e true
  codeAt k (c + 1) (x.quantum k) - codeAt k c (x.quantum k)

/-- Every allowed code lies within the bound of the whole quantity, and in a directed mode on the mode's side of it. -/
theorem mem_allowedCodes {k : Fmt} {rnd : BitVec 2} {bound d : Nat} {x : Near} (h : d ∈ allowedCodes k rnd bound x) :
    let v := codeAt k d (x.quantum k)
    let b := if rnd = 0 then bound else 2 * bound
    v ≤ x.low k + b * x.ulp k ∧ x.high k ≤ v + b * x.ulp k
      ∧ (rnd ≠ 0 → if roundsBelow rnd x.neg then v ≤ x.low k else x.high k ≤ v) := by
  have hok := (Bool.and_eq_true_iff.1 (List.mem_filter.1 h).2).2
  by_cases hr : rnd = 0
  · simp only [if_pos hr, Bool.and_eq_true, decide_eq_true_eq] at hok ⊢
    exact ⟨hok.1, hok.2, absurd hr⟩
  · have hd : (decide (rnd = 1) || decide (rnd = 3) && !x.neg || decide (rnd = 2) && x.neg) = true ↔ roundsBelow rnd x.neg := by
      simp [roundsBelow, or_assoc]
    by_cases hs : roundsBelow rnd x.neg
    · simp only [if_neg hr, if_pos (hd.2 hs), Bool.and_eq_true, decide_eq_true_eq, if_pos hs] at hok ⊢
      obtain ⟨⟨hv, hx⟩, hside⟩ := hok
      exact ⟨hv, hx, fun _ => hside⟩
    · simp only [if_neg hr, if_neg (mt hd.1 hs), Bool.and_eq_true, decide_eq_true_eq, if_neg hs] at hok ⊢
      obtain ⟨⟨hv, hx⟩, hside⟩ := hok
      exact ⟨hv, hx, fun _ => hside⟩

theorem getD_mod_mem {α : Type} {l : List α} (h : l ≠ []) (i : Nat) (a : α) : l.getD (i % l.length) a ∈ l := by
  have hlt : i % l.length < l.length := Nat.mod_lt _ (List.length_pos_iff.2 h)
  rw [List.getD_eq_getElem _ _ hlt]
  exact List.getElem_mem hlt

/-- A quantity within the format's range takes one of its allowed codes, with its sign. -/
theorem approxCode_mem {k : Fmt} {rnd : BitVec 2} {bound : Nat} {x : Near} (op : Nat) (sat : Bool) (a : Nat)
    (hmax : x.low k ≤ codeAt k (k.maxBits false) (x.quantum k)) (hmin : codeAt k 1 (x.quantum k) < x.high k)
    (hne : allowedCodes k rnd bound x ≠ []) :
    ∃ d ∈ allowedCodes k rnd bound x, approxCode op k rnd sat bound a x = k.sgn x.neg + d := by
  rw [Near.high, Near.low, ← Nat.add_mul] at hmin
  have hcode : approxCode op k rnd sat bound a x = k.sgn x.neg + _ := (if_neg (not_lt.2 hmax)).trans (if_neg (not_le.2 hmin))
  exact ⟨_, getD_mod_mem hne _ _, hcode⟩

/-! ### Zeros and infinities of the three formats (R160) -/

theorem decode_zero {k : Fmt} (hk : k ∈ [f16, f32, f64]) (n : Bool) : k.decode (k.sgn n) = .fin n 0 k.qmin := by
  revert k n
  decide

theorem decode_infBits {k : Fmt} (hk : k ∈ [f16, f32, f64]) (n : Bool) : k.decode (k.infBits n) = .inf n := by
  revert k n
  decide

section
variable {k : Fmt} (hk : k ∈ [f16, f32, f64]) (rnd : BitVec 2) (px n : Bool)
include hk

theorem fpRcp_zero : fpRcp k rnd false px (k.sgn n) = .val (k.infBits n) := by
  simp only [fpRcp, decode_zero hk]
  rfl

theorem fpRcp_inf : fpRcp k rnd false px (k.infBits n) = .val (k.sgn n) := by
  simp only [fpRcp, decode_infBits hk]
  rfl

theorem fpRsq_zero : fpRsq k rnd false px (k.sgn n) = .val (k.infBits n) := by
  simp only [fpRsq, decode_zero hk]
  rfl

theorem fpRsq_posInf : fpRsq k rnd false px (k.infBits false) = .val 0 := by
  simp only [fpRsq, decode_infBits hk]
  rfl

end

/-- Settles O9: the words are `fp2_late` and `fp1_late`; an approximate code is an allowed one (`approxCode_mem`), and `mem_allowedCodes` has
where those lie. -/
theorem lateFloatResults : Obligations.LateFloatResults := by
  refine ⟨fun s T f t m h => ⟨fun hf => next_eq ?div, fun hf => ?one⟩, fun op k rnd sat bound a x hmax hmin hne => ?approx,
    fun k hk rnd px n => ⟨fpRcp_zero hk rnd px n, fpRcp_inf hk rnd px n, fpRsq_zero hk rnd px n, ?posInf⟩⟩
  case div => exact fp2_late t _ (fun k a b => fpDiv k m.rnd m.sat m.px a b) h hf
  case one =>
    exact ⟨next_eq (fp1_late t _ (fun k a => fpSqrt k m.rnd m.sat m.px (k.decode a)) h hf),
      next_eq (fp1_late t _ (fun k a => fpRcp k m.rnd m.sat m.px a) h hf), next_eq (fp1_late t _ (fun k a => fpRsq k m.rnd m.sat m.px a) h hf),
      next_eq (fp1_late t _ (fun k a => fpExp2 k m.rnd m.sat m.px a) h hf), next_eq (fp1_late t _ (fun k a => fpLog2 k m.rnd m.sat m.px a) h hf)⟩
  case approx =>
    obtain ⟨d, hd, e⟩ := approxCode_mem op sat a hmax hmin hne
    exact ⟨d, e, mem_allowedCodes hd⟩
  case posInf =>
    rintro rfl
    exact fpRsq_posInf hk rnd px

/-! ### Rounding a magnitude (R161) -/

theorem bitLen_le {m p : Nat} : bitLen m ≤ p ↔ m < 2 ^ p := by
  unfold bitLen
  split
  next h => simp [h]
  next h => exact Nat.log2_lt h

theorem lt_bitLen {m p : Nat} : p < bitLen m ↔ 2 ^ p ≤ m := by rw [← not_le, bitLen_le, not_lt]

section
variable {p m : Nat} {q e : Int} (rnd : BitVec 2) (neg : Bool) (oddAt : Nat → Int → Bool) (st : Bool)

/-- What fits the precision at a quantum of its own is not rounded: its quantum is the least one, or all p bits are used. -/
theorem roundMag_exact (hm : m < 2 ^ (p + 1)) (hq : q ≤ e) (h : e = q ∨ 2 ^ p ≤ m) :
    roundMag (p + 1) q rnd neg oddAt m e st = (m, e) := by
  have hlen : bitLen m ≤ p + 1 := bitLen_le.2 hm
  have hquantum : max (e + bitLen m - (p + 1 : Nat)) q = e := by
    rcases h with rfl | hp
    · omega
    · have := lt_bitLen.2 hp
      omega
  simp only [roundMag, hquantum, le_refl, if_true, sub_self, Int.toNat_zero, pow_zero, Nat.mul_one]

/-- A magnitude of more bits than the precision keeps all p bits, at the quantum of its leading bit or the next one. -/
theorem roundMag_long (hm : 2 ^ (p + 1) ≤ m) (hq : q ≤ e + bitLen m - (p + 1 : Nat)) :
    let r := roundMag (p + 1) q rnd neg oddAt m e st
    2 ^ p ≤ r.1 ∧ e + bitLen m - (p + 1 : Nat) ≤ r.2 := by
  have hlen : p + 1 < bitLen m := lt_bitLen.2 hm
  obtain ⟨sh, hsh⟩ : ∃ sh, bitLen m = sh + (p + 1) := ⟨bitLen m - (p + 1), by omega⟩
  have hquantum : max (e + bitLen m - (p + 1 : Nat)) q = e + sh := by omega
  have hlead : 2 ^ (sh + p) ≤ m := lt_bitLen.1 (by omega)
  have hb : 2 ^ p ≤ m / 2 ^ sh := (Nat.le_div_iff_mul_le (by positivity)).2 (by rwa [← pow_add, Nat.add_comm])
  have hshift : (e + sh - e).toNat = sh := by omega
  have hnot : ¬ e + sh ≤ e := by omega
  simp only [roundMag, hquantum, if_neg hnot, hshift]
  generalize hb' : (if roundsUp rnd neg _ st _ _ = true then m / 2 ^ sh + 1 else m / 2 ^ sh) = b
  have hge : 2 ^ p ≤ b := by split at hb' <;> omega
  by_cases hc : bitLen b > p + 1
  · have hcarry : 2 ^ (p + 1) ≤ b := lt_bitLen.1 hc
    rw [if_pos hc]
    exact ⟨by omega, by omega⟩
  · rw [if_neg hc]
    exact ⟨hge, by omega⟩

end

/-! ### The numbers of an IEEE format (R160, R161) -/

section
variable {k : Fmt} (rnd : BitVec 2) (sat n : Bool)

theorem roundFmt_subnormal {m : Nat} (hm : m < 2 ^ k.fb) : roundFmt k rnd sat n m k.qmin = k.sgn n + m := by
  have hr := roundMag_exact rnd n (fun b _ => b % 2 == 1) false (q := k.qmin) (hm.trans (Nat.pow_lt_pow_succ (by decide))) le_rfl (.inl rfl)
  simp only [roundFmt, hr, if_pos hm]

theorem roundFmt_normal {ex fr : Nat} (hfr : fr < 2 ^ k.fb) (hpos : ex ≠ 0) (hmax : ex < k.emax) :
    roundFmt k rnd sat n (2 ^ k.fb + fr) (k.qmin + ex - 1) = k.sgn n + ex * 2 ^ k.fb + fr := by
  have hr := roundMag_exact rnd n (fun b _ => b % 2 == 1) false (p := k.fb) (m := 2 ^ k.fb + fr) (q := k.qmin) (e := k.qmin + ex - 1)
    (by omega) (by omega) (.inr (by omega))
  have hex : (k.qmin + ex - 1 - k.qmin + 1).toNat = ex := by omega
  simp only [roundFmt, hr, hex, if_neg (Nat.not_lt.2 (Nat.le_add_right ..)), if_neg (Nat.not_le.2 hmax), Nat.add_sub_cancel_left]

/-- A code is its sign, its exponent field and its fraction field. -/
theorem code_fields {v : Nat} (hv : v < 2 ^ k.bits) :
    k.sgn (v / 2 ^ (k.fb + k.eb) % 2 == 1) + v / 2 ^ k.fb % 2 ^ k.eb * 2 ^ k.fb + v % 2 ^ k.fb = v := by
  have hlow : v % 2 ^ (k.fb + k.eb) = v % 2 ^ k.fb + 2 ^ k.fb * (v / 2 ^ k.fb % 2 ^ k.eb) := by rw [pow_add, Nat.mod_mul]
  have hsign : k.sgn (v / 2 ^ (k.fb + k.eb) % 2 == 1) = 2 ^ (k.fb + k.eb) * (v / 2 ^ (k.fb + k.eb)) := by
    have hlt : v / 2 ^ (k.fb + k.eb) < 2 := Nat.div_lt_of_lt_mul (by rwa [← pow_succ])
    obtain h | h := Nat.le_one_iff_eq_zero_or_eq_one.1 (Nat.lt_succ_iff.1 hlt)
    · simp [Fmt.sgn, h]
    · simp [Fmt.sgn, h]
  rw [hsign, Nat.add_assoc, Nat.mul_comm (v / 2 ^ k.fb % 2 ^ k.eb), Nat.add_comm (2 ^ k.fb * _), ← hlow, Nat.div_add_mod]

/-- A number of the format is not changed by rounding to it. -/
theorem roundFmt_decode {v m : Nat} {e : Int} (hv : v < 2 ^ k.bits) (h : k.decode v = .fin n m e) : roundFmt k rnd sat n m e = v := by
  have hfr : v % 2 ^ k.fb < 2 ^ k.fb := Nat.mod_lt _ (by positivity)
  have hex : v / 2 ^ k.fb % 2 ^ k.eb < 2 ^ k.eb := Nat.mod_lt _ (by positivity)
  have hcode := code_fields hv
  simp only [Fmt.decode] at h
  by_cases hmax : v / 2 ^ k.fb % 2 ^ k.eb = k.emax
  · rw [if_pos hmax] at h
    split at h <;> cases h
  · rw [if_neg hmax] at h
    by_cases hzero : v / 2 ^ k.fb % 2 ^ k.eb = 0
    · rw [if_pos hzero] at h
      cases h
      rw [roundFmt_subnormal rnd sat _ hfr]
      simpa [hzero] using hcode
    · rw [if_neg hzero] at h
      cases h
      rw [roundFmt_normal rnd sat _ hfr hzero (by unfold Fmt.emax at hmax ⊢; omega), hcode]

/-- The exponents of a format go beyond its precision. -/
theorem exponent_room (hk : k ∈ [f16, f32, f64]) : 1 < k.eb ∧ k.fb + 1 ≤ (k.bias + 1).toNat := by
  revert k
  decide

/-- A magnitude of at least 2^(bias + 1) overflows (R161). -/
theorem roundFmt_overflow (hk : k ∈ [f16, f32, f64]) {m : Nat} (hm : 2 ^ (k.bias + 1).toNat ≤ m) :
    roundFmt k rnd sat n m 0 = overflowBits k rnd sat n := by
  obtain ⟨heb, hfb⟩ := exponent_room hk
  have hbias : k.bias = ((2 ^ (k.eb - 1) : Nat) : Int) - 1 := by simp [Fmt.bias]
  have hq : k.qmin = 1 - k.bias - k.fb := rfl
  have hemax : k.emax + 1 = 2 * 2 ^ (k.eb - 1) := by
    have h2 : 2 ^ k.eb = 2 * 2 ^ (k.eb - 1) := by rw [← pow_succ', Nat.sub_add_cancel heb.le]
    have h1 : 0 < 2 ^ (k.eb - 1) := by positivity
    unfold Fmt.emax
    omega
  have hlen : (k.bias + 1).toNat < bitLen m := lt_bitLen.2 hm
  have hlong : 2 ^ (k.fb + 1) ≤ m := (Nat.pow_le_pow_right (by decide) hfb).trans hm
  have hr := roundMag_long rnd n (fun b _ => b % 2 == 1) false (q := k.qmin) (e := 0) hlong (by omega)
  simp only [roundFmt]
  revert hr
  generalize roundMag (k.fb + 1) k.qmin rnd n _ m 0 false = r
  rintro ⟨hr, hquantum⟩
  rw [if_neg (not_lt.2 hr), if_pos (by omega)]

end

/-! ### binary8 (R163 to R167) -/

namespace B8

/-- The sign and the magnitude code of a code (R164). -/
def negOf (f : B8) (c : Nat) : Bool := !f.uns && decide (c ≥ 0x80)
def magOf (f : B8) (c : Nat) : Nat := if f.uns then c else c % 0x80

/-- The number of a magnitude code, of either sign (R164). -/
def ofMag (f : B8) (n : Bool) (mag : Nat) : Fv :=
  if mag / 2 ^ (f.p - 1) = 0 then .fin n (mag % 2 ^ (f.p - 1)) f.qmin
  else .fin n (2 ^ (f.p - 1) + mag % 2 ^ (f.p - 1)) (f.qmin + (mag / 2 ^ (f.p - 1) : Nat) - 1)

theorem decode_eq (f : B8) (c : Nat) : f.decode c = if c = f.nanCode then .nan false
    else if !f.finite && f.magOf c == f.maxCode + 1 then .inf (f.negOf c) else f.ofMag (f.negOf c) (f.magOf c) := rfl

section
variable (f : B8) {c : Nat}

theorem code_parts (hc : c < 256) : f.sgn (f.negOf c) + f.magOf c = c := by
  cases hu : f.uns with
  | true => simp [sgn, negOf, magOf, hu]
  | false =>
    by_cases h : 0x80 ≤ c
    · have hlow : 0x80 + c % 0x80 = c := by omega
      simpa [sgn, negOf, magOf, hu, h] using hlow
    · simp [sgn, negOf, magOf, hu, h, not_le.1 h]

/-- Unsigned formats have no sign, and no format has a minus zero. -/
theorem negOf_true (hnan : c ≠ f.nanCode) (hc : c < 256) (h : f.negOf c = true) : f.uns = false ∧ f.magOf c ≠ 0 := by
  simp only [negOf, Bool.and_eq_true, Bool.not_eq_true', decide_eq_true_eq] at h
  obtain ⟨hu, hge⟩ := h
  refine ⟨hu, ?_⟩
  simp only [nanCode, magOf, hu, Bool.false_eq_true, if_false] at hnan ⊢
  omega

/-- Beyond the largest finite value there is only the infinity of an extended format. -/
theorem magOf_le (hnan : c ≠ f.nanCode) (hc : c < 256) (hinf : ¬ (f.finite = false ∧ f.magOf c = f.maxCode + 1)) : f.magOf c ≤ f.maxCode := by
  cases hu : f.uns with
  | true =>
    simp only [nanCode, magOf, maxCode, hu, if_true] at hnan hinf ⊢
    cases hf : f.finite <;> simp only [hf, true_and, if_true, Bool.false_eq_true, if_false] at hinf ⊢ <;> omega
  | false =>
    simp only [magOf, maxCode, hu, Bool.false_eq_true, if_false] at hinf ⊢
    cases hf : f.finite <;> simp only [hf, true_and, if_true, Bool.false_eq_true, if_false] at hinf ⊢ <;> omega

/-- What a code of eight bits is: NaN, an infinity of an extended format, or a signed magnitude. -/
theorem decode_cases (hc : c < 256) : (c = f.nanCode ∧ f.decode c = .nan false)
    ∨ (∃ n, f.finite = false ∧ c = f.sgn n + (f.maxCode + 1) ∧ f.decode c = .inf n)
    ∨ (∃ n mag, mag ≤ f.maxCode ∧ (n = true → f.uns = false ∧ mag ≠ 0) ∧ c = f.sgn n + mag ∧ f.decode c = f.ofMag n mag) := by
  rw [decode_eq]
  by_cases hnan : c = f.nanCode
  · exact .inl ⟨hnan, if_pos hnan⟩
  · rw [if_neg hnan]
    have hparts := (f.code_parts hc).symm
    by_cases hinf : f.finite = false ∧ f.magOf c = f.maxCode + 1
    · refine .inr (.inl ⟨f.negOf c, hinf.1, by rwa [← hinf.2], if_pos ?_⟩)
      simpa using hinf
    · refine .inr (.inr ⟨f.negOf c, f.magOf c, f.magOf_le hnan hc hinf, f.negOf_true hnan hc, hparts, if_neg ?_⟩)
      simpa using hinf

end

section
variable {f : B8} {p : Nat} (hp : f.p = p + 1) (rnd : BitVec 2) (sat n : Bool)
include hp

/-- RoundB8 of a magnitude that the precision holds, where it is code `mag` of the format. -/
theorem roundFin_exact {m mag : Nat} {e : Int} (hm : m < 2 ^ (p + 1)) (hq : f.qmin ≤ e) (h : e = f.qmin ∨ 2 ^ p ≤ m)
    (hmag : mag = if m < 2 ^ p then m else (e - f.qmin + 1).toNat * 2 ^ p + (m - 2 ^ p)) (hmax : mag ≤ f.maxCode)
    (hn : n = true → f.uns = false ∧ mag ≠ 0) : f.roundFin rnd sat n m e = f.sgn n + mag := by
  have hu : ¬ (f.uns && n && m != 0) = true := by
    cases n with
    | false => simp
    | true => simp [(hn rfl).1]
  rw [roundFin, if_neg hu, hp]
  simp only [roundMag_exact rnd n _ false hm hq h, Nat.add_sub_cancel, ← hmag]
  by_cases hz : m = 0
  · have hmag0 : mag = 0 := by rw [hmag, hz, if_pos (by positivity)]
    have hn0 : n = false := Bool.eq_false_iff.2 fun h => (hn h).2 hmag0
    simp [hz, hmag0, hn0, sgn]
  · rw [if_neg hz, if_neg (not_lt.2 hmax)]

/-- A finite number of the format is not changed by RoundB8. -/
theorem round_ofMag {mag : Nat} (hmax : mag ≤ f.maxCode) (hn : n = true → f.uns = false ∧ mag ≠ 0) :
    f.round rnd sat (f.ofMag n mag) = f.sgn n + mag := by
  have ht : mag % 2 ^ p < 2 ^ p := Nat.mod_lt _ (by positivity)
  have hparts := Nat.div_add_mod' mag (2 ^ p)
  simp only [ofMag, hp, Nat.add_sub_cancel]
  generalize mag / 2 ^ p = ex at hparts ⊢
  generalize mag % 2 ^ p = t at ht hparts ⊢
  by_cases hz : ex = 0
  · rw [if_pos hz]
    refine roundFin_exact hp rnd sat n (ht.trans (Nat.pow_lt_pow_succ (by decide))) le_rfl (.inl rfl) ?_ hmax hn
    rw [if_pos ht]
    simpa [hz] using hparts.symm
  · rw [if_neg hz]
    refine roundFin_exact hp rnd sat n (by omega) (by omega) (.inr (Nat.le_add_right ..)) ?_ hmax hn
    have hex : (f.qmin + ex - 1 - f.qmin + 1).toNat = ex := by omega
    rw [if_neg (Nat.not_lt.2 (Nat.le_add_right ..)), hex, Nat.add_sub_cancel_left, hparts]

end

/-- A signed magnitude stands for a finite number. -/
theorem ofMag_fin (f : B8) (n : Bool) (mag : Nat) : ∃ m e, f.ofMag n mag = .fin n m e := by
  unfold ofMag
  split
  · exact ⟨_, _, rfl⟩
  · exact ⟨_, _, rfl⟩

end B8

/-- The precision, signedness and domain that BP and the word's form name (R163). -/
theorem b8Of_fields (p : Fin 7) (fin uns : Bool) : b8Of (BitVec.ofNat 4 (p.val + 1 + if fin then 8 else 0)) uns = ⟨p.val + 1, uns, fin⟩ := by
  revert p fin uns
  decide

/-- Settles O11: rounding keeps the numbers of an IEEE format (`roundFmt_decode`) and of a binary8 one (`B8.round_ofMag`), a magnitude beyond
the format overflows (`roundFmt_overflow`), and `B8.decode_cases` has the special codes; the worked example is evaluated. -/
theorem numberFormatResults : Obligations.NumberFormatResults := by
  refine ⟨fun k hk v hv rnd sat n m e h => roundFmt_decode rnd sat n hv h, fun k hk n m hm => ?overflow, fun p fin uns c rnd => ?codes,
    by decide, by decide, by decide⟩
  case overflow =>
    have ho : ∀ rnd sat, roundFmt k rnd sat n m 0 = overflowBits k rnd sat n := fun rnd sat => roundFmt_overflow rnd sat n hk hm
    exact ⟨ho 0 false, ho 1 false, (ho 2 false).trans (by cases n <;> rfl), (ho 3 false).trans (by cases n <;> rfl), fun rnd => ho rnd true⟩
  case codes =>
    intro b
    have hb : b = ⟨p.val + 1, uns, fin⟩ := b8Of_fields p fin uns
    clear_value b
    subst hb
    obtain ⟨hc, e⟩ | ⟨n, hfin, hc, e⟩ | ⟨n, mag, hmax, hn, hc, e⟩ := B8.decode_cases ⟨p.val + 1, uns, fin⟩ c.isLt
    · rw [e]
      exact beq_iff_eq.2 hc
    · rw [e]
      obtain rfl : fin = false := hfin
      exact beq_iff_eq.2 (hc.trans (by cases uns <;> cases n <;> rfl))
    · obtain ⟨m, q, hv⟩ := B8.ofMag_fin ⟨p.val + 1, uns, fin⟩ n mag
      have hr := fun sat => (B8.round_ofMag rfl rnd sat n hmax hn).trans hc.symm
      rw [hv] at e hr
      simp only [e, hr, beq_self_eq_true, Bool.and_self]

end Sys2Proof.Machine
end

section
/-! Translation, loads and stores of global memory, run by one thread (R187 to R191, R200, R202 to R204, R212). -/

namespace Sys2Proof.Machine

/-! ### Loads (R202 to R204) -/

theorem sizeBits_bytes (size : BitVec 2) : sizeBits size / 8 = 2 ^ size.toNat := Nat.mul_div_cancel_left _ (by decide)

/-- Settles O21: both words are `loadOp` behind their watch check, which one thread runs as `load_solo` says. -/
theorem loadResults : Obligations.LoadResults := by
  intro s T f h hu hr
  refine ⟨fun sx size hint hw hd => ?_, fun n size hint hw hd => next_eq (load_solo h hu hr hw hd.1 hd.2)⟩
  have hb := sizeBits_bytes size
  exact next_eq (load_solo h hu hr (by rw [hb]; exact hw) hd.1 hd.2)

theorem putLoaded_tok (s : State) (T : Tid) (d : LdSpec) (e : Elem) (ea : W64) (k : Tok) (kind : ReqKind) :
    putLoaded s [T] d [⟨e, ea, .tok k⟩] kind = wrote s T e.lo e.n (.bad k) := putAll_solo ..

theorem putLoaded_got (s : State) (T : Tid) (d : LdSpec) (e : Elem) (ea : W64) (g : Got) (kind : ReqKind) :
    putLoaded s [T] d [⟨e, ea, .got g⟩] kind = (addReq s (coreOf T) [T] s.cur.addr [⟨e.lo, e.n, g⟩] kind s.cfg.loadLatency).1 := rfl

section
variable {s : State} {t : Tid} {ea : W64} {bits : Nat} (nl1 evf : Bool) (fit : Nat → Nat)

theorem loadAt_misaligned (h : ea.toNat % (bits / 8) ≠ 0) :
    loadAt s t ea bits nl1 evf fit = ((raise s t cBND ea).1, .tok (raise s t cBND ea).2) := if_pos h

theorem loadAt_fault {f : Nat} (h : ea.toNat % (bits / 8) = 0) (hx : (xlat s t .load ea).2 = .fault f) :
    loadAt s t ea bits nl1 evf fit = if f = cNR then ((xlat s t .load ea).1, .absent)
      else ((raise (xlat s t .load ea).1 t f ea).1, .tok (raise (xlat s t .load ea).1 t f ea).2) := by
  simp [loadAt, h, hx]

theorem loadAt_carried {k : Tok} (h : ea.toNat % (bits / 8) = 0) (hx : (xlat s t .load ea).2 = .carried k) :
    loadAt s t ea bits nl1 evf fit = ((raiseCarried (xlat s t .load ea).1 t (s.thr t).pc k ea).1,
      .tok (raiseCarried (xlat s t .load ea).1 t (s.thr t).pc k ea).2) := by
  simp [loadAt, h, hx]

theorem gotOf_word (ea : W64) (bits sh : Nat) (v : Val) (fit : Nat → Nat) : gotOf ea bits sh [v] fit = match v with
    | .bad k => .carried k (BitVec.ofNat 64 (ea.toNat / 4 * 4))
    | .ok x => .clean (fit (x / 2 ^ sh % 2 ^ bits)) := by
  cases v <;> rfl

theorem l1Load_hit {p : Page} {w : Nat} {e : L1Word} (h : tget (l1Key p.peer w) (s.core (coreOf t)).l1 = some e) :
    l1Load s t p w nl1 evf = (s, e.val) := by
  simp [l1Load, h]

theorem loadAt_cached {p : Page} {e : L1Word} (h : ea.toNat % (bits / 8) = 0) (hb : bits ≤ 32) (hx : (xlat s t .load ea).2 = .ok p)
    (hp : p.peer = 0 ∨ p.mode = 1) (he : tget (l1Key p.peer (p.pa / 4)) ((xlat s t .load ea).1.core (coreOf t)).l1 = some e) :
    loadAt s t ea bits nl1 evf fit = ((xlat s t .load ea).1,
      .got (gotOf ea bits (p.pa % 4 * 8) [forwardAt (xlat s t .load ea).1 t false ea.toNat (.glob p.peer (p.pa / 4)) e.val] fit)) := by
  have h64 : bits ≠ 64 := by omega
  have hl : (p.peer != 0 && !(p.mode == 1)) = false := by rcases hp with hp | hp <;> simp [hp]
  simp [loadAt, h, hx, h64, he, hl, l1Words, l1Load_hit nl1 evf he]
end

/-- Settles O22: the outcomes of one element are `loadAt`'s branches in the order of its checks; that the words are read at issue and
answered after `loadLatency` is the model's choice (assumptions 63 and 15). -/
theorem loadOutcome : Obligations.LoadOutcome := by
  refine ⟨fun s t ea bits nl1 evf fit => ⟨loadAt_misaligned nl1 evf fit, fun h => ⟨fun hx => ?_, fun f hf hx => ?_, fun k hx => ?_, ?_⟩⟩,
    fun s T d e ea => ⟨fun k => putLoaded_tok .., fun g => putLoaded_got ..⟩⟩
  · rw [loadAt_fault nl1 evf fit h hx, if_pos rfl]
  · rw [loadAt_fault nl1 evf fit h hx, if_neg hf]
  · exact loadAt_carried nl1 evf fit h hx
  · exact fun p w hb hx hp he => (loadAt_cached nl1 evf fit h hb hx hp he).trans (congrArg (fun g => (_, LdRes.got g)) (gotOf_word ..))

/-! ### Translation (R187 to R190) -/

theorem lookup_high (s : State) (c : Nat) (sp : Space) {va : W64} (h : 2 ^ 52 ≤ va.toNat) : lookup s c sp va = (s, .fault cPROT) := if_pos h

/-- Where no cached leaf covers the address, the walk decides. -/
theorem lookup_walk_fault {s : State} {c : Nat} {sp : Space} {va : W64} {f : Nat} (h : va.toNat < 2 ^ 52)
    (ht : tlbHit sp.asid va.toNat (s.core c).tlb = none) (hd : tlbHit sp.asid va.toNat (s.die (dieOf c)).cache = none)
    (hw : (walk s (s.die (dieOf c)).cache sp.asid va.toNat sp.root 4).1 = .fault f) : lookup s c sp va = (s, .fault f) := by
  have h' : ¬ 2 ^ 52 ≤ va.toNat := by omega
  generalize hq : walk s (s.die (dieOf c)).cache sp.asid va.toNat sp.root 4 = q at hw
  obtain ⟨w, l⟩ := q
  subst hw
  simp only [lookup, h', ht, hd, hq, if_false]

theorem walk_cached {s : State} {cache : List TlbEnt} {asid va level : Nat} {e : TlbEnt} (base : Nat) (h : tableHit asid va level cache = some e) :
    walk s cache asid va base (level + 1) = walk s cache asid va (tableNext e.leaf) level := by
  simp only [walk, h]

section
variable {s : State} {cache : List TlbEnt} {asid va base level : Nat} (h : tableHit asid va level cache = none)
include h

theorem walk_poisoned {k : Tok}
    (hb : firstBad [homeWord s ((base + 8 * levelIndex va level) / 4), homeWord s ((base + 8 * levelIndex va level) / 4 + 1)] = some k) :
    walk s cache asid va base (level + 1) = (.carried k, []) := by
  simp only [walk, h, hb]

/-- The step of a walk that reads a clean entry: the entry's checks, then the leaf or the table below. -/
theorem walk_entry {a b : Nat} (h0 : homeWord s ((base + 8 * levelIndex va level) / 4) = .ok a)
    (h1 : homeWord s ((base + 8 * levelIndex va level) / 4 + 1) = .ok b) :
    walk s cache asid va base (level + 1) = let e : W64 := BitVec.ofNat 64 (a + 2 ^ 32 * b)
      let below := walk s cache asid va (tableNext e) level
      if e.getLsbD 0 = false then (.fault cNR, [])
      else if entryBad e level then (.fault cPROT, [])
      else if e.getLsbD 1 then (below.1, ⟨asid, va / 2 ^ 16, level, e, base + 8 * levelIndex va level⟩ :: below.2)
      else (.leaf e level (base + 8 * levelIndex va level), []) := by
  simp [walk, h, h0, h1, firstBad, wordsNum]

end

/-- Settles O23: `walk_cached`, `walk_poisoned` and `walk_entry` are one level of the walk, `lookup_walk_fault` what translation
does with its fault. -/
theorem translationChecks : Obligations.TranslationChecks := by
  refine ⟨fun s c sp user a va h => ?_, fun s cache asid va base level => ⟨fun e h => walk_cached base h, fun h => ⟨?_, ?_, ?_⟩⟩,
    fun s c sp user a va f hv ht hd hw => ?_, fun s user a p => ?_⟩
  · simp only [translate, lookup_high s c sp h]
  · exact fun k h0 => walk_poisoned h (congrArg (fun v => firstBad [v, _]) h0)
  · exact fun a k h0 h1 => walk_poisoned h (congrArg₂ (fun v w => firstBad [v, w]) h0 h1)
  · exact fun a b h0 h1 => walk_entry h h0 h1
  · simp only [translate, lookup_walk_fault hv ht hd hw]
  · simp [leafFail]

/-! ### Stores (R202 to R204, R212) -/

/-- A store of one thread (R202 to R204). -/
theorem store_solo {s : State} {T : Tid} {f : MForm} {d : LdSpec} {ks : List Nat} {n c : Nat} (h : Solo s T f.x) (hu : unheld s T [mA f])
    (hr : reqFull s (coreOf T) = false) (hw : unwatched s T f ks n) (hd : ∀ e ∈ d.els, idle s T e.lo e.n) :
    runWord (memGate f ks n) f.x (mA f).endc (1 + c) (storeOp f d) s
      = ended (match ((mA f).read (opened s T) [T] T).2 with
        | .bad k => recordDrop (readStore f d.bits [T] T d.els ((mA f).read (opened s T) [T] T).1).1 T k
        | .ok b => (d.els.zip (readStore f d.bits [T] T d.els ((mA f).read (opened s T) [T] T).1).2).foldl
            (fun s e => storeAt s T [T] (eaOf f b + BitVec.ofNat 64 e.1.off) d.bits e.2 d.nl1 d.evf)
            (readStore f d.bits [T] T d.els ((mA f).read (opened s T) [T] T).1).1) T none (1 + c) := by
  have hp : (d.els.any fun e => ((opened s T).thr T).pending e.lo e.n) = false := by
    rw [List.any_eq_false]
    intro e he
    rw [opened_thr, hd e he]
    decide
  rw [word_gate (g := memGate f ks n) (o := storeOp f d) _ _ h hw.1 (memgate_pass hw) rfl ?_ rfl, Nat.max_eq_right (Nat.le_add_right 1 c)]
  · unfold WordOp.left
    simp only [storeOp]
    cases ((mA f).read (opened s T) [T] T).2 <;> rfl
  · simp only [storeOp, src_busy hu, reqFull_opened, hr, hp, Bool.or_self]

section
variable {s : State} {T : Tid} {ea : W64} {bits : Nat} (ts : List Tid) (vs : List Val) (nl1 evf : Bool)

theorem storeAt_misaligned (h : ea.toNat % (bits / 8) ≠ 0) : storeAt s T ts ea bits vs nl1 evf
    = failStore (raise s T cBND ea).1 T ea ts (raise s T cBND ea).2 (failKeys s T ea bits) := if_pos h

theorem storeAt_fault {k : Nat} (h : ea.toNat % (bits / 8) = 0) (hx : (xlat s T .store ea).2 = .fault k) :
    storeAt s T ts ea bits vs nl1 evf = failStore (raiseStore (xlat s T .store ea).1 T k ea).1 T ea ts
      (raiseStore (xlat s T .store ea).1 T k ea).2 (failKeys s T ea bits) := by
  simp [storeAt, h, hx]

theorem storeAt_held {p : Page} (h : ea.toNat % (bits / 8) = 0) (hx : (xlat s T .store ea).2 = .ok p) (hh : holding s T = true) :
    storeAt s T ts ea bits vs nl1 evf = holdAll (xlat s T .store ea).1 T ea ((storeWords p.pa bits vs).map fun w =>
      { tid := T, key := .glob p.peer w.1, va := BitVec.ofNat 64 (ea.toNat / 4 * 4 + 4 * (w.1 - p.pa / 4)), pc := (s.thr T).pc
        nl1 := nl1, evf := evf, mtc := p.mtc, mode := p.mode, at_ := p.at_, level := p.via.2.2, wide := bits == 64
        mask := w.2.1, val := w.2.2 }) := by
  simp [storeAt, h, hx, hh]

theorem storeAt_performs {p : Page} (h : ea.toNat % (bits / 8) = 0) (hx : (xlat s T .store ea).2 = .ok p) (hh : holding s T = false) :
    storeAt s T ts ea bits vs nl1 evf = performStore (xlat s T .store ea).1 T ea p (storeWords p.pa bits vs) nl1 evf := by
  simp [storeAt, h, hx, hh]

end

theorem performStore_here (s : State) (T : Tid) (ea : W64) {p : Page} (h : p.peer = 0) (ws : List (Nat × BitVec 4 × Val)) (nl1 evf : Bool) :
    performStore s T ea p ws nl1 evf = ws.foldl (fun s w => l1Store s T p w.1 w.2.1 w.2.2 nl1 evf) (setDC s p) := if_pos h

theorem not_holding {s : State} {T : Tid} (h : (s.thr T).leg = none ∨ (s.thr T).hdepth ≠ 0) : holding s T = false := by
  rcases h with h | h <;> simp [holding, h]

/-- Settles O24: the words are `store_solo`, and an element fails (`failStore`), is held or performs as `storeAt`'s branches say. That it
enters the L1 at issue is the model's choice (assumption 63). -/
theorem storeResults : Obligations.StoreResults := by
  refine ⟨fun s T f h hu hr => ⟨fun size hint hw hd => ?_, fun n size hint hw hd => next_eq (store_solo h hu hr hw hd)⟩,
    fun s T ea bits vs nl1 evf => ⟨storeAt_misaligned [T] vs nl1 evf, fun ha => ⟨fun k hx => storeAt_fault [T] vs nl1 evf ha hx,
      fun p hx => ⟨fun hl h0 => storeAt_held [T] vs nl1 evf ha hx (by simp [holding, hl, h0]), fun hn hp => ?_⟩⟩⟩⟩
  · refine next_eq (store_solo (d := ⟨_, _, _, _, [_]⟩) h hu hr ?_ (by simpa using hd))
    rw [sizeBits_bytes]
    exact hw
  · rw [storeAt_performs [T] vs nl1 evf ha hx (not_holding hn), performStore_here _ _ _ hp]

end Sys2Proof.Machine
end

section
/-! Probe loads, page requests and atomics, run by one thread (R206 to R208). -/

namespace Sys2Proof.Machine

/-! ### LDP (R206) -/

theorem absent_iff (s : State) (t : Tid) (ea : W64) : absent s t ea = true ↔ (xlat s t .load ea).2 = .fault cNR := by
  unfold absent
  cases (xlat s t .load ea).2 <;> simp

theorem loadAt_present {s : State} {t : Tid} {ea : W64} {bits : Nat} (nl1 evf : Bool) (fit : Nat → Nat) (h : ¬ absent s t ea = true) :
    (loadAt s t ea bits nl1 evf fit).2 ≠ .absent := by
  rw [absent_iff] at h
  by_cases ha : ea.toNat % (bits / 8) = 0
  · cases hx : (xlat s t .load ea).2 with
    | fault f =>
      have hf : f ≠ cNR := by rintro rfl; exact h hx
      rw [loadAt_fault nl1 evf fit ha hx, if_neg hf]
      exact LdRes.noConfusion
    | carried k =>
      rw [loadAt_carried nl1 evf fit ha hx]
      exact LdRes.noConfusion
    | ok p =>
      simp only [loadAt, ha, hx, ne_eq, not_true_eq_false, if_false]
      split_ifs <;> exact not_false
  · rw [loadAt_misaligned nl1 evf fit ha]
    exact LdRes.noConfusion

/-- What a probe load finds (R206). -/
theorem ldp_eff (f : MForm) (pred : BitVec 3) (d : LdSpec) (s : State) (T : Tid) (ts : List Tid) (b : Nat) :
    (ldpOp f pred d).eff s T ts (.ok b) = if absent s T (eaOf f b) then ((xlat s T .load (eaOf f b)).1, .miss)
      else ((loadAt s T (eaOf f b) d.bits false false (fitLoad d.bits d.sx f.d.bits)).1, .hit (resident s T (eaOf f b))
        ⟨⟨0, f.d.start.toNat, f.d.slices⟩, eaOf f b, (loadAt s T (eaOf f b) d.bits false false (fitLoad d.bits d.sx f.d.bits)).2⟩) := by
  simp only [ldpOp]
  split
  · rfl
  · next ha =>
    split
    · next h => exact absurd h (loadAt_present _ _ _ ha)
    · rfl

/-- A probe load of one thread whose address reads b (R206). -/
theorem ldp_left {f : MForm} {pred : BitVec 3} {d : LdSpec} {s : State} {T : Tid} {b : Nat} (h : ((mA f).read s [T] T).2 = .ok b) :
    (ldpOp f pred d).left s T = (
      let u := ((mA f).read s [T] T).1
      if absent u T (eaOf f b) then
        putClean ((xlat u T .load (eaOf f b)).1.modThr T fun x => x.setPred pred.toNat false) (xlat u T .load (eaOf f b)).1.cur.addr f.d 0 [T]
      else
        let l := loadAt u T (eaOf f b) d.bits false false (fitLoad d.bits d.sx f.d.bits)
        putLoaded (l.1.modThr T fun x => x.setPred pred.toNat (resident u T (eaOf f b))) [T] d
          [⟨⟨0, f.d.start.toNat, f.d.slices⟩, eaOf f b, l.2⟩],
      none) := by
  have he := ldp_eff f pred d ((mA f).read s [T] T).1 T [T] b
  rw [← h] at he
  unfold WordOp.left
  simp only [show (ldpOp f pred d).rd s [T] T = (mA f).read s [T] T from rfl, he]
  split <;> rfl

theorem ldp_left_poisoned {f : MForm} {pred : BitVec 3} {d : LdSpec} {s : State} {T : Tid} {k : Tok} (h : ((mA f).read s [T] T).2 = .bad k) :
    (ldpOp f pred d).left s T = (putLoaded (((mA f).read s [T] T).1.modThr T fun x => x.setPred pred.toNat false) [T] d
      [⟨⟨0, f.d.start.toNat, f.d.slices⟩, 0, .tok k⟩], none) := by
  unfold WordOp.left
  simp only [ldpOp, h]
  rfl

/-- Nothing holds a load of one thread (R115, R194, R195). -/
theorem load_rdBusy {s : State} {T : Tid} {f : MForm} {d : LdSpec} (hp : s.iss.isSome = true) (hu : unheld s T [mA f])
    (hr : reqFull s (coreOf T) = false)
    (hf : ∀ ea, cleanEa f s [T] T = some ea → ∀ e ∈ d.els, fillBusy (opened s T) T (ea + BitVec.ofNat 64 e.off) d.bits = false) :
    (loadOp f d).rdBusy (opened s T) [T] T = false := by
  simp only [loadOp, src_busy hu, reqFull_opened, hr, Bool.false_or, cleanEa_opened f hp]
  cases e : cleanEa f s [T] T with
  | none => rfl
  | some ea =>
    simp only [List.any_eq_false]
    intro x hx
    simpa using hf ea e x hx

theorem ldp_solo {s : State} {T : Tid} {f : MForm} {pred : BitVec 3} {d : LdSpec} {ks : List Nat} {n : Nat} (h : Solo s T f.x)
    (hw : unwatched s T f ks n) (hb : (loadOp f d).rdBusy (opened s T) [T] T = false) (hi : idle s T f.d.start.toNat f.d.slices) :
    runWord (memGate f ks n) f.x (mA f).endc (memCost f) (ldpOp f pred d) s
      = ended ((ldpOp f pred d).left (opened s T) T).1 T none (1 + crossCost [mA f]) := by
  rw [word_gate (g := memGate f ks n) (o := ldpOp f pred d) _ _ h hw.1 (memgate_pass hw) rfl hb (by simpa [ldpOp, idle] using hi), memcost]
  rfl

/-! ### PGREQ (R207) -/

theorem pageRoom_opened (s : State) (T : Tid) (c asid page : Nat) : pageRoom (opened s T) c asid page = pageRoom s c asid page := by
  simp [pageRoom, pageEntry, State.die]

theorem pgreq_solo {s : State} {T : Tid} {f : MForm} (h : Solo s T f.x) (hu : unheld s T [mA f])
    (hr : ∀ ea p, cleanEa f s [T] T = some ea → absentPage (opened s T) T ea = some p → pageRoom (opened s T) (coreOf T) p.asid p.page = true) :
    runWord {} f.x (mA f).endc (memCost f) (pgreqOp f) s = ended (match ((mA f).read (opened s T) [T] T).2 with
      | .bad k => recordDrop ((mA f).read (opened s T) [T] T).1 T k
      | .ok b => match absentPage ((mA f).read (opened s T) [T] T).1 T (eaOf f b) with
        | some p => pageRequest ((mA f).read (opened s T) [T] T).1 (coreOf T) p.asid p.page false false
        | none => ((mA f).read (opened s T) [T] T).1) T none (1 + crossCost [mA f]) := by
  have hb : (pgreqOp f).rdBusy (opened s T) [T] T = false := by
    simp only [pgreqOp, src_busy hu, Bool.false_or, cleanEa_opened f h.port]
    cases he : cleanEa f s [T] T with
    | none => rfl
    | some ea =>
      cases hp : absentPage (opened s T) T ea with
      | none => simp only [hp]
      | some p => simp only [hp, hr ea p he hp, Bool.not_true]
  rw [word_solo (o := pgreqOp f) _ _ h hb rfl, memcost]
  unfold WordOp.left
  simp only [pgreqOp]
  cases ((mA f).read (opened s T) [T] T).2 <;> rfl

/-! ### ATOM (R208) -/

theorem lowTok_head {vs : List Val} (h : lowTok vs = none) : ∃ v, vs.headD (.ok 0) = .ok v := by
  cases vs with
  | nil => exact ⟨0, rfl⟩
  | cons v l =>
    cases v with
    | ok v => exact ⟨v, rfl⟩
    | bad k => exact nomatch h

section
variable {op : BitVec 4} {scope : BitVec 3} {sz : Bool} {f : MForm} {s : State} {T : Tid}

/-- An ATOM of one thread with a poisoned operand (R202, R208). -/
theorem atom_left_poisoned {r : State × List Val} {k : Tok} (hr : readSrcs [T] T (mA f :: atomData op f) s = r) (h : lowTok r.2 = some k) :
    (atomOp op scope sz f).left s T = (wrote (match r.2.head? with | some (.bad j) => recordDrop (noReplay r.1 [T]) T j | _ => noReplay r.1 [T])
      T f.d.start.toNat f.d.slices (.bad k), none) := by
  unfold WordOp.left
  simp only [atomOp, hr, h, putLoaded_tok]
  rcases r.2 with _ | ⟨_ | _, _⟩ <;> rfl

/-- What an ATOM of one thread does at an address that translates (R208, R225). -/
def atomAt (op : BitVec 4) (scope : BitVec 3) (sz : Bool) (d : Opd) (s1 u : State) (T : Tid) (ea : W64) (p : Page) (n : List Nat) : State :=
  let w := if sz then 64 else 32
  if p.peer = 0 then
    let q := atomHere u T ea p scope op w (arg n 1) (arg n 2)
    (addReq q.1 (coreOf T) [T] q.1.cur.addr [⟨d.start.toNat, d.slices, q.2⟩] (if scope.toNat ≤ 1 then .load else .atom) q.1.cfg.loadLatency).1
  else
    let ks := (List.range (w / 32)).map fun i => p.pa / 4 + i
    let u := migCount (dropPeer u (coreOf T) p.peer ks) ((s1.core (coreOf T)).ptbr.toNat % 4096) ea p
    let q := addReq u (coreOf T) [T] u.cur.addr [⟨d.start.toNat, d.slices, .clean 0⟩] .remote 0
    fabSend q.1 3 p.peer { core := coreOf T, tid := T, pc := u.cur.addr, ea := ea, use := .req q.2, write := true,
                           lo := p.pa, hi := p.pa + w / 8, bits := w }
      (reqPayload p.pa (arg n 1) 0 0 (op.toNat + if sz then 256 else 0) (arg n 2) (identOf u.fab.dev.toNat T)) []

/-- An ATOM of one thread with clean operands (R208). -/
theorem atom_left_clean {r : State × List Val} (hr : readSrcs [T] T (mA f :: atomData op f) s = r) (h : lowTok r.2 = none) :
    (atomOp op scope sz f).left s T = (
      let ea := eaOf f (arg (r.2.map Val.num) 0)
      let s1 := noReplay r.1 [T]
      let x := xlat s1 T .store ea
      if ea.toNat % ((if sz then 64 else 32) / 8) ≠ 0 then wrote (raise s1 T cBND ea).1 T f.d.start.toNat f.d.slices (.bad (raise s1 T cBND ea).2)
      else match x.2 with
        | .fault k => wrote (raise x.1 T k ea).1 T f.d.start.toNat f.d.slices (.bad (raise x.1 T k ea).2)
        | .carried k => let q := raiseCarried x.1 T (s1.thr T).pc k ea; wrote q.1 T f.d.start.toNat f.d.slices (.bad q.2)
        | .ok p => atomAt op scope sz f.d s1 x.1 T ea p (r.2.map Val.num), none) := by
  obtain ⟨v, hv⟩ := lowTok_head h
  unfold WordOp.left
  simp only [atomOp, hr, h, hv]
  by_cases ha : (eaOf f (arg (r.2.map Val.num) 0)).toNat % ((if sz then 64 else 32) / 8) = 0
  · simp only [ha, ne_eq, not_true_eq_false, if_false]
    cases (xlat (noReplay r.1 [T]) T .store (eaOf f (arg (r.2.map Val.num) 0))).2 with
    | fault k => simp only [putLoaded_tok]
    | carried k => simp only [putLoaded_tok]
    | ok p => by_cases hp : p.peer = 0 <;> simp only [hp, atomAt, if_true, if_false, putLoaded_got]
  · simp only [ha, ne_eq, not_false_eq_true, if_true, putLoaded_tok]

/-- Nothing holds an ATOM of one thread (R115, R195). -/
theorem atom_rdBusy (hp : s.iss.isSome = true) (hu : unheld s T (mA f :: atomData op f)) (hr : reqFull s (coreOf T) = false)
    (hf : ∀ ea, cleanEa f s [T] T = some ea → fillBusy (opened s T) T ea (if sz then 64 else 32) = false) :
    (atomOp op scope sz f).rdBusy (opened s T) [T] T = false := by
  simp only [atomOp, busySrcs_free hu, reqFull_opened, hr, Bool.false_or, cleanEa_opened f hp]
  cases e : cleanEa f s [T] T with
  | none => rfl
  | some ea => exact hf ea e

theorem atom_solo {ks : List Nat} {n : Nat} (h : Solo s T f.x) (hw : unwatched s T f ks n)
    (hb : (atomOp op scope sz f).rdBusy (opened s T) [T] T = false) (hi : idle s T f.d.start.toNat f.d.slices) :
    runWord (memGate f ks n) f.x (mA f).endc (dataCost f (atomData op f)) (atomOp op scope sz f) s
      = ended ((atomOp op scope sz f).left (opened s T) T).1 T none (1 + crossCost (mA f :: atomData op f)) := by
  have hm : max 1 (dataCost f (atomData op f)) = 1 + crossCost (mA f :: atomData op f) := Nat.max_eq_right (Nat.le_add_right ..)
  rw [word_gate (g := memGate f ks n) (o := atomOp op scope sz f) _ _ h hw.1 (memgate_pass hw) rfl hb (by simpa [atomOp, idle] using hi), hm]
  rfl

end

theorem toSigned_word (b : BitVec 32) : toSigned 32 b.toNat = b.toInt := toSigned_toNat (by decide) b

/-- The table of R208 on words of 32 bits. -/
theorem atomNew_word (old d n : BitVec 32) : atomNew 0 32 old.toNat d.toNat n.toNat = (old + d).toNat
    ∧ atomNew 1 32 old.toNat d.toNat n.toNat = (if d.slt old then d else old).toNat
    ∧ atomNew 2 32 old.toNat d.toNat n.toNat = (if d.ult old then d else old).toNat
    ∧ atomNew 3 32 old.toNat d.toNat n.toNat = (if old.slt d then d else old).toNat
    ∧ atomNew 4 32 old.toNat d.toNat n.toNat = (if old.ult d then d else old).toNat
    ∧ atomNew 5 32 old.toNat d.toNat n.toNat = (old &&& d).toNat ∧ atomNew 6 32 old.toNat d.toNat n.toNat = (old ||| d).toNat
    ∧ atomNew 7 32 old.toNat d.toNat n.toNat = (old ^^^ d).toNat ∧ atomNew 8 32 old.toNat d.toNat n.toNat = d.toNat
    ∧ atomNew 9 32 old.toNat d.toNat n.toNat = (if old = d then n else old).toNat := by
  refine ⟨(BitVec.toNat_add ..).symm, ?smin, ?umin, ?smax, ?umax, (BitVec.toNat_and ..).symm,
    (BitVec.toNat_or ..).symm, (BitVec.toNat_xor ..).symm, rfl, ?cas⟩
  case smin => simp [atomNew, toSigned_word, BitVec.slt, apply_ite BitVec.toNat]
  case smax => simp [atomNew, toSigned_word, BitVec.slt, apply_ite BitVec.toNat]
  case umin =>
    by_cases h : d.toNat < old.toNat <;> simp [atomNew, BitVec.ult, h] <;> omega
  case umax =>
    by_cases h : old.toNat < d.toNat <;> simp [atomNew, BitVec.ult, h] <;> omega
  case cas => simp [atomNew, apply_ite BitVec.toNat, BitVec.toNat_inj]

/-- Settles O25: LDP and ATOM leave what `ldp_left` and `atom_left_clean` say, or their poison forms; PGREQ is `pgreq_solo`, the table is
`atomNew_word`. That both are performed at issue and their latency are the model's choice (assumptions 63 and 15). -/
theorem probeAndAtomResults : Obligations.ProbeAndAtomResults := by
  refine ⟨fun s T f h => ⟨fun sx size pred hw hu hfree => ?ldp, fun hu hr => next_eq (pgreq_solo h hu hr),
    fun op scope sz => ?atom⟩, atomNew_word⟩
  case ldp =>
    obtain ⟨hr, hi, hf⟩ := hfree
    have hb := load_rdBusy (d := ⟨8 * 2 ^ size.toNat, false, false, sx, [⟨0, f.d.start.toNat, f.d.slices⟩]⟩) h.port hu hr
      fun ea he e hm => by simpa [List.mem_singleton.1 hm] using hf ea he
    refine next_eq ((ldp_solo (n := sizeBits size / 8) h (by rw [sizeBits_bytes]; exact hw) hb hi).trans (congrArg (ended · T none _) ?_))
    dsimp only
    cases ha : ((mA f).read (opened s T) [T] T).2 with
    | bad k => rw [ldp_left_poisoned ha]
    | ok b =>
      rw [ldp_left ha]
      dsimp only
      change _ = if absent _ T (eaOf f b) then _ else _
      split
      · rw [← State.cur_modThr, putClean_solo]
        rfl
      · rfl
  case atom =>
    have hn : (if sz then 64 else 32) / 8 = if sz then 8 else 4 := by cases sz <;> rfl
    intro w rs hw hu hfree r
    obtain ⟨hr, hi, hf⟩ := hfree
    have hb := atom_rdBusy (op := op) (scope := scope) h.port hu hr hf
    refine next_eq ((atom_solo (n := if sz then 8 else 4) h (by rw [← hn]; exact hw) hb hi).trans (congrArg (ended · T none _) ?_))
    cases hl : lowTok r.2 with
    | some k => exact congrArg Prod.fst (atom_left_poisoned rfl hl)
    | none => exact congrArg Prod.fst (atom_left_clean rfl hl)

end Sys2Proof.Machine
end

section
/-! Scratch accesses, spills, fills and LDM, run by one thread (R128, R129, R205, R210). -/

namespace Sys2Proof.Machine

/-! ### Scratch loads and stores (R205) -/

section
variable {s : State} {T : Tid} {f : MForm} (h : Solo s T f.x) (hu : unheld s T [mA f]) (hr : reqFull s (coreOf T) = false)
  (hi : idle s T f.d.start.toNat f.d.slices)
include h hu hr hi

theorem sld_solo (sx : Bool) (bits : Nat) : runWord {} f.x (mA f).endc (memCost f) (sldOp sx bits f) s
    = ended ((sldOp sx bits f).left (opened s T) T).1 T none (1 + crossCost [mA f]) := by
  have hb : (sldOp sx bits f).rdBusy (opened s T) [T] T = false := by simp only [sldOp, src_busy hu, reqFull_opened, hr, Bool.or_self]
  rw [word_solo (o := sldOp sx bits f) _ _ h hb (by simpa [sldOp, idle] using hi), memcost]
  rfl

theorem sst_solo (bits c : Nat) : runWord {} f.x (mA f).endc (1 + c) (sstOp bits f) s
    = ended ((sstOp bits f).left (opened s T) T).1 T none (1 + c) := by
  have hb : (sstOp bits f).rdBusy (opened s T) [T] T = false := by
    simp only [sstOp, src_busy hu, reqFull_opened, hr, Bool.or_self, Bool.false_or, opened_thr]
    exact hi
  rw [word_solo (o := sstOp bits f) _ _ h hb rfl, Nat.max_eq_right (Nat.le_add_right 1 c)]
  rfl

end

theorem sld_left {f : MForm} {sx : Bool} {bits : Nat} {s : State} {T : Tid} {r : State × Val} (hr : (mA f).read s [T] T = r) :
    ((sldOp sx bits f).left s T).1 = match r.2 with
      | .bad k => putLoaded r.1 [T] { bits := bits, els := [] } [⟨⟨0, f.d.start.toNat, f.d.slices⟩, 0, .tok k⟩]
      | .ok b => match scratchFail r.1 T (b / 2 ^ 16 % 2 ^ 16) (scratchByte f b) (bits / 8) with
        | some k => putLoaded (raise r.1 T k (eaOf f b)).1 [T] { bits := bits, els := [] }
            [⟨⟨0, f.d.start.toNat, f.d.slices⟩, eaOf f b, .tok (raise r.1 T k (eaOf f b)).2⟩]
        | none => putLoaded r.1 [T] { bits := bits, els := [] } [⟨⟨0, f.d.start.toNat, f.d.slices⟩, eaOf f b,
            .got (gotOf (eaOf f b) bits ((scratchByte f b).toNat % 4 * 8) ((List.range (if bits = 64 then 2 else 1)).map fun i =>
              seeTile r.1 T (b / 2 ^ 16 % 2 ^ 16) ((scratchByte f b).toNat / 4 + i)) (fitLoad bits sx f.d.bits))⟩] := by
  unfold WordOp.left
  simp only [sldOp, hr]
  cases r.2 with
  | bad k => rfl
  | ok b => dsimp only; cases scratchFail r.1 T (b / 2 ^ 16 % 2 ^ 16) (scratchByte f b) (bits / 8) <;> rfl

theorem sst_left {f : MForm} {bits : Nat} {s : State} {T : Tid} {r : State × Val} {q : State × List Val} (hr : (mA f).read s [T] T = r)
    (hq : readData r.1 T f.d.start.toNat f.d.slices bits = q) :
    ((sstOp bits f).left s T).1 = match r.2 with
      | .bad k => recordDrop q.1 T k
      | .ok b => match scratchFail q.1 T (b / 2 ^ 16 % 2 ^ 16) (scratchByte f b) (bits / 8) with
        | some k => failStore (raise q.1 T k (eaOf f b)).1 T (eaOf f b) [T] (raise q.1 T k (eaOf f b)).2 (lostTile (b / 2 ^ 16 % 2 ^ 16)
            ((List.range ((bits + 31) / 32)).map fun i => (scratchByte f b % 2 ^ 16).toNat / 4 + i))
        | none => storeTile q.1 T (b / 2 ^ 16 % 2 ^ 16) (eaOf f b) (storeWords (scratchByte f b).toNat bits q.2) := by
  unfold WordOp.left
  simp only [sstOp, hr, hq]
  cases r.2 with
  | bad k => rfl
  | ok b => dsimp only; cases scratchFail q.1 T (b / 2 ^ 16 % 2 ^ 16) (scratchByte f b) (bits / 8) <;> rfl

/-! ### Spills and fills (R128, R129) -/

theorem spillcost (f : RForm) : max 1 (spillCost f) = max 1 (ceilDiv (splN f) 32) + crossCost [rA f] := by
  unfold spillCost; omega

section
variable {s : State} {T : Tid} {f : RForm} (h : Solo s T f.x) (hu : unheld s T [rA f]) (hi : idle s T (splLo f) (splN f))
include h hu hi

theorem fil_solo : runWord {} f.x (rA f).endc (spillCost f) (filOp f) s
    = ended ((filOp f).left (opened s T) T).1 T none (max 1 (ceilDiv (splN f) 32) + crossCost [rA f]) := by
  rw [word_solo (o := filOp f) _ _ h (src_busy hu) (by simpa [filOp, idle] using hi), spillcost]
  rfl

theorem spl_solo : runWord {} f.x (rA f).endc (spillCost f) (splOp f) s
    = ended ((splOp f).left (opened s T) T).1 T none (max 1 (ceilDiv (splN f) 32) + crossCost [rA f]) := by
  have hb : (splOp f).rdBusy (opened s T) [T] T = false := by
    simp only [splOp, src_busy hu, Bool.false_or, opened_thr]
    exact hi
  rw [word_solo (o := splOp f) _ _ h hb rfl, spillcost]
  rfl

end

theorem fil_left {f : RForm} {s : State} {T : Tid} {r : State × Val} (hr : (rA f).read s [T] T = r) :
    ((filOp f).left s T).1 = match r.2 with
      | .bad k => putClip r.1 r.1.cur.addr (splLo f) (splN f) (fun x m => x.put (splLo f) m (.bad k)) none [T]
      | .ok b => match spillFail r.1 T (b / 2 ^ 16 % 2 ^ 16) (b % 2 ^ 16) (splN f) with
        | some k => putClip (raise r.1 T k (BitVec.ofNat 64 b)).1 (raise r.1 T k (BitVec.ofNat 64 b)).1.cur.addr (splLo f) (splN f)
            (fun x m => x.put (splLo f) m (.bad (raise r.1 T k (BitVec.ofNat 64 b)).2)) none [T]
        | none => putClip r.1 r.1.cur.addr (splLo f) (splN f) (filPut (splLo f) (b % 2 ^ 16)
            ((spillWords (b % 2 ^ 16) (splN f)).map fun w => seeTile r.1 T (b / 2 ^ 16 % 2 ^ 16) w)) none [T] := by
  unfold WordOp.left
  simp only [filOp, hr]
  cases r.2 with
  | bad k => rfl
  | ok b => dsimp only; cases spillFail r.1 T (b / 2 ^ 16 % 2 ^ 16) (b % 2 ^ 16) (splN f) <;> rfl

theorem spl_left {f : RForm} {s : State} {T : Tid} {r : State × Val} (hr : (rA f).read s [T] T = r) (hl : splLo f + splN f ≤ (s.thr T).alloc) :
    ((splOp f).left s T).1 = match r.2 with
      | .bad k => recordDrop r.1 T k
      | .ok b => match spillFail r.1 T (b / 2 ^ 16 % 2 ^ 16) (b % 2 ^ 16) (splN f) with
        | some k => failStore (raise r.1 T k (BitVec.ofNat 64 b)).1 T (BitVec.ofNat 64 b) [T] (raise r.1 T k (BitVec.ofNat 64 b)).2
            (lostTile (b / 2 ^ 16 % 2 ^ 16) (spillWords (b % 2 ^ 16) (splN f)))
        | none => storeTile r.1 T (b / 2 ^ 16 % 2 ^ 16) (BitVec.ofNat 64 b) ((spillWords (b % 2 ^ 16) (splN f)).filterMap fun w =>
            splPart r.1 T (b / 2 ^ 16 % 2 ^ 16) w (splWord (r.1.thr T) 0 (splLo f) (splN f) (b % 2 ^ 16) w)) := by
  have hl' : ¬ splLo f + splN f > (s.thr T).alloc := by omega
  unfold WordOp.left
  simp only [splOp, hr, hl', if_false]
  cases r.2 with
  | bad k => rfl
  | ok b => dsimp only; cases spillFail r.1 T (b / 2 ^ 16 % 2 ^ 16) (b % 2 ^ 16) (splN f) <;> rfl

/-! ### LDM (R210) -/

theorem ldmCapture_cur (f : MForm) (acts ts : List Tid) (s : State) : (ldmCapture f acts ts s).cur = s.cur := by
  induction ts generalizing s with
  | nil => rfl
  | cons t ts ih =>
    unfold ldmCapture
    split
    · exact ih s
    · rw [ih, State.cur_modThr]
      exact read_cur ..

/-- The first thread-operation of an LDM of one thread (R95, R210). -/
theorem ldm_first {s : State} {T : Tid} {f : MForm} {n : BitVec 4} (h : Solo s T f.x) (hu : unheld s T [mA f])
    (hw : (ldmGate f (n.toNat + 1)).watch s [T] = []) :
    exec (.ldm n f) s = .next (ldmAdvance f (n.toNat + 1) [T] (ldmCapture f [T] [T] (opened s T))) := by
  have hb : (mA f).busy s [T] T = false := hu _ (List.mem_singleton_self _)
  have ha : actors s f.x [T] = [T] := by simpa [h.pack] using actors_solo h
  have hg : gateTrap s (ldmGate f (n.toNat + 1)) f.x [T] = none := gate_pass rfl nofun nofun rfl rfl hw
  change Host.Outcome.next _ = _
  simp only [h.first, h.pack, ha, hg, List.any_cons, List.any_nil, hb, Bool.and_false, Bool.or_self, Bool.false_eq_true, if_false,
    List.isEmpty_cons]
  rfl

theorem ldmCapture_calm {s : State} {T : Tid} {f : MForm} (h : Solo s T f.x) : (ldmCapture f [T] [T] (opened s T)).cur.upset = false := by
  rw [ldmCapture_cur, opened_cur h.port]
  exact h.calm

section
variable {t : State} {T : Tid} {f : MForm} (hs : (t.thr T).seqstep = 0) (hd : t.cur.done = []) (hb : ldmBusy f 0 t T = false)
  (hu : t.cur.upset = false)
include hs hd hb hu

/-- Step 0 of an LDM of one thread that nothing holds, and what follows it. -/
theorem ldmAdvance_first (m : Nat) : ldmAdvance f m [T] t = if (ldmDone m 0 (ldmStep f 0 t T) T).cur.done.contains T
      then endWord (ldmDone m 0 (ldmStep f 0 t T) T) (1 + crossCost [mA f])
      else (ldmDone m 0 (ldmStep f 0 t T) T).modCur fun p => { p with busy := 1 + crossCost [mA f] } := by
  unfold ldmAdvance
  simp [hd, hs, hb, upset_calm T hu, opCost_solo]

/-- Of several words the first leaves the port at the LDM. -/
theorem ldmAdvance_more {n : Nat} (hn : 0 < n) (hnot : T ∉ (ldmStep f 0 t T).cur.done) : ldmAdvance f (n + 1) [T] t
    = ((ldmStep f 0 t T).modThr T fun x => { x with seqstep := 1 }).modCur fun p => { p with busy := 1 + crossCost [mA f] } := by
  have hk : 0 + 1 < n + 1 := by omega
  rw [ldmAdvance_first hs hd hb hu]
  simp [ldmDone, hk, hnot]

/-- An LDM of one word ends with it. -/
theorem ldmAdvance_only (hlast : (ldmStep f 0 t T).cur.done = []) (hp : (ldmStep f 0 t T).iss.isSome = true) : ldmAdvance f 1 [T] t
    = ended ((ldmStep f 0 t T).modThr T fun x => { x with seq := false, seqstep := 0, ldm := none }) T none (1 + crossCost [mA f]) := by
  obtain ⟨k, hk⟩ := Option.isSome_iff_exists.1 hp
  have hdone : (ldmDone 1 0 (ldmStep f 0 t T) T).cur.done = [T] := by
    unfold ldmDone
    rw [if_neg (by decide), State.cur_modCur _ _ (k := k) (by simp [finish, hk])]
    simp [markDone, finish, hlast]
  rw [ldmAdvance_first hs hd hb hu, hdone, if_pos (by simp)]
  rfl

end

/-- Settles O26: a scratch word leaves what its `left` lemma says, and an LDM's first step is `ldm_first` with `ldmAdvance_first`. -/
theorem scratchResults : Obligations.ScratchResults := by
  refine ⟨fun s T f h hu hr hi => ⟨fun sx size => ?sld, fun size => ?sst⟩, fun s T f h hu hi => ⟨?fil, fun hl => ?spl⟩,
    fun s T f n h hu hq hw hs hd hb => ⟨fun hn hnot => ?more, fun hn hlast hi hp => ?only⟩⟩
  case sld => exact next_eq ((sld_solo h hu hr hi sx _).trans (congrArg (ended · T none _) (sld_left rfl)))
  case sst => exact next_eq ((sst_solo h hu hr hi _ _).trans (congrArg (ended · T none _) (sst_left rfl rfl)))
  case fil => exact next_eq ((fil_solo h hu hi).trans (congrArg (ended · T none _) (fil_left rfl)))
  case spl => exact next_eq ((spl_solo h hu hi).trans (congrArg (ended · T none _) (spl_left rfl (by rw [opened_thr]; exact hl))))
  case more => exact (ldm_first h hu hw).trans (next_eq (ldmAdvance_more hs hd hb (ldmCapture_calm h)
    (Nat.pos_of_ne_zero fun e => hn (BitVec.eq_of_toNat_eq e)) hnot))
  case only =>
    subst hn
    exact (ldm_first h hu hw).trans (next_eq (ldmAdvance_only hs hd hb (ldmCapture_calm h) hlast (hi ▸ hp)))

end Sys2Proof.Machine
end

section
/-! Legs and the poison instructions, run by one thread (R211, R214 to R220). -/

namespace Sys2Proof.Machine

/-! ### LEG and COMMIT (R211, R214 to R218) -/

theorem leg_solo {s : State} {T : Tid} {f : RForm} (lo n : Nat) (h : Solo s T f.x) (hl : (s.thr T).leg = none) (hi : idle s T (8 * lo) (8 * n)) :
    runWord { bad := fun s acts _ => acts.any fun t => (s.thr t).leg.isSome } f.x false 1 (legOp lo n) s
      = ended (openLeg (opened s T) T lo n) T none 1 :=
  word_gate (o := legOp lo n) false 1 h rfl (state_pass (by simp [hl])) rfl (by simpa [legOp, idle] using hi) rfl

/-- COMMIT's checks: it ends its clause, and its thread stands in a leg (R32, R214). -/
theorem commit_pass {s : State} {T : Tid} {x : Pfx} {l : Leg} (hlast : atLast s.cur = true) (hl : (s.thr T).leg = some l) :
    gateTrap s commitGate x [T] = none :=
  gate_pass rfl (fun _ => hlast) nofun (by simp [commitGate, hl]) rfl rfl

section
variable {s : State} {T : Tid} {x : Thread} {l : Leg} (hx : s.thr T = x) (hl : x.leg = some l) (a b : Nat) (out : Tgt)
include hx hl

theorem commitThread_clean (replay : Bool) (hk : livePoison s T a b = []) :
    commitThread s T a b replay out = ((releaseHeld s T).modThr T fun x => { x with drop := none, leg := none }, none) := by
  simp [commitThread, hx, hl, hk]

theorem commitThread_recovers {replay : Bool} (hk : livePoison s T a b ≠ []) (hm : (replay && mayReplay s T l (livePoison s T a b)) = false) :
    commitThread s T a b replay out = (recoverLeg s T (liveGrans x a b ++ liveHeld s T).head?, some out) := by
  simp [commitThread, hx, hl, hk, hm]

theorem commitThread_replays (hk : livePoison s T a b ≠ []) (hm : mayReplay s T l (livePoison s T a b) = true) :
    commitThread s T a b true out = if replayPages s T (livePoison s T a b) = [] then (replayLeg s T, some ⟨l.pc, l.hdr⟩)
      else (((replayPages s T (livePoison s T a b)).foldl (fun s p => pageRequest s (coreOf T) p.asid p.page p.store false) s).modThr T fun y =>
        { y with leg := some { l with first := (liveGrans x a b ++ liveHeld s T).head? },
                 hold := { y.hold with parked := replayPages s T (livePoison s T a b), refused := false } }, some out) := by
  simp [commitThread, hx, hl, hk, hm]

end

theorem mayReplay_iff (s : State) (T : Tid) (l : Leg) (ks : List Tok) : mayReplay s T l ks = true
    ↔ l.replays < 4 ∧ l.replayable = true ∧ ∀ k ∈ ks, tokCause k = cNR ∧ (nrEntry s T k).isSome = true := by
  simp [mayReplay, and_assoc]

section
variable {s : State} {T : Tid} {f : BForm} {l : Leg} (h : Solo s T f.x) (hl : (s.thr T).leg = some l) (hlast : atLast s.cur = true)
  (ha : accessesOut (opened s T) T = false)
  (hp : reqPending (opened s T) T (8 * (f.fld.extractLsb' 9 6).toNat)
    (8 * ((f.fld.extractLsb' 3 6).toNat + 1 - (f.fld.extractLsb' 9 6).toNat)) = false)
include h hl hlast ha hp

/-- A COMMIT of one thread whose accesses are in (R216, R217). -/
theorem commit_solo {replay : Bool} {q : State × Option Tgt} (hc : commitThread (opened s T) T (f.fld.extractLsb' 9 6).toNat
      (f.fld.extractLsb' 3 6).toNat replay ⟨s.cur.hdrAddr + f.disp.signExtend 64 * 8, none⟩ = q) :
    runWord commitGate f.x false 1 (commitOp f replay) s = ended q.1 T q.2 1 := by
  have hb : (commitOp f replay).rdBusy (opened s T) [T] T = false := by
    simp only [commitOp, ha, Bool.false_or]
    exact hp
  have ht : brTgt (opened s T).cur f = ⟨s.cur.hdrAddr + f.disp.signExtend 64 * 8, none⟩ := by
    rw [opened_cur h.port]
    rfl
  rw [word_gate (o := commitOp f replay) false 1 h rfl (commit_pass hlast hl) rfl hb rfl, ← hc, ← ht]
  rfl

/-- A COMMIT that finds no live poison closes the leg (R215, R217). -/
theorem commit_closes (replay : Bool) (hk : livePoison (opened s T) T (f.fld.extractLsb' 9 6).toNat (f.fld.extractLsb' 3 6).toNat = []) :
    runWord commitGate f.x false 1 (commitOp f replay) s
      = ended ((releaseHeld (opened s T) T).modThr T fun x => { x with drop := none, leg := none }) T none 1 := by
  rw [commit_solo h hl hlast ha hp (commitThread_clean (opened_thr s T T) hl _ _ _ replay hk)]

/-- A COMMIT that may not replay its leg takes the recovery path (R217). -/
theorem commit_recovers {replay : Bool}
    (hk : livePoison (opened s T) T (f.fld.extractLsb' 9 6).toNat (f.fld.extractLsb' 3 6).toNat ≠ [])
    (hm : (replay && mayReplay (opened s T) T l (livePoison (opened s T) T (f.fld.extractLsb' 9 6).toNat (f.fld.extractLsb' 3 6).toNat)) = false) :
    runWord commitGate f.x false 1 (commitOp f replay) s = ended (recoverLeg (opened s T) T
      (liveGrans (s.thr T) (f.fld.extractLsb' 9 6).toNat (f.fld.extractLsb' 3 6).toNat ++ liveHeld (opened s T) T).head?) T
      (some ⟨s.cur.hdrAddr + f.disp.signExtend 64 * 8, none⟩) 1 := by
  rw [commit_solo h hl hlast ha hp (commitThread_recovers (opened_thr s T T) hl _ _ _ hk hm)]

end

/-- Settles O28: LEG is `leg_solo`; a COMMIT closes the leg (`commit_closes`), recovers (`commit_recovers`) or replays (`commitThread_replays`). -/
theorem legResults : Obligations.LegResults := by
  refine ⟨fun s T f n nothing h hl hi => next_eq (leg_solo _ _ h hl hi),
    fun s T f l h hl hlast ha hp => ⟨fun hk => ⟨next_eq (commit_closes h hl hlast ha hp false hk),
        next_eq (commit_closes h hl hlast ha hp true hk)⟩,
      fun hk => next_eq (commit_recovers h hl hlast ha hp hk rfl), fun hk hm => ?refused, fun hk hm => ?replay⟩⟩
  case refused =>
    rw [← mayReplay_iff, Bool.not_eq_true] at hm
    exact next_eq (commit_recovers (replay := true) h hl hlast ha hp hk hm)
  case replay =>
    rw [← mayReplay_iff] at hm
    have run := commit_solo h hl hlast ha hp (commitThread_replays (opened_thr s T T) hl _ _ _ hk hm)
    refine next_eq (run.trans ?_)
    dsimp only
    split <;> rfl

/-! ### PCHK, PCLR, PSET and PORG (R219, R220) -/

theorem modThr_congr {s : State} {T : Tid} {F G : Thread → Thread} (h : F (s.thr T) = G (s.thr T)) : s.modThr T F = s.modThr T G := by
  by_cases hl : s.live T = true
  · rw [State.modThr_live _ _ hl, State.modThr_live _ _ hl, h]
  · rw [State.modThr_dead _ _ (by simpa using hl), State.modThr_dead _ _ (by simpa using hl)]

/-- A change of a thread to itself does not show behind the word's end. -/
theorem ended_modThr_id (s : State) (T : Tid) (g : Option Tgt) (cost : Nat) : ended (s.modThr T fun x => x) T g cost = ended s T g cost := by
  simp [ended, finish, State.modThr_modThr]

theorem raise_thr (s : State) (t u : Tid) (k : Nat) (a : W64) : (raise s t k a).1.thr u = s.thr u := by
  unfold raise raiseAt raiseIn
  dsimp only
  split <;> rfl

theorem read_thr (r : Src) (s : State) (acts : List Tid) (t u : Tid) : (r.read s acts t).1.thr u = s.thr u := by
  unfold Src.read readX settle
  split
  · rfl
  · exact raise_thr ..
  · exact raise_thr ..

theorem pchk_solo {s : State} {T : Tid} {f : RForm} (h : Solo s T f.x) (hu : unheld s T [rA f]) :
    runWord {} f.x (rA f).endc (1 + crossCost [rA f]) (pchkOp f) s
      = ended ((opened s T).modThr T fun x => x.setPred f.d.start.toNat ((rA f).peek s [T] T).bad) T none (max 1 (1 + crossCost [rA f])) := by
  rw [word_solo (o := pchkOp f) _ _ h (src_busy hu) rfl, ← peek_opened (rA f) h.port]
  rfl

section
variable {s : State} {T : Tid} {d : Opd}

theorem onGrans_inside (g : Thread → Nat → Thread) (h : d.start.toNat + d.slices ≤ (s.thr T).alloc) : onGrans s d g [T]
    = s.modThr T fun x => ((List.range (granSpan d.start.toNat d.slices)).map fun i => d.start.toNat / 8 + i).foldl g x :=
  modThr_congr (if_neg (by omega))

theorem onGrans_outside (g : Thread → Nat → Thread) (h : ¬ d.start.toNat + d.slices ≤ (s.thr T).alloc) :
    onGrans s d g [T] = s.modThr T fun x => x :=
  modThr_congr (if_pos (by omega))

theorem putQuiet_inside (v : Nat) (h : d.start.toNat + d.slices ≤ (s.thr T).alloc) :
    putQuiet s d v [T] = s.modThr T fun x => x.put d.start.toNat d.slices (.ok v) :=
  modThr_congr (if_neg (by omega))

end

section
variable {s : State} {T : Tid} {f : RForm} (h : Solo s T f.x) (hi : idle s T f.d.start.toNat f.d.slices)
include h hi

theorem pclr_solo : runWord {} f.x false 1 (pclrOp f) s = ended (onGrans (opened s T) f.d clearGran [T]) T none 1 :=
  word_solo (o := pclrOp f) false 1 h rfl (by simpa [pclrOp, idle] using hi)

theorem pset_solo : runWord {} f.x false 1 (psetOp f) s
    = ended (onGrans (raise (opened s T) T cUSER).1 f.d (fun x g => x.put (8 * g) 8 (.bad (raise (opened s T) T cUSER).2)) [T]) T none 1 :=
  word_solo (o := psetOp f) false 1 h rfl (by simpa [psetOp, idle] using hi)

/-- What PORG finds for what it has read (R219, R220). -/
def originFound (s : State) (T : Tid) (k : BitVec 2) : Val → Nat
  | .ok _ => 0
  | .bad b => match tget (tokOrigin b) (s.core (coreOf T)).org with
    | some o => o.word k
    | none => 0

theorem porg_solo (hu : unheld s T [rA f]) (k : BitVec 2) : runWord {} f.x (rA f).endc (1 + crossCost [rA f]) (porgOp k f) s
    = ended (putQuiet ((rA f).read (opened s T) [T] T).1 f.d
      (originFound ((rA f).read (opened s T) [T] T).1 T k ((rA f).read (opened s T) [T] T).2) [T]) T none (max 1 (1 + crossCost [rA f])) := by
  rw [word_solo (o := porgOp k f) _ _ h (src_busy hu) (by simpa [porgOp, idle] using hi)]
  unfold WordOp.left
  simp only [porgOp]
  cases ((rA f).read (opened s T) [T] T).2 <;> rfl

end

theorem origin_word (o : Origin) (k : BitVec 2) : o.word k = [o.pc.toNat, o.addr.toNat, o.cyc % 2 ^ 64, o.info.toNat].getD k.toNat 0 := by
  have hk : k = 0 ∨ k = 1 ∨ k = 2 ∨ k = 3 := by revert k; decide
  rcases hk with rfl | rfl | rfl | rfl <;> rfl

/-- Settles O30: each word is its `solo` lemma; a change of granules is made inside the allocation and does not show outside it. -/
theorem poisonWordResults : Obligations.PoisonWordResults := by
  refine fun s T f h => ⟨fun hu => next_eq (pchk_solo h hu), fun hi => ⟨fun hin => ⟨?clr, ?set⟩,
    fun hout => ⟨?clrOut, ?setOut⟩, fun hu hin k => ?org⟩⟩
  case clr => exact next_eq ((pclr_solo h hi).trans (by rw [onGrans_inside _ (by rw [opened_thr]; exact hin)]; rfl))
  case set => exact next_eq ((pset_solo h hi).trans (by rw [onGrans_inside _ (by rw [raise_thr, opened_thr]; exact hin)]))
  case clrOut => exact next_eq ((pclr_solo h hi).trans (by rw [onGrans_outside _ (by rw [opened_thr]; exact hout), ended_modThr_id]))
  case setOut => exact next_eq ((pset_solo h hi).trans (by rw [onGrans_outside _ (by rw [raise_thr, opened_thr]; exact hout), ended_modThr_id]))
  case org =>
    refine next_eq ((porg_solo h hi hu k).trans ?_)
    rw [putQuiet_inside _ (by rw [read_thr, opened_thr]; exact hin)]
    cases ((rA f).read (opened s T) [T] T).2 with
    | ok v => rfl
    | bad b =>
      simp only [originFound, origin_word] <;> rfl

end Sys2Proof.Machine
end

section
/-! Live poison at a COMMIT, and what the release of held stores leaves of threads and ports (R155, R215, R218, R225). -/

namespace Sys2Proof.Machine

/-! ### Writes at homes re-read watches and change nothing else of a thread (R155, R225) -/

/-- Thread y is x but for its watch. -/
def SameButWatch (x y : Thread) : Prop := ∃ w, y = { x with hold := { x.hold with watch := w } }

theorem SameButWatch.refl (x : Thread) : SameButWatch x x := ⟨x.hold.watch, rfl⟩

theorem SameButWatch.trans {x y z : Thread} (h : SameButWatch x y) (k : SameButWatch y z) : SameButWatch x z := by
  obtain ⟨w, rfl⟩ := h
  obtain ⟨v, rfl⟩ := k
  exact ⟨v, rfl⟩

/-- u has the ports of s, and its threads but for their watches. -/
structure Rewatched (s u : State) : Prop where
  samePorts : SamePorts s u
  threads : List.Forall₂ (fun p q => q.1 = p.1 ∧ SameButWatch p.2 q.2) s.threads u.threads

namespace Rewatched
variable {s u v : State}

/-- A change of neither threads nor ports. -/
theorem of_threads (hp : SamePorts s u) (ht : u.threads = s.threads) : Rewatched s u :=
  ⟨hp, ht ▸ List.forall₂_same.2 fun p _ => ⟨rfl, SameButWatch.refl p.2⟩⟩

theorem refl (s : State) : Rewatched s s := of_threads (SamePorts.refl s) rfl

theorem trans (h : Rewatched s u) (k : Rewatched u v) : Rewatched s v := by
  refine ⟨h.samePorts.trans k.samePorts, ?_⟩
  have hs := h.threads
  have ku := k.threads
  generalize s.threads = l at hs
  generalize u.threads = m at hs ku
  generalize v.threads = n at ku
  induction hs generalizing n with
  | nil => cases ku; exact .nil
  | cons hp _ ih =>
    cases ku with
    | cons kp ks => exact .cons ⟨kp.1.trans hp.1, hp.2.trans kp.2⟩ (ih _ ks)

theorem modCore (s : State) (c : Nat) (f : Core → Core) : Rewatched s (s.modCore c f) := of_threads (SamePorts.modCore ..) rfl

theorem foldl {α : Type} {f : State → α → State} (h : ∀ s a, Rewatched s (f s a)) (l : List α) (s : State) : Rewatched s (l.foldl f s) := by
  induction l generalizing s with
  | nil => exact refl s
  | cons a l ih => exact (h s a).trans (ih (f s a))

theorem ite {c : Prop} [Decidable c] (h : Rewatched s u) (k : Rewatched s v) : Rewatched s (if c then u else v) := by
  split
  · exact h
  · exact k

/-- What a thread's slot holds. -/
theorem tget (h : Rewatched s u) (t : Tid) : (Machine.tget t s.threads = none ∧ Machine.tget t u.threads = none)
    ∨ ∃ x y, Machine.tget t s.threads = some x ∧ Machine.tget t u.threads = some y ∧ SameButWatch x y := by
  have hs := h.threads
  generalize s.threads = l at hs
  generalize u.threads = m at hs
  induction hs with
  | nil => exact .inl ⟨rfl, rfl⟩
  | @cons p q l m hp _ ih =>
    obtain ⟨j, x⟩ := p
    obtain ⟨i, y⟩ := q
    obtain ⟨rfl, hw⟩ := hp
    by_cases e : i = t
    · exact .inr ⟨x, y, if_pos e, if_pos e, hw⟩
    · simpa [Machine.tget, e] using ih

theorem live (h : Rewatched s u) (t : Tid) : u.live t = s.live t := by
  unfold State.live
  obtain ⟨hs, hu⟩ | ⟨x, y, hs, hu, -⟩ := h.tget t
  · rw [hs, hu]
  · rw [hs, hu]
    rfl

theorem thr (h : Rewatched s u) (t : Tid) : SameButWatch (s.thr t) (u.thr t) := by
  unfold State.thr tgetD
  obtain ⟨hs, hu⟩ | ⟨x, y, hs, hu, hw⟩ := h.tget t <;> rw [hs, hu]
  · exact SameButWatch.refl _
  · exact hw

theorem mem (h : Rewatched s u) {q : Tid × Thread} (hq : q ∈ u.threads) : ∃ p ∈ s.threads, q.1 = p.1 ∧ SameButWatch p.2 q.2 := by
  have hs := h.threads
  generalize s.threads = l at hs
  generalize u.threads = m at hs hq
  induction hs with
  | nil => cases hq
  | @cons p r l m hp _ ih =>
    obtain rfl | hq := List.mem_cons.1 hq
    · exact ⟨p, List.mem_cons_self .., hp⟩
    · obtain ⟨p', hm, hw⟩ := ih hq
      exact ⟨p', List.mem_cons_of_mem _ hm, hw⟩

end Rewatched

theorem wakeWatch_rewatched (s : State) (line : Nat) : Rewatched s (wakeWatch s line) := by
  refine ⟨⟨rfl, rfl⟩, List.forall₂_map_right_iff.2 (List.forall₂_same.2 fun p _ => ?_)⟩
  split
  · exact ⟨rfl, _, rfl⟩
  · exact ⟨rfl, SameButWatch.refl _⟩

theorem homeWrite_rewatched (s : State) (by_ : Option Nat) (w : Nat) (v : Val) : Rewatched s (homeWrite s by_ w v) := by
  unfold homeWrite
  dsimp only
  refine Rewatched.trans (Rewatched.of_threads ?_ ?_) (wakeWatch_rewatched ..)
  · constructor <;> split <;> split <;> rfl
  · split <;> split <;> rfl

theorem homeWrites_rewatched (by_ : Option Nat) (vs : List Val) (s : State) (w : Nat) : Rewatched s (homeWrites s by_ w vs) := by
  induction vs generalizing s w with
  | nil => exact Rewatched.refl s
  | cons v vs ih => exact (homeWrite_rewatched s by_ w v).trans (ih _ _)

theorem homeNum_rewatched (s : State) (by_ : Option Nat) (pa v n : Nat) : Rewatched s (homeNum s by_ pa v n) := homeWrites_rewatched ..

theorem setDCAt_rewatched (s : State) (a : Nat) : Rewatched s (setDCAt s a) := by
  unfold setDCAt
  split
  · exact Rewatched.refl s
  dsimp only
  split
  · exact Rewatched.refl s
  · exact (homeWrite_rewatched ..).trans (Rewatched.of_threads ⟨rfl, rfl⟩ rfl)

/-! ### Stores leave threads and ports (R194, R218, R349) -/

theorem writeBack_rewatched (s : State) (c key : Nat) (own : Bool) : Rewatched s (writeBack s c key own) := by
  unfold writeBack
  split
  · exact Rewatched.refl s
  split
  · exact Rewatched.refl s
  · have h : Rewatched s (if own then { s with freeCtr := s.freeCtr + 1 } else s) := by
      split <;> exact Rewatched.of_threads ⟨rfl, rfl⟩ rfl
    exact (h.trans (homeWrite_rewatched ..)).trans (Rewatched.modCore ..)

theorem makeRoom_rewatched (s : State) (c line bin : Nat) : Rewatched s (makeRoom s c line bin) := by
  have evict : ∀ (s : State) (l : Nat), Rewatched s (evict s c l bin) := fun s l => by
    unfold evict writeBackKeys
    exact (Rewatched.foldl (fun s k => writeBack_rewatched s c k false) ..).trans (.modCore ..)
  unfold makeRoom
  exact .ite (.refl s) (.trans (u := { s with freeCtr := s.freeCtr + 1 }) (.of_threads ⟨rfl, rfl⟩ rfl) (evict ..))

theorem l1Store_rewatched (s : State) (t : Tid) (p : Page) (w : Nat) (mask : BitVec 4) (v : Val) (nl1 evf : Bool) :
    Rewatched s (l1Store s t p w mask v nl1 evf) := by
  unfold l1Store
  refine .ite ((homeWrite_rewatched ..).trans (.of_threads ⟨rfl, rfl⟩ rfl)) (.ite ((homeWrite_rewatched ..).trans (.modCore ..)) ?_)
  cases tget w (s.core (coreOf t)).l1 with
  | some e => exact .modCore ..
  | none => exact (makeRoom_rewatched ..).trans (.ite (.modCore ..) (.ite (.modCore ..) (.of_threads ⟨rfl, rfl⟩ rfl)))

theorem migCount_rewatched (s : State) (asid : Nat) (va : W64) (p : Page) : Rewatched s (migCount s asid va p) := by
  have fab : ∀ (s : State) (f : Fab), Rewatched s { s with fab := f } := fun s f => .of_threads ⟨rfl, rfl⟩ rfl
  unfold migCount
  refine .ite (.refl s) (.ite (fab ..) (.ite (fab ..) ?_))
  split
  · exact .ite (fab ..) (.trans (fab s _) (((homeNum_rewatched ..).trans (homeNum_rewatched ..)).trans (fab ..)))
  · exact fab ..

theorem fabSend_rewatched (s : State) (type dst : Nat) (r : TagRec) (payload : BitVec 512) (data : List (BitVec 512 × Bool)) :
    Rewatched s (fabSend s type dst r payload data) := .of_threads ⟨rfl, rfl⟩ rfl

theorem staleReads_rewatched (s : State) (c peer : Nat) (ws : List Nat) : Rewatched s (staleReads s c peer ws) := .of_threads ⟨rfl, rfl⟩ rfl

theorem postStore_rewatched (s : State) (t : Tid) (pc ea : W64) (p : Page) (ws : List (Nat × BitVec 4 × Val)) :
    Rewatched s (postStore s t pc ea p ws) := by
  unfold postStore
  exact (((migCount_rewatched ..).trans (staleReads_rewatched ..)).trans (.modCore ..)).trans (fabSend_rewatched ..)

theorem modTile_rewatched (s : State) (d l i : Nat) (f : Memory → Memory) : Rewatched s (modTile s d l i f) := by
  unfold modTile
  split
  · exact Rewatched.of_threads ⟨rfl, rfl⟩ rfl
  · exact Rewatched.modCore ..

theorem copyPeer_rewatched (s : State) (c : Nat) (p : Page) (ws : List (Nat × BitVec 4 × Val)) : Rewatched s (copyPeer s c p ws) :=
  .of_threads ⟨rfl, rfl⟩ rfl

theorem releaseOne_rewatched (s : State) (t : Tid) (g : List Held) : Rewatched s (releaseOne s t g) := by
  cases g with
  | nil => exact .refl s
  | cons y l =>
    simp only [releaseOne]
    cases y.key with
    | glob peer w =>
      refine (setDCAt_rewatched s y.at_).trans (.ite ?_ ?_)
      · exact Rewatched.foldl (fun _ _ => l1Store_rewatched ..) ..
      · exact (copyPeer_rewatched ..).trans (postStore_rewatched ..)
    | tile d l i w => exact modTile_rewatched ..
    | lost b w => exact .refl s

theorem releaseHeld_rewatched (s : State) (t : Tid) : Rewatched s (releaseHeld s t) :=
  (Rewatched.modCore ..).trans (Rewatched.foldl (fun s g => releaseOne_rewatched s t g) ..)

theorem discardHeld_rewatched (s : State) (t : Tid) : Rewatched s (discardHeld s t) := Rewatched.modCore ..

/-! ### Live poison (R215) -/

theorem liveGrans_eq_nil (x : Thread) (a b : Nat) :
    liveGrans x a b = [] ↔ ¬ ∃ g k, a ≤ g ∧ g ≤ b ∧ 8 * g < x.alloc ∧ tget g x.tags = some k := by
  unfold liveGrans
  rw [List.filterMap_eq_nil_iff]
  constructor
  · rintro h ⟨g, k, ha, hb, hl, hk⟩
    have := h (g - a) (List.mem_range.2 (by omega))
    rw [Nat.add_sub_cancel' ha, if_pos hl, hk] at this
    cases this
  · intro h i hi
    rw [List.mem_range] at hi
    split
    · next hl =>
      cases hk : tget (a + i) x.tags with
      | none => rfl
      | some k => exact absurd ⟨a + i, k, by omega, by omega, hl, hk⟩ h
    · rfl

theorem liveHeld_eq_nil (s : State) (T : Tid) : liveHeld s T = [] ↔ ¬ ∃ h ∈ (s.core (coreOf T)).quar, h.tid = T ∧ ∃ k, h.val = .bad k := by
  unfold liveHeld
  rw [List.filterMap_eq_nil_iff]
  constructor
  · rintro h ⟨y, hm, ht, k, hk⟩
    have := h y hm
    rw [if_pos ht, hk] at this
    cases this
  · intro h y hm
    split
    · next ht =>
      cases hk : y.val with
      | ok v => rfl
      | bad k => exact absurd ⟨y, hm, ht, k, hk⟩ h
    · rfl

theorem livePoison_eq_nil (s : State) (T : Tid) (a b : Nat) : livePoison s T a b = []
    ↔ (¬ ∃ g k, a ≤ g ∧ g ≤ b ∧ 8 * g < (s.thr T).alloc ∧ tget g (s.thr T).tags = some k)
      ∧ (¬ ∃ h ∈ (s.core (coreOf T)).quar, h.tid = T ∧ ∃ k, h.val = .bad k) ∧ ¬ (s.thr T).drop.isSome = true := by
  rw [livePoison, List.append_eq_nil_iff, List.append_eq_nil_iff, liveGrans_eq_nil, liveHeld_eq_nil, and_assoc, Option.toList_eq_nil_iff,
    Option.not_isSome_iff_eq_none]

/-- The recovery path leaves a dropped-write record (R217). -/
theorem recovered_drop {s : State} {T : Tid} {a b : Nat} (h : livePoison s T a b ≠ []) :
    (if (s.thr T).drop.isSome then (s.thr T).drop else (liveGrans (s.thr T) a b ++ liveHeld s T).head?).isSome = true := by
  split
  · assumption
  · next hd =>
    rw [livePoison, Option.not_isSome_iff_eq_none.1 hd, Option.toList_none, List.append_nil] at h
    obtain ⟨k, l, e⟩ := List.exists_cons_of_ne_nil h
    rw [e]
    rfl

/-! ### The thread behind the end of its word (R95) -/

/-- The thread of a word that leaves threads but for their watches, then changes its own by F and ends. -/
theorem ended_thr {s u : State} {T : Tid} {x : Pfx} (h : Solo s T x) (hu : Rewatched (opened s T) u) (F : Thread → Thread) (g : Option Tgt)
    (cost : Nat) : (ended (u.modThr T F) T g cost).thr T = passed (begin_ [T] s.cur) g (F (u.thr T)) := by
  obtain ⟨k, hk⟩ := Option.isSome_iff_exists.1 h.port
  have hc : u.cur = begin_ [T] s.cur := hu.samePorts.cur.trans (opened_cur h.port)
  have hi : (u.modThr T F).iss = some k := by rw [State.modThr_iss, hu.samePorts.iss, opened_iss, hk]
  have hl : u.live T = true := by rw [hu.live, opened_live]; exact h.live
  rw [ended_eq hi (by rw [State.cur_modThr, hc]; exact h.pack) (by rw [State.cur_modThr, hc]; exact h.fresh), State.cur_modThr, State.modThr_modThr,
    State.thr_modCur, State.thr_modThr u _ hl, hc]

end Sys2Proof.Machine

namespace Sys2Proof.Laws
open Sys2Proof.Machine hiding livePoison

/-- Settles O29: no live poison means none of the three kinds (`livePoison_eq_nil`); what a COMMIT then leaves its thread is `ended_thr`. -/
theorem livePoison : Obligations.LivePoison := by
  intro s T f h hl hlast a b granule store record ha hp
  obtain ⟨l, hl⟩ := Option.isSome_iff_exists.1 hl
  have hk := livePoison_eq_nil (opened s T) T a b
  rw [opened_thr, opened_core] at hk
  refine ⟨fun h1 h2 h3 => ?clean, fun hx => ?poisoned⟩
  case clean =>
    have hk := hk.2 ⟨h1, h2, h3⟩
    have hr := releaseHeld_rewatched (opened s T) T
    obtain ⟨w, hw⟩ := hr.thr T
    refine ⟨_, next_eq (commit_closes h hl hlast ha hp false hk), next_eq (commit_closes h hl hlast ha hp true hk), ?_⟩
    rw [ended_thr h hr, passed_eq, passOn_eq, hw, opened_thr]
    refine ⟨rfl, rfl, rfl, ?_⟩
    exact congrArg Tgt.pc (next_last hlast)
  case poisoned =>
    have hk : Machine.livePoison (opened s T) T a b ≠ [] := fun e => by
      obtain ⟨h1, h2, h3⟩ := hk.1 e
      rcases hx with hx | hx | hx <;> contradiction
    refine ⟨_, next_eq (commit_recovers h hl hlast ha hp hk rfl), ?_⟩
    rw [recoverLeg, ended_thr h (discardHeld_rewatched ..), passed_eq, passOn_eq]
    refine ⟨rfl, ?_, rfl⟩
    have hd := recovered_drop hk
    rw [opened_thr] at hd
    rw [discardHeld, State.thr_modCore, opened_thr]
    exact hd

end Sys2Proof.Laws
end

section
/-! TLBINV, ORGCTL, WAKE and register writes (R193, R198, R253, R381, R390). -/

namespace Sys2Proof.Machine

/-! ### TLBINV (R193) -/

/-- A change of the entries of a table whose keys are named, one that leaves the default entry. -/
theorem tgetD_map_named {α : Type} (P : Nat → Bool) (f : α → α) {a : α} (ha : f a = a) (k : Nat) (l : Tbl α) :
    tgetD k a (l.map fun p => if P p.1 then (p.1, f p.2) else p) = if P k then f (tgetD k a l) else tgetD k a l := by
  unfold tgetD
  rw [tget_map _ (by intro p; split <;> rfl)]
  cases tget k l with
  | none => simp [ha]
  | some x =>
    simp only [Option.map_some, Option.getD_some]
    split <;> rfl

/-- Whether a TLBINV of scope n from core c reaches core d, and whether it reaches the cache of die d (assumption 69). -/
def tlbCore (n c d : Nat) : Bool := match n with | 0 => d == c | 1 => dieOf d == dieOf c | _ => true
def tlbDie (n c d : Nat) : Bool := match n with | 0 => d == dieOf c | 1 => d == dieOf c | _ => true

/-- Whether TLBINV value v names a translation. -/
def tlbNames (v : W64) (e : TlbEnt) : Bool :=
  e.asid == bitsOf v.toNat 15 4 && (v.getLsbD 3 || e.covers (bitsOf v.toNat 15 4) (bitsOf v.toNat 51 16 * 2 ^ 16))

theorem tlbCore_iff (n c d : Nat) : tlbCore n c d = true ↔ (n = 0 ∧ d = c) ∨ (n = 1 ∧ dieOf d = dieOf c) ∨ 2 ≤ n := by
  match n with
  | 0 => simp [tlbCore]
  | 1 => simp [tlbCore]
  | n + 2 => simp [tlbCore]

theorem tlbDie_iff (n c d : Nat) : tlbDie n c d = true ↔ d = dieOf c ∨ 2 ≤ n := by
  match n with
  | 0 => simp [tlbDie]
  | 1 => simp [tlbDie]
  | n + 2 => simp [tlbDie]

theorem not_tlbNames_iff (v : W64) (e : TlbEnt) : (!tlbNames v e) = true ↔ e.asid ≠ bitsOf v.toNat 15 4
    ∨ (v.getLsbD 3 = false ∧ e.page * 2 ^ 16 / leafSize e.level ≠ bitsOf v.toNat 51 16 * 2 ^ 16 / leafSize e.level) := by
  by_cases h : e.asid = bitsOf v.toNat 15 4 <;> simp [tlbNames, TlbEnt.covers, h]

section
variable (s : State) (c : Nat) (v : W64)

theorem tlbInv_core (d : Nat) :
    (tlbInv s c v).core d = if tlbCore (v.toNat % 4) c d then dropTlb (tlbNames v) (s.core d) else s.core d :=
  tgetD_map_named (tlbCore (v.toNat % 4) c) (dropTlb (tlbNames v)) rfl d s.cores

theorem tlbInv_die (d : Nat) : (tlbInv s c v).die d
    = if tlbDie (v.toNat % 4) c d then { s.die d with cache := (s.die d).cache.filter fun e => !tlbNames v e } else s.die d :=
  tgetD_map_named (tlbDie (v.toNat % 4) c) (fun x : Die => { x with cache := x.cache.filter fun e => !tlbNames v e }) rfl d s.dies

/-- A thread whose watch is written back. -/
theorem with_watch (x : Thread) {o : Option Watch} (h : o = x.hold.watch) : { x with hold := { x.hold with watch := o } } = x := by
  rw [h]

/-- A watch is re-read where g holds of its thread (R155). -/
theorem rewatch_thr (g : Tid → Bool) (t : Tid) : (rewatch s g).thr t = { s.thr t with hold := { (s.thr t).hold with
    watch := (s.thr t).hold.watch.map fun w => if g t then { w with due := s.now } else w } } := by
  unfold rewatch State.thr tgetD
  dsimp only
  rw [tget_map _ (by intro p; split <;> rfl)]
  cases tget t s.threads with
  | none => rfl
  | some x =>
    simp only [Option.map_some, Option.getD_some]
    cases hg : g t with
    | false => simp
    | true => cases hw : x.hold.watch with
      | none => exact (with_watch x hw.symm).symm
      | some w => rfl

theorem tlbInv_thr (t : Tid) : (tlbInv s c v).thr t
    = (rewatch s fun t => tlbCore (v.toNat % 4) c (coreOf t) && (spaceOf (s.core (coreOf t)).ptbr).asid == bitsOf v.toNat 15 4).thr t := rfl

end

/-! ### ORGCTL, WAKE and register writes (R198, R253, R381, R390) -/

theorem ungate_fields (x : Core) (now : Nat) : (x.ungate now).halted = false ∧ (x.ungate now).gatedAt = none := by
  refine ⟨?_, ungate_gatedAt x now⟩
  unfold Core.ungate
  split <;> rfl

/-- The translations that `tlbNames` leaves. -/
theorem filter_tlbNames (v : W64) (l : List TlbEnt) : (l.filter fun e => !tlbNames v e) = l.filter fun e => decide (e.asid ≠ bitsOf v.toNat 15 4
    ∨ (v.getLsbD 3 = false ∧ e.page * 2 ^ 16 / leafSize e.level ≠ bitsOf v.toNat 51 16 * 2 ^ 16 / leafSize e.level)) :=
  List.filter_congr fun e _ => by rw [Bool.eq_iff_iff, decide_eq_true_eq]; exact not_tlbNames_iff v e

/-- Settles O45: each event is one operation of the model; what TLBINV leaves of cores, dies and threads is `tlbInv_core`, `tlbInv_die` and
`rewatch_thr`. -/
theorem registerOperationEvents : Obligations.RegisterOperationEvents := by
  refine ⟨fun s c v => ⟨tlbInv s c v, rfl, ?_⟩, fun s c i => ⟨orgFree s c i.toNat, rfl, ?_⟩, fun s c => ⟨orgFreeAll s c, rfl, ?_⟩,
    fun s c v => ⟨fun hd hh => ⟨_, next_eq (if_pos ⟨hd, hh⟩), ?_⟩, fun hn => next_eq (if_neg hn)⟩, fun s T r v => ⟨rfl, rfl⟩⟩
  · refine ⟨fun d hd => ?_, fun d hd => ?_, fun d hd => ?_, fun d hd => ?_, fun T => ?_, rfl, rfl⟩
    · rw [tlbInv_core, if_pos ((tlbCore_iff ..).mpr hd)]
      exact filter_tlbNames v _
    · rw [tlbInv_core, if_neg fun h => hd ((tlbCore_iff ..).mp h)]
    · rw [tlbInv_die, if_pos ((tlbDie_iff ..).mpr hd)]
      exact filter_tlbNames v _
    · rw [tlbInv_die, if_neg fun h => hd ((tlbDie_iff ..).mp h)]
    · rw [tlbInv_thr, rewatch_thr]
      simp only [Bool.and_eq_true, beq_iff_eq, tlbCore_iff]
  · exact ⟨by rw [orgFree, State.core_modCore], by rw [orgFree, State.core_modCore], fun d hd => State.core_modCore_ne _ _ hd⟩
  · exact ⟨by rw [orgFreeAll, State.core_modCore], by rw [orgFreeAll, State.core_modCore], fun d hd => State.core_modCore_ne _ _ hd⟩
  · rw [State.core_modCore]
    exact ⟨(ungate_fields ..).1, (ungate_fields ..).2, fun e he => State.core_modCore_ne _ _ he⟩

end Sys2Proof.Machine
end

section
/-! Reads of a memory after each write (R28, R200, R203). -/

namespace Sys2Proof.Machine

/-! ### Reads of the cell list -/

/-- No cell stands at an address that the list does not name. -/
theorem cellGet_of_notMem {b : Nat} {l : List Host.Cell} (h : ∀ c ∈ l, c.1 ≠ b) : cellGet b l = 0 := by
  induction l with
  | nil => rfl
  | cons c l ih => rw [cellGet, if_neg (h c (by simp)), ih fun d hd => h d (by simp [hd])]

theorem cellGet_append_left {b : Nat} (l : List Host.Cell) {k : List Host.Cell} (h : ∀ c ∈ k, c.1 ≠ b) :
    cellGet b (l ++ k) = cellGet b l := by
  induction l with
  | nil => exact cellGet_of_notMem h
  | cons c l ih => rw [List.cons_append, cellGet, cellGet, ih]

theorem cellGet_append_right {b : Nat} {l : List Host.Cell} (k : List Host.Cell) (h : ∀ c ∈ l, c.1 ≠ b) :
    cellGet b (l ++ k) = cellGet b k := by
  induction l with
  | nil => rfl
  | cons c l ih => rw [List.cons_append, cellGet, if_neg (h c (by simp)), ih fun d hd => h d (by simp [hd])]

theorem cellGet_filter (p : Nat → Bool) (b : Nat) (l : List Host.Cell) :
    cellGet b (l.filter fun c => p c.1) = if p b then cellGet b l else 0 := by
  induction l with
  | nil => simp [cellGet]
  | cons c l ih =>
    by_cases hb : c.1 = b
    · subst hb
      cases hp : p c.1 <;> simp [hp, ih, cellGet]
    · rw [cellGet, if_neg hb, ← ih, List.filter_cons]
      split
      · rw [cellGet, if_neg hb]
      · rfl

theorem ne_of_rising {b c : Nat} {l : List Host.Cell} (h : risingFrom (b + 1) (l.map Prod.fst) = true) (hc : c ≤ b) : ∀ x ∈ l, x.1 ≠ c := by
  intro x hx
  have := rising_ge h _ (List.mem_map_of_mem hx)
  omega

theorem rising_cons {b : Nat} {c : Host.Cell} {l : List Host.Cell} (h : risingFrom b ((c :: l).map Prod.fst) = true) :
    b ≤ c.1 ∧ risingFrom (c.1 + 1) (l.map Prod.fst) = true := by
  simpa [risingFrom] using h

/-- Cells of zero read as no cell. -/
theorem cellGet_nonzero (b : Nat) {n : Nat} {l : List Host.Cell} (h : risingFrom n (l.map Prod.fst) = true) :
    cellGet b (l.filter fun c => c.2 != 0) = cellGet b l := by
  induction l generalizing n with
  | nil => rfl
  | cons c l ih =>
    obtain ⟨_, hl⟩ := rising_cons h
    rw [List.filter_cons]
    split
    · rw [cellGet, cellGet, ih hl]
    · rename_i h0
      rw [ih hl, cellGet]
      split
      · rename_i hb
        rw [cellGet_of_notMem (ne_of_rising hl hb.ge)]
        exact (by simpa using h0 : c.2 = 0).symm
      · rfl

theorem cellGet_cellSet (a b : Nat) (v : Byte) {n : Nat} {l : List Host.Cell} (h : risingFrom n (l.map Prod.fst) = true) :
    cellGet b (cellSet a v l) = if b = a then v else cellGet b l := by
  induction l generalizing n with
  | nil =>
    unfold cellSet
    split
    · simp_all [cellGet]
    · simp [cellGet, eq_comm]
  | cons c l ih =>
    obtain ⟨_, hl⟩ := rising_cons h
    unfold cellSet
    split
    · rename_i hac
      split
      · rename_i hv
        split
        · rename_i hba
          rw [cellGet, if_neg (by omega), cellGet_of_notMem (ne_of_rising hl (by omega)), hv]
        · rfl
      · simp only [cellGet, eq_comm]
    · split
      · rename_i hca
        split
        · rename_i hv
          split
          · rename_i hba
            rw [cellGet_of_notMem (ne_of_rising hl (by omega)), hv]
          · rw [cellGet, if_neg (by omega)]
        · rw [cellGet, cellGet]
          grind
      · rw [cellGet, cellGet, ih hl]
        split <;> split <;> simp_all

/-! ### Tags -/

theorem mem_natIns (a b : Nat) (l : List Nat) : b ∈ natIns a l ↔ b = a ∨ b ∈ l := by
  induction l with
  | nil => simp [natIns]
  | cons c l ih =>
    unfold natIns
    split
    · simp
    · split
      · rename_i hc
        simp [hc]
      · simp [ih, or_left_comm]

theorem mem_natDel (a b : Nat) {n : Nat} {l : List Nat} (h : risingFrom n l = true) : b ∈ natDel a l ↔ b ≠ a ∧ b ∈ l := by
  induction l generalizing n with
  | nil => simp [natDel]
  | cons c l ih =>
    simp only [risingFrom, Bool.and_eq_true, decide_eq_true_eq] at h
    unfold natDel
    split
    · rename_i hc
      have := rising_ge h.2 b
      grind
    · rw [List.mem_cons, ih h.2, List.mem_cons]
      grind

namespace Memory

/-! ### Bytes and numbers -/

theorem byte_setByte {m : Memory} (h : m.wf = true) (a b : Nat) (v : Byte) : (m.setByte a v).byte b = if b = a then v else m.byte b :=
  cellGet_cellSet a b v ((wf_iff m).1 h).1.1

theorem tags_setNum (m : Memory) (a v n : Nat) : (m.setNum a v n).tags = m.tags := by
  induction n generalizing m a v with
  | zero => rfl
  | succ n ih => exact ih ..

theorem byte_setNum {m : Memory} (h : m.wf = true) (a v n b : Nat) :
    (m.setNum a v n).byte b = if a ≤ b ∧ b < a + n then BitVec.ofNat 8 (v / 256 ^ (b - a)) else m.byte b := by
  induction n generalizing m a v with
  | zero => rw [if_neg (by omega)]; rfl
  | succ n ih =>
    rw [setNum, ih (wf_setByte _ _ h), byte_setByte h]
    by_cases hb : b = a
    · rw [if_neg (by omega), if_pos hb, if_pos (by omega), hb, Nat.sub_self, pow_zero, Nat.div_one]
    · rw [if_neg hb]
      by_cases hin : a + 1 ≤ b ∧ b < a + 1 + n
      · rw [if_pos hin, if_pos (by omega), Nat.div_div_eq_div_mul, ← pow_succ', show b - (a + 1) + 1 = b - a by omega]
      · rw [if_neg hin, if_neg (by omega)]

theorem num_congr {m k : Memory} {a n : Nat} (h : ∀ b, a ≤ b → b < a + n → m.byte b = k.byte b) : m.num a n = k.num a n := by
  induction n generalizing a with
  | zero => rfl
  | succ n ih => rw [num, num, h a le_rfl (by omega), ih fun b h1 h2 => h b (by omega) (by omega)]

theorem num_setNum {m : Memory} (h : m.wf = true) (a v n : Nat) : (m.setNum a v n).num a n = v % 256 ^ n := by
  induction n generalizing m a v with
  | zero => simp [num, Nat.mod_one]
  | succ n ih =>
    rw [num, byte_setNum h, if_pos (by omega), setNum, ih (wf_setByte _ _ h), pow_succ', Nat.mod_mul]
    simp

theorem num_lt (m : Memory) (a n : Nat) : m.num a n < 256 ^ n := by
  induction n generalizing a with
  | zero => exact Nat.one_pos
  | succ n ih =>
    have h := ih (a + 1)
    have hb := (m.byte a).isLt
    rw [num, pow_succ']
    omega

/-! ### Words -/

theorem tagged_iff {m : Memory} {w : Nat} : m.tagged w = true ↔ w ∈ m.tags := List.contains_iff_mem

/-- A word is read from its four bytes and its tag. -/
theorem word_congr {m k : Memory} {w : Nat} (hb : ∀ b, 4 * w ≤ b → b < 4 * w + 4 → m.byte b = k.byte b) (ht : w ∈ m.tags ↔ w ∈ k.tags) :
    m.word w = k.word w := by
  have h : m.tagged w = k.tagged w := Bool.eq_iff_iff.2 (by rw [tagged_iff, tagged_iff, ht])
  rw [word, word, num_congr hb, h]

/-- What a word reads as whose bits are those of v modulo 2^32. -/
def reads : Val → Val
  | .ok x => .ok (x % 2 ^ 32)
  | .bad k => .bad k

theorem num_setWord {m : Memory} (h : m.wf = true) (w : Nat) (v : Val) : (m.setWord w v).num (4 * w) 4 = v.bits % 2 ^ 32 := by
  cases v with
  | ok x => exact (num_congr fun _ _ _ => rfl).trans (num_setNum h (4 * w) x 4)
  | bad k => exact (num_congr fun _ _ _ => rfl).trans (num_setNum h (4 * w) k.toNat 4)

theorem word_of_bits {m : Memory} {w : Nat} {v : Val} (hn : m.num (4 * w) 4 = v.bits % 2 ^ 32) (ht : w ∈ m.tags ↔ ∃ k, v = .bad k) :
    m.word w = reads v := by
  rw [word, hn]
  cases v with
  | ok x => exact if_neg fun h => by simpa using ht.1 (tagged_iff.1 h)
  | bad k =>
    rw [if_pos (tagged_iff.2 (ht.2 ⟨k, rfl⟩))]
    simp [Val.bits, reads, Nat.mod_eq_of_lt k.isLt]

/-- A clean word that is read is a 32-bit number. -/
theorem word_lt {m : Memory} {w x : Nat} (h : m.word w = .ok x) : x < 2 ^ 32 := by
  unfold word at h
  split at h
  · cases h
  · cases h
    exact num_lt ..

theorem word_setWord {m : Memory} (h : m.wf = true) (w : Nat) (v : Val) : (m.setWord w v).word w = reads v := by
  cases v with
  | ok x => exact word_of_bits (num_setWord h ..) (by simp [setWord, mem_natDel _ _ ((wf_iff m).1 h).2])
  | bad k => exact word_of_bits (num_setWord h ..) (by simp [setWord, mem_natIns])

theorem word_setWord_ne {m : Memory} (h : m.wf = true) {w u : Nat} (v : Val) (hu : u ≠ w) : (m.setWord w v).word u = m.word u := by
  have hb : ∀ x b, 4 * u ≤ b → b < 4 * u + 4 → (m.setNum (4 * w) x 4).byte b = m.byte b := fun x b h1 h2 => by
    rw [byte_setNum h, if_neg (by omega)]
  cases v with
  | ok x => exact word_congr (hb x) (by simp [setWord, mem_natDel _ _ ((wf_iff m).1 h).2, hu])
  | bad k => exact word_congr (hb k.toNat) (by simp [setWord, mem_natIns, hu])

/-! ### Consecutive words -/

end Memory

/-- A filter from an address on leaves a list that rises from there. -/
theorem rising_filter_ge {l : List Nat} {n : Nat} (b : Nat) (p : Nat → Bool) (hp : ∀ a, p a = true → b ≤ a) (h : risingFrom n l = true) :
    risingFrom b (l.filter p) = true := by
  induction l generalizing n with
  | nil => rfl
  | cons c l ih =>
    simp only [risingFrom, Bool.and_eq_true, decide_eq_true_eq] at h
    rw [List.filter_cons]
    split
    · rename_i hc
      simp only [risingFrom, Bool.and_eq_true, decide_eq_true_eq]
      exact ⟨hp c hc, rising_filter p h.2⟩
    · exact ih h.2

/-- The pass over rising cells gives the bytes of consecutive addresses. -/
theorem cellsFrom_eq {a : Nat} (n : Nat) {l : List Host.Cell} (h : risingFrom a (l.map Prod.fst) = true) :
    cellsFrom a n l = (List.range' a n).map fun b => cellGet b l := by
  induction n generalizing a l with
  | zero => rfl
  | succ n ih =>
    rw [List.range'_succ, List.map_cons]
    cases l with
    | nil => rw [cellsFrom, ih rfl]; rfl
    | cons c l =>
      obtain ⟨hc, hl⟩ := rising_cons h
      rw [cellsFrom]
      split
      · rename_i hca
        rw [ih (hca ▸ hl)]
        refine congrArg₂ _ (if_pos hca).symm (List.map_congr_left fun b hb => ?_)
        rw [cellGet, if_neg (by have := (List.mem_range'_1.1 hb).1; omega)]
      · rename_i hca
        rw [ih (by simpa [risingFrom] using ⟨by omega, hl⟩), cellGet, if_neg hca, cellGet_of_notMem (ne_of_rising hl (by omega))]

/-- The pass over bytes and rising tags gives the words that stand there. -/
theorem wordsFrom_eq (m : Memory) {w : Nat} (n : Nat) {tags : List Nat} (h : risingFrom w tags = true)
    (ht : ∀ u, w ≤ u → (u ∈ tags ↔ u ∈ m.tags)) :
    wordsFrom w ((List.range' (4 * w) (4 * n)).map m.byte) tags = (List.range' w n).map m.word := by
  have key : ∀ {u}, (m.byte (4 * u)).toNat + 2 ^ 8 * (m.byte (4 * u + 1)).toNat + 2 ^ 16 * (m.byte (4 * u + 2)).toNat
      + 2 ^ 24 * (m.byte (4 * u + 3)).toNat = m.num (4 * u) 4 := by
    intro u
    simp only [Memory.num]
    ring
  have ok : ∀ {u}, u ∉ m.tags → m.word u = .ok (m.num (4 * u) 4) := fun hu => if_neg fun h => hu (Memory.tagged_iff.1 h)
  have bad : ∀ {u}, u ∈ m.tags → m.word u = .bad (BitVec.ofNat 32 (m.num (4 * u) 4)) := fun hu => if_pos (Memory.tagged_iff.2 hu)
  induction n generalizing w tags with
  | zero => cases tags <;> rfl
  | succ n ih =>
    rw [show 4 * (n + 1) = 4 * n + 1 + 1 + 1 + 1 by ring]
    simp only [List.range'_succ, List.map_cons, wordsFrom]
    have hw := ht w le_rfl
    cases tags with
    | nil =>
      simp only [key]
      rw [ok (by simpa using hw)]
      exact congrArg _ (ih rfl fun u hu => ht u (by omega))
    | cons t ts =>
      simp only [risingFrom, Bool.and_eq_true, decide_eq_true_eq] at h
      have hts := rising_ge h.2
      simp only [key]
      split
      · rename_i e
        rw [bad (hw.1 (by simp [e]))]
        refine congrArg _ (ih (by rw [← e]; exact h.2) fun u hu => ?_)
        rw [← ht u (by omega), List.mem_cons, or_iff_right (by omega)]
      · rename_i e
        rw [ok fun hm => by
          rcases List.mem_cons.1 (hw.2 hm) with h1 | h1
          · exact e h1.symm
          · have := hts _ h1; omega]
        exact congrArg _ (ih (by simpa [risingFrom] using ⟨by omega, h.2⟩) fun u hu => ht u (by omega))

namespace Memory

theorem words_eq {m : Memory} (h : m.wf = true) (w n : Nat) : m.words w n = (List.range n).map fun i => m.word (w + i) := by
  obtain ⟨⟨hb, _⟩, ht⟩ := (wf_iff m).1 h
  have hr : risingFrom (4 * w) ((m.bytes.filter fun c => decide (4 * w ≤ c.1) && decide (c.1 < 4 * (w + n))).map Prod.fst) = true := by
    rw [map_fst_filter m.bytes fun a => decide (4 * w ≤ a) && decide (a < 4 * (w + n))]
    exact rising_filter_ge _ _ (fun a ha => by simp at ha; exact ha.1) hb
  have hbytes : cellsFrom (4 * w) (4 * n) (m.bytes.filter fun c => decide (4 * w ≤ c.1) && decide (c.1 < 4 * (w + n)))
      = (List.range' (4 * w) (4 * n)).map m.byte := by
    rw [cellsFrom_eq _ hr]
    refine List.map_congr_left fun b hb => ?_
    obtain ⟨h1, h2⟩ := List.mem_range'_1.1 hb
    rw [cellGet_filter fun a => decide (4 * w ≤ a) && decide (a < 4 * (w + n)), if_pos (by simp; omega)]
    rfl
  rw [words, hbytes, wordsFrom_eq m n (rising_filter_ge _ _ (fun a ha => by simpa using ha) ht) fun u hu => by simp [hu],
    List.range'_eq_map_range, List.map_map]
  rfl

end Memory

/-- The bytes of written words. -/
theorem cellGet_wordCells {w : Nat} {l : List Val} {i : Nat} {v : Val} (h : l[i]? = some v) {j : Nat} (hj : j < 4) :
    cellGet (4 * (w + i) + j) (wordCells w l) = BitVec.ofNat 8 (v.bits / 256 ^ j) := by
  induction l generalizing w i with
  | nil => cases h
  | cons x l ih =>
    rw [wordCells]
    cases i with
    | zero =>
      obtain rfl : x = v := by simpa using h
      rw [cellGet_append_left _ fun c hc => ?_, cellGet_nonzero _ (n := 0) (by simp [risingFrom])]
      · obtain rfl | rfl | rfl | rfl : j = 0 ∨ j = 1 ∨ j = 2 ∨ j = 3 := by omega
        all_goals simp [cellGet]
      · have := rising_ge (cellsOk_words (w + 1) l).1.1 _ (List.mem_map_of_mem hc)
        omega
    | succ i =>
      rw [cellGet_append_right _ fun c hc => ?_, ← ih (w := w + 1) (by simpa using h)]
      · congr 1; omega
      · have := (List.mem_filter.1 hc).1
        simp only [List.mem_cons, List.not_mem_nil, or_false] at this
        rcases this with rfl | rfl | rfl | rfl <;> simp <;> omega

/-- The tags of written words. -/
theorem mem_wordTags {w : Nat} {l : List Val} {i : Nat} {v : Val} (h : l[i]? = some v) : w + i ∈ wordTags w l ↔ ∃ k, v = .bad k := by
  induction l generalizing w i with
  | nil => cases h
  | cons x l ih =>
    have hge := rising_ge (rising_wordTags (w + 1) l).1
    cases i with
    | zero =>
      obtain rfl : x = v := by simpa using h
      have hw : w ∉ wordTags (w + 1) l := fun hm => by have := hge _ hm; omega
      cases x <;> simp [wordTags, hw]
    | succ i =>
      have e : w + (i + 1) = w + 1 + i := by omega
      rw [← ih (w := w + 1) (by simpa using h), e]
      cases x with
      | ok x => rfl
      | bad k => rw [wordTags, List.mem_cons, or_iff_right (by omega)]

namespace Memory

section
variable {m : Memory} (w : Nat) (l : List Val)

theorem byte_setWords (b : Nat) : (m.setWords w l).byte b
    = if 4 * w ≤ b ∧ b < 4 * (w + l.length) then cellGet b (wordCells w l) else m.byte b := by
  have hw := rising_ge (cellsOk_words w l).1.1
  have hlt := (cellsOk_words w l).2
  unfold setWords byte
  dsimp only
  have lo : ∀ c ∈ m.bytes.filter (fun c => decide (c.1 < 4 * w)), c.1 < 4 * w := fun c hc => by simpa using (List.mem_filter.1 hc).2
  have hi : ∀ c ∈ m.bytes.filter (fun c => decide (4 * (w + l.length) ≤ c.1)), 4 * (w + l.length) ≤ c.1 :=
    fun c hc => by simpa using (List.mem_filter.1 hc).2
  have mid : ∀ c ∈ wordCells w l, 4 * w ≤ c.1 := fun c hc => hw _ (List.mem_map_of_mem hc)
  split
  · rename_i hb
    rw [cellGet_append_right _ fun c hc => by have := lo c hc; omega, cellGet_append_left _ fun c hc => by have := hi c hc; omega]
  · by_cases h : b < 4 * w
    · rw [cellGet_append_left, cellGet_filter fun a => decide (a < 4 * w), if_pos (by simpa using h)]
      intro c hc
      rcases List.mem_append.1 hc with hc | hc
      · have := mid c hc; omega
      · have := hi c hc; omega
    · rw [cellGet_append_right _ fun c hc => by have := lo c hc; omega, cellGet_append_right _ fun c hc => by have := hlt c hc; omega,
        cellGet_filter fun a => decide (4 * (w + l.length) ≤ a), if_pos (by simp; omega)]

theorem mem_tags_setWords (u : Nat) : u ∈ (m.setWords w l).tags
    ↔ if w ≤ u ∧ u < w + l.length then u ∈ wordTags w l else u ∈ m.tags := by
  have hge := rising_ge (rising_wordTags w l).1 u
  have hlt := (rising_wordTags w l).2 u
  simp only [setWords, List.mem_append, List.mem_filter, decide_eq_true_eq]
  split <;> grind

theorem num_setWords {i : Nat} {v : Val} (h : l[i]? = some v) : (m.setWords w l).num (4 * (w + i)) 4 = v.bits % 2 ^ 32 := by
  have hi := (List.getElem?_eq_some_iff.1 h).1
  have hb : ∀ {j}, j < 4 → (m.setWords w l).byte (4 * (w + i) + j) = BitVec.ofNat 8 (v.bits / 256 ^ j) := fun hj => by
    rw [byte_setWords, if_pos (by omega), cellGet_wordCells h hj]
  have h0 := hb (j := 0) (by decide)
  simp only [num, Nat.add_zero] at h0 ⊢
  rw [h0, hb (j := 1) (by decide), hb (j := 2) (by decide), hb (j := 3) (by decide)]
  simp only [BitVec.toNat_ofNat]
  omega

theorem word_setWords {i : Nat} {v : Val} (h : l[i]? = some v) : (m.setWords w l).word (w + i) = reads v := by
  have hi := (List.getElem?_eq_some_iff.1 h).1
  exact word_of_bits (num_setWords w l h) (by rw [mem_tags_setWords, if_pos (by omega)]; exact mem_wordTags h)

theorem word_setWords_outside {u : Nat} (hu : u < w ∨ w + l.length ≤ u) : (m.setWords w l).word u = m.word u :=
  word_congr (fun b h1 h2 => by rw [byte_setWords, if_neg (by omega)]) (by rw [mem_tags_setWords, if_neg (by omega)])

end

theorem word_clear (m : Memory) (w n u : Nat) : (m.clear (4 * w) (4 * n)).word u = if w ≤ u ∧ u < w + n then .ok 0 else m.word u := by
  have hb : ∀ b, (m.clear (4 * w) (4 * n)).byte b = if 4 * w ≤ b ∧ b < 4 * w + 4 * n then 0 else m.byte b := fun b => by
    refine (cellGet_filter (fun a => !(decide (4 * w ≤ a) && decide (a < 4 * w + 4 * n))) b m.bytes).trans ?_
    by_cases hin : 4 * w ≤ b ∧ b < 4 * w + 4 * n
    · rw [if_pos hin, if_neg (by simpa using hin)]
    · rw [if_neg hin, if_pos (by simp; omega)]
      rfl
  have ht : u ∈ (m.clear (4 * w) (4 * n)).tags ↔ u ∈ m.tags ∧ ¬ (w ≤ u ∧ u < w + n) := by
    simp only [clear, List.mem_filter, Bool.not_eq_true', Bool.and_eq_false_iff, decide_eq_false_iff_not]
    refine and_congr_right fun _ => ?_
    omega
  split
  · rename_i hin
    have h0 : (m.clear (4 * w) (4 * n)).num (4 * u) 4 = (Val.ok 0).bits % 2 ^ 32 := by
      rw [num_congr (k := {}) fun b h1 h2 => (hb b).trans (if_pos (by omega))]
      rfl
    exact word_of_bits h0 (by rw [ht]; simp [hin])
  · rename_i hout
    exact word_congr (fun b h1 h2 => by rw [hb, if_neg (by omega)]) (by rw [ht]; simp [hout])

end Memory

/-! ### A store into one word (R200) -/

/-- Bits sh to sh + nb − 1 of o replaced by those of x. -/
theorem testBit_replace (o x sh nb i : Nat) :
    (o - o / 2 ^ sh % 2 ^ nb * 2 ^ sh + x % 2 ^ nb * 2 ^ sh).testBit i = if sh ≤ i ∧ i < sh + nb then x.testBit (i - sh) else o.testBit i := by
  have hlo : o % 2 ^ sh < 2 ^ sh := Nat.mod_lt _ (by positivity)
  have hx : x % 2 ^ nb < 2 ^ nb := Nat.mod_lt _ (by positivity)
  have h1 := Nat.div_add_mod o (2 ^ sh)
  have h2 := Nat.div_add_mod (o / 2 ^ sh) (2 ^ nb)
  have split : o - o / 2 ^ sh % 2 ^ nb * 2 ^ sh + x % 2 ^ nb * 2 ^ sh
      = 2 ^ sh * (2 ^ nb * (o / 2 ^ sh / 2 ^ nb) + x % 2 ^ nb) + o % 2 ^ sh := by
    generalize o / 2 ^ sh / 2 ^ nb = hi at *
    generalize o / 2 ^ sh % 2 ^ nb = mid at *
    have : o = 2 ^ sh * (2 ^ nb * hi) + mid * 2 ^ sh + o % 2 ^ sh := by
      rw [← h2] at h1
      linarith
    have h3 : 2 ^ sh * (2 ^ nb * hi + x % 2 ^ nb) = 2 ^ sh * (2 ^ nb * hi) + x % 2 ^ nb * 2 ^ sh := by ring
    omega
  rw [split, Nat.testBit_two_pow_mul_add _ hlo]
  by_cases hi : i < sh
  · rw [if_pos hi, if_neg (by omega), Nat.testBit_mod_two_pow]
    simp [hi]
  · rw [if_neg hi, Nat.testBit_two_pow_mul_add _ hx]
    by_cases hn : i - sh < nb
    · rw [if_pos hn, if_pos (by omega), Nat.testBit_mod_two_pow]
      simp [hn]
    · rw [if_neg hn, if_neg (by omega), Nat.testBit_div_two_pow, Nat.testBit_div_two_pow]
      congr 1
      omega

theorem mergeWord_part {nb : Nat} (hn : nb < 32) (o x sh : Nat) :
    mergeWord (.ok o) sh nb (.ok x) = .ok (o - o / 2 ^ sh % 2 ^ nb * 2 ^ sh + x % 2 ^ nb * 2 ^ sh) := if_neg (by omega)

/-- Settles O56: a memory's bytes, numbers and words after each write (`byte_setNum`, `num_setNum`, `word_setWord`, `word_setWords`,
`word_clear`), the words in one pass (`words_eq`), and the bits of a merged word (`testBit_replace`). -/
theorem memoryWordRules : Obligations.MemoryWordRules := by
  have reads_eq : ∀ v, Memory.reads v = match v with | .ok x => .ok (x % 2 ^ 32) | .bad k => .bad k := fun v => by cases v <;> rfl
  refine ⟨fun m w v h => ⟨(Memory.word_setWord h w v).trans (reads_eq v), fun u hu => Memory.word_setWord_ne h v hu⟩,
    fun m w n h => Memory.words_eq h w n,
    fun m w l _ => ⟨fun i v h => (Memory.word_setWords w l h).trans (reads_eq v), fun u hu => Memory.word_setWords_outside w l hu⟩,
    fun m a v n b h => Memory.byte_setNum h a v n b, fun m a v n h => Memory.num_setNum h a v n, fun m w n _ u => Memory.word_clear m w n u,
    fun o x sh k j ho => ⟨rfl, rfl, fun nb hnb => ?part, fun _ _ => rfl⟩⟩
  have h32 : nb < 32 := by
    simp only [List.mem_cons, List.not_mem_nil, or_false] at hnb
    omega
  refine ⟨if_neg (by omega), fun hsh => ⟨_, mergeWord_part h32 o x sh, ?_, testBit_replace o x sh nb⟩⟩
  refine Nat.lt_pow_two_of_testBit _ fun i hi => ?_
  rw [testBit_replace, if_neg (by omega)]
  exact Nat.testBit_lt_two_pow (ho.trans_le (Nat.pow_le_pow_right (by decide) hi))

end Sys2Proof.Machine
end

section
/-! The host: page-request answers, accesses, launches, bring-up and reset (R221, R380 to R398). -/

namespace Sys2Proof.Machine

/-! ### Reads at homes after a write there (R225) -/

theorem State.die_modDie (s : State) (d : Nat) (f : Die → Die) : (s.modDie d f).die d = f (s.die d) := by
  simp [State.modDie, State.setDie, State.die]

theorem awake_die (s : State) (d : Nat) : (awake s).die d = s.die d := rfl

theorem homeWrite_cfg (s : State) (by_ : Option Nat) (w : Nat) (v : Val) : (homeWrite s by_ w v).cfg = s.cfg := by
  unfold homeWrite wakeWatch
  dsimp only
  split <;> split <;> rfl

theorem homeWrite_dies (s : State) (by_ : Option Nat) (w : Nat) (v : Val) : (homeWrite s by_ w v).dies = s.dies := by
  unfold homeWrite wakeWatch
  dsimp only
  split <;> split <;> rfl

theorem homeWrites_dies (by_ : Option Nat) (l : List Val) (s : State) (w : Nat) : (homeWrites s by_ w l).dies = s.dies := by
  induction l generalizing s w with
  | nil => rfl
  | cons v l ih => exact (ih ..).trans (homeWrite_dies ..)

theorem homeNum_dies (s : State) (by_ : Option Nat) (pa v n : Nat) : (homeNum s by_ pa v n).dies = s.dies := homeWrites_dies ..

theorem homeNum_die (s : State) (by_ : Option Nat) (pa v n d : Nat) : (homeNum s by_ pa v n).die d = s.die d := by
  rw [State.die, homeNum_dies, State.die]

/-- The memory that a home's write leaves. -/
theorem homeWrite_mem (s : State) (by_ : Option Nat) (w : Nat) (v : Val) :
    (homeWrite s by_ w v).mem = if isHost s (4 * w) then s.mem else s.mem.setWord w v := by
  unfold homeWrite wakeWatch
  dsimp only
  split <;> split <;> rfl

theorem homeWrite_hostMem (s : State) (by_ : Option Nat) (w : Nat) (v : Val) :
    (homeWrite s by_ w v).hostMem = if isHost s (4 * w) then s.hostMem.setWord w v else s.hostMem := by
  unfold homeWrite wakeWatch
  dsimp only
  split <;> split <;> rfl

theorem isHost_homeWrite (s : State) (by_ : Option Nat) (w : Nat) (v : Val) (a : Nat) : isHost (homeWrite s by_ w v) a = isHost s a := by
  rw [isHost, homeWrite_cfg, isHost]

theorem homeWord_homeWrite {s : State} (h : s.memOk) (by_ : Option Nat) (w : Nat) (v : Val) :
    homeWord (homeWrite s by_ w v) w = Memory.reads v := by
  rw [homeWord, isHost_homeWrite, homeWrite_hostMem, homeWrite_mem]
  by_cases hh : isHost s (4 * w) = true
  · rw [if_pos hh, if_pos hh, Memory.word_setWord h.2.1]
  · rw [if_neg hh, if_neg hh, Memory.word_setWord h.1]

theorem homeWord_homeWrite_ne {s : State} (h : s.memOk) (by_ : Option Nat) {w u : Nat} (v : Val) (hu : u ≠ w) :
    homeWord (homeWrite s by_ w v) u = homeWord s u := by
  rw [homeWord, isHost_homeWrite, homeWrite_hostMem, homeWrite_mem, homeWord]
  by_cases hh : isHost s (4 * w) = true
  · rw [if_pos hh, if_pos hh, Memory.word_setWord_ne h.2.1 v hu]
  · rw [if_neg hh, if_neg hh, Memory.word_setWord_ne h.1 v hu]

/-- A home's write leaves Troham's block but for the power state and the back-invalidation of a line that the host caches. -/
theorem homeWrite_host {s : State} (hl : s.host.hostLines = []) (by_ : Option Nat) (w : Nat) (v : Val) :
    (homeWrite s by_ w v).host = s.host ∨ (homeWrite s by_ w v).host = { s.host with pstate := 0 } := by
  unfold homeWrite wakeWatch
  dsimp only
  split <;> simp only [hl, List.contains_nil, Bool.false_eq_true, if_false]
  all_goals
    split
    · exact .inl rfl
    · exact .inr rfl

theorem homeWord_lt {s : State} {w x : Nat} (h : homeWord s w = .ok x) : x < 2 ^ 32 := by
  unfold homeWord at h
  split at h <;> exact Memory.word_lt h

/-! ### Page-request answers (R189, R217, R387) -/

/-- Whether a thread waits for the page of w. -/
def Hold.waits (w : PageWait) (h : Hold) : Bool := h.parked.any w.same || h.fetch.any w.same

theorem Hold.not_same {w p : PageWait} {h : Hold} (hn : h.waits w = false) (hp : p ∈ h.parked ∨ h.fetch = some p) : w.same p = false := by
  rw [Hold.waits, Bool.or_eq_false_iff] at hn
  obtain hm | hf := hp
  · exact Bool.eq_false_iff.2 (List.any_eq_false.1 hn.1 p hm)
  · rw [hf] at hn
    exact hn.2

theorem answerThread_waits (w : PageWait) (no : Bool) (h : Hold) : (answerThread w no h).waits w = false := by
  have key : ∀ g : Hold, g.fetch.any w.same = false →
      (if g.parked.any w.same then { g with parked := g.parked.filter fun p => !w.same p, refused := g.refused || no } else g).waits w = false := by
    intro g hg
    split
    · simp [Hold.waits, hg]
    · rename_i hp
      rw [Hold.waits, hg, Bool.or_false, Bool.eq_false_iff.2 hp]
  unfold answerThread
  dsimp only
  refine key _ ?_
  split
  · rfl
  · exact Bool.eq_false_iff.2 ‹_›

/-- No thread of die d waits for the page of w. -/
def Answered (d : Nat) (w : PageWait) (s : State) : Prop :=
  ∀ q ∈ s.threads, dieOf (coreOf q.1) = d → q.2.hold.waits w = false

theorem mem_of_tget {α : Type} {k : Nat} {a : α} {l : Tbl α} (h : tget k l = some a) : (k, a) ∈ l := by
  induction l with
  | nil => cases h
  | cons p l ih =>
    unfold tget at h
    split at h
    · rename_i hk
      cases h
      exact hk ▸ List.mem_cons_self ..
    · exact List.mem_cons_of_mem _ (ih h)

section
variable {d : Nat} {w : PageWait} {s u : State}

theorem Answered.rewatched (h : Answered d w s) (k : Rewatched s u) : Answered d w u := fun q hq hd => by
  obtain ⟨p, hp, e, v, hv⟩ := k.mem hq
  rw [hv]
  exact h p hp (e ▸ hd)

theorem Answered.setThr (h : Answered d w s) {t : Tid} {x : Thread} (hx : dieOf (coreOf t) = d → x.hold.waits w = false) :
    Answered d w (s.setThr t x) := fun q hq hd => by
  obtain rfl | hq := mem_tset hq
  · exact hx hd
  · exact h q hq hd

theorem Answered.modThr (h : Answered d w s) (t : Tid) {f : Thread → Thread} (hf : ∀ x, x.hold.waits w = false → (f x).hold.waits w = false) :
    Answered d w (s.modThr t f) := by
  unfold State.modThr
  split
  · rename_i x hx
    exact h.setThr fun hd => hf x (h _ (mem_of_tget hx) hd)
  · exact h

theorem Answered.thr (h : Answered d w s) {t : Tid} (hd : dieOf (coreOf t) = d) : (s.thr t).hold.waits w = false := by
  unfold State.thr tgetD
  cases hx : tget t s.threads with
  | none => rfl
  | some x => exact h _ (mem_of_tget hx) hd

theorem putGrans_hold (x : Thread) (g m lo n : Nat) (v : Val) : (x.putGrans g m lo n v).hold = x.hold := by
  induction m generalizing x g with
  | zero => rfl
  | succ m ih =>
    refine (ih ..).trans ?_
    cases v with
    | bad k => rfl
    | ok z => rw [Thread.putGran]; split <;> rfl

theorem foldl_hold {α : Type} {f : Thread → α → Thread} (hf : ∀ x a, (f x a).hold = x.hold) (l : List α) (x : Thread) :
    (l.foldl f x).hold = x.hold := by
  induction l generalizing x with
  | nil => rfl
  | cons a l ih => exact (ih _).trans (hf x a)

/-- The leg's way back leaves every thread's waits and the dies. -/
theorem Answered.recoverLeg (h : Answered d w s) (t : Tid) (k : Option Tok) : Answered d w (recoverLeg s t k) :=
  (h.rewatched (discardHeld_rewatched s t)).modThr t fun _ hx => hx

theorem Answered.replayLeg (h : Answered d w s) (t : Tid) : Answered d w (replayLeg s t) := by
  unfold Machine.replayLeg
  dsimp only
  split
  · exact h
  · refine (h.rewatched (discardHeld_rewatched s t)).setThr fun hd => ?_
    refine Eq.trans (congrArg _ (foldl_hold (fun x a => ?_) _ _)) (h.thr hd)
    split
    · rfl
    · exact putGrans_hold ..

theorem replayLeg_dies (s : State) (t : Tid) : (replayLeg s t).dies = s.dies := by
  unfold replayLeg
  dsimp only
  split <;> rfl

theorem recoverLeg_dies (s : State) (t : Tid) (k : Option Tok) : (recoverLeg s t k).dies = s.dies := State.modThr_dies ..

theorem Answered.unpark (h : Answered d w s) (t : Tid) : Answered d w (unpark s t) := by
  have hm : Answered d w (s.modThr t fun x => { x with hold := { x.hold with parked := [], refused := false } }) :=
    h.modThr t fun x hx => by simp_all [Hold.waits]
  unfold Machine.unpark
  dsimp only
  split
  · exact hm.recoverLeg t _
  · exact hm.replayLeg t

theorem unpark_dies (s : State) (t : Tid) : (unpark s t).dies = s.dies := by
  unfold unpark
  dsimp only
  split
  · rw [recoverLeg_dies, State.modThr_dies]
  · rw [replayLeg_dies, State.modThr_dies]

theorem Answered.unparkAll (h : Answered d w s) (ts : List Tid) :
    Answered d w (ts.foldl (fun s t => if (s.thr t).hold.parked.isEmpty then Machine.unpark s t else s) s)
    ∧ (ts.foldl (fun s t => if (s.thr t).hold.parked.isEmpty then Machine.unpark s t else s) s).dies = s.dies := by
  induction ts generalizing s with
  | nil => exact ⟨h, rfl⟩
  | cons t ts ih =>
    rw [List.foldl_cons]
    split
    · obtain ⟨h1, h2⟩ := ih (h.unpark t)
      exact ⟨h1, h2.trans (unpark_dies s t)⟩
    · exact ih h

end

/-- The answer given to every thread of the die. -/
def answeredAll (s : State) (d : Nat) (w : PageWait) (no : Bool) : State := { s with
  threads := s.threads.map fun q => if dieOf (coreOf q.1) = d then (q.1, { q.2 with hold := answerThread w no q.2.hold }) else q }

theorem answeredAll_die (s : State) (d : Nat) (w : PageWait) (no : Bool) (e : Nat) :
    tgetD e {} (answeredAll s d w no).dies = s.die e := rfl

theorem answeredAll_answered (s : State) (d : Nat) (w : PageWait) (no : Bool) : Answered d w (answeredAll s d w no) := by
  intro q hq hd
  obtain ⟨r, hr, rfl⟩ := List.mem_map.1 hq
  by_cases hrd : dieOf (coreOf r.1) = d
  · rw [if_pos hrd]
    exact answerThread_waits ..
  · rw [if_neg hrd] at hd
    exact absurd hd hrd

/-- An answer: the threads of the die, those that wait no more, and the entry (R387). -/
theorem answerPage_found {s : State} {d e : Nat} {p : PageReq} (he : tget e (s.die d).pages = some p) (no : Bool) :
    ∃ ts a, answerPage s d e no = awake ((homeNum (List.foldl (fun s t => if (s.thr t).hold.parked.isEmpty then unpark s t else s)
      (answeredAll s d { asid := p.asid, page := p.page } no) ts) none a 0 1).modDie d fun x => { x with pages := tdel e x.pages }) := by
  unfold answerPage
  rw [he]
  exact ⟨_, _, rfl⟩

theorem awake_pstate (s : State) : (awake s).host.pstate = 0 := rfl

theorem Answered.awake_modDie {d : Nat} {w : PageWait} {s : State} (h : Answered d w s) (e : Nat) (f : Die → Die) :
    Answered d w (awake (s.modDie e f)) := h

/-- An answered entry is free, and no thread of its die waits for its page any more. -/
theorem answerPage_answers {s : State} {d e : Nat} {p : PageReq} (he : tget e (s.die d).pages = some p) (no : Bool) :
    ((answerPage s d e no).die d).pages = tdel e (s.die d).pages ∧ (answerPage s d e no).host.pstate = 0
    ∧ Answered d { asid := p.asid, page := p.page } (answerPage s d e no) := by
  obtain ⟨ts, a, e1⟩ := answerPage_found he no
  obtain ⟨h1, h2⟩ := (answeredAll_answered s d { asid := p.asid, page := p.page } no).unparkAll ts
  rw [e1]
  refine ⟨?_, awake_pstate _, (h1.rewatched (homeNum_rewatched ..)).awake_modDie d _⟩
  rw [awake_die, State.die_modDie, homeNum_die, State.die, h2, answeredAll_die]

/-! ### Bring-up (R397, R398) -/

/-- What a start has stopped or fenced stays so, and it does not make the device ready. -/
structure Boot.Grows (b c : Boot) : Prop where
  ready : c.h.ready = b.h.ready
  stopped : b.h.stopped = true → c.h.stopped = true
  fenced : ∀ k ∈ b.h.fenced, k ∈ c.h.fenced
  fencedDies : ∀ k ∈ b.h.fencedDies, k ∈ c.h.fencedDies

namespace Boot.Grows

theorem refl (b : Boot) : Boot.Grows b b := ⟨rfl, id, fun _ => id, fun _ => id⟩

theorem trans {a b c : Boot} (h : Boot.Grows a b) (k : Boot.Grows b c) : Boot.Grows a c :=
  ⟨k.ready.trans h.ready, fun x => k.stopped (h.stopped x), fun n x => k.fenced n (h.fenced n x), fun n x => k.fencedDies n (h.fencedDies n x)⟩

theorem foldl {f : Boot → Nat → Boot} (hf : ∀ b n, Boot.Grows b (f b n)) (l : List Nat) (b : Boot) : Boot.Grows b (l.foldl f b) := by
  induction l generalizing b with
  | nil => exact refl b
  | cons n l ih => exact (hf b n).trans (ih _)

/-- Each entry of the list has its step, and the rest only adds. -/
theorem foldl_reaches {f : Boot → Nat → Boot} (hf : ∀ b n, Boot.Grows b (f b n)) {l : List Nat} {n : Nat} (hn : n ∈ l) (b : Boot) :
    ∃ a, Boot.Grows (f a n) (l.foldl f b) := by
  induction l generalizing b with
  | nil => cases hn
  | cons m l ih =>
    rcases List.mem_cons.1 hn with rfl | hn
    · exact ⟨b, foldl hf l _⟩
    · exact ih hn _

end Boot.Grows

theorem mem_foldl_natIns {k : Nat} (cs l : List Nat) : k ∈ cs.foldl (fun l c => natIns c l) l ↔ k ∈ cs ∨ k ∈ l := by
  induction cs generalizing l with
  | nil => simp
  | cons c cs ih => rw [List.foldl_cons, ih, mem_natIns, List.mem_cons]; tauto

theorem mem_fence {k : Nat} {l : List Nat} (hk : k ∈ l) (cs : List Nat) : k ∈ cs.foldl (fun l c => natIns c l) l :=
  (mem_foldl_natIns ..).2 (.inr hk)

theorem bootFail_grows (b : Boot) (step unit : Nat) : Boot.Grows b (bootFail b step unit) := by
  unfold bootFail
  generalize List.map (fun i => 12 * unit + i) (List.range 12) = cs
  dsimp only
  split
  · exact ⟨rfl, id, fun _ hk => mem_fence hk _, fun k hk => (mem_natIns ..).2 (.inr hk)⟩
  · exact ⟨rfl, id, fun _ hk => mem_fence hk _, fun k hk => (mem_natIns ..).2 (.inr hk)⟩
  · exact ⟨rfl, id, fun _ hk => mem_fence hk _, fun _ => id⟩
  · exact ⟨rfl, id, fun _ => id, fun _ => id⟩
  · exact ⟨rfl, fun _ => rfl, fun _ => id, fun _ => id⟩

theorem bootDone_grows (b : Boot) (step unit m : Nat) : Boot.Grows b (bootDone b step unit m) := by
  unfold bootDone
  split <;> exact ⟨rfl, id, fun _ => id, fun _ => id⟩

theorem bootUnit_grows (fails : List Attempt) (old : List JLine) (step : Nat) (b : Boot) (unit : Nat) :
    Boot.Grows b (bootUnit fails old step b unit) := by
  unfold bootUnit
  split
  · exact .refl b
  · have log : ∀ ls, Boot.Grows b { b with h := { b.h with journal := ls } } := fun ls => ⟨rfl, id, fun _ => id, fun _ => id⟩
    dsimp only
    split
    · exact (log _).trans (bootDone_grows ..)
    · exact (log _).trans (bootFail_grows ..)

/-- No attempt succeeds where each of a unit's methods fails. -/
theorem attempts_all_fail {fails : List Attempt} {step unit : Nat} {ms : List Nat} (h : ∀ m ∈ ms, ⟨step, unit, m⟩ ∈ fails) :
    (attempts fails step unit ms).find? (fun j => j.ok) = none := by
  induction ms with
  | nil => rfl
  | cons m ms ih =>
    rw [attempts, if_pos (List.contains_iff_mem.2 (h m (by simp)))]
    exact ih fun n hn => h n (by simp [hn])

theorem mem_methodOrder {l : List JLine} {step unit m : Nat} (h : m ∈ methodOrder l step unit) : m < stepMethods step := by
  unfold methodOrder at h
  dsimp only at h
  split at h
  · rcases List.mem_append.1 h with h | h
    · exact List.mem_range.1 (List.mem_of_mem_drop h)
    · exact List.mem_range.1 (List.mem_of_mem_take h)
  · exact List.mem_range.1 h

/-- A unit whose every method fails is absent already, or the start has stopped, or its failure is acted on. -/
theorem bootUnit_fails {fails : List Attempt} {step unit : Nat} (h : ∀ m < stepMethods step, ⟨step, unit, m⟩ ∈ fails) (old : List JLine)
    (b : Boot) : (b.h.stopped = true ∨ fencedUnit b.h step unit = true) ∧ bootUnit fails old step b unit = b
    ∨ ∃ ls, bootUnit fails old step b unit = bootFail { b with h := { b.h with journal := ls } } step unit := by
  unfold bootUnit
  split
  · rename_i hb
    exact .inl ⟨by simpa using hb, rfl⟩
  · refine .inr ⟨b.h.journal ++ attempts fails step unit (methodOrder old step unit), ?_⟩
    dsimp only
    rw [attempts_all_fail fun m hm => h m (mem_methodOrder hm)]

section
variable (s : State) (r : BringUp)

/-- What the journal says to a start (R398). -/
def oldJournal : List JLine := if s.host.jrnclr then [] else s.host.journal

/-- A start before its first step. -/
def bootStart : Boot :=
  { h := { s.host with fenced := if s.host.jrnclr then [] else s.host.fenced
                       fencedDies := if s.host.jrnclr then [] else s.host.fencedDies, images := [] } }

/-- The units of one step. -/
def bootStep (b : Boot) (i : Nat) : Boot := (List.range (stepUnits (i + 1))).foldl (bootUnit r.fails (oldJournal s) (i + 1)) b

theorem boot_eq : boot s r = (List.range 9).foldl (bootStep s r) (bootStart s) := rfl

theorem bootStep_grows (b : Boot) (i : Nat) : Boot.Grows b (bootStep s r b i) := .foldl (bootUnit_grows _ _ _) _ b

/-- Each unit of each step has its turn in a start. -/
theorem boot_reaches {step unit : Nat} (h1 : 1 ≤ step) (h9 : step ≤ 9) (hu : unit < stepUnits step) :
    ∃ a, Boot.Grows (bootUnit r.fails (oldJournal s) step a unit) (boot s r) := by
  obtain ⟨a, ha⟩ := Boot.Grows.foldl_reaches (bootStep_grows s r) (List.mem_range.2 (by omega : step - 1 < 9)) (bootStart s)
  rw [bootStep, Nat.sub_add_cancel h1] at ha
  obtain ⟨a', ha'⟩ := Boot.Grows.foldl_reaches (bootUnit_grows r.fails (oldJournal s) step) (List.mem_range.2 hu) a
  exact ⟨a', ha'.trans ha⟩

theorem boot_ready : (boot s r).h.ready = s.host.ready := by
  rw [boot_eq]
  exact (Boot.Grows.foldl (bootStep_grows s r) ..).ready

/-- Steps 2, 6 and 8 stop a start that they fail (R397). -/
theorem boot_stops {n : Nat} (hn : n ∈ [2, 6, 8]) (hf : ⟨n, 0, 0⟩ ∈ r.fails) : (boot s r).h.stopped = true := by
  have key : 1 ≤ n ∧ n ≤ 9 ∧ stepUnits n = 1 ∧ stepMethods n = 1 ∧ (∀ b, fencedUnit b n 0 = false)
      ∧ ∀ b, (bootFail b n 0).h.stopped = true := by
    simp only [List.mem_cons, List.not_mem_nil, or_false] at hn
    rcases hn with rfl | rfl | rfl
    all_goals exact ⟨by decide, by decide, rfl, rfl, fun _ => rfl, fun _ => rfl⟩
  obtain ⟨h1, h9, hu, hm, hnf, hstop⟩ := key
  obtain ⟨a, ha⟩ := boot_reaches s r h1 h9 (unit := 0) (by omega)
  refine ha.stopped ?_
  obtain ⟨h, e⟩ | ⟨ls, e⟩ := bootUnit_fails (step := n) (unit := 0) (by rw [hm]; simpa using hf) (oldJournal s) a
  · rw [e]
    exact h.resolve_right (by simp [hnf])
  · rw [e]
    exact hstop _

/-- A cluster that fails step 5 is fenced (R397). -/
theorem boot_fences (hs : (boot s r).h.stopped = false) {c : Nat} (hc : c < 96) (hf : ⟨5, c, 0⟩ ∈ r.fails) : c ∈ (boot s r).h.fenced := by
  obtain ⟨a, ha⟩ := boot_reaches s r (step := 5) (by decide) (by decide) (unit := c) hc
  obtain ⟨h, e⟩ | ⟨ls, e⟩ := bootUnit_fails (step := 5) (unit := c) (by intro m hm; obtain rfl : m = 0 := Nat.lt_one_iff.1 hm; exact hf)
    (oldJournal s) a <;> rw [e] at ha
  · obtain h | h := h
    · rw [ha.stopped h] at hs
      cases hs
    · exact ha.fenced c (List.contains_iff_mem.1 h)
  · exact ha.fenced c ((mem_natIns ..).2 (.inl rfl))

/-- A die that fails step 3 or 4 twice is fenced (R397). -/
theorem boot_fencesDies (hs : (boot s r).h.stopped = false) {n d : Nat} (hn : n ∈ [3, 4]) (hd : d < 8) (h0 : ⟨n, d, 0⟩ ∈ r.fails)
    (h1 : ⟨n, d, 1⟩ ∈ r.fails) : d ∈ (boot s r).h.fencedDies := by
  have key : 1 ≤ n ∧ n ≤ 9 ∧ stepUnits n = 8 ∧ stepMethods n = 2 ∧ (∀ b, fencedUnit b n d = b.fencedDies.contains d)
      ∧ ∀ b, d ∈ (bootFail b n d).h.fencedDies := by
    simp only [List.mem_cons, List.not_mem_nil, or_false] at hn
    rcases hn with rfl | rfl
    all_goals exact ⟨by decide, by decide, rfl, rfl, fun _ => rfl, fun _ => (mem_natIns ..).2 (.inl rfl)⟩
  obtain ⟨hl, h9, hu, hm, hab, hfen⟩ := key
  obtain ⟨a, ha⟩ := boot_reaches s r hl h9 (unit := d) (by omega)
  have hall : ∀ m < stepMethods n, ⟨n, d, m⟩ ∈ r.fails := by
    intro m hm'
    rw [hm] at hm'
    obtain rfl | rfl : m = 0 ∨ m = 1 := by omega
    · exact h0
    · exact h1
  obtain ⟨h, e⟩ | ⟨ls, e⟩ := bootUnit_fails hall (oldJournal s) a <;> rw [e] at ha
  · obtain h | h := h
    · rw [ha.stopped h] at hs
      cases hs
    · exact ha.fencedDies d (List.contains_iff_mem.1 (hab _ ▸ h))
  · exact ha.fencedDies d (hfen _)

end

/-- Troham's block after a bring-up that could begin (R397). -/
theorem bringUp_host {s : State} (r : BringUp) (h : (s.host.ready || s.host.fault || s.host.stopped) = false) :
    let t := bringUp s r
    let b := boot s r
    t.host.stopped = b.h.stopped ∧ t.host.ready = !b.h.stopped ∧ t.host.failSteps = b.failed.length ∧ t.host.fenced = b.h.fenced
    ∧ t.host.fencedDies = b.h.fencedDies ∧ t.host.journal = b.h.journal := by
  have hr : (boot s r).h.ready = false := by
    rw [boot_ready]
    simp only [Bool.or_eq_false_iff] at h
    exact h.1.1
  unfold bringUp
  generalize boot s r = b at hr ⊢
  cases hb : b.h.stopped with
  | true => simp [h, hb, hr]
  | false => simp [h, hb, startDispatchers_host]

/-! ### The events -/

theorem execPageRequestAnswer_found {s : State} {d e : Nat} {p : PageReq} (he : tget e (s.die d).pages = some p) (no : Bool) :
    execPageRequestAnswer d e no s
      = .next (answerPage (homeNum s none (s.host.prqBase.toNat + 8192 * d + 32 * e + 16) (if no then 3 else 2) 1) d e no) := by
  rw [execPageRequestAnswer, he]

theorem homeWrite_prqBase (s : State) (by_ : Option Nat) (w : Nat) (v : Val) : (homeWrite s by_ w v).host.prqBase = s.host.prqBase := by
  unfold homeWrite wakeWatch
  dsimp only
  split <;> split <;> split <;> rfl

theorem homeWrites_prqBase (by_ : Option Nat) (l : List Val) (s : State) (w : Nat) : (homeWrites s by_ w l).host.prqBase = s.host.prqBase := by
  induction l generalizing s w with
  | nil => rfl
  | cons v l ih => exact (ih ..).trans (homeWrite_prqBase ..)

theorem statusEntry_hostStore (s : State) (pa nb v a : Nat) : statusEntry (hostStore s pa nb v) a = statusEntry s a := by
  have h : (hostStore s pa nb v).host.prqBase = s.host.prqBase := by
    unfold hostStore
    dsimp only
    split
    · exact homeWrites_prqBase ..
    · exact homeWrite_prqBase ..
  simp only [statusEntry, h]

/-- The device awake for an access of the host. -/
def hostAwake (s : State) : State := { awake s with host := { (awake s).host with lastAccess := s.now } }

/-- The answer that a written STATUS word gives (R387). -/
def answerStatus (s : State) (pa : Nat) : State :=
  match statusEntry s pa with
  | some (d, e) =>
    let v := (homeRead s (pa / 4) 1).getD 0
    if v = 2 then answerPage s d e false else if v = 3 then answerPage s d e true else s
  | none => s

theorem execHostWrite_reaches {s : State} {a : Nat} {size : BitVec 2} (v : W64) (hr : hostReaches s a (8 * 2 ^ size.toNat / 8) = true) :
    execHostWrite a size v s = .next (answerStatus (hostStore (hostAwake s) a (8 * 2 ^ size.toNat) v.toNat) a) := by
  unfold execHostWrite
  dsimp only
  rw [if_neg (by rw [hr]; decide)]
  rfl

theorem answerStatus_none {s : State} {pa : Nat} (h : statusEntry s pa = none) : answerStatus s pa = s := by rw [answerStatus, h]

/-- A host write that answers no page request (R380). -/
theorem execHostWrite_plain {s : State} {a : Nat} {size : BitVec 2} (v : W64) (hr : hostReaches s a (8 * 2 ^ size.toNat / 8) = true)
    (he : statusEntry s a = none) : execHostWrite a size v s = .next (hostStore (hostAwake s) a (8 * 2 ^ size.toNat) v.toNat) :=
  (execHostWrite_reaches v hr).trans (next_eq (answerStatus_none ((statusEntry_hostStore (hostAwake s) ..).trans he)))

/-- What a host read of nb bits gives (R380). -/
def hostReadVal (s : State) (pa nb : Nat) : Val :=
  let ws := (List.range (if nb = 64 then 2 else 1)).map fun i => homeWord s (pa / 4 + i)
  match firstBad ws with
  | some k => .bad k
  | none => .ok (wordsNum ws / 2 ^ (8 * (pa % 4)) % 2 ^ nb)

theorem execHostRead_reaches {s : State} {a : Nat} {size : BitVec 2} (hr : hostReaches s a (8 * 2 ^ size.toNat / 8) = true) :
    execHostRead a size s = .next { awake s with host := { (awake s).host with
      read := some (hostReadVal s a (8 * 2 ^ size.toNat)), lastAccess := s.now, hostLines := natIns (a / 64) s.host.hostLines } } := by
  unfold execHostRead
  dsimp only
  rw [if_neg (by rw [hr]; decide)]
  rfl

/-- A read of 32 bits gives the word as it is. -/
theorem hostReadVal_word (s : State) {a : Nat} (h4 : a % 4 = 0) : hostReadVal s a 32 = homeWord s (a / 4) := by
  have hw : (List.range 1).map (fun i => homeWord s (a / 4 + i)) = [homeWord s (a / 4)] := rfl
  rw [hostReadVal, if_neg (by decide), hw]
  cases hx : homeWord s (a / 4) with
  | bad k => rfl
  | ok x => simpa [firstBad, wordsNum, h4] using homeWord_lt hx

/-- The host's own lines left out of account: its copy needs no back-invalidation (R380). -/
def ownLines (s : State) : State := { s with host := { s.host with hostLines := [] } }

/-- The host's own lines back. -/
def withLines (s : State) (ls : List Nat) : State := { s with host := { s.host with hostLines := ls } }

theorem homeWord_withLines (s : State) (ls : List Nat) (w : Nat) : homeWord (withLines s ls) w = homeWord s w := rfl

theorem hostStore_eq (s : State) (a nb v : Nat) : hostStore s a nb v = withLines
    (if nb = 64 then homeNum (ownLines s) none a v 2 else homeStore (ownLines s) none a nb (.ok (v % 2 ^ nb))) s.host.hostLines := rfl

theorem hostStore_32 (s : State) (a v : Nat) :
    hostStore s a 32 v = withLines (homeStore (ownLines s) none a 32 (.ok (v % 2 ^ 32))) s.host.hostLines := by
  rw [hostStore_eq, if_neg (by decide)]

theorem homeWord_hostStore (s : State) (a v w : Nat) :
    homeWord (hostStore s a 32 v) w = homeWord (homeStore (ownLines s) none a 32 (.ok (v % 2 ^ 32))) w := by
  rw [hostStore_32, homeWord_withLines]

theorem hostStore_host (s : State) (a v : Nat) : (hostStore s a 32 v).host
    = { (homeStore (ownLines s) none a 32 (.ok (v % 2 ^ 32))).host with hostLines := s.host.hostLines } := by
  rw [hostStore_32]
  rfl

/-- A write of 32 bits leaves its value in its word and no other word changed (R380). -/
theorem hostStore_word {s : State} (hm : s.memOk) {a : Nat} (h4 : a % 4 = 0) (v : Nat) :
    homeWord (hostStore s a 32 v) (a / 4) = .ok (v % 2 ^ 32) ∧ ∀ w, w ≠ a / 4 → homeWord (hostStore s a 32 v) w = homeWord s w := by
  have hm' : (ownLines s).memOk := hm
  refine ⟨?_, fun w hw => ?_⟩
  · rw [homeWord_hostStore, homeStore, homeWord_homeWrite hm', h4]
    simp [mergeWord, Memory.reads]
  · rw [homeWord_hostStore, homeStore, homeWord_homeWrite_ne hm' none _ hw]
    rfl

/-- A write of 32 bits leaves Troham's block but for the power state. -/
theorem hostStore_pstate (s : State) (a v : Nat) :
    (hostStore s a 32 v).host = s.host ∨ (hostStore s a 32 v).host = { s.host with pstate := 0 } := by
  rw [hostStore_host, homeStore]
  obtain h | h := homeWrite_host (s := ownLines s) rfl none (a / 4) (mergeWord (homeWord (ownLines s) (a / 4)) (a % 4 * 8) 32 (.ok (v % 2 ^ 32)))
  · exact .inl (by rw [h]; rfl)
  · exact .inr (by rw [h]; rfl)

/-- A write of 32 bits finds the device awake, and the host keeps the lines that it caches (R380, R391). -/
theorem hostStore_awake (s : State) (a v : Nat) : (hostStore (hostAwake s) a 32 v).host.pstate = 0
    ∧ (hostStore (hostAwake s) a 32 v).host.lastAccess = s.now ∧ (hostStore (hostAwake s) a 32 v).host.hostLines = s.host.hostLines := by
  obtain h | h := hostStore_pstate (hostAwake s) a v <;> rw [h] <;> exact ⟨rfl, rfl, rfl⟩

theorem payOwed_host (s : State) : (payOwed s).host = s.host := by
  unfold payOwed
  dsimp only
  split <;> rfl

theorem execLaunchRecord_ready {s : State} {d r : Nat} (hrec : recReady s d = true) (hl : launchRec s d (s.die d).disp.next = some r) :
    execLaunchRecord d s = .next (let k := (s.die d).disp.next
      if recBad r k then refuseRec s d k r 3
      else if recField r 0x20 1 > (dieCores s d).length ∨ !copyFits s ((dieCores s d).headD 0) r then refuseRec s d k r 4
      else s.modDie d fun x => { x with disp := { x.disp with hand := some k, started := false, copy := 0, job := none } }) := by
  unfold execLaunchRecord
  dsimp only
  rw [if_neg (by simp [hrec]), hl]

theorem execLaunchStart_ready {s : State} {d k r : Nat} (hh : handRec s d = some (k, r)) (hs : startReady s d = true) :
    ∃ t, execLaunchStart d s = .next t ∧ (t.die d).disp.started = true ∧ (t.die d).disp.copy = 0 := by
  unfold execLaunchStart
  rw [if_neg (by simp [hs]), hh]
  exact ⟨_, rfl, by rw [State.die_modDie], by rw [State.die_modDie]⟩

theorem execLaunchCopy_ready {s : State} {d k r : Nat} (hh : handRec s d = some (k, r)) (hc : copyReady s d = true) :
    execLaunchCopy d s = .next (
      let c := match (s.die d).disp.job with | some (c, _) => c | none => (s.die d).disp.cores.getD (s.die d).disp.copy 0
      let a := match (s.die d).disp.job with | some (_, j) => (s, j) | none => setupCopy s d k r c (s.die d).disp.copy
      let b := goCopy c a
      if b.2.next < b.2.count then b.1.modDie d fun x => { x with disp := { x.disp with job := some (c, b.2) } } else copyDone b.1 d k r) := by
  unfold execLaunchCopy
  rw [if_neg (by simp [hc]), hh]
  dsimp only
  exact next_eq ((if_congr not_lt.symm rfl rfl).trans (ite_not ..))

/-- Settles O48: an answered page is waited for no more (`answerPage_answers`), a host access is one access at the home (`homeWord_homeWrite`),
what a launch can do is one of its branches, and each failing unit of a bring-up stops it or is fenced (`boot_stops`, `boot_fences`). -/
theorem hostEvents : Obligations.HostEvents := by
  refine ⟨fun s d e p he no => ⟨_, execPageRequestAnswer_found he no, ?answer⟩,
    fun s a v hm h4 hr he => ⟨_, execHostWrite_plain v hr he, ?write⟩,
    fun s a h4 hr => ⟨_, execHostRead_reaches hr, congrArg some (hostReadVal_word s h4), rfl, (mem_natIns ..).2 (.inl rfl), rfl⟩,
    fun s l => ⟨_, rfl, ?ack⟩,
    fun s d r hrec hl => ⟨fun hb => ?bad, fun hb hc => ?large, fun hb hn hc => ?taken⟩,
    fun s d k r hh => ⟨execLaunchStart_ready hh, execLaunchCopy_ready hh⟩,
    fun s n h1 h2 h3 h4 => ⟨_, next_eq (if_pos (by simp [h1, h2, h3, h4])), rfl, rfl, rfl, rfl, rfl, rfl, rfl, rfl⟩,
    fun s => ⟨⟨_, rfl, rfl, rfl, rfl, rfl, rfl, rfl, rfl, rfl, rfl, rfl, rfl, rfl, rfl, rfl⟩, ⟨_, rfl, rfl, rfl, rfl, rfl⟩,
      fun r h1 h2 h3 => ⟨_, rfl, ?boot⟩, fun h1 h2 => ⟨_, next_eq (if_pos (by simp [h1, h2])), rfl, rfl, rfl, rfl⟩,
      fun h => next_eq (if_neg ?now)⟩⟩
  case answer =>
    obtain ⟨hp, ha, hw⟩ := answerPage_answers (s := homeNum s none (s.host.prqBase.toNat + 8192 * d + 32 * e + 16) (if no then 3 else 2) 1)
      (by rw [homeNum_die]; exact he) no
    refine ⟨by rw [hp, homeNum_die], ha, fun q hq hd w hqw hsame => ?_⟩
    exact Bool.false_ne_true ((Hold.not_same (hw q hq hd) hqw).symm.trans (by simp [PageWait.same, hsame]))
  case bad => exact (execLaunchRecord_ready hrec hl).trans (next_eq (if_pos hb))
  case large =>
    refine (execLaunchRecord_ready hrec hl).trans (next_eq ((if_neg (by simp [hb])).trans (if_pos ?_)))
    simpa using hc
  case taken =>
    refine ⟨_, (execLaunchRecord_ready hrec hl).trans (next_eq ((if_neg (by simp [hb])).trans (if_neg ?_))), ?_⟩
    · rw [hc]
      simp [hn]
    · rw [State.die_modDie]
      exact ⟨rfl, rfl, rfl⟩
  case ack =>
    rw [payOwed_host]
    exact ⟨fun b hb => by simpa using (List.mem_filter.1 hb).2, fun b hb hl => List.mem_filter.2 ⟨hb, by simpa using hl⟩⟩
  case boot =>
    have h : (s.host.ready || s.host.fault || s.host.stopped) = false := by simp [h1, h2, h3]
    obtain ⟨hst, hre, hfs, hfe, hfd, hj⟩ := bringUp_host r h
    refine ⟨hst, hre, fun hs => ?_, hfs, hfe, hfd, hj, fun n hn hf => ?_, fun hs => ⟨fun c hc hf => ?_, fun n hn d hd h0 h1 => ?_⟩⟩
    · rw [(bringUp_done h hs).2.1, hfe]
    · rw [hst]
      exact boot_stops s r hn hf
    · rw [hfe]
      exact boot_fences s r (hst ▸ hs) hc hf
    · rw [hfd]
      exact boot_fencesDies s r (hst ▸ hs) hn hd h0 h1
  case now => rcases h with h | h <;> simp [h]
  case write =>
    obtain ⟨hw, hne⟩ := hostStore_word (s := hostAwake s) hm h4 v.toNat
    obtain ⟨hp, hl, hls⟩ := hostStore_awake s a v.toNat
    exact ⟨hw, hp, hl, hls, hne⟩

end Sys2Proof.Machine
end

section
/-! Fences, ICINV and DCWB, run by one thread (R209, R231 to R237). -/

namespace Sys2Proof.Machine

section
variable {s : State} {T : Tid} {f : RForm} {scope : BitVec 3} (h : Solo s T f.x)
include h

/-- A fence whose waits are over: its release ends, it acquires, and the layout cache of its core empties (R232 to R234, R297). -/
theorem fence_solo {acq rel : Bool} (ha : (acq && acqBusy (opened s T) T scope.toNat) = false)
    (hr : (rel && relBusy (opened s T) T scope.toNat) = false) :
    fenceWord acq rel scope f s = ended (
      let u := if rel then relEnd (opened s T) (coreOf T) scope.toNat else opened s T
      dropLasts (if acq then acquire u (coreOf T) scope.toNat else u) (coreOf T)) T none 1 := by
  have hw : fenceBusy acq rel scope.toNat (opened s T) T = false := by rw [fenceBusy, ha, hr, Bool.or_self]
  exact word_solo (o := fenceOp acq rel scope.toNat) false 1 h rfl hw

theorem icinv_solo :
    runWord {} f.x false 1 (icinvOp scope.toNat none) s = ended (dropCode (opened s T) (coreOf T) scope.toNat none) T none 1 :=
  word_solo (o := icinvOp scope.toNat none) false 1 h rfl rfl

theorem dcwbAll_solo : runWord {} f.x false 1 dcwbAllOp s = ended (writeBackAll (opened s T) (coreOf T) false) T none 1 :=
  word_solo (o := dcwbAllOp) false 1 h rfl rfl

/-- A word that waits for its source A alone and writes no register, once A is in: what it leaves, at the cost of reading A (R115, R125). -/
theorem lineWord_solo {α β : Type} {o : WordOp α β} {u : State} (hb : o.rdBusy (opened s T) [T] T = false)
    (hw : o.wrBusy (opened s T) T = false) (he : o.extra (opened s T) [T] T = 0) (hl : o.left (opened s T) T = (u, none)) :
    runWord {} f.x (rA f).endc (1 + crossCost [rA f]) o s = ended u T none (1 + crossCost [rA f]) := by
  rw [word_solo (o := o) _ _ h hb hw he, hl, Nat.max_eq_right (Nat.le_add_right ..)]

end

/-- ICINV of a line drops the line that its address translates to; with a poisoned address it drops every line and records the token (R237). -/
theorem icinvLine_left (sc : Nat) (r : Src) (s : State) (T : Tid) :
    (icinvOp sc (some r)).left s T = (match (r.read s [T] T).2 with
      | .bad k => recordDrop (dropCode (r.read s [T] T).1 (coreOf T) sc none) T k
      | .ok v => dropCode (r.read s [T] T).1 (coreOf T) sc (codeLine (r.read s [T] T).1 T (BitVec.ofNat 64 v)), none) := by
  unfold WordOp.left
  simp only [icinvOp]
  cases (r.read s [T] T).2 <;> rfl

/-- DCWB of a line writes it back; a poisoned address it only records (R209). -/
theorem dcwb_left (f : RForm) (s : State) (T : Tid) :
    (dcwbOp f).left s T = (match ((rA f).read s [T] T).2 with
      | .bad k => recordDrop ((rA f).read s [T] T).1 T k
      | .ok v => dcwbAt ((rA f).read s [T] T).1 T [T] (BitVec.ofNat 64 v), none) := by
  unfold WordOp.left
  simp only [dcwbOp]
  cases ((rA f).read s [T] T).2 <;> rfl

/-- Settles O27: a fence is `fence_solo` with the waits that it has; ICINV and DCWB.all act at once on the whole cache, and on one line they
leave what `icinvLine_left` and `dcwb_left` say. -/
theorem fenceResults : Obligations.FenceResults := by
  refine fun s T f scope h => ⟨fun ha => ?acq, fun hr => ⟨?rel, fun ha => ?ar⟩, ?icinv, ?dcwbAll, fun hu => ⟨?icinvLine, ?dcwb⟩⟩
    <;> refine next_eq ?_
  case acq => exact fence_solo h ha rfl
  case rel => exact fence_solo h rfl hr
  case ar => exact fence_solo h ha hr
  case icinv => exact icinv_solo h
  case dcwbAll => exact dcwbAll_solo h
  case icinvLine => exact lineWord_solo h (src_busy hu) rfl rfl (icinvLine_left scope.toNat (rA f) (opened s T) T)
  case dcwb => exact lineWord_solo h (src_busy hu) rfl rfl (dcwb_left f (opened s T) T)

end Sys2Proof.Machine
end

section
/-! System registers: the fields that a write leaves in a register (R6, R253). -/

namespace Sys2Proof.Machine

/-! ### Fields of a register's value (R6) -/

theorem testBit_keep (v hi lo i : Nat) : (keep v hi lo).testBit i = (decide (lo ≤ i ∧ i ≤ hi) && v.testBit i) := by
  unfold keep bitsOf
  rw [Nat.testBit_mul_two_pow, Nat.testBit_mod_two_pow, Nat.testBit_shiftRight]
  by_cases h : lo ≤ i
  · have e : lo + (i - lo) = i := by omega
    have hlt : i - lo < hi + 1 - lo ↔ i ≤ hi := by omega
    simp [h, e, hlt]
  · simp [h]

/-- A kept field is the value under the field's mask. -/
theorem keep_masked (v m : W64) {hi lo : Nat} (hm : ∀ i < 64, m.getLsbD i = decide (lo ≤ i ∧ i ≤ hi)) :
    keep v.toNat hi lo = (v &&& m).toNat := by
  refine Nat.eq_of_testBit_eq fun i => ?_
  rw [testBit_keep, BitVec.testBit_toNat, BitVec.testBit_toNat, BitVec.getLsbD_and]
  by_cases hi : i < 64
  · rw [hm i hi, Bool.and_comm]
  · simp [BitVec.getLsbD_of_ge v i (by omega)]

/-- The low bits are the field that starts at bit 0. -/
theorem mod_eq_keep (v hi : Nat) : v % 2 ^ (hi + 1) = keep v hi 0 := by simp [keep, bitsOf]

theorem toNat_or_disjoint {a b : W64} (h : a &&& b = 0#64) : (a ||| b).toNat = a.toNat + b.toNat := by
  rw [← BitVec.add_eq_or_of_and_eq_zero a b h, BitVec.toNat_add_of_and_eq_zero h]

theorem masked_disjoint (v : W64) {m b : W64} (h : m &&& b = 0#64) : (v &&& m) &&& b = 0#64 := by
  rw [BitVec.and_assoc, h, BitVec.and_zero]

theorem masks_disjoint (v : W64) {m n : W64} (h : m &&& n = 0#64) : (v &&& m) &&& (v &&& n) = 0#64 := by
  refine masked_disjoint v ?_
  rw [BitVec.and_comm v n, ← BitVec.and_assoc, h, BitVec.zero_and]

/-- Two fields of a value, kept in place, are the value under both masks. -/
theorem keep_or_masked (v m n : W64) {hi lo hi' lo' : Nat} (hm : ∀ i < 64, m.getLsbD i = decide (lo ≤ i ∧ i ≤ hi))
    (hn : ∀ i < 64, n.getLsbD i = decide (lo' ≤ i ∧ i ≤ hi')) (h : m &&& n = 0#64) :
    keep v.toNat hi lo + keep v.toNat hi' lo' = (v &&& (m ||| n)).toNat := by
  rw [keep_masked v m hm, keep_masked v n hn, BitVec.and_or_distrib_left, toNat_or_disjoint (masks_disjoint v h)]

/-- A field whose least value is 1 reads 1 where zero is written. -/
theorem max_one_toNat (x : W64) : max 1 x.toNat = (if x = 0 then 1 else x : W64).toNat := by
  split
  · subst x; rfl
  · have : x.toNat ≠ 0 := fun h => by simp_all [← BitVec.toNat_inj]
    omega

theorem ofNat_of_toNat {n : Nat} {w : W64} (h : n = w.toNat) : (BitVec.ofNat 64 n).toNat = w.toNat := by
  rw [h, BitVec.ofNat_toNat, BitVec.setWidth_eq]

theorem schcfg_fields (v : W64) :
    keep v.toNat 31 12 + max 1 (v.toNat % 2 ^ 12) = ((v &&& 0xFFFFF000) ||| if v &&& 0xFFF = 0 then 1 else v &&& 0xFFF : W64).toNat := by
  rw [keep_masked v 0xFFFFF000 (by decide), mod_eq_keep _ 11, keep_masked v 0xFFF (by decide), max_one_toNat, toNat_or_disjoint]
  split
  · exact masked_disjoint v (by decide)
  · exact masks_disjoint v (by decide)

theorem timeout_field {k : Nat} {x : W64} (h : k * 2 ^ 16 = x.toNat) : max 1 k * 2 ^ 16 = (if x = 0 then 0x10000 else x : W64).toNat := by
  have h0 : x = 0 ↔ x.toNat = 0 := BitVec.toNat_eq (y := 0)
  split
  case isTrue hx =>
    have hk : k = 0 := by rw [h0.1 hx] at h; omega
    subst hk; rfl
  case isFalse hx =>
    have hk : max 1 k = k := by rw [h0] at hx; omega
    rw [hk, h]

theorem waitSlots_field {k : Nat} {x : W64} (h : k * 2 ^ 8 = x.toNat) : min 63 k * 2 ^ 8 = (if 0x3F00 < x then 0x3F00 else x : W64).toNat := by
  have h0 : 0x3F00 < x ↔ 16128 < x.toNat := BitVec.lt_def
  split
  case isTrue hx =>
    have hk : min 63 k = 63 := by rw [h0] at hx; omega
    rw [hk]; rfl
  case isFalse hx =>
    have hk : min 63 k = k := by rw [h0] at hx; omega
    rw [hk, h]

/-- The fabric's timeout is at least 1, and its waiting slots are at most 63 (R342). -/
theorem timeout_fields (v : W64) : max 1 (bitsOf v.toNat 31 16) * 2 ^ 16 + min 63 (bitsOf v.toNat 15 8) * 2 ^ 8
    = ((if v &&& 0xFFFF0000 = 0 then 0x10000 else v &&& 0xFFFF0000) ||| if 0x3F00 < v &&& 0xFF00 then 0x3F00 else v &&& 0xFF00 : W64).toNat := by
  rw [timeout_field (keep_masked v 0xFFFF0000 (by decide)), waitSlots_field (keep_masked v 0xFF00 (by decide)), toNat_or_disjoint]
  split <;> split
  · rfl
  · exact (BitVec.and_comm ..).trans (masked_disjoint v (by decide))
  · exact masked_disjoint v (by decide)
  · exact masks_disjoint v (by decide)

/-! ### The value of each register (R253) -/

section
variable (s : State) (T : Tid)

theorem sysRead_schcfg : sysRead s T 0x040 = (s.core (coreOf T)).schcfg.toNat := rfl
theorem sysRead_ptbr : sysRead s T 0x060 = (s.core (coreOf T)).ptbr.toNat := rfl
theorem sysRead_tvec : sysRead s T 0x080 = (s.core (coreOf T)).tvec.toNat := rfl
theorem sysRead_tfp : sysRead s T 0x085 = (s.thr T).tfp.toNat := rfl
theorem sysRead_snapWindow : sysRead s T 0x0A0 = (tgetD (clusterOf (coreOf T)) 0 s.clusters).toNat := rfl
theorem sysRead_combWindow : sysRead s T 0x0C0 = (s.die (dieOf (coreOf T))).window := rfl
theorem sysRead_stopw : sysRead s T 0x0E0 = (s.thr T).stopw.toNat := rfl
theorem sysRead_timeout : sysRead s T 0x101 = s.fab.timeout * 2 ^ 16 + s.fab.waitSlots * 2 ^ 8 := rfl
theorem sysRead_migbase : sysRead s T 0x102 = s.fab.migbase.toNat := rfl
theorem sysRead_watchpoint {i : Nat} (hi : i < 4) : sysRead s T (0x090 + i) = (tgetD i 0 (s.core (coreOf T)).wps).toNat := by
  interval_cases i <;> rfl

/-! ### What a write leaves (R6, R253) -/

variable (v : Nat)

theorem sysWrite_schcfg : sysWrite s T 0x040 v
    = s.modCore (coreOf T) fun x => { x with schcfg := BitVec.ofNat 64 (keep v 31 12 + max 1 (v % 2 ^ 12)) } := rfl
theorem sysWrite_ptbr : sysWrite s T 0x060 v = rewatch (s.modCore (coreOf T) fun x =>
    { x with ptbr := BitVec.ofNat 64 (keep v 51 16 + keep v 11 0) }) fun t => coreOf t == coreOf T := rfl
theorem sysWrite_tvec : sysWrite s T 0x080 v = s.modCore (coreOf T) fun x => { x with tvec := BitVec.ofNat 64 (keep v 63 3) } := rfl
theorem sysWrite_tfp : sysWrite s T 0x085 v = s.modThr T fun x => { x with tfp := BitVec.ofNat 32 (keep v 31 8) } := rfl
theorem sysWrite_snapWindow : sysWrite s T 0x0A0 v
    = { s with clusters := tset (clusterOf (coreOf T)) (BitVec.ofNat 64 (keep v 51 20 + v % 2 ^ 8)) s.clusters } := rfl
theorem sysWrite_combWindow : sysWrite s T 0x0C0 v = s.modDie (dieOf (coreOf T)) fun d => { d with window := max 1 (v % 2 ^ 8) } := rfl
theorem sysWrite_stopw : sysWrite s T 0x0E0 v = s.modThr T fun x => { x with stopw := BitVec.ofNat 64 (keep v 51 2) } := rfl
theorem sysWrite_timeout : sysWrite s T 0x101 v
    = { s with fab := { s.fab with timeout := max 1 (bitsOf v 31 16), waitSlots := min 63 (bitsOf v 15 8) } } := rfl
theorem sysWrite_migbase : sysWrite s T 0x102 v = { s with fab := { s.fab with migbase := BitVec.ofNat 64 (keep v 51 12 + v % 2 ^ 4) } } := rfl
theorem sysWrite_watchpoint {i : Nat} (hi : i < 4) : sysWrite s T (0x090 + i) v
    = s.modCore (coreOf T) fun x => { x with wps := tset i (BitVec.ofNat 64 (keep v 51 0)) x.wps } := by
  interval_cases i <;> rfl

/-- Read-only and absent registers take no write. -/
theorem sysWrite_absent {r : Nat} (hr : r ∉ [0x040, 0x060, 0x061, 0x062, 0x080, 0x084, 0x085, 0x090, 0x091, 0x092, 0x093, 0x0A0, 0x0C0,
    0x0E0, 0x0E8, 0x101, 0x102]) : sysWrite s T r v = s := by
  unfold sysWrite
  split
  case h_18 => rfl
  all_goals simp at hr

end

theorem rewatch_core (s : State) (g : Tid → Bool) (c : Nat) : (rewatch s g).core c = s.core c := rfl

/-- A bit of a written value, as the model reads it. -/
theorem bit_set (v : W64) (n : Nat) : v.toNat / 2 ^ n % 2 = 1 ↔ v.getLsbD n = true := by
  rw [← BitVec.testBit_toNat, Nat.testBit_eq_decide_div_mod_eq, decide_eq_true_eq]

/-- TSTAT's UVIOL is the only bit that a write clears (R248). -/
theorem sysWrite_tstat (s : State) (T : Tid) (v : W64) :
    sysWrite s T 0x084 v.toNat = if v.getLsbD 20 then s.modThr T fun x => { x with uviol := false } else s := by
  simp only [← bit_set]
  rfl

/-- ORGCTL frees every entry, one entry, or none (R198). -/
theorem sysWrite_orgctl (s : State) (T : Tid) (v : W64) : sysWrite s T 0x062 v.toNat
    = if v.getLsbD 62 then orgFreeAll s (coreOf T) else if v.getLsbD 63 then orgFree s (coreOf T) (v.extractLsb' 32 12).toNat else s := by
  simp only [← bit_set, BitVec.extractLsb'_toNat]
  rfl

/-- Settles O42: a read gives the register's own field (`sysRead_schcfg` and the equations after it), and what a write leaves there is the value
under the register's mask (`keep_masked`, `keep_or_masked`). -/
theorem systemRegisterFields : Obligations.SystemRegisterFields := by
  intro s T v hl
  refine ⟨?schcfg, ?ptbr, ?tvec, ?tfp, fun i hi => ⟨?wp, fun j hj hne => ?otherWp⟩, ?snap, ?window, ?stopw, ?timeout, ?migbase, ?uviol,
    fun o => ⟨fun h => ?all, fun h h1 ho => ?one, fun h h1 => ?none⟩, fun r => sysWrite_absent s T v.toNat⟩ <;> beta_reduce
  case schcfg =>
    rw [sysRead_schcfg, sysWrite_schcfg, State.core_modCore]
    exact ofNat_of_toNat (schcfg_fields v)
  case ptbr =>
    rw [sysRead_ptbr, sysWrite_ptbr, rewatch_core, State.core_modCore]
    exact ofNat_of_toNat (keep_or_masked v 0x000FFFFFFFFF0000 0xFFF (by decide) (by decide) (by decide))
  case tvec =>
    rw [sysRead_tvec, sysWrite_tvec, State.core_modCore]
    exact ofNat_of_toNat (keep_masked v _ (by decide))
  case tfp =>
    rw [sysRead_tfp, sysWrite_tfp, State.thr_modThr _ _ hl]
    have hlt : (v &&& 0xFFFFFF00).toNat < 2 ^ 32 := by
      rw [BitVec.toNat_and]
      exact lt_of_le_of_lt Nat.and_le_right (by decide)
    rw [keep_masked v 0xFFFFFF00 (by decide), BitVec.toNat_ofNat, Nat.mod_eq_of_lt hlt]
  case wp =>
    rw [sysRead_watchpoint _ _ hi, sysWrite_watchpoint _ _ _ hi, State.core_modCore, tgetD_tset_self]
    exact ofNat_of_toNat (keep_masked v _ (by decide))
  case otherWp =>
    rw [sysRead_watchpoint _ _ hj, sysRead_watchpoint _ _ hj, sysWrite_watchpoint _ _ _ hi, State.core_modCore, tgetD_tset_ne _ _ _ _ _ hne]
  case snap =>
    rw [sysRead_snapWindow, sysWrite_snapWindow, tgetD_tset_self, mod_eq_keep _ 7]
    exact ofNat_of_toNat (keep_or_masked v 0x000FFFFFFFF00000 0xFF (by decide) (by decide) (by decide))
  case window =>
    rw [sysRead_combWindow, sysWrite_combWindow, State.die_modDie, mod_eq_keep _ 7, keep_masked v 0xFF (by decide), max_one_toNat]
  case stopw =>
    rw [sysRead_stopw, sysWrite_stopw, State.thr_modThr _ _ hl]
    exact ofNat_of_toNat (keep_masked v _ (by decide))
  case timeout =>
    rw [sysRead_timeout, sysWrite_timeout]
    exact timeout_fields v
  case migbase =>
    rw [sysRead_migbase, sysWrite_migbase, mod_eq_keep _ 3]
    exact ofNat_of_toNat (keep_or_masked v 0x000FFFFFFFFFF000 0xF (by decide) (by decide) (by decide))
  case uviol => exact sysWrite_tstat s T v
  case all =>
    rw [sysWrite_orgctl, if_pos h, orgFreeAll, State.core_modCore]
    exact ⟨rfl, rfl⟩
  case one => rw [sysWrite_orgctl, h, h1, if_neg nofun, if_pos rfl, orgFree, State.core_modCore, ho]
  case none => rw [sysWrite_orgctl, h, h1, if_neg nofun, if_neg nofun]

end Sys2Proof.Machine
end

section
/-! The checks of a word, trap entry and RTE (R58, R59, R244 to R247, R252). -/

namespace Sys2Proof.Machine

/-! ### The checks of a word (R58, R59, R244) -/

section
variable {s : State} {g : Gate} {x : Pfx} {acts : List Tid}

theorem gateTrap_place (h : ¬ (admitted s.cur.hdr g.cls = true ∧ (g.last = true → atLast s.cur = true))) :
    gateTrap s g x acts = some (trapAt s x tILL dPLACE) := by
  have hp : (!admitted s.cur.hdr g.cls || (g.last && !atLast s.cur)) = true := by
    by_cases ha : admitted s.cur.hdr g.cls = true <;> simp_all
  exact if_pos hp

theorem place_passes (hp : admitted s.cur.hdr g.cls = true ∧ (g.last = true → atLast s.cur = true)) :
    (!admitted s.cur.hdr g.cls || (g.last && !atLast s.cur)) = false := by
  obtain ⟨ha, hl⟩ := hp
  cases h : g.last <;> simp_all

theorem priv_passes (hh : g.sup = true → ∀ t ∈ s.cur.pack, (s.thr t).priv = true) : (g.sup && anyUser s s.cur.pack) = false := by
  simpa [anyUser] using hh

variable (hp : admitted s.cur.hdr g.cls = true ∧ (g.last = true → atLast s.cur = true))
include hp

theorem gateTrap_priv (h : ¬ (g.sup = true → ∀ t ∈ s.cur.pack, (s.thr t).priv = true)) :
    gateTrap s g x acts = some (trapAt s x tPRIV 0) := by
  have hu : (g.sup && anyUser s s.cur.pack) = true := by simpa [anyUser] using h
  simp only [gateTrap, place_passes hp, hu, Bool.false_eq_true, if_false, if_true]

variable (hh : g.sup = true → ∀ t ∈ s.cur.pack, (s.thr t).priv = true)
include hh

theorem gateTrap_state (hb : g.bad s acts s.cur.pack = true) : gateTrap s g x acts = some (trapAt s x tILL dSTATE) := by
  simp only [gateTrap, place_passes hp, priv_passes hh, hb, Bool.false_eq_true, if_false, if_true]

variable (hb : g.bad s acts s.cur.pack = false)
include hb

theorem gateTrap_idle (ha : acts = []) : gateTrap s g x acts = none := by
  subst ha
  simp only [gateTrap, place_passes hp, priv_passes hh, hb, Bool.false_eq_true, if_false, List.isEmpty_nil, if_true]

theorem gateTrap_brk {c code : Nat} {tr : Bool} (ha : acts ≠ []) (hk : g.brk = some (c, code, tr)) :
    gateTrap s g x acts = some { trapAt s x c 0 with code := code, byTrap := tr } := by
  have he : acts.isEmpty = false := by simpa using ha
  simp only [gateTrap, place_passes hp, priv_passes hh, hb, he, hk, Bool.false_eq_true, if_false]

theorem gateTrap_watch (ha : acts ≠ []) (hk : g.brk = none) :
    gateTrap s g x acts = if g.watch s acts = [] then none else some { trapAt s x tWATCH 0 with addrs := g.watch s acts } := by
  have he : acts.isEmpty = false := by simpa using ha
  simp only [gateTrap, place_passes hp, priv_passes hh, hb, he, hk, Bool.false_eq_true, if_false, List.isEmpty_iff]

end

/-! ### Entry (R244 to R247) -/

theorem takeTrap_enters {s : State} {k : Nat} (r : TrapRec) (hk : s.iss = some k)
    (hp : ∀ t ∈ s.cur.pack, (s.thr t).pending 96 32 = false) :
    takeTrap s r = s.cur.pack.foldl (fun s t => trapThread s r t) (s.freePort k) := by
  have ha : (s.cur.pack.any fun t => (s.thr t).pending 96 32) = false := by simpa using hp
  simp only [takeTrap, ha, hk, Bool.false_eq_true, if_false]

/-- A write to a tile's words changes a core in its store alone. -/
theorem setTileWords_tvec (s : State) (c h w : Nat) (l : List Val) (d : Nat) : ((setTileWords s c h w l).core d).tvec = (s.core d).tvec := by
  unfold setTileWords modTile
  split
  · rfl
  · by_cases hd : d = rankCore c h
    · rw [hd, State.core_modCore]
    · rw [State.core_modCore_ne _ _ hd]

/-- A thread whose mark of a yield is written back. -/
theorem with_yields (x : Thread) {b : Bool} (h : b = x.yields) : { x with yields := b } = x := by rw [h]

theorem endClause_false (x : Thread) : endClause false x = { x with demote := if x.yields then 16 else x.demote, yields := false } := by
  unfold endClause
  cases h : x.yields
  · exact (with_yields x h.symm).symm
  · rfl

theorem put_yields (x : Thread) (lo n : Nat) (v : Val) : (x.put lo n v).yields = x.yields := by
  obtain ⟨b, tags, h⟩ := put_fields x lo n v
  rw [h]

theorem put_demote (x : Thread) (lo n : Nat) (v : Val) : (x.put lo n v).demote = x.demote := by
  obtain ⟨b, tags, h⟩ := put_fields x lo n v
  rw [h]

section
variable (s : State) (r : TrapRec) (t : Tid)

theorem trapThread_deep (h : (s.thr t).hdepth = 2) : trapThread s r t = threadFault s t r.pc (causeWord r t) := if_pos h

theorem trapThread_unreachable {f : Nat} (h : (s.thr t).hdepth ≠ 2) (hf : frameFail s t (0x60 * (s.thr t).hdepth) 0x60 = some f) :
    trapThread s r t
      = let q := raiseAt s t r.pc f (BitVec.ofNat 64 ((s.thr t).tfp.toNat / 256 * 256 + 0x60 * (s.thr t).hdepth))
        threadFault q.1 t r.pc q.2.toNat := by
  simp only [trapThread, h, hf, if_false]

theorem trapThread_enters (h : (s.thr t).hdepth ≠ 2) (hf : frameFail s t (0x60 * (s.thr t).hdepth) 0x60 = none) :
    let x := s.thr t
    let o := 0x60 * x.hdepth
    trapThread s r t = (setTileWords s (coreOf t) (frameH x) ((frameOff x + o) / 4) (frameWords x t r)).setThr t
        { (((x.put 104 8 (.ok 0)).put 112 8 (.ok 0)).put 120 8 (.ok 0)).put 96 8 (.ok (x.tfp.toNat / 256 * 256 + o)) with
          demote := if x.yields then 16 else x.demote, yields := false
          hdepth := x.hdepth + 1, priv := true, pc := (s.core (coreOf t)).tvec, hdr := none } := by
  simp only [trapThread, h, hf, if_false, endClause_false, put_yields, put_demote, setTileWords_tvec]

end

/-! ### RTE (R252) -/

/-- A whole granule written clean is clean and holds the value (R199). -/
theorem put_granule (x : Thread) {h v : Nat} (hh : h < 64) (hv : v < 2 ^ 32) : (x.put (8 * h) 8 (.ok v)).bits (8 * h) 8 = v := by
  refine putGrans_at (fun _ b => b = v) (h := h) (by omega) (by unfold granSpan; omega) fun y _ _ => Nat.eq_of_testBit_eq fun i => ?_
  have hs : (y.putGran h (8 * h) 8 (.ok v)).slices = setSlices y.slices (8 * h) 8 v := by
    simp [Thread.putGran]
  rw [bits_testBit, hs]
  by_cases hi : i < 4 * 8
  · rw [setSlices_getLsbD _ _ _ _ (by omega), if_pos (by omega), Nat.add_sub_cancel_left]
    simp [hi]
  · have hk : v.testBit i = false := Nat.testBit_lt_two_pow (hv.trans_le (Nat.pow_le_pow_right (by omega) (by omega)))
    simp [hi, hk]

/-- Slices 96 to 127 of a thread as its frame level has them (R252). -/
def restored (x : Thread) (l : List Val) (n : Nat) : Thread :=
  (List.range n).foldl (fun y i => y.put (96 + 8 * i) 8 (l.getD (16 + i) (.ok 0))) x

theorem restored_succ (x : Thread) (l : List Val) (n : Nat) :
    restored x l (n + 1) = (restored x l n).put (96 + 8 * n) 8 (l.getD (16 + n) (.ok 0)) := by
  simp [restored, List.range_succ]

/-- Each granule keeps what its own write left. -/
theorem restored_bits (x : Thread) (l : List Val) {n i v : Nat} (hi : i < n) (hn : n ≤ 4) (hl : l[16 + i]? = some (.ok v)) (hv : v < 2 ^ 32) :
    (restored x l n).bits (96 + 8 * i) 8 = v := by
  induction n with
  | zero => omega
  | succ n ih =>
    rw [restored_succ]
    have ei : 96 + 8 * i = 8 * (12 + i) := by omega
    by_cases e : i = n
    · subst e
      rw [List.getD_eq_getElem?_getD, hl, ei]
      exact put_granule _ (by omega) hv
    · rw [ei, (put_other _ (h := 12 + i) _ (by omega) (by omega)).2, ← ei]
      exact ih (by omega) (by omega)

theorem restored_fields (x : Thread) (l : List Val) (n : Nat) : ∃ b tags, restored x l n = { x with slices := b, tags := tags } := by
  induction n with
  | zero => exact ⟨_, _, rfl⟩
  | succ n ih =>
    obtain ⟨b, tags, h⟩ := ih
    obtain ⟨b', tags', h'⟩ := put_fields (restored x l n) (96 + 8 * n) 8 (l.getD (16 + n) (.ok 0))
    exact ⟨b', tags', by rw [restored_succ, h', h]⟩

theorem resumeThread_bits (x : Thread) (l : List Val) (cnt lo n : Nat) : (resumeThread x l cnt).bits lo n = (restored x l 4).bits lo n := rfl

theorem resumeThread_fields (x : Thread) (l : List Val) (cnt : Nat) :
    (resumeThread x l cnt).drop = x.drop ∧ (resumeThread x l cnt).leg = x.leg := by
  obtain ⟨b, tags, h⟩ := restored_fields x l 4
  have hd : (resumeThread x l cnt).drop = (restored x l 4).drop := rfl
  have hg : (resumeThread x l cnt).leg = (restored x l 4).leg := rfl
  rw [hd, hg, h]
  exact ⟨rfl, rfl⟩

/-- A bit of a frame's TSTAT as RTE reads it (R248). -/
theorem bit_eq_testBit (n k : Nat) : (n / 2 ^ k % 2 == 1) = n.testBit k := by
  rw [Nat.testBit_eq_decide_div_mod_eq]; rfl

theorem rteThread_poisoned {s : State} {t : Tid} {l : List Val} {k : Tok} (cnt : Nat) (hr : readFrame s t = .ok l) (hk : framePoison l = some k) :
    rteThread s t cnt = threadFault s t (s.thr t).pc k.toNat := by
  simp only [rteThread, hr, hk]

theorem rteThread_resumes {s : State} {t : Tid} {l : List Val} (cnt : Nat) (hr : readFrame s t = .ok l) (hk : framePoison l = none) :
    rteThread s t cnt = s.setThr t (resumeThread (s.thr t) l cnt) := by
  simp only [rteThread, hr, hk]

/-- Settles O43: the checks in their order are the `gateTrap` lemmas, entry is `trapThread_enters` or a thread fault, and RTE's thread is
`resumeThread` of the frame's words, whose slices `restored_bits` gives. -/
theorem trapEntryAndReturn : Obligations.TrapEntryAndReturn := by
  refine ⟨fun s g x acts => ⟨gateTrap_place, gateTrap_priv, gateTrap_state, fun hp hh hb =>
      ⟨gateTrap_idle hp hh hb, fun ha c code tr => gateTrap_brk hp hh hb ha, gateTrap_watch hp hh hb⟩⟩,
    fun s r k => takeTrap_enters r,
    fun s r t => ⟨trapThread_deep s r t, fun h f => trapThread_unreachable s r t h, trapThread_enters s r t⟩,
    fun s t cnt l hr => ⟨fun k => rteThread_poisoned cnt hr, fun hk => ?resumes⟩⟩
  case resumes =>
    obtain ⟨hdrop, hleg⟩ := resumeThread_fields (s.thr t) l cnt
    exact ⟨_, rteThread_resumes cnt hr hk, rfl, rfl, bit_eq_testBit _ 16, bit_eq_testBit _ 20, bit_eq_testBit _ 25, rfl, hdrop, hleg,
      fun i hi v hl hv => (resumeThread_bits ..).trans (restored_bits (s.thr t) l hi le_rfl hl hv)⟩

end Sys2Proof.Machine
end

section
/-! CTXSV with a future whose destination overlaps its own handle operand (R115, R258). -/

namespace Sys2Proof.Machine

/-- CTXSV.U s24.16, s24.16, s32.64 with a future: its destination is the operand that holds the team's handle. -/
def ctxsvOverHandle : RForm := ⟨⟨true, 7, false⟩, ⟨24, 3⟩, ⟨24, 3⟩, .self, ⟨32, 7⟩, .self, true, 0⟩

/-- A supervisor thread of team 0, whose slices 24 to 27 hold the handle 1. -/
def savingThread : Thread := { priv := true, pc := 8, hdr := some 0, team := some 0, slices := 1 <<< 96 }

/-- Thread 0 of team 0 stands before that CTXSV; thread 1 is the one member of the live team 1. -/
def savingState : State where
  host := { ready := true }
  threads := [(0, savingThread), (1, { team := some 1 })]
  cores := [(0, { teams := [(1, ⟨true, 1, 0, 0⟩)] })]
  iss := some 0
  ports := [(0, { hdr := BitVec.ofNat 64 (5 * 2 ^ 61), words := [0xE80F061861810710], pack := [0] })]

/-- The keys of the teams whose saves are under way after a step. -/
def savedTeams : Out → List Nat
  | .next t => t.saves.map fun v => v.key
  | _ => []

theorem solo_savingState : Solo savingState 0 ctxsvOverHandle.x := by constructor <;> rfl

/-- The word at the port is that CTXSV, a legal word (R58). -/
theorem decode_savingWord : decode savingState.cur.word = some (.ctxsv false ctxsvOverHandle) := by decide +kernel

/-- The model saves team 1, whose handle the word read. -/
theorem savedTeams_ctxsv : savedTeams (exec (.ctxsv false ctxsvOverHandle) savingState) = [1] := by decide +kernel

/-- Refutes O44: its clause on CTXSV with a future reads the operands again after the handle of the future is written, so where D overlaps A it
takes that handle, 0, for the team's; the word itself saves the team whose handle it read, since no overlap changes a result (R115). -/
theorem not_teamImageResults : ¬ Obligations.TeamImageResults := by
  rintro ⟨h, -, -⟩
  have hc : inClass savingState 5 := by unfold inClass; decide +kernel
  have hu : unheld savingState 0 [rA ctxsvOverHandle, rB ctxsvOverHandle] := by unfold unheld; decide +kernel
  have hi : idle savingState 0 ctxsvOverHandle.d.start.toNat ctxsvOverHandle.d.slices := by unfold idle; decide +kernel
  obtain ⟨-, hsave, -⟩ := h savingState 0 ctxsvOverHandle solo_savingState hc
  obtain ⟨hfut, -⟩ := hsave rfl hu false 1 0 (by decide +kernel) (by decide +kernel) (by decide +kernel) (by decide +kernel) (by decide +kernel)
  have hsaved := (congrArg savedTeams (hfut rfl hi (by decide +kernel))).symm.trans savedTeams_ctxsv
  exact absurd hsaved (by decide +kernel)

end Sys2Proof.Machine
end

section
/-! The engines' events: stream commands, waves, methods, replies, members' saves, snapshots and rollbacks (R255, R256, R260, R268 to R271,
R281, R298, R311). -/

namespace Sys2Proof.Machine

/-! ### What threads, cores and homes do not touch: dies, combiners and snapshots -/

/-- u has the dies, the combiners and the snapshots of s. -/
structure SameEngines (s u : State) : Prop where
  dies : u.dies = s.dies
  comb : u.comb = s.comb
  snaps : u.snaps = s.snaps

namespace SameEngines

theorem refl (s : State) : SameEngines s s := ⟨rfl, rfl, rfl⟩

theorem trans {s u v : State} (h : SameEngines s u) (k : SameEngines u v) : SameEngines s v :=
  ⟨k.dies.trans h.dies, k.comb.trans h.comb, k.snaps.trans h.snaps⟩

theorem modCore (s : State) (c : Nat) (f : Core → Core) : SameEngines s (s.modCore c f) := ⟨rfl, rfl, rfl⟩

theorem modThr (s : State) (t : Tid) (f : Thread → Thread) : SameEngines s (s.modThr t f) := by constructor <;> simp

theorem foldl {α : Type} {f : State → α → State} (h : ∀ s a, SameEngines s (f s a)) (l : List α) (s : State) :
    SameEngines s (l.foldl f s) := by
  induction l generalizing s with
  | nil => exact refl s
  | cons a l ih => exact (h s a).trans (ih (f s a))

theorem homeWrite (s : State) (by_ : Option Nat) (w : Nat) (v : Val) : SameEngines s (homeWrite s by_ w v) := by
  unfold Machine.homeWrite wakeWatch
  constructor <;> dsimp only <;> split <;> split <;> rfl

theorem homeWrites (by_ : Option Nat) (l : List Val) (s : State) (w : Nat) : SameEngines s (homeWrites s by_ w l) := by
  induction l generalizing s w with
  | nil => exact refl s
  | cons v l ih => exact (homeWrite ..).trans (ih ..)

theorem freeFill (n : Nat) (s : State) (pa : Nat) : SameEngines s (freeFill s pa n) := by
  induction n generalizing s pa with
  | zero => exact refl s
  | succ n ih =>
    have h := homeWrites none (numWords (Config.freeWord s.freeCtr).toNat 2) s (pa / 4)
    refine SameEngines.trans ?_ (ih _ (pa + 8))
    exact ⟨h.dies, h.comb, h.snaps⟩

theorem commitWord (s : State) (cs : List Nat) (w : Nat) (v : Val) : SameEngines s (commitWord s cs w v) := by
  have h := homeWrite { s with msgs := s.msgs ++ (cs.drop 1).flatMap fun c => (homeMsgs s (some c) w).filter fun m => m.kind == .inval } cs.head? w v
  exact SameEngines.trans ⟨h.dies, h.comb, h.snaps⟩ (foldl (fun s c => modCore s c _) ..)

theorem raiseAt (s : State) (t : Tid) (pc : W64) (k : Nat) (a : W64) : SameEngines s (raiseAt s t pc k a).1 :=
  have h := (OriginsOnly.raiseAt s t pc k a).outside
  ⟨h.dies, h.comb, h.snaps⟩

theorem recordDrop (s : State) (t : Tid) (k : Tok) : SameEngines s (recordDrop s t k) := modThr ..

theorem putAll (pc : W64) (lo n : Nat) (v : Val) (k : Option Tok) (ts : List Tid) (s : State) : SameEngines s (putAll s pc lo n v k ts) := by
  induction ts generalizing s k with
  | nil => cases k <;> exact refl s
  | cons t ts ih =>
    cases k <;> unfold Machine.putAll <;> dsimp only <;> split
    · exact ((raiseAt ..).trans (recordDrop ..)).trans (ih ..)
    · exact (modThr ..).trans (ih ..)
    · exact (recordDrop ..).trans (ih ..)
    · exact (modThr ..).trans (ih ..)

theorem cmbdefEnd (s : State) (c : Nat) (k : FabCmd) (status index : Nat) : SameEngines s (cmbdefEnd s c k status index) := by
  have hc : ∀ u : State, SameEngines u (completeCmd u c k.id none) := fun u => ⟨rfl, rfl, rfl⟩
  exact ((putAll ..).trans (modCore ..)).trans (hc _)

end SameEngines

/-! ### Stream commands (R298, R311) -/

section
variable {s : State} {c id : Nat} {k : StrCmd}

theorem exec_streamCommandStart (hg : strGet s c id = some k) (hm : strMayStart s c k = true) :
    exec (.streamCommandStart c id) s = .next (strStart s c k) := by
  refine congrArg Host.Outcome.next ?_
  rw [hg]
  exact if_pos hm

theorem exec_streamCommandComplete (hg : strGet s c id = some k) (h1 : 1 ≤ k.stage) (ht : k.tags = []) :
    exec (.streamCommandComplete c id) s = .next (strFinish s c k) := by
  refine congrArg Host.Outcome.next ?_
  rw [hg]
  exact if_pos (by simp [h1, ht])

theorem exec_aslDeliver (hg : strGet s c id = some k) {a : W64} {T : Tid} (hk : k.op = .asl a) (ht : k.tags = [])
    (hr : aslReady s k T = true) : exec (.aslDeliver c id T) s = .next (aslDeliverTo s c k T) := by
  refine congrArg Host.Outcome.next ?_
  rw [hg]
  dsimp only
  rw [hk]
  exact if_pos (by simp [hr, ht])

end

/-! ### Waves (R268 to R271) -/

section
variable {s : State} {w : Wave}

theorem arriveAll_joins {r : CReq} {t : State} (h : joinWave s r = some t) :
    arriveAll s [r] = { t with comb := { t.comb with flight := t.comb.flight.filter fun q => q.id != r.id } } := by
  simp only [arriveAll, List.foldl_cons, List.foldl_nil, h]

theorem arriveAll_waits {r : CReq} (h : joinWave s r = none) : arriveAll s [r] = s := by
  simp only [arriveAll, List.foldl_cons, List.foldl_nil, h]

/-- An open wave whose window is over closes, in its place among the waves (R268). -/
theorem shutWave_expired (hf : (s.comb.waves.find? fun v => v.obj == w.obj && !v.closed) = some w) (hd : w.opened + w.window ≤ s.now) :
    shutWave s w.obj = { (closeWave s w).1 with comb := { (closeWave s w).1.comb with
      waves := (closeWave s w).1.comb.waves.map fun v => if v = w then (closeWave s w).2 else v } } := by
  unfold shutWave
  rw [hf]
  exact if_neg (by omega)

theorem mem_closeWave (hw : w ∈ s.comb.waves) :
    (closeWave s w).2 ∈ (closeWave s w).1.comb.waves.map fun v => if v = w then (closeWave s w).2 else v :=
  List.mem_map.2 ⟨w, hw, if_pos rfl⟩

/-- A lane of a built-in operator stays in its wave as it is (R278). -/
theorem closeWave_builtin {r : CReq} (hr : r ∈ w.reqs) (hu : r.user = false) : r ∈ (closeWave s w).2.reqs := by
  refine List.mem_map.2 ⟨r, List.mem_filter.2 ⟨hr, by simp [hu]⟩, ?_⟩
  simp [hu]

/-- A user lane of an empty slot leaves its wave with poison CMB (R278). -/
theorem closeWave_absent {r : CReq} (hr : r ∈ w.reqs) (hu : r.user = true) (hm : tget r.method (s.die (homeDie w.obj)).methods = none) :
    { r with reply := some (.cause cCMB r.ea) } ∈ (closeWave s w).1.comb.replies := by
  refine List.mem_append_right _ (List.mem_map.2 ⟨r, List.mem_filter.2 ⟨hr, by simp [hu, hm]⟩, rfl⟩)

/-- A user lane of an installed slot takes its body (R278). -/
theorem closeWave_installed {r : CReq} {b : List W64} (hr : r ∈ w.reqs) (hu : r.user = true)
    (hm : tget r.method (s.die (homeDie w.obj)).methods = some b) : { r with body := b } ∈ (closeWave s w).2.reqs := by
  refine List.mem_map.2 ⟨r, List.mem_filter.2 ⟨hr, by simp [hm]⟩, ?_⟩
  simp [hu, hm, tgetD]

theorem shutWave_dies (s : State) (obj : Nat) : (shutWave s obj).dies = s.dies := by
  unfold shutWave
  split
  · dsimp only
    split <;> rfl
  · rfl

theorem exec_waveApply (hf : (s.comb.waves.find? fun v => v.obj == w.obj && v.closed) = some w) (hd : w.closedAt < s.now) :
    exec (.waveApply w.obj) s = .next (applyWave s w) := by
  refine congrArg Host.Outcome.next ?_
  rw [hf]
  exact if_pos hd

/-- The sixteen words of a wave's object as its lanes find them (R270). -/
def waveCopy (s : State) (w : Wave) : List Val := (List.range 16).map fun i => homeWord s (16 * w.obj + i)

/-- A lane that aborts leaves the line as it was and answers every request CMB (R270, R282). -/
theorem applyWave_aborts (hr : runLanes w.reqs.length 0 w.reqs (waveCopy s w) = none) : applyWave s w = { s with comb := { s.comb with
    waves := s.comb.waves.filter fun v => v != w
    replies := s.comb.replies ++ w.reqs.map fun r => { r with reply := some (.cause cCMB r.ea) } } } := by
  unfold waveCopy at hr
  simp only [applyWave, hr]

theorem commitWords_comb (l : List (Val × Nat)) (s : State) (cs : List Nat) (base : Nat) :
    (l.foldl (fun s p => commitWord s cs (base + p.2) p.1) s).comb = s.comb :=
  (SameEngines.foldl (fun s (p : Val × Nat) => SameEngines.commitWord s cs (base + p.2) p.1) l s).comb

/-- A wave that commits leaves the other waves, and answers every request its lane's value (R270). -/
theorem applyWave_commits {copy' : List Val} {vs : List Nat} (hr : runLanes w.reqs.length 0 w.reqs (waveCopy s w) = some (copy', vs)) :
    (applyWave s w).comb = { s.comb with
      waves := s.comb.waves.filter fun v => v != w
      replies := s.comb.replies ++ (w.reqs.zip vs).map fun (p : CReq × Nat) => { p.1 with reply := some (.clean p.2) } } := by
  unfold waveCopy at hr
  simp only [applyWave, hr]
  split
  · rfl
  · rw [commitWords_comb]

end

/-! ### Methods and replies (R276, R281) -/

/-- The first element that p holds of is the first of p and q where q holds of it. -/
theorem find?_and {α : Type} {p q : α → Bool} {l : List α} {a : α} (h : l.find? p = some a) (hq : q a = true) :
    (l.find? fun x => p x && q x) = some a := by
  rw [List.find?_eq_some_iff_append] at h ⊢
  obtain ⟨hp, as, bs, hl, hn⟩ := h
  exact ⟨by simp [hp, hq], as, bs, hl, fun x hx => by simp [by simpa using hn x hx]⟩

/-- The waves of a die whose windows are over have closed (R281). -/
def shutDie (s : State) (d : Nat) : State :=
  (s.comb.waves.filter fun w => !w.closed && homeDie w.obj == d).foldl (fun s w => shutWave s w.obj) s

theorem shutDie_die (s : State) (d e : Nat) : (shutDie s d).die e = s.die e := by
  have h : ∀ (ws : List Wave) (u : State), (ws.foldl (fun s w => shutWave s w.obj) u).dies = u.dies := by
    intro ws
    induction ws with
    | nil => exact fun u => rfl
    | cons w ws ih => exact fun u => (ih _).trans (shutWave_dies u w.obj)
  rw [State.die, shutDie, h, State.die]

/-- Method m stands in its slot of die d, and the die waits for the methods l (R281). -/
def installed (s : State) (d : Nat) (m : Install) (l : List Install) : State :=
  (shutDie s d).modDie d fun x => { x with install := l, methods := tset m.slot m.body x.methods }

theorem installed_die (s : State) (d : Nat) (m : Install) (l : List Install) :
    (installed s d m l).die d = { s.die d with install := l, methods := tset m.slot m.body (s.die d).methods } := by
  rw [installed, State.die_modDie, shutDie_die]

/-- After a die's oldest method is installed its command may end, which touches no die. -/
theorem exec_methodInstall {s : State} {d : Nat} {m : Install} {l : List Install} (hi : (s.die d).install = m :: l) :
    ∃ t, exec (.methodInstall d) s = .next t ∧ SameEngines (installed s d m l) t := by
  refine ⟨_, rfl, ?_⟩
  rw [hi]
  dsimp only
  split
  · exact SameEngines.refl (installed s d m l)
  split
  · exact SameEngines.cmbdefEnd ..
  · exact SameEngines.refl (installed s d m l)

theorem methodInstall_installs {s : State} {d : Nat} {m : Install} {l : List Install} (hi : (s.die d).install = m :: l) :
    ∃ t, exec (.methodInstall d) s = .next t ∧ (t.die d).install = l ∧ (t.die d).methods = tset m.slot m.body (s.die d).methods := by
  obtain ⟨t, ht, hsame⟩ := exec_methodInstall hi
  have hd : t.die d = (installed s d m l).die d := by rw [State.die, hsame.dies, State.die]
  rw [installed_die] at hd
  exact ⟨t, ht, by rw [hd], by rw [hd]⟩

theorem exec_combineReply {s : State} {r : CReq} {v : Nat} (hf : (s.comb.replies.find? fun q => q.id == r.id) = some r)
    (hr : r.reply = some (.clean v)) (hd : r.dev = 0) (ha : lineAcked s r.obj = true) : exec (.combineReply r.id) s
      = .next (completeCmd (writePiece { s with comb := { s.comb with replies := s.comb.replies.filter fun q => q.id != r.id } }
        r.lead (r.tids.filter s.live) r.pc ⟨r.lo, r.n, .clean (v % 2 ^ (4 * r.n))⟩) r.core r.cmd none) := by
  refine congrArg Host.Outcome.next ?_
  rw [find?_and hf (q := replyReady s) (by simp [replyReady, ha])]
  simp only [combAnswer, hr, hd, if_true]
  rfl

/-! ### Members' saves (R255, R256) -/

theorem relStart_rewatched (s : State) (c sc : Nat) : Rewatched s (relStart s c sc) :=
  .ite (Rewatched.foldl (fun s k => writeBack_rewatched s c k _) ..) (.refl s)

theorem SameButWatch.team {x y : Thread} (h : SameButWatch x y) : y.team = x.team := by
  obtain ⟨w, rfl⟩ := h
  rfl

theorem exec_memberSave {s : State} {T : Tid} {h : BitVec 16} {v : Save} (hm : memberReady s T = true) (ht : (s.thr T).team = some h)
    (hs : teamSave (relStart s (coreOf T) 4) (teamKey T h.toNat) = some v) (hr : relDone (relStart s (coreOf T) 4) T 4 = true) :
    exec (.memberSave T) s = .next (saveStep (recordMember (relStart s (coreOf T) 4) v T) (teamKey T h.toNat)) := by
  refine congrArg Host.Outcome.next ?_
  have hteam : ((relStart s (coreOf T) 4).thr T).team = some h := ((relStart_rewatched s (coreOf T) 4).thr T).team.trans ht
  rw [if_neg (by simp [hm])]
  dsimp only
  rw [hteam]
  dsimp only
  rw [hs]
  exact if_pos hr

/-! ### Snapshots and rollbacks (R260) -/

/-- No thread waits for the snapshot of team k. -/
def NoneWaits (k : Nat) (s : State) : Prop := ∀ p ∈ s.threads, p.2.hold.snap ≠ some k

theorem noneWaits_freeSnap (s : State) (k : Nat) : NoneWaits k (freeSnap s k) := by
  intro p hp
  obtain ⟨q, -, rfl⟩ := List.mem_map.1 hp
  split
  · exact nofun
  · assumption

namespace NoneWaits
variable {k : Nat} {s u : State}

theorem rewatched (h : NoneWaits k s) (hu : Rewatched s u) : NoneWaits k u := by
  intro q hq
  obtain ⟨p, hp, -, w, hw⟩ := hu.mem hq
  rw [hw]
  exact h p hp

theorem of_threads (h : NoneWaits k s) (hu : u.threads = s.threads) : NoneWaits k u := by
  unfold NoneWaits
  rw [hu]
  exact h

theorem recordDrop (h : NoneWaits k s) (t : Tid) (b : Tok) : NoneWaits k (recordDrop s t b) := by
  unfold Machine.recordDrop State.modThr
  split
  case h_1 x hx =>
    intro p hp
    obtain e | hp := mem_tset hp
    · rw [e]
      exact h (t, x) (mem_of_tget hx)
    · exact h p hp
  case h_2 => exact h

theorem raiseAt (h : NoneWaits k s) (t : Tid) (pc : W64) (c : Nat) (a : W64) : NoneWaits k (raiseAt s t pc c a).1 :=
  h.of_threads (OriginsOnly.raiseAt s t pc c a).threads

end NoneWaits

theorem freeFill_rewatched (n : Nat) (s : State) (pa : Nat) : Rewatched s (freeFill s pa n) := by
  induction n generalizing s pa with
  | zero => exact .refl s
  | succ n ih =>
    have h := homeNum_rewatched s none pa (Config.freeWord s.freeCtr).toNat 2
    refine Rewatched.trans ?_ (ih _ (pa + 8))
    exact h.trans (.of_threads ⟨rfl, rfl⟩ rfl)

/-- A snapshot that does not fit is recorded as a dropped write of each member (R260). -/
def dropSnap (s : State) (n : Snap) : State :=
  n.threads.foldl (fun s p => let q := raiseAt s p.1 p.2.pc cBND 0; recordDrop q.1 p.1 q.2) s

theorem dropSnap_sameEngines (s : State) (n : Snap) : SameEngines s (dropSnap s n) :=
  SameEngines.foldl (fun _ _ => (SameEngines.raiseAt ..).trans (SameEngines.recordDrop ..)) ..

theorem dropSnap_noneWaits {k : Nat} {s : State} (h : NoneWaits k s) (n : Snap) : NoneWaits k (dropSnap s n) := by
  unfold dropSnap
  induction n.threads generalizing s with
  | nil => exact h
  | cons p ps ih => exact ih ((h.raiseAt _ _ _ _).recordDrop _ _)

/-- A snapshot of every member is dropped or kept, and its members go on (R260). -/
theorem snapshotValid_ends {s : State} {k : Nat} {n : Snap} (hn : tget k s.snaps = some n) (hv : n.valid = false) (ht : n.threads ≠ [])
    (hm : (teamEnt s k).members ≤ n.threads.length) : ∃ t, exec (.snapshotValid k) s = .next t
      ∧ (t.snaps = tdel k s.snaps ∨ (tgetD k {} t.snaps).valid = true) ∧ NoneWaits k t := by
  refine ⟨_, rfl, ?_⟩
  have hdue : (n.valid || n.threads.isEmpty || decide (n.threads.length < (teamEnt s k).members)) = false := by
    simp [hv, ht, hm]
  have hfree : NoneWaits k (freeSnap s k) := noneWaits_freeSnap s k
  rw [hn]
  dsimp only
  rw [if_neg (by simp [hdue])]
  split
  · have hdrop : NoneWaits k { freeSnap s k with snaps := tdel k s.snaps } := hfree.of_threads rfl
    exact ⟨.inl (dropSnap_sameEngines _ n).snaps, dropSnap_noneWaits hdrop n⟩
  · exact ⟨.inr (by rw [tgetD_tset_self]), (hfree.rewatched (freeFill_rewatched _ _ _)).of_threads rfl⟩

/-- A rollback of every member restores each from the snapshot, and then the snapshot's tiles (R260). -/
theorem exec_rollback {s : State} {k : Nat} {n : Snap} (hn : tget k s.snaps = some n) (hv : n.valid = true)
    (hw : (s.threads.filter fun p => p.2.hold.rbk == some k) ≠ [])
    (hm : (teamEnt s k).members ≤ (s.threads.filter fun p => p.2.hold.rbk == some k).length) :
    exec (.rollback k) s = .next (n.tiles.foldl (fun s i => putTileImg s i.1 i.2)
      ((s.threads.filter fun p => p.2.hold.rbk == some k).foldl (fun s w => s.modThr w.1 fun x =>
        match n.threads.find? fun p => p.1 == w.1 with
        | some p => restoreSnap { x with hold := { x.hold with rbk := none } } p.2
        | none => { x with hold := { x.hold with rbk := none } }) s)) := by
  refine congrArg Host.Outcome.next ?_
  have hdue : (!n.valid || (s.threads.filter fun p => p.2.hold.rbk == some k).isEmpty
      || decide ((s.threads.filter fun p => p.2.hold.rbk == some k).length < (teamEnt s k).members)) = false := by
    have he : (s.threads.filter fun p => p.2.hold.rbk == some k).isEmpty = false := by simpa using hw
    simp [hv, he, hm]
  rw [hn]
  exact if_neg (by rw [hdue]; exact nofun)

/-- Settles O47: one lemma per event. What an event says of dies, combiners or snapshots holds because threads, cores and homes are no part of
them (`SameEngines`); no thread waits for an ended snapshot, since writes at homes change no thread but in its watch (`Rewatched`). -/
theorem engineEvents : Obligations.EngineEvents := by
  refine ⟨fun s c id k hg => ⟨exec_streamCommandStart hg, exec_streamCommandComplete hg, fun a T => exec_aslDeliver hg⟩,
    fun s ids r ha => ⟨fun t h => ?joins, fun h => ?waits⟩,
    fun s w => ⟨fun hf hd => ?expiry, fun hf hd _ => ⟨fun hr => ?aborts, fun copy' vs hr => ?commits⟩⟩,
    fun s d m l => methodInstall_installs, fun s r v => exec_combineReply,
    fun s k T => ⟨fun h v => exec_memberSave, fun n => snapshotValid_ends, fun n hn hv hw hm => exec_rollback hn hv hw hm⟩⟩
  case joins => exact congrArg Host.Outcome.next ((congrArg (arriveAll s) ha).trans (arriveAll_joins h))
  case waits => exact congrArg Host.Outcome.next ((congrArg (arriveAll s) ha).trans (arriveAll_waits h))
  case expiry =>
    have he : exec (.waveWindowExpiry w.obj) s = .next (shutWave s w.obj) := rfl
    rw [he, shutWave_expired hf hd]
    exact ⟨_, (closeWave s w).2, rfl, mem_closeWave (List.mem_of_find?_eq_some hf), rfl, rfl, fun r hr =>
      ⟨closeWave_builtin hr, closeWave_absent hr, fun b => closeWave_installed hr⟩⟩
  case aborts => rw [exec_waveApply hf hd, applyWave_aborts hr]
  case commits =>
    have hc := applyWave_commits hr
    exact ⟨_, exec_waveApply hf hd, fun v hv => by rw [hc] at hv; simpa using (List.mem_filter.1 hv).2, by rw [hc]⟩

end Sys2Proof.Machine
end

section
/-! The method mask register CMBMASK (R274). -/

namespace Sys2Proof.Machine

/-- The number below 2 ^ n whose set bits are those that p names. -/
def maskOf (p : Nat → Bool) (n : Nat) : Nat := ((List.range n).map fun i => if p i then 2 ^ i else 0).sum

theorem maskOf_succ (p : Nat → Bool) (n : Nat) : maskOf p (n + 1) = 2 ^ n * (p n).toNat + maskOf p n := by
  rw [maskOf, List.range_succ, List.map_append, List.sum_append, ← maskOf]
  cases h : p n <;> simp [h, Nat.add_comm]

theorem maskOf_lt (p : Nat → Bool) (n : Nat) : maskOf p n < 2 ^ n := by
  induction n with
  | zero => exact Nat.one_pos
  | succ n ih =>
    rw [maskOf_succ, Nat.pow_succ]
    cases p n <;> simp only [Bool.toNat_true, Bool.toNat_false] <;> omega

theorem testBit_maskOf (p : Nat → Bool) (n i : Nat) : (maskOf p n).testBit i = (decide (i < n) && p i) := by
  induction n with
  | zero => exact Nat.zero_testBit i
  | succ n ih =>
    rw [maskOf_succ, Nat.testBit_two_pow_mul_add _ (maskOf_lt p n), ih]
    rcases Nat.lt_trichotomy i n with hlt | rfl | hgt
    · simp [hlt, Nat.lt_succ_of_lt hlt]
    · cases p i <;> simp
    · have hbit : (p n).toNat.testBit (i - n) = false := Nat.testBit_lt_two_pow <| calc
        (p n).toNat < 2 ^ 1 := Bool.toNat_lt _
        _ ≤ 2 ^ (i - n) := Nat.pow_le_pow_right (by decide) (by omega)
      rw [if_neg (by omega), hbit, decide_eq_false (by omega), Bool.false_and]

theorem sysRead_methods (s : State) (T : Tid) :
    sysRead s T 0x0C1 = maskOf (fun i => (tget i (s.die (dieOf (coreOf T))).methods).isSome) 64 := rfl

/-- CMBMASK takes no write. -/
theorem sysWrite_methods (s : State) (T : Tid) (v : Nat) : sysWrite s T 0x0C1 v = s := rfl

/-- Settles O51: the register is the mask of the slots that hold a method (`testBit_maskOf`); neither of its words asks for privilege. -/
theorem methodMaskRegister : Obligations.MethodMaskRegister := by
  refine ⟨fun s T => ⟨fun i hi => ?set, fun i hi => ?above⟩, sysRead_reset_methods, fun s T f hc h him => ?words⟩
  case set => rw [sysRead_methods, testBit_maskOf, decide_eq_true hi, Bool.true_and]
  case above => rw [sysRead_methods, testBit_maskOf, decide_eq_false (by omega), Bool.false_and]
  case words =>
    have hcode : f.imm.toNat = 0x0C1 := congrArg BitVec.toNat him
    obtain ⟨-, -, -, hread, hwrite⟩ := (systemWordResults.2 s T hc).1 f h
    simp only [hcode, sysWrite_methods] at hread hwrite
    exact ⟨hread nofun, hwrite nofun⟩

end Sys2Proof.Machine
end

section
/-! Lanes of the built-in methods on the copy of an object, and waves of them (R270, R277, R282). -/

namespace Sys2Proof.Machine

/-! ### The built-in methods' table (R277) -/

/-- The table on words of any width. -/
theorem builtinNew_word {w : Nat} (hw : 0 < w) (old b new : BitVec w) :
    builtinNew 0 w old.toNat b.toNat new.toNat = (old + b).toNat
    ∧ builtinNew 2 w old.toNat b.toNat new.toNat = (if b.slt old then b else old).toNat
    ∧ builtinNew 3 w old.toNat b.toNat new.toNat = (if b.ult old then b else old).toNat
    ∧ builtinNew 4 w old.toNat b.toNat new.toNat = (if old.slt b then b else old).toNat
    ∧ builtinNew 5 w old.toNat b.toNat new.toNat = (if old.ult b then b else old).toNat
    ∧ builtinNew 6 w old.toNat b.toNat new.toNat = (old &&& b).toNat ∧ builtinNew 7 w old.toNat b.toNat new.toNat = (old ||| b).toNat
    ∧ builtinNew 8 w old.toNat b.toNat new.toNat = (old ^^^ b).toNat ∧ builtinNew 9 w old.toNat b.toNat new.toNat = b.toNat
    ∧ builtinNew 10 w old.toNat b.toNat new.toNat = (if old = b then new else old).toNat := by
  refine ⟨(BitVec.toNat_add ..).symm, ?smin, ?umin, ?smax, ?umax, (BitVec.toNat_and ..).symm, (BitVec.toNat_or ..).symm,
    (BitVec.toNat_xor ..).symm, rfl, ?cas⟩
  case smin => simp [builtinNew, toSigned_toNat hw, BitVec.slt, apply_ite BitVec.toNat]
  case smax => simp [builtinNew, toSigned_toNat hw, BitVec.slt, apply_ite BitVec.toNat]
  case umin =>
    by_cases h : b.toNat < old.toNat <;> simp [builtinNew, BitVec.ult, h] <;> omega
  case umax =>
    by_cases h : old.toNat < b.toNat <;> simp [builtinNew, BitVec.ult, h] <;> omega
  case cas => simp [builtinNew, apply_ite BitVec.toNat, BitVec.toNat_inj]

/-! ### Words of a copy -/

section
variable {copy : List Val} {i : Nat}

theorem take_drop_one {v : Val} (h : copy[i]? = some v) : (copy.drop i).take 1 = [v] := by
  rw [List.take_one, List.head?_drop, h, Option.toList_some]

theorem copyNum_clean {n : Nat} (h : copy[i]? = some (.ok n)) : copyNum copy i false = some n := by
  simp [copyNum, take_drop_one h, firstBad, wordsNum]

theorem copyNum_poisoned {k : Tok} (h : copy[i]? = some (.bad k)) : copyNum copy i false = none := by
  simp [copyNum, take_drop_one h, firstBad]

theorem copyPut_word (v : BitVec 32) : copyPut copy i false v.toNat = copy.set i (.ok v.toNat) :=
  congrArg (copy.set i <| .ok ·) (Nat.mod_eq_of_lt v.isLt)

/-! ### Lanes (R277, R282) -/

variable {sz : Bool} {old : Nat} {m : Nat} (b new : Nat)

/-- A lane that reads poison. -/
theorem builtinLane_poisoned (h : copyNum copy i sz = none) : builtinLane m sz copy i b new = none := by
  simp only [builtinLane, h]

/-- A lane of a built-in but APPEND and QPUSH. -/
theorem builtinLane_new (h : copyNum copy i sz = some old) (hm : m < 11) :
    builtinLane m sz copy i b new = some (copyPut copy i sz (builtinNew m (if sz then 64 else 32) old b new), old) := by
  simp only [builtinLane, h, if_neg hm.ne, if_neg (by omega : m ≠ 12)]

/-- APPEND's lane; the limit is the next word. -/
theorem builtinLane_append {v : Nat} (h : copyNum copy i sz = some old) (hv : copyNum copy (i + (if sz then 64 else 32) / 32) sz = some v) :
    builtinLane 11 sz copy i b new = if old + b < 2 ^ (if sz then 64 else 32) ∧ old + b ≤ v then some (copyPut copy i sz (old + b), old)
      else some (copy, 2 ^ (if sz then 64 else 32) - 1) := by
  simp only [builtinLane, h, hv, if_true]

/-- QPUSH's lane. -/
theorem builtinLane_qpush (h : copyNum copy i true = some old) :
    builtinLane 12 true copy i b new = some (if old = 0 then copyPut (copyPut copy i true b) (i + 2) true b else copyPut copy i true b, old) := by
  simp only [builtinLane, h]
  rfl

end

/-- The lanes of the table on a clean word of the size. -/
theorem builtinLane_word {w : Nat} {sz : Bool} (hw : (if sz then 64 else 32) = w) {copy : List Val} {i : Nat} {old : BitVec w} (b new : BitVec w)
    (h : copyNum copy i sz = some old.toNat) :
    let gives := fun (m : Nat) (v : BitVec w) => builtinLane m sz copy i b.toNat new.toNat = some (copyPut copy i sz v.toNat, old.toNat)
    gives 0 (old + b)
    ∧ gives 2 (if b.slt old then b else old) ∧ gives 3 (if b.ult old then b else old)
    ∧ gives 4 (if old.slt b then b else old) ∧ gives 5 (if old.ult b then b else old)
    ∧ gives 6 (old &&& b) ∧ gives 7 (old ||| b) ∧ gives 8 (old ^^^ b) ∧ gives 9 b
    ∧ gives 10 (if old = b then new else old)
    ∧ ∀ v : BitVec w, copyNum copy (i + w / 32) sz = some v.toNat → builtinLane 11 sz copy i b.toNat new.toNat
      = if old.toNat + b.toNat < 2 ^ w ∧ old.toNat + b.toNat ≤ v.toNat then some (copyPut copy i sz (old + b).toNat, old.toNat)
        else some (copy, 2 ^ w - 1) := by
  have gives {m : Nat} (hm : m < 11) {v : BitVec w} (hv : builtinNew m w old.toNat b.toNat new.toNat = v.toNat) :
      builtinLane m sz copy i b.toNat new.toNat = some (copyPut copy i sz v.toNat, old.toNat) := by
    rw [builtinLane_new _ _ h hm, hw, hv]
  have hpos : 0 < w := by cases sz <;> subst hw <;> decide
  obtain ⟨add, smin, umin, smax, umax, and, or, xor, swap, cas⟩ := builtinNew_word hpos old b new
  refine ⟨gives (by decide) add, gives (by decide) smin, gives (by decide) umin, gives (by decide) smax, gives (by decide) umax,
    gives (by decide) and, gives (by decide) or, gives (by decide) xor, gives (by decide) swap, gives (by decide) cas, fun v hv => ?append⟩
  rw [builtinLane_append _ _ h (by rwa [hw]), hw]
  exact if_ctx_congr Iff.rfl (fun hfit => by rw [BitVec.toNat_add_of_lt hfit.1]) fun _ => rfl

/-! ### A wave (R270, R282) -/

/-- The first lane of a wave and those after it. -/
theorem runLanes_builtin (n i : Nat) {r : CReq} (rs : List CReq) (copy : List Val) (h : r.user = false) :
    runLanes n i (r :: rs) copy = (builtinLane r.method r.sz copy (r.pa % 64 / 4) r.b r.new).bind fun q =>
      (runLanes n (i + 1) rs q.1).map fun z => (z.1, q.2 :: z.2) := by
  rw [runLanes]
  simp only [h, Bool.false_eq_true, if_false]
  rcases builtinLane r.method r.sz copy (r.pa % 64 / 4) r.b r.new with _ | ⟨copy', v⟩
  · rfl
  · dsimp only [Option.bind_some]
    cases runLanes n (i + 1) rs copy' <;> rfl

/-- Settles O38: on either size the lanes of the table are `builtinLane_word`'s, with a word of 32 bits as one element of the copy
(`copyNum_clean`, `copyPut_word`). -/
theorem combineMethods : Obligations.CombineMethods := by
  refine ⟨fun copy i old b new h => ?words, fun copy i old b new h => builtinLane_new _ _ (copyNum_clean h) (by decide),
    fun copy i old b new h => builtinLane_word (sz := true) rfl b new h, fun copy i b new m k h => builtinLane_poisoned b new (copyNum_poisoned h),
    fun copy i b new old h => builtinLane_qpush b new h, fun n i r rs copy hr => ?wave⟩
  case words =>
    obtain ⟨add, smin, umin, smax, umax, and, or, xor, swap, cas, append⟩ := builtinLane_word (sz := false) rfl b new (copyNum_clean h)
    simp only [copyPut_word] at add smin umin smax umax and or xor swap cas append
    exact ⟨add, smin, umin, smax, umax, and, or, xor, swap, cas, fun v hv => append v (copyNum_clean hv)⟩
  case wave =>
    rw [runLanes_builtin n i rs copy hr]
    cases builtinLane r.method r.sz copy (r.pa % 64 / 4) r.b r.new <;> rfl

end Sys2Proof.Machine
end

section
/-! What CMB, CMBU and CMBDEF leave at their issue, run by one thread (R275, R276, R278, R281). -/

namespace Sys2Proof.Machine

/-! ### Combine requests at issue (R275, R276, R278) -/

@[simp] theorem opened_comb (s : State) (T : Tid) : (opened s T).comb = s.comb := by
  unfold opened State.modCur
  split <;> rfl

theorem combOut_opened (s : State) (T : Tid) (c : Nat) : combOut (opened s T) c = combOut s c := by
  simp only [combOut, opened_comb, opened_core]

/-- A counter with room, at a word's issue (R17). -/
theorem countFull_opened {s : State} {T : Tid} {cls : Cls} (h : (s.thr T).count cls < 63) : countFull (opened s T) cls [T] = false := by
  simp [countFull, h]

/-- An address is refused where it is misaligned, or APPEND's limit word would lie outside the object. -/
theorem combBad_iff (method : Nat) (user sz : Bool) (ea : W64) : combBad method user sz ea = true ↔ user = false
    ∧ (ea.toNat % (if method = 12 then 16 else if sz then 8 else 4) ≠ 0 ∨ (method = 11 ∧ 64 ≤ ea.toNat % 64 + if sz then 8 else 4)) := by
  cases sz <;> simp [combBad]

/-- A command of class C of one thread: the state that counts it, and its number. -/
def combIssued (s : State) (T : Tid) : State × Nat := let n := s.fresh (coreOf T); (issueCmd n.1 .c n.2 [T], n.2)

/-- The address that a combine's operands give. -/
def combEa (vs : List Val) : W64 := BitVec.ofNat 64 (arg (vs.map Val.num) 0)

section
variable {method : Nat} {user sz : Bool} {f : RForm} {s : State} {T : Tid} {vs : List Val}

/-- The effect of a combine with a poisoned operand. -/
theorem combOp_eff_poisoned {k : Tok} (h : lowTok vs = some k) :
    (combOp method user sz f).eff s T [T] vs = ((combIssued s T).1, ⟨(combIssued s T).2, some k⟩) := by
  simp only [combOp, h, combIssued]

/-- With an address that is refused. -/
theorem combOp_eff_refused (h : lowTok vs = none) (hb : combBad method user sz (combEa vs) = true) :
    (combOp method user sz f).eff s T [T] vs
      = let q := raise (combIssued s T).1 T cBND (combEa vs); (q.1, ⟨(combIssued s T).2, some q.2⟩) := by
  simp only [combOp, h]
  exact if_pos hb

section
variable (h : lowTok vs = none) (hb : ¬ combBad method user sz (combEa vs) = true)
include h hb

/-- With one whose store checks fail. -/
theorem combOp_eff_fault {k : Nat} (hx : (xlat (combIssued s T).1 T .store (combEa vs)).2 = .fault k) :
    (combOp method user sz f).eff s T [T] vs
      = let q := raise (xlat (combIssued s T).1 T .store (combEa vs)).1 T k (combEa vs); (q.1, ⟨(combIssued s T).2, some q.2⟩) := by
  dsimp only [combIssued, combEa] at hx hb ⊢
  simp only [combOp, h, hb, hx, Bool.false_eq_true, if_false]

/-- With one whose translation reads poison. -/
theorem combOp_eff_carried {k : Tok} (hx : (xlat (combIssued s T).1 T .store (combEa vs)).2 = .carried k) :
    (combOp method user sz f).eff s T [T] vs
      = let q := raiseCarried (xlat (combIssued s T).1 T .store (combEa vs)).1 T ((combIssued s T).1.thr T).pc k (combEa vs)
        (q.1, ⟨(combIssued s T).2, some q.2⟩) := by
  dsimp only [combIssued, combEa] at hx hb ⊢
  simp only [combOp, h, hb, hx, Bool.false_eq_true, if_false]

/-- With one that passes them: the request is sent. -/
theorem combOp_eff_sent {p : Page} (hx : (xlat (combIssued s T).1 T .store (combEa vs)).2 = .ok p) :
    (combOp method user sz f).eff s T [T] vs
      = (combSend (xlat (combIssued s T).1 T .store (combEa vs)).1
          { core := coreOf T, cmd := (combIssued s T).2, tids := [T], lead := T, lo := f.d.start.toNat, n := f.d.slices
            pc := (combIssued s T).1.cur.addr, ea := combEa vs, user := user, method := method, sz := sz
            b := arg (vs.map Val.num) 1, new := arg (vs.map Val.num) 2 } p, ⟨(combIssued s T).2, none⟩) := by
  dsimp only [combIssued, combEa] at hx hb ⊢
  simp only [combOp, h, hb, hx, Bool.false_eq_true, if_false]

end

/-- A combine that completes at its issue. -/
theorem combOp_left_stopped {a : State × List Val} {u : State} {id : Nat} {k : Tok}
    (hr : readSrcs [T] T (combSrcs (!user && method == 10) f) s = a)
    (he : (combOp method user sz f).eff (noReplay a.1 [T]) T [T] a.2 = (u, ⟨id, some k⟩)) : (combOp method user sz f).noReplay.left s T
      = (completeCmd (wrote u T f.d.start.toNat f.d.slices (.bad k)) (coreOf T) id none, none) := by
  have hrd : (combOp method user sz f).rd s [T] T = a := hr
  unfold WordOp.left
  simp only [WordOp.noReplay, hrd, he]
  simp only [combOp, putAll_solo, List.headD_cons]

/-- One whose request is sent. -/
theorem combOp_left_sent {a : State × List Val} {u : State} {id : Nat}
    (hr : readSrcs [T] T (combSrcs (!user && method == 10) f) s = a)
    (he : (combOp method user sz f).eff (noReplay a.1 [T]) T [T] a.2 = (u, ⟨id, none⟩)) : (combOp method user sz f).noReplay.left s T
      = (markPend u T f.d.start.toNat f.d.slices id false, none) := by
  have hrd : (combOp method user sz f).rd s [T] T = a := hr
  unfold WordOp.left
  simp only [WordOp.noReplay, hrd, he]
  rfl

/-- A combine of one thread that nothing holds. -/
theorem combWord_solo (method : Nat) (user sz : Bool) (h : Solo s T f.x) (hc : inClass s 3) (ho : combOut s (coreOf T) < 256)
    (hk : (s.thr T).count .c < 63) (hi : idle s T f.d.start.toNat f.d.slices) (hu : unheld s T (combSrcs (!user && method == 10) f)) :
    combWord method user sz f s = ended ((combOp method user sz f).noReplay.left (opened s T) T).1 T none
      (max 1 (1 + crossCost (combSrcs (!user && method == 10) f))) := by
  unfold combWord
  refine engine_word _ _ h (by decide) (by decide) hc ?reads ?writes
  case reads => simp only [combOp, busySrcs_free hu, combOut_opened, Bool.false_or, decide_eq_false_iff_not]; omega
  case writes => simpa [combOp, countFull_opened hk, idle] using hi

end

/-! ### CMBDEF at issue (R281) -/

section
variable {n : BitVec 6} {f : RForm} {s : State} {T : Tid}

/-- A CMBDEF of one supervisor thread that nothing holds. -/
theorem cmbdef_solo (n : BitVec 6) (h : Solo s T f.x) (hc : inClass s 3) (hp : (s.thr T).priv = true) (ho : combOut s (coreOf T) < 256)
    (hk : (s.thr T).count .c < 63) (hi : idle s T f.d.start.toNat f.d.slices) (hu : unheld s T [rA f]) :
    exec (.cmbdef n f) s
      = .next (ended ((cmbdefOp n f).noReplay.left (opened s T) T).1 T none (max 1 (1 + crossCost [rA f]))) := by
  refine congrArg Host.Outcome.next ?_
  have hg : gateTrap s ({ cls := some 3, sup := true } : Gate) f.x [T] = none :=
    gate_pass (admitted_inClass hc) nofun (fun _ => by rw [h.pack, anyUser_solo, hp]; rfl) rfl rfl rfl
  rw [runWord_solo _ (cmbdefOp n f) _ _ h rfl hg ?reads ?writes, gated_engine _ rfl]
  case reads => simp only [cmbdefOp, src_busy hu, combOut_opened, Bool.false_or, decide_eq_false_iff_not]; omega
  case writes => simpa [cmbdefOp, countFull_opened hk, idle] using hi
  rfl

/-- What one with a poisoned address leaves. -/
theorem cmbdef_left_poisoned {k : Tok} (ha : (engaged s T [rA f]).2 = [.bad k]) :
    let i := combIssued (engaged s T [rA f]).1 T
    (cmbdefOp n f).noReplay.left (opened s T) T
      = (completeCmd (wrote i.1 T f.d.start.toNat f.d.slices (.bad k)) (coreOf T) i.2 none, none) := by
  have hv : ((rA f).read (opened s T) [T] T).2 = .bad k := List.head_eq_of_cons_eq ha
  intro i
  unfold WordOp.left
  simp only [WordOp.noReplay, cmbdefOp, hv, putAll_solo, List.headD_cons]
  rfl

/-- Behind its pending destination, a CMBDEF with a clean address goes on as its record's read does. -/
theorem cmbdefOp_put_read {u : State} {id slot lo : Nat} {a : W64} {k : FabCmd}
    (hk : fabGet (markPend u T f.d.start.toNat f.d.slices id false) (coreOf T) id = some k) (hkind : k.kind = .cmbdef slot a lo) :
    (cmbdefOp n f).put u [T] (id, none) = cmbdefGo (markPend u T f.d.start.toNat f.d.slices id false) (coreOf T) k slot a := by
  simp only [cmbdefOp, List.foldl_cons, List.foldl_nil, List.headD_cons, hk, hkind]

/-- What one leaves whose record the combiner reads. -/
theorem cmbdef_left_read {v : Nat} (ha : (engaged s T [rA f]).2 = [.ok v]) :
    let c := coreOf T
    let i := combIssued (engaged s T [rA f]).1 T
    let k : FabCmd := { id := i.2, tids := [T], lead := T, pc := i.1.cur.addr
                        kind := .cmbdef n.toNat (BitVec.ofNat 64 v) f.d.start.toNat, asid := (i.1.core c).ptbr.toNat % 4096
                        root := (i.1.core c).ptbr, user := false }
    let z := markPend (i.1.modCore c fun x => { x with fabQ := x.fabQ ++ [k] }) T f.d.start.toNat f.d.slices i.2 false
    fabGet z c i.2 = some k → (cmbdefOp n f).noReplay.left (opened s T) T = (cmbdefGo z c k n.toNat (BitVec.ofNat 64 v), none) := by
  have hv : (cmbdefOp n f).rd (opened s T) [T] T = (((rA f).read (opened s T) [T] T).1, .ok v) := Prod.ext rfl (List.head_eq_of_cons_eq ha)
  intro c i k z hk
  unfold WordOp.left
  simp only [WordOp.noReplay, hv]
  exact congrArg (·, none) (cmbdefOp_put_read hk rfl)

end

/-- A request for this device's memory joins those in flight (R268, R276). -/
theorem combSend_home (s : State) (r : CReq) {p : Page} (hp : p.peer = 0) :
    let u := setDC s p
    combSend s r p = { u with comb := { u.comb with
      nextId := u.comb.nextId + 1
      flight := u.comb.flight ++ [{ r with id := u.comb.nextId, pa := p.pa, peer := 0
                                           ident := identOf u.fab.dev.toNat r.lead, sent := u.now
                                           port := u.iss.getD 0, filled := u.cur.filled }] } } := by
  simp only [combSend, hp, if_true]

/-- Settles O37: a combine word leaves its command's end where its operands, its address or the translation stop it
(`combOp_left_stopped`), and else its request (`combOp_left_sent`); CMBDEF's two issues are `cmbdef_left_poisoned` and `cmbdef_left_read`. -/
theorem combineResults : Obligations.CombineResults := by
  refine ⟨fun s T f h hc ho hk hi => ?_, fun s r p hp => combSend_home s r hp⟩
  intro c sends
  have sent (method : Nat) (user sz : Bool) (hu : unheld s T (combSrcs (!user && method == 10) f)) :
      combWord method user sz f s = sends (combSrcs (!user && method == 10) f) user sz method := by
    rw [combWord_solo method user sz h hc ho hk hi hu]
    generalize hrs : combSrcs (!user && method == 10) f = rs
    have hr : readSrcs [T] T (combSrcs (!user && method == 10) f) (opened s T) = readSrcs [T] T rs (opened s T) := by rw [hrs]
    dsimp only [sends, c]
    cases hl : lowTok (engaged s T rs).2 with
    | some k => rw [combOp_left_stopped hr (combOp_eff_poisoned hl)]; rfl
    | none =>
      by_cases hb : combBad method user sz (combEa (engaged s T rs).2) = true
      · rw [combOp_left_stopped hr (combOp_eff_refused hl hb)]
        exact (if_pos ((combBad_iff ..).1 hb)).symm
      · refine Eq.trans ?_ (if_neg (mt (combBad_iff ..).2 hb)).symm
        split
        case h_1 k hx => rw [combOp_left_stopped hr (combOp_eff_fault hl hb hx)]; rfl
        case h_2 k hx => rw [combOp_left_stopped hr (combOp_eff_carried hl hb hx)]; rfl
        case h_3 p hx => rw [combOp_left_sent hr (combOp_eff_sent hl hb hx)]; rfl
  refine ⟨fun op sz hu => congrArg Host.Outcome.next ?cmb, fun n hu => congrArg Host.Outcome.next (sent n.toNat true true hu),
    fun n hp hu => ⟨fun k ha => ?poisoned, fun v ha => ?read⟩⟩
  case cmb =>
    have hop : (op == 10) = (op.toNat == 10) := by rw [Bool.eq_iff_iff, beq_iff_eq, beq_iff_eq, ← BitVec.toNat_inj]; rfl
    rw [hop] at hu ⊢
    exact sent op.toNat false sz hu
  case poisoned =>
    rw [cmbdef_solo n h hc hp ho hk hi hu, cmbdef_left_poisoned ha]
    rfl
  case read =>
    intro k z hg
    rw [cmbdef_solo n h hc hp ho hk hi hu, cmbdef_left_read ha hg]
    rfl

end Sys2Proof.Machine
end

section
/-! The words of the stream engine, run by one thread: tiles, stream commands, rings and operand queues (R287 to R293, R298 to R313). -/

namespace Sys2Proof.Machine

/-! ### A word of class 1 on one operand, and one that writes D (R31, R131) -/

/-- What a word leaves that acts on a state and may record a token of a cause. -/
def recorded (T : Tid) (q : State × Option Nat) : State :=
  match q.2 with
  | none => q.1
  | some k => let z := raise q.1 T k; recordDrop z.1 T z.2

section
variable {s : State} {T : Tid} {x : Pfx} (h : Solo s T x) (hc : inClass s 1)
include h hc

/-- A word that acts on the value of one operand: `hbad` and `hok` say what its effect is on a token and on a value. -/
theorem actsWord_solo {o : WordOp Val Unit} {r : Src} {g : State → Nat → State × Option Nat}
    (hr : o.rdBusy (opened s T) [T] T = false) (hok : ∀ u v, (o.eff u T [T] (.ok v)).1 = recorded T (g u v))
    (hbad : ∀ u k, (o.eff u T [T] (.bad k)).1 = recordDrop u T k := by intros; rfl)
    (hrd : o.rd (opened s T) [T] T = r.read (opened s T) [T] T := by rfl) (hput : ∀ u, o.put u [T] () = u := by intros; rfl)
    (htgt : ∀ u, o.tgt u T () = none := by intros; rfl) (hw : o.wrBusy (opened s T) T = false := by rfl)
    (he : o.extra (opened s T) [T] T = 0 := by rfl) :
    strWord_ x [r] o s = engineActs s T r g := by
  unfold strWord_
  rw [engine_word _ _ h (by decide) (by decide) hc hr hw he]
  unfold WordOp.left engineActs
  simp only [WordOp.noReplay, hrd, hput, htgt]
  cases (r.read (opened s T) [T] T).2 with
  | bad k => simp only [hbad]
  | ok v => simp only [hok]; rfl

/-- A word that writes its result to D. -/
theorem resultWord_solo {α : Type} {o : WordOp α Val} {d : Opd} (e : Bool) (c : Nat)
    (hr : o.rdBusy (opened s T) [T] T = false) (hw : o.wrBusy (opened s T) T = false)
    (hput : ∀ u v, o.put u [T] v = wrote u T d.start.toNat d.slices v) (htgt : ∀ u v, o.tgt u T v = none := by intros; rfl)
    (he : o.extra (opened s T) [T] T = 0 := by rfl) :
    runWord { cls := some 1 } x e c o s
      = let a := o.rd (opened s T) [T] T
        let b := o.eff (noReplay a.1 [T]) T [T] a.2
        ended (wrote b.1 T d.start.toNat d.slices b.2) T none (max 1 c) := by
  rw [engine_word _ _ h (by decide) (by decide) hc hr hw he]
  unfold WordOp.left
  simp only [WordOp.noReplay, hput, htgt]

end

/-! ### Tiles (R288 to R293) -/

/-- With no tiles of saved contexts in the accumulator there is nothing to write out (R256). -/
theorem flushCtx_none {s : State} {c : Nat} (h : ctxTiles s c = []) : flushCtx s c = s := by
  rw [flushCtx, h, List.foldl_nil]

/-- The shapes that TALLOC refuses (R289, R291). -/
theorem talloc_refused {u : State} {T : Tid} {level : Nat} {w : W64}
    (h : shOk w = false ∨ (level = 1 ∧ (shPlanes w = true ∨ shBits w ≠ 32))) : talloc u T level w = (u, 0x1802) := by
  have hb : (!shOk w || (level == 1 && !accShape w)) = true := by simpa [accShape, imp_iff_not_or] using h
  simp only [talloc, hb, if_true]

/-- TALLOC of a shape that its level takes, with nothing to write out. -/
theorem talloc_taken {u : State} {T : Tid} {level : Nat} {w : W64}
    (h : ¬ (shOk w = false ∨ (level = 1 ∧ (shPlanes w = true ∨ shBits w ≠ 32)))) (hx : ctxTiles u (coreOf T) = []) : talloc u T level w =
    match freeTile u (coreOf T) level with
    | none => (u, 0x1801)
    | some i =>
      if level = 1 ∧ usedAcc (u.core (coreOf T)) + shBlocks w > 8192 then (u, 0x1803)
      else
        let e := tileEnt u (coreOf T) level i
        let u1 := setTile u (coreOf T) level i { e with
          live := true, shape := w, asid := some ((u.core (coreOf T)).ptbr.toNat % 4096)
          bank := level == 1 || (level == 0 && decide (usedBanks (u.core (coreOf T)) + shBlocks w ≤ 384)), ovf := false, ctx := 0 }
        (modTile u1 (coreOf T) level i fun m => m.clear (4 * tileAt u1 (coreOf T) level i) 65536, level * 2 ^ 11 + i * 8 + e.gen % 8) := by
  have hb : ¬ (!shOk w || (level == 1 && !accShape w)) = true := by simpa [accShape, imp_iff_not_or] using h
  simp only [talloc, hb, flushCtx_none hx, ite_self] <;> rfl

/-- TQUERY's value by kind and by the check's outcome (R293). -/
theorem tquery_eq (u : State) (T : Tid) (k : BitVec 2) (h : Nat) : tquery u T k.toNat h =
    let fail := tileFail u (coreOf T) h (askerOf u T) false 0 0
    let e := tileEnt u (rankCore (coreOf T) h) (hLevel h) (hIndex h)
    match k.toNat, fail with
    | 0, none => e.shape.toNat
    | 1, none => shBytes e.shape
    | 2, none => shBlocks e.shape * if e.bank then 1 else 2 ^ 16
    | 3, none => (if hLevel h = 3 then 0 else e.gen % 8 * 32) + 1
    | 3, some q => (if hLevel h = 3 then 0 else e.gen % 8 * 32) + 2 * q
    | _, _ => 0 := by
  have kinds : ∀ j : BitVec 2, j = 0 ∨ j = 1 ∨ j = 2 ∨ j = 3 := by decide
  dsimp only
  cases hf : tileFail u (coreOf T) h (askerOf u T) false 0 0 <;> obtain rfl | rfl | rfl | rfl := kinds k <;> simp [tquery, hf]

/-- TFREE acts on a handle as R292 has it; a frame tile and another core's fail with PROT first (DEDUCED, assumption 25). -/
theorem tfreeOp_eff_ok (f : RForm) (u : State) (T : Tid) (h : Nat) : ((tfreeOp f).eff u T [T] (.ok h)).1 = recorded T
    (if hRank h ≠ 0 ∨ (hLevel h = 2 ∧ 248 ≤ hIndex h) then (u, some cPROT)
      else match tileFail u (coreOf T) h (askerOf u T) false 0 0 with
        | some q => (u, some q)
        | none =>
          let e := tileEnt u (coreOf T) (hLevel h) (hIndex h)
          (setTile u (coreOf T) (hLevel h) (hIndex h) { e with live := false, gen := (e.gen + 1) % 8 }, none)) := by
  by_cases hp : hRank h ≠ 0 ∨ (hLevel h = 2 ∧ 248 ≤ hIndex h)
  · simp only [tfreeOp, tfreeFail, if_pos hp, recorded, recordAll_solo]
  · simp only [tfreeOp, tfreeFail, if_neg hp]
    cases tileFail u (coreOf T) h (askerOf u T) false 0 0 <;> simp only [recorded, recordAll_solo, tfree]

/-- Settles O31: TALLOC and TQUERY answer at once (`strVal_solo`) with `talloc` and `tquery_eq`, TFREE acts on its handle
(`tfreeOp_eff_ok`); the cases of `talloc` are `talloc_refused` and, with nothing to write out, those of `talloc_taken`. -/
theorem tileWordResults : Obligations.TileWordResults := by
  refine ⟨fun s T f level k h hc => ⟨fun hf => ⟨congrArg Host.Outcome.next ?talloc, congrArg Host.Outcome.next ?tquery⟩,
    fun hb => congrArg Host.Outcome.next ?tfree⟩, fun u T level w => ⟨talloc_refused, fun ok hx => ⟨fun hn => ?noEntry, fun i hi =>
      ⟨fun hfull => ?noBlocks, fun hroom => ?takes⟩⟩⟩⟩
  case talloc => exact strVal_solo _ _ h (by decide) (by decide) hc hf
  case tquery =>
    refine (strVal_solo _ _ h (by decide) (by decide) hc hf).trans ?_
    exact congrArg (engineDone s T f.d [rA f]) (funext fun u => funext fun l => congrArg (Prod.mk u) (tquery_eq u T k (arg l 0)))
  case tfree => exact actsWord_solo h hc hb fun u v => tfreeOp_eff_ok f u T v
  case noEntry => rw [talloc_taken ok hx, hn]
  case noBlocks => rw [talloc_taken ok hx, hi]; exact if_pos hfull
  case takes =>
    rw [talloc_taken ok hx, hi]
    refine (if_neg hroom).trans ?_
    have hbank : (level == 1 || (level == 0 && decide (usedBanks (u.core (coreOf T)) + shBlocks w ≤ 384)))
        = decide (level = 1 ∨ (level = 0 ∧ usedBanks (u.core (coreOf T)) + shBlocks w ≤ 384)) := by
      simp only [Bool.decide_or, Bool.decide_and, beq_eq_decide]
    rw [hbank]

/-! ### Stream commands (R298, R301, R306, R311) -/

/-- A stream command of one thread that nothing holds, with room in its core's queue. -/
theorem strIssue_solo {s : State} {T : Tid} {f : RForm} {rs : List Src} (g : List Nat → StrOp) (h : Solo s T f.x) (hc : inClass s 1)
    (hq : ((s.core (coreOf T)).strQ.filter fun k => k.stage == 0).length < 64) (hf : cmdFree s T .s (if f.r4 then some f.d else none) rs) :
    cmdWord 1 false f.x (strIssue f rs g) s
      = commanded s T .s (if f.r4 then some f.d else none) rs fun u id l => (strAdd g u T [T] id l).1 := by
  have room : strFull (opened s T) (coreOf T) = false := by
    rw [strFull, opened_core, decide_eq_false_iff_not]
    omega
  exact cmd_solo (strIssue f rs g) h (by decide) (by decide) hc hf room fun _ _ _ => rfl

/-- Settles O32: each word is `strIssue_solo` with the command that its operands give. -/
theorem streamCommandResults : Obligations.StreamCommandResults := by
  intro s T f h hc hq fut asks
  have issued {rs : List Src} (g : List Nat → StrOp) (hf : cmdFree s T .s fut rs) :
      (.next (cmdWord 1 false f.x (strIssue f rs g) s) : Out) = .next (asks rs g) := next_eq (strIssue_solo g h hc hq hf)
  exact ⟨fun hf => ⟨issued _ hf, issued _ hf⟩,
    fun hf => ⟨issued _ hf, issued _ hf, issued _ hf, issued _ hf, fun _ _ _ _ => issued _ hf⟩⟩

/-! ### Rings (R307, R309) -/

/-- The ring that handle h of thread T names by its index, live or not. -/
def ringOf (s : State) (T : Tid) (h : Nat) : Ring := tgetD (h % 16) {} (s.core (coreOf T)).rings

/-- The same ring replaced. -/
def setRing (s : State) (T : Tid) (h : Nat) (g : Ring) : State := s.modCore (coreOf T) fun x => { x with rings := tset (h % 16) g x.rings }

/-- A handle names a live ring of its generation. -/
theorem ringOk_iff (s : State) (T : Tid) (h : Nat) : ringOk s (coreOf T) h = true
    ↔ h < 128 ∧ (ringOf s T h).live = true ∧ (ringOf s T h).gen = h / 16 % 8 := by
  simp only [ringOk, Bool.and_eq_true, decide_eq_true_eq, beq_iff_eq, and_assoc, Nat.div_eq_zero_iff, ringOf]
  simp

@[simp] theorem ringOk_opened (s : State) (T : Tid) (c h : Nat) : ringOk (opened s T) c h = ringOk s c h := by
  rw [ringOk, ringOk, opened_core]

/-- SRING.free acts on a handle (R307). -/
theorem sringFreeOp_eff_ok (f : RForm) (u : State) (T : Tid) (h : Nat) : ((sringFreeOp f).eff u T [T] (.ok h)).1 = recorded T
    (if ringOk u (coreOf T) h then (setRing u T h { gen := ((ringOf u T h).gen + 1) % 8 }, none) else (u, some cSTALE)) := by
  cases hk : ringOk u (coreOf T) h
  case false => simp only [sringFreeOp, hk, Bool.false_eq_true, if_false, recorded, recordAll_solo]
  case true => simp only [sringFreeOp, hk, if_true, recorded, setRing, ringOf]

/-- RREL acts on a handle (R309). -/
theorem rrelOp_eff_ok (f : RForm) (u : State) (T : Tid) (h : Nat) : ((rrelOp f).eff u T [T] (.ok h)).1 = recorded T
    (let g := ringOf u T h
      if ringOk u (coreOf T) h then (if g.held = 0 then (u, some cBND)
        else (setRing u T h { g with held := g.held - 1, free := g.free + 1, relAt := (g.relAt + 1) % g.nslot }, none))
      else (u, some cSTALE)) := by
  cases hk : ringOk u (coreOf T) h
  case false => simp only [rrelOp, hk, Bool.false_eq_true, if_false, recorded, recordAll_solo]
  case true =>
    by_cases hh : (tgetD (h % 16) {} (u.core (coreOf T)).rings).held = 0
    · simp only [rrelOp, hk, hh, if_true, recorded, recordAll_solo, ringOf]
    · simp only [rrelOp, hk, hh, if_true, if_false, recorded, setRing, ringOf]

section
variable {s : State} {T : Tid} {f : RForm}

/-- RPOP of one thread: its effect on the operand that it read, written to D. -/
theorem rpop_solo {v : Val} (h : Solo s T f.x) (hc : inClass s 1) (hi : idle s T f.d.start.toNat f.d.slices)
    (hr : (rpopOp f).rdBusy (opened s T) [T] T = false) (ha : (engaged s T [rA f]).2 = [v]) :
    let b := (rpopOp f).eff (engaged s T [rA f]).1 T [T] v
    exec (.rpop f) s = .next (ended (wrote b.1 T f.d.start.toNat f.d.slices b.2) T none (max 1 (1 + crossCost [rA f]))) := by
  have hv : ((rA f).read (opened s T) [T] T).2 = v := List.head_eq_of_cons_eq ha
  refine next_eq ((resultWord_solo (o := rpopOp f) h hc _ _ hr (by simpa [rpopOp, idle] using hi)
    fun u v => putAll_solo ..).trans ?_)
  rw [← hv]
  rfl

/-- RPOP waits for its source and for a filled slot of a live ring only. -/
theorem rpop_unheld (hu : unheld s T [rA f]) (hn : ∀ h, (engaged s T [rA f]).2 = [.ok h] → ringOk s (coreOf T) h = false) :
    (rpopOp f).rdBusy (opened s T) [T] T = false := by
  simp only [rpopOp, src_busy hu, Bool.false_or]
  split
  case h_1 h hp =>
    have hv : (engaged s T [rA f]).2 = [.ok h] := congrArg (fun p => [(settle (opened s T) T p).2]) hp
    rw [ringOk_opened, hn h hv, Bool.false_and]
  case h_2 => rfl

/-- RPOP with a poisoned handle hands the token on (R131). -/
theorem rpopOp_eff_bad (u : State) (k : Tok) : (rpopOp f).eff u T [T] (.bad k) = (u, .bad k) := rfl

/-- RPOP with a handle of no live ring (R309). -/
theorem rpopOp_eff_stale {u : State} {h : Nat} (hk : ringOk u (coreOf T) h = false) :
    (rpopOp f).eff u T [T] (.ok h) = ((raise u T cSTALE).1, .bad (raise u T cSTALE).2) := by
  simp only [rpopOp, hk, Bool.false_eq_true, if_false]

/-- RPOP of a live ring takes the slot at its pop cursor (R309). -/
theorem rpopOp_eff_live {u : State} {h : Nat} (hk : ringOk u (coreOf T) h = true) : (rpopOp f).eff u T [T] (.ok h) =
    let g := ringOf u T h
    (setRing u T h { g with filled := g.filled - 1, held := g.held + 1, popAt := (g.popAt + 1) % g.nslot },
      .ok (g.tile.toNat * 2 ^ 16 + g.popAt * g.slotB)) := by
  simp only [rpopOp, hk, if_true, setRing, ringOf]

end

/-! ### Operand queues (R312) -/

/-- The end of a leg's replays is no part of a thread's queues. -/
theorem queues_noReplay (s : State) (T U : Tid) : ((noReplay s [T]).thr U).queues = (s.thr U).queues := by
  rw [noReplay_solo]
  by_cases hU : U = T
  · subst hU
    cases hl : s.live U
    · rw [State.modThr_dead _ _ hl]
    · rw [State.thr_modThr _ _ hl]
  · rw [State.thr_modThr_ne _ _ hU]

theorem queueOf_engaged (s : State) (T : Tid) (q : BitVec 3) : queueOf ((noReplay (opened s T) [T]).thr T) q = queueOf (s.thr T) q := by
  rw [queueOf, queueOf, queues_noReplay, opened_thr]

section
variable {s : State} {T : Tid} {f : RForm} (h : Solo s T f.x) (hc : inClass s 1) (hi : idle s T f.d.start.toNat f.d.slices)
include h hc hi

/-- QPOP of one thread that does not wait for an element: its effect, written to D. -/
theorem qpop_solo (q : BitVec 3) (hw : (queueOf (s.thr T) q).elems = [] → (queueOf (s.thr T) q).bound = false) :
    let b := (qpopOp q f.d).eff (noReplay (opened s T) [T]) T [T] ()
    exec (.qpop q f) s = .next (ended (wrote b.1 T f.d.start.toNat f.d.slices b.2) T none 1) := by
  have hr : (qpopOp q f.d).rdBusy (opened s T) [T] T = false := by
    simpa only [qpopOp, opened_thr, Bool.and_eq_false_imp, List.isEmpty_iff] using hw
  exact next_eq (resultWord_solo (o := qpopOp q f.d) h hc _ _ hr (by simpa [qpopOp, idle] using hi)
    fun u v => putAll_solo ..)

/-- QSTAT of one thread: its queue's report, written to D. -/
theorem qstat_solo (q : BitVec 3) : exec (.qstat q f) s
    = .next (ended (wrote (noReplay (opened s T) [T]) T f.d.start.toNat f.d.slices (.ok (qstat (s.thr T) q % 2 ^ f.d.bits))) T none 1) := by
  refine next_eq ((engine_word (o := queryOp f.d fun s t => qstat (s.thr t) q) _ _ h (by decide) (by decide) hc rfl
    (by simpa [queryOp, idle] using hi)).trans ?_)
  unfold WordOp.left
  simp only [WordOp.noReplay, queryOp, putAll_solo, qstat, queueOf_engaged]
  rfl

end

/-- QPOP of an empty queue (R312). -/
theorem qpopOp_eff_empty {u : State} {T : Tid} {q : BitVec 3} {d : Opd} (he : (queueOf (u.thr T) q).elems = []) :
    (qpopOp q d).eff u T [T] () = ((raise u T cBND).1, .bad (raise u T cBND).2) := by
  simp only [qpopOp, he]

/-- A queue's element as D takes it. -/
def Val.cut (n : Nat) : Val → Val
  | .ok a => .ok (a % 2 ^ n)
  | .bad k => .bad k

/-- QPOP of a queue with elements takes the oldest (R312). -/
theorem qpopOp_eff_elem {u : State} {T : Tid} {q : BitVec 3} {d : Opd} {v : Val} {vs : List Val}
    (he : (queueOf (u.thr T) q).elems = v :: vs) : (qpopOp q d).eff u T [T] () =
      let p := queueOf (u.thr T) q
      (u.modThr T fun x =>
        { x with queues := tset q.toNat { p with elems := vs, bound := p.bound && !(vs.isEmpty && p.left == 0) } x.queues },
        v.cut d.bits) := by
  simp only [qpopOp, he]
  cases v <;> rfl

/-- Settles O33: SRING answers at once (`strVal_solo`), SRING.free and RREL act on their handle (`sringFreeOp_eff_ok`, `rrelOp_eff_ok`);
RPOP and QPOP write to D what `rpopOp_eff_stale`, `rpopOp_eff_live`, `qpopOp_eff_empty` and `qpopOp_eff_elem` give, QSTAT its report. -/
theorem ringAndQueueResults : Obligations.RingAndQueueResults := by
  intro s T f h hc c ring live put
  have notOk {u : State} {v : Nat} (hn : ¬ live u v) : ringOk u c v = false := by
    rw [← Bool.not_eq_true]
    exact mt (ringOk_iff u T v).1 hn
  refine ⟨fun hf => congrArg Host.Outcome.next ?sring, fun hb => congrArg Host.Outcome.next ?free,
    fun hu hl hr => congrArg Host.Outcome.next ?rrel, fun hi => ⟨fun hu => ⟨fun k ha => ?poisoned, fun v ha =>
      ⟨fun hn hs => ?stale, fun hb hv => ?slot⟩⟩, fun q => ⟨fun he hb => ?empty, fun v vs he => ?elem, ?qstat⟩⟩⟩
  case sring => exact strVal_solo _ _ h (by decide) (by decide) hc hf
  case free =>
    exact actsWord_solo h hc hb fun u v =>
      (sringFreeOp_eff_ok f u T v).trans (congrArg (recorded T) (if_congr (ringOk_iff u T v) rfl rfl))
  case rrel =>
    have hb : (rrelOp f).rdBusy (opened s T) [T] T = false := by
      simp only [rrelOp, src_busy hu, Bool.false_or, Bool.or_eq_false_iff]
      exact ⟨by rw [← hl, loadsOut, loadsOut, opened_core], by rw [← hr, scratchReads, scratchReads, opened_core]⟩
    exact actsWord_solo h hc hb fun u v =>
      (rrelOp_eff_ok f u T v).trans (congrArg (recorded T) (if_congr (ringOk_iff u T v) rfl rfl))
  case poisoned =>
    have hb := rpop_unheld hu fun v hv => by cases ha.symm.trans hv
    have hp := rpop_solo h hc hi hb ha
    rwa [rpopOp_eff_bad] at hp
  case stale =>
    have hb := rpop_unheld hu fun w hw => by
      cases ha.symm.trans hw
      exact notOk hs
    have hp := rpop_solo h hc hi hb ha
    rwa [rpopOp_eff_stale (notOk hn)] at hp
  case slot =>
    have hp := rpop_solo h hc hi hb ha
    rwa [rpopOp_eff_live ((ringOk_iff _ T v).2 hv)] at hp
  case empty =>
    have hp := qpop_solo h hc hi q fun _ => hb
    rwa [qpopOp_eff_empty ((congrArg OpQueue.elems (queueOf_engaged s T q)).trans he)] at hp
  case elem =>
    have hp := qpop_solo h hc hi q fun hn => absurd (hn.symm.trans he) (List.cons_ne_nil _ _).symm
    rw [qpopOp_eff_elem ((congrArg OpQueue.elems (queueOf_engaged s T q)).trans he), queueOf_engaged] at hp
    cases v <;> exact hp
  case qstat => exact qstat_solo h hc hi q

end Sys2Proof.Machine
end

section
/-! What the words of the matrix engine leave at their issue, run by one thread (R320 to R322, R328, R331). -/

namespace Sys2Proof.Machine

/-! ### The accumulator commands and MSTAT at issue (R328, R331) -/

/-- A matrix command of one thread that nothing holds, with room in its core's queue (R318). -/
theorem matIssue_solo {s : State} {T : Tid} {f : RForm} {rs : List Src} (g : List Nat → MatOp) (h : Solo s T f.x) (hc : inClass s 2)
    (hq : (s.core (coreOf T)).matQ.length < 8) (hf : cmdFree s T .m (if f.r4 then some f.d else none) rs) :
    cmdWord 2 false f.x (matIssue f rs g) s
      = commanded s T .m (if f.r4 then some f.d else none) rs fun u id l => (matAdd g u T [T] id l).1 := by
  have room : matFull (opened s T) (coreOf T) = false := by
    rw [matFull, opened_core, decide_eq_false_iff_not]
    omega
  exact cmd_solo (matIssue f rs g) h (by decide) (by decide) hc hf room fun _ _ _ => rfl

/-- Word 0 of MSTAT, read off the queue's front command where that is under way. -/
theorem mstat_queue (u : State) (T : Tid) (h : Nat) : mstat u T 0 h =
    let way := (u.core (coreOf T)).matQ.head?.filter fun q => q.started
    let left := match way.map MatCmd.op with
      | some (.loop _ _ _ _ _ _ n _ _ _) => n + 1 - ((way.map MatCmd.step).getD 0)
      | _ => 0
    (if (if way.isSome then (u.core (coreOf T)).narrow else u.host.alarm) then 1 else 0) + (if way.isSome then 2 else 0)
      + min 8 (u.core (coreOf T)).matQ.length * 4 + left * 64 := by
  simp only [mstat, narrowNow]
  obtain ⟨q, hq⟩ : ∃ q, (u.core (coreOf T)).matQ = q := ⟨_, rfl⟩
  cases q with
  | nil =>
    simp only [hq]
    rfl
  | cons k l =>
    simp only [hq]
    cases hk : k.started
    · simp [hk, Option.filter]
    · simp only [hk, if_true, List.head?_cons, Option.filter, Option.map_some, Option.isSome_some]
      cases k.op <;> rfl

/-! ### MLOOP at issue (R320 to R322) -/

/-- Reads of sources and of one more. -/
theorem readSrcs_snoc (acts : List Tid) (t : Tid) (rs : List Src) (r : Src) (s : State) : readSrcs acts t (rs ++ [r]) s =
    let a := readSrcs acts t rs s
    let b := r.read a.1 acts t
    (b.1, a.2 ++ [b.2]) := by
  induction rs generalizing s with
  | nil => rfl
  | cons q rs ih => simp only [List.cons_append, readSrcs, ih]

theorem length_readSrcs (acts : List Tid) (t : Tid) (rs : List Src) (s : State) : (readSrcs acts t rs s).2.length = rs.length := by
  induction rs generalizing s with
  | nil => rfl
  | cons q rs ih => simp only [readSrcs, List.length_cons, ih]

section
variable (f : XForm) (s u : State) (T : Tid)

/-- MLOOP's reads: its handle block, whose last operand counts for poison only where no earlier loop is to write it, then the scale words of
a binary8 format. -/
theorem mloopOp_rd : (mloopOp f).rd s [T] T =
    let h := f.h.toNat
    let b := 8 * f.bsel.toNat
    let r := readSrcs [T] T [hSrc h 0 4, hSrc h 4 4, hSrc h 8 4, hSrc h 12 8] s
    let x := if fmtInt f.fmt then (r.1, [], []) else scaleReads T (f.sc.toNat + b) (List.range 32) [] r.1
    let y := if fmtInt f.fmt then (x.1, [], []) else scaleReads T (f.sc.toNat + 64 + b) (List.range 32) x.2.2 x.1
    (y.1, ⟨if (offFrom s T h).isSome then r.2.take 3 else r.2, match offFrom s T h with
      | some id => .after id (arg (r.2.map Val.num) 3)
      | none => .word (arg (r.2.map Val.num) 3), x.2.1, y.2.1⟩) := by
  have hr := readSrcs_snoc [T] T [hSrc f.h.toNat 0 4, hSrc f.h.toNat 4 4, hSrc f.h.toNat 8 4] (hSrc f.h.toNat 12 8) s
  have hlen := length_readSrcs [T] T [hSrc f.h.toNat 0 4, hSrc f.h.toNat 4 4, hSrc f.h.toNat 8 4] s
  simp only [List.cons_append, List.nil_append] at hr
  simp only [mloopOp, hr]
  generalize readSrcs [T] T [hSrc f.h.toNat 0 4, hSrc f.h.toNat 4 4, hSrc f.h.toNat 8 4] s = r at hlen ⊢
  generalize (hSrc f.h.toNat 12 8).read r.1 [T] T = o
  have harg : arg ((r.2 ++ [o.2]).map Val.num) 3 = o.2.num := by simp [arg, hlen]
  have htake : (r.2 ++ [o.2]).take 3 = r.2 := List.take_left' hlen
  rw [harg, htake]
  cases fmtInt f.fmt <;> cases offFrom s T f.h.toNat <;> simp

/-- MLOOP's handle and pending slices, and its end where an operand is poisoned. -/
theorem mloopOp_put (i : Issued) : (mloopOp f).put u [T] i =
    let s3 := if f.fe then markPend (wrote u T f.fd.toNat 4 (.ok i.h)) T f.fd.toNat 4 i.id true else u
    let s4 := if f.ainc then markPend s3 T (f.h.toNat + 12) 8 i.id false else s3
    match i.now_ with
    | some k => completeCmd s4 (coreOf T) i.id k
    | none => s4 := by
  simp only [mloopOp, putHandle, putAll_solo]
  rfl

end

/-- What an MLOOP leaves behind its reads: its command, its future's handle, and its offset slices pending with AINC. -/
theorem mloop_left {f : XForm} {s : State} {T : Tid} {a : State × LoopArgs} (hr : (mloopOp f).rd s [T] T = a) :
    (mloopOp f).noReplay.left s T =
      let c := coreOf T
      let n := (noReplay a.1 [T]).fresh c
      let s1 := issueCmd n.1 .m n.2 [T]
      let w := if f.fe then allocFut s1 c .m n.2 else (s1, 0)
      let hv := fun (i : Nat) => BitVec.ofNat 16 (arg (a.2.hs.map Val.num) i)
      let op : MatOp := .loop (hv 0) (hv 1) (hv 2) a.2.off a.2.sa a.2.sb f.kcnt.toNat f.fmt f.ainc f.h.toNat
      let s2 := if (lowTok a.2.hs).isSome then w.1 else (matAdd (fun _ => op) w.1 T [T] n.2 []).1
      let s3 := if f.fe then markPend (wrote s2 T f.fd.toNat 4 (.ok w.2)) T f.fd.toNat 4 n.2 true else s2
      let s4 := if f.ainc then markPend s3 T (f.h.toNat + 12) 8 n.2 false else s3
      (match lowTok a.2.hs with | some k => completeCmd s4 c n.2 (some k) | none => s4, none) := by
  unfold WordOp.left
  simp only [WordOp.noReplay, hr, mloopOp_put]
  simp only [mloopOp]
  cases lowTok a.2.hs <;> rfl

/-- Operands of a computation before a place. -/
theorem arg_take {l : List Nat} {n i : Nat} (h : i < n) : arg (l.take n) i = arg l i := by
  simp [arg, List.getD_eq_getElem?_getD, h]

/-- The handles of a loop, whether its offset is read or not. -/
theorem arg_handles (p : Prop) [Decidable p] (l : List Val) {i : Nat} (h : i < 3) :
    arg ((if p then l.take 3 else l).map Val.num) i = arg (l.map Val.num) i := by
  split
  · rw [List.map_take, arg_take h]
  · rfl

/-- Settles O34: each accumulator command is `matIssue_solo` with the command that its operands give, MSTAT answers at once
(`strVal_solo`), and MLOOP leaves what `mloopOp_rd` reads and `mloopOp_put` writes. -/
theorem matrixCommandResults : Obligations.MatrixCommandResults := by
  intro s T hc c enter
  refine ⟨fun f h hq => ?commands, fun f k h => fun hf => congrArg Host.Outcome.next ?mstat,
    fun f h hr hw => congrArg Host.Outcome.next ?mloop⟩
  case commands =>
    intro fut asks
    have issued {rs : List Src} (g : List Nat → MatOp) (hf : cmdFree s T .m fut rs) :
        (.next (cmdWord 2 false f.x (matIssue f rs g) s) : Out) = .next (asks rs g) := next_eq (matIssue_solo g h hc hq hf)
    exact ⟨fun hf => issued _ hf,
      fun hf => ⟨issued _ hf, issued _ hf, fun _ _ _ _ => ⟨issued _ hf, issued _ hf⟩, fun _ _ _ => issued _ hf⟩⟩
  case mstat =>
    refine (strVal_solo _ _ h (by decide) (by decide) hc hf).trans ?_
    refine congrArg (engineDone s T f.d _) (funext fun u => funext fun l => congrArg (Prod.mk u) ?_)
    have kinds : ∀ j : BitVec 2, j = 0 ∨ j = 1 ∨ j = 2 ∨ j = 3 := by decide
    obtain rfl | rfl | rfl | rfl := kinds k
    · exact mstat_queue u T _
    · rfl
    · rfl
    · rfl
  case mloop =>
    refine (engine_word _ _ h (by decide) (by decide) hc hr hw).trans ?_
    rw [mloop_left (mloopOp_rd ..), max_eq_right (Nat.le_add_right ..)]
    simp only [arg_handles _ _ (by decide : 0 < 3), arg_handles _ _ (by decide : 1 < 3), arg_handles _ _ (by decide : 2 < 3)]
    rfl

end Sys2Proof.Machine
end

section
/-! The elements of a matrix step, and the matrix engine's events (R317 to R334). -/

namespace Sys2Proof.Machine

/-! ### One element in one step (R324 to R326) -/

/-- Terms added one by one onto a number. -/
theorem foldl_add_eq_sum {α : Type} (g : α → Int) (l : List α) (z : Int) : l.foldl (fun z p => z + g p) z = z + (l.map g).sum := by
  induction l generalizing z with
  | nil => simp
  | cons a l ih => rw [List.foldl_cons, ih, List.map_cons, List.sum_cons, Int.add_assoc]

section
variable {f : BitVec 6} {as_ bs : List Nat} {sa sb acc : Val}

/-- An integer element with a clean accumulator. -/
theorem elemStep_int (hf : fmtInt f = true) (o : Nat) : elemStep f (.ok as_) (.ok bs) sa sb (.ok o) =
    let rd := fun (v : Nat) => if f.getLsbD 1 then (v : Int) else toSigned (fmtW f) v
    let z := (if f.getLsbD 1 then (o : Int) else toSigned 32 o) + ((as_.zip bs).map fun p => rd p.1 * rd p.2).sum
    .word (.ok (z % 2 ^ 32).toNat) (decide (if f.getLsbD 1 then z < 0 ∨ 2 ^ 32 ≤ z else z < -2 ^ 31 ∨ 2 ^ 31 ≤ z)) := by
  simp only [elemStep, hf, if_true, intStep, foldl_add_eq_sum]
  cases f.getLsbD 1 <;> simp [wrapTo]

theorem elemStep_int_poisoned (hf : fmtInt f = true) (k : Tok) : elemStep f (.ok as_) (.ok bs) sa sb (.bad k) = .word (.bad k) false := by
  simp only [elemStep, hf, if_true]

section
variable (hf : fmtInt f = false)
include hf

theorem elemStep_b8_poisoned {k : Tok} (h : lowTok [sa, sb, acc] = some k) :
    elemStep f (.ok as_) (.ok bs) sa sb acc = .word (.bad k) false := by
  simp only [elemStep, hf, h, Bool.false_eq_true, if_false]

variable (h : lowTok [sa, sb, acc] = none)
include h

theorem elemStep_b8_invalid (hx : sa.num = 0xFF ∨ sb.num = 0xFF) : elemStep f (.ok as_) (.ok bs) sa sb acc = .inv := by
  simp only [elemStep, hf, h, if_pos hx, Bool.false_eq_true, if_false]

theorem elemStep_b8 (hx : ¬ (sa.num = 0xFF ∨ sb.num = 0xFF)) : elemStep f (.ok as_) (.ok bs) sa sb acc =
    let products := (as_.zip bs).map fun p =>
      prodFv ((fmtB8 f).decode p.1) ((fmtB8 f).decode p.2) ((sa.num : Int) - 127 + ((sb.num : Int) - 127))
    let t := ((products.foldl Dot.add (.fin 0 0)).round 0).getD f32.nanBits
    .word (.ok (rne32Add (f32.decode acc.num) (f32.decode t))) false := by
  simp only [elemStep, hf, h, if_neg hx, Bool.false_eq_true, if_false, b8Step, List.foldl_map]

end
end

/-- Settles O35: an element's token comes from its planes, then its scales and accumulator; a clean one is `elemStep_int` or `elemStep_b8`. -/
theorem matrixStepElements : Obligations.MatrixStepElements :=
  ⟨fun _ _ _ _ _ _ _ => ⟨rfl, rfl⟩, fun _ _ _ _ _ o hf => ⟨elemStep_int hf o, elemStep_int_poisoned hf⟩,
    fun _ _ _ _ _ _ hf => ⟨fun _ => elemStep_b8_poisoned hf, elemStep_b8_invalid hf,
      fun h hA hB => elemStep_b8 hf h (not_or.2 ⟨hA, hB⟩)⟩⟩

/-! ### The engine's events (R318, R323 to R334) -/

section
variable {s : State} {c : Nat} {k : MatCmd} {l : List MatCmd}

section
variable (hq : (s.core c).matQ = k :: l)
include hq

theorem exec_matrixCommandStart (hs : k.started = false) (hn : k.stopAt = none) :
    exec (.matrixCommandStart c) s = .next (matBegin s c k) := by
  refine congrArg Host.Outcome.next ?_
  rw [hq]
  exact if_neg (by simp [hs, hn])

theorem exec_mloopStep (hs : k.started = true) (mismatch : Bool) : exec (.mloopStep c mismatch) s = .next (loopStep s c k mismatch) := by
  refine congrArg Host.Outcome.next ?_
  rw [hq]
  exact if_pos hs

theorem exec_matrixCommandComplete (hs : k.started = true) : exec (.matrixCommandComplete c) s = .next (matFinish s c k) := by
  refine congrArg Host.Outcome.next ?_
  rw [hq]
  exact if_pos hs

end

section
variable {acc a b : BitVec 16} {off : OffSrc} {sa sb : List Val} {n : Nat} {f : BitVec 6} {i : Bool} {h : Nat}
  (hk : k.op = .loop acc a b off sa sb n f i h)
include hk

/-- A step of a loop that has steps left and has not reached a boundary to stop at (R324, R333). -/
theorem loopStep_steps (hn : k.step ≤ n) (ht : k.stopAt ≠ some k.step) (mismatch : Bool) : loopStep s c k mismatch =
    let r := runStep s c k acc.toNat a.toNat b.toNat (off.num + 8 * k.step) sa sb f
    let s1 := r.1.modCore c fun x => { x with stepCnt := x.stepCnt + 1, narrow := r.1.host.alarm }
    let q := raiseAt s1 k.lead k.pc cSDC 0
    let s2 := if mismatch then (setTileWords q.1 c acc.toNat 0 (List.replicate 16384 (.bad q.2))).modCore c fun x =>
      { x with sdcCnt := min (2 ^ 32 - 1) (x.sdcCnt + 1) } else s1
    matSet s2 c { r.2 with
      step := k.step + 1, due := s2.now + if k.step + 1 ≤ n ∧ k.stopAt ≠ some (k.step + 1) then stepCycles f s2.host.alarm else 0 } := by
  have hgo : (decide (k.step > n) || k.stopAt == some k.step) = false := by simp [hn, ht]
  have hmore : (decide (k.step + 1 ≤ n) && k.stopAt != some (k.step + 1)) = decide (k.step + 1 ≤ n ∧ k.stopAt ≠ some (k.step + 1)) := by
    rw [Bool.eq_iff_iff]
    simp
  simp only [loopStep, hk, hgo, hmore, decide_eq_true_eq, Bool.false_eq_true, if_false]
  rfl

/-- A loop whose steps are done (R327, R331). -/
theorem matFinish_done (hn : n < k.step) (hc : k.cancelled = false ∨ k.stopAt ≠ some k.step) : matFinish s c k =
    let s1 := if k.ovf then setOvf s c acc.toNat true else s
    matEnd s1 c k (some (off.num + 8 * k.step)) (firstBad (tileWords s1 c acc.toNat 0 16384)) := by
  have hgo : ¬ (k.cancelled && k.stopAt == some k.step) = true := by simpa [or_iff_not_imp_left] using hc
  simp only [matFinish, hk, if_neg hgo, if_pos hn]
  rfl

/-- A loop that stands cancelled at its boundary (R334). -/
theorem matFinish_cancelled (hc : k.cancelled = true) (ht : k.stopAt = some k.step) : matFinish s c k =
    let s1 := if k.ovf then setOvf s c acc.toNat true else s
    matEnd (raiseAt s1 k.lead k.pc cUSER 0).1 c k (some (off.num + 8 * k.step)) (some (raiseAt s1 k.lead k.pc cUSER 0).2) := by
  have hgo : (k.cancelled && k.stopAt == some k.step) = true := by simp [hc, ht]
  simp only [matFinish, hk, if_pos hgo]
  rfl

section
variable (hs : k.started = true) (hn : k.step ≤ n)
include hs hn

/-- A loop under way with steps left stops at the boundary after the step under way, if any (R334, R335). -/
theorem MatCmd.stop_underWay : (k.stop s c).step = k.step ∧ (k.stop s c).stopAt = some (if k.inStep s c then k.step + 1 else k.step) := by
  have hgo : (!k.started || decide (k.step > n)) = false := by simp [hs, hn]
  simp only [MatCmd.stop, hk, hgo, Bool.false_eq_true, if_false]
  cases k.inStep s c <;> exact ⟨rfl, rfl⟩

theorem matCancel_underWay : matCancel s c k = matSet s c { (k.stop s c) with cancelled := true } := by
  have hgo : ¬ k.step > n := by omega
  simp only [matCancel, hk, hs, if_true, if_neg hgo]

end
end

/-- Settles O36: one lemma per event and case of the front command. -/
theorem matrixEngineEvents : Obligations.MatrixEngineEvents := by
  intro s c k l hq
  refine ⟨exec_matrixCommandStart hq, fun acc a b off sa sb n f i h hs hk => ?loop, fun acc hs hk => ?zero⟩
  case loop =>
    exact ⟨fun hn ht m => (exec_mloopStep hq hs m).trans (next_eq (loopStep_steps hk hn ht m)),
      ⟨fun hn hc => (exec_matrixCommandComplete hq hs).trans (next_eq (matFinish_done hk hn hc)),
        fun hc ht => (exec_matrixCommandComplete hq hs).trans (next_eq (matFinish_cancelled hk hc ht))⟩,
      fun hn => ⟨matCancel_underWay hk hs hn, MatCmd.stop_underWay hk hs hn⟩⟩
  case zero =>
    refine (exec_matrixCommandComplete hq hs).trans (next_eq ?_)
    simp only [matFinish, hk]
    rfl

end

end Sys2Proof.Machine
end

section
/-! Fabric commands: what they leave at their issue, run by one thread, and what their engine does as it takes one up (R352 to R360). -/

namespace Sys2Proof.Machine

/-! ### Issue (R352) -/

section
variable {sup : Bool} {bad : State → Bool} {x : Pfx} {fut : Option Opd} {rs : List Src} {g : List Nat → FabKind} {s : State} {T : Tid}

/-- A fabric command of one thread that nothing holds and no check stops. -/
theorem fabWord_solo (h : Solo s T x) (hc : inClass s 4) (hp : sup = true → (s.thr T).priv = true) (hb : bad s = false)
    (hf : cmdFree s T .f fut rs) : fabWord sup bad x fut rs g s
      = ended ((fabOp fut rs g).noReplay.left (opened s T) T).1 T none (max 1 (1 + crossCost rs)) := by
  obtain ⟨hu, hk, hd⟩ := hf
  have hg : gateTrap s ({ cls := some 4, sup := sup, bad := fun s acts _ => !acts.isEmpty && bad s } : Gate) x [T] = none :=
    gate_pass (admitted_inClass hc) nofun (fun h1 => by rw [h.pack, anyUser_solo, hp h1]; rfl) hb rfl rfl
  unfold fabWord
  rw [runWord_solo _ (fabOp fut rs g) _ _ h rfl hg ?reads ?writes, gated_engine _ rfl]
  case reads =>
    simp only [fabOp, busySrcs_free hu, Bool.false_or]
    cases fut with
    | none => rfl
    | some d => simpa [futFull] using (hd d rfl).2
  case writes =>
    simp only [fabOp, countFull_opened hk, Bool.false_or]
    cases fut with
    | none => rfl
    | some d => simpa [idle] using (hd d rfl).1
  rfl

/-- A fabric command's handle in D, for one thread (R20, R21). -/
theorem putHandle_solo (u : State) (i : Issued) : putHandle u [T] fut i = match fut with
    | none => u
    | some d => markPend (wrote u T d.start.toNat d.slices (.ok i.h)) T d.start.toNat d.slices i.id true := by
  cases fut with
  | none => rfl
  | some d => simp only [putHandle, putAll_solo]; rfl

end

/-! ### RSTAT (R360) -/

/-- RSTAT reads the fabric engine, the time and its core. -/
theorem rstat_congr {s u : State} {c : Nat} (hf : u.fab = s.fab) (hn : u.now = s.now) (hc : u.core c = s.core c) (k : Nat) :
    rstat u c k = rstat s c k := by
  have slots : roseSlots u = roseSlots s := by rw [roseSlots, roseSlots, hf]
  have slot : curSlot u = curSlot s := by rw [curSlot, curSlot, slots, hf, hn]
  have cycle : curCycle u = curCycle s := by rw [curCycle, curCycle, slots, hf, hn]
  have posted : postedOut u c = postedOut s c := by rw [postedOut, postedOut, hf]
  unfold rstat
  rw [hf, hc, slots, slot, cycle, posted]

theorem rstat_engaged (s : State) (T : Tid) (c k : Nat) : rstat (noReplay (opened s T) [T]) c k = rstat s c k := by
  rw [noReplay_solo]
  exact rstat_congr (by simp) (by simp) (by simp) k

/-- RSTAT of one thread: the word asked for, written to D. -/
theorem rstat_solo {s : State} {T : Tid} {f : RForm} (k : BitVec 3) (h : Solo s T f.x) (hc : inClass s 4)
    (hi : idle s T f.d.start.toNat f.d.slices) : exec (.rstat k f) s = .next (ended (wrote (noReplay (opened s T) [T]) T f.d.start.toNat
      f.d.slices (.ok (rstat s (coreOf T) k.toNat % 2 ^ f.d.bits))) T none 1) := by
  refine next_eq ((engine_word (o := queryOp f.d fun s t => rstat s (coreOf t) k.toNat) _ _ h (by decide) (by decide) hc rfl
    (by simpa [queryOp, idle] using hi)).trans ?_)
  unfold WordOp.left
  simp only [WordOp.noReplay, queryOp, putAll_solo, rstat_engaged]
  rfl

/-- Settles O39: a command leaves what `fabOp` does behind its reads (`fabWord_solo`), its handle as `putHandle_solo` has it; RSTAT is
`rstat_solo`. -/
theorem fabricCommandResults : Obligations.FabricCommandResults := by
  intro s T hc c asks
  have asked {sup : Bool} {bad : State → Bool} {x : Pfx} {fut : Option Opd} {rs : List Src} (g : List Nat → FabKind) (h : Solo s T x)
      (hp : sup = true → (s.thr T).priv = true) (hb : bad s = false) (hf : cmdFree s T .f fut rs) :
      (.next (fabWord sup bad x fut rs g s) : Out) = .next (asks fut rs g) := by
    refine next_eq ((fabWord_solo h hc hp hb hf).trans ?_)
    unfold WordOp.left
    simp only [WordOp.noReplay, fabOp, putHandle_solo]
    dsimp only [asks, engaged]
    cases lowTok (readSrcs [T] T rs (opened s T)).2 <;> rfl
  refine ⟨fun f h => ⟨fun hf => ⟨asked _ h nofun rfl hf, fun hp => asked _ h (fun _ => hp) rfl hf⟩,
      fun hf => ⟨asked _ h nofun rfl hf, asked _ h nofun rfl hf, asked _ h nofun rfl hf⟩⟩,
    fun f h => fun hf => ⟨asked _ h nofun rfl hf, asked _ h nofun rfl hf, fun _ _ => asked _ h nofun rfl hf,
      fun hp hr => asked _ h (fun _ => hp) hr hf⟩,
    fun f k h hi => rstat_solo k h hc hi⟩

/-! ### What the engine does as it takes a command up (R353 to R356) -/

section
variable {s : State} {c : Nat} {k : FabCmd}

/-- A command that ends with a token ends as any other, also an FBAR. -/
theorem fabEnd_token (s : State) (c : Nat) (k : FabCmd) (t : Tok) : fabEnd s c k (some t) = fabOver s c k.id (some t) := by
  unfold fabEnd
  cases k.kind <;> rfl

/-- A command that ends with a fresh token. -/
theorem fabFail_eq (s : State) (c : Nat) (k : FabCmd) (cause : Nat) (a : W64) :
    fabFail s c k cause a = fabOver (raiseAt s k.lead k.pc cause a).1 c k.id (some (raiseAt s k.lead k.pc cause a).2) := fabEnd_token ..

theorem isSelf_iff (s : State) (d : Nat) : isSelf s d = true ↔ d = 0 ∨ d = s.fab.dev.toNat := by simp [isSelf]

/-! FLUSHR (R353). -/

section
variable {d : Nat} (hk : k.kind = .flushr d) (hs : k.sent = false)
include hk hs

theorem fabGo_flushr_self (hd : d = 0 ∨ d = s.fab.dev.toNat) : fabGo s c k = fabOver s c k.id none := by
  simp only [fabGo, hk, hs, Bool.not_false, if_true, flushrGo, (isSelf_iff s d).2 hd, fabEnd]

theorem fabGo_flushr_unreachable (hd : ¬ (d = 0 ∨ d = s.fab.dev.toNat)) (hr : reachable s d = false) :
    fabGo s c k = fabFail s c k cPEER := by
  simp only [fabGo, hk, hs, Bool.not_false, if_true, flushrGo, if_neg (mt (isSelf_iff s d).1 hd), hr]

end

/-! DRAIN of no port (R356). -/

theorem fabGo_drain_none (hk : k.kind = .drain 0) (hs : k.sent = false) : fabGo s c k = fabOver s c k.id none := by
  simp only [fabGo, hk, hs, Bool.not_false, if_true, drainGo, fabEnd]

/-! FBAR (R355). -/

section
variable {b a : Nat} {step : Bool} (hk : k.kind = .fbar b step a) (hs : k.sent = false) (hf : k.freed = false)
include hk hs hf

theorem fabGo_fbar_bad (hb : bitsOf a 11 0 = 0 ∨ bitsOf a 15 12 ≠ 0 ∨ bitsOf a 31 28 ≠ 0) : fabGo s c k = fabFail s c k cBND := by
  simp only [fabGo, hk, hs, hf, Bool.not_false, Bool.false_eq_true, if_false, if_true, fbarGo, if_pos hb]

theorem fabGo_fbar_unreachable (hb : ¬ (bitsOf a 11 0 = 0 ∨ bitsOf a 15 12 ≠ 0 ∨ bitsOf a 31 28 ≠ 0))
    (hd : ¬ (bitsOf a 27 16 = 0 ∨ bitsOf a 27 16 = s.fab.dev.toNat)) (hr : reachable s (bitsOf a 27 16) = false) :
    fabGo s c k = fabFail s c k cPEER := by
  have hself : isSelf s (bitsOf a 27 16) = false := Bool.eq_false_iff.2 (mt (isSelf_iff ..).1 hd)
  simp only [fabGo, hk, hs, hf, Bool.not_false, Bool.false_eq_true, if_false, if_true, fbarGo, if_neg hb, hself, hr, Bool.and_self]

end

/-! FSIG (R354). -/

/-- A signal word written, or added to, in bytes. -/
theorem signalHome_bytes (u : State) (by_ : Option Nat) (pa : Nat) (add sz : Bool) (v : Nat) : signalHome u by_ pa add sz v =
    let size := if sz then 8 else 4
    if add then (match homeRead u (pa / 4) (size / 4) with
        | some o => homeNum u by_ pa ((o + v) % 2 ^ (8 * size)) (size / 4)
        | none => u)
      else homeNum u by_ pa v (size / 4) := by
  cases sz <;> rfl

/-- A command whose writes are complete and that nothing failed (R225, R354). -/
theorem fabClose_clean (hf : k.fault = none) (hl : k.lines = []) :
    fabClose s c k = if acked s c then fabEnd s c k none else fabSet s c k := by
  have hfirst : k.str.firstFail = none := by
    simp only [StrCmd.firstFail, FabCmd.str, hf, hl]
    rfl
  simp only [fabClose, hfirst, hl]
  rfl

section
variable {add sz : Bool} {va : W64} {v : Nat} (hk : k.kind = .fsig add sz va v) (hs : k.sent = false)
include hk hs

theorem fabGo_fsig_misaligned (ha : va.toNat % (if sz then 8 else 4) ≠ 0) : fabGo s c k = fabFail s c k cBND va := by
  simp only [fabGo, hk, hs, Bool.not_false, if_true, fsigGo, if_pos ha]

/-- A signal to a page of this device. -/
theorem fabGo_fsig_home (ha : va.toNat % (if sz then 8 else 4) = 0) {p : Page} (hp : p.peer = 0)
    (hx : (strXlat s c k.str .store va).2 = .ok p) : fabGo s c k =
      let z := signalHome (setDC (strXlat s c k.str .store va).1 p) (some c) p.pa add sz v
      fabClose (dropL1 (dropL1 z c (p.pa / 4)) c (p.pa / 4 + if sz then 1 else 0)) c { k with sent := true } := by
  simp only [fabGo, hk, hs, Bool.not_false, if_true, fsigGo, if_neg (not_not.2 ha), hx, hp]

end

/-! FPUT and FGET (R354). -/

section
variable {va : W64} {sa : BitVec 32} {n : Nat}

/-- The tile that a scratch address names (R354). -/
theorem saH_word (sa : BitVec 32) : saH sa.toNat = sa.toNat / 2 ^ 16 := Nat.mod_eq_of_lt (by have := sa.isLt; omega)

theorem moveFail_tile {f : Nat} (ht : tileFail s c (sa.toNat / 2 ^ 16) ⟨k.asid, k.frames⟩ true 0 0 = some f) :
    moveFail s c k va sa.toNat n = some f := by
  rw [← saH_word] at ht
  simp only [moveFail, FabCmd.str, StrCmd.asker, ht]

theorem moveFail_range (ht : tileFail s c (sa.toNat / 2 ^ 16) ⟨k.asid, k.frames⟩ true 0 0 = none)
    (hr : va.toNat % 4 ≠ 0 ∨ sa.toNat % 2 ^ 16 % 4 ≠ 0 ∨ n < 4 ∨ 65536 < n ∨ n % 4 ≠ 0
      ∨ shBytes (tileShape s c (sa.toNat / 2 ^ 16)) < sa.toNat % 2 ^ 16 + n) : moveFail s c k va sa.toNat n = some cBND := by
  rw [← saH_word] at ht hr
  simp only [moveFail, FabCmd.str, StrCmd.asker, ht]
  exact if_pos hr

theorem fabGo_move_fails (hk : k.kind = .fput va sa n ∨ k.kind = .fget va sa n) (hs : k.sent = false) (ht : k.tags = []) {f : Nat}
    (hf : moveFail s c k va sa.toNat n = some f) : fabGo s c k = fabFail s c k f := by
  obtain hk | hk := hk
  · simp only [fabGo, hk, hs, Bool.not_false, if_true, fputGo, hf]
  · simp only [fabGo, hk, ht, List.isEmpty_nil, if_true, fgetGo, hf]

end
end

/-- Settles O40: a command that its checks turn away ends as `fabFail_eq` has it; one with nothing to do, or a signal at this device, ends or
waits for its acknowledgements (`fabClose_clean`). -/
theorem fabricCommandEffects : Obligations.FabricCommandEffects := by
  intro s c k hs htags closes fails
  have failed {cause : Nat} {a : W64} (h : fabGo s c k = fabFail s c k cause a) : fabGo s c k = fails s cause a :=
    h.trans (fabFail_eq s c k cause a)
  refine ⟨fun d hk => ⟨fabGo_flushr_self hk hs, fun h0 h1 hr => failed (fabGo_flushr_unreachable hk hs (not_or.2 ⟨h0, h1⟩) hr)⟩,
    fun hk => fabGo_drain_none hk hs,
    fun b a step hk hf => ⟨fun hb => failed (fabGo_fbar_bad hk hs hf hb),
      fun hb h0 h1 hr => failed (fabGo_fbar_unreachable hk hs hf hb (not_or.2 ⟨h0, h1⟩) hr)⟩,
    fun add sz va v hk => ⟨fun ha => failed (fabGo_fsig_misaligned hk hs ha), fun ha p hp hx => ?signal⟩,
    fun va sa n hk => ⟨fun f ht => failed (fabGo_move_fails hk hs htags (moveFail_tile ht)),
      fun ht hr => failed (fabGo_move_fails hk hs htags (moveFail_range ht hr))⟩⟩
  case signal =>
    intro u z y hf hl
    have hgo : fabGo s c k = fabClose y c { k with sent := true } := by
      rw [fabGo_fsig_home hk hs ha hp hx, signalHome_bytes]
      rfl
    rw [hgo, fabClose_clean (k := { k with sent := true }) hf hl]
    refine ⟨fun hy => ?_, fun hy => if_neg (by rw [hy]; nofun)⟩
    rw [if_pos hy, fabEnd, hk]
    rfl

end Sys2Proof.Machine
end

section
/-! The fabric's events: received flits, timeouts, slots, and the change of roses (R340 to R346, R349, R351, R354 to R358). -/

namespace Sys2Proof.Machine

/-! ### What becomes of the next flit (R340, R341, R345, R346) -/

/-- The device awake, and the next flit taken from its inbox. -/
def tookFlit (s : State) (e : Nat × Flit × List Flit) : State := awake { s with fab := { s.fab with inbox := s.fab.inbox.erase e } }

/-- The same, its sender's allowance spent. -/
def gotFlit (s : State) (p : Nat) (f : Flit) (data : List Flit) : State := useGrant (tookFlit s (p, f, data)) p f (1 + data.length)

theorem useGrant_dev (s : State) (p : Nat) (f : Flit) (n : Nat) : (useGrant s p f n).fab.dev = s.fab.dev := by
  unfold useGrant
  dsimp only
  split
  · rfl
  split
  · rfl
  split <;> rfl

theorem gotFlit_dev (s : State) (p : Nat) (f : Flit) (data : List Flit) : (gotFlit s p f data).fab.dev = s.fab.dev := useGrant_dev ..

section
variable {s : State} {p : Nat} {f : Flit} {data : List Flit} {n : Nat} {g : Nat → Flit → List Flit → State → State}
  (hi : inboxNext s.fab.inbox = some (p, f, data))
include hi

/-- A flit of another type. -/
theorem received_other (hn : f.type.toNat ≠ n) : received s n g = s := by
  simp only [received, hi]
  exact if_pos hn

theorem received_type (hn : f.type.toNat = n) : received s n g =
    receive { s with fab := { s.fab with inbox := s.fab.inbox.erase (p, f, data) } } p f data (g p f data) := by
  simp only [received, hi]
  exact if_neg (not_not.2 hn)

variable (hf : s.host.fault = false)
include hf

theorem exec_reservedTypeFlit (hn : 13 ≤ f.type.toNat) : exec .reservedTypeFlit s = .next (dropFlit (tookFlit s (p, f, data))) := by
  refine congrArg Host.Outcome.next ?_
  rw [hi]
  dsimp only
  rw [if_neg (by omega), hf]
  rfl

variable (hn : f.type.toNat = n)
include hn

theorem received_reservedState (hs : f.state = 3) : received s n g = dropFlit (tookFlit s (p, f, data)) := by
  simp only [received_type hi hn, receive, hf, Bool.false_eq_true, if_false, if_pos hs]
  rfl

variable (hs : f.state ≠ 3)
include hs

theorem received_corrupt (hc : f.check ≠ flitCrc f) : received s n g = deviceFault (tookFlit s (p, f, data)) 3 := by
  simp only [received_type hi hn, receive, hf, Bool.false_eq_true, if_false, if_neg hs, if_pos hc]
  rfl

variable (hc : f.check = flitCrc f)
include hc

theorem received_reservedData (hd : data.filter reservedFlit ≠ []) :
    received s n g = (data.filter reservedFlit).foldl (fun s _ => dropFlit s) (tookFlit s (p, f, data)) := by
  have ha : data.any reservedFlit = true := by simpa using hd
  simp only [received_type hi hn, receive, hf, Bool.false_eq_true, if_false, if_neg hs, if_neg (not_not.2 hc), ha, if_true]
  rfl

variable (hd : ∀ d ∈ data, reservedFlit d = false)
include hd

/-- A flit that passes the checks of its bits goes on, or is acted on where its fields allow it. -/
theorem received_whole : received s n g = if f.dst ≠ s.fab.dev then relayFlit (countBad (gotFlit s p f data) p data) f data
    else if headBad f data then deviceFault (gotFlit s p f data) 3 else g p f data (gotFlit s p f data) := by
  have ha : data.any reservedFlit = false := List.any_eq_false.2 fun d h => by simp [hd d h]
  rw [← gotFlit_dev s p f data]
  simp only [received_type hi hn, receive, hf, Bool.false_eq_true, if_false, if_neg hs, if_neg (not_not.2 hc), ha]
  rfl

theorem received_relayed (ht : f.dst ≠ s.fab.dev) : received s n g = relayFlit (countBad (gotFlit s p f data) p data) f data := by
  rw [received_whole hi hf hn hs hc hd, if_pos ht]

variable (ht : f.dst = s.fab.dev)
include ht

theorem received_headBad (hb : headBad f data = true) : received s n g = deviceFault (gotFlit s p f data) 3 := by
  rw [received_whole hi hf hn hs hc hd, if_neg (not_not.2 ht), if_pos hb]

theorem received_acts (hb : headBad f data = false) : received s n g = g p f data (gotFlit s p f data) := by
  rw [received_whole hi hf hn hs hc hd, if_neg (not_not.2 ht), if_neg (by rw [hb]; nofun)]

end

/-- The events of the flit types that have one, in order (R340). -/
def flitEvents : List Instr := [.writeFlit, .readRequestFlit, .readReplyFlit, .atomicRequestFlit, .atomicReplyFlit, .signalFlit, .acknowledgeFlit,
  .refusalFlit, .allowanceGrantFlit, .drainMarkerFlit, .drainAcknowledgeFlit, .barrierArrivalFlit, .barrierReleaseFlit]

/-- Each is the reception of a flit of its type. -/
theorem flitEvents_received {n : Nat} {i : Instr} (h : flitEvents[n]? = some i) : ∃ g, ∀ s, exec i s = .next (received s n g) := by
  have hm := (List.mem_zipIdx_iff_getElem? (x := (i, n))).2 h
  simp only [flitEvents, List.zipIdx_cons, List.zipIdx_nil, List.mem_cons, List.not_mem_nil, Prod.mk.injEq, or_false, Nat.reduceAdd] at hm
  obtain ⟨rfl, rfl⟩ | ⟨rfl, rfl⟩ | ⟨rfl, rfl⟩ | ⟨rfl, rfl⟩ | ⟨rfl, rfl⟩ | ⟨rfl, rfl⟩ | ⟨rfl, rfl⟩ | ⟨rfl, rfl⟩ | ⟨rfl, rfl⟩ | ⟨rfl, rfl⟩
    | ⟨rfl, rfl⟩ | ⟨rfl, rfl⟩ | ⟨rfl, rfl⟩ := hm
  all_goals exact ⟨_, fun _ => rfl⟩

/-! ### What an acted-on flit does, by its type (R346, R349, R351, R354 to R356) -/

theorem tagRec_countBad (s : State) (p : Nat) (data : List Flit) (t : Nat) : tagRec (countBad s p data) t = tagRec s t := by
  unfold countBad
  dsimp only
  split <;> rfl

/-- The next flit is of type n, for this device, and passes every check. -/
structure Fits (s : State) (p : Nat) (f : Flit) (data : List Flit) (n : Nat) : Prop where
  next : inboxNext s.fab.inbox = some (p, f, data)
  calm : s.host.fault = false
  type : f.type.toNat = n
  state : f.state ≠ 3
  check : f.check = flitCrc f
  plain : ∀ d ∈ data, reservedFlit d = false
  here : f.dst = s.fab.dev
  head : headBad f data = false

/-- A grant of 16 units of allowance, from device 5 to a device that Troham has not numbered yet. -/
def grantOf16 : Flit := sealFlit ⟨8, 0, 5, 2, false, true, 0, 0, 16⟩

/-- It fits, as the only flit that has come to a device at reset. -/
theorem fits_grantOf16 : Fits { fab := { inbox := [(0, grantOf16, [])] } } 0 grantOf16 [] 8 := by
  constructor <;> decide +kernel

section
variable {s : State} {p : Nat} {f : Flit} {data : List Flit}

theorem Fits.acts {n : Nat} (h : Fits s p f data n) {g : Nat → Flit → List Flit → State → State} :
    received s n g = g p f data (gotFlit s p f data) :=
  received_acts h.next h.calm h.type h.state h.check h.plain h.here h.head

/-! Read replies (R349, R351). -/

theorem exec_readReplyFlit_untagged (h : Fits s p f data 2) (ht : tagRec (gotFlit s p f data) f.tag.toNat = none) :
    exec .readReplyFlit s = .next (countBad (gotFlit s p f data) p data) := by
  refine next_eq (h.acts.trans ?_)
  simp only [tagRec_countBad, ht]

theorem exec_readReplyFlit_load {d : Flit} {r : TagRec} {id : Nat} (h : Fits s p f data 2) (hd : data = [d])
    (ht : tagRec (countBad (gotFlit s p f data) p data) f.tag.toNat = some r) (hr : r.use = .req id) :
    let u := countBad (gotFlit s p f data) p data
    let z := if dataBad d then u else keepLine u r (flitWords d (plField f 16 16))
    exec .readReplyFlit s
      = .next (tagClear (remoteGot z r.core id (loadGot r (flitWords d (plField f 16 16)) (dataBad d))) r.tag) := by
  refine next_eq (h.acts.trans ?_)
  subst hd
  simp only [ht, hr]

/-! Atomic requests and replies (R208, R276, R349). -/

/-- What the ATOM of a peer's request does here. -/
def atomOfFlit (u : State) (f : Flit) : State × Val :=
  atomFor u (plField f 0 64) (plField f 20 32 % 256) (plField f 20 32 / 256 % 2 == 1) (plField f 8 64) (plField f 24 64)

section
variable (h : Fits s p f data 3)
include h

theorem exec_atomicRequestFlit_clean {v : Nat} (hk : plField f 16 16 = 0) (hv : (atomOfFlit (gotFlit s p f data) f).2 = .ok v) :
    exec .atomicRequestFlit s = .next (answerWrite (atomOfFlit (gotFlit s p f data) f).1 (plField f 0 64 / 64)
      (mkFlit (atomOfFlit (gotFlit s p f data) f).1 4 f.src.toNat f.tag.toNat 0 true (BitVec.ofNat 512 v))) := by
  refine next_eq (h.acts.trans ?_)
  dsimp only [atomOfFlit] at hv ⊢
  simp only [hk, hv, if_true]

theorem exec_atomicRequestFlit_poisoned {k : Tok} (hk : plField f 16 16 = 0) (hv : (atomOfFlit (gotFlit s p f data) f).2 = .bad k) :
    exec .atomicRequestFlit s
      = .next (answer (atomOfFlit (gotFlit s p f data) f).1 f 4 1 true (BitVec.ofNat 512 k.toNat)) := by
  refine next_eq (h.acts.trans ?_)
  dsimp only [atomOfFlit] at hv ⊢
  simp only [hk, hv, if_true]

/-- A combine joins those in flight. -/
theorem exec_atomicRequestFlit_combine (hk : plField f 16 16 ≠ 0) : exec .atomicRequestFlit s = .next (
    let u := gotFlit s p f data
    { u with comb := { u.comb with
      nextId := u.comb.nextId + 1
      flight := u.comb.flight ++ [{ id := u.comb.nextId, pa := plField f 0 64, user := plField f 16 16 == 2, method := plField f 20 32 % 256
                                    sz := plField f 20 32 / 256 % 2 == 1, b := plField f 8 64, new := plField f 24 64
                                    ident := plField f 32 64, dev := f.src.toNat, tag := f.tag.toNat, sent := u.now }] } }) :=
  next_eq (h.acts.trans (if_neg hk))

end

section
variable (h : Fits s p f data 4)
include h

theorem exec_atomicReplyFlit_untagged (ht : tagRec (gotFlit s p f data) f.tag.toNat = none) :
    exec .atomicReplyFlit s = .next (gotFlit s p f data) := by
  refine next_eq (h.acts.trans ?_)
  simp only [ht]

variable {r : TagRec} {id : Nat} (ht : tagRec (gotFlit s p f data) f.tag.toNat = some r)
include ht

theorem exec_atomicReplyFlit_atom (hr : r.use = .req id) :
    exec .atomicReplyFlit s = .next (tagClear (remoteGot (gotFlit s p f data) r.core id fun n =>
      if f.state = 1 then .carried (BitVec.ofNat 32 (plField f 0 32)) r.ea else .clean (plField f 0 64 % 2 ^ (4 * n))) r.tag) := by
  refine next_eq (h.acts.trans ?_)
  simp only [ht, hr]

theorem exec_atomicReplyFlit_combine (hr : r.use = .comb id) (hs : f.state ≠ 1) :
    exec .atomicReplyFlit s = .next (tagClear (combGot (gotFlit s p f data) id (.clean (plField f 0 64))) r.tag) := by
  refine next_eq (h.acts.trans ?_)
  simp only [ht, hr, if_neg hs]

end

/-! Acknowledgements and refusals (R345, R351). -/

section
variable (h : Fits s p f data 6)
include h

theorem exec_acknowledgeFlit_untagged (ht : tagRec (gotFlit s p f data) f.tag.toNat = none) :
    exec .acknowledgeFlit s = .next (gotFlit s p f data) := by
  refine next_eq (h.acts.trans ?_)
  simp only [ht]

theorem exec_acknowledgeFlit_tagged {r : TagRec} (ht : tagRec (gotFlit s p f data) f.tag.toNat = some r)
    (hr : r.use = .store ∨ ∃ id, r.use = .cmd id) : exec .acknowledgeFlit s
      = .next (if f.state = 1 then tagFail (gotFlit s p f data) r cFAB else tagClear (gotFlit s p f data) r.tag) := by
  refine next_eq (h.acts.trans ?_)
  obtain hr | ⟨id, hr⟩ := hr <;> simp only [ht, hr]

end

section
variable (h : Fits s p f data 7)
include h

theorem exec_refusalFlit_untagged (ht : tagRec (gotFlit s p f data) f.tag.toNat = none) :
    exec .refusalFlit s = .next (gotFlit s p f data) := by
  refine next_eq (h.acts.trans ?_)
  simp only [ht]

theorem exec_refusalFlit_tagged {r : TagRec} (ht : tagRec (gotFlit s p f data) f.tag.toNat = some r) :
    exec .refusalFlit s = .next (tagFail (gotFlit s p f data) r cPEER) := by
  refine next_eq (h.acts.trans ?_)
  simp only [ht]

end

/-! Releases of barriers (R355, R395). -/

section
variable (h : Fits s p f data 12)
include h

theorem exec_barrierReleaseFlit_untagged (ht : tagRec (gotFlit s p f data) f.tag.toNat = none) :
    exec .barrierReleaseFlit s = .next (gotFlit s p f data) := by
  refine next_eq (h.acts.trans ?_)
  simp only [ht]

theorem exec_barrierReleaseFlit_tagged {r : TagRec} {id n a : Nat} {k : FabCmd} {step : Bool}
    (ht : tagRec (gotFlit s p f data) f.tag.toNat = some r) (hr : r.use = .cmd id) (hg : fabGet (gotFlit s p f data) r.core id = some k)
    (hk : k.kind = .fbar n step a) : exec .barrierReleaseFlit s = .next (tagClear (countStep
      (if f.state = 1 then fabFail (gotFlit s p f data) r.core k cINV else fabFree (gotFlit s p f data) r.core k)
      (f.payload.getLsbD 0 && f.state != 1)) r.tag) := by
  refine next_eq (h.acts.trans ?_)
  simp only [ht, hr, hg, hk]

end
end

/-! ### Timeouts, slots and roses (R343, R346, R351, R357, R358) -/

section
variable (s : State)

section
variable {s} {g : BitVec 16} {r : TagRec} (ht : tagRec s g.toNat = some r)
include ht

theorem exec_fabricTimeout_over (hd : r.due ≤ s.now) : exec (.fabricTimeout g) s = .next (tagFail s r cPEER) := by
  refine congrArg Host.Outcome.next ?_
  rw [ht]
  exact if_pos hd

theorem exec_fabricTimeout_early (hd : s.now < r.due) : exec (.fabricTimeout g) s = .next s := by
  refine congrArg Host.Outcome.next ?_
  rw [ht]
  exact if_neg (by omega)

end

theorem exec_slotBoundary (hf : s.host.fault = false) : exec .slotBoundary s = .next (
    let ds := (rowAt s (curSlot s)).filterMap id
    let v := lockCheck s
    fabPush (ds.foldl grantTo { v with fab := { v.fab with
      allow := keepAllow (curSlot v) ds v.fab.allow, relay := keepAllow (curSlot v) ds v.fab.relay } })) :=
  next_eq (if_neg (by rw [hf]; nofun))

theorem exec_roseTakeEffect {n : Nat} (hd : roseDue s = some n) (hn : n ≤ s.now) (hf : s.host.fault = false) :
    exec .roseTakeEffect s = .next (takeRose s) := by
  refine congrArg Host.Outcome.next ?_
  rw [hd]
  exact if_pos ⟨hn, hf⟩

/-- A port's bit cleared in a mask of ports. -/
def clearPort (x : BitVec 8) (p : Nat) : BitVec 8 := x &&& ~~~(BitVec.ofNat 8 (2 ^ p))

theorem getLsbD_clearPort (x : BitVec 8) {p : Nat} (hp : p < 8) (q : Nat) : (clearPort x p).getLsbD q = (x.getLsbD q && decide (q ≠ p)) := by
  have hbit : (BitVec.ofNat 8 (2 ^ p)).getLsbD q = decide (q = p) := by
    rw [BitVec.getLsbD_ofNat, Nat.testBit_two_pow]
    by_cases h : p = q <;> simp [h, eq_comm]
    omega
  rw [clearPort, BitVec.getLsbD_and, BitVec.getLsbD_not, hbit]
  by_cases hq : q < 8
  · simp [hq]
  · simp [BitVec.getLsbD_of_ge x q (by omega)]

/-- A port that has locked in time is up, if it waited for its lock (R358). -/
def relocked (p : Nat) : State := { s with fab := { s.fab with
  down := if s.fab.relock.getLsbD p then clearPort s.fab.down p else s.fab.down
  relock := clearPort s.fab.relock p } }

theorem exec_portRelock (p : Nat) (hn : s.now < s.fab.roseAt + slotCycles) : exec (.portRelock p) s = .next (relocked s p) :=
  next_eq (if_pos hn)

theorem exec_portRelock_late (p : Nat) (hn : s.fab.roseAt + slotCycles ≤ s.now) : exec (.portRelock p) s = .next s :=
  next_eq (if_neg (by omega))

theorem relocked_masks {p : Nat} (hp : p < 8) : (relocked s p).fab.relock.getLsbD p = false
    ∧ (s.fab.relock.getLsbD p = true → (relocked s p).fab.down.getLsbD p = false)
    ∧ ∀ q, q ≠ p → (relocked s p).fab.relock.getLsbD q = s.fab.relock.getLsbD q
      ∧ (relocked s p).fab.down.getLsbD q = s.fab.down.getLsbD q := by
  have own (x : BitVec 8) : (clearPort x p).getLsbD p = false := by simp [getLsbD_clearPort x hp]
  have other (x : BitVec 8) {q : Nat} (hq : q ≠ p) : (clearPort x p).getLsbD q = x.getLsbD q := by simp [getLsbD_clearPort x hp, hq]
  refine ⟨own _, fun hr => ?_, fun q hq => ⟨other _ hq, ?_⟩⟩
  · simp only [relocked, hr, if_true, own]
  · simp only [relocked]
    split
    · exact other _ hq
    · rfl

end

/-- Settles O50: a flit that fails a check ends in one of the `received` lemmas; one that fits acts as its type's lemma has it, and the other
events have a lemma each. -/
theorem fabricEvents : Obligations.FabricEvents := by
  refine ⟨fun s p f data hi hf => ?flits, fun s => ⟨fun g r ht => ⟨exec_fabricTimeout_over ht, exec_fabricTimeout_early ht⟩,
    ⟨_, rfl, rfl, rfl, rfl⟩, exec_slotBoundary s, fun n => exec_roseTakeEffect s,
    fun p hp => ⟨fun hn => ⟨_, exec_portRelock s p hn, relocked_masks s hp⟩, exec_portRelock_late s p⟩⟩⟩
  case flits =>
    intro kinds taken u whole fits src tag pa b op
    have good {n : Nat} (h : fits n) : Fits s p f data n := by
      obtain ⟨hn, ⟨hs, hc, hd⟩, ht, hb⟩ := h
      exact ⟨hi, hf, hn, hs, hc, hd, ht, hb⟩
    refine ⟨fun n i hk => ?types, exec_reservedTypeFlit hi hf, fun h => next_eq (good h).acts, fun h => next_eq (good h).acts,
      fun h => ⟨exec_readReplyFlit_untagged (good h), fun d r id => exec_readReplyFlit_load (good h)⟩,
      fun h => ⟨fun hk => ⟨fun v => exec_atomicRequestFlit_clean (good h) hk, fun k => exec_atomicRequestFlit_poisoned (good h) hk⟩,
        exec_atomicRequestFlit_combine (good h)⟩,
      fun h => ⟨exec_atomicReplyFlit_untagged (good h), fun r id ht =>
        ⟨exec_atomicReplyFlit_atom (good h) ht, exec_atomicReplyFlit_combine (good h) ht⟩⟩,
      fun h => next_eq (good h).acts,
      fun h => ⟨exec_acknowledgeFlit_untagged (good h), fun r => exec_acknowledgeFlit_tagged (good h)⟩,
      fun h => ⟨exec_refusalFlit_untagged (good h), fun r => exec_refusalFlit_tagged (good h)⟩,
      fun h => next_eq (good h).acts, fun h => next_eq (good h).acts, fun h => next_eq (good h).acts, fun h => next_eq (good h).acts,
      fun h => ⟨exec_barrierReleaseFlit_untagged (good h), fun r id k n step a => exec_barrierReleaseFlit_tagged (good h)⟩⟩
    case types =>
      obtain ⟨g, hg⟩ := flitEvents_received hk
      rw [hg]
      exact ⟨fun hn => next_eq (received_other hi hn), fun hn hs => next_eq (received_reservedState hi hf hn hs),
        fun hn hs hc => next_eq (received_corrupt hi hf hn hs hc), fun hn hs hc hd => next_eq (received_reservedData hi hf hn hs hc hd),
        fun hn ⟨hs, hc, hd⟩ ht => next_eq (received_relayed hi hf hn hs hc hd ht),
        fun hn ⟨hs, hc, hd⟩ ht hb => next_eq (received_headBad hi hf hn hs hc hd ht hb)⟩

end Sys2Proof.Machine
end
